-- ==== Sys2Proof/Word.lean ====
section
/-! DEFINITION. The word types of the OL-8860 and nothing else: registers are 32 bits (R31, R34),
pairs and addresses 64 bits (R74, R169), operand codes 7 bits (R73). -/
namespace Sys2Proof

/-- One byte of any memory space (R193). -/
abbrev Byte := BitVec 8

/-- One register, literal, control word or instruction word. -/
abbrev Word := BitVec 32

/-- A register pair, an address, a program counter. -/
abbrev DWord := BitVec 64

/-- A 7-bit operand code (R73). -/
abbrev Code := BitVec 7

end Sys2Proof
end

