-- ==== Sys2Proof/Config.lean ====
section
/-! DEFINITION. What the part fixes (R8, R13, R14, R50) and the free values: constants with no body, so that no proof
can see what they are. A free value applied to `State.free` is fresh each time the step advances that counter. -/
namespace Sys2Proof.Config

/-- Cores of a die (R13). -/
def coresPerDie : Nat := 48

/-- Cores of the module (R13). -/
def cores : Nat := 192

/-- Teams and waves a core holds (R50). -/
def teamsPerCore : Nat := 16
def wavesPerCore : Nat := 64

/-- The free choice among the agents that may move next (log entry 6). -/
opaque freeChoice : Nat → Nat

/-- A free 64-bit value: where the dispatcher allocates an image (R29, R67), and bytes the spec leaves undefined. -/
opaque freeDWord : Nat → BitVec 64

/-- A free word: what a read answers where no register lies, and measured power (R338, R345). -/
opaque freeWord : Nat → BitVec 32

/-- FRCP, FRSQ, FEXP2 and FLOG2 (function 0 to 3) of an operand in a format: whether the delivered result is the
enclosing value of greater magnitude (R395). A function of the operand, since the part returns the same bits everywhere. -/
opaque approxUp : (function : Nat) → (format : Nat) → (operand : Nat) → Bool

/-- The signature of an attestation report, 29,792 bytes (R343). -/
opaque signature : (nonce : List Byte) → (measures : List (List Byte)) → (modnum : Word) → BitVec 238336

end Sys2Proof.Config
end

