-- ==== Sys2Proof/Machine/Tbl.lean ====
section
/-! DEFINITION. Finite tables held as lists of (key, value) pairs, the one shape in which the state
holds sparse data: register files, memories, waves, teams, cores. `put`, `del` and `mod` keep keys
strictly rising; `Tbl.set` also drops an entry equal to the default, so that equal contents are equal
data. -/
namespace Sys2Proof.Machine

/-- A table keyed by naturals. -/
abbrev Tbl (α : Type) := List (Nat × α)

variable {α : Type}

/-- The entry at a key. -/
def Tbl.find? (k : Nat) : Tbl α → Option α
  | [] => none
  | (k', v) :: t => if k' = k then some v else Tbl.find? k t

/-- The entry at a key, or the default the caller names. -/
def Tbl.get (t : Tbl α) (k : Nat) (d : α) : α := (Tbl.find? k t).getD d

/-- Insert or replace, keeping the keys rising. -/
def Tbl.put (k : Nat) (v : α) : Tbl α → Tbl α
  | [] => [(k, v)]
  | (k', v') :: t =>
    if k < k' then (k, v) :: (k', v') :: t
    else if k = k' then (k, v) :: t
    else (k', v') :: Tbl.put k v t

/-- Remove a key. -/
def Tbl.del (k : Nat) (t : Tbl α) : Tbl α := t.filter fun p => p.1 != k

/-- Change the entry at a key where there is one. -/
def Tbl.mod (t : Tbl α) (k : Nat) (f : α → α) : Tbl α :=
  t.map fun p => if p.1 = k then (p.1, f p.2) else p

/-- Change every entry. -/
def Tbl.mapAll (t : Tbl α) (f : Nat → α → α) : Tbl α := t.map fun p => (p.1, f p.1 p.2)

/-- Change every entry or drop it. -/
def Tbl.sift (f : Nat → α → Option α) : Tbl α → Tbl α
  | [] => []
  | (k, v) :: t =>
    match f k v with
    | some v' => (k, v') :: Tbl.sift f t
    | none => Tbl.del k (Tbl.sift f t)

/-- Keys in rising order, from a lower bound on. -/
def Tbl.risingFrom : Nat → Tbl α → Bool
  | _, [] => true
  | lo, (k, _) :: t => decide (lo ≤ k) && Tbl.risingFrom (k + 1) t

/-- The canonical form of a sparse file with default `d`: keys strictly rising, no entry equal to `d`. -/
def Tbl.canon [DecidableEq α] (d : α) (t : Tbl α) : Bool :=
  Tbl.risingFrom 0 t && t.all fun p => decide (p.2 ≠ d)

/-- Write a sparse file: writing the default removes the entry. -/
def Tbl.set [DecidableEq α] (d : α) (t : Tbl α) (k : Nat) (v : α) : Tbl α :=
  if v = d then Tbl.del k t else Tbl.put k v t

end Sys2Proof.Machine
end

