-- ==== Sys2Proof/Syntax.lean ====
section
/-! DEFINITION. The syntax of Skaid and of the part's steps: one constructor of `Instr` per row of the
opcode table. Instruction rows carry the fields of their words (R109 to R113); rows that are steps of the
part, not encodings, carry what the agent or the outside world decides. -/
namespace Sys2Proof

/-- The operand fields of a format-R word (R109) with the literal that follows it (R110), zero when none
does. `nw` is bit 21: NW, or H in a load. -/
structure Ops where
  s : Bool
  nw : Bool
  d : Code
  a : Code
  b : Code
  lit : Word
  deriving DecidableEq, Repr

/-- A control word (R111). -/
structure Ctl where
  scope : BitVec 3
  order : BitVec 2
  sub : BitVec 4
  type : BitVec 4
  spec : BitVec 19
  deriving DecidableEq, Repr

/-- Where an uncorrectable error strikes (R241). A word of a dirty L1 line may hold the state of several teams, which the step names; every
other word of a core holds that of one. -/
inductive ErrorPlace where
  | cleanLine | walkCache | tlb                -- dropped and refetched
  | dirtyL2 (addr : Nat) | hbm (addr : Nat)     -- poisoned word of memory
  | registerLine (team : Nat) | dirtyL1 (teams : List Nat) | scratchpad (team : Nat) | bivouac (team : Nat)
  | dieScratch (die offset : Nat)
  deriving DecidableEq, Repr

/-- What a member of a collective contributes to its instance of number `inst` of a tag (R335, R336); `ctx` is the context of the instance
(R27). With `p` 0 it is no contribution but word that the instance has failed at that member. -/
structure CollStep where
  inst : Nat
  ctx : Nat
  rank : Nat
  kind : Nat
  type : Nat
  n : Nat
  p : Nat
  send : List Byte
  deriving DecidableEq, Repr

/-- A request that comes in over Fapol Link (R334): a load, a store, or an atomic of the operation `sub` and the type codes of R132 with
its operand and, for a compare and swap (`sub` 9), its swap value. -/
inductive PeerOp where
  | load | store | atomic (sub type operand swap : Nat)
  deriving DecidableEq, Repr

/-- Requests of the baseboard controller (R342, R345). -/
inductive SidebandReq where
  | power | temperatures | bootReport | setPwrcap (watts : Nat)
  deriving DecidableEq, Repr

/-- The data of an RDMA WRITE, and its immediate word where it has one (R340). -/
structure RdmaData where
  bytes : List Byte
  imm : Option Word
  deriving DecidableEq, Repr

/-- What boot measures: the firmware, and firmware's further measurements (R342, R343). -/
structure Measures where
  boot : List Byte
  more : List (List Byte)
  deriving DecidableEq, Repr

/-- What is set before context 0 runs: MODNUM by the fabric manager (R332), and the image area of context 0 (R28; log entry 3). -/
structure BootSet where
  modnum : Word
  imgb : DWord
  imgl : DWord
  deriving DecidableEq, Repr

/-- What a peer or a host reports: its FABSTAT, with bit 31 set where it cannot be reached, and the range that it exports (R332, R333). -/
structure PeerReport where
  fabstat : Word
  base : Nat
  len : Nat
  deriving DecidableEq, Repr

/-- Every row of the opcode table. -/
inductive Instr where
  -- Class 0, integer arithmetic (R121)
  | add (t : BitVec 2) (o : Ops)
  | sub (t : BitVec 2) (o : Ops)
  | addx (t : BitVec 2) (o : Ops)
  | subx (t : BitVec 2) (o : Ops)
  | adds (t : BitVec 2) (o : Ops)
  | subs (t : BitVec 2) (o : Ops)
  | mul (t : BitVec 2) (o : Ops)
  | mulh (t : BitVec 2) (o : Ops)
  | mad (t : BitVec 2) (o : Ops)
  | div (t : BitVec 2) (o : Ops)
  | rem (t : BitVec 2) (o : Ops)
  | min (t : BitVec 2) (o : Ops)
  | max (t : BitVec 2) (o : Ops)
  | clamp (t : BitVec 2) (o : Ops)
  | lea (t : BitVec 2) (o : Ops)
  | absd (t : BitVec 2) (o : Ops)
  -- Class 1, bits, compare and select (R122)
  | andB (w : Bool) (o : Ops)
  | orB (w : Bool) (o : Ops)
  | xorB (w : Bool) (o : Ops)
  | andn (w : Bool) (o : Ops)
  | notB (w : Bool) (o : Ops)
  | lut3 (w : Bool) (o : Ops)
  | shl (w : Bool) (o : Ops)
  | shr (w : Bool) (o : Ops)
  | sar (w : Bool) (o : Ops)
  | rol (w : Bool) (o : Ops)
  | bfx (w : Bool) (o : Ops)
  | bfxs (w : Bool) (o : Ops)
  | bfi (w : Bool) (o : Ops)
  | popc (w : Bool) (o : Ops)
  | clz (w : Bool) (o : Ops)
  | ctz (w : Bool) (o : Ops)
  | brev (w : Bool) (o : Ops)
  | prmb (w : Bool) (o : Ops)
  | sel (w : Bool) (o : Ops)
  | mov (w : Bool) (o : Ops)
  | cmpEq (w : Bool) (o : Ops)
  | cmpNe (w : Bool) (o : Ops)
  | cmpLt (w : Bool) (o : Ops)
  | cmpLe (w : Bool) (o : Ops)
  | cmpLtn (w : Bool) (o : Ops)
  | cmpLen (w : Bool) (o : Ops)
  | testZ (w : Bool) (o : Ops)
  | testNz (w : Bool) (o : Ops)
  -- Class 2, floating point (R123)
  | fadd (f : BitVec 2) (o : Ops)
  | fsub (f : BitVec 2) (o : Ops)
  | fmul (f : BitVec 2) (o : Ops)
  | fma (f : BitVec 2) (o : Ops)
  | fmin (f : BitVec 2) (o : Ops)
  | fmax (f : BitVec 2) (o : Ops)
  | fdiv (f : BitVec 2) (o : Ops)
  | fsqrt (f : BitVec 2) (o : Ops)
  | frcp (f : BitVec 2) (o : Ops)
  | frsq (f : BitVec 2) (o : Ops)
  | fexp2 (f : BitVec 2) (o : Ops)
  | flog2 (f : BitVec 2) (o : Ops)
  | fcmp (c : BitVec 2) (f : BitVec 2) (o : Ops)
  -- Class 3, conversion, narrow formats, dot and quantise (R124)
  | cvt (src : BitVec 4) (o : Ops)
  | frnd (o : Ops)
  | fclass (o : Ops)
  | pack (o : Ops)
  | unpk (o : Ops)
  | dot4 (k : BitVec 2) (o : Ops)
  | dot2 (k : Bool) (o : Ops)
  | dot8 (o : Ops)
  | qnt (k : BitVec 2) (o : Ops)
  | dqnt (k : BitVec 2) (o : Ops)
  | bxenc (k : BitVec 2) (o : Ops)
  | bxdecBx3 (o : Ops)
  | bxdecBx5 (o : Ops)
  | bxdecBx8 (o : Ops)
  -- Class 4, control and lanes (R125)
  | br (off : BitVec 22)
  | brc (cond : Code) (off : BitVec 15)
  | brx (o : Ops) (c : Ctl)
  | call (off : BitVec 22)
  | callx (o : Ops)
  | ret (o : Ops)
  | jenr (o : Ops)
  | jwait (o : Ops)
  | exit (o : Ops)
  | wbase (o : Ops)
  | nop (o : Ops)
  | yield (o : Ops)
  | ballot (o : Ops)
  | vany (o : Ops)
  | vall (o : Ops)
  | rankl (o : Ops)
  | elect (o : Ops)
  | rdln (o : Ops)
  | wrln (o : Ops)
  | shfl (o : Ops)
  | shflx (o : Ops)
  | shflu (o : Ops)
  | shfld (o : Ops)
  | scana (o : Ops)
  | reda (o : Ops)
  | redm (o : Ops)
  | syncw (o : Ops) (c : Ctl)
  | actm (o : Ops)
  | sleep (o : Ops)
  -- Class 5, memory (R126)
  | ld (k : BitVec 3) (o : Ops)
  | ldt (k : BitVec 3) (o : Ops)
  | ldp (k : BitVec 3) (o : Ops)
  | pf (o : Ops)
  | st (k : BitVec 3) (o : Ops)
  | stt (k : BitVec 3) (o : Ops)
  | stp (k : BitVec 3) (o : Ops)
  | stc (o : Ops)
  | lde (o : Ops)
  | pushv (o : Ops)
  | popv (o : Ops)
  | atom (o : Ops) (c : Ctl)
  | cas (o : Ops) (c : Ctl)
  | red (o : Ops) (c : Ctl)
  | lda (o : Ops) (c : Ctl)
  | stl (o : Ops) (c : Ctl)
  | fence (o : Ops) (c : Ctl)
  | cinv (o : Ops)
  | cwb (o : Ops)
  -- Class 6, engines, matrix and barriers (R127)
  | cpy (o : Ops) (c : Ctl)
  | cpyg (o : Ops) (c : Ctl)
  | cpys (o : Ops) (c : Ctl)
  | cpyr (o : Ops) (c : Ctl)
  | coll (o : Ops) (c : Ctl)
  | tlrd (o : Ops)
  | tlarm (o : Ops) (c : Ctl)
  | mxw (o : Ops) (c : Ctl)
  | mxs (o : Ops) (c : Ctl)
  | mxd (o : Ops) (c : Ctl)
  | mxz (o : Ops) (c : Ctl)
  | bari (o : Ops) (c : Ctl)
  | bara (o : Ops) (c : Ctl)
  | barx (o : Ops) (c : Ctl)
  | barw (o : Ops) (c : Ctl)
  | bart (o : Ops) (c : Ctl)
  | bard (o : Ops) (c : Ctl)
  | crit (o : Ops)
  | uncrit (o : Ops)
  -- Class 7, system, publication, speculation and work creation (R128)
  | publish (o : Ops) (c : Ctl)
  | adopt (o : Ops) (c : Ctl)
  | retract (o : Ops) (c : Ctl)
  | icinv (o : Ops) (c : Ctl)
  | tryR (o : Ops) (c : Ctl)
  | commit (o : Ops) (c : Ctl)
  | abort (o : Ops) (c : Ctl)
  | tstat (o : Ops)
  | launch (o : Ops)
  | tsub (o : Ops)
  | tdone (o : Ops)
  | spawn (o : Ops)
  | erarm (o : Ops)
  | erpass (o : Ops)
  | trap (o : Ops)
  | rte (o : Ops)
  | rdsr (o : Ops)
  | wrsr (o : Ops)
  | bkpt (o : Ops)
  | sysc (o : Ops)
  | halt (o : Ops)
  | tlbi (o : Ops) (c : Ctl)
  | ctxsw (o : Ops)
  -- Steps of the part (95_what_each_step_holds.md)
  | registerWrite (wave : Nat) (num : Nat) (val : Word)
  | dspszWrite (die : Nat) (size : Nat)
  | dspszChangeComplete (die : Nat)
  | ctxctlCreate (ctx : Nat)
  | contextCreateComplete (ctx : Nat)
  | ctxctlDestroy (ctx : Nat)
  | contextDestroyComplete (ctx : Nat)
  | fqresRetry (ctx : Nat) (tag : Nat)
  | fqresFail (ctx : Nat) (tag : Nat)
  | lqtailWrite (queue : Nat) (val : Word)
  | faultRecordWrite (ctx : Nat)
  | dispatcherTakeRecord (queue : Nat)
  | pendingLaunchTake (team : Nat)
  | teamPlacement (grid : Nat)
  | placementReserveTimeout (grid : Nat)
  | taskLaunch (die : Nat) (ctx : Nat)
  | erTaskPick (die : Nat) (ctx : Nat) (gid : Nat)
  | erTaskPass (die : Nat) (ctx : Nat) (gid : Nat)
  | teamRetire (team : Nat)
  | swapOut (team : Nat)
  | preemption (team : Nat)
  | teamRestore (saved : Nat)
  | forcedSwitch (wave : Nat)
  | registerLineFill (wave : Nat) (line : Nat) (victimWave : Nat) (victimLine : Nat)
  | blockedLaneWake (wave : Nat) (lane : Nat)
  | sleepExpire (wave : Nat) (lane : Nat)
  | spawnTimerExpire (core : Nat) (bin : Nat)
  | spawnBatchStart (core : Nat) (bin : Nat)
  | asyncFaultDelivery (wave : Nat) (lane : Nat)
  | tryConflictAbort (core : Nat) (space : Nat) (line : Nat)
  | tlbiComplete (ctx : Nat) (scope : Nat) (core : Nat) (page : Option DWord)
  | retractionComplete (ctx : Nat) (region : Nat)
  | matrixCommandStart (core : Nat)
  | mxwLoad (core : Nat)
  | mxsStream (core : Nat)
  | mxdDrain (core : Nat)
  | mxzClear (core : Nat)
  | copySegmentLand (core : Nat) (ctx : Nat) (pos : Nat)
  | copyCommandComplete (core : Nat) (engine : Option Nat)
  | collComplete (die : Nat)
  | slotBoundary (core : Nat)
  | bwWindow (die : Nat)
  | watchdogExpire (ctx : Nat)
  | critLimitExpire (team : Nat)
  | thermalHot (core : Nat) (celsius : Nat)
  | thermalMigrationTick (core : Nat)
  | thermalCool (core : Nat) (celsius : Nat)
  | corePowerGate (core : Nat)
  | wakeMessage (core : Nat)
  | powerCapStep (watts : Nat)
  | counterSweep (core : Nat) (ctx : Nat) (bank : Nat) (idx : Nat)
  | sampleRecordWrite (ctx : Nat) (times : List Byte)
  | eccCorrected (core : Nat)
  | uncorrectableError (place : ErrorPlace)
  | hostWindowAccess (write : Bool) (num : Nat) (val : Word)
  | fabstatHaltSet
  | fabstatHaltClear
  | peerAccess (op : PeerOp) (addr : Nat) (len : Nat) (data : List Byte)
  | launchWindowWrite (window : Nat) (data : List Byte)
  | rdmaAtomic (qp : Nat)
  | rdmaWrite (qp : Nat) (addr : Nat) (data : RdmaData)
  | rdmaRead (qp : Nat) (addr : Nat) (len : Nat)
  | sendMsg (qp : Nat) (data : List Byte)
  | powerOnBoot (failedLinks : BitVec 4) (sigOk : Bool) (version : Word) (measures : Measures) (set : BootSet)
  | warmReset
  | attestationRequest (nonce : List Byte)
  | unassignedOpcode (second : Bool)
  | hostMemoryAccess (write : Bool) (addr : Nat) (len : Nat) (data : List Byte)
  | fabricStatusUpdate (module : Nat) (status : PeerReport)
  | collectiveStep (die : Nat) (tag : Word) (from_ : CollStep)
  | sidebandMailboxRequest (req : SidebandReq)
  | priorityFlowControl (port : Nat) (prio : Nat) (pause : Bool)
  | dcqcnRateControl (qp : Nat)
  | coreDump (team : Nat)
  deriving DecidableEq, Repr

end Sys2Proof
end

