-- ==== Sys2Proof/Machine/State.lean ====
section
/-! DEFINITION. The state of the module as plain data: lanes, waves, teams, cores, dies, contexts, the
dispatcher and the paths outside the package; and its value right after reset. INVENTORY.md lists every
field with the rule that names it and its reset value. -/
namespace Sys2Proof.Machine

/-! ## Stops -/

/-- Why the machine stops. -/
inductive Fault where
  /-- Raised by `step` when a boot that failed left the module in reset (R12, R342) and no input is pending: the
  spec lets nothing run then. Safe: the part runs no instruction either. -/
  | moduleInReset
  deriving DecidableEq, Repr

/-- Why an instruction has no meaning. -/
inductive Refusal where
  /-- Raised by an arm of `exec` that has no meaning yet. Safe: the machine stops where the part goes on. -/
  | notModelled (mnemonic : String)
  deriving DecidableEq, Repr

/-! ## Small parts -/

/-- The 32-byte object of a barrier (R211): in the memory of a team, or at a die's own offset. -/
inductive ObjRef where
  | team (team off : Nat)
  | die (die off : Nat)
  deriving DecidableEq, Repr

/-- A place in memory (R168): a physical address, an offset of a team's memory, an offset of a die's scratchpad. -/
inductive Place where
  | mem (pa : Nat)
  | team (t off : Nat)
  | die (d off : Nat)
  deriving DecidableEq, Repr

/-- What a Blocked lane waits for (R32, R232). `next` is the address past the instruction where the wait ends
past it; the other waits end at the instruction, which executes afresh. A BARW's `acquire` is 0 where it acquires nothing, 1 where its
acquire drops no line, 2 where it drops the clean ones (R196). -/
inductive Wait where
  | barw (obj : ObjRef) (p : Word) (acquire : Nat) (next : DWord) (since : Nat)   -- R214, R53
  | sleep (wake : Nat) (next : DWord)                                 -- R448
  | halt (next : DWord)                                               -- R400
  | line (lines : List Nat)                                           -- R68: 0-63 vector, 64-71 scalar
  | queue (engine : Option Nat)                                       -- R290: a copy context, or the matrix engine
  | slot                                                              -- R223
  | tag                                                               -- R225
  | residency                                                         -- R262
  | spawnBin (bin : Nat)                                              -- R62
  | dsp                                                               -- R19
  | operand                                                           -- R32, R232: at an instruction that has had no effect yet
  | completion                                                        -- R32, R41: of an instruction that has had its effect
  | ctxsw (teams : List Nat) (done : List Nat) (ctx : Nat) (hold : Bool) (reg : Nat) (next : DWord)   -- R379: teams to pre-empt, and those pre-empted
  deriving DecidableEq, Repr

/-- The life states of a lane (R32). Handler is Ready, or another state, with the handler-mode bit (R33). A Held lane
names its join register 0 to 3, or 4 for SYNCW, and the address past its instruction. -/
inductive Life where
  | ready
  | held (on : Nat) (next : DWord)
  | blocked (w : Wait)
  | parked (slot : Nat)
  | exited
  deriving DecidableEq, Repr

/-- Residency in a generated-code region (R262). -/
structure Resid where
  region : Nat
  gen : Word
  die : Nat
  deriving DecidableEq, Repr

/-- A byte of a space, as belay entries and watch sets name it: 0 global by physical address, 1 team memory,
2 die scratchpad by die offset (R275, R277). -/
structure Loc where
  space : Nat
  addr : Nat
  deriving DecidableEq, Repr

/-- A failure of an engine command waiting for its lane's next instruction (R222). -/
structure Late where
  cause : Nat
  info : Word
  addr : DWord
  deriving DecidableEq, Repr

/-- A load that its lane has performed before an earlier access (R198): its place, the bytes it obtained, and whether it
went past the L1. -/
structure Early where
  place : Place
  data : List Byte
  bypass : Bool
  deriving DecidableEq, Repr

/-- What an access that waits does at its place: a store of bytes, past the L1 or not; or a reduction at a scope, one step for each operand in
turn (R132, R216, R434). -/
inductive Effect where
  | store (data : List Byte) (bypass : Bool)
  | reduce (sub type scope : Nat) (operands : List Nat)
  deriving DecidableEq, Repr

/-- A store or a reduction that has been issued and not yet performed (R198, R434): the lanes whose access it is, its place, what it does
there, and the issue that it comes from, by its clk and its group. -/
structure Pend where
  lanes : BitVec 32
  place : Place
  effect : Effect
  clk : Nat
  group : BitVec 32
  deriving DecidableEq, Repr

/-! ## Lanes and waves -/

/-- A lane (R31). Latches are listed from b0; a missing or `none` entry is invalid (R75, R79). `pages` are the 4 KiB pages, by number,
whose translations the lane's buffered stores and hoisted loads used (R278); `waitsOn` is the barrier at whose BARW the lane of a Swapped
team waits (R232, R236). -/
structure Lane where
  pc : DWord
  handler : Bool
  life : Life
  v : Tbl Word
  latch : List (Option DWord)
  tcause : Word
  tinfo : Word
  tpc : DWord
  taddr : DWord
  tparent : Word
  tsibs : Word
  depth : Nat
  status : Word
  waveMode : Bool
  target : DWord
  belay : List (Loc × Byte)
  watch : List Loc
  pages : List Nat
  conflict : Bool
  resid : Option Resid
  hresid : Option Resid
  age : Nat
  late : List Late
  early : List Early
  waitsOn : Option ObjRef
  deriving DecidableEq, Repr

/-- A lane that is not there: Exited, everything else zero. -/
def Lane.gone : Lane :=
  { pc := 0, handler := false, life := .exited, v := [], latch := [], tcause := 0, tinfo := 0, tpc := 0, taddr := 0,
    tparent := 0, tsibs := 0, depth := 0, status := 0, waveMode := false, target := 0, belay := [], watch := [],
    pages := [], conflict := false, resid := none, hresid := none, age := 0, late := [], early := [], waitsOn := none }

/-- A join register (R46). -/
structure Join where
  enrolled : BitVec 32
  arrived : BitVec 32
  deriving DecidableEq, Repr

/-- The SYNCW state of a wave (R456): the pending mask and order, and the arrived mask. -/
structure Sync where
  pending : Option (BitVec 32 × BitVec 2)
  arrived : BitVec 32
  deriving DecidableEq, Repr

/-- What one lane's parked access logs (R224): the address it translates, operand bits, and its fault tag, which a migration wait
lacks. -/
structure ParkLane where
  addr : DWord
  data : BitVec 128
  tag : Option Nat
  deriving DecidableEq, Repr

/-- A bivouac slot (R223, R224). -/
structure Slot where
  pc : DWord
  w0 : Word
  w1 : Word
  instr : Instr
  vb : Nat
  sb : Nat
  lanes : Tbl ParkLane
  deriving DecidableEq, Repr

/-- A wave (R34) with its special registers of owner W (R82, R304, R307, R324, R332). `shadow` holds copies of register lines, a vector
line as register n mod 8, lane L at 32 * (n mod 8) + L (R274); `covered` are the lines its checkpoint covers; `used` gives the clk of the last use
of a register line (R68); `fresh` is a spawned wave that has not fetched yet (R63); `rank` is the clk of its placement, `order` the one
that step 3 of R321 goes by (R477); `stores` are stores that wait to be performed, oldest first (R198). -/
structure Wave where
  team : Nat
  waveId : Nat
  lanes : Tbl Lane
  s : Tbl Word
  vb : Nat
  sb : Nat
  slatch : List (Option DWord)
  joins : Tbl Join
  sync : Sync
  fcsr : Word
  wstat : Word
  tstatus : Word
  ssp : Nat
  sslim : Nat
  trapvec : DWord
  cntsel : Word
  ctxsel : Word
  slotsel : Word
  bwsel : Word
  lqsel : Word
  peersel : Word
  lwsel : Word
  rimg : DWord
  spillAt : DWord
  srLow : Tbl Word
  srHigh : Tbl Word
  shadow : Tbl (List Word)
  covered : List Nat
  absent : List Nat
  dirty : List Nat
  used : Tbl Nat
  stores : List Pend
  slots : Tbl Slot
  islot : Nat
  spawned : Bool
  fresh : Bool
  critSaved : Bool
  rank : Nat
  order : Nat
  lastIssue : Nat
  run : Nat
  deriving DecidableEq, Repr

/-! ## Work: launch records, tasks, graphs, grids, teams -/

/-- A launch record (R309), fields as read; `rsv` is the reserved bytes 56 to 63. -/
structure LaunchRec where
  entry : DWord
  arg : DWord
  gx : Nat
  gy : Nat
  gz : Nat
  waves : Nat
  prio : Nat
  vregs : Nat
  sregs : Nat
  flags : Nat
  tmem : Nat
  spill : Nat
  pool : Nat
  completion : DWord
  rsv : DWord
  deriving DecidableEq, Repr

/-- A task record (R315); `rsv` says that a reserved byte is not zero. -/
structure TaskRec where
  entry : DWord
  arg : DWord
  tile : DWord
  succ : DWord
  ropes : DWord
  gid : Nat
  flags : Nat
  waves : Nat
  kib : Nat
  rsv : Bool
  deriving DecidableEq, Repr

/-- The task that a team runs (R315, R316). -/
structure TaskRef where
  die : Nat
  num : Nat
  task : TaskRec
  graph : Bool
  idx : Nat
  deriving DecidableEq, Repr

/-- A task of an armed graph (R319). -/
structure GTask where
  task : TaskRec
  ropes : List Nat
  turns : Nat
  mark : Bool
  running : Bool
  deriving DecidableEq, Repr

/-- A rope as the task unit holds it (R317, R479); `towardB` is the orientation. -/
structure Rope where
  a : Nat
  b : Nat
  towardB : Bool
  deriving DecidableEq, Repr

/-- An armed graph (R317 to R319, R328, R329). -/
structure Graph where
  ctx : Nat
  gid : Nat
  rounds : Nat
  tasks : List GTask
  ropes : List Rope
  ropeBase : DWord
  bar : ObjRef
  deriving DecidableEq, Repr

/-- Where a grid comes from (R312): a launch queue, a team's LAUNCH, or a die's task unit. -/
inductive Source where
  | queue (q : Nat)
  | child (team : Nat)
  | task (die : Nat)
  deriving DecidableEq, Repr

/-- A grid with teams yet to place or to retire (R54, R55, R312); `bar` is the object of its completion barrier, as the record named it when
it was taken (R309). -/
structure Grid where
  ctx : Nat
  record : LaunchRec
  num : Nat
  depth : Nat
  prio : Nat
  source : Source
  next : Nat
  retired : Nat
  lost : Bool
  task : Option TaskRef
  waitSince : Option Nat
  reserved : Bool
  redo : List Nat
  root : Nat
  bar : Option ObjRef
  deriving DecidableEq, Repr

/-- A spawn bin (R59 to R62): its key, its requests in order, the core's number of the first of them, its timer, and whether it has fired
and waits. -/
structure Bin where
  team : Nat
  entry : DWord
  args : List Word
  seq : Nat
  due : Nat
  fired : Bool
  deriving DecidableEq, Repr

/-- Team states (R52); Retired teams leave the table, and a killed team stays until its started commands end (R478). -/
inductive TeamState where
  | resident | awaiting | queued | swapped | killed
  deriving DecidableEq, Repr

/-- A record that a LAUNCH has accepted and that waits (R57): its number, and its completion barrier's object as it was then (R309). -/
structure Taken where
  num : Nat
  record : LaunchRec
  bar : Option ObjRef
  deriving DecidableEq, Repr

/-- A placed team (R50 to R58). `saved` are the bins of a saved team by number (R234); `moved` is the hot core that a team left by thermal
migration (R323). -/
structure Team where
  ctx : Nat
  core : Nat
  rslot : Nat
  state : TeamState
  grid : Nat
  lin : Nat
  depth : Nat
  prio : Nat
  vcount : Nat
  scount : Nat
  nWaves : Nat
  pool : Nat
  spillSize : Nat
  alloc : Nat
  tmem : Tbl Byte
  pending : List Taken
  children : Nat
  task : Option TaskRef
  tdone : Bool
  since : Nat
  preempt : Option Nat
  swapping : Bool
  image : DWord
  root : Nat
  saved : Tbl Bin
  moved : Option Nat
  deriving DecidableEq, Repr

/-! ## Engines -/

/-- A tensor descriptor (R298). -/
structure Desc where
  base : DWord
  rank : Nat
  esize : Nat
  sizes : List Nat
  strides : List Nat
  deriving DecidableEq, Repr

/-- What a command does: a box copy (kind 0 CPY, 2 CPYS, 3 CPYR with its operation and type), a gather (CPYG), or a
matrix command (R292, R300). Spaces are 0 global, 1 team memory, 2 die scratchpad. -/
inductive CmdOp where
  | box (kind op type space : Nat) (desc : Desc) (origin extent : List Nat) (off : Nat)
  | gather (space : Nat) (desc : Desc) (index : List Nat) (off : Nat)
  | mxw (active fold : Bool) (fmt w sv : Nat)
  | mxs (fmt tile : Nat) (clear swap : Bool) (act row0 m k : Nat)
  | mxd (type tile space : Nat) (add : Bool) (dst row0 m stride : Nat)
  | mxz (tile : Nat)
  deriving DecidableEq, Repr

/-- An engine command (R290): its number, its issuer, what it does, where it signals, how far it has come, the fault tag
it waits on with the address that met the absent page (R296), whether its lanes have ended with their wave (R222), and the words that it
has read ahead, by the place of each (R302). -/
structure Cmd where
  num : Nat
  team : Nat
  ctx : Nat
  wave : Nat
  lanes : BitVec 32
  scope : Nat
  bar : Option ObjRef
  op : CmdOp
  pc : DWord
  started : Bool
  finished : Bool
  pos : Nat
  tag : Option Nat
  va : DWord
  ended : Bool
  seen : List (Place × List Byte) := []
  deriving DecidableEq, Repr

/-- A copy-engine context of a core (R208, R290). -/
structure CopyCtx where
  queue : List Cmd
  issued : Nat
  done : Nat
  deriving DecidableEq, Repr

/-- Exact values of matrix elements and of float formats: `fin neg m e` is (-1)^neg m 2^e with m > 0. -/
inductive XV where
  | nan (signalling : Bool)
  | inf (neg : Bool)
  | zero (neg : Bool)
  | fin (neg : Bool) (m : Nat) (e : Int)
  deriving DecidableEq, Repr

/-- A weight buffer (R288): format, owner, the weights, and the side-list values of its escapes (R165). -/
structure WBuf where
  fmt : Nat
  owner : Option Nat
  w : Tbl XV
  escapes : Tbl XV
  deriving DecidableEq, Repr

/-- A collective in flight (R336): `steps` are the contributions that have come, `page` the fault tag it waits on, with
the address; `ended` as of a command; `inst` its number among those of its member and tag; `core`, `loc` and `teamId` what a fault record
says of its lanes (R226), also after its team has gone (R478). -/
structure Coll where
  num : Nat
  team : Nat
  ctx : Nat
  wave : Nat
  lanes : BitVec 32
  scope : Nat
  bar : Option ObjRef
  recv : DWord
  kind : Nat
  type : Nat
  n : Nat
  p : Nat
  rank : Nat
  tag : Word
  members : List Nat
  steps : List CollStep
  failed : Bool
  pc : DWord
  page : Option Nat
  va : DWord
  ended : Bool
  inst : Nat
  core : Nat
  loc : Word
  teamId : Word
  deriving DecidableEq, Repr

/-! ## Cores and dies -/

/-- A line of the L1 data cache (R188): 128 bytes and which of them are dirty. -/
structure L1Line where
  data : BitVec 1024
  dirty : BitVec 128
  deriving DecidableEq, Repr

/-- A line of the instruction cache (R263). -/
structure ICLine where
  ctx : Nat
  line : Nat
  gen : Word
  data : BitVec 1024
  deriving DecidableEq, Repr

/-- A cached leaf translation (R179, R183): the page's virtual and physical base, its size and attributes. -/
structure TlbEntry where
  ctx : Nat
  va : Nat
  pa : Nat
  size : Nat
  usr : Bool
  ex : Bool
  wr : Bool
  rd : Bool
  mig : Bool
  deriving DecidableEq, Repr

/-- A cached table entry of the walk (R183): the level whose table it names and that table's address. -/
structure WalkEntry where
  ctx : Nat
  level : Nat
  tag : Nat
  table : Nat
  deriving DecidableEq, Repr

/-- An adoption-table entry (R263). -/
structure Adopt where
  ctx : Nat
  region : Nat
  gen : Word
  deriving DecidableEq, Repr

/-- An event counter (R244): its value, the clk to which it has counted, and its value at the last sweep. -/
structure Counter where
  value : Word
  at_ : Nat
  swept : Word
  deriving DecidableEq, Repr

/-- A core (R14). `spawned` counts the spawn requests, `requests` the global requests of each context since a marked one (R245);
`counters` are keyed context * 256 + bank * 32 + number; `halves` are keyed slot * 2 + half: the clk at which a half of an issue slot's datapath that was held is free
again (R41).
Lists of critical waves are in the order of their CRIT (R321). -/
structure Core where
  l1 : Tbl L1Line
  icache : List ICLine
  tlb : List TlbEntry
  adopt : List Adopt
  copy : Tbl CopyCtx
  mq : List Cmd
  mIssued : Nat
  mDone : Nat
  active : WBuf
  shadow : WBuf
  tiles : Tbl Word
  tileTag : Tbl Nat
  slottab : Tbl Word
  slotPending : Tbl Word
  slotNow : Nat
  bins : Tbl Bin
  spawned : Nat
  requests : Tbl Nat
  counters : Tbl Counter
  halves : Tbl Nat
  crit : List Nat
  hot : Bool
  hotSince : Nat
  gated : Bool
  celsius : Nat
  corrected : Nat
  deriving DecidableEq, Repr

/-- A weight buffer after reset (R288). -/
def WBuf.reset : WBuf := { fmt := 0, owner := none, w := [], escapes := [] }

/-- A core after reset (R288, R304). -/
def Core.reset : Core :=
  { l1 := [], icache := [], tlb := [], adopt := [], copy := [], mq := [], mIssued := 0, mDone := 0,
    active := WBuf.reset, shadow := WBuf.reset, tiles := [], tileTag := [], slottab := [], slotPending := [],
    slotNow := 0, bins := [], spawned := 0, requests := [], counters := [], halves := [], crit := [], hot := false, hotSince := 0, gated := false, celsius := 0, corrected := 0 }

/-- A count of the residency table (R262). -/
structure ResidCount where
  ctx : Nat
  region : Nat
  gen : Word
  count : Nat
  deriving DecidableEq, Repr

/-- A die's task unit for one context (R208, R315). -/
structure TaskUnit where
  pool : List (Nat × TaskRec)
  issued : Nat
  outstanding : List Nat
  deriving DecidableEq, Repr

/-- A die (R15, R16). `units` is keyed by context; `bwshare` by controller * 16 + context;
`collCount` are the instances of a tag that each member of a context has issued there (R336). -/
structure Die where
  dspcfg : Word
  dspNext : Option Nat
  dsp : Tbl Byte
  tlb : List TlbEntry
  walk : List WalkEntry
  resid : List ResidCount
  units : Tbl TaskUnit
  graphs : List Graph
  colls : List Coll
  collSteps : List (Word × CollStep)
  collIssued : Nat
  collCount : Tbl Nat
  plcmask : DWord
  therm : Word
  bwshare : Tbl Word
  bwPending : Tbl Word
  bwNow : Nat
  dspwin : Tbl Word
  tqcfg : Tbl Word
  poison : List Nat
  deriving DecidableEq, Repr

/-- A die after reset (R16, R307). -/
def Die.reset : Die :=
  { dspcfg := 0, dspNext := none, dsp := [], tlb := [], walk := [], resid := [], units := [], graphs := [], colls := [],
    collSteps := [], collIssued := 0, collCount := [], plcmask := 0, therm := 0x5F05, bwshare := [], bwPending := [], bwNow := 0,
    dspwin := [], tqcfg := [], poison := [] }

/-! ## Contexts and the module -/

/-- A fault tag in use (R225, R459); `resolved` says how a resolution answered it that lanes of saved teams have yet to follow: true for fail
(R229, R233). -/
structure Tag where
  page : DWord
  sysc : Bool
  resolved : Option Bool
  deriving DecidableEq, Repr

/-- A fault record (R226). -/
structure FaultRec where
  addr : DWord
  kind : Nat
  access : Nat
  tag : Nat
  ctx : Nat
  loc : Word
  mask : BitVec 32
  teamId : Word
  pc : DWord
  deriving DecidableEq, Repr

/-- A marked global request (R245): the PC, the address and the location. -/
structure Sample where
  pc : DWord
  addr : DWord
  loc : Word
  deriving DecidableEq, Repr

/-- A context (R27) with its registers of owner C (R82, R173, R227, R256, R28). `retracts` names the team and the die of each
pending retraction (R268). -/
structure Ctx where
  live : Bool
  busy : Bool
  imgb : DWord
  imgl : DWord
  ptroot : DWord
  hwbase : DWord
  hwlim : DWord
  hwoff : DWord
  tvdef : DWord
  spwndly : Word
  featmask : DWord
  rgtbase : DWord
  critmax : Word
  swapthr : Word
  fqbase : DWord
  fqsize : Word
  fqhead : Word
  fqtail : Word
  fqbar : Word
  wdtime : Word
  cnttot : DWord
  sampcfg : Word
  samphead : Word
  sampbuf : DWord
  samples : List Sample
  tags : Tbl Tag
  waiting : List FaultRec
  retracts : Tbl (Nat × Nat)
  hold : Bool
  launchIssued : Nat
  launchOut : List Nat
  wdSince : Option Nat
  creating : Bool
  deriving DecidableEq, Repr

/-- A context after reset (R28, R82, R173, R227, R256). -/
def Ctx.reset : Ctx :=
  { live := false, busy := false, imgb := 0, imgl := 0, ptroot := 0, hwbase := 0, hwlim := 0, hwoff := 0, tvdef := 0,
    spwndly := 256, featmask := 0xFF, rgtbase := 0, critmax := 0, swapthr := 0, fqbase := 0, fqsize := 16, fqhead := 0,
    fqtail := 0, fqbar := 0, wdtime := 0x0004_0000, cnttot := 0, sampcfg := 0, samphead := 0, sampbuf := 0, samples := [], tags := [],
    waiting := [], retracts := [], hold := false, launchIssued := 0, launchOut := [], wdSince := none, creating := false }

/-- A launch queue (R307). -/
structure Queue where
  cfg : Word
  base : DWord
  tail : Word
  head : Word
  deriving DecidableEq, Repr

/-- A launch queue after reset (R307). -/
def Queue.reset : Queue := { cfg := 4, base := 0, tail := 0, head := 0 }

/-- What this module knows of a peer (R332, R333): its FABSTAT, whether it is reachable, and its exported range. -/
structure Peer where
  fabstat : Word
  reachable : Bool
  expbase : Nat
  explen : Nat
  deriving DecidableEq, Repr

/-- Boot (R342): in reset, halted by a failure, or running. -/
inductive Boot where
  | inReset | linkFailure | signatureFailure | running
  deriving DecidableEq, Repr

/-- The module's own registers and paths outside the package (R332, R338 to R345). `host` is the range each host node
exports, base and length; `more` are firmware's further measurements; `qps` the queue pairs in use; `peers` the modules of the domain. `bridge` holds the bridge's copies of the selectors. -/
structure Mod where
  modnum : Word
  fabstat : Word
  expbase : DWord
  explen : DWord
  hcqbase : DWord
  hcqcfg : Word
  hcqhead : Word
  pwrcap : Word
  brsel : Word
  bridge : Tbl Word
  bridgeLow : Tbl Word
  bridgeHigh : Tbl Word
  lwcfg : Tbl Word
  peers : Tbl Peer
  host : Tbl (Nat × Nat)
  boot : Boot
  links : BitVec 4
  version : Word
  measure : List Byte
  more : List (List Byte)
  mhz : Nat
  paused : Tbl Bool
  rates : Tbl Nat
  qps : List Nat
  inbox : List (Nat × List Byte)
  haltedAt : Option Nat
  deriving DecidableEq, Repr

/-- The module's registers after reset (R332). -/
def Mod.reset : Mod :=
  { modnum := 0, fabstat := 0, expbase := 0, explen := 0, hcqbase := 0, hcqcfg := 0, hcqhead := 0, pwrcap := 2500,
    brsel := 0, bridge := [], bridgeLow := [], bridgeHigh := [], lwcfg := [], peers := [], host := [], boot := .inReset,
    links := 0, version := 0, measure := [], more := [], mhz := 1750, paused := [], rates := [], qps := [], inbox := [], haltedAt := none }

/-- A store that a core dump lists as not performed (R239): of a parked lane, or of an engine command or a collective, which a command
without a store of its own stands in with no bytes. -/
structure DumpItem where
  die : Nat
  core : Nat
  wave : Nat
  lane : Nat
  addr : DWord
  data : List Byte
  deriving DecidableEq, Repr

/-- A message that leaves the module: the answer to a read, a NAK, a report (R338, R340 to R343). -/
inductive Out where
  | hostRead (data : List Byte)
  | windowRead (val : Word)
  | peerRead (data : List Byte)
  | peerFault (addr : Nat)
  | rdmaRead (qp : Nat) (data : List Byte)
  | rdmaAck (qp : Nat)
  | rdmaNak (qp : Nat)
  | windowAck (window : Nat)
  | rnrNak (window : Nat)
  | accessNak (window : Nat)
  | sideband (data : List Nat)
  | bootReport (status : Nat) (links : BitVec 4) (version : Word) (measure : List Byte)
  | attestation (nonce : List Byte) (measures : List (List Byte)) (modnum : Word) (signature : BitVec 238336)
  | received (qp : Nat) (imm : Word)
  | dump (team : Nat) (left : List DumpItem)
  deriving DecidableEq, Repr

/-! ## The executing group, the environment's choices, the whole -/

/-- One pick of an issue cycle (R37): a wave and the lanes of one of its groups. -/
structure Pick where
  wave : Nat
  mask : BitVec 32
  deriving DecidableEq, Repr

/-- The executing group (R36, R42): the wave, the lanes, the instruction's address, its words and its length. `pre` is
the wave as both picks of the clk read it, when an earlier pick of the same clk has already written; `keepLatches` says
that the clk's switch-point invalidation has been done; `shifted` and `shiftedS` say whose latches this clk's picks
have shifted; `counted` that a pick's instruction has been counted in the run (R78); `lazy` that stores of the pick wait to be performed
(R198), `linger` that its lanes wait for its completion (R32);
`raised` are the flags the clk's other pick raised; `frozen`
lists registers (lane, number) whose value of this clk stands, `frozenLanes` and `frozenLines` the lanes and scalar
lines restored by an abort of this clk (R42, R281, R474). -/
structure Cur where
  wave : Nat
  mask : BitVec 32
  pc : DWord
  w0 : Word
  w1 : Word
  len : Nat
  pre : Option Wave
  keepLatches : Bool
  shifted : BitVec 32
  shiftedS : Bool
  counted : Bool
  lazy : Bool
  linger : Bool
  raised : BitVec 5
  frozen : List (Nat × Nat)
  frozenLanes : BitVec 32
  frozenLines : List Nat
  second : Option Pick
  deriving DecidableEq, Repr

/-- No executing group. -/
def Cur.none : Cur :=
  { wave := 0, mask := 0, pc := 0, w0 := 0, w1 := 0, len := 4, pre := Option.none, keepLatches := false, shifted := 0,
    shiftedS := false, counted := false, lazy := false, linger := false, raised := 0, frozen := [], frozenLanes := 0, frozenLines := [], second := Option.none }

/-- A choice the environment makes, in the order it makes them: a step of the part or of the outside world, which wave's
slot issues next, the same with its stores performed later, with a wait for its completion, or with a wait for an operand before it (R32), the
performing of a store that waits, a load performed early (R198), a word that the engines of a core read now (R302), the loss of a cached line (R206,
R278, R286), or a cached instruction word taken anew (R269). -/
inductive Input where
  | event (i : Instr)
  | issue (wave : Nat)
  | issueLate (wave : Nat)
  | issueLong (wave : Nat)
  | issueWait (wave : Nat)
  | perform (wave n : Nat)
  | loadEarly (wave lane : Nat) (place : Place) (n : Nat) (bypass : Bool)
  | engineRead (core : Nat) (place : Place)
  | l1Evict (core line : Nat)
  | icEvict (core line : Nat)
  | icRenew (core n word : Nat)
  | tlbEvict (core : Nat)
  deriving DecidableEq, Repr

/-- The machine. `robin` is the source last served at each priority; `left` what each killed team left undone (R239); `graphBars`
are the barriers that a graph's completion has advanced (R328). Waves are keyed team * 64 + WAVEID, cores die * 48 + core, dies 0 to 3, contexts 0 to 15. -/
structure State where
  mem : List Host.Cell
  poison : List Nat
  waves : Tbl Wave
  teams : Tbl Team
  grids : Tbl Grid
  cores : Tbl Core
  dies : Tbl Die
  ctxs : Tbl Ctx
  queues : Tbl Queue
  mod : Mod
  arms : List ObjRef
  cur : Cur
  inputs : List Input
  out : List Out
  clk : Nat
  free : Nat
  nextTeam : Nat
  nextGrid : Nat
  robin : Tbl Nat
  left : Tbl (List DumpItem)
  graphBars : List ObjRef
  deriving DecidableEq, Repr

/-- The machine right after reset: every register at the value the spec states, memory with nothing listed, no team, and
the module in reset until it boots (R342). Context 0 is LIVE (R28). -/
def State.reset : State :=
  { mem := [], poison := [], waves := [], teams := [], grids := [], cores := [], dies := [],
    ctxs := [(0, { Ctx.reset with live := true })], queues := [], mod := Mod.reset, arms := [], cur := Cur.none,
    inputs := [], out := [], clk := 0, free := 0, nextTeam := 0, nextGrid := 0, robin := [], left := [], graphBars := [] }

end Sys2Proof.Machine
end

