-- ==== Sys2Proof/Machine/Num.lean ====
section
/-! DEFINITION. Numbers on this part (R146 to R167): formats, exact values, rounding with its flags, and the
operations on them. Arithmetic is exact on naturals and integers and is narrowed once (R152). -/
namespace Sys2Proof.Machine

/-! ## Formats -/

/-- A float format (R148): fraction bits, exponent bits, bias, largest finite value `maxM * 2^maxE`, default NaN. -/
structure Fmt where
  mb : Nat
  eb : Nat
  bias : Nat
  maxM : Nat
  maxE : Int
  nan : Nat
  deriving DecidableEq, Repr

namespace Fmt
def f16 : Fmt := ⟨10, 5, 15, 2047, 5, 0x7E00⟩
def bf16 : Fmt := ⟨7, 8, 127, 255, 120, 0x7FC0⟩
def f32 : Fmt := ⟨23, 8, 127, 0xFFFFFF, 104, 0x7FC00000⟩
def f64 : Fmt := ⟨52, 11, 1023, 0x1FFFFFFFFFFFFF, 971, 0x7FF8000000000000⟩
def e4m3 : Fmt := ⟨3, 4, 7, 7, 6, 0x7F⟩
def e5m2 : Fmt := ⟨2, 5, 15, 7, 13, 0x7E⟩
def e2m1 : Fmt := ⟨1, 2, 1, 3, 1, 0⟩

/-- The exponent of the smallest normal magnitude. -/
def emin (f : Fmt) : Int := 1 - f.bias

/-- The exponent of the smallest subnormal. -/
def qmin (f : Fmt) : Int := f.emin - f.mb

/-- The width in bits. -/
def width (f : Fmt) : Nat := f.mb + f.eb + 1
end Fmt

/-- The format of a float type code 8 to 14 (R118). -/
def fmtOfType (t : Nat) : Fmt :=
  match t with
  | 8 => Fmt.f16 | 9 => Fmt.bf16 | 10 => Fmt.f32 | 11 => Fmt.f64 | 12 => Fmt.e4m3 | 13 => Fmt.e5m2 | _ => Fmt.e2m1

/-- Whether the format has infinities (R149). -/
def hasInf (f : Fmt) : Bool := f != Fmt.e4m3 && f != Fmt.e2m1

/-- Number of bits of a natural. -/
def bitLen (m : Nat) : Nat := if m = 0 then 0 else Nat.log2 m + 1

/-- `m * 2^k` for k ≥ 0, `floor (m / 2^-k)` for k < 0. -/
def scaleNat (m : Nat) (k : Int) : Nat := if 0 ≤ k then m * 2 ^ k.toNat else m / 2 ^ (-k).toNat

/-- The value of a code (R149, R150, R156): e2m1's escape reads as a quiet NaN. -/
def decodeF (f : Fmt) (bits : Nat) : XV :=
  let m := bits % 2 ^ f.mb
  let e := bits / 2 ^ f.mb % 2 ^ f.eb
  let neg := bits / 2 ^ (f.mb + f.eb) % 2 == 1
  if f = Fmt.e2m1 ∧ bits % 16 = 8 then .nan false
  else if f = Fmt.e4m3 ∧ bits % 128 = 127 then .nan false
  else if hasInf f && e == 2 ^ f.eb - 1 then
    if m = 0 then .inf neg else .nan (decide (f ≠ Fmt.e5m2 ∧ m < 2 ^ (f.mb - 1)))
  else if e = 0 then if m = 0 then .zero neg else .fin neg m f.qmin
  else .fin neg (m + 2 ^ f.mb) (f.qmin + (e - 1 : Nat))

/-- The sign bit of a format in place. -/
def signBit (f : Fmt) (neg : Bool) : Nat := if neg then 2 ^ (f.mb + f.eb) else 0

/-- The code of a finite magnitude `m * 2^e` that the format represents. -/
def encodeFin (f : Fmt) (neg : Bool) (m : Nat) (e : Int) : Nat :=
  let l := bitLen m
  signBit f neg +
  (if m = 0 then 0
   else if e + l - 1 < f.emin then scaleNat m (e - f.qmin)
   else (e + l - 1 + f.bias).toNat * 2 ^ f.mb + (scaleNat m (f.mb + 1 - l : Int) - 2 ^ f.mb))

/-- The code of an infinity. -/
def infCode (f : Fmt) (neg : Bool) : Nat := signBit f neg + (2 ^ f.eb - 1) * 2 ^ f.mb

/-- The code of the largest finite magnitude. -/
def maxCode (f : Fmt) (neg : Bool) : Nat := encodeFin f neg f.maxM f.maxE

/-! ## Rounding (R152) -/

/-- Rounding modes by number: 0 RNE, 1 RTZ, 2 RDN, 3 RUP, 4 RNA (R84); 5 rounds away from zero. -/
def roundUp (mode : Nat) (neg odd : Bool) (cmpHalf : Ordering) : Bool :=
  match mode with
  | 0 => cmpHalf == .gt || (cmpHalf == .eq && odd)
  | 1 => false
  | 2 => neg
  | 3 => !neg
  | 4 => cmpHalf != .lt
  | _ => true

/-- Round `m * 2^e` (plus something below one unit when `sticky`) to a multiple of `2^q`: the multiple, and whether it is
inexact. With `sticky`, `q` exceeds `e`. -/
def roundAt (mode : Nat) (neg : Bool) (m : Nat) (e q : Int) (sticky : Bool) : Nat × Bool :=
  if q ≤ e then (m * 2 ^ (e - q).toNat, sticky)
  else
    let sh := (q - e).toNat
    let quot := m / 2 ^ sh
    let low := m % 2 ^ sh
    let half := 2 ^ (sh - 1)
    let inexact := low != 0 || sticky
    let c : Ordering := if low < half then .lt else if low = half && !sticky then .eq else .gt
    (if inexact && roundUp mode neg (quot % 2 == 1) c then quot + 1 else quot, inexact)

/-- Flags in the order of FCSR.FLAGS (R84, R153). -/
abbrev Flags := BitVec 5
def fInvalid : Flags := 1
def fDivZero : Flags := 2
def fOverflow : Flags := 4
def fUnderflow : Flags := 8
def fInexact : Flags := 16

/-- A flag raised when a condition holds. -/
def flagIf (c : Bool) (f : Flags) : Flags := if c then f else 0

/-- A result: the code and the flags it raises. -/
structure FRes where
  bits : Nat
  flags : Flags
  deriving DecidableEq, Repr

/-- `a * 2^e ≤ b * 2^g` on magnitudes. -/
def leMag (a : Nat) (e : Int) (b : Nat) (g : Int) : Bool :=
  if e ≤ g then decide (a ≤ b * 2 ^ (g - e).toNat) else decide (a * 2 ^ (e - g).toNat ≤ b)

/-- round() of a nonzero magnitude (R143, R152 to R154). `sat` asks for the largest finite value on overflow. -/
def roundMag (f : Fmt) (mode : Nat) (ftz sat : Bool) (neg : Bool) (m : Nat) (e : Int) (sticky : Bool) : FRes :=
  let qu := e + bitLen m - (f.mb + 1)
  let u := roundAt mode neg m e qu sticky
  let r := if qu < f.qmin then roundAt mode neg m e f.qmin sticky else u
  let q := if qu < f.qmin then f.qmin else qu
  let tiny := u.1 != 0 && !leMag 1 f.emin u.1 qu
  if !leMag u.1 qu f.maxM f.maxE then
    let toMax := sat || (match mode with | 1 => true | 2 => !neg | 3 => neg | _ => false)
    ⟨if sat then maxCode f neg
     else if f = Fmt.e4m3 then signBit f neg + f.nan
     else if f = Fmt.e2m1 || toMax then maxCode f neg
     else infCode f neg, fOverflow ||| fInexact⟩
  else if ftz && r.1 != 0 && !leMag 1 f.emin r.1 q then
    ⟨signBit f neg, fUnderflow ||| fInexact⟩
  else
    ⟨if f = Fmt.e2m1 ∧ r.1 = 0 then 0 else encodeFin f neg r.1 q,
     flagIf (tiny && r.2) fUnderflow ||| flagIf r.2 fInexact⟩

/-- A conversion or arithmetic result of an exact value (R151, R152, R157). -/
def roundXV (f : Fmt) (mode : Nat) (ftz sat : Bool) (x : XV) : FRes :=
  match x with
  | .nan s => ⟨f.nan, flagIf (s || f == Fmt.e2m1) fInvalid⟩
  | .inf neg =>
    if sat && !(f.mb + f.eb ≥ 15) then ⟨maxCode f neg, 0⟩
    else if f = Fmt.e4m3 then ⟨signBit f neg + f.nan, fOverflow⟩
    else if f = Fmt.e2m1 then ⟨maxCode f neg, fOverflow⟩
    else ⟨infCode f neg, 0⟩
  | .zero neg => ⟨if f = Fmt.e2m1 then 0 else signBit f neg, 0⟩
  | .fin neg m e => roundMag f mode ftz (sat && !(f.mb + f.eb ≥ 15)) neg m e false

/-! ## Exact arithmetic -/

/-- An exact value from a signed multiple of `2^e`; an exact zero takes the sign `z`. -/
def XV.ofInt (i : Int) (e : Int) (z : Bool) : XV :=
  if i = 0 then .zero z else .fin (decide (i < 0)) i.natAbs e

/-- The signed integer of a finite value at exponent `e`, which is at most its own. -/
def XV.at (x : XV) (g : Int) : Int :=
  match x with
  | .fin neg m e => let v : Int := (m * 2 ^ (e - g).toNat : Nat); if neg then -v else v
  | _ => 0

/-- The exponent of a finite value. -/
def XV.exp : XV → Int
  | .fin _ _ e => e
  | _ => 0

/-- Negation. -/
def XV.neg : XV → XV
  | .nan s => .nan s
  | .inf n => .inf !n
  | .zero n => .zero !n
  | .fin n m e => .fin (!n) m e

/-- Sum with the flags it raises; an exact zero from operands of opposite sign is +0, or -0 under RDN (R152). -/
def XV.add (mode : Nat) (x y : XV) : XV × Flags :=
  match x, y with
  | .nan s, .nan t => (.nan false, flagIf (s || t) fInvalid)
  | .nan s, _ => (.nan false, flagIf s fInvalid)
  | _, .nan t => (.nan false, flagIf t fInvalid)
  | .inf a, .inf b => if a = b then (.inf a, 0) else (.nan false, fInvalid)
  | .inf a, _ => (.inf a, 0)
  | _, .inf b => (.inf b, 0)
  | .zero a, .zero b => (.zero (if a = b then a else mode == 2), 0)
  | .zero _, y => (y, 0)
  | x, .zero _ => (x, 0)
  | x, y =>
    let g := min x.exp y.exp
    (XV.ofInt (x.at g + y.at g) g (mode == 2), 0)

/-- Product with the flags it raises (R153). -/
def XV.mul (x y : XV) : XV × Flags :=
  match x, y with
  | .nan s, .nan t => (.nan false, flagIf (s || t) fInvalid)
  | .nan s, _ => (.nan false, flagIf s fInvalid)
  | _, .nan t => (.nan false, flagIf t fInvalid)
  | .inf _, .zero _ => (.nan false, fInvalid)
  | .zero _, .inf _ => (.nan false, fInvalid)
  | .inf a, .inf b => (.inf (a != b), 0)
  | .inf a, .fin b _ _ => (.inf (a != b), 0)
  | .fin a _ _, .inf b => (.inf (a != b), 0)
  | .zero a, .zero b => (.zero (a != b), 0)
  | .zero a, .fin b _ _ => (.zero (a != b), 0)
  | .fin a _ _, .zero b => (.zero (a != b), 0)
  | .fin a m e, .fin b n g => (.fin (a != b) (m * n) (e + g), 0)

/-- A subnormal operand is zero of its sign under FTZ (R154). -/
def XV.flush (ftz : Bool) (f : Fmt) (x : XV) : XV :=
  match x with
  | .fin neg m e => if ftz && !leMag 1 f.emin m e then .zero neg else x
  | _ => x

/-- A NaN of either kind. -/
def XV.isNan : XV → Bool
  | .nan _ => true
  | _ => false

/-- A signalling NaN. -/
def XV.isSnan : XV → Bool
  | .nan s => s
  | _ => false

/-- Compare values that are not NaN; -0 and +0 are equal. -/
def XV.cmp (x y : XV) : Ordering :=
  match x, y with
  | .inf a, .inf b => if a = b then .eq else if a then .lt else .gt
  | .inf a, _ => if a then .lt else .gt
  | _, .inf b => if b then .gt else .lt
  | x, y => let g := min x.exp y.exp; compare (x.at g) (y.at g)

/-- The sign of a value that is not NaN. -/
def XV.sign : XV → Bool
  | .nan _ => false
  | .inf n => n
  | .zero n => n
  | .fin n _ _ => n

/-! ## Operations of class 2 (R392 to R394) -/

/-- Rounding context of the wave: FCSR.RM as arithmetic uses it, and FTZ. -/
structure FEnv where
  mode : Nat
  ftz : Bool
  deriving DecidableEq, Repr

/-- An operand of a format, subnormals flushed under FTZ. -/
def FEnv.read (v : FEnv) (f : Fmt) (bits : Nat) : XV := (decodeF f bits).flush v.ftz f

/-- Round a value and its flags. -/
def FEnv.done (v : FEnv) (f : Fmt) (r : XV × Flags) : FRes :=
  let q := roundXV f v.mode v.ftz false r.1
  ⟨q.bits, q.flags ||| r.2⟩

def fAdd (v : FEnv) (f : Fmt) (a b : Nat) : FRes := v.done f ((v.read f a).add v.mode (v.read f b))

def fSub (v : FEnv) (f : Fmt) (a b : Nat) : FRes := v.done f ((v.read f a).add v.mode (v.read f b).neg)

def fMul (v : FEnv) (f : Fmt) (a b : Nat) : FRes := v.done f ((v.read f a).mul (v.read f b))

/-- a × b + d, rounded once (R392). -/
def fFma (v : FEnv) (f : Fmt) (a b d : Nat) : FRes :=
  let p := (v.read f a).mul (v.read f b)
  let r := p.1.add v.mode (v.read f d)
  v.done f (r.1, r.2 ||| p.2)

/-- a / b (R392, R153). -/
def fDiv (v : FEnv) (f : Fmt) (a b : Nat) : FRes :=
  match v.read f a, v.read f b with
  | .nan s, .nan t => ⟨f.nan, flagIf (s || t) fInvalid⟩
  | .nan s, _ => ⟨f.nan, flagIf s fInvalid⟩
  | _, .nan t => ⟨f.nan, flagIf t fInvalid⟩
  | .inf _, .inf _ => ⟨f.nan, fInvalid⟩
  | .zero _, .zero _ => ⟨f.nan, fInvalid⟩
  | .inf x, .zero y => ⟨infCode f (x != y), 0⟩
  | .inf x, .fin y _ _ => ⟨infCode f (x != y), 0⟩
  | .zero x, .inf y => ⟨signBit f (x != y), 0⟩
  | .zero x, .fin y _ _ => ⟨signBit f (x != y), 0⟩
  | .fin x _ _, .inf y => ⟨signBit f (x != y), 0⟩
  | .fin x _ _, .zero y => ⟨infCode f (x != y), fDivZero⟩
  | .fin x m e, .fin y n g =>
    let k := bitLen n + 70
    roundMag f v.mode v.ftz false (x != y) (m * 2 ^ k / n) (e - g - k) (m * 2 ^ k % n != 0)

/-- Integer square root by bits: the largest r below 2^k with r * r ≤ n. -/
def isqrtBits (n : Nat) : (k : Nat) → (r : Nat) → Nat
  | 0, r => r
  | k + 1, r => let c := r + 2 ^ k; isqrtBits n k (if c * c ≤ n then c else r)

/-- Integer square root. -/
def isqrt (n : Nat) : Nat := isqrtBits n (bitLen n / 2 + 1) 0

/-- √a (R392). -/
def fSqrt (v : FEnv) (f : Fmt) (a : Nat) : FRes :=
  match v.read f a with
  | .nan s => ⟨f.nan, flagIf s fInvalid⟩
  | .zero n => ⟨signBit f n, 0⟩
  | .inf n => if n then ⟨f.nan, fInvalid⟩ else ⟨infCode f false, 0⟩
  | .fin n m e =>
    if n then ⟨f.nan, fInvalid⟩
    else
      let odd := e % 2 == 1
      let m' := (if odd then m * 2 else m) * 2 ^ 140
      let e' := (if odd then e - 1 else e) - 140
      let r := isqrt m'
      roundMag f v.mode v.ftz false false r (e' / 2) (r * r != m')

/-- FMIN and FMAX (R393): the operand chosen, flushed under FTZ, with -0 below +0. -/
def fMinMax (isMax : Bool) (v : FEnv) (f : Fmt) (a b : Nat) : FRes :=
  let x := v.read f a
  let y := v.read f b
  let code := fun (z : XV) (bits : Nat) => match z with | .zero n => signBit f n | _ => bits
  let fl := flagIf (x.isSnan || y.isSnan) fInvalid
  if x.isNan && y.isNan then ⟨f.nan, fl⟩
  else if x.isNan then ⟨code y b, fl⟩
  else if y.isNan then ⟨code x a, fl⟩
  else
    let less := match x.cmp y with | .lt => true | .gt => false | .eq => x.sign && !y.sign
    ⟨if less != isMax then code x a else code y b, fl⟩

/-- FCMP (R394): c is 0 .eq, 1 .lt, 2 .le, 3 .un. -/
def fCmp (c : Nat) (v : FEnv) (f : Fmt) (a b : Nat) : Bool × Flags :=
  let x := v.read f a
  let y := v.read f b
  let anyNan := x.isNan || y.isNan
  let fl := flagIf (if c = 1 ∨ c = 2 then anyNan else x.isSnan || y.isSnan) fInvalid
  (match c with
   | 0 => !anyNan && x.cmp y == .eq
   | 1 => !anyNan && x.cmp y == .lt
   | 2 => !anyNan && x.cmp y != .gt
   | _ => anyNan, fl)

/-! ## The approximate functions (R395) -/

/-- Deliver one of the two representable values that enclose a nonzero exact value: which one is free. -/
def approx (fn : Nat) (v : FEnv) (f : Fmt) (operand : Nat) (neg : Bool) (m : Nat) (e : Int) (sticky : Bool) : FRes :=
  roundMag f (if Config.approxUp fn f.width operand then 5 else 1) v.ftz false neg m e sticky

/-- The same, for a value the rule makes exact where it is representable: no free choice enters when nothing is lost. -/
def approxOr (fn : Nat) (v : FEnv) (f : Fmt) (operand : Nat) (neg : Bool) (m : Nat) (e : Int) (sticky : Bool) : FRes :=
  let r := roundMag f 1 v.ftz false neg m e sticky
  if r.flags == 0 then r else approx fn v f operand neg m e sticky

/-- FRCP. -/
def fRcp (v : FEnv) (f : Fmt) (a : Nat) : FRes :=
  match v.read f a with
  | .nan s => ⟨f.nan, flagIf s fInvalid⟩
  | .zero n => ⟨infCode f n, fDivZero⟩
  | .inf n => ⟨signBit f n, 0⟩
  | .fin n m e => let k := bitLen m + 70; approxOr 0 v f a n (2 ^ k / m) (-e - k) (2 ^ k % m != 0)

/-- FRSQ. -/
def fRsq (v : FEnv) (f : Fmt) (a : Nat) : FRes :=
  match v.read f a with
  | .nan s => ⟨f.nan, flagIf s fInvalid⟩
  | .zero n => ⟨infCode f n, fDivZero⟩
  | .inf n => if n then ⟨f.nan, fInvalid⟩ else ⟨0, 0⟩
  | .fin n m e =>
    if n then ⟨f.nan, fInvalid⟩
    else
      let m' := if e % 2 == 1 then m * 2 else m
      let e' := if e % 2 == 1 then e - 1 else e
      let k := 2 * (bitLen m' + 70)
      let r := isqrt (2 ^ k / m')
      approxOr 1 v f a false r (-(e' / 2) - (k / 2 : Nat)) (r * r * m' != 2 ^ k)

/-- Product of the constants 2^(2^-i) whose bits are set, in units of 2^-128, truncated: `c` is 2^(2^-i). -/
def exp2Frac (frac : Nat) : (bits : Nat) → (c acc : Nat) → Nat
  | 0, _, acc => acc
  | k + 1, c, acc => exp2Frac frac k (isqrt (c * 2 ^ 128)) (if frac.testBit k then acc * c / 2 ^ 128 else acc)

/-- FEXP2. -/
def fExp2 (v : FEnv) (f : Fmt) (a : Nat) : FRes :=
  match v.read f a with
  | .nan s => ⟨f.nan, flagIf s fInvalid⟩
  | .zero _ => ⟨encodeFin f false 1 0, 0⟩
  | .inf n => if n then ⟨0, 0⟩ else ⟨infCode f false, 0⟩
  | .fin n m e =>
    let big : Int := if f = Fmt.f16 then 16 else 128
    if !n && leMag big.toNat 0 m e then ⟨infCode f false, fOverflow ||| fInexact⟩
    else if n && leMag 1100 0 m e then approx 2 v f a false 1 (-1100) true
    else
      -- the operand in units of 2^-96, rounded down
      let t : Int := if -96 ≤ e then (m * 2 ^ (e + 96).toNat : Nat) else (m / 2 ^ (-96 - e).toNat : Nat)
      let lost := e < -96 && m % 2 ^ (-96 - e).toNat != 0
      let fl : Int := if n then (if lost then -t - 1 else -t) else t
      let whole := fl / 2 ^ 96
      let frac := (fl % 2 ^ 96).toNat
      if frac = 0 ∧ lost = false then approxOr 2 v f a false 1 whole false
      else approx 2 v f a false (exp2Frac frac 96 (isqrt (2 ^ 257)) (2 ^ 128)) (whole - 128) true

/-- Bits of log2 of y in [1, 2), y in units of 2^-160. -/
def log2Bits : (bits : Nat) → (y acc : Nat) → Nat
  | 0, _, acc => acc
  | k + 1, y, acc =>
    let y2 := y * y / 2 ^ 160
    if 2 ^ 161 ≤ y2 then log2Bits k (y2 / 2) (2 * acc + 1) else log2Bits k y2 (2 * acc)

/-- FLOG2. -/
def fLog2 (v : FEnv) (f : Fmt) (a : Nat) : FRes :=
  match v.read f a with
  | .nan s => ⟨f.nan, flagIf s fInvalid⟩
  | .zero _ => ⟨infCode f true, fDivZero⟩
  | .inf n => if n then ⟨f.nan, fInvalid⟩ else ⟨infCode f false, 0⟩
  | .fin n m e =>
    if n then ⟨f.nan, fInvalid⟩
    else
      let l := bitLen m
      let whole : Int := e + l - 1
      if m = 2 ^ (l - 1) then
        if whole = 0 then ⟨0, 0⟩ else approxOr 3 v f a (decide (whole < 0)) whole.natAbs 0 false
      else
        let t := whole * 2 ^ 96 + (log2Bits 96 (scaleNat m (161 - l : Int)) 0 : Nat)
        if 0 ≤ t then approx 3 v f a false t.toNat (-96) true
        else approx 3 v f a true ((-t).toNat - 1) (-96) true

/-! ## Conversions (R157, R158, R381, R396, R397) -/

/-- The integer a finite value rounds to, as sign and magnitude, and whether it is inexact. -/
def roundToInt (mode : Nat) (neg : Bool) (m : Nat) (e : Int) : Int × Bool :=
  let r := roundAt mode neg m e 0 false
  (if neg then -(r.1 : Int) else r.1, r.2)

/-- Width and signedness of an integer type code (R118). -/
def intWidth (t : Nat) : Nat := match t / 2 with | 0 => 8 | 1 => 16 | 2 => 32 | _ => 64
def intSigned (t : Nat) : Bool := t % 2 == 0

/-- The value of an N-bit pattern in an integer type. -/
def intOf (t : Nat) (bits : Nat) : Int :=
  let n := intWidth t
  let b := bits % 2 ^ n
  if intSigned t && 2 ^ (n - 1) ≤ b then (b : Int) - 2 ^ n else b

/-- Range ends of an integer type (R146). -/
def intMin (t : Nat) : Int := if intSigned t then -(2 ^ (intWidth t - 1)) else 0
def intMax (t : Nat) : Int := if intSigned t then 2 ^ (intWidth t - 1) - 1 else 2 ^ intWidth t - 1

/-- sat() to an integer type (R143). -/
def satInt (t : Nat) (i : Int) : Int := max (intMin t) (min i (intMax t))

/-- Bits [N-1:0] of an integer. -/
def wrapInt (n : Nat) (i : Int) : Nat := (i % 2 ^ n).toNat

/-- Float to integer (R158). -/
def floatToInt (t mode : Nat) (x : XV) : Int × Flags :=
  match x with
  | .nan _ => (0, fInvalid)
  | .inf n => (if n then intMin t else intMax t, fInvalid)
  | .zero _ => (0, 0)
  | .fin n m e =>
    let r := roundToInt mode n m e
    if r.1 < intMin t then (intMin t, fInvalid)
    else if intMax t < r.1 then (intMax t, fInvalid)
    else (r.1, flagIf r.2 fInexact)

/-- An integer as an exact value. -/
def XV.ofInteger (i : Int) : XV := XV.ofInt i 0 false

/-- Where an integer type code's value sits in a register, extended as R381 writes it: s8 and s16 sign-extended. -/
def placeInt (t : Nat) (i : Int) : Nat := if intWidth t = 64 then wrapInt 64 i else
  if intSigned t then wrapInt 32 i else wrapInt (intWidth t) i

/-- CVT (R381, R382): the register value and the flags. -/
def convert (src dst : Nat) (sat : Bool) (mode : Nat) (ftz : Bool) (bits : Nat) : FRes :=
  if src ≤ 7 then
    let i := intOf src bits
    if dst ≤ 7 then ⟨placeInt dst (if sat then satInt dst i else (wrapInt (intWidth dst) i |> intOf dst)), 0⟩
    else roundXV (fmtOfType dst) mode (ftz && dst ≤ 11) sat (XV.ofInteger i)
  else
    let f := fmtOfType src
    let x := (decodeF f bits).flush (ftz && src ≤ 11) f
    if dst ≤ 7 then let r := floatToInt dst mode x; ⟨placeInt dst r.1, r.2⟩
    else roundXV (fmtOfType dst) mode (ftz && dst ≤ 11) sat x

/-- FRND (R397). -/
def fRnd (f : Fmt) (mode : Nat) (ftz : Bool) (bits : Nat) : FRes :=
  match (decodeF f bits).flush ftz f with
  | .nan s => ⟨f.nan, flagIf s fInvalid⟩
  | .inf n => ⟨infCode f n, 0⟩
  | .zero n => ⟨signBit f n, 0⟩
  | .fin n m e =>
    let r := roundAt mode n m e 0 false
    ⟨if 0 ≤ e then encodeFin f n m e else encodeFin f n r.1 0, flagIf r.2 fInexact⟩

/-- FCLASS's mask (R396). -/
def fClass (f : Fmt) (bits : Nat) : Nat :=
  if f = Fmt.e2m1 ∧ bits % 16 = 8 then 2 ^ 10
  else match decodeF f bits with
    | .nan s => if s then 2 ^ 8 else 2 ^ 9
    | .inf n => if n then 1 else 2 ^ 7
    | .zero n => if n then 2 ^ 3 else 2 ^ 4
    | .fin n m e =>
      if leMag 1 f.emin m e then (if n then 2 else 2 ^ 6) else (if n then 2 ^ 2 else 2 ^ 5)

/-! ## Sums of exact products (R164, R166) -/

/-- Whether a value is a NaN. -/
def XV.isNaN : XV → Bool
  | .nan _ => true
  | _ => false

/-- Exact sum of a list, special values settled together (R164, R386): a NaN where a term is one or where there are infinities of both
signs, which raise invalid, as a signalling NaN does, whatever else stands in the list. -/
def sumXV (xs : List XV) : XV × Flags :=
  let opposite := xs.contains (.inf false) && xs.contains (.inf true)
  if opposite || xs.any XV.isNaN then (.nan false, flagIf (opposite || xs.contains (.nan true)) fInvalid)
  else (xs.foldl (fun acc x => (acc.add 0 x).1) (.zero true), 0)

/-- A floating DOT (R166, R386): products and D summed exactly, one RNE rounding. -/
def dotFloat (f : Fmt) (w n : Nat) (ftz : Bool) (a b d : Nat) : FRes :=
  let elem := fun (x i : Nat) => decodeF f (x / 2 ^ (w * i) % 2 ^ w)
  let ps := (List.range n).map fun i => (elem a i).mul (elem b i)
  let dv := (decodeF Fmt.f32 d).flush ftz Fmt.f32
  let s := sumXV (dv :: ps.map (·.1))
  let fl := ps.foldl (fun acc p => acc ||| p.2) s.2
  let r := roundXV Fmt.f32 0 ftz false s.1
  ⟨r.bits, r.flags ||| fl⟩

/-- An integer DOT4 (R166): element sums added to D, 32 bits kept. -/
def dotInt (t : Nat) (a b d : Nat) : Nat :=
  let s := (List.range 4).foldl (fun (acc : Int) i => acc + intOf t (a / 2 ^ (8 * i)) * intOf t (b / 2 ^ (8 * i))) 0
  wrapInt 32 (intOf 4 d + s)

/-! ## Quantisation (R161, R159, R160) -/

/-- floor(log2 |x|) of a finite nonzero value, with ±∞ read as the largest f32 magnitude; none for zero or NaN. -/
def log2Mag : XV → Option Int
  | .fin _ m e => some (e + bitLen m - 1)
  | .inf _ => some 127
  | _ => none

/-- The greatest of floor(log2 |x|) over a list: floor(log2 a) with a the greatest magnitude. -/
def maxLog2 (xs : List XV) : Option Int :=
  xs.foldl (fun acc x => match acc, log2Mag x with
    | none, r => r
    | some a, some b => some (max a b)
    | some a, none => some a) none

/-- The scale exponent of a block (R161): none when an element is NaN. -/
def blockExp (emax : Int) (xs : List XV) : Option Int :=
  if xs.any XV.isNan then none
  else match maxLog2 xs with
    | none => some (-127)
    | some l => some (max (-127) (min (l - emax) 127))

/-- An element divided by 2^e; ±∞ stands for a magnitude that saturates. -/
def scaleXV (x : XV) (e : Int) : XV :=
  match x with
  | .fin n m g => .fin n m (g - e)
  | .inf n => .fin n 0xFFFFFF (104 - e)
  | y => y

/-- A scaled element in the element format of QNT, rounded RNE with saturation, zeros without sign (R161, R427):
0 e4m3, 1 e5m2, 2 e2m1, 3 s8. -/
def qntElem (k : Nat) (x : XV) : Nat :=
  match k with
  | 3 => (match x with
      | .fin n m e => wrapInt 8 (satInt 0 (roundToInt 0 n m e).1)
      | _ => 0)
  | _ =>
    let f := if k = 0 then Fmt.e4m3 else if k = 1 then Fmt.e5m2 else Fmt.e2m1
    match x with
    | .fin n m e =>
      let r := (roundMag f 0 false true n m e false).bits
      if r % 2 ^ (f.width - 1) = 0 then 0 else r
    | _ => 0

/-- emax of a QNT format (R161). -/
def qntEmax (k : Nat) : Int := match k with | 0 => 8 | 1 => 15 | 2 => 2 | _ => 6

/-- QNT (R427): the stored scale and the element codes. -/
def quantise (k : Nat) (xs : List XV) : Nat × List Nat :=
  match blockExp (qntEmax k) xs with
  | none => (255, xs.map fun _ => 0)
  | some e => ((e + 127).toNat, xs.map fun x => qntElem k (scaleXV x e))

/-- DQNT (R387). -/
def dequantise (k : Nat) (a x8 : Nat) : Nat :=
  if x8 = 255 then Fmt.f32.nan
  else
    let x := match k with
      | 0 => decodeF Fmt.e4m3 (a % 256)
      | 1 => decodeF Fmt.e5m2 (a % 256)
      | 2 => decodeF Fmt.e2m1 (a % 16)
      | _ => XV.ofInteger (intOf 0 a)
    (roundXV Fmt.f32 0 false false (scaleXV' x (127 - (x8 : Int)))).bits
where
  scaleXV' (x : XV) (e : Int) : XV := match x with | .fin n m g => .fin n m (g - e) | y => y

/-- Magnitude bits k of BX3, BX5, BX8 (R159). -/
def bxK (fmt : Nat) : Nat := match fmt with | 0 => 2 | 1 => 4 | _ => 7

/-- The shift of a group (R161). -/
def bxShift (e : Int) (xs : List XV) : Nat :=
  match maxLog2 xs with
  | none => 0
  | some l => (min 3 (e - l)).toNat

/-- One BX element's field: sign above magnitude, RNE with saturation (R161). -/
def bxElem (k : Nat) (e : Int) (x : XV) : Nat :=
  match scaleXV x (e - (k - 1 : Nat)) with
  | .fin n m g =>
    let mag := min (roundAt 0 false m g 0 false).1 (2 ^ k - 1)
    if mag = 0 then 0 else (if n then 2 ^ k else 0) + mag
  | _ => 0

/-- A BX block as a number, bit 0 lowest (R159, R161). -/
def bxEncode (fmt : Nat) (xs : List XV) : Nat :=
  let k := bxK fmt
  match blockExp 0 xs with
  | none => 255
  | some e =>
    let sh := fun g => bxShift e ((xs.drop (8 * g)).take 8)
    let header := (e + 127).toNat + sh 0 * 2 ^ 8 + sh 1 * 2 ^ 10 + sh 2 * 2 ^ 12 + sh 3 * 2 ^ 14
    ((List.range 32).foldl (fun acc i =>
        acc + bxElem k (e - (sh (i / 8) : Nat)) (xs.getD i (.zero false)) * 2 ^ (16 + (k + 1) * i)) header)

/-- Element i of a BX block (R160). -/
def bxDecode (fmt : Nat) (block i : Nat) : XV :=
  let k := bxK fmt
  let e := block % 256
  if e = 255 then .nan false
  else
    let sh := block / 2 ^ (8 + 2 * (i / 8)) % 4
    let fld := block / 2 ^ (16 + (k + 1) * i) % 2 ^ (k + 1)
    if fld % 2 ^ k = 0 then .zero false
    else .fin (fld / 2 ^ k == 1) (fld % 2 ^ k) ((e : Int) - 127 - sh - (k - 1 : Nat))

/-! ## Float adds of atomics, reductions and collectives -/

/-- An add rounded RNE that keeps subnormals and raises nothing (R132, R300, R337). -/
def fAddPlain (f : Fmt) (a b : Nat) : Nat := (fAdd ⟨0, false⟩ f a b).bits

/-- A reduction tree (R167) over a list of 2^k leaves: each node is one add of its halves. -/
def treeSum (v : FEnv) (f : Fmt) : Nat → List Nat → FRes
  | 0, xs => ⟨xs.getD 0 0, 0⟩
  | k + 1, xs =>
    let l := treeSum v f k (xs.take (2 ^ k))
    let r := treeSum v f k (xs.drop (2 ^ k))
    let s := fAdd v f l.bits r.bits
    ⟨s.bits, s.flags ||| l.flags ||| r.flags⟩

/-- SCANA's prefix (R167): the running value and, one by one, the aligned nodes of n = i + 1 from bit k down. -/
def scanNodes (v : FEnv) (f : Fmt) (xs : List Nat) (n : Nat) : (k start : Nat) → FRes → FRes
  | 0, start, acc => if n.testBit 0 then join acc (treeSum v f 0 (xs.drop start)) else acc
  | k + 1, start, acc =>
    if n.testBit (k + 1) then
      scanNodes v f xs n k (start + 2 ^ (k + 1)) (join acc (treeSum v f (k + 1) ((xs.drop start).take (2 ^ (k + 1)))))
    else scanNodes v f xs n k start acc
where
  join (a r : FRes) : FRes :=
    let s := fAdd v f a.bits r.bits
    ⟨s.bits, s.flags ||| a.flags ||| r.flags⟩

/-- SCANA's prefix over lanes 0 to i (R167). The running value starts as -0, which leaves every sum unchanged, so that a
lane alone too reads under FTZ and gives the default NaN (R151). -/
def scanLane (v : FEnv) (f : Fmt) (xs : List Nat) (i : Nat) : FRes :=
  scanNodes v f xs (i + 1) 5 0 ⟨signBit f true, 0⟩

end Sys2Proof.Machine
end

