-- ==== Sys2Proof/Machine/Encoding.lean ====
section
/-! DEFINITION. The encoding tables: the opcode of every instruction (R120 to R128), the use of its fields
(R115), and the checks of step 2 of R137 on the first word and on the second. -/
namespace Sys2Proof

/-- The memory space of an ordered memory instruction, specific[18:17] (R131). -/
def Ctl.space (c : Ctl) : Nat := (c.spec.extractLsb' 17 2).toNat

/-- The barrier space of the engine layout, specific[17:16] (R134). -/
def Ctl.barSpace (c : Ctl) : Nat := (c.spec.extractLsb' 16 2).toNat

/-- The barrier index of the engine layout, specific[15:0] (R134). -/
def Ctl.barIndex (c : Ctl) : Nat := (c.spec.extractLsb' 0 16).toNat

end Sys2Proof

namespace Sys2Proof.Encoding

/-- Which values of S an opcode has (R120). -/
inductive SMode where
  | both | vector | scalar
  deriving DecidableEq, Repr

/-- What a field of a format-R word is to an instruction (R115). -/
inductive Use where
  | rsv | code | dst | both | imm
  deriving DecidableEq, Repr

/-- The format-R row of an instruction: opcode, S, whether bit 21 may be 1 (R76), the uses of D, A and B. -/
structure Row where
  op : BitVec 9
  s : SMode
  nw : Bool
  d : Use
  a : Use
  b : Use
  deriving DecidableEq, Repr

/-- The row of every format-R, RL and RC instruction. -/
def row : Instr → Option Row
  -- Class 0, integer arithmetic (R121)
  | .add t _ => some ⟨0#3 ++ 0#4 ++ t, .both, true, .dst, .code, .code⟩
  | .sub t _ => some ⟨0#3 ++ 1#4 ++ t, .both, true, .dst, .code, .code⟩
  | .addx t _ => some ⟨0#3 ++ 2#4 ++ t, .both, true, .dst, .code, .code⟩
  | .subx t _ => some ⟨0#3 ++ 3#4 ++ t, .both, true, .dst, .code, .code⟩
  | .adds t _ => some ⟨0#3 ++ 4#4 ++ t, .both, true, .dst, .code, .code⟩
  | .subs t _ => some ⟨0#3 ++ 5#4 ++ t, .both, true, .dst, .code, .code⟩
  | .mul t _ => some ⟨0#3 ++ 6#4 ++ t, .both, true, .dst, .code, .code⟩
  | .mulh t _ => some ⟨0#3 ++ 7#4 ++ t, .both, true, .dst, .code, .code⟩
  | .mad t _ => some ⟨0#3 ++ 8#4 ++ t, .both, true, .both, .code, .code⟩
  | .div t _ => some ⟨0#3 ++ 9#4 ++ t, .both, true, .dst, .code, .code⟩
  | .rem t _ => some ⟨0#3 ++ 10#4 ++ t, .both, true, .dst, .code, .code⟩
  | .min t _ => some ⟨0#3 ++ 11#4 ++ t, .both, true, .dst, .code, .code⟩
  | .max t _ => some ⟨0#3 ++ 12#4 ++ t, .both, true, .dst, .code, .code⟩
  | .clamp t _ => some ⟨0#3 ++ 13#4 ++ t, .both, true, .both, .code, .code⟩
  | .lea t _ => some ⟨0#3 ++ 14#4 ++ t, .both, true, .dst, .code, .code⟩
  | .absd t _ => some ⟨0#3 ++ 15#4 ++ t, .both, true, .dst, .code, .code⟩
  -- Class 1, bits, compare and select (R122)
  | .andB w _ => some ⟨1#3 ++ BitVec.ofBool w ++ 0#5, .both, true, .dst, .code, .code⟩
  | .orB w _ => some ⟨1#3 ++ BitVec.ofBool w ++ 1#5, .both, true, .dst, .code, .code⟩
  | .xorB w _ => some ⟨1#3 ++ BitVec.ofBool w ++ 2#5, .both, true, .dst, .code, .code⟩
  | .andn w _ => some ⟨1#3 ++ BitVec.ofBool w ++ 3#5, .both, true, .dst, .code, .code⟩
  | .notB w _ => some ⟨1#3 ++ BitVec.ofBool w ++ 4#5, .both, true, .dst, .code, .rsv⟩
  | .lut3 w _ => some ⟨1#3 ++ BitVec.ofBool w ++ 5#5, .both, true, .both, .code, .code⟩
  | .shl w _ => some ⟨1#3 ++ BitVec.ofBool w ++ 6#5, .both, true, .dst, .code, .code⟩
  | .shr w _ => some ⟨1#3 ++ BitVec.ofBool w ++ 7#5, .both, true, .dst, .code, .code⟩
  | .sar w _ => some ⟨1#3 ++ BitVec.ofBool w ++ 8#5, .both, true, .dst, .code, .code⟩
  | .rol w _ => some ⟨1#3 ++ BitVec.ofBool w ++ 9#5, .both, true, .dst, .code, .code⟩
  | .bfx w _ => some ⟨1#3 ++ BitVec.ofBool w ++ 10#5, .both, true, .dst, .code, .code⟩
  | .bfxs w _ => some ⟨1#3 ++ BitVec.ofBool w ++ 11#5, .both, true, .dst, .code, .code⟩
  | .bfi w _ => some ⟨1#3 ++ BitVec.ofBool w ++ 12#5, .both, true, .dst, .code, .code⟩
  | .popc w _ => some ⟨1#3 ++ BitVec.ofBool w ++ 13#5, .both, true, .dst, .code, .rsv⟩
  | .clz w _ => some ⟨1#3 ++ BitVec.ofBool w ++ 14#5, .both, true, .dst, .code, .rsv⟩
  | .ctz w _ => some ⟨1#3 ++ BitVec.ofBool w ++ 15#5, .both, true, .dst, .code, .rsv⟩
  | .brev w _ => some ⟨1#3 ++ BitVec.ofBool w ++ 16#5, .both, true, .dst, .code, .rsv⟩
  | .prmb w _ => some ⟨1#3 ++ BitVec.ofBool w ++ 17#5, .both, true, .dst, .code, .code⟩
  | .sel w _ => some ⟨1#3 ++ BitVec.ofBool w ++ 18#5, .both, true, .both, .code, .code⟩
  | .mov w _ => some ⟨1#3 ++ BitVec.ofBool w ++ 19#5, .both, true, .dst, .code, .rsv⟩
  | .cmpEq w _ => some ⟨1#3 ++ BitVec.ofBool w ++ 20#5, .both, true, .dst, .code, .code⟩
  | .cmpNe w _ => some ⟨1#3 ++ BitVec.ofBool w ++ 21#5, .both, true, .dst, .code, .code⟩
  | .cmpLt w _ => some ⟨1#3 ++ BitVec.ofBool w ++ 22#5, .both, true, .dst, .code, .code⟩
  | .cmpLe w _ => some ⟨1#3 ++ BitVec.ofBool w ++ 23#5, .both, true, .dst, .code, .code⟩
  | .cmpLtn w _ => some ⟨1#3 ++ BitVec.ofBool w ++ 24#5, .both, true, .dst, .code, .code⟩
  | .cmpLen w _ => some ⟨1#3 ++ BitVec.ofBool w ++ 25#5, .both, true, .dst, .code, .code⟩
  | .testZ w _ => some ⟨1#3 ++ BitVec.ofBool w ++ 26#5, .both, true, .dst, .code, .code⟩
  | .testNz w _ => some ⟨1#3 ++ BitVec.ofBool w ++ 27#5, .both, true, .dst, .code, .code⟩
  -- Class 2, floating point (R123)
  | .fadd f _ => some ⟨2#3 ++ 0#4 ++ f, .both, true, .dst, .code, .code⟩
  | .fsub f _ => some ⟨2#3 ++ 1#4 ++ f, .both, true, .dst, .code, .code⟩
  | .fmul f _ => some ⟨2#3 ++ 2#4 ++ f, .both, true, .dst, .code, .code⟩
  | .fma f _ => some ⟨2#3 ++ 3#4 ++ f, .both, true, .both, .code, .code⟩
  | .fmin f _ => some ⟨2#3 ++ 4#4 ++ f, .both, true, .dst, .code, .code⟩
  | .fmax f _ => some ⟨2#3 ++ 5#4 ++ f, .both, true, .dst, .code, .code⟩
  | .fdiv f _ => some ⟨2#3 ++ 6#4 ++ f, .both, true, .dst, .code, .code⟩
  | .fsqrt f _ => some ⟨2#3 ++ 7#4 ++ f, .both, true, .dst, .code, .rsv⟩
  | .frcp f _ => some ⟨2#3 ++ 8#4 ++ f, .both, true, .dst, .code, .rsv⟩
  | .frsq f _ => some ⟨2#3 ++ 9#4 ++ f, .both, true, .dst, .code, .rsv⟩
  | .fexp2 f _ => some ⟨2#3 ++ 10#4 ++ f, .both, true, .dst, .code, .rsv⟩
  | .flog2 f _ => some ⟨2#3 ++ 11#4 ++ f, .both, true, .dst, .code, .rsv⟩
  | .fcmp c f _ => some ⟨2#3 ++ 3#2 ++ c ++ f, .both, true, .dst, .code, .code⟩
  -- Class 3, conversion, narrow formats, dot and quantise (R124)
  | .cvt src _ => some ⟨3#3 ++ 0#2 ++ src, .both, true, .dst, .code, .imm⟩
  | .frnd _ => some ⟨3#3 ++ 0x10#6, .both, true, .dst, .code, .imm⟩
  | .fclass _ => some ⟨3#3 ++ 0x11#6, .both, true, .dst, .code, .imm⟩
  | .pack _ => some ⟨3#3 ++ 0x12#6, .both, true, .dst, .code, .code⟩
  | .unpk _ => some ⟨3#3 ++ 0x13#6, .both, true, .dst, .code, .imm⟩
  | .dot4 k _ => some ⟨3#3 ++ 5#4 ++ k, .both, true, .both, .code, .code⟩
  | .dot2 k _ => some ⟨3#3 ++ 12#5 ++ BitVec.ofBool k, .both, true, .both, .code, .code⟩
  | .dot8 _ => some ⟨3#3 ++ 0x1A#6, .both, true, .both, .code, .code⟩
  | .qnt k _ => some ⟨3#3 ++ 8#4 ++ k, .vector, true, .dst, .code, .rsv⟩
  | .dqnt k _ => some ⟨3#3 ++ 9#4 ++ k, .vector, true, .dst, .code, .code⟩
  | .bxenc k _ => some ⟨3#3 ++ 10#4 ++ k, .vector, true, .dst, .code, .rsv⟩
  | .bxdecBx3 _ => some ⟨3#3 ++ 0x2B#6, .vector, true, .dst, .code, .rsv⟩
  | .bxdecBx5 _ => some ⟨3#3 ++ 0x2C#6, .vector, true, .dst, .code, .rsv⟩
  | .bxdecBx8 _ => some ⟨3#3 ++ 0x2D#6, .vector, true, .dst, .code, .rsv⟩
  -- Class 4, control and lanes (R125)
  | .brx _ _ => some ⟨4#3 ++ 0x02#6, .vector, false, .rsv, .code, .code⟩
  | .callx _ => some ⟨4#3 ++ 0x04#6, .vector, false, .dst, .code, .rsv⟩
  | .ret _ => some ⟨4#3 ++ 0x05#6, .vector, false, .rsv, .code, .rsv⟩
  | .jenr _ => some ⟨4#3 ++ 0x06#6, .vector, false, .rsv, .imm, .rsv⟩
  | .jwait _ => some ⟨4#3 ++ 0x07#6, .vector, false, .rsv, .imm, .rsv⟩
  | .exit _ => some ⟨4#3 ++ 0x08#6, .vector, false, .rsv, .rsv, .rsv⟩
  | .wbase _ => some ⟨4#3 ++ 0x09#6, .scalar, false, .dst, .code, .code⟩
  | .nop _ => some ⟨4#3 ++ 0x0A#6, .both, false, .rsv, .rsv, .rsv⟩
  | .yield _ => some ⟨4#3 ++ 0x0B#6, .vector, false, .rsv, .rsv, .rsv⟩
  | .ballot _ => some ⟨4#3 ++ 0x0C#6, .vector, true, .dst, .code, .rsv⟩
  | .vany _ => some ⟨4#3 ++ 0x0D#6, .vector, true, .dst, .code, .rsv⟩
  | .vall _ => some ⟨4#3 ++ 0x0E#6, .vector, true, .dst, .code, .rsv⟩
  | .rankl _ => some ⟨4#3 ++ 0x0F#6, .vector, true, .dst, .code, .rsv⟩
  | .elect _ => some ⟨4#3 ++ 0x10#6, .vector, true, .dst, .rsv, .rsv⟩
  | .rdln _ => some ⟨4#3 ++ 0x11#6, .vector, true, .dst, .code, .code⟩
  | .wrln _ => some ⟨4#3 ++ 0x12#6, .vector, false, .dst, .code, .code⟩
  | .shfl _ => some ⟨4#3 ++ 0x13#6, .vector, true, .dst, .code, .code⟩
  | .shflx _ => some ⟨4#3 ++ 0x14#6, .vector, true, .dst, .code, .code⟩
  | .shflu _ => some ⟨4#3 ++ 0x15#6, .vector, true, .dst, .code, .code⟩
  | .shfld _ => some ⟨4#3 ++ 0x16#6, .vector, true, .dst, .code, .code⟩
  | .scana _ => some ⟨4#3 ++ 0x17#6, .vector, true, .dst, .code, .imm⟩
  | .reda _ => some ⟨4#3 ++ 0x18#6, .vector, true, .dst, .code, .imm⟩
  | .redm _ => some ⟨4#3 ++ 0x19#6, .vector, true, .dst, .code, .imm⟩
  | .syncw _ _ => some ⟨4#3 ++ 0x1A#6, .vector, false, .rsv, .code, .rsv⟩
  | .actm _ => some ⟨4#3 ++ 0x1B#6, .vector, true, .dst, .code, .rsv⟩
  | .sleep _ => some ⟨4#3 ++ 0x1C#6, .vector, false, .rsv, .code, .rsv⟩
  -- Class 5, memory (R126)
  | .ld k _ => some ⟨5#3 ++ 0#3 ++ k, .both, true, .dst, .code, .code⟩
  | .ldt k _ => some ⟨5#3 ++ 2#3 ++ k, .both, true, .dst, .code, .code⟩
  | .ldp k _ => some ⟨5#3 ++ 4#3 ++ k, .both, true, .dst, .code, .code⟩
  | .pf _ => some ⟨5#3 ++ 0x07#6, .both, false, .rsv, .code, .code⟩
  | .st k _ => some ⟨5#3 ++ 1#3 ++ k, .both, false, .both, .code, .code⟩
  | .stt k _ => some ⟨5#3 ++ 3#3 ++ k, .both, false, .both, .code, .code⟩
  | .stp k _ => some ⟨5#3 ++ 5#3 ++ k, .both, false, .both, .code, .code⟩
  | .stc _ => some ⟨5#3 ++ 0x0D#6, .vector, false, .both, .code, .code⟩
  | .lde _ => some ⟨5#3 ++ 0x0E#6, .vector, true, .dst, .code, .code⟩
  | .pushv _ => some ⟨5#3 ++ 0x30#6, .vector, false, .both, .rsv, .rsv⟩
  | .popv _ => some ⟨5#3 ++ 0x31#6, .vector, false, .dst, .rsv, .rsv⟩
  | .atom _ _ => some ⟨5#3 ++ 0x32#6, .both, false, .dst, .code, .code⟩
  | .cas _ _ => some ⟨5#3 ++ 0x33#6, .both, false, .both, .code, .code⟩
  | .red _ _ => some ⟨5#3 ++ 0x34#6, .both, false, .rsv, .code, .code⟩
  | .lda _ _ => some ⟨5#3 ++ 0x35#6, .both, false, .dst, .code, .code⟩
  | .stl _ _ => some ⟨5#3 ++ 0x36#6, .both, false, .both, .code, .code⟩
  | .fence _ _ => some ⟨5#3 ++ 0x37#6, .both, false, .rsv, .rsv, .rsv⟩
  | .cinv _ => some ⟨5#3 ++ 0x38#6, .both, false, .rsv, .code, .code⟩
  | .cwb _ => some ⟨5#3 ++ 0x39#6, .both, false, .rsv, .code, .code⟩
  -- Class 6, engines, matrix and barriers (R127)
  | .cpy _ _ => some ⟨6#3 ++ 0x00#6, .both, false, .dst, .code, .code⟩
  | .cpyg _ _ => some ⟨6#3 ++ 0x01#6, .both, false, .dst, .code, .code⟩
  | .cpys _ _ => some ⟨6#3 ++ 0x02#6, .both, false, .dst, .code, .code⟩
  | .cpyr _ _ => some ⟨6#3 ++ 0x03#6, .both, false, .dst, .code, .code⟩
  | .coll _ _ => some ⟨6#3 ++ 0x04#6, .both, false, .dst, .code, .rsv⟩
  | .tlrd _ => some ⟨6#3 ++ 0x05#6, .both, false, .dst, .code, .rsv⟩
  | .tlarm _ _ => some ⟨6#3 ++ 0x06#6, .both, false, .rsv, .code, .code⟩
  | .mxw _ _ => some ⟨6#3 ++ 0x08#6, .both, false, .dst, .code, .code⟩
  | .mxs _ _ => some ⟨6#3 ++ 0x09#6, .both, false, .dst, .code, .code⟩
  | .mxd _ _ => some ⟨6#3 ++ 0x0A#6, .both, false, .dst, .code, .code⟩
  | .mxz _ _ => some ⟨6#3 ++ 0x0B#6, .both, false, .dst, .rsv, .rsv⟩
  | .bari _ _ => some ⟨6#3 ++ 0x10#6, .both, false, .rsv, .code, .code⟩
  | .bara _ _ => some ⟨6#3 ++ 0x11#6, .both, false, .rsv, .code, .rsv⟩
  | .barx _ _ => some ⟨6#3 ++ 0x12#6, .both, false, .rsv, .code, .code⟩
  | .barw _ _ => some ⟨6#3 ++ 0x13#6, .both, false, .rsv, .code, .code⟩
  | .bart _ _ => some ⟨6#3 ++ 0x14#6, .both, false, .dst, .code, .code⟩
  | .bard _ _ => some ⟨6#3 ++ 0x15#6, .both, false, .rsv, .code, .rsv⟩
  | .crit _ => some ⟨6#3 ++ 0x18#6, .both, false, .rsv, .rsv, .rsv⟩
  | .uncrit _ => some ⟨6#3 ++ 0x19#6, .both, false, .rsv, .rsv, .rsv⟩
  -- Class 7, system, publication, speculation and work creation (R128)
  | .publish _ _ => some ⟨7#3 ++ 0x00#6, .both, false, .dst, .code, .rsv⟩
  | .adopt _ _ => some ⟨7#3 ++ 0x01#6, .both, false, .dst, .code, .code⟩
  | .retract _ _ => some ⟨7#3 ++ 0x02#6, .both, false, .dst, .code, .rsv⟩
  | .icinv _ _ => some ⟨7#3 ++ 0x03#6, .both, false, .rsv, .code, .code⟩
  | .tryR _ _ => some ⟨7#3 ++ 0x08#6, .vector, false, .rsv, .rsv, .rsv⟩
  | .commit _ _ => some ⟨7#3 ++ 0x09#6, .vector, false, .rsv, .rsv, .rsv⟩
  | .abort _ _ => some ⟨7#3 ++ 0x0A#6, .vector, false, .rsv, .rsv, .rsv⟩
  | .tstat _ => some ⟨7#3 ++ 0x0B#6, .vector, false, .dst, .rsv, .rsv⟩
  | .launch _ => some ⟨7#3 ++ 0x10#6, .both, false, .dst, .code, .rsv⟩
  | .tsub _ => some ⟨7#3 ++ 0x11#6, .both, false, .dst, .code, .rsv⟩
  | .tdone _ => some ⟨7#3 ++ 0x12#6, .both, false, .rsv, .rsv, .rsv⟩
  | .spawn _ => some ⟨7#3 ++ 0x13#6, .vector, false, .rsv, .code, .code⟩
  | .erarm _ => some ⟨7#3 ++ 0x14#6, .both, false, .dst, .code, .rsv⟩
  | .erpass _ => some ⟨7#3 ++ 0x15#6, .both, false, .dst, .code, .code⟩
  | .trap _ => some ⟨7#3 ++ 0x20#6, .vector, false, .rsv, .code, .rsv⟩
  | .rte _ => some ⟨7#3 ++ 0x21#6, .vector, false, .rsv, .rsv, .rsv⟩
  | .rdsr _ => some ⟨7#3 ++ 0x22#6, .both, false, .dst, .rsv, .code⟩
  | .wrsr _ => some ⟨7#3 ++ 0x23#6, .both, false, .rsv, .code, .code⟩
  | .bkpt _ => some ⟨7#3 ++ 0x24#6, .vector, false, .rsv, .rsv, .rsv⟩
  | .sysc _ => some ⟨7#3 ++ 0x25#6, .vector, false, .rsv, .code, .imm⟩
  | .halt _ => some ⟨7#3 ++ 0x26#6, .scalar, false, .rsv, .rsv, .rsv⟩
  | .tlbi _ _ => some ⟨7#3 ++ 0x27#6, .scalar, false, .rsv, .code, .code⟩
  | .ctxsw _ => some ⟨7#3 ++ 0x28#6, .scalar, false, .dst, .code, .code⟩
  | _ => none

/-- The operand fields of an instruction that has them. -/
def ops : Instr → Option Ops
  | .add _ o => some o
  | .sub _ o => some o
  | .addx _ o => some o
  | .subx _ o => some o
  | .adds _ o => some o
  | .subs _ o => some o
  | .mul _ o => some o
  | .mulh _ o => some o
  | .mad _ o => some o
  | .div _ o => some o
  | .rem _ o => some o
  | .min _ o => some o
  | .max _ o => some o
  | .clamp _ o => some o
  | .lea _ o => some o
  | .absd _ o => some o
  | .andB _ o => some o
  | .orB _ o => some o
  | .xorB _ o => some o
  | .andn _ o => some o
  | .notB _ o => some o
  | .lut3 _ o => some o
  | .shl _ o => some o
  | .shr _ o => some o
  | .sar _ o => some o
  | .rol _ o => some o
  | .bfx _ o => some o
  | .bfxs _ o => some o
  | .bfi _ o => some o
  | .popc _ o => some o
  | .clz _ o => some o
  | .ctz _ o => some o
  | .brev _ o => some o
  | .prmb _ o => some o
  | .sel _ o => some o
  | .mov _ o => some o
  | .cmpEq _ o => some o
  | .cmpNe _ o => some o
  | .cmpLt _ o => some o
  | .cmpLe _ o => some o
  | .cmpLtn _ o => some o
  | .cmpLen _ o => some o
  | .testZ _ o => some o
  | .testNz _ o => some o
  | .fadd _ o => some o
  | .fsub _ o => some o
  | .fmul _ o => some o
  | .fma _ o => some o
  | .fmin _ o => some o
  | .fmax _ o => some o
  | .fdiv _ o => some o
  | .fsqrt _ o => some o
  | .frcp _ o => some o
  | .frsq _ o => some o
  | .fexp2 _ o => some o
  | .flog2 _ o => some o
  | .fcmp _ _ o => some o
  | .cvt _ o => some o
  | .frnd o => some o
  | .fclass o => some o
  | .pack o => some o
  | .unpk o => some o
  | .dot4 _ o => some o
  | .dot2 _ o => some o
  | .dot8 o => some o
  | .qnt _ o => some o
  | .dqnt _ o => some o
  | .bxenc _ o => some o
  | .bxdecBx3 o => some o
  | .bxdecBx5 o => some o
  | .bxdecBx8 o => some o
  | .brx o _ => some o
  | .callx o => some o
  | .ret o => some o
  | .jenr o => some o
  | .jwait o => some o
  | .exit o => some o
  | .wbase o => some o
  | .nop o => some o
  | .yield o => some o
  | .ballot o => some o
  | .vany o => some o
  | .vall o => some o
  | .rankl o => some o
  | .elect o => some o
  | .rdln o => some o
  | .wrln o => some o
  | .shfl o => some o
  | .shflx o => some o
  | .shflu o => some o
  | .shfld o => some o
  | .scana o => some o
  | .reda o => some o
  | .redm o => some o
  | .syncw o _ => some o
  | .actm o => some o
  | .sleep o => some o
  | .ld _ o => some o
  | .ldt _ o => some o
  | .ldp _ o => some o
  | .pf o => some o
  | .st _ o => some o
  | .stt _ o => some o
  | .stp _ o => some o
  | .stc o => some o
  | .lde o => some o
  | .pushv o => some o
  | .popv o => some o
  | .atom o _ => some o
  | .cas o _ => some o
  | .red o _ => some o
  | .lda o _ => some o
  | .stl o _ => some o
  | .fence o _ => some o
  | .cinv o => some o
  | .cwb o => some o
  | .cpy o _ => some o
  | .cpyg o _ => some o
  | .cpys o _ => some o
  | .cpyr o _ => some o
  | .coll o _ => some o
  | .tlrd o => some o
  | .tlarm o _ => some o
  | .mxw o _ => some o
  | .mxs o _ => some o
  | .mxd o _ => some o
  | .mxz o _ => some o
  | .bari o _ => some o
  | .bara o _ => some o
  | .barx o _ => some o
  | .barw o _ => some o
  | .bart o _ => some o
  | .bard o _ => some o
  | .crit o => some o
  | .uncrit o => some o
  | .publish o _ => some o
  | .adopt o _ => some o
  | .retract o _ => some o
  | .icinv o _ => some o
  | .tryR o _ => some o
  | .commit o _ => some o
  | .abort o _ => some o
  | .tstat o => some o
  | .launch o => some o
  | .tsub o => some o
  | .tdone o => some o
  | .spawn o => some o
  | .erarm o => some o
  | .erpass o => some o
  | .trap o => some o
  | .rte o => some o
  | .rdsr o => some o
  | .wrsr o => some o
  | .bkpt o => some o
  | .sysc o => some o
  | .halt o => some o
  | .tlbi o _ => some o
  | .ctxsw o => some o
  | _ => none

/-- The control word of an RC instruction (R111). -/
def ctl : Instr → Option Ctl
  | .brx _ c => some c
  | .syncw _ c => some c
  | .atom _ c => some c
  | .cas _ c => some c
  | .red _ c => some c
  | .lda _ c => some c
  | .stl _ c => some c
  | .fence _ c => some c
  | .cpy _ c => some c
  | .cpyg _ c => some c
  | .cpys _ c => some c
  | .cpyr _ c => some c
  | .coll _ c => some c
  | .tlarm _ c => some c
  | .mxw _ c => some c
  | .mxs _ c => some c
  | .mxd _ c => some c
  | .mxz _ c => some c
  | .bari _ c => some c
  | .bara _ c => some c
  | .barx _ c => some c
  | .barw _ c => some c
  | .bart _ c => some c
  | .bard _ c => some c
  | .publish _ c => some c
  | .adopt _ c => some c
  | .retract _ c => some c
  | .icinv _ c => some c
  | .tryR _ c => some c
  | .commit _ c => some c
  | .abort _ c => some c
  | .tlbi _ c => some c
  | _ => none

/-- LUT3 always carries its literal word (R110). -/
def isLut3 : Instr → Bool
  | .lut3 _ _ => true
  | _ => false

/-- Whether a field is read as an operand code, D where it is a source as well among them (R110). -/
def Use.isRead (u : Use) : Bool := u == .code || u == .both

/-- A literal word follows: exactly one field that is read as an operand code holds 127 (R110). -/
def hasLiteral (i : Instr) : Bool :=
  match row i, ops i with
  | some r, some o =>
    isLut3 i || ((ctl i).isNone &&
      ((r.d.isRead && o.d == 127#7).toNat + (r.a.isRead && o.a == 127#7).toNat + (r.b.isRead && o.b == 127#7).toNat == 1))
  | _, _ => false

/-- The instruction takes a second word (R108). -/
def twoWords (i : Instr) : Bool := (ctl i).isSome || hasLiteral i

/-! ## Packing -/

/-- Bits [21:0] of a format-R word (R109). -/
def packLow (o : Ops) : BitVec 22 := BitVec.ofBool o.nw ++ o.d ++ o.a ++ o.b

/-- A first word from S, the opcode and bits [21:0] (R109, R112, R113). -/
def packWord (s : Bool) (op : BitVec 9) (low : BitVec 22) : Word := BitVec.ofBool s ++ op ++ low

/-- A control word (R111). -/
def packCtl (c : Ctl) : Word := c.scope ++ c.order ++ c.sub ++ c.type ++ c.spec

/-- The operand fields in bits [21:0], with a literal. -/
def unpackOps (s : Bool) (low : BitVec 22) (lit : Word) : Ops :=
  { s := s, nw := low.getLsbD 21, d := low.extractLsb' 14 7, a := low.extractLsb' 7 7,
    b := low.extractLsb' 0 7, lit := lit }

/-- The fields of a control word. -/
def unpackCtl (w : Word) : Ctl :=
  { scope := w.extractLsb' 29 3, order := w.extractLsb' 27 2, sub := w.extractLsb' 23 4,
    type := w.extractLsb' 19 4, spec := w.extractLsb' 0 19 }

/-! ## Control-word fields (R131 to R136) -/

/-- scope_ok (R144): the scopes that a space (0 global, 1 team memory, 2 die scratchpad) admits. -/
def scopeOk (scope : BitVec 3) (space : Nat) : Bool :=
  match space with
  | 0 => decide (scope.toNat ≤ 5)
  | 1 => decide (scope.toNat ≤ 1)
  | 2 => decide (scope.toNat ≤ 3)
  | _ => false

/-- The types a sub-operation of ATOM and RED accepts (R132). -/
def atomTypes (sub : Nat) (type : Nat) : Bool :=
  if sub ≤ 2 then [4, 5, 6, 7, 10, 11].contains type
  else if sub ≤ 6 then [4, 5, 6, 7, 15].contains type
  else sub ≤ 8 && type == 5

/-- The six ordered memory instructions other than FENCE (R131): space, scope and the unassigned bits. -/
def orderedOk (c : Ctl) (orders : List Nat) : Bool :=
  c.space != 3 && scopeOk c.scope c.space && orders.contains c.order.toNat && c.spec.extractLsb' 0 17 == 0#17

/-- The engine layout (R134): the barrier field and, where the command has one, the flag. -/
def engineOk (c : Ctl) (flag : Bool) : Bool :=
  c.barSpace != 3 && (c.barSpace != 0 || c.barIndex == 0) && (flag || !c.spec.getLsbD 18) &&
    (c.order.toNat == 0 || c.order.toNat == 2)

/-- A control word that is all reserved beyond scope and order. -/
def restZero (c : Ctl) : Bool := c.sub == 0#4 && c.type == 0#4 && c.spec == 0#19

/-- The six barrier instructions (R135): the space in sub[1:0], everything else reserved. -/
def barrierOk (c : Ctl) (orders : List Nat) : Bool :=
  (c.sub == 1#4 || c.sub == 2#4) && c.type == 0#4 && c.spec == 0#19 && orders.contains c.order.toNat

/-- The control words each RC instruction accepts (R130 to R136). -/
def ctlOk : Instr → Bool
  | .brx _ c => c.scope == 0#3 && c.order == 0#2 && c.sub.toNat ≤ 1 && c.type == 0#4 &&
      c.spec.extractLsb' 16 3 == 0#3 && c.spec.extractLsb' 0 16 != 0#16
  | .syncw _ c => c.scope == 0#3 && restZero c
  | .atom _ c => orderedOk c [0, 1, 2, 3] && c.sub.toNat ≤ 8 && atomTypes c.sub.toNat c.type.toNat
  | .red _ c => orderedOk c [0, 2, 3] && c.sub.toNat ≤ 8 && c.sub.toNat != 6 && atomTypes c.sub.toNat c.type.toNat
  | .cas _ c => orderedOk c [0, 1, 2, 3] && c.sub == 0#4 && [4, 5, 6, 7, 15].contains c.type.toNat
  | .lda _ c => orderedOk c [0, 1, 3] && c.sub == 0#4 && (c.type.toNat ≤ 7 || c.type.toNat == 15)
  | .stl _ c => orderedOk c [0, 2, 3] && c.sub == 0#4 && (c.type.toNat ≤ 7 || c.type.toNat == 15)
  | .fence _ c => c.scope.toNat ≤ 5 && c.order != 0#2 && restZero c
  | .cpy _ c => engineOk c false && c.sub.toNat ≤ 1 && scopeOk c.scope (c.sub.toNat + 1) && c.type == 0#4
  | .cpyg _ c => engineOk c false && c.sub.toNat ≤ 1 && scopeOk c.scope (c.sub.toNat + 1) &&
      [5, 7].contains c.type.toNat
  | .cpys _ c => engineOk c false && c.sub.toNat ≤ 1 && c.scope.toNat ≤ 5 && c.type == 0#4
  | .cpyr _ c => engineOk c false && (c.sub.extractLsb' 0 3).toNat ≤ 2 && c.scope.toNat ≤ 5 &&
      [4, 8, 9, 10].contains c.type.toNat
  | .coll _ c => engineOk c false && (c.scope.toNat == 4 || c.scope.toNat == 5) && c.sub.toNat ≤ 3 &&
      ([4, 8, 9, 10].contains c.type.toNat || (c.type.toNat == 15 && 2 ≤ c.sub.toNat))
  | .mxw _ c => engineOk c false && c.scope == 2#3 && c.sub.toNat ≤ 3 && c.type.toNat ≤ 8
  | .mxs _ c => engineOk c false && c.scope == 2#3 && c.type.toNat ≤ 8
  | .mxd _ c => engineOk c true &&
      (match (c.sub.extractLsb' 2 2).toNat with
       | 0 => scopeOk c.scope 1 | 1 => scopeOk c.scope 2 | 2 => scopeOk c.scope 0 | _ => false) &&
      [8, 9, 10, 12, 13].contains c.type.toNat
  | .mxz _ c => engineOk c false && c.scope == 2#3 && c.sub.toNat ≤ 3 && c.type == 0#4
  | .tlarm _ c => c.scope.toNat ≤ 5 && c.order == 0#2 && c.sub == 0#4 && c.type == 7#4 && !c.spec.getLsbD 18 &&
      (c.barSpace == 1 || c.barSpace == 2)
  | .bari _ c => barrierOk c [0] && c.scope == 0#3
  | .bara _ c => barrierOk c [0, 2, 3] && scopeOk c.scope c.sub.toNat
  | .barx _ c => barrierOk c [0, 2, 3] && scopeOk c.scope c.sub.toNat
  | .barw _ c => barrierOk c [0, 1, 3] && scopeOk c.scope c.sub.toNat
  | .bart _ c => barrierOk c [0, 1, 3] && scopeOk c.scope c.sub.toNat
  | .bard _ c => barrierOk c [0] && scopeOk c.scope c.sub.toNat
  | .publish _ c => [2, 3, 4].contains c.scope.toNat && c.order == 0#2 && restZero c
  | .adopt _ c => [2, 3, 4].contains c.scope.toNat && c.order == 0#2 && restZero c
  | .icinv _ c => [2, 3, 4].contains c.scope.toNat && c.order == 0#2 && restZero c
  | .retract _ c => c.scope == 0#3 && c.order == 0#2 && c.sub == 0#4 && c.type == 0#4 && !c.spec.getLsbD 18 &&
      (c.barSpace == 1 || c.barSpace == 2)
  | .tryR _ c => c.scope == 0#3 && c.order == 0#2 && c.sub.toNat ≤ 1 && c.type == 0#4
  | .commit _ c => (c.scope == 3#3 || c.scope == 4#3) && c.order == 0#2 && restZero c
  | .abort _ c => c.scope == 0#3 && c.order == 0#2 && c.sub == 0#4 && c.type == 0#4 && c.spec.extractLsb' 8 11 == 0#11
  | .tlbi _ c => [2, 3, 4].contains c.scope.toNat && c.order == 0#2 && c.sub.toNat ≤ 1 && c.type == 0#4 && c.spec == 0#19
  | _ => true

/-! ## Immediate fields and selectors of the first word -/

/-- Integer type codes (R118). -/
def isIntType (t : Nat) : Bool := t ≤ 7

/-- Float type codes (R118). -/
def isFloatType (t : Nat) : Bool := 8 ≤ t && t ≤ 14

/-- The pairs of types, the saturate bit and the rounding field that CVT has (R381). -/
def cvtOk (src : Nat) (b : Code) : Bool :=
  let dst := (b.extractLsb' 3 4).toNat
  src != dst && src != 15 && dst != 15 &&
    (if isIntType src && isIntType dst then b.extractLsb' 0 2 == 0#2 else true)

/-- The type codes of REDA, REDM and SCANA (R435, R444). -/
def reduceType (t : Nat) : Bool := 4 ≤ t && t ≤ 10

/-- Values of immediate fields and selectors that the entries list; the rest is ILLEGAL_OPCODE. A TLBI of sub 2 to 15 with B nonzero has a fault in either
word, and R138 does not say which TINFO then names: here the first, whose B is reserved for every sub but 1 (DESIGN CHOICE, log entry 76). -/
def immOk : Instr → Bool
  | .frcp f _ => f == 0#2 || f == 2#2
  | .frsq f _ => f == 0#2 || f == 2#2
  | .fexp2 f _ => f == 0#2 || f == 2#2
  | .flog2 f _ => f == 0#2 || f == 2#2
  | .cvt src o => cvtOk src.toNat o.b
  | .frnd o => !o.b.getLsbD 2 && 8 ≤ (o.b.extractLsb' 3 4).toNat && (o.b.extractLsb' 3 4).toNat ≤ 11
  | .fclass o => o.b.extractLsb' 0 3 == 0#3 && isFloatType (o.b.extractLsb' 3 4).toNat
  | .unpk o => o.b.extractLsb' 2 5 == 0#5
  | .bxenc k _ => k != 3#2
  | .jenr o => o.a.toNat < 4 || o.a == 127#7
  | .jwait o => o.a.toNat < 4 || o.a == 127#7
  | .scana o => o.b.extractLsb' 4 3 == 0#3 && reduceType (o.b.extractLsb' 0 4).toNat
  | .reda o => o.b.extractLsb' 4 3 == 0#3 && reduceType (o.b.extractLsb' 0 4).toNat
  | .redm o => o.b.extractLsb' 5 2 == 0#2 && reduceType (o.b.extractLsb' 0 4).toNat
  | .ld k _ => k.toNat ≤ 6
  | .ldt k _ => k.toNat ≤ 6
  | .ldp k _ => k.toNat ≤ 6
  | .st k _ => k.toNat ≤ 4
  | .stt k _ => k.toNat ≤ 4
  | .stp k _ => k.toNat ≤ 4
  | .tlbi o c => c.sub == 1#4 || o.b == 0#7
  | _ => true

/-- Step 2 of R137 on the first word: the opcode with its S, reserved fields, bit 21, immediate fields. -/
def firstOk (i : Instr) : Bool :=
  match row i, ops i with
  | some r, some o =>
    (match r.s with | .both => true | .vector => !o.s | .scalar => o.s) &&
    (r.nw || !o.nw) && (r.d != .rsv || o.d == 0#7) && (r.a != .rsv || o.a == 0#7) &&
    (r.b != .rsv || o.b == 0#7) && immOk i
  | _, _ => true

/-- Step 2 of R137 on the second word: the control word, or the reserved bits of LUT3's literal (R410). A
literal field of an instruction with no literal word holds 0. -/
def secondOk (i : Instr) : Bool :=
  match i with
  | .lut3 _ o => o.lit.extractLsb' 8 24 == 0#24
  | _ =>
    match ctl i, ops i with
    | some _, some o => ctlOk i && o.lit == 0#32
    | none, some o => hasLiteral i || o.lit == 0#32
    | _, _ => true

end Sys2Proof.Encoding
end

