-- ==== Sys2Proof/Machine/Base.lean ====
section
/-! DEFINITION. Reading and changing the parts of the state: lanes, waves, teams, cores, dies, contexts; register
lines, register files and latches; program counters and masks. -/
namespace Sys2Proof.Machine

/-! ## Words and masks -/

/-- The lanes of a mask, ascending. -/
def lanesOf (m : BitVec 32) : List Nat := (List.range 32).filter fun l => m.getLsbD l

/-- The mask of a list of lanes. -/
def maskOf (ls : List Nat) : BitVec 32 := ls.foldl (fun m l => m ||| (1#32 <<< l)) 0

/-- The lowest lane of a mask, 0 for the empty one. -/
def lowest (m : BitVec 32) : Nat := (lanesOf m).headD 0

/-- The two halves of a 64-bit value as words, low first (R74). -/
def lo32 (x : DWord) : Word := x.extractLsb' 0 32
def hi32 (x : DWord) : Word := x.extractLsb' 32 32

/-- A pair of words as 64 bits (R74). -/
def pair (lo hi : Word) : DWord := hi ++ lo

/-- Little-endian bytes of a number (R4). -/
def toBytes (n v : Nat) : List Byte := (List.range n).map fun i => BitVec.ofNat 8 (v / 2 ^ (8 * i))

/-- The number that little-endian bytes stand for (R4). -/
def fromBytes : List Byte → Nat
  | [] => 0
  | b :: bs => b.toNat + 256 * fromBytes bs

/-- n bits of a number from bit i on. -/
def bitsAt (v i n : Nat) : Nat := v / 2 ^ i % 2 ^ n

/-- Bytes of a type of an ordered access (R408, R454). -/
def typeBytes (t : Nat) : Nat := if t = 15 then 4 else if t = 10 then 4 else if t = 11 then 8 else 2 ^ (t / 2)

/-! ## Absent entries -/

/-- A wave that is not there: no live lane. -/
def Wave.gone : Wave :=
  { team := 0, waveId := 0, lanes := [], s := [], vb := 0, sb := 0, slatch := [], joins := [],
    sync := { pending := none, arrived := 0 }, fcsr := 0, wstat := 0, tstatus := 0, ssp := 0, sslim := 0,
    trapvec := 0, cntsel := 0, ctxsel := 0, slotsel := 0, bwsel := 0, lqsel := 0, peersel := 0, lwsel := 0, rimg := 0,
    spillAt := 0, srLow := [], srHigh := [], shadow := [], covered := [], absent := [], dirty := [], used := [], stores := [], slots := [],
    islot := 0, spawned := false, fresh := false, critSaved := false, rank := 0, order := 0, lastIssue := 0, run := 0 }

/-- A team that is not there. -/
def Team.gone : Team :=
  { ctx := 0, core := 0, rslot := 0, state := .resident, grid := 0, lin := 0, depth := 1, prio := 0, vcount := 0,
    scount := 0, nWaves := 0, pool := 0, spillSize := 0, alloc := 0, tmem := [], pending := [], children := 0,
    task := none, tdone := false, since := 0, preempt := none, swapping := false, image := 0, root := 0,
    saved := [], moved := none }

/-! ## Access to the parts -/

namespace State

/-- The wave at a key, `Wave.gone` where there is none. -/
def wave (s : State) (k : Nat) : Wave := s.waves.get k Wave.gone

/-- Change a wave that is there. -/
def modWave (s : State) (k : Nat) (f : Wave → Wave) : State := { s with waves := s.waves.mod k f }

/-- The team with a serial number. -/
def team (s : State) (t : Nat) : Team := s.teams.get t Team.gone

/-- Change a team that is there. -/
def modTeam (s : State) (t : Nat) (f : Team → Team) : State := { s with teams := s.teams.mod t f }

/-- A core by its module-wide number (R13). -/
def core (s : State) (c : Nat) : Core := s.cores.get c Core.reset

/-- Change a core. -/
def modCore (s : State) (c : Nat) (f : Core → Core) : State := { s with cores := s.cores.put c (f (s.core c)) }

/-- A die. -/
def die (s : State) (d : Nat) : Die := s.dies.get d Die.reset

/-- Change a die. -/
def modDie (s : State) (d : Nat) (f : Die → Die) : State := { s with dies := s.dies.put d (f (s.die d)) }

/-- A context. -/
def ctx (s : State) (c : Nat) : Ctx := s.ctxs.get c Ctx.reset

/-- Change a context. -/
def modCtx (s : State) (c : Nat) (f : Ctx → Ctx) : State := { s with ctxs := s.ctxs.put c (f (s.ctx c)) }

/-- A launch queue. -/
def queue (s : State) (q : Nat) : Queue := s.queues.get q Queue.reset

/-- Change a launch queue. -/
def modQueue (s : State) (q : Nat) (f : Queue → Queue) : State := { s with queues := s.queues.put q (f (s.queue q)) }

/-- Change the module's registers. -/
def modMod (s : State) (f : Mod → Mod) : State := { s with mod := f s.mod }

/-- A message leaves the module. -/
def emit (s : State) (o : Out) : State := { s with out := s.out ++ [o] }

end State

/-- The lane of a wave. -/
def Wave.lane (w : Wave) (l : Nat) : Lane := w.lanes.get l Lane.gone

/-- Change a lane of a wave. -/
def Wave.modLane (w : Wave) (l : Nat) (f : Lane → Lane) : Wave := { w with lanes := w.lanes.mod l f }

/-- Change every lane of a mask. -/
def Wave.modLanes (w : Wave) (m : BitVec 32) (f : Nat → Lane → Lane) : Wave :=
  { w with lanes := w.lanes.mapAll fun l x => if m.getLsbD l then f l x else x }

namespace State

/-- Change a lane. -/
def modLane (s : State) (k l : Nat) (f : Lane → Lane) : State := s.modWave k fun w => w.modLane l f

/-- Change the lanes of a mask. -/
def modLanes (s : State) (k : Nat) (m : BitVec 32) (f : Nat → Lane → Lane) : State :=
  s.modWave k fun w => w.modLanes m f

/-- The executing wave as it stands, its team, core, die and context. -/
def w (s : State) : Wave := s.wave s.cur.wave
def tid (s : State) : Nat := s.cur.wave / 64
def tm (s : State) : Team := s.team s.tid
def coreNo (s : State) : Nat := s.tm.core
def dieNo (s : State) : Nat := s.coreNo / Config.coresPerDie
def ctxNo (s : State) : Nat := s.tm.ctx

/-- The executing wave as this clk's picks read it (R42). -/
def pre (s : State) : Wave := s.cur.pre.getD s.w

/-- The executing lanes. -/
def mask (s : State) : BitVec 32 := s.cur.mask

/-- The core, die and context of a wave's team. -/
def coreOf (s : State) (k : Nat) : Nat := (s.team (k / 64)).core
def dieOf (s : State) (k : Nat) : Nat := s.coreOf k / Config.coresPerDie
def ctxOf (s : State) (k : Nat) : Nat := (s.team (k / 64)).ctx

end State

/-! ## Life -/

/-- Exited lanes are the ones that are not live (R32). -/
def Lane.live (l : Lane) : Bool := l.life != .exited

/-- The live lanes of a wave. -/
def Wave.live (w : Wave) : BitVec 32 := maskOf ((List.range 32).filter fun l => (w.lane l).live)

/-- The lanes of a wave that a property holds for. -/
def Wave.which (w : Wave) (p : Lane → Bool) : BitVec 32 := maskOf ((List.range 32).filter fun l => p (w.lane l))

/-- A member of an open try region (R273). -/
def Lane.member (l : Lane) : Bool := 0 < l.depth

/-! ## Register files and lines (R67, R71) -/

/-- The line of a vector register, 0 to 63, and of a scalar register, 64 to 71. -/
def vline (n : Nat) : Nat := n / 8
def sline (m : Nat) : Nat := 64 + m / 32

/-- A register of a lane. -/
def Lane.reg (l : Lane) (n : Nat) : Word := l.v.get n 0

/-- A scalar register. -/
def Wave.sreg (w : Wave) (m : Nat) : Word := w.s.get m 0

/-- Note that a line was written (R68). -/
def Wave.touch (w : Wave) (line : Nat) : Wave :=
  if w.dirty.contains line then w else { w with dirty := w.dirty ++ [line] }

/-- Write a vector register of a lane. -/
def Wave.putV (w : Wave) (l n : Nat) (v : Word) : Wave :=
  (w.modLane l fun x => { x with v := x.v.set 0 n v }).touch (vline n)

/-- Write a scalar register. -/
def Wave.putS (w : Wave) (m : Nat) (v : Word) : Wave := ({ w with s := w.s.set 0 m v }).touch (sline m)

/-- The words of a register line, as an image and a shadow hold them (R67, R274): of a vector line register by register, lane by lane
within. -/
def Wave.lineWords (w : Wave) (line : Nat) : List Word :=
  if line < 64 then (List.range 8).flatMap fun r => (List.range 32).map fun l => (w.lane l).reg (line * 8 + r)
  else (List.range 32).map fun r => w.sreg ((line - 64) * 32 + r)

/-- A lane's registers of a vector line, from the words of the line. -/
def putSlice (v : Tbl Word) (l line : Nat) (ws : List Word) : Tbl Word :=
  (List.range 8).foldl (fun v r => v.set 0 (line * 8 + r) (ws.getD (32 * r + l) 0)) v

/-- Put the words of a line into the registers. -/
def Wave.putLine (w : Wave) (line : Nat) (ws : List Word) : Wave :=
  if line < 64 then { w with lanes := w.lanes.mapAll fun l x => { x with v := putSlice x.v l line ws } }
  else { w with s := (List.range 32).foldl (fun t i => t.set 0 ((line - 64) * 32 + i) (ws.getD i 0)) w.s }

/-! ## Latches (R75 to R79) -/

/-- Shift a result into a file of eight latches, b0 first. -/
def shiftLatch (ls : List (Option DWord)) (v : DWord) : List (Option DWord) := (some v :: ls).take 8

/-- A latch; none where it is invalid. -/
def latchAt (ls : List (Option DWord)) (i : Nat) : Option DWord := (ls.getD i none)

/-- Invalidate every latch of the wave and of its lanes, and begin a run (R77, R78); a result that this clk's other pick
has already shifted in stands as b0. -/
def Wave.clearLatches (w : Wave) (keep : BitVec 32) (keepS : Bool) : Wave :=
  { w with
    slatch := if keepS then w.slatch.take 1 else []
    run := 0
    lanes := w.lanes.mapAll fun l x => { x with latch := if keep.getLsbD l then x.latch.take 1 else [] } }

/-- A switch point of a wave: the latches are cleared once in a clk, before the clk's results shift in (R77), and the run ends (R78). -/
def State.switchPoint (s : State) (k : Nat) : State :=
  if s.cur.wave = k then
    if s.cur.keepLatches then s.modWave k fun w => { w with run := 0 }
    else
      let s := s.modWave k fun w => w.clearLatches s.cur.shifted s.cur.shiftedS
      { s with cur := { s.cur with keepLatches := true } }
  else s.modWave k fun w => w.clearLatches 0 false

/-! ## The program counter -/

/-- The lanes that a later pick of one clk may still change: an abort of the clk keeps its own (R281). -/
def State.thawed (s : State) (m : BitVec 32) : BitVec 32 := m &&& ~~~ s.cur.frozenLanes

/-- The wave as the picks of its clk read it (R42). -/
def State.asPicked (s : State) (k : Nat) : Wave := if s.cur.wave == k then s.pre else s.wave k

/-- Lanes continue at an address. -/
def State.jump (s : State) (m : BitVec 32) (pc : DWord) : State :=
  s.modLanes s.cur.wave (s.thawed m) fun _ l => { l with pc := pc, life := .ready }

/-- The address past the executing instruction. -/
def State.nextPc (s : State) : DWord := s.cur.pc + BitVec.ofNat 64 s.cur.len

/-- Lanes complete the instruction and go on past it. -/
def State.advance (s : State) (m : BitVec 32) : State := s.jump m s.nextPc

/-! ## Numbers the hardware hands out -/

/-- Advance the counter of free values. -/
def State.fresh (s : State) : Nat × State := (s.free, { s with free := s.free + 1 })

/-- Add a number to a list without repeats. -/
def addOnce (x : Nat) (xs : List Nat) : List Nat := if xs.contains x then xs else xs ++ [x]

end Sys2Proof.Machine
end

