-- ==== Sys2Proof/Machine/Mem.lean ====
section
/-! DEFINITION. Memory: physical bytes at the one coherence point of the L2s, the L1 of a core, team memory and die
scratchpad, and the conflicts that a performed write raises for open try regions (R170 to R174, R188, R191, R195,
R278). A byte that nothing has written reads 0 (log entry 1). -/
namespace Sys2Proof.Machine

/-! ## Physical memory -/

/-- Memory in canonical form: addresses strictly rising, no entry equal to what an unlisted address reads as. -/
def Memory.wf (m : List Host.Cell) : Bool := Tbl.canon 0 m

/-- What an address reads as. -/
def Memory.read (m : List Host.Cell) (a : Nat) : Byte := Tbl.get m a 0

/-- Write one byte. -/
def Memory.write (m : List Host.Cell) (a : Nat) (b : Byte) : List Host.Cell := Tbl.set 0 m a b

/-- Read n bytes, lowest address first. -/
def Memory.readBytes (m : List Host.Cell) (a n : Nat) : List Byte := (List.range n).map fun i => Memory.read m (a + i)

/-- Write bytes from an address on. -/
def Memory.writeBytes (m : List Host.Cell) (a : Nat) : List Byte → List Host.Cell
  | [] => m
  | b :: bs => Memory.writeBytes (Memory.write m a b) (a + 1) bs

/-! ## Watchers (R278) -/

/-- Whether a lane watches a byte of a line. -/
def Lane.watches (l : Lane) (space line : Nat) : Bool := l.watch.any fun p => p.space == space && p.addr / 128 == line

/-- Whether a lane watches a byte of the 1 KiB range, eight lines of global memory, that a line lies in (R190). -/
def Lane.watchesRange (l : Lane) (line : Nat) : Bool := l.watch.any fun p => p.space == 0 && p.addr / 1024 == line / 8

/-- The home die of a line of local HBM (R174, R190). -/
def homeDie (line : Nat) : Nat := line * 128 / 2 ^ 38 % 4

/-- A write performed at a line's coherence point: every lane that watches the line meets a conflict, and so does, on a die that holds a
copy, every lane that watches the line's 1 KiB range, which the home invalidates there whole (R190). `who` is the team
of space 1 and the die of space 2. -/
def State.conflict (s : State) (space who line : Nat) : State :=
  { s with waves := s.waves.mapAll fun k w =>
      if (space == 0) || (space == 1 && k / 64 == who) || (space == 2 && s.dieOf k == who) then
        { w with lanes := w.lanes.mapAll fun _ l =>
            if l.watches space line || (space == 0 && s.dieOf k != homeDie line && l.watchesRange line) then { l with conflict := true }
            else l }
      else w }

/-- The lines that n bytes from an offset on touch. -/
def linesOf (a n : Nat) : List Nat := (List.range (((a + n - 1) / 128 + 1) - a / 128)).map (· + a / 128)

/-- Conflicts on every line of a range. -/
def State.conflicts (s : State) (space who a n : Nat) : State :=
  if n = 0 then s else (linesOf a n).foldl (fun s l => s.conflict space who l) s

/-! ## Global memory at the L2 -/

/-- Read bytes at the coherence point. -/
def State.l2Read (s : State) (pa n : Nat) : List Byte := Memory.readBytes s.mem pa n

/-- Perform bytes at the coherence point. -/
def State.l2Write (s : State) (pa : Nat) (bs : List Byte) : State :=
  ({ s with mem := Memory.writeBytes s.mem pa bs }).conflicts 0 0 pa bs.length

/-- Poisoned words (R241) are held as word * 2, plus 1 where HBM holds the error: the TINFO of a read that meets one. -/
def State.poisonAt (s : State) (pa n : Nat) : Option Nat :=
  (s.poison.find? fun p => pa < (p / 2 + 1) * 8 && p / 2 * 8 < pa + n).map fun p => 2 + p % 2

/-! ## The L1 of a core (R188, R195) -/

/-- The bytes of an L1 line. -/
def L1Line.byte (l : L1Line) (i : Nat) : Byte := l.data.extractLsb' (8 * i) 8

/-- Put a byte into a line and mark it dirty. -/
def L1Line.store (l : L1Line) (i : Nat) (b : Byte) : L1Line :=
  { data := (l.data &&& ~~~ (0xFF#1024 <<< (8 * i))) ||| (b.zeroExtend 1024 <<< (8 * i)), dirty := l.dirty ||| (1#128 <<< i) }

/-- Change the L1 of a core. -/
def State.modL1 (s : State) (c : Nat) (f : Tbl L1Line → Tbl L1Line) : State :=
  s.modCore c fun x => { x with l1 := f x.l1 }

/-- Whether a core's L1 holds a line. -/
def State.l1Has (s : State) (c line : Nat) : Bool := ((s.core c).l1.find? line).isSome

/-- Lines of 128 bytes that the 256 KiB of an L1 hold (R14). -/
def l1Lines : Nat := 2048

/-- Bring a line in. A line with a poisoned word is not kept, nor is one for which there is no room (log entry 8). -/
def State.l1Fill (s : State) (c line : Nat) : State :=
  if s.l1Has c line || (s.poisonAt (line * 128) 128).isSome || l1Lines ≤ (s.core c).l1.length then s
  else s.modL1 c fun t =>
    t.put line { data := BitVec.ofNat 1024 (fromBytes (s.l2Read (line * 128) 128)), dirty := 0 }

/-- A load of a plain access: served from L1, filling it on a miss. The bytes lie in one line. -/
def State.l1Read (s : State) (c pa n : Nat) : State × List Byte :=
  let s := s.l1Fill c (pa / 128)
  match (s.core c).l1.find? (pa / 128) with
  | some l => (s, (List.range n).map fun i => l.byte (pa % 128 + i))
  | none => (s, s.l2Read pa n)

/-- A store of a plain access: into L1, marked dirty. -/
def State.l1Write (s : State) (c pa : Nat) (bs : List Byte) : State :=
  let s := s.l1Fill c (pa / 128)
  if s.l1Has c (pa / 128) then
    s.modL1 c fun t => t.mod (pa / 128) fun l =>
      ((List.range bs.length).foldl (fun l i => l.store (pa % 128 + i) (bs.getD i 0)) l)
  else s.l2Write pa bs

/-- Write back the dirty bytes of a line, which stays, clean. -/
def State.l1Clean (s : State) (c line : Nat) : State :=
  match (s.core c).l1.find? line with
  | none => s
  | some l =>
    if l.dirty = 0 then s
    else
      let dirty := (List.range 128).filter fun i => l.dirty.getLsbD i
      let mem := dirty.foldl (fun m i => Memory.write m (line * 128 + i) (l.byte i)) s.mem
      (({ s with mem := mem }).modL1 c fun t => t.mod line fun l => { l with dirty := 0 }).conflict 0 0 line

/-- Write back a line and drop it. -/
def State.l1Evict (s : State) (c line : Nat) : State := (s.l1Clean c line).modL1 c fun t => t.del line

/-- A line leaves the L1 of every core, as for an atomic at fabric scope (R195). -/
def State.evictEverywhere (s : State) (line : Nat) : State := s.cores.foldl (fun s c => s.l1Evict c.1 line) s

/-- A load past the L1 leaves the line there, clean and no older than what the load returned (R195, R199). -/
def State.l1Renew (s : State) (c line : Nat) : State :=
  if s.l1Has c line then ((s.l1Evict c line).l1Fill c line) else s

/-- The bytes of a line as fetches of a core see them: the L2's, under the bytes that the core's own stores hold dirty in its L1, so
that a store that a core-scope PUBLISH or ICINV releases is seen (R266, R267). -/
def State.fetchLine (s : State) (c line : Nat) : List Byte :=
  let below := s.l2Read (line * 128) 128
  match (s.core c).l1.find? line with
  | none => below
  | some l => (List.range 128).map fun i => if l.dirty.getLsbD i then l.byte i else below.getD i 0

/-- Write back every dirty line of a core. -/
def State.l1WriteBack (s : State) (c : Nat) : State := (s.core c).l1.foldl (fun s p => s.l1Clean c p.1) s

/-- The bytes of a line that are not dirty, taken afresh from 128 bytes of memory. -/
def L1Line.refresh (l : L1Line) (below : List Byte) : L1Line :=
  { l with data := BitVec.ofNat 1024 (fromBytes ((List.range 128).map fun i => if l.dirty.getLsbD i then l.byte i else below.getD i 0)) }

/-- Drop every clean line of a core. Of a line that some byte keeps dirty, the clean bytes go: they are those of memory from then on
(R196, R202). -/
def State.l1DropClean (s : State) (c : Nat) : State :=
  s.modL1 c fun t => t.sift fun line l => if l.dirty = 0 then none else some (l.refresh (s.l2Read (line * 128) 128))

/-- A release at a scope (R194, R196): from die scope up, the core's dirty lines are written back. Everything else that a
release waits for has happened already in this machine (log entry 7). -/
def State.release (s : State) (c scope : Nat) : State := if 3 ≤ scope then s.l1WriteBack c else s

/-- An acquire at a scope (R196): from die scope up, the core's clean lines are dropped. -/
def State.acquire (s : State) (c scope : Nat) : State := if 3 ≤ scope then s.l1DropClean c else s

/-! ## Scratchpads -/

/-- Whether a team's memory lies in its saved image (R53, R234): it is away from its core. -/
def Team.away (x : Team) : Bool := x.state == .queued || x.state == .swapped

/-- Where the team memory of a saved image lies (R234). -/
def Team.savedAt (x : Team) : Nat := x.image.toNat + 4096

/-- Read a team's memory (R170): in its saved image while the team is away (R53, R234). -/
def State.tmemRead (s : State) (t off n : Nat) : List Byte :=
  let x := s.team t
  if x.away then s.l2Read (x.savedAt + off) n else (List.range n).map fun i => x.tmem.get (off + i) 0

/-- Perform bytes in a team's memory, or in its saved image. -/
def State.tmemWrite (s : State) (t off : Nat) (bs : List Byte) : State :=
  let x := s.team t
  if x.away then s.l2Write (x.savedAt + off) bs
  else
    (s.modTeam t fun x => { x with tmem := (List.range bs.length).foldl (fun m i => m.set 0 (off + i) (bs.getD i 0)) x.tmem }
      ).conflicts 1 t off bs.length

/-- Read a die's scratchpad by the die's own offset (R18), and perform bytes there. -/
def State.dspRead (s : State) (d off n : Nat) : List Byte := (List.range n).map fun i => (s.die d).dsp.get (off + i) 0

def State.dspWrite (s : State) (d off : Nat) (bs : List Byte) : State :=
  (s.modDie d fun x => { x with dsp := (List.range bs.length).foldl (fun m i => m.set 0 (off + i) (bs.getD i 0)) x.dsp }
    ).conflicts 2 d off bs.length

/-! ## Places (R168) -/

/-- Whether n bytes at one place and m bytes at another share a byte. -/
def Place.meets (p : Place) (n : Nat) (q : Place) (m : Nat) : Bool :=
  match p, q with
  | .mem a, .mem b => a < b + m && b < a + n
  | .team t a, .team u b => t == u && (a < b + m && b < a + n)
  | .die d a, .die e b => d == e && (a < b + m && b < a + n)
  | _, _ => false

/-- Local HBM, whose addresses lie below those of peers and hosts (R174). -/
def isLocal (pa : Nat) : Bool := pa < 2 ^ 40

/-- Memory of a peer or of a host (R174), which a member may not access (R279). -/
def Place.foreign : Place → Bool
  | .mem pa => !isLocal pa
  | _ => false

/-- A place some bytes on. -/
def Place.plus (p : Place) (i : Nat) : Place :=
  match p with
  | .mem pa => .mem (pa + i)
  | .team t off => .team t (off + i)
  | .die d off => .die d (off + i)

/-- The parts in which an access of n bytes is made: one, but two of 8 bytes for a b128 access to peer or host memory (R193); each is its
offset and its size. -/
def Place.units (p : Place) (n : Nat) : List (Nat × Nat) := if p.foreign && n == 16 then [(0, 8), (8, 8)] else [(0, n)]

/-- Read at a place: through a core's L1, or past it (R195). -/
def State.readOn (s : State) (c : Nat) (p : Place) (n : Nat) (bypass : Bool) : State × List Byte :=
  match p with
  | .mem pa =>
    if bypass then
      let s := s.l1Renew c (pa / 128)
      (s, s.l2Read pa n)
    else s.l1Read c pa n
  | .team t off => (s, s.tmemRead t off n)
  | .die d off => (s, s.dspRead d off n)

/-- Write at a place: into a core's L1, or past it, dropping the line (R195). -/
def State.writeOn (s : State) (c : Nat) (p : Place) (bs : List Byte) (bypass : Bool) : State :=
  match p with
  | .mem pa => if bypass then (s.l1Evict c (pa / 128)).l2Write pa bs else s.l1Write c pa bs
  | .team t off => s.tmemWrite t off bs
  | .die d off => s.dspWrite d off bs

/-! ## Reductions (R132, R195, R353) -/

/-- The operation of sub on the old value and the operand, both of the type's width (R132, R353). -/
def atomOp (sub type : Nat) (old b : Nat) : Nat :=
  let n := 8 * typeBytes type
  let fmt := fmtOfType type
  let env : FEnv := { mode := 0, ftz := false }
  let lt := fun (x y : Nat) => intOf type x < intOf type y
  match sub with
  | 0 => if type = 10 ∨ type = 11 then (fAdd env fmt old b).bits else (old + b) % 2 ^ n
  | 1 => if type = 10 ∨ type = 11 then (fMinMax false env fmt old b).bits else if lt b old then b else old
  | 2 => if type = 10 ∨ type = 11 then (fMinMax true env fmt old b).bits else if lt old b then b else old
  | 3 => old &&& b
  | 4 => old ||| b
  | 5 => old ^^^ b
  | 6 => b
  | 7 => if b ≤ old then 0 else old + 1
  | _ => if old = 0 ∨ b < old then b else old - 1

/-- Copies of a line leave the L1s before an atomic: that of the core it is issued on below fabric scope, every core's at fabric scope
(R195). -/
def State.dropCopies (s : State) (c : Nat) (p : Place) (scope : Nat) : State :=
  match p with
  | .mem pa => if scope = 5 then s.evictEverywhere (pa / 128) else s.l1Evict c (pa / 128)
  | _ => s

/-- One step of a reduction at a place: an indivisible read-modify-write (R200). -/
def State.reduceOn (s : State) (c : Nat) (p : Place) (sub type scope b : Nat) : State :=
  let n := typeBytes type
  let r := (s.dropCopies c p scope).readOn c p n true
  r.1.writeOn c p (toBytes n (atomOp sub type (fromBytes r.2) b)) true

/-! ## Stores that wait, and loads performed early (R198; log entry 7) -/

/-- The bytes that an effect writes. -/
def Effect.size : Effect → Nat
  | .store data _ => data.length
  | .reduce _ type _ _ => typeBytes type

/-- Whether a waiting access touches n bytes at a place. -/
def Pend.meets (x : Pend) (p : Place) (n : Nat) : Bool := x.place.meets x.effect.size p n

/-- Whether an access that waits comes before a younger one: they share a byte, and they are of one lane (R199) or of one instruction. -/
def Pend.before (x y : Pend) : Bool :=
  x.meets y.place y.effect.size && (x.lanes &&& y.lanes != 0 || (x.clk == y.clk && x.group == y.group))

/-- What an effect does at a place, for a core. -/
def State.apply (s : State) (c : Nat) (p : Place) : Effect → State
  | .store data bypass => s.writeOn c p data bypass
  | .reduce sub type scope bs => bs.foldl (fun s b => s.reduceOn c p sub type scope b) s

/-- Perform one waiting access of a wave. To its own lanes it is no write of another party (R278). -/
def State.land (s : State) (k : Nat) (x : Pend) : State :=
  let t := s.apply (s.coreOf k) x.place x.effect
  if (lanesOf x.lanes).any fun l => ((s.wave k).lane l).member then
    t.modLanes k x.lanes fun l y => { y with conflict := ((s.wave k).lane l).conflict }
  else t

/-- The waiting accesses that are performed where some are wanted, oldest first, and those that still wait: with one goes every older one
that comes before it (R199). -/
def firstWanted (want : Pend → Bool) (xs : List Pend) : List Pend × List Pend :=
  xs.foldr (fun x acc => if want x || acc.1.any x.before then (x :: acc.1, acc.2) else (acc.1, x :: acc.2)) ([], [])

/-- Perform the waiting accesses of a wave that are wanted. -/
def State.performWanted (s : State) (k : Nat) (want : Pend → Bool) : State :=
  let r := firstWanted want (s.wave k).stores
  if r.1.isEmpty then s else (r.1.foldl (fun s x => s.land k x) s).modWave k fun w => { w with stores := r.2 }

/-- Perform every access of a wave that waits, oldest first. -/
def State.drain (s : State) (k : Nat) : State :=
  match (s.wave k).stores with
  | [] => s
  | xs => (xs.foldl (fun s x => s.land k x) s).modWave k fun w => { w with stores := [] }

/-- Perform access n of those that wait, unless an older one comes before it (R199). -/
def State.perform (s : State) (k n : Nat) : State :=
  let xs := (s.wave k).stores
  match xs[n]? with
  | none => s
  | some x =>
    if (xs.take n).any fun y => y.before x then s
    else (s.land k x).modWave k fun w => { w with stores := w.stores.eraseIdx n }

/-- What lanes have loaded early of n bytes at a place counts no more. -/
def State.dropEarly (s : State) (k : Nat) (m : BitVec 32) (p : Place) (n : Nat) : State :=
  if (lanesOf m).any fun l => ((s.wave k).lane l).early.any fun e => e.place.meets e.data.length p n then
    s.modLanes k m fun _ l => { l with early := l.early.filter fun e => !e.place.meets e.data.length p n }
  else s

/-- Nothing that lanes have loaded early counts any more: their later loads are made after this (R196). -/
def State.forget (s : State) (k : Nat) (m : BitVec 32) : State :=
  if (lanesOf m).any fun l => !((s.wave k).lane l).early.isEmpty then s.modLanes k m fun _ l => { l with early := [] } else s

/-- Every access of the lanes that waits is performed: what they do next is a release (R196). -/
def State.settleLanes (s : State) (k : Nat) (m : BitVec 32) : State := s.performWanted k fun x => x.lanes &&& m != 0

/-- Lanes whose next access to n bytes at a place comes: their accesses that wait there are performed first, and what they have loaded early
there is loaded again (R199). -/
def State.meet (s : State) (k : Nat) (m : BitVec 32) (p : Place) (n : Nat) : State :=
  (s.performWanted k fun x => (x.lanes &&& m != 0) && x.meets p n).dropEarly k m p n

/-- A lane performs a load of n bytes at a place before an earlier access of its own (R198): not one that its accesses that wait or its early
loads touch. -/
def State.loadEarly (s : State) (k l : Nat) (p : Place) (n : Nat) (bypass : Bool) : State :=
  let x := (s.wave k).lane l
  let touched := ((s.wave k).stores.any fun y => y.lanes.getLsbD l && y.meets p n) || x.early.any fun e => e.place.meets e.data.length p n
  if x.life ≠ .ready || touched || n = 0 || 16 < n || (p.foreign && 8 < n) then s
  else
    let r := s.readOn (s.coreOf k) p n bypass
    r.1.modLane k l fun x => { x with early := x.early ++ [{ place := p, data := r.2, bypass := bypass }] }

/-- The size of a die's scratchpad in bytes (R16). -/
def Die.dspSize (d : Die) : Nat := (d.dspcfg.extractLsb' 0 4).toNat * 0x800000

/-- A change of DSPSZ is in progress (R19). -/
def Die.busy (d : Die) : Bool := d.dspNext.isSome

/-- A poisoned word of a die's scratchpad, held by word number (R241). -/
def Die.poisonAt (d : Die) (off n : Nat) : Bool := d.poison.any fun p => off < (p + 1) * 8 && p * 8 < off + n

/-- The window of a context on a die (R172, R173): base and length in bytes. Context 0 has none and names die offsets. -/
def State.dspWindow (s : State) (d ctx : Nat) : Nat × Nat :=
  let w := (s.die d).dspwin.get ctx 0
  ((w.extractLsb' 16 16).toNat * 0x10000, (w.extractLsb' 0 16).toNat * 0x10000)

/-- The die offset that n bytes at a context's offset lie at; none outside the window or the scratchpad (R18, R172). -/
def State.dieOffset (s : State) (d ctx : Nat) (off : Int) (n : Nat) : Option Nat :=
  if off < 0 then none
  else
    let o := off.toNat
    let size := (s.die d).dspSize
    if ctx = 0 then if o + n ≤ size then some o else none
    else
      let (base, len) := s.dspWindow d ctx
      if o + n ≤ len && base + o + n ≤ size then some (base + o) else none

/-- The offset that n bytes of a team's memory lie at; none outside the allocation (R51, R140). -/
def State.teamOffset (s : State) (t : Nat) (off : Int) (n : Nat) : Option Nat :=
  if 0 ≤ off && off + n ≤ (s.team t).alloc then some off.toNat else none

/-! ## The belay buffer (R275, R276) -/

/-- The youngest byte a lane has buffered at a location. -/
def Lane.belayAt (l : Lane) (space addr : Nat) : Option Byte :=
  (l.belay.find? fun p => p.1.space == space && p.1.addr == addr).map (·.2)

/-- Buffer bytes, each replacing what the lane buffered there before. -/
def Lane.buffer (l : Lane) (space addr : Nat) (bs : List Byte) : Lane :=
  (List.range bs.length).foldl (fun l i =>
    { l with belay := (⟨space, addr + i⟩, bs.getD i 0) :: l.belay.filter fun p => p.1 != ⟨space, addr + i⟩ }) l

/-- The belay entries of a lane: distinct aligned 32-byte blocks. -/
def Lane.belayBlocks (l : Lane) : List (Nat × Nat) :=
  l.belay.foldl (fun acc p => if acc.contains (p.1.space, p.1.addr / 32) then acc else (p.1.space, p.1.addr / 32) :: acc) []

/-- Belay entries of a wave and of a core. -/
def Wave.belayCount (w : Wave) : Nat := (w.lanes.map fun p => p.2.belayBlocks.length).sum

def State.belayCount (s : State) (c : Nat) : Nat :=
  (s.waves.map fun p => if s.coreOf p.1 = c then p.2.belayCount else 0).sum

/-- The lines of 128 bytes in a wave's watch set. -/
def Wave.watchLines (w : Wave) : List (Nat × Nat) :=
  w.lanes.foldl (fun acc p => p.2.watch.foldl (fun acc b =>
    if acc.contains (b.space, b.addr / 128) then acc else (b.space, b.addr / 128) :: acc) acc) []

end Sys2Proof.Machine
end

