-- ==== Sys2Proof/Machine/Translate.lean ====
section
/-! DEFINITION. translate() (R141, R168 to R187): canonical addresses, the heap window, the TLBs, the walk and its
cache, permissions, and what physical addresses are backed (R174, R333). -/
namespace Sys2Proof.Machine

/-- Kinds of access by number, as TINFO reports them (R219): 0 READ, 1 WRITE, 2 RMW, 3 EXEC. -/
abbrev Kind := Nat

/-- Why a translation gives no address. -/
inductive TErr where
  | protection (usr : Bool)   -- a non-canonical address, or a denied access; whether USR was the reason
  | fatal (level : Nat)       -- an unrecoverable walk, or level 7: nothing backs the physical address
  | absent                    -- the page is absent: park (R182)
  | migrating                 -- a write wait on a page under migration (R182)
  deriving DecidableEq, Repr

/-- Canonical: bits [63:57] all equal bit 56 (R169). -/
def canonical (va : DWord) : Bool :=
  let top := va.extractLsb' 56 8
  top == 0 || top == 0xFF

/-- Bytes of HBM of a die: 192 GiB (R174). -/
def hbmBytes : Nat := 192 * 2 ^ 30

/-- A local-HBM address that memory backs (R174). -/
def localBacked (pa : Nat) : Bool := pa < 2 ^ 40 && pa % 2 ^ 38 < hbmBytes

/-- A peer address, its module and its address there (R174). -/
def isPeer (pa : Nat) : Bool := bitsAt pa 50 2 == 2
def peerOf (pa : Nat) : Nat := bitsAt pa 40 10

/-- A host address, its node and its offset (R174). -/
def isHost (pa : Nat) : Bool := bitsAt pa 46 6 == 48
def hostOf (pa : Nat) : Nat := bitsAt pa 40 6

/-- A peer address that carries the module's own number is the local address with the same bits [39:0] (R174). -/
def State.selfAddressed (s : State) (pa : Nat) : Nat :=
  if isPeer pa && peerOf pa == s.mod.modnum.toNat % 1024 then pa % 2 ^ 40 else pa

/-- What backs a physical address (R174, R333): local HBM, an exported range of a peer that is not in reset, or the
memory a host node exports. -/
def State.backed (s : State) (pa : Nat) : Bool :=
  if isLocal pa then localBacked pa
  else if isPeer pa then
    match s.mod.peers.find? (peerOf pa) with
    | none => false
    | some p => p.reachable && !p.fabstat.getLsbD 1 && p.expbase ≤ pa % 2 ^ 40 && pa % 2 ^ 40 < p.expbase + p.explen
  else if isHost pa then
    let r := s.mod.host.get (hostOf pa) (0, 0)
    r.1 ≤ pa % 2 ^ 40 && pa % 2 ^ 40 < r.1 + r.2
  else false

/-- Whether every byte of n is backed: what backs addresses are intervals, so the first and the last tell. -/
def State.backedAll (s : State) (pa n : Nat) : Bool := s.backed pa && (n ≤ 1 || s.backed (pa + n - 1))

/-! ## The walk (R178 to R182) -/

/-- What one table entry is. -/
inductive Walked where
  | err (e : TErr)
  | table (addr : Nat)
  | leaf (e : TlbEntry)
  deriving DecidableEq, Repr

/-- The radix leaf size of a level (R178). -/
def leafSize (level : Nat) : Nat := 2 ^ (12 + 9 * level)

/-- The size of a leaf with SZ (R180); none where the level does not allow it. -/
def pageSize (level sz : Nat) : Option Nat :=
  match level, sz with
  | 0, _ => some (leafSize 0 * 4 ^ sz)
  | 1, _ => some (leafSize 1 * 4 ^ sz)
  | 2, 0 => some (leafSize 2)
  | 2, 2 => some (leafSize 2 * 16)
  | _, _ => none

/-- Judge an entry read at a level for an address (R179 to R182). -/
def judgeEntry (ctx va level e : Nat) : Walked :=
  let frame := bitsAt e 12 40 * 4096
  if e % 2 = 0 then .err .absent
  else if bitsAt e 1 1 = 1 then
    if level = 0 ∨ bitsAt e 2 10 ≠ 0 ∨ bitsAt e 52 12 ≠ 0 then .err (.fatal level) else .table frame
  else if 3 ≤ level ∨ bitsAt e 11 1 ≠ 0 ∨ bitsAt e 52 12 ≠ 0 then .err (.fatal level)
  else
    match pageSize level (bitsAt e 6 2) with
    | none => .err (.fatal level)
    | some size =>
      if frame % size ≠ 0 then .err (.fatal level)
      else if isLocal frame && bitsAt e 8 2 != bitsAt frame 38 2 then .err (.fatal level)
      else .leaf { ctx := ctx, va := va / size * size, pa := frame, size := size, usr := e.testBit 5, ex := e.testBit 4,
                   wr := e.testBit 3, rd := e.testBit 2, mig := e.testBit 10 }

/-- The tag a walk-cache entry for a level's table covers: the address bits above it (R183). -/
def walkTag (level va : Nat) : Nat := va / 2 ^ (12 + 9 * (level + 1))

/-- Walk from a table at a level down, noting the tables met. -/
def State.walkFrom (s : State) (ctx va : Nat) : (level table : Nat) → List WalkEntry × Walked
  | level, table =>
    if !localBacked table then ([], .err (.fatal level))
    else
      let e := fromBytes (s.l2Read (table + bitsAt va (12 + 9 * level) 9 * 8) 8)
      match judgeEntry ctx va level e with
      | .table t =>
        match level with
        | 0 => ([], .err (.fatal 0))
        | k + 1 =>
          let r := s.walkFrom ctx va k t
          ({ ctx := ctx, level := k, tag := walkTag k va, table := t } :: r.1, r.2)
      | w => ([], w)

/-- The deepest table of an address that the walk cache holds, else the top-level table (R178, R183). -/
def State.walkStart (s : State) (d ctx va : Nat) : Nat × Nat :=
  let hit := (List.range 4).filterMap fun level =>
    ((s.die d).walk.find? fun e => e.ctx == ctx && e.level == level && e.tag == walkTag level va).map fun e => (level, e.table)
  hit.headD (4, (s.ctx ctx).ptroot.toNat % 2 ^ 52)

/-- The TLB entry that covers an address. -/
def tlbHit (t : List TlbEntry) (ctx va : Nat) : Option TlbEntry :=
  t.find? fun e => e.ctx == ctx && e.va ≤ va && va < e.va + e.size

/-- The leaf for an address by the die's TLB or a walk (R183). Nothing of a walk that ends in a fault or at an absent page is cached. -/
def State.lookupDie (s : State) (d ctx va : Nat) : State × Except TErr TlbEntry :=
  match tlbHit (s.die d).tlb ctx va with
  | some e => (s, .ok e)
  | none =>
    let (level, table) := s.walkStart d ctx va
    let (seen, r) := s.walkFrom ctx va level table
    match r with
    | .leaf e => (s.modDie d fun x => { x with walk := (seen ++ x.walk).take 2048, tlb := (e :: x.tlb).take 16384 }, .ok e)
    | .err e => (s, .error e)
    | .table _ => (s, .error (.fatal 0))

/-- The leaf for an address by a core: its own TLB first. -/
def State.lookup (s : State) (c ctx va : Nat) : State × Except TErr TlbEntry :=
  match tlbHit (s.core c).tlb ctx va with
  | some e => (s, .ok e)
  | none =>
    match s.lookupDie (c / Config.coresPerDie) ctx va with
    | (s, .ok e) => (s.modCore c fun x => { x with tlb := (e :: x.tlb).take 128 }, .ok e)
    | r => r

/-- The permission a kind needs (R182): none where the leaf grants it, else whether USR was the reason. -/
def TlbEntry.denied (e : TlbEntry) (ctx : Nat) (k : Kind) : Option Bool :=
  let right := match k with | 0 => e.rd | 1 => e.wr | 2 => e.rd && e.wr | _ => e.ex
  if !right then some false
  else if ctx != 0 && !e.usr then some true
  else none

/-- What a leaf gives an access, in the order of R141: migration, permission, then what backs the address. -/
def State.applyLeaf (s : State) (ctx a : Nat) (k : Kind) (e : TlbEntry) : Except TErr Nat :=
  if (k == 1 || k == 2) && e.mig then .error .migrating
  else
    match e.denied ctx k with
    | some usr => .error (.protection usr)
    | none =>
      let pa := s.selfAddressed (e.pa + (a - e.va))
      if s.backed pa then .ok pa else .error (.fatal 7)

/-- The heap window (R176, R177): none where the access does not fall in it. -/
def State.heapWindow (s : State) (ctx : Nat) (va : DWord) (k : Kind) : Option (Except TErr Nat) :=
  let x := s.ctx ctx
  if k ≠ 3 ∧ x.hwbase.toNat ≤ va.toNat ∧ va.toNat < x.hwbase.toNat + x.hwlim.toNat then
    let pa := (va + x.hwoff).toNat
    some (if localBacked pa then .ok pa else .error (.fatal 7))
  else none

/-- translate(va, kind) for a context on a core (R141). -/
def State.translate (s : State) (c ctx : Nat) (va : DWord) (k : Kind) : State × Except TErr Nat :=
  if !canonical va then (s, .error (.protection false))
  else
    match s.heapWindow ctx va k with
    | some r => (s, r)
    | none =>
      let a := va.toNat % 2 ^ 57
      match s.lookup c ctx a with
      | (s, .error e) => (s, .error e)
      | (s, .ok e) => (s, s.applyLeaf ctx a k e)

/-- The same for an agent of a die that is no core: its task unit, its collective engine. -/
def State.translateDie (s : State) (d ctx : Nat) (va : DWord) (k : Kind) : State × Except TErr Nat :=
  if !canonical va then (s, .error (.protection false))
  else
    match s.heapWindow ctx va k with
    | some r => (s, r)
    | none =>
      let a := va.toNat % 2 ^ 57
      match s.lookupDie d ctx a with
      | (s, .error e) => (s, .error e)
      | (s, .ok e) => (s, s.applyLeaf ctx a k e)

/-- The 4 KiB page that holds an address (R182). -/
def pageOf (va : DWord) : DWord := va &&& ~~~ (0xFFF#64)

/-! ## Regions of generated code (R258, R259) -/

/-- An entry of a region table. -/
structure Region where
  base : Nat
  len : Nat
  state : Nat
  scope : Nat
  pending : Bool
  gen : Nat
  pgen : Nat
  bar : Nat
  deriving DecidableEq, Repr

/-- Where entry i of a context's region table lies (R258). -/
def State.regionAddr (s : State) (ctx i : Nat) : Nat := (s.ctx ctx).rgtbase.toNat % 2 ^ 52 + 32 * i

/-- Read an entry. -/
def State.region (s : State) (ctx i : Nat) : Region :=
  let a := s.regionAddr ctx i
  let n := fun o k => fromBytes (s.l2Read (a + o) k)
  { base := n 0 8, len := n 8 4, state := n 12 1, scope := n 13 1, pending := n 14 1 % 2 == 1, gen := n 16 4, pgen := n 20 4,
    bar := n 24 4 }

/-- Write the fields that the part changes: state, scope, pending, generation, pending generation, barrier (R259). -/
def State.setRegion (s : State) (ctx i : Nat) (r : Region) : State :=
  s.l2Write (s.regionAddr ctx i + 12)
    (toBytes 1 r.state ++ toBytes 1 r.scope ++
     toBytes 1 ((fromBytes (s.l2Read (s.regionAddr ctx i + 14) 1)) / 2 * 2 + r.pending.toNat) ++
     s.l2Read (s.regionAddr ctx i + 15) 1 ++ toBytes 4 r.gen ++ toBytes 4 r.pgen ++ toBytes 4 r.bar)

/-- The entries of a context's region table that are not free, ascending: those whose state byte memory lists. -/
def State.regionsUsed (s : State) (ctx : Nat) : List Nat :=
  let base := (s.ctx ctx).rgtbase.toNat % 2 ^ 52
  s.mem.filterMap fun p =>
    if base ≤ p.1 ∧ p.1 < base + 131072 ∧ (p.1 - base) % 32 = 12 ∧ p.2 ≠ 0 then some ((p.1 - base) / 32) else none

/-- region_at: the lowest-indexed non-free entry whose range holds the address (R259). -/
def State.regionAt (s : State) (ctx : Nat) (va : DWord) : Option Nat :=
  (s.regionsUsed ctx).find? fun i => let r := s.region ctx i; r.base ≤ va.toNat && va.toNat < r.base + r.len

/-- An entry whose base or length breaks R258. -/
def Region.bad (r : Region) : Bool :=
  !canonical (BitVec.ofNat 64 r.base) || r.base % 256 != 0 || r.len % 256 != 0 || r.len < 256 || 2 ^ 24 < r.len

/-- The generation that a core has adopted for a region (R263). -/
def Core.adopted (c : Core) (ctx region : Nat) : Option Word :=
  (c.adopt.find? fun a => a.ctx == ctx && a.region == region).map (·.gen)

/-- Take one lane out of a residency count; an entry at zero is removed (R262). -/
def State.residLeave (s : State) (ctx : Nat) (r : Resid) : State :=
  s.modDie r.die fun d => { d with resid := (d.resid.map fun x =>
      if x.ctx = ctx ∧ x.region = r.region ∧ x.gen = r.gen then { x with count := x.count - 1 } else x).filter fun x =>
        x.count != 0 }

/-- Whether one more lane can be counted: its key has an entry, or the table has room (R262). -/
def State.residRoom (s : State) (d ctx region : Nat) (gen : Word) : Bool :=
  (s.die d).resid.any (fun x => x.ctx == ctx && x.region == region && x.gen == gen) || (s.die d).resid.length < 1024

/-- Count one more lane (R262). -/
def State.residEnter (s : State) (d ctx region : Nat) (gen : Word) : State :=
  s.modDie d fun x =>
    if x.resid.any (fun y => y.ctx == ctx && y.region == region && y.gen == gen) then
      { x with resid := x.resid.map fun y =>
          if y.ctx = ctx ∧ y.region = region ∧ y.gen = gen then { y with count := y.count + 1 } else y }
    else { x with resid := x.resid ++ [{ ctx := ctx, region := region, gen := gen, count := 1 }] }

end Sys2Proof.Machine
end

