-- ==== Sys2Proof/Machine/Barrier.lean ====
section
/-! DEFINITION. Timeline counters (R208 to R210) and barrier objects (R211 to R214, R357): their updates, the completion
check, the waits they end and the arms that counters release. -/
namespace Sys2Proof.Machine

/-! ## Counters -/

/-- The value of a counter whose outstanding numbers are listed: everything below the least of them. -/
def counterOf (issued : Nat) (outstanding : List Nat) : Nat :=
  match outstanding with
  | [] => issued
  | n :: ns => ns.foldl min n - 1

/-- A task unit that has taken nothing. -/
def TaskUnit.reset : TaskUnit := { pool := [], issued := 0, outstanding := [] }

/-- The task unit of a die for a context. -/
def State.unit (s : State) (d ctx : Nat) : TaskUnit := (s.die d).units.get ctx TaskUnit.reset

/-- Change a task unit. -/
def State.modUnit (s : State) (d ctx : Nat) (f : TaskUnit → TaskUnit) : State :=
  s.modDie d fun x => { x with units := x.units.put ctx (f (s.unit d ctx)) }

/-- A copy-engine context that has taken nothing. -/
def CopyCtx.reset : CopyCtx := { queue := [], issued := 0, done := 0 }

/-- The copy-engine context of a core for a context. -/
def State.copyCtx (s : State) (c ctx : Nat) : CopyCtx := (s.core c).copy.get ctx CopyCtx.reset

/-- Change it. -/
def State.modCopy (s : State) (c ctx : Nat) (f : CopyCtx → CopyCtx) : State :=
  s.modCore c fun x => { x with copy := x.copy.put ctx (f (s.copyCtx c ctx)) }

/-- The fields of a counter identifier (R209). -/
def idKind (id : Word) : Nat := (id.extractLsb' 29 3).toNat
def idCore (id : Word) : Nat := (id.extractLsb' 23 6).toNat
def idDie (id : Word) : Nat := (id.extractLsb' 21 2).toNat
def idCtx (id : Word) : Nat := (id.extractLsb' 17 4).toNat

/-- Whether an identifier is valid for a context (R209). -/
def idOk (id : Word) (ctx : Nat) : Bool :=
  let k := idKind id
  k ≤ 4 && idCore id < 48 && (id.extractLsb' 0 17 == 0) && (k ≤ 1 || idCore id == 0) && (k != 3 || idDie id == 0) &&
  (if k == 1 || k == 2 then idCtx id == 0 else ctx == 0 || idCtx id == ctx)

/-- The value of the counter that an identifier names (R208). -/
def State.counter (s : State) (id : Word) : Nat :=
  let c := idDie id * Config.coresPerDie + idCore id
  match idKind id with
  | 0 => (s.copyCtx c (idCtx id)).done
  | 1 => (s.core c).mDone
  | 2 => counterOf (s.die (idDie id)).collIssued ((s.die (idDie id)).colls.map (·.num))
  | 3 => counterOf (s.ctx (idCtx id)).launchIssued (s.ctx (idCtx id)).launchOut
  | _ => counterOf (s.unit (idDie id) (idCtx id)).issued (s.unit (idDie id) (idCtx id)).outstanding

/-! ## Barrier objects -/

/-- The fields of a barrier object (R211). -/
structure Bar where
  phase : Word
  expArr : Nat
  arrived : Nat
  expBytes : Nat
  landed : Nat
  flags : Word
  id : Word
  target : Nat
  deriving DecidableEq, Repr

/-- The place of an object. -/
def ObjRef.place (o : ObjRef) : Place :=
  match o with
  | .team t off => .team t off
  | .die d off => .die d off

/-- The bytes of an object. -/
def State.objBytes (s : State) (o : ObjRef) : List Byte :=
  match o with
  | .team t off => s.tmemRead t off 32
  | .die d off => s.dspRead d off 32

/-- Read an object. -/
def State.bar (s : State) (o : ObjRef) : Bar :=
  let b := s.objBytes o
  let n := fun i k => fromBytes ((b.drop i).take k)
  { phase := BitVec.ofNat 32 (n 0 4), expArr := n 4 2, arrived := n 6 2, expBytes := n 8 4, landed := n 12 4,
    flags := BitVec.ofNat 32 (n 16 4), id := BitVec.ofNat 32 (n 20 4), target := n 24 8 }

/-- The bytes that hold the fields. -/
def Bar.bytes (b : Bar) : List Byte :=
  toBytes 4 b.phase.toNat ++ toBytes 2 b.expArr ++ toBytes 2 b.arrived ++ toBytes 4 b.expBytes ++ toBytes 4 b.landed ++
  toBytes 4 b.flags.toNat ++ toBytes 4 b.id.toNat ++ toBytes 8 b.target

/-- Whether there is such an object to update: a retired team has none, and a killed one retires at once (R242, R268, R328, R478). -/
def State.objThere (s : State) (o : ObjRef) : Bool :=
  match o with
  | .team t off => (s.teams.find? t).isSome && (s.team t).state != .killed && off + 32 ≤ (s.team t).alloc
  | .die d off => off + 32 ≤ (s.die d).dspSize

/-- Perform an object at its port. -/
def State.putBar (s : State) (o : ObjRef) (b : Bar) : State :=
  match o with
  | .team t off => s.tmemWrite t off b.bytes
  | .die d off => s.dspWrite d off b.bytes

/-- (phase - p) read as a signed word is greater than 0 (R214). -/
def past (phase p : Word) : Bool := (0#32).slt (phase - p)

/-- The completion check (R212). -/
def Bar.check (b : Bar) : Bar :=
  if b.expArr ≤ b.arrived ∧ b.expBytes ≤ b.landed then
    { b with phase := b.phase + 1
             flags := if b.expArr < b.arrived ∨ b.expBytes < b.landed then b.flags ||| 8 else b.flags
             arrived := 0, landed := 0 }
  else b

/-- One arrival; the count saturates and sets overrun (R357). -/
def Bar.arrive (b : Bar) : Bar :=
  if b.arrived = 0xFFFF then { b with flags := b.flags ||| 8 } else { b with arrived := b.arrived + 1 }

/-- Landed bytes; the count saturates and sets overrun (R357). -/
def Bar.land (b : Bar) (k : Nat) : Bar :=
  if 0xFFFFFFFF < b.landed + k then { b with landed := 0xFFFFFFFF, flags := b.flags ||| 8 }
  else { b with landed := b.landed + k }

/-- Whether a lane waits at BARW on an object whose phase has passed its own (R214). -/
def Lane.wakesOn (l : Lane) (o : ObjRef) (phase : Word) : Bool :=
  match l.life with
  | .blocked (.barw o' p _ _ _) => o' == o && past phase p
  | _ => false

/-- A lane past its BARW; where that acquires, what it has loaded early counts no more (R196). -/
def Lane.pastBarw (l : Lane) : Lane :=
  match l.life with
  | .blocked (.barw _ _ a next _) => { l with pc := next, life := .ready, early := if a = 0 then l.early else [] }
  | _ => l

/-- Whether a lane's BARW drops clean lines when it ends. -/
def Lane.barwAcquires (l : Lane) : Bool :=
  match l.life with
  | .blocked (.barw _ _ a _ _) => a == 2
  | _ => false

/-- End the waits that an object's phase ends, with their acquires (R214, R196). -/
def State.wakeBarrier (s : State) (o : ObjRef) (phase : Word) : State :=
  let cores := s.waves.foldl (fun acc p =>
    if p.2.lanes.any (fun q => q.2.wakesOn o phase && q.2.barwAcquires) then addOnce (s.coreOf p.1) acc else acc) []
  let s := { s with waves := s.waves.mapAll fun _ w =>
    { w with lanes := w.lanes.mapAll fun _ l => if l.wakesOn o phase then l.pastBarw else l } }
  cores.foldl (fun s c => s.l1DropClean c) s

/-- A barrier in the image of a Swapped team advanced: the team is Queued for restore (R52, R53). -/
def State.requeue (s : State) (o : ObjRef) (advanced : Bool) : State :=
  match o with
  | .team t _ =>
    if advanced then s.modTeam t fun x => if x.state = .swapped then { x with state := .queued, since := s.clk } else x else s
  | _ => s

/-- One update of an object, indivisible at its port, with what follows from it (R212). -/
def State.updateBar (s : State) (o : ObjRef) (f : Bar → Bar) : State :=
  if s.objThere o then
    let b := f (s.bar o)
    let advanced := b.phase != (s.bar o).phase
    ((s.putBar o b).wakeBarrier o b.phase).requeue o advanced
  else s

/-- Add an object to a list without repeats. -/
def addOnceRef (x : ObjRef) (xs : List ObjRef) : List ObjRef := if xs.contains x then xs else xs ++ [x]

/-- One arrival at an object (R213). -/
def State.arrive (s : State) (o : ObjRef) : State := s.updateBar o fun b => b.arrive.check

/-- An arrival that signals an engine, a grid or a retraction, where the command names an object. -/
def State.arriveAt (s : State) (o : Option ObjRef) : State :=
  match o with
  | some o => s.arrive o
  | none => s

/-- A wait on an object ends with an acquire at device scope, where it acquires as much as `least` says at all: every wait where the object was
armed for a counter (R210), those of order 1 or 3 where a graph's completion advances it (R328). -/
def Lane.acquireOn (l : Lane) (o : ObjRef) (least : Nat) : Lane :=
  match l.life with
  | .blocked (.barw o' p a next since) => if o' = o ∧ least ≤ a then { l with life := .blocked (.barw o' p 2 next since) } else l
  | _ => l

/-- The same for every wait on an object. -/
def State.acquireWaits (s : State) (o : ObjRef) (least : Nat) : State :=
  { s with waves := s.waves.mapAll fun _ w => { w with lanes := w.lanes.mapAll fun _ l => l.acquireOn o least } }

/-- Release one arm: the waits on it acquire, then the arrival (R210, R213). -/
def State.releaseArm (s : State) (o : ObjRef) : State :=
  (({ s with arms := s.arms.filter (· != o) }).acquireWaits o 0).updateBar o fun b =>
    (Bar.arrive { b with flags := b.flags &&& ~~~ (6#32) }).check

/-- The arrival of a graph's completion: the waits of order 1 or 3 that it ends acquire, whatever scope they name, and so do those that
observe it later (R328). -/
def State.arriveGraph (s : State) (o : ObjRef) : State :=
  (({ s with graphBars := addOnceRef o s.graphBars }).acquireWaits o 1).arrive o

/-- Release every arm whose counter has reached its target (R213). -/
def State.checkArms (s : State) : State :=
  s.arms.foldl (fun s o =>
    let b := s.bar o
    if b.flags.getLsbD 1 && b.target ≤ s.counter b.id then s.releaseArm o else s) s

/-- Whether an offset is an object of a space for a context on a die: space 1 is the team's memory, 2 the die
scratchpad (R134, R172). -/
def State.objAt (s : State) (space t : Nat) (off : Int) : Option ObjRef :=
  if space = 1 then (s.teamOffset t off 32).map (ObjRef.team t)
  else
    let d := (s.team t).core / Config.coresPerDie
    (s.dieOffset d (s.team t).ctx off 32).map (ObjRef.die d)

end Sys2Proof.Machine
end

