-- ==== Sys2Proof/Machine/Matrix.lean ====
section
/-! DEFINITION. The arithmetic of the matrix engine (R119, R156, R163 to R165, R293 to R296): rows of the matrix formats,
folding a smoothing vector, accumulating a stream, and rounding a drained element. -/
namespace Sys2Proof.Machine

/-! ## Rows of a matrix format (R119, R293, R295) -/

/-- Formats whose elements stand in blocks of 32. -/
def blockFormat (fmt : Nat) : Bool := 4 ≤ fmt && fmt ≤ 7

/-- Bytes of a row of K elements. -/
def rowBytes (fmt k : Nat) : Nat :=
  match fmt with
  | 0 => 2 * k | 1 => 2 * k
  | 4 => k / 2 + k / 32
  | 5 => k / 32 * 14 | 6 => k / 32 * 22 | 7 => k / 32 * 34
  | _ => k

/-- Bytes of a weight tile without its side list. -/
def tileBytes (fmt : Nat) : Nat := 128 * rowBytes fmt 128

/-- The float format of an element format. -/
def elemFmt (fmt : Nat) : Fmt :=
  match fmt with
  | 0 => Fmt.bf16 | 1 => Fmt.f16 | 2 => Fmt.e4m3 | _ => Fmt.e5m2

/-- Multiply by a power of two. -/
def XV.scale (x : XV) (e : Int) : XV :=
  match x with
  | .fin n m g => .fin n m (g + e)
  | y => y

/-- A number of bytes of a row from an offset on. -/
def rowWord (row : List Byte) (off n : Nat) : Nat := fromBytes ((row.drop off).take n)

/-- The code of element j of an e2m1 row, and whether it is an escape (R156). -/
def e2m1Code (row : List Byte) (j : Nat) : Nat := rowWord row (j / 2) 1 / 16 ^ (j % 2) % 16

/-- The value of element j of a row of K elements; an escape reads as `esc`. -/
def elemAt (fmt k : Nat) (row : List Byte) (j : Nat) (esc : XV) : XV :=
  match fmt with
  | 8 => XV.ofInteger (intOf 0 (rowWord row j 1))
  | 4 =>
    let x8 := rowWord row (k / 2 + j / 32) 1
    if x8 = 255 then .nan false
    else if e2m1Code row j = 8 then esc
    else (decodeF Fmt.e2m1 (e2m1Code row j)).scale ((x8 : Int) - 127)
  | _ =>
    if blockFormat fmt then
      let b := rowBytes fmt 32
      bxDecode (fmt - 5) (rowWord row (j / 32 * b) b) (j % 32)
    else if fmt < 2 then decodeF (elemFmt fmt) (rowWord row (2 * j) 2)
    else decodeF (elemFmt fmt) (rowWord row j 1)

/-- Whether element j of an e2m1 row holds an escape whose value counts: its block is no NaN block. -/
def liveEscape (row : List Byte) (j : Nat) : Bool := e2m1Code row j == 8 && rowWord row (64 + j / 32) 1 != 255

/-! ## Weight tiles (R163, R293, R294) -/

/-- Round to a float format with saturation to the largest finite magnitude, infinities too (R143, R163). The rounding of an 8-bit
format saturates; bf16 and f16 round to an infinity first. -/
def saturated (f : Fmt) (x : XV) : Nat :=
  let r := (roundXV f 0 false true x).bits
  if f.mb + f.eb < 15 then r
  else if r = infCode f false then maxCode f false
  else if r = infCode f true then maxCode f true
  else r

/-- A block of 32 exact products re-encoded in its format, and decoded (R161, R163). Escapes stand in it as zeros. -/
def refold (fmt : Nat) (xs : List XV) : List XV :=
  if fmt = 4 then
    match blockExp 2 xs with
    | none => xs.map fun _ => .nan false
    | some e => xs.map fun x => (decodeF Fmt.e2m1 (qntElem 2 (scaleXV x e))).scale e
  else
    let block := bxEncode (fmt - 5) xs
    (List.range 32).map fun i => bxDecode (fmt - 5) block i

/-- A row of exact products in the tile's latched format (R163). -/
def refoldRow (fmt : Nat) (xs : List XV) : List XV :=
  if blockFormat fmt then
    (List.range 4).flatMap fun b => refold fmt ((xs.drop (32 * b)).take 32)
  else if fmt = 8 then
    xs.map fun x => XV.ofInteger (match x with
      | .inf n => if n then -128 else 127
      | .fin n m e => satInt 0 (roundToInt 0 n m e).1
      | _ => 0)
  else xs.map fun x => decodeF (elemFmt fmt) (saturated (elemFmt fmt) x)

/-- The positions of a tile's escapes, ascending in k * 128 + n. -/
def escapesOf (fmt : Nat) (rows : List (List Byte)) : List Nat :=
  if fmt ≠ 4 then []
  else (List.range 128).flatMap fun k =>
    let row := rows.getD k []
    ((List.range 128).filter fun n => e2m1Code row n == 8).map fun n => k * 128 + n

/-- Keep what differs from +0. -/
def sparse (xs : List (Nat × XV)) : Tbl XV := xs.filter fun p => p.2 != .zero false

/-- The buffer that a tile gives: its rows, its side list in the order of the escapes, and the factors of a fold, which multiply an escape in its
side-list entry alone (R163). -/
def loadTile (fmt owner : Nat) (rows : List (List Byte)) (side : List Nat) (fold : Option (List XV)) : WBuf :=
  let pos := escapesOf fmt rows
  let factor := fun k => match fold with
    | some cs => cs.getD k (XV.nan false)
    | none => XV.fin false 1 0
  let row := fun k =>
    let xs := (List.range 128).map fun n => elemAt fmt 128 (rows.getD k []) n (.zero false)
    match fold with
    | some _ => refoldRow fmt ((List.range 128).map fun n =>
        if fmt = 4 ∧ liveEscape (rows.getD k []) n then .zero false else ((xs.getD n (.zero false)).mul (factor k)).1)
    | none => xs
  let ws := (List.range 128).flatMap fun k => (List.range 128).map fun n => (k * 128 + n, (row k).getD n (.zero false))
  let esc := (List.range pos.length).filterMap fun i =>
    let p := pos.getD i 0
    if !liveEscape (rows.getD (p / 128) []) (p % 128) || ((row (p / 128)).getD (p % 128) (.zero false)).isNan then none
    else
      let v := decodeF Fmt.bf16 (side.getD i 0)
      some (p, match fold with
        | some _ => decodeF Fmt.bf16 (roundXV Fmt.bf16 0 false false (v.mul (factor (p / 128))).1).bits
        | none => v)
  { fmt := fmt, owner := some owner, w := sparse ws, escapes := esc }

/-! ## Streams (R164, R165, R295) -/

/-- An add into an accumulator element, rounded RNE to f32. -/
def accAdd (acc : Nat) (x : XV) : Nat := (roundXV Fmt.f32 0 false false ((decodeF Fmt.f32 acc).add 0 x).1).bits

/-- What the element of row k adds to the exact sum of a column: its product with the activation, but zero where it is an escape (R165). -/
def WBuf.term (b : WBuf) (n : Nat) (act : Nat → XV) (k : Nat) : XV :=
  if (b.escapes.find? (k * 128 + n)).isSome then .zero false else ((b.w.get (k * 128 + n) (.zero false)).mul (act k)).1

/-- One group of 16 products of a column: its exact sum rounded once, then the corrections of its escapes in ascending k. -/
def accGroup (b : WBuf) (n : Nat) (act : Nat → XV) (k0 : Nat) (acc : Nat) : Nat :=
  let ks := (List.range 16).map (· + k0)
  let sum := (sumXV (ks.map (b.term n act))).1
  let acc := accAdd acc (decodeF Fmt.f32 (roundXV Fmt.f32 0 false false sum).bits)
  ks.foldl (fun acc k => match b.escapes.find? (k * 128 + n) with
    | some e => accAdd acc (e.mul (act k)).1
    | none => acc) acc

/-- One accumulator element over a row of K activations. -/
def accRow (b : WBuf) (fmt k : Nat) (row : List Byte) (n acc : Nat) : Nat :=
  (List.range (k / 16)).foldl (fun acc g => accGroup b n (fun j => elemAt fmt k row j (.nan false)) (16 * g) acc) acc

/-- The key of an element of a tile. -/
def tileKey (t row col : Nat) : Nat := t * 32768 + row * 128 + col

/-- A tile file after a row of activations. -/
def streamRow (b : WBuf) (fmt k t r : Nat) (row : List Byte) (tiles : Tbl Word) : Tbl Word :=
  (List.range 128).foldl (fun ts n =>
    ts.set 0 (tileKey t r n) (BitVec.ofNat 32 (accRow b fmt k row n (tiles.get (tileKey t r n) 0).toNat))) tiles

/-- Clear a tile. -/
def clearTile (t : Nat) (tiles : Tbl Word) : Tbl Word := tiles.filter fun p => p.1 / 32768 != t

/-! ## Drains (R296) -/

/-- Bytes of an element of a drain's type. -/
def drainBytes (type : Nat) : Nat := if type = 10 then 4 else if type < 10 then 2 else 1

/-- An accumulator element in a drain's type, added to the old element where the drain adds. -/
def drainElem (type : Nat) (old : Option Nat) (acc : Nat) : Nat :=
  let f := fmtOfType type
  let x := decodeF Fmt.f32 acc
  let y := match old with
    | some o => ((decodeF f o).add 0 x).1
    | none => x
  (roundXV f 0 false true y).bits

end Sys2Proof.Machine
end

