-- ==== Sys2Proof/Machine/Commands.lean ====
section
/-! DEFINITION. What an engine command reads and where it writes (R217, R296, R300 to R302): its place in global memory byte by byte, its
scratchpad bytes, the segments of a drain, and the stores that it has yet to make (R239). -/
namespace Sys2Proof.Machine

/-- A field of a record as a number. -/
def fld (b : List Byte) (off n : Nat) : Nat := fromBytes ((b.drop off).take n)

/-! ## What engines read (R302; log entry 42) -/

/-- The bytes of a command's read from x on, where words that it has read ahead are as they were then. -/
def Cmd.look (c : Cmd) (place : Nat → Place) (x : Nat) (bs : List Byte) : List Byte :=
  if c.seen.isEmpty then bs
  else (List.range bs.length).map fun i =>
    match c.seen.lookup (place ((x + i) / 4 * 4)) with
    | some w => w.getD ((x + i) % 4) 0
    | none => bs.getD i 0

/-- What a command reads of its team's memory. -/
def State.teamSeen (s : State) (c : Cmd) (off n : Nat) : List Byte := c.look (.team c.team) off (s.tmemRead c.team off n)

/-- What a command reads of a byte of physical memory. -/
def State.memSeen (s : State) (c : Cmd) (pa : Nat) : Byte := (c.look .mem pa [Memory.read s.mem pa]).headD 0

/-- n consecutive addresses. -/
def addrsFrom (a : DWord) (n : Nat) : List DWord := (List.range n).map fun i => a + BitVec.ofNat 64 i

/-! ## Drains (R217, R296) -/

/-- The bytes of one 128-byte segment of a drain, given the old bytes where it adds. -/
def drainSegment (x : Core) (type tile row seg : Nat) (old : Option (List Byte)) : List Byte :=
  let n := drainBytes type
  (List.range (128 / n)).flatMap fun i =>
    let col := seg * (128 / n) + i
    toBytes n (drainElem type (old.map fun b => fld b (n * i) n) (x.tiles.get (tileKey tile row col) 0).toNat)

/-! ## Copies (R300, R301) -/

/-- Bytes that a box covers. -/
def boxBytes (d : Desc) (extent : List Nat) : Nat := d.esize * extent.foldl (· * ·) 1

/-- The coordinates of element e of a dense box. -/
def boxCoords : (extent : List Nat) → (e : Nat) → List Nat
  | [], _ => []
  | n :: ns, e => e % n :: boxCoords ns (e / n)

/-- The global address of byte b of element e of a box; none where a coordinate lies outside the tensor. -/
def boxAddr (d : Desc) (origin extent : List Nat) (e b : Nat) : Option DWord :=
  let i := (List.range 9).map fun k => origin.getD k 0 + (boxCoords extent e).getD k 0
  if (List.range 9).all fun k => i.getD k 0 < d.sizes.getD k 0 then
    some (d.base + BitVec.ofNat 64 (i.getD 0 0 * d.esize + b + ((List.range 8).map fun k => i.getD (k + 1) 0 * d.strides.getD k 0).sum))
  else none

/-- The global address of byte x of a command's dense bytes. -/
def CmdOp.addrOf (op : CmdOp) (x : Nat) : Option DWord :=
  match op with
  | .box _ _ _ _ d origin extent _ => boxAddr d origin extent (x / d.esize) (x % d.esize)
  | .gather _ d index _ =>
    let row := d.sizes.getD 0 0 * d.esize
    let j := index.getD (x / row) 0
    if j < d.sizes.getD 1 0 then some (d.base + BitVec.ofNat 64 (x % row + j * d.strides.getD 0 0)) else none
  | _ => none

/-- Dense bytes of a copy, and the space and offset of its scratchpad bytes. -/
def CmdOp.total (op : CmdOp) : Nat :=
  match op with
  | .box _ _ _ _ d _ extent _ => boxBytes d extent
  | .gather _ d index _ => index.length * (d.sizes.getD 0 0 * d.esize)
  | _ => 0

def CmdOp.scratch (op : CmdOp) : Nat × Nat :=
  match op with
  | .box _ _ _ space _ _ _ off => (space, off)
  | .gather space _ _ off => (space, off)
  | _ => (1, 0)

/-- The kind of a copy: 0 CPY, 1 CPYG, 2 CPYS, 3 CPYR. -/
def CmdOp.copyKind (op : CmdOp) : Nat :=
  match op with
  | .box kind _ _ _ _ _ _ _ => kind
  | .gather _ _ _ _ => 1
  | _ => 0

/-- Read the scratchpad of a command. -/
def State.scratchRead (s : State) (core : Nat) (c : Cmd) (x n : Nat) : List Byte :=
  if c.op.scratch.1 = 1 then s.teamSeen c (c.op.scratch.2 + x) n
  else
    let d := core / Config.coresPerDie
    c.look (.die d) (c.op.scratch.2 + x) (s.dspRead d (c.op.scratch.2 + x) n)

/-! ## Stores yet to make (R239) -/

/-- The byte at a virtual address as a command would read it now; 0 where it cannot (log entry 71). -/
def State.byteSeen (s : State) (core : Nat) (c : Cmd) (va : DWord) : Byte :=
  match (s.translate core c.ctx va 0).2 with
  | .ok pa => s.memSeen c pa
  | .error _ => 0

/-- The segments that a copy has yet to land. -/
def State.landings (s : State) (core : Nat) (c : Cmd) : List (DWord × List Byte) :=
  (List.range ((c.op.total - c.pos + 127) / 128)).map fun i =>
    let x := c.pos + 128 * i
    (BitVec.ofNat 64 (c.op.scratch.2 + x), (List.range (min 128 (c.op.total - x))).map fun b =>
      ((c.op.addrOf (x + b)).map (s.byteSeen core c)).getD 0)

/-- The stores of a command from the place that it has come to: the segments of a drain, where it adds what it would add; the segments of a copy
into a scratchpad; the elements of a copy into global memory. -/
def State.cmdStores (s : State) (core : Nat) (c : Cmd) : List (DWord × List Byte) :=
  match c.op with
  | .mxd type tile _ _ dst row0 m stride =>
    let per := drainBytes type
    (List.range (m * per - c.pos)).map fun i =>
      let pos := c.pos + i
      (BitVec.ofNat 64 (dst + pos / per * stride + pos % per * 128), drainSegment (s.core core) type tile (row0 + pos / per) (pos % per) none)
  | .box _ _ _ _ d _ _ _ =>
    if c.op.copyKind < 2 then s.landings core c
    else (List.range ((c.op.total - c.pos) / d.esize)).filterMap fun i =>
      (c.op.addrOf (c.pos + i * d.esize)).map fun a => (a, s.scratchRead core c (c.pos + i * d.esize) d.esize)
  | .gather _ _ _ _ => s.landings core c
  | _ => [(0, [])]

end Sys2Proof.Machine
end

