-- ==== Sys2Proof/Machine/Tasks.lean ====
section
/-! DEFINITION. The task unit of a die (R314 to R320, R329, R390, R479): task records, the pool, the turns and flips of
edge-reversal graphs, and what retiring a task does. -/
namespace Sys2Proof.Machine

/-- A task record from its 64 bytes (R315). -/
def parseTask (b : List Byte) : TaskRec :=
  let n := fun i k => fromBytes ((b.drop i).take k)
  { entry := BitVec.ofNat 64 (n 0 8), arg := BitVec.ofNat 64 (n 8 8), tile := BitVec.ofNat 64 (n 16 8),
    succ := BitVec.ofNat 64 (n 24 8), ropes := BitVec.ofNat 64 (n 32 8), gid := n 40 4, flags := n 44 4, waves := n 48 1,
    kib := n 49 2, rsv := (b.drop 51).any (· != 0) }

/-- The edge-reversal flag. -/
def TaskRec.er (t : TaskRec) : Bool := t.flags % 2 == 1

/-- The byte offset of the first field that breaks R315; none where every limit holds. -/
def TaskRec.breach (t : TaskRec) : Option Nat :=
  if t.tile.toNat / 2 ^ 48 ≠ 0 then some 16
  else if t.er = false ∧ t.ropes ≠ 0 then some 32
  else if 2 ≤ t.flags then some 44
  else if t.waves < 1 ∨ 32 < t.waves then some 48
  else if 1023 < t.kib then some 49
  else if t.rsv then some 51
  else none

/-- What submitting a task record gives (R470 steps 3 to 5). -/
inductive Submit where
  | accepted | full | bad
  | err (e : TErr)
  deriving DecidableEq, Repr

/-- Submit the record at a physical address to the pool of a die for a context. -/
def State.submitAt (s : State) (d ctx pa : Nat) : State × Submit :=
  let t := parseTask (s.l2Read pa 64)
  if t.breach.isSome || t.er then (s, .bad)
  else if 16384 ≤ ((s.die d).units.map fun p => p.2.pool.length).sum then (s, .full)
  else
    (s.modUnit d ctx fun u => { u with pool := u.pool ++ [(u.issued + 1, t)], issued := u.issued + 1,
                                       outstanding := u.outstanding ++ [u.issued + 1] }, .accepted)

/-- The successor counter (R316): subtract 1, and at 0 submit the record it names as TSUB would, whose address is a
multiple of 64 (R470). Where an address does not translate, the step is not made (log entry 15). -/
def State.stepSuccessor (s : State) (d ctx : Nat) (a : DWord) : State :=
  if a = 0 then s
  else
    match s.translateDie d ctx a 2 with
    | (s, .error _) => s
    | (s, .ok pa) =>
      let v := BitVec.ofNat 32 (fromBytes (s.l2Read pa 4)) - 1
      let s := s.l2Write pa (toBytes 4 v.toNat)
      if v ≠ 0 then s
      else
        match s.translateDie d ctx (a + 8) 0 with
        | (s, .error _) => s
        | (s, .ok pb) =>
          let a := BitVec.ofNat 64 (fromBytes (s.l2Read pb 8))
          if a.toNat % 64 ≠ 0 then s
          else
            match s.translateDie d ctx a 0 with
            | (s, .error _) => s
            | (s, .ok pc) => (s.submitAt d ctx pc).1

/-! ## Graphs -/

/-- The graph armed with an id on a die (R318, R390). -/
def Die.graph (d : Die) (gid : Nat) : Option Graph := d.graphs.find? fun g => g.gid == gid

/-- Change a graph. -/
def State.modGraph (s : State) (d gid : Nat) (f : Graph → Graph) : State :=
  s.modDie d fun x => { x with graphs := x.graphs.map fun g => if g.gid = gid then f g else g }

/-- A task of a graph. -/
def Graph.task (g : Graph) (i : Nat) : Option GTask := g.tasks[i]?

/-- Done: the task has taken every turn (R319). -/
def Graph.done (g : Graph) (t : GTask) : Bool := g.rounds ≤ t.turns

/-- Every rope of the task points toward it (R319). -/
def Graph.holds (g : Graph) (i : Nat) (t : GTask) : Bool :=
  t.ropes.all fun j =>
    match g.ropes[j]? with
    | some r => if r.towardB then r.b == i else r.a == i
    | none => false

/-- Eligible: neither Done nor Running, and every rope points toward it. -/
def Graph.eligible (g : Graph) (i : Nat) : Bool :=
  match g.task i with
  | some t => !g.done t && !t.running && g.holds i t
  | none => false

/-- The lowest eligible task (R319). -/
def Graph.pick (g : Graph) : Option Nat := (List.range g.tasks.length).find? g.eligible

/-- Write bit 0 of a rope's record, skipped where the page does not allow it (R479). -/
def State.writeRope (s : State) (d ctx : Nat) (base : DWord) (j : Nat) (towardB : Bool) : State :=
  match s.translateDie d ctx (base + BitVec.ofNat 64 (16 * j + 4)) 1 with
  | (s, .error _) => s
  | (s, .ok pa) =>
    let b := fromBytes (s.l2Read pa 1)
    s.l2Write pa (toBytes 1 (b / 2 * 2 + towardB.toNat))

/-- A turn of a task ends: all its ropes flip away in one update, and the graph completes with its last turn (R319). -/
def State.endTurn (s : State) (d gid i : Nat) : State :=
  match (s.die d).graph gid with
  | none => s
  | some g =>
    match g.task i with
    | none => s
    | some t =>
      let away := fun (r : Rope) => if r.a = i then { r with towardB := true } else { r with towardB := false }
      let ropes := (List.range g.ropes.length).map fun j =>
        let r := g.ropes.getD j ⟨0, 0, false⟩
        if t.ropes.contains j then away r else r
      let s := t.ropes.foldl (fun s j => s.writeRope d g.ctx g.ropeBase j (ropes.getD j ⟨0, 0, false⟩).towardB) s
      let t' := { t with turns := t.turns + 1, running := false }
      let g' := { g with ropes := ropes, tasks := g.tasks.set i t' }
      if g'.tasks.all g'.done then
        (s.modDie d fun x => { x with graphs := x.graphs.filter fun y => y.gid != gid }).arriveGraph g.bar
      else s.modGraph d gid fun _ => g'

/-- Retire a team's task: TDONE, or a retirement or kill without it (R316, R319). The writes of the team's core reach
memory first. -/
def State.retireTask (s : State) (t : Nat) : State :=
  let x := s.team t
  match x.task with
  | none => s
  | some r =>
    if x.tdone then s
    else
      let s := (s.release x.core 4).modTeam t fun y => { y with tdone := true }
      let s := s.stepSuccessor r.die x.ctx r.task.succ
      if r.graph then s.endTurn r.die r.task.gid r.idx
      else
        (s.modUnit r.die x.ctx fun u => { u with outstanding := u.outstanding.filter (· != r.num) }).checkArms

/-- ERPASS (R390) of a context: the status. A graph of another context is not armed for it (R27; log entry 63). -/
def State.passMark (s : State) (d ctx gid i : Nat) : State × Word :=
  match (s.die d).graph gid with
  | none => (s, 2)
  | some g =>
    match g.task i with
    | none => (s, 2)
    | some t =>
      if g.ctx ≠ ctx ∨ g.done t then (s, 2) else (s.modGraph d gid fun g => { g with tasks := g.tasks.set i { t with mark := true } }, 0)

end Sys2Proof.Machine
end

