-- ==== Sys2Proof/Machine/Ops.lean ====
section
/-! DEFINITION. Shared operations: fault records, the completion of grids, the kill of a team, the abort of try regions,
taking a trap and returning from it, parking, the joins of a wave, and residency. -/
namespace Sys2Proof.Machine

/-! ## Fault records (R226, R228) -/

/-- The location word of a lane (R226). -/
def State.location (s : State) (k l : Nat) : Word :=
  BitVec.ofNat 32 (s.dieOf k + s.coreOf k % Config.coresPerDie * 4 + (s.team (k / 64)).rslot * 2 ^ 8 + k % 64 * 2 ^ 12 + l * 2 ^ 18)

/-! ## Samples of global requests (R245) -/

/-- A core counts a global request of a context where SAMPCFG asks for samples; the last of every N is marked. -/
def State.countRequest (s : State) (core ctx : Nat) (x : Sample) : State :=
  let n := ((s.ctx ctx).sampcfg.extractLsb' 0 16).toNat
  if n = 0 then s
  else
    let count := (s.core core).requests.get ctx 0 + 1
    if n ≤ count then
      (s.modCore core fun c => { c with requests := c.requests.put ctx 0 }).modCtx ctx fun c => { c with samples := c.samples ++ [x] }
    else s.modCore core fun c => { c with requests := c.requests.put ctx count }

/-! ## Records -/

/-- The 32 bytes of a record (R226). -/
def FaultRec.bytes (r : FaultRec) : List Byte :=
  toBytes 8 r.addr.toNat ++ toBytes 1 r.kind ++ toBytes 1 r.access ++ toBytes 1 r.tag ++ toBytes 1 r.ctx ++
  toBytes 4 r.loc.toNat ++ toBytes 4 r.mask.toNat ++ toBytes 4 r.teamId.toNat ++ toBytes 8 r.pc.toNat

/-- A record about lanes of a wave; the location names the lowest. -/
def State.laneRec (s : State) (k : Nat) (mask : BitVec 32) (kind access tag : Nat) (addr pc : DWord) : FaultRec :=
  { addr := addr, kind := kind, access := access, tag := tag, ctx := s.ctxOf k, loc := s.location k (lowest mask), mask := mask,
    teamId := BitVec.ofNat 32 (s.team (k / 64)).lin, pc := pc }

/-- Whether a context's fault queue is full (R228). -/
def Ctx.queueFull (c : Ctx) : Bool := c.fqsize ≤ c.fqhead - c.fqtail

/-- Write a record at FQHEAD, then advance it and signal FQBAR (R228). -/
def State.writeRecord (s : State) (c : Nat) (r : FaultRec) : State :=
  let x := s.ctx c
  let s := s.l2Write (x.fqbase.toNat % 2 ^ 52 + 32 * (x.fqhead.toNat % x.fqsize.toNat)) r.bytes
  let s := s.modCtx c fun y => { y with fqhead := y.fqhead + 1 }
  if x.fqbar.getLsbD 31 then s.arrive (.die 0 (32 * (x.fqbar.extractLsb' 0 16).toNat)) else s

/-- Post a record to a context's queue; it waits inside the part, in order, while the queue is full (R228). -/
def State.post (s : State) (c : Nat) (r : FaultRec) : State :=
  let x := s.ctx c
  if x.waiting.isEmpty && !x.queueFull then s.writeRecord c r
  else s.modCtx c fun y => { y with waiting := y.waiting ++ [r] }

/-! ## Grids (R54, R55, R310, R339) -/

/-- The object that a record's completion-barrier field names for the source of its grid, when the record is taken (R309). -/
def State.completionObj (s : State) (ctx : Nat) (src : Source) (field : DWord) : Option ObjRef :=
  let off := field.toNat % 2 ^ 32
  match field.toNat / 2 ^ 62 with
  | 1 => match src with
         | .child t => if 32 ≤ off then some (.team t off) else none
         | _ => none
  | 2 => (s.dieOffset (bitsAt field.toNat 56 2) ctx off 32).map (ObjRef.die (bitsAt field.toNat 56 2))
  | _ => none

/-- A completion's arrival: at an object of die scratchpad, where the context's window still covers it (R309). -/
def State.arriveDone (s : State) (ctx : Nat) (o : Option ObjRef) : State :=
  match o with
  | some (.die d off) =>
    let w := s.dspWindow d ctx
    if ctx = 0 ∨ (w.1 ≤ off ∧ off + 32 ≤ w.1 + w.2) then s.arrive (.die d off) else s
  | o => s.arriveAt o

/-- Write an entry to the host completion ring (R339). -/
def State.hostEntry (s : State) (num queue ctx status : Nat) : State :=
  let m := s.mod
  if !m.hcqcfg.getLsbD 31 then s
  else
    let size := 2 ^ (m.hcqcfg.extractLsb' 16 5).toNat
    let s := s.l2Write (m.hcqbase.toNat % 2 ^ 52 + 16 * (m.hcqhead.toNat % size))
      (toBytes 8 num ++ toBytes 1 queue ++ toBytes 1 ctx ++ toBytes 2 status ++ toBytes 4 0)
    s.modMod fun m => { m with hcqhead := m.hcqhead + 1 }

/-- The queue number that a host entry names. -/
def Source.number : Source → Nat
  | .queue q => q
  | _ => 0xFF

/-- Flag bits of a launch record (R309). -/
def LaunchRec.idempotent (r : LaunchRec) : Bool := r.flags % 2 == 1
def LaunchRec.external (r : LaunchRec) : Bool := r.flags / 2 % 2 == 1
def LaunchRec.spawns (r : LaunchRec) : Bool := r.flags / 4 % 2 == 1

/-- Teams of a record's grid. -/
def LaunchRec.teams (r : LaunchRec) : Nat := r.gx * r.gy * r.gz

/-- A launch number is complete: the counter may pass it (R208). -/
def State.launchDone (s : State) (ctx num : Nat) : State :=
  (s.modCtx ctx fun x => { x with launchOut := x.launchOut.filter (· != num) }).checkArms

/-- A grid completes (R55, R339). -/
def State.gridDone (s : State) (gk : Nat) (g : Grid) : State :=
  let s := { s with grids := s.grids.del gk }
  match g.source with
  | .task _ => s
  | src =>
    let s := s.arriveDone g.ctx g.bar
    let s := if g.record.external then s.hostEntry g.num src.number g.ctx (if g.lost then 2 else 0) else s
    let s := s.launchDone g.ctx g.num
    match src with
    | .child t => s.modTeam t fun x => { x with children := x.children - 1 }
    | _ => s

/-- One team of a grid counts as retired (R55, R242). -/
def State.teamDone (s : State) (gk : Nat) (lost : Bool) : State :=
  match s.grids.find? gk with
  | none => s
  | some g =>
    let g := { g with retired := g.retired + 1, lost := g.lost || lost }
    if g.record.teams ≤ g.retired then s.gridDone gk g else { s with grids := s.grids.put gk g }

/-! ## Engine commands of a team (R478) -/

/-- Leave out the leading commands that have finished; the last one's number is the counter (R145). -/
def settleQueue (done : Nat) : List Cmd → Nat × List Cmd
  | [] => (done, [])
  | c :: cs => if c.finished then settleQueue c.num cs else (done, c :: cs)

/-- The counters of a core's engines catch up with its finished commands. -/
def State.settleEngines (s : State) (c : Nat) : State :=
  (s.modCore c fun x =>
    let m := settleQueue x.mDone x.mq
    { x with mq := m.2, mDone := m.1,
             copy := x.copy.mapAll fun _ y => let q := settleQueue y.done y.queue; { y with queue := q.2, done := q.1 } }).checkArms

/-- Whether a command counts as not started where its team is killed (R478). An MXD has started once it has performed a segment: R327 gives what it
leaves where none has been (DEDUCED; log entry 72). -/
def Cmd.unstarted (c : Cmd) : Bool :=
  !c.started || match c.op with
    | .mxd _ _ _ _ _ _ _ _ => c.pos == 0
    | _ => false

/-- A command that has not started is dropped: it counts as completed at its number, with no effect (R478). -/
def Cmd.dropFor (t : Nat) (c : Cmd) : Cmd :=
  if c.team = t ∧ c.unstarted then { c with started := true, finished := true, tag := none } else c

/-- Whether a team has a command queued or running on its core. -/
def State.hasCommands (s : State) (t : Nat) : Bool :=
  let x := s.core (s.team t).core
  x.mq.any (fun c => c.team == t && !c.finished) ||
    x.copy.any fun p => p.2.queue.any fun c => c.team == t && !c.finished

/-- Clear the engine state that a team owns (R288). -/
def Core.clearEngine (x : Core) (t : Nat) : Core :=
  let drop := fun (b : WBuf) => if b.owner = some t then WBuf.reset else b
  let owned := fun i => x.tileTag.find? i == some t
  { x with active := drop x.active, shadow := drop x.shadow, tiles := x.tiles.filter fun p => !owned (p.1 / 32768),
           tileTag := x.tileTag.filter fun p => p.2 != t }

/-! ## Leaving residency, and kills (R242) -/

/-- The lanes of a wave leave their regions (R262). -/
def State.leaveRegions (s : State) (k : Nat) : State :=
  let w := s.wave k
  let s := w.lanes.foldl (fun s p =>
    (p.2.resid.toList ++ p.2.hresid.toList).foldl (fun s r => s.residLeave (s.ctxOf k) r) s) s
  s.modWave k fun w => { w with lanes := w.lanes.mapAll fun _ l => { l with resid := none, hresid := none } }

/-- Whether a lane or an engine command waits on a tag of a context. -/
def State.tagHeld (s : State) (c tag : Nat) : Bool :=
  (s.waves.any fun p => s.ctxOf p.1 == c && p.2.slots.any fun q => q.2.lanes.any fun r => r.2.tag == some tag) ||
  (s.cores.any fun p => (p.2.mq ++ p.2.copy.flatMap fun q => q.2.queue).any fun x => x.ctx == c && x.tag == some tag) ||
  s.dies.any fun p => p.2.colls.any fun x => x.ctx == c && x.page == some tag

/-- A tag frees once every lane that waited on it has left it (R229). -/
def State.sweepTags (s : State) (c : Nat) : State :=
  s.modCtx c fun x => { x with tags := x.tags.filter fun p => s.tagHeld c p.1 }

/-- The waves of a team. -/
def State.wavesOf (s : State) (t : Nat) : List Nat := (s.waves.map (·.1)).filter fun k => k / 64 == t

/-- A command or a collective whose wave has ended (R222). -/
def Cmd.orphan (k : Nat) (c : Cmd) : Cmd := if c.wave = k then { c with ended := true } else c
def Coll.orphan (k : Nat) (c : Coll) : Coll := if c.wave = k then { c with ended := true } else c

/-- The engines forget the lanes of a wave that ends, so that a later wave of its number is not taken for it (R222). -/
def State.orphan (s : State) (k : Nat) : State :=
  let s := s.modCore (s.coreOf k) fun x =>
    { x with mq := x.mq.map (Cmd.orphan k), copy := x.copy.mapAll fun _ y => { y with queue := y.queue.map (Cmd.orphan k) } }
  s.modDie (s.dieOf k) fun x => { x with colls := x.colls.map (Coll.orphan k) }

/-- A wave ends or is discarded: its stores that wait are performed, and it leaves its slot, the critical list and every region. -/
def State.dropWave (s : State) (k : Nat) : State :=
  let s := ((s.drain k).orphan k).leaveRegions k
  let s := s.modCore (s.coreOf k) fun x => { x with crit := x.crit.filter (· != k) }
  { s with waves := s.waves.del k }

/-- The memory and residency of a team are freed (R52, R242, R478). -/
def State.freeTeam (s : State) (t : Nat) : State :=
  let s := s.modCore (s.team t).core fun x => x.clearEngine t
  { s with teams := s.teams.del t }

/-- The records in a killed team's pending-launch queue are dropped; each counts as a completed grid (R242). -/
def State.dropPending (s : State) (t : Nat) : State :=
  let x := s.team t
  x.pending.foldl (fun s p =>
    let s := if p.record.completion.toNat / 2 ^ 62 = 2 then s.arriveDone x.ctx p.bar else s
    let s := if p.record.external then s.hostEntry p.num 0xFF x.ctx 2 else s
    s.launchDone x.ctx p.num) (s.modTeam t fun y => { y with pending := [] })

/-! ## Work left undone (R239) -/

/-- Bytes that a parked store would write; none for an access that stores nothing. -/
def storeBytes (i : Instr) : Option Nat :=
  match i with
  | .st k _ => some (2 ^ k.toNat)
  | .stt k _ => some (2 ^ k.toNat)
  | .stp k _ => some (2 ^ k.toNat)
  | .stc _ => some 4
  | .stl _ c => some (typeBytes c.type.toNat)
  | .atom _ c => some (typeBytes c.type.toNat)
  | .red _ c => some (typeBytes c.type.toNat)
  | .cas _ c => some (typeBytes c.type.toNat)
  | _ => none

/-- The bytes that a parked store would write, from its log: of CAS its swap value (R224). -/
def logBytes (i : Instr) (n : Nat) (data : BitVec 128) : List Byte :=
  match i with
  | .cas _ _ => toBytes n (data.toNat / 2 ^ 64)
  | _ => toBytes n data.toNat

/-- An entry of a dump. -/
def State.dumpItem (s : State) (k l : Nat) (addr : DWord) (data : List Byte) : DumpItem :=
  { die := s.dieOf k, core := s.coreOf k % Config.coresPerDie, wave := k % 64, lane := l, addr := addr, data := data }

/-- The stores that the commands of a team on its core have yet to make, of those commands that `p` holds for. -/
def State.leftCommands (s : State) (t : Nat) (p : Cmd → Bool) : List DumpItem :=
  let core := (s.team t).core
  let x := s.core core
  ((x.mq ++ x.copy.flatMap fun q => q.2.queue).filter fun c => c.team == t && !c.finished && p c).flatMap fun c =>
    (s.cmdStores core c).map fun q => s.dumpItem c.wave (lowest c.lanes) q.1 q.2

/-- The parked stores of a team. -/
def State.leftStores (s : State) (t : Nat) : List DumpItem :=
  (s.wavesOf t).flatMap fun k => (s.wave k).slots.flatMap fun p =>
    match storeBytes p.2.instr with
    | none => []
    | some n => p.2.lanes.map fun q => s.dumpItem k q.1 q.2.addr (logBytes p.2.instr n q.2.data)

/-- A killed team retires at once (R242). -/
def State.kill (s : State) (t : Nat) (r : Option FaultRec) : State :=
  if (s.teams.find? t).isNone || (s.team t).state == .killed then s
  else
    let x := s.team t
    let s := match r with
      | some r => s.post x.ctx r
      | none => s
    let s := { s with left := s.left.put t (s.leftStores t ++ s.leftCommands t Cmd.unstarted) }
    let s := ((s.wavesOf t).foldl State.dropWave s).release x.core 4
    let s := s.dropPending t
    let s := s.modCore x.core fun c => { c with bins := c.bins.filter fun p => p.2.team != t, mq := c.mq.map (Cmd.dropFor t),
                                                copy := c.copy.mapAll fun _ y => { y with queue := y.queue.map (Cmd.dropFor t) } }
    let s := (s.settleEngines x.core).sweepTags x.ctx
    let s := s.retireTask t
    let again := match s.grids.find? x.grid with
      | some g => g.record.idempotent
      | none => false
    let s := if again then { s with grids := s.grids.mod x.grid fun g =>
               { g with redo := g.redo ++ [x.lin], waitSince := some (g.waitSince.getD s.clk) } }
             else s.teamDone x.grid true
    let s := s.modTeam t fun y => { y with state := .killed }
    if s.hasCommands t then s else s.freeTeam t

/-! ## Aborting a try region (R281) -/

/-- A lane's registers after an abort (R281): those of `base`, the wave before any write of the clk, with its shadowed lines as the shadows
hold them, a slice that a TRY of the clk copied afresh as it did (R274). -/
def Lane.rollback (x : Lane) (l : Nat) (base : Wave) : Lane :=
  { x with v := base.shadow.foldl (fun v p => if p.1 < 64 then putSlice v l p.1 p.2 else v) (base.lane l).v }

/-- A lane leaves its region: nothing buffered, nothing watched (R281, R283). -/
def Lane.leaveTry (l : Lane) : Lane :=
  { l with belay := [], watch := [], pages := [], depth := 0, conflict := false }

/-- The shadowed scalar lines of a wave, and the wave with those lines whole as they were at their first write in the region. -/
def Wave.shadowed (w : Wave) : List Nat := (w.shadow.map (·.1)).filter (64 ≤ ·)
def Wave.restoreScalars (w base : Wave) : Wave :=
  w.shadowed.foldl (fun w line => w.putLine line ((base.shadow.find? line).getD (base.lineWords line))) w

/-- Shadow lines free once no member is left (R281). -/
def Wave.freeShadows (w : Wave) : Wave :=
  if w.lanes.any (fun p => p.2.member) then w else { w with shadow := [], covered := [] }

/-- The lanes that an abort of some lanes acts on: a lane of .lane mode alone, every live .wave member with one (R281). -/
def Wave.abortSet (w : Wave) (m : BitVec 32) : BitVec 32 :=
  let own := w.which (fun l => l.member && l.live) &&& m
  if (lanesOf own).any fun l => (w.lane l).waveMode then own ||| w.which (fun l => l.member && l.live && l.waveMode) else own

/-- Abort (R281): members go on at their abort targets with a status word. The restore stands over every register write of the clk. -/
def State.abort (s : State) (k : Nat) (m : BitVec 32) (code imm detail : Nat) : State :=
  let w := s.wave k
  let set := w.abortSet m
  if set = 0 then s
  else
    let status := BitVec.ofNat 32 (code + imm * 2 ^ 8 + detail * 2 ^ 16)
    let here := s.cur.wave == k
    let base := if here then { s.pre with shadow := s.pre.shadow.mapAll fun line ws => w.shadow.get line ws } else w
    let w1 := w.modLanes set fun l x => { (x.rollback l base).leaveTry with status := status, pc := x.target, life := .ready }
    let first := if here then lowest (set ||| s.cur.frozenLanes) else lowest set
    let w2 := { w1.restoreScalars base with tstatus := if set.getLsbD first then status else w1.tstatus }
    let s := s.modWave k fun _ => w2.freeShadows
    if here then
      { s with cur := { s.cur with frozenLanes := s.cur.frozenLanes ||| set, frozenLines := s.cur.frozenLines ++ w.shadowed } }
    else s

/-! ## Taking a trap, and returning (R142, R220 to R222) -/

/-- What one lane's trap reports. -/
structure Report where
  lane : Nat
  cause : Nat
  info : Word
  addr : DWord
  deriving DecidableEq, Repr

/-- TPARENT of a wave (R85). -/
def State.tparent (s : State) (k : Nat) : Word :=
  BitVec.ofNat 32 (k % 64 + (s.team (k / 64)).rslot * 2 ^ 8 + s.coreOf k % Config.coresPerDie * 2 ^ 12 + s.dieOf k * 2 ^ 18)

/-- Trap entry of a lane (R220): the trap registers, the handler-mode bit, and the wave's handler. -/
def Lane.enterTrap (l : Lane) (r : Report) (tpc : DWord) (tparent tsibs : Word) (vec : DWord) : Lane :=
  { l with tcause := BitVec.ofNat 32 r.cause, tinfo := r.info, tpc := tpc, taddr := r.addr, tparent := tparent,
           tsibs := tsibs, handler := true, life := .ready, pc := vec }

/-- Raise causes for lanes of a wave at an instruction's address; `group` is their PC group, and those of it that trap together are
the fragment that TSIBS leaves out (R45). A member of a try region aborts with FAULT (R280); in handler mode the team is killed
(R221), as it is with no handler (R220); any other lane takes the trap. A lane that has aborted in this clk, whose other instruction has executed for
it as a member, does none of these (R280, R281). -/
def State.raise (s : State) (k : Nat) (group : BitVec 32) (tpc : DWord) (rs : List Report) : State :=
  let w := s.wave k
  let rs := if s.cur.wave == k then rs.filter fun r => !s.cur.frozenLanes.getLsbD r.lane else rs
  let members := rs.filter fun r => (w.lane r.lane).member
  let others := rs.filter fun r => !(w.lane r.lane).member && (w.lane r.lane).live
  let s := members.foldl (fun s r =>
    if ((s.wave k).lane r.lane).member then s.abort k (1#32 <<< r.lane) 5 0 r.cause else s) s
  let twice := others.filter fun r => (w.lane r.lane).handler
  let mask := fun (l : List Report) => maskOf (l.map (·.lane))
  match others, twice with
  | [], _ => s
  | _, r :: _ => s.kill (k / 64) (some (s.laneRec k (mask twice) 0x80 0 0 r.addr tpc))
  | r :: _, [] =>
    if w.trapvec = 0 then s.kill (k / 64) (some (s.laneRec k (mask others) 0x81 0 0 r.addr tpc))
    else
      let tsibs := w.live &&& ~~~ (group &&& mask others)
      let s := others.foldl (fun s r =>
        s.modLane k r.lane fun l => l.enterTrap r tpc (s.tparent k) tsibs w.trapvec) s
      s.switchPoint k

/-- Raise one cause for lanes of the executing group at its instruction (R142). -/
def State.fault (s : State) (m : BitVec 32) (cause : Nat) (info : Word) (addr : DWord) : State :=
  s.raise s.cur.wave s.cur.mask s.cur.pc ((lanesOf m).map fun l => { lane := l, cause := cause, info := info, addr := addr })

/-- RTE of a lane (R441): out of handler mode, on at TPC with bits [1:0] taken as 0. -/
def Lane.returnTrap (l : Lane) : Lane := { l with handler := false, pc := l.tpc &&& ~~~ (3#64), life := .ready }

/-! ## Parking (R223 to R225) -/

/-- A lane that would park: the address it translates, which its log holds, the data it logs, the kind of its access, and whether it waits
on a migration. -/
structure Parking where
  lane : Nat
  addr : DWord
  data : BitVec 128
  kind : Kind
  migration : Bool
  deriving DecidableEq, Repr

/-- The lowest free key below a bound. -/
def lowestFree {α : Type} (t : Tbl α) (bound : Nat) : Option Nat := (List.range bound).find? fun i => (t.find? i).isNone

/-- The tag of a context's page, among those that no resolution has answered (R225, R229). -/
def Ctx.tagOf (c : Ctx) (page : DWord) : Option Nat :=
  (List.find? (fun p => !p.2.sysc && p.2.resolved.isNone && p.2.page == page) c.tags).map (·.1)

/-- Bivouac slots in use on a core. -/
def State.slotsUsed (s : State) (c : Nat) : Nat :=
  (s.waves.map fun p => if s.coreOf p.1 = c ∧ (s.team (p.1 / 64)).state = .resident then p.2.slots.length else 0).sum

/-- Whether a wave can take one more bivouac slot (R223). -/
def State.slotFree (s : State) (k : Nat) : Bool := (s.wave k).slots.length < 4 && s.slotsUsed (s.coreOf k) < 16

/-- A tag of a context for a page: the page's own, or the lowest free one with a new record; none while all are in use (R225). -/
def State.takeTagAs (s : State) (c : Nat) (page : DWord) (record : Nat → FaultRec) : State × Option Nat :=
  match (s.ctx c).tagOf page with
  | some t => (s, some t)
  | none =>
    match lowestFree (s.ctx c).tags 256 with
    | none => (s, none)
    | some t =>
      ((s.modCtx c fun x => { x with tags := x.tags.put t { page := page, sysc := false, resolved := none } }).post c (record t), some t)

/-- A tag for a parking lane; a new record is for the lanes of this instruction on the page (R225). -/
def State.takeTag (s : State) (k : Nat) (pc : DWord) (ps : List Parking) (p : Parking) : State × Option Nat :=
  let page := pageOf p.addr
  let mask := maskOf ((ps.filter fun q => !q.migration && pageOf q.addr == page).map (·.lane))
  s.takeTagAs (s.ctxOf k) page fun t => s.laneRec k mask 6 p.kind t page pc

/-- Lanes become Blocked at their instruction. -/
def State.block (s : State) (k : Nat) (m : BitVec 32) (w : Wait) : State :=
  s.modLanes k m fun _ l => { l with life := .blocked w }

/-- Park lanes of a wave on one instruction (R142, R223): one slot, or Blocked until a slot or a tag
is free. -/
def State.park (s : State) (k : Nat) (pc : DWord) (w0 w1 : Word) (i : Instr) (vb sb : Nat) (ps : List Parking) : State :=
  if ps.isEmpty then s
  else if !s.slotFree k then s.block k (maskOf (ps.map (·.lane))) .slot
  else
    let idx := (lowestFree (s.wave k).slots 4).getD 0
    let r := ps.foldl (fun (acc : State × Tbl ParkLane) p =>
      if p.migration then (acc.1, acc.2.put p.lane { addr := p.addr, data := p.data, tag := none })
      else
        match acc.1.takeTag k pc ps p with
        | (s, some t) => (s, acc.2.put p.lane { addr := p.addr, data := p.data, tag := some t })
        | (s, none) => (s.block k (1#32 <<< p.lane) .tag, acc.2)) (s, [])
    if r.2.isEmpty then r.1
    else
      let parked := maskOf (r.2.map (·.1))
      (r.1.modWave k fun w =>
        { w with slots := w.slots.put idx { pc := pc, w0 := w0, w1 := w1, instr := i, vb := vb, sb := sb, lanes := r.2 } }
        ).modLanes k parked fun _ l => { l with life := .parked idx }

/-- A lane leaves its slot; the slot frees with its last lane, and tags with theirs (R229). -/
def State.unpark (s : State) (k slot l : Nat) : State :=
  (s.modWave k fun w =>
    let x := w.slots.mapAll fun i sl => if i = slot then { sl with lanes := sl.lanes.del l } else sl
    { w with slots := x.filter fun p => !p.2.lanes.isEmpty }).sweepTags (s.ctxOf k)

/-! ## Residency (R261, R262) -/

/-- Whether an address lies in a region of a context. -/
def State.inRegion (s : State) (ctx region : Nat) (pc : DWord) : Bool :=
  let r := s.region ctx region
  r.state != 0 && r.base ≤ pc.toNat && pc.toNat < r.base + r.len

/-- The residency under which a lane executes at an address, and at its PC, if it is resident there (R36, R262). Handler code runs under a residency of its
own; a lane back from its handler runs under the one it trapped from, else under that of its handler's code. -/
def State.residentAt (s : State) (k l : Nat) (pc : DWord) : Option Resid :=
  let x := (s.wave k).lane l
  let holds := fun (r : Resid) => s.inRegion (s.ctxOf k) r.region pc
  if x.handler then x.hresid.filter holds else (x.resid.filter holds).or (x.hresid.filter holds)
def State.residentHere (s : State) (k l : Nat) : Option Resid := s.residentAt k l ((s.wave k).lane l).pc

/-- What the lanes of one group have in common: PC, handler-mode bit, fetch generation; none for a lane that is not resident, so that one that
is about to enter a region is never grouped with residents (R36). -/
abbrev GroupKey := DWord × Bool × Option Word

/-- The group key of a lane. -/
def State.groupKey (s : State) (k l : Nat) : GroupKey :=
  let x := (s.wave k).lane l
  (x.pc, x.handler, (s.residentHere k l).map (·.gen))

/-- A lane fetches: the regions that its PC has passed outside of are left (R262, R271). A handler outside a region keeps the lane in the
region it trapped from, unless it has itself run there. -/
def State.settleLane (s : State) (k l : Nat) : State :=
  let x := (s.wave k).lane l
  let c := s.ctxOf k
  let out := fun (r : Resid) => !s.inRegion c r.region x.pc
  let s := match x.resid with
    | some r =>
      if out r && (!x.handler || (x.hresid.any fun h => h.region == r.region)) then
        (s.residLeave c r).modLane k l fun x => { x with resid := none }
      else s
    | none => s
  match x.hresid with
  | some r =>
    if out r then (s.residLeave c r).modLane k l fun x => { x with hresid := none }
    else if x.handler then s
    else if ((s.wave k).lane l).resid.isNone then s.modLane k l fun x => { x with resid := some r, hresid := none }
    else (s.residLeave c r).modLane k l fun x => { x with hresid := none }
  | none => s

/-- The lanes of a group fetch. -/
def State.settleGroup (s : State) (k : Nat) (m : BitVec 32) : State :=
  (lanesOf m).foldl (fun s l =>
    let x := (s.wave k).lane l
    if x.resid.isNone && x.hresid.isNone then s else s.settleLane k l) s

/-! ## Joins (R46 to R49, R456, R457) -/

/-- A join register. -/
def Wave.join (w : Wave) (n : Nat) : Join := w.joins.get n { enrolled := 0, arrived := 0 }

/-- A Held lane goes on past its JWAIT or SYNCW. -/
def Lane.release (l : Lane) : Lane :=
  match l.life with
  | .held _ next => { l with pc := next, life := .ready }
  | _ => l

/-- Whether a lane is Held on a join register, or at SYNCW (4). -/
def Lane.heldOn (l : Lane) (n : Nat) : Bool :=
  match l.life with
  | .held m _ => m == n
  | _ => false

/-- A lane that holds a join or a sync open: it is in a handler, Blocked or Parked (R47, R457). -/
def Lane.away (l : Lane) : Bool :=
  l.handler || (match l.life with
    | .blocked _ => true
    | .parked _ => true
    | _ => false)

/-- Lanes that keep a join or a sync open although their bits have arrived: those that are away, neither Held on it nor arriving
now (R47, R457). -/
def Wave.holdOpen (w : Wave) (n : Nat) (arriving : BitVec 32) : BitVec 32 :=
  (w.which fun l => l.live && l.away && !l.heldOn n) &&& ~~~ arriving

/-- Complete a join whose lanes have all arrived (R46); `arriving` are lanes at their JWAIT now. -/
def Wave.completeJoin (w : Wave) (n : Nat) (arriving : BitVec 32) : Wave :=
  let j := w.join n
  if j.enrolled ≠ 0 ∧ j.arrived = j.enrolled ∧ j.enrolled &&& w.holdOpen n arriving = 0 then
    { w with joins := w.joins.del n, lanes := w.lanes.mapAll fun _ l => if l.heldOn n then l.release else l }
  else w

/-- A wave whose sync has all its lanes (R457). -/
def Wave.completeSync (w : Wave) (arriving : BitVec 32) : Wave :=
  match w.sync.pending with
  | some (m, _) =>
    if w.sync.arrived = m ∧ m &&& w.holdOpen 4 arriving = 0 then
      { w with sync := { pending := none, arrived := 0 }, lanes := w.lanes.mapAll fun _ l => if l.heldOn 4 then l.release else l }
    else w
  | none => w

/-- Look again at every join and at the sync: a lane has left its handler, or a wait. -/
def Wave.recheckJoins (w : Wave) : Wave :=
  ((List.range 4).foldl (fun w n => w.completeJoin n 0) w).completeSync 0

/-- Lanes leave all four join registers; a join this makes whole completes (R47). -/
def Wave.leaveJoins (w : Wave) (m : BitVec 32) : Wave :=
  let w := { w with joins := (w.joins.mapAll fun _ j => { enrolled := j.enrolled &&& ~~~ m, arrived := j.arrived &&& ~~~ m }) }
  (List.range 4).foldl (fun w n =>
    if (w.join n).enrolled = 0 then { w with joins := w.joins.del n } else w.completeJoin n 0) w

/-- The lanes of a wave that have a lane's PC, handler-mode bit and fetch generation (R36). -/
def State.sameGroup (s : State) (k l : Nat) : BitVec 32 :=
  maskOf ((List.range 32).filter fun i => s.groupKey k i == s.groupKey k l)

/-- A SYNCW that an Exited lane keeps from completing: every Held lane of it traps, and the state returns to zero
(R457). -/
def State.brokenSync (s : State) (k : Nat) : State :=
  let w := s.wave k
  match w.sync.pending with
  | some (m, _) =>
    if m &&& ~~~ w.live = 0 then s
    else
      let held := w.which fun l => l.heldOn 4
      let s := s.modWave k fun w => { w with sync := { pending := none, arrived := 0 } }
      (lanesOf held).foldl (fun s l =>
        let x := (s.wave k).lane l
        if !x.heldOn 4 then s
        else
          let group := held &&& s.sameGroup k l
          s.raise k group x.pc ((lanesOf group).map fun l => { lane := l, cause := 0x0B, info := 3, addr := 0 })) s
  | none => s

/-- Every live lane Held and nothing to complete: the lowest Held lane's group traps with SYNC_MASK (R48). -/
def State.deadlock (s : State) (k : Nat) : State :=
  let w := s.wave k
  let held := w.which fun l => match l.life with | .held _ _ => true | _ => false
  if w.live = 0 ∨ held ≠ w.live then s
  else
    let low := w.lane (lowest held)
    let on := match low.life with | .held n _ => n | _ => 0
    let grp := (w.which fun l => l.heldOn on) &&& s.sameGroup k (lowest held)
    let info : Word := if on = 4 then 0x04 else BitVec.ofNat 32 (0x80 + on)
    s.raise k grp low.pc ((lanesOf grp).map fun l => { lane := l, cause := 0x0B, info := info, addr := 0 })

/-! ## Exit -/

/-- Lanes are Exited (R391): out of every join and region. -/
def State.exitLanes (s : State) (k : Nat) (m : BitVec 32) : State :=
  let s := (lanesOf m).foldl (fun s l =>
    let x := (s.wave k).lane l
    (x.resid.toList ++ x.hresid.toList).foldl (fun s r => s.residLeave (s.ctxOf k) r) s) s
  let s := s.modLanes k m fun _ l => { l with life := .exited, resid := none, hresid := none }
  (s.modWave k fun w => w.leaveJoins m).brokenSync k

end Sys2Proof.Machine
end

