-- ==== Sys2Proof/Machine/Flags.lean ====
section
/-! DEFINITION. FCSR and WSTAT (R83, R84, R153 to R155): the fields an instruction reads and the flags it raises. -/
namespace Sys2Proof.Machine

/-- FCSR fields (R84). -/
def fcsrRm (f : Word) : Nat := (f.extractLsb' 12 3).toNat
def fcsrFtz (f : Word) : Bool := f.getLsbD 15
def fcsrEn (f : Word) : Flags := f.extractLsb' 7 5
def fcsrFlags (f : Word) : Flags := f.extractLsb' 0 5

/-- How arithmetic rounds (R84, R152): RNA is RNE there. -/
def arithEnv (f : Word) : FEnv := { mode := if fcsrRm f = 4 then 0 else fcsrRm f, ftz := fcsrFtz f }

/-- Raise flags in a wave's FCSR: they are sticky (R84, R155). -/
def State.raiseFlags (s : State) (k : Nat) (fl : Flags) : State :=
  let s := s.modWave k fun w => { w with fcsr := w.fcsr ||| fl.zeroExtend 32 }
  if s.cur.wave = k then { s with cur := { s.cur with raised := s.cur.raised ||| fl } } else s

/-- A write of FCSR (R84): reserved bits read 0, RM 5 to 7 leaves RM, and flags that the clk's other pick raised are ORed in
after it (R155). -/
def writeFcsr (old new : Word) (raised : Flags) : Word :=
  let rm := if 5 ≤ fcsrRm new then old.extractLsb' 12 3 else new.extractLsb' 12 3
  (0#16 ++ new.extractLsb' 15 1 ++ rm ++ new.extractLsb' 7 5 ++ 0#2 ++ new.extractLsb' 0 5) ||| raised.zeroExtend 32

/-- WSTAT bits (R83). -/
def wstatLtrap (w : Word) : Bool := w.getLsbD 1

/-- A stale latch was read (R79, R83). -/
def Wave.setStale (w : Wave) : Wave := { w with wstat := w.wstat ||| 1 }

/-- WSTAT as RDSR reads it (R83): TDEPTH and CRITW come from the lanes and from the core's list. -/
def State.readWstat (s : State) (k : Nat) : Word :=
  let w := s.wave k
  let depth := w.lanes.foldl (fun a p => max a p.2.depth) 0
  let crit := (s.core (s.coreOf k)).crit.contains k
  (w.wstat &&& 3) ||| BitVec.ofNat 32 (depth * 2 ^ 8) ||| (if crit then 0x80 else 0)

/-- A write of WSTAT (R83): LTRAP is written, LSTALE is cleared by a 1. -/
def writeWstat (old new : Word) : Word := (new &&& 2) ||| (old &&& 1 &&& ~~~ new)

end Sys2Proof.Machine
end

