-- ==== Sys2Proof/Machine/Operands.lean ====
section
/-! DEFINITION. Operands (R70 to R79, R110, R115, R116, R137, R138): reading codes, the checks that every instruction makes
before any lane acts, and writing results. -/
namespace Sys2Proof.Machine

open Sys2Proof.Encoding

/-! ## The kind of an instruction -/

/-- The opcode of an instruction; 511, an unassigned one, for a step of the part. -/
def opcodeOf (i : Instr) : BitVec 9 :=
  match i with
  | .br _ => 0x100#9
  | .brc _ _ => 0x101#9
  | .call _ => 0x103#9
  | _ => match row i with
         | some r => r.op
         | none => 0x1FF#9

/-- Class and index (R120). -/
def classOf (i : Instr) : Nat := (opcodeOf i).toNat / 64
def indexOf (i : Instr) : Nat := (opcodeOf i).toNat % 64

/-- A switch point (R77), which is also a restricted kind for dual issue (R39). -/
def isSwitch (i : Instr) : Bool :=
  5 ≤ classOf i || (classOf i == 4 && (indexOf i ≤ 9 || indexOf i == 0x0B || indexOf i == 0x1A || indexOf i == 0x1C))

/-- Forbidden inside a try region (R279). -/
def isForbidden (i : Instr) : Bool :=
  match classOf i with
  | 4 => [0x06, 0x07, 0x08, 0x09, 0x1A, 0x1C].contains (indexOf i)
  | 5 => 0x30 ≤ indexOf i
  | 6 => true
  | 7 => !([0x08, 0x09, 0x0A, 0x0B, 0x22].contains (indexOf i))
  | _ => false

/-- A privileged opcode (R129). -/
def isPrivileged (i : Instr) : Bool :=
  match i with
  | .halt _ => true
  | .tlbi _ _ => true
  | .ctxsw _ => true
  | _ => false

/-- The FEATMASK bit that R257 enforces for an instruction. -/
def featureOf (i : Instr) : Option Nat :=
  match i with
  | .coll _ _ => some 5
  | .publish _ _ => some 6
  | .adopt _ _ => some 6
  | .retract _ _ => some 6
  | .cvt src o => if src = 11 ∨ o.b.extractLsb' 3 4 = 11#4 then some 2 else none
  | .frnd o => if o.b.extractLsb' 3 4 = 11#4 then some 2 else none
  | .fclass o => if o.b.extractLsb' 3 4 = 11#4 then some 2 else none
  | .atom _ c => if c.type = 11 then some 2 else none
  | .red _ c => if c.type = 11 then some 2 else none
  | _ => if classOf i = 2 ∧ indexOf i % 4 = 1 then some 2 else none

/-! ## Reading operand codes (R73, R74) -/

/-- How an operand is read: a word, or 64 bits that a literal fills as s64, n64 (also b64) or f64. -/
inductive Ty where
  | w | s | n | f
  deriving DecidableEq, Repr

/-- Registers that an operand of a type spans. -/
def Ty.regs : Ty → Nat
  | .w => 1
  | _ => 2

/-- A literal as an operand (R74). -/
def Ty.literal (t : Ty) (lit : Word) : DWord :=
  match t with
  | .s => lit.signExtend 64
  | .f => lit ++ 0#32
  | _ => lit.zeroExtend 64

/-- A value narrowed to the operand's width. -/
def Ty.fit (t : Ty) (v : DWord) : DWord := if t = .w then (v.extractLsb' 0 32).zeroExtend 64 else v

/-- Registers of a lane, or of the wave, as 64 bits. -/
def Lane.read (l : Lane) (t : Ty) (n : Nat) : DWord :=
  if t = .w then (l.reg n).zeroExtend 64 else pair (l.reg n) (l.reg (n + 1))

def Wave.read (w : Wave) (t : Ty) (m : Nat) : DWord :=
  if t = .w then (w.sreg m).zeroExtend 64 else pair (w.sreg m) (w.sreg (m + 1))

/-- op_read of a code in a vector instruction (R73). -/
def readV (w : Wave) (l : Nat) (lit : Word) (t : Ty) (c : Code) : DWord :=
  let n := c.toNat
  if n < 96 then (w.lane l).read t (w.vb + n)
  else if n < 112 then w.read t (w.sb + n - 96)
  else if n < 120 then t.fit ((latchAt (w.lane l).latch (n - 112)).getD 0)
  else if n = 121 then BitVec.ofNat 64 l
  else if n = 122 then t.fit (-1)
  else if n = 127 then t.literal lit
  else 0

/-- op_read of a code in a scalar instruction (R73). -/
def readS (w : Wave) (lit : Word) (t : Ty) (c : Code) : DWord :=
  let n := c.toNat
  if n < 96 then w.read t (w.sb + n)
  else if n < 112 then BitVec.ofNat 64 (n - 96)
  else if n < 120 then t.fit ((latchAt w.slatch (n - 112)).getD 0)
  else if n = 121 then BitVec.ofNat 64 w.waveId
  else if n = 122 then t.fit (-1)
  else if n = 127 then t.literal lit
  else 0

/-- A field of a format-R word. -/
inductive Fld where
  | d | a | b
  deriving DecidableEq, Repr

/-- The code in a field. -/
def codeAt (o : Ops) : Fld → Code
  | .d => o.d
  | .a => o.a
  | .b => o.b

/-- What an instruction reads in one lane, or in the wave for a scalar one. -/
abbrev Reader := Ty → Fld → DWord

/-- The reader of a lane. -/
def laneReader (w : Wave) (l : Nat) (o : Ops) : Reader := fun t f => readV w l o.lit t (codeAt o f)

/-- The reader of the wave. -/
def waveReader (w : Wave) (o : Ops) : Reader := fun t f => readS w o.lit t (codeAt o f)

/-- The reader of one act: a lane's, or the wave's in a scalar instruction, where L = 0 stands for the wave (R139). -/
def reader (w : Wave) (o : Ops) (l : Nat) : Reader := if o.s then waveReader w o else laneReader w l o

/-- n consecutive registers of a data operand, as one number: D of a store. -/
def readRegs (w : Wave) (o : Ops) (l n : Nat) : Nat :=
  fromBytes (((List.range n).map fun i =>
    toBytes 4 (if o.s then (w.sreg (w.sb + o.d.toNat + i)).toNat else ((w.lane l).reg (w.vb + o.d.toNat + i)).toNat)).flatten)

/-! ## The checks of R137 -/

/-- Registers that the operands D, A and B of an instruction span. -/
structure Spans where
  d : Nat
  a : Nat
  b : Nat
  deriving DecidableEq, Repr

/-- An operand code as the checks see it: its field as TINFO numbers it (R138), registers spanned, and whether it is
bound by the limit on destinations (R74). -/
structure OpUse where
  field : Nat
  code : Code
  regs : Nat
  dst : Bool
  deriving DecidableEq, Repr

/-- The operand codes of an instruction, in the order D, A, B. -/
def usesOf (i : Instr) (sp : Spans) : List OpUse :=
  match i with
  | .brc c _ => [{ field := 3, code := c, regs := 1, dst := false }]
  | .call _ => [{ field := 0, code := 94, regs := 2, dst := true }]
  | .jenr o => if o.a = 127#7 then [{ field := 1, code := 127, regs := 1, dst := false }] else []
  | .jwait o => if o.a = 127#7 then [{ field := 1, code := 127, regs := 1, dst := false }] else []
  | _ =>
    match row i, ops i with
    | some r, some o =>
      let one := fun (u : Use) (fld : Nat) (c : Code) (n : Nat) =>
        match u with
        | .code => [{ field := fld, code := c, regs := n, dst := false : OpUse }]
        | .dst => [{ field := fld, code := c, regs := n, dst := true }]
        | .both => [{ field := fld, code := c, regs := n, dst := true }]
        | _ => []
      one r.d 0 o.d sp.d ++ one r.a 1 o.a sp.a ++ one r.b 2 o.b sp.b
    | _, _ => []

/-- Whether the instruction is scalar. -/
def scalarOf (i : Instr) : Bool :=
  match ops i with
  | some o => o.s
  | none => false

/-- Whether code 127 is barred: format RC takes no literal, nor do LUT3, format JC, JENR and JWAIT (R110, R113, R116), nor the instructions
that create work (R314). -/
def noLiteral (i : Instr) : Bool :=
  isLut3 i || (ctl i).isSome || (match i with
    | .brc _ _ => true
    | .jenr _ => true
    | .jwait _ => true
    | .tsub _ => true
    | .erarm _ => true
    | .erpass _ => true
    | _ => false)

/-- Whether an operand code is illegal for a wave whose registers are backed up to the counts (R70, R73, R74, R116).
`seen` says that an earlier field reads the literal, `later` that a later one does. -/
def OpUse.illegal (u : OpUse) (scalar bar other : Bool) (w : Wave) (vcount scount : Nat) : Bool :=
  let n := u.code.toNat
  let odd := (u.regs == 2 && n % 2 == 1) || (u.regs == 4 && n % 4 != 0)
  if u.dst && 96 ≤ n then true
  else if 123 ≤ n && n ≤ 126 then true
  else if n = 127 then bar || other
  else if n < 96 then
    odd || (if scalar then scount < w.sb + n + u.regs else vcount < w.vb + n + u.regs)
  else if n < 112 && !scalar then odd || scount < w.sb + (n - 96) + u.regs
  else false

/-- The first illegal operand, in the order D, A, B (R138). -/
def State.illegalUse (s : State) (i : Instr) (us : List OpUse) : Option OpUse :=
  let lits := (us.filter fun u => u.code == 127).length
  us.find? fun u => u.illegal (scalarOf i) (noLiteral i) (1 < lits) s.pre s.tm.vcount s.tm.scount ||
    (match i with
     | .rdln _ => u.field == 1 && 112 ≤ u.code.toNat && u.code.toNat < 120   -- R430
     | _ => false)

/-- Raise ILLEGAL_OPERAND for an operand (R138). -/
def State.badOperand (s : State) (u : OpUse) : State :=
  s.fault s.mask 2 (BitVec.ofNat 32 (u.field * 256 + u.code.toNat)) 0

/-- The source lane of a shuffle (R446): 0 SHFL, 1 SHFLX, 2 SHFLU, 3 SHFLD; the lane itself where there is none in the group
(R447). -/
def shuffleSource (k : Nat) (m : BitVec 32) (l b : Nat) : Nat :=
  let src : Option Nat := match k with
    | 0 => some (b % 32)
    | 1 => some (l ^^^ (b % 32))
    | 2 => if b ≤ l then some (l - b) else none
    | _ => if l + b ≤ 31 then some (l + b) else none
  match src with
  | some x => if m.getLsbD x then x else l
  | none => l

/-- The lanes that a shuffle takes values from. -/
def shuffleLanes (k : Nat) (w : Wave) (m : BitVec 32) (o : Ops) : BitVec 32 :=
  maskOf ((lanesOf m).map fun l => shuffleSource k m l (laneReader w l o .w .b).toNat)

/-- The lanes whose A an instruction reads: the group's, but for those that read a whole block (R365, R366, R427) and for
the shuffles. -/
def lanesRead (i : Instr) (w : Wave) (m : BitVec 32) : BitVec 32 :=
  match i with
  | .shfl o => shuffleLanes 0 w m o
  | .shflx o => shuffleLanes 1 w m o
  | .shflu o => shuffleLanes 2 w m o
  | .shfld o => shuffleLanes 3 w m o
  | .qnt _ _ => -1
  | .bxenc _ _ => -1
  | .bxdecBx3 _ => 0xF
  | .bxdecBx5 _ => 0x3F
  | .bxdecBx8 _ => 0x1FF
  | _ => m

/-- The first latch code that reads an invalid latch (R79). -/
def State.staleUse (s : State) (i : Instr) (us : List OpUse) : Option OpUse :=
  us.find? fun u =>
    !u.dst && 112 ≤ u.code.toNat && u.code.toNat < 120 &&
      (if scalarOf i then (latchAt s.pre.slatch (u.code.toNat - 112)).isNone
       else (lanesOf (if u.field = 1 then lanesRead i s.pre s.mask else s.mask)).any fun l => (latchAt (s.pre.lane l).latch (u.code.toNat - 112)).isNone)

/-- The lines that operand codes name (R67, R68). A suppressed result names none. -/
def linesUsed (w : Wave) (scalar nw : Bool) (us : List OpUse) : List Nat :=
  us.foldl (fun acc u =>
    let n := u.code.toNat
    if u.dst && nw then acc
    else if n < 96 then
      (List.range u.regs).foldl (fun acc i => addOnce (if scalar then sline (w.sb + n + i) else vline (w.vb + n + i)) acc) acc
    else if n < 112 && !scalar then (List.range u.regs).foldl (fun acc i => addOnce (sline (w.sb + n - 96 + i)) acc) acc
    else acc) []

/-- Bytes of a register line (R67). -/
def lineBytes (line : Nat) : Nat := if line < 64 then 1024 else 128

/-! ## Lines that are filled (R67, R68) -/

/-- Where a line lies in an image: R67 places registers within lines alone; vector lines lie first and scalar lines after them (log
entry 14). -/
def lineOffset (line : Nat) : Nat := if line < 64 then line * 1024 else 65536 + (line - 64) * 128

/-- A line of a wave comes into the register cache from its image (R68). -/
def State.fillLine (s : State) (k line : Nat) : State :=
  let words := (List.range (lineBytes line / 4)).map fun i =>
    BitVec.ofNat 32 (fromBytes (s.l2Read ((s.wave k).rimg.toNat + lineOffset line + 4 * i) 4))
  s.modWave k fun w => { w.putLine line words with absent := w.absent.filter (· != line), used := w.used.put line s.clk }

/-- Lines that a result goes to without an issue of its instruction come in first, where they are absent (R68, R69). -/
def State.fillAbsent (s : State) (k : Nat) (lines : List Nat) : State :=
  lines.foldl (fun s l => if (s.wave k).absent.contains l then s.fillLine k l else s) s

/-! ## Shadow lines (R274) -/

/-- Bytes of register cache that shadow lines and the lines they shadow hold on a core (R274). -/
def State.shadowBytes (s : State) (c : Nat) : Nat :=
  (s.waves.map fun p => if s.coreOf p.1 = c then (p.2.shadow.map fun q => 2 * lineBytes q.1).sum else 0).sum

/-- Whether NW suppresses the write (R76); bit 21 of a load is H. -/
def nwOf (i : Instr) : Bool :=
  match i with
  | .ld _ _ => false
  | .ldt _ _ => false
  | .ldp _ _ => false
  | .lde _ => false
  | _ => match ops i with
         | some o => o.nw
         | none => false

/-- Shadow lines that a wave may hold (R274). -/
def maxShadows : Nat := 24

/-- Copy a line into a shadow line at its first write in a region (R274). -/
def Wave.addShadow (w : Wave) (line : Nat) : Wave := { w with shadow := w.shadow.put line (w.lineWords line) }

/-- Whether an instruction writes what its D names: a store reads it. -/
def writesD (i : Instr) : Bool :=
  match i with
  | .st _ _ => false
  | .stt _ _ => false
  | .stp _ _ => false
  | .stc _ => false
  | .stl _ _ => false
  | _ => true

/-- The lines of the checkpoint that an instruction would be the first to write (R274). -/
def State.newShadows (s : State) (i : Instr) (us : List OpUse) (scalar nw : Bool) : List Nat :=
  if writesD i then
    (linesUsed s.pre scalar nw (us.filter (·.dst))).filter fun l => s.w.covered.contains l && (s.w.shadow.find? l).isNone
  else []

/-- The member lanes of the executing group. -/
def State.members (s : State) : BitVec 32 := s.mask &&& s.w.which fun l => l.member && l.live

/-- Drop lanes from the executing group. -/
def State.without (s : State) (m : BitVec 32) : State := { s with cur := { s.cur with mask := s.cur.mask &&& ~~~ m } }

/-- Bytes of the register cache of a core (R14, R68). -/
def cacheBytes : Nat := 786432

/-- Shadow the destination lines that member lanes are about to write; where no line may be replaced, or the wave holds as many shadow lines
as it may, they abort with OVERFLOW (R274; the 25th line DEDUCED, log entry 12). -/
def State.shadowFor (s : State) (i : Instr) (us : List OpUse) (scalar nw : Bool) : State :=
  let m := s.members
  if m = 0 then s
  else
    let lines := s.newShadows i us scalar nw
    let need := (lines.map fun l => 2 * lineBytes l).sum
    if !lines.isEmpty && (cacheBytes < s.shadowBytes s.coreNo + need || maxShadows < s.w.shadow.length + lines.length) then
      (s.abort s.cur.wave m 4 0 2).without m
    else s.modWave s.cur.wave fun w => lines.foldl Wave.addShadow w

/-- An instruction that passes its checks uses its register lines (R68), and lengthens the run of its wave where it is no switch point
(R78). -/
def State.noteUse (s : State) (i : Instr) (us : List OpUse) : State :=
  let plain := !isSwitch i
  let s := s.modWave s.cur.wave fun w =>
    { w with used := (linesUsed s.pre (scalarOf i) (nwOf i) us).foldl (fun t l => t.put l s.clk) w.used
             run := if plain then w.run + 1 else w.run }
  { s with cur := { s.cur with counted := s.cur.counted || plain } }

/-- An instruction that its checks stop has issued all the same, and counts in the run (R78; log entry 73). -/
def State.countRun (s : State) (i : Instr) : State := s.noteUse i []

/-- Snapshot the wave as the clk's picks read it, where no earlier pick has (R42). -/
def State.snapshot (s : State) : State := { s with cur := { s.cur with pre := some s.pre } }

/-- A stale latch that is read where that does not trap sets LSTALE (R79). -/
def State.noteStale (s : State) (i : Instr) (us : List OpUse) : State :=
  if (s.staleUse i us).isSome then s.modWave s.cur.wave Wave.setStale else s

/-- Members abort at an instruction that their regions forbid, and the group goes on without them (R279). It is a switch point all the same, for each
of these instructions is one by its opcode (R77), also where every lane of the group aborts: R279 gives it no other effect, and does not say whether
the latches stand (DEDUCED; log entry 74). -/
def State.barMembers (s : State) (i : Instr) : State :=
  let m := if isForbidden i then s.members else 0
  if m = 0 then s else ((s.switchPoint s.cur.wave).abort s.cur.wave m 7 0 0).without m

/-- Whether FEATMASK refuses an instruction (R257). -/
def State.featureRefused (s : State) (i : Instr) : Bool :=
  match featureOf i with
  | some b => !(s.ctx s.ctxNo).featmask.getLsbD b
  | none => false

/-- Register lines that an instruction names and that are absent (R68). -/
def State.missingLines (s : State) (i : Instr) (us : List OpUse) : List Nat :=
  (linesUsed s.pre (scalarOf i) (nwOf i) us).filter fun l => s.w.absent.contains l

/-- The switch point that an instruction is (R77). -/
def State.switchFor (s : State) (i : Instr) : State := if isSwitch i then s.switchPoint s.cur.wave else s

/-- FEATMASK and absent lines, then LSTALE for the latches that are read, the switch point, the shadow lines, and what counts as use. -/
def State.checkOps (s : State) (i : Instr) (us : List OpUse) : Except State State :=
  if s.mask = 0 then .error s
  else if s.featureRefused i then .error ((s.countRun i).fault s.mask 5 4 0)
  else if !(s.missingLines i us).isEmpty then .error (s.block s.cur.wave (s.thawed s.mask) (.line (s.missingLines i us)))
  else
    let s := ((s.noteStale i us).switchFor i).shadowFor i us (scalarOf i) (nwOf i)
    if s.mask = 0 then .error (s.countRun i) else .ok (s.noteUse i us)

/-- Steps 3 to 5 of R137 and what comes before an instruction's own effect: privilege, operand codes, stale latches, the ban
inside try regions (R279), FEATMASK (R257), absent register lines (R68), the switch point (R77) and shadow lines (R274).
An error is the whole step's result; ok goes on with the lanes that act. `priv` says that a special register is named that the
group may not reach (R81), `bad` is a special-register number that is not assigned (R128, R138). -/
def State.start (s : State) (i : Instr) (sp : Spans) (priv : Bool) (bad : Option Nat) : Except State State :=
  let us := usesOf i sp
  let s := s.snapshot
  if (isPrivileged i && s.ctxNo != 0) || priv then .error ((s.countRun i).fault s.mask 3 s.cur.w0 0)
  else
    match s.illegalUse i us, bad with
    | some u, _ => .error ((s.countRun i).badOperand u)
    | none, some n => .error ((s.countRun i).fault s.mask 2 (BitVec.ofNat 32 (5 * 256 + n % 256)) (BitVec.ofNat 64 n))
    | none, none =>
      match s.staleUse i us with
      | some u =>
        if wstatLtrap s.pre.wstat then .error ((s.countRun i).fault s.mask 0x0C (BitVec.ofNat 32 u.code.toNat) 0)
        else (s.barMembers i).checkOps i us
      | none => (s.barMembers i).checkOps i us

/-! ## Writing results (R42, R74 to R76) -/

/-- Word j of a result. -/
def wordAt (v j : Nat) : Word := BitVec.ofNat 32 (v / 2 ^ (32 * j))

/-- Write n registers of a lane from a code of the old window. -/
def State.writeLane (s : State) (vb : Nat) (l : Nat) (d : Code) (n v : Nat) : State :=
  if s.cur.frozenLanes.getLsbD l then s
  else s.modWave s.cur.wave fun w => (List.range n).foldl (fun w j =>
    let reg := vb + d.toNat + j
    if s.cur.frozen.contains (l, reg) then w else w.putV l reg (wordAt v j)) w

/-- Write n scalar registers from a code of the old window. -/
def State.writeWave (s : State) (sb : Nat) (d : Code) (n v : Nat) : State :=
  s.modWave s.cur.wave fun w => (List.range n).foldl (fun w j =>
    let reg := sb + d.toNat + j
    if s.cur.frozenLines.contains (sline reg) then w else w.putS reg (wordAt v j)) w

/-- Shift a result into a lane's latches, or into the wave's (R75). -/
def State.shiftLane (s : State) (l : Nat) (v : Nat) : State :=
  if s.cur.frozenLanes.getLsbD l then s
  else
    let s := s.modLane s.cur.wave l fun x => { x with latch := shiftLatch x.latch (BitVec.ofNat 64 v) }
    { s with cur := { s.cur with shifted := s.cur.shifted ||| (1#32 <<< l) } }

def State.shiftWave (s : State) (v : Nat) : State :=
  let s := s.modWave s.cur.wave fun w => { w with slatch := shiftLatch w.slatch (BitVec.ofNat 64 v) }
  { s with cur := { s.cur with shiftedS := true } }

/-- dst_write in a lane (R139): the register unless NW, and the latches unless the instruction is a switch point. -/
def State.dstLane (s : State) (i : Instr) (o : Ops) (l n v : Nat) : State :=
  let s := if nwOf i then s else s.writeLane s.pre.vb l o.d n v
  if isSwitch i then s else s.shiftLane l v

/-- dst_write for the wave. -/
def State.dstWave (s : State) (i : Instr) (o : Ops) (n v : Nat) : State :=
  let s := if nwOf i then s else s.writeWave s.pre.sb o.d n v
  if isSwitch i then s else s.shiftWave v

/-- dst_write of one act: a lane's, or the wave's. -/
def State.dst (s : State) (i : Instr) (o : Ops) (l n v : Nat) : State :=
  if o.s then s.dstWave i o n v else s.dstLane i o l n v

/-! ## Register-to-register instructions -/

/-- The effect of an instruction that computes a result in each lane, `f` of the lane's number (0 for the wave of a scalar
one): all lanes read before any writes (R7), the lanes that raise an enabled flag trap with FLOAT and write nothing (R155),
and the others complete. -/
def State.compute (s : State) (i : Instr) (o : Ops) (n : Nat) (f : Nat → FRes) : State :=
  let en := fcsrEn s.pre.fcsr
  if o.s then
    let r := f 0
    let s := s.raiseFlags s.cur.wave r.flags
    if r.flags &&& en ≠ 0 then s.fault s.mask 0x17 ((r.flags &&& en).zeroExtend 32) 0
    else (s.dstWave i o n r.bits).advance s.mask
  else
    let rs := (lanesOf s.mask).map fun l => (l, f l)
    let s := s.raiseFlags s.cur.wave (rs.foldl (fun a r => a ||| r.2.flags) 0)
    let traps := rs.filter fun r => r.2.flags &&& en != 0
    let goes := rs.filter fun r => r.2.flags &&& en == 0
    let s := goes.foldl (fun s r => s.dstLane i o r.1 n r.2.bits) s
    let s := s.advance (maskOf (goes.map (·.1)))
    if traps.isEmpty then s
    else s.raise s.cur.wave s.cur.mask s.cur.pc
      (traps.map fun r => { lane := r.1, cause := 0x17, info := (r.2.flags &&& en).zeroExtend 32, addr := 0 })

/-- The checks, then the effect. -/
def State.run (s : State) (i : Instr) (sp : Spans) (f : State → State) : State :=
  match s.start i sp false none with
  | .error s => s
  | .ok s => f s

/-- What a meaning answers. -/
abbrev Answer := Host.Outcome State Fault Refusal

/-- A register-to-register instruction of one lane's operands; `sp.d` is the number of registers of its result. -/
def alu (i : Instr) (o : Ops) (sp : Spans) (f : Reader → FRes) (s : State) : Answer :=
  .next (s.run i sp fun s => s.compute i o sp.d fun l => f (reader s.pre o l))

/-- A lane-crossing instruction: `f` of the wave, the executing lanes and the lane's number. -/
def cross (i : Instr) (o : Ops) (sp : Spans) (f : Wave → BitVec 32 → Nat → FRes) (s : State) : Answer :=
  .next (s.run i sp fun s => s.compute i o sp.d fun l => f s.pre s.mask l)

end Sys2Proof.Machine
end

