-- ==== Sys2Proof/Machine/Arith.lean ====
section
/-! DEFINITION. Class 0, integer arithmetic (R121, R147, R348, R371, R384, R409, R412, R413, R437, R455). Results are
exact integers, kept modulo the width of the type. -/
namespace Sys2Proof.Machine

/-- How the operands of a type T are read: 0 s32, 1 n32, 2 s64, 3 n64 (R121, R74). -/
def tyOf (t : BitVec 2) : Ty := match t.toNat with | 0 => .w | 1 => .w | 2 => .s | _ => .n

/-- The type code of T (R118). -/
def typeOf (t : BitVec 2) : Nat := 4 + t.toNat

/-- An integer instruction: `f` of the exact values of A, B and D's old value, and of the width. -/
def arith (i : Instr) (t : BitVec 2) (o : Ops) (f : Int → Int → Int → Nat → Int) (s : State) : Answer :=
  let ty := tyOf t
  let v := fun (rd : Reader) (fld : Fld) => intOf (typeOf t) (rd ty fld).toNat
  let n := intWidth (typeOf t)
  alu i o { d := ty.regs, a := ty.regs, b := ty.regs } (fun rd => ⟨wrapInt n (f (v rd .a) (v rd .b) (v rd .d) n), 0⟩) s

/-- ADD (R348). -/
def execAdd (t : BitVec 2) (o : Ops) (s : State) : Answer :=
  arith (.add t o) t o (fun x y _ _ => x + y) s

/-- SUB (R455). -/
def execSub (t : BitVec 2) (o : Ops) (s : State) : Answer :=
  arith (.sub t o) t o (fun x y _ _ => x - y) s

/-- ADDX (R348). -/
def execAddx (t : BitVec 2) (o : Ops) (s : State) : Answer :=
  arith (.addx t o) t o (fun x y _ n => (x + y) / 2 ^ n) s

/-- SUBX (R455). -/
def execSubx (t : BitVec 2) (o : Ops) (s : State) : Answer :=
  arith (.subx t o) t o (fun x y _ n => (x - y) / 2 ^ n) s

/-- ADDS (R348). -/
def execAdds (t : BitVec 2) (o : Ops) (s : State) : Answer :=
  arith (.adds t o) t o (fun x y _ _ => satInt (typeOf t) (x + y)) s

/-- SUBS (R455). -/
def execSubs (t : BitVec 2) (o : Ops) (s : State) : Answer :=
  arith (.subs t o) t o (fun x y _ _ => satInt (typeOf t) (x - y)) s

/-- MUL (R412). -/
def execMul (t : BitVec 2) (o : Ops) (s : State) : Answer :=
  arith (.mul t o) t o (fun x y _ _ => x * y) s

/-- MULH (R412). -/
def execMulh (t : BitVec 2) (o : Ops) (s : State) : Answer :=
  arith (.mulh t o) t o (fun x y _ n => x * y / 2 ^ n) s

/-- MAD (R412). -/
def execMad (t : BitVec 2) (o : Ops) (s : State) : Answer :=
  arith (.mad t o) t o (fun x y z _ => x * y + z) s

/-- DIV (R384, R147). -/
def execDiv (t : BitVec 2) (o : Ops) (s : State) : Answer :=
  arith (.div t o) t o (fun x y _ _ => if y = 0 then -1 else x.tdiv y) s

/-- REM (R437, R147). -/
def execRem (t : BitVec 2) (o : Ops) (s : State) : Answer :=
  arith (.rem t o) t o (fun x y _ _ => if y = 0 then x else x.tmod y) s

/-- MIN (R413). -/
def execMin (t : BitVec 2) (o : Ops) (s : State) : Answer :=
  arith (.min t o) t o (fun x y _ _ => min x y) s

/-- MAX (R413). -/
def execMax (t : BitVec 2) (o : Ops) (s : State) : Answer :=
  arith (.max t o) t o (fun x y _ _ => max x y) s

/-- CLAMP (R371). -/
def execClamp (t : BitVec 2) (o : Ops) (s : State) : Answer :=
  arith (.clamp t o) t o (fun x y z _ => min (max z x) y) s

/-- ABSD (R348). -/
def execAbsd (t : BitVec 2) (o : Ops) (s : State) : Answer :=
  arith (.absd t o) t o (fun x y _ _ => (x - y).natAbs) s

/-- LEA (R409): a + b * 2^T, modulo 2^64. -/
def execLea (t : BitVec 2) (o : Ops) (s : State) : Answer :=
  alu (.lea t o) o { d := 2, a := 2, b := 1 }
    (fun rd => ⟨wrapInt 64 ((rd .n .a).toNat + intOf 4 (rd .w .b).toNat * 2 ^ t.toNat), 0⟩) s

end Sys2Proof.Machine
end

