-- ==== Sys2Proof/Machine/Bits.lean ====
section
/-! DEFINITION. Class 1, bits, compare and select (R122, R250, R351, R360, R363, R372, R373, R410, R414, R419, R422, R425,
R440, R443, R445, R462, R476). Values are naturals below 2^N. -/
namespace Sys2Proof.Machine

/-- The width of a .b32 or .b64 form, how its operands are read, and the registers of one. -/
def bitsN (w : Bool) : Nat := if w then 64 else 32
def tyB (w : Bool) : Ty := if w then .n else .w

/-- All ones for true (R250). -/
def truth (c : Bool) : Nat := if c then 0xFFFFFFFF else 0

/-- An instruction of two N-bit operands and D's old value, with an N-bit result. -/
def bits (i : Instr) (w : Bool) (o : Ops) (f : Nat → Nat → Nat → Nat) (s : State) : Answer :=
  let ty := tyB w
  alu i o { d := ty.regs, a := ty.regs, b := ty.regs }
    (fun rd => ⟨f (rd ty .a).toNat (rd ty .b).toNat (rd ty .d).toNat % 2 ^ bitsN w, 0⟩) s

/-- An instruction whose B is a 32-bit operand in both widths. -/
def bitsB32 (i : Instr) (w : Bool) (o : Ops) (f : Nat → Nat → Nat) (s : State) : Answer :=
  let ty := tyB w
  alu i o { d := ty.regs, a := ty.regs, b := 1 } (fun rd => ⟨f (rd ty .a).toNat (rd .w .b).toNat % 2 ^ bitsN w, 0⟩) s

/-- An instruction of one N-bit operand that writes one register. -/
def count (i : Instr) (w : Bool) (o : Ops) (f : Nat → Nat) (s : State) : Answer :=
  alu i o { d := 1, a := (tyB w).regs, b := 1 } (fun rd => ⟨f (rd (tyB w) .a).toNat, 0⟩) s

/-- A comparison of two operands, read as `ty` says in the .b64 form, that writes one register (R373). -/
def compare32 (i : Instr) (w : Bool) (o : Ops) (ty : Ty) (f : Nat → Nat → Bool) (s : State) : Answer :=
  let ty := if w then ty else .w
  alu i o { d := 1, a := ty.regs, b := ty.regs } (fun rd => ⟨truth (f (rd ty .a).toNat (rd ty .b).toNat), 0⟩) s

/-- An N-bit pattern read as signed. -/
def signedN (w : Bool) (x : Nat) : Int := intOf (if w then 6 else 4) x

/-- Bitwise complement in N bits. -/
def compl (w : Bool) (x : Nat) : Nat := 2 ^ bitsN w - 1 - x

/-- Reverse the low n bits. -/
def reverseBits (x : Nat) : Nat → Nat
  | 0 => 0
  | n + 1 => 2 * reverseBits x n + x / 2 ^ n % 2

/-- Number of one bits among the low n. -/
def ones (x : Nat) : Nat → Nat
  | 0 => 0
  | n + 1 => ones x n + x / 2 ^ n % 2

/-- Position of the lowest one bit below n, else n. -/
def trailing (x n : Nat) : Nat := ((List.range n).find? fun i => x.testBit i).getD n

/-- The field of BFX and its kin: position and length from B (R360). -/
def fieldOf (n b : Nat) : Nat × Nat := (min (b % 256) n, min (b / 256 % 256) n)

/-- One byte of PRMB (R425). -/
def prmbByte (w : Bool) (a sel i : Nat) : Nat :=
  let nib := sel / 16 ^ i % 16
  let byte := a / 256 ^ (if w then nib % 8 else nib % 4) % 256
  match if w then nib / 8 else nib / 4 with
  | 0 => byte
  | 1 => if 128 ≤ byte then 255 else 0
  | 2 => 0
  | _ => 255

/-- AND (R351). -/
def execAndB (w : Bool) (o : Ops) (s : State) : Answer :=
  bits (.andB w o) w o (fun a b _ => a &&& b) s

/-- OR (R419). -/
def execOrB (w : Bool) (o : Ops) (s : State) : Answer :=
  bits (.orB w o) w o (fun a b _ => a ||| b) s

/-- XOR (R476). -/
def execXorB (w : Bool) (o : Ops) (s : State) : Answer :=
  bits (.xorB w o) w o (fun a b _ => a ^^^ b) s

/-- ANDN (R351). -/
def execAndn (w : Bool) (o : Ops) (s : State) : Answer :=
  bits (.andn w o) w o (fun a b _ => a &&& compl w b) s

/-- NOT (R419). -/
def execNotB (w : Bool) (o : Ops) (s : State) : Answer :=
  bits (.notB w o) w o (fun a _ _ => compl w a) s

/-- LUT3 (R410). -/
def execLut3 (w : Bool) (o : Ops) (s : State) : Answer :=
  bits (.lut3 w o) w o (fun a b d => (List.range (bitsN w)).foldl (fun r i =>
    r + (o.lit.toNat / 2 ^ (4 * (d / 2 ^ i % 2) + 2 * (a / 2 ^ i % 2) + b / 2 ^ i % 2) % 2) * 2 ^ i) 0) s

/-- SHL (R443). -/
def execShl (w : Bool) (o : Ops) (s : State) : Answer :=
  bitsB32 (.shl w o) w o (fun a c => if c < bitsN w then a * 2 ^ c else 0) s

/-- SHR (R443). -/
def execShr (w : Bool) (o : Ops) (s : State) : Answer :=
  bitsB32 (.shr w o) w o (fun a c => if c < bitsN w then a / 2 ^ c else 0) s

/-- SAR (R443). -/
def execSar (w : Bool) (o : Ops) (s : State) : Answer :=
  bitsB32 (.sar w o) w o (fun a c => wrapInt (bitsN w) (signedN w a / 2 ^ (min c (bitsN w)))) s

/-- ROL (R440). -/
def execRol (w : Bool) (o : Ops) (s : State) : Answer :=
  bitsB32 (.rol w o) w o (fun a b => let c := b % bitsN w; a * 2 ^ c + a / 2 ^ (bitsN w - c)) s

/-- BFX (R360). -/
def execBfx (w : Bool) (o : Ops) (s : State) : Answer :=
  bitsB32 (.bfx w o) w o (fun a b => let (p, n) := fieldOf (bitsN w) b; a / 2 ^ p % 2 ^ n) s

/-- BFXS (R360). -/
def execBfxs (w : Bool) (o : Ops) (s : State) : Answer :=
  bitsB32 (.bfxs w o) w o (fun a b =>
    let (p, n) := fieldOf (bitsN w) b
    let f := a / 2 ^ p % 2 ^ n
    if 0 < n ∧ 2 ^ (n - 1) ≤ f then wrapInt (bitsN w) ((f : Int) - 2 ^ n) else f) s

/-- BFI (R360). -/
def execBfi (w : Bool) (o : Ops) (s : State) : Answer :=
  bitsB32 (.bfi w o) w o (fun a b => let (p, n) := fieldOf (bitsN w) b; a % 2 ^ n * 2 ^ p) s

/-- POPC (R422). -/
def execPopc (w : Bool) (o : Ops) (s : State) : Answer :=
  count (.popc w o) w o (fun a => ones a (bitsN w)) s

/-- CLZ (R372). -/
def execClz (w : Bool) (o : Ops) (s : State) : Answer :=
  count (.clz w o) w o (fun a => bitsN w - bitLen a) s

/-- CTZ (R372). -/
def execCtz (w : Bool) (o : Ops) (s : State) : Answer :=
  count (.ctz w o) w o (fun a => trailing a (bitsN w)) s

/-- BREV (R363). -/
def execBrev (w : Bool) (o : Ops) (s : State) : Answer :=
  bits (.brev w o) w o (fun a _ _ => reverseBits a (bitsN w)) s

/-- PRMB (R425). -/
def execPrmb (w : Bool) (o : Ops) (s : State) : Answer :=
  bitsB32 (.prmb w o) w o (fun a b =>
    (List.range (bitsN w / 8)).foldl (fun r i => r + prmbByte w a b i * 256 ^ i) 0) s

/-- SEL (R445). -/
def execSel (w : Bool) (o : Ops) (s : State) : Answer :=
  bits (.sel w o) w o (fun a b d => (a &&& d) ||| (b &&& compl w d)) s

/-- MOV (R414). -/
def execMov (w : Bool) (o : Ops) (s : State) : Answer :=
  bits (.mov w o) w o (fun a _ _ => a) s

/-- CMP_EQ (R373). -/
def execCmpEq (w : Bool) (o : Ops) (s : State) : Answer :=
  compare32 (.cmpEq w o) w o .s (fun a b => a == b) s

/-- CMP_NE (R373). -/
def execCmpNe (w : Bool) (o : Ops) (s : State) : Answer :=
  compare32 (.cmpNe w o) w o .s (fun a b => a != b) s

/-- CMP_LT (R373). -/
def execCmpLt (w : Bool) (o : Ops) (s : State) : Answer :=
  compare32 (.cmpLt w o) w o .s (fun a b => signedN w a < signedN w b) s

/-- CMP_LE (R373). -/
def execCmpLe (w : Bool) (o : Ops) (s : State) : Answer :=
  compare32 (.cmpLe w o) w o .s (fun a b => signedN w a ≤ signedN w b) s

/-- CMP_LTN (R373). -/
def execCmpLtn (w : Bool) (o : Ops) (s : State) : Answer :=
  compare32 (.cmpLtn w o) w o .n (fun a b => a < b) s

/-- CMP_LEN (R373). -/
def execCmpLen (w : Bool) (o : Ops) (s : State) : Answer :=
  compare32 (.cmpLen w o) w o .n (fun a b => a ≤ b) s

/-- TEST_Z (R462). -/
def execTestZ (w : Bool) (o : Ops) (s : State) : Answer :=
  compare32 (.testZ w o) w o .n (fun a b => a &&& b == 0) s

/-- TEST_NZ (R462). -/
def execTestNz (w : Bool) (o : Ops) (s : State) : Answer :=
  compare32 (.testNz w o) w o .n (fun a b => a &&& b != 0) s

end Sys2Proof.Machine
end

