-- ==== Sys2Proof/Machine/Float.lean ====
section
/-! DEFINITION. Class 2, floating point (R123, R392 to R395). -/
namespace Sys2Proof.Machine

/-- The format of F: 0 f32, 1 f64, 2 f16 pair, 3 bf16 pair (R123). -/
def fmtOf (f : BitVec 2) : Fmt := match f.toNat with | 0 => Fmt.f32 | 1 => Fmt.f64 | 2 => Fmt.f16 | _ => Fmt.bf16

/-- How an operand of F is read. -/
def tyF (f : BitVec 2) : Ty := if f = 1 then .f else .w

/-- Apply an operation to a scalar format, or to both elements of a packed pair (R118, R392). -/
def perElement (packed : Bool) (op : Nat → Nat → Nat → FRes) (a b d : Nat) : FRes :=
  if packed then
    let lo := op (a % 65536) (b % 65536) (d % 65536)
    let hi := op (a / 65536) (b / 65536) (d / 65536)
    ⟨lo.bits + hi.bits * 65536, lo.flags ||| hi.flags⟩
  else op a b d

/-- An instruction of class 2: `op` of the rounding context, the format and the operands A, B, D. -/
def float (i : Instr) (f : BitVec 2) (o : Ops) (op : FEnv → Fmt → Nat → Nat → Nat → FRes) (s : State) : Answer :=
  let ty := tyF f
  let env := arithEnv s.pre.fcsr
  alu i o { d := ty.regs, a := ty.regs, b := ty.regs }
    (fun rd => perElement (2 ≤ f.toNat) (op env (fmtOf f)) (rd ty .a).toNat (rd ty .b).toNat (rd ty .d).toNat) s

/-- FADD (R392). -/
def execFadd (f : BitVec 2) (o : Ops) (s : State) : Answer :=
  float (.fadd f o) f o (fun v m a b _ => fAdd v m a b) s

/-- FSUB (R392). -/
def execFsub (f : BitVec 2) (o : Ops) (s : State) : Answer :=
  float (.fsub f o) f o (fun v m a b _ => fSub v m a b) s

/-- FMUL (R392). -/
def execFmul (f : BitVec 2) (o : Ops) (s : State) : Answer :=
  float (.fmul f o) f o (fun v m a b _ => fMul v m a b) s

/-- FMA (R392). -/
def execFma (f : BitVec 2) (o : Ops) (s : State) : Answer :=
  float (.fma f o) f o (fun v m a b d => fFma v m a b d) s

/-- FMIN (R393). -/
def execFmin (f : BitVec 2) (o : Ops) (s : State) : Answer :=
  float (.fmin f o) f o (fun v m a b _ => fMinMax false v m a b) s

/-- FMAX (R393). -/
def execFmax (f : BitVec 2) (o : Ops) (s : State) : Answer :=
  float (.fmax f o) f o (fun v m a b _ => fMinMax true v m a b) s

/-- FDIV (R392). -/
def execFdiv (f : BitVec 2) (o : Ops) (s : State) : Answer :=
  float (.fdiv f o) f o (fun v m a b _ => fDiv v m a b) s

/-- FSQRT (R392). -/
def execFsqrt (f : BitVec 2) (o : Ops) (s : State) : Answer :=
  float (.fsqrt f o) f o (fun v m a _ _ => fSqrt v m a) s

/-- FRCP (R395). -/
def execFrcp (f : BitVec 2) (o : Ops) (s : State) : Answer :=
  float (.frcp f o) f o (fun v m a _ _ => fRcp v m a) s

/-- FRSQ (R395). -/
def execFrsq (f : BitVec 2) (o : Ops) (s : State) : Answer :=
  float (.frsq f o) f o (fun v m a _ _ => fRsq v m a) s

/-- FEXP2 (R395). -/
def execFexp2 (f : BitVec 2) (o : Ops) (s : State) : Answer :=
  float (.fexp2 f o) f o (fun v m a _ _ => fExp2 v m a) s

/-- FLOG2 (R395). -/
def execFlog2 (f : BitVec 2) (o : Ops) (s : State) : Answer :=
  float (.flog2 f o) f o (fun v m a _ _ => fLog2 v m a) s

/-- FCMP (R394): c is 0 .eq, 1 .lt, 2 .le, 3 .un. One register; all ones for true, per half in a packed pair. -/
def execFcmp (c f : BitVec 2) (o : Ops) (s : State) : Answer :=
  let ty := tyF f
  let env := arithEnv s.pre.fcsr
  let packed := decide (2 ≤ f.toNat)
  let op := fun (a b _ : Nat) =>
    let r := fCmp c.toNat env (fmtOf f) a b
    (⟨if r.1 then (if packed then 0xFFFF else 0xFFFFFFFF) else 0, r.2⟩ : FRes)
  alu (.fcmp c f o) o { d := 1, a := ty.regs, b := ty.regs }
    (fun rd => perElement packed op (rd ty .a).toNat (rd ty .b).toNat 0) s

end Sys2Proof.Machine
end

