-- ==== Sys2Proof/Machine/Lanes.lean ====
section
/-! DEFINITION. The lane-crossing instructions of class 4 (R125, R167, R250, R326, R349, R430, R435, R436, R444, R446,
R447, R473, R474). -/
namespace Sys2Proof.Machine

/-- A lane-crossing instruction of 32-bit operands: `f` of A in any lane, B in any lane, the group, and the lane. -/
def cross32 (i : Instr) (o : Ops) (f : (Nat → Nat) → (Nat → Nat) → BitVec 32 → Nat → Nat) (s : State) : Answer :=
  cross i o { d := 1, a := 1, b := 1 } (fun w m l =>
    ⟨f (fun x => (laneReader w x o .w .a).toNat) (fun x => (laneReader w x o .w .b).toNat) m l, 0⟩) s

/-- The mask of the group's lanes that a property holds for, as a number. -/
def maskWhere (m : BitVec 32) (p : Nat → Bool) : Nat := (maskOf ((lanesOf m).filter p)).toNat

/-- BALLOT (R250). -/
def execBallot (o : Ops) (s : State) : Answer := cross32 (.ballot o) o (fun a _ m _ => maskWhere m fun x => a x != 0) s

/-- VANY (R473). -/
def execVany (o : Ops) (s : State) : Answer := cross32 (.vany o) o (fun a _ m _ => truth ((lanesOf m).any fun x => a x != 0)) s

/-- VALL (R473). -/
def execVall (o : Ops) (s : State) : Answer := cross32 (.vall o) o (fun a _ m _ => truth ((lanesOf m).all fun x => a x != 0)) s

/-- RANKL (R250): one bits of A below the lane's own position. -/
def execRankl (o : Ops) (s : State) : Answer := cross32 (.rankl o) o (fun a _ _ l => ones (a l) l) s

/-- ELECT (R326): all ones in the lowest lane of the group. -/
def execElect (o : Ops) (s : State) : Answer := cross32 (.elect o) o (fun _ _ m l => truth (l == lowest m)) s

/-- RDLN (R430): A as the lane that B names would read it, in the group or not. -/
def execRdln (o : Ops) (s : State) : Answer := cross32 (.rdln o) o (fun a b _ l => a (b l % 32)) s

/-- ACTM (R349): the lanes of the group whose A equals this lane's. -/
def execActm (o : Ops) (s : State) : Answer := cross32 (.actm o) o (fun a _ m l => maskWhere m fun x => a x == a l) s

/-- SHFL (R446, R447). -/
def execShfl (o : Ops) (s : State) : Answer := cross32 (.shfl o) o (fun a b m l => a (shuffleSource 0 m l (b l))) s

/-- SHFLX (R446, R447). -/
def execShflx (o : Ops) (s : State) : Answer := cross32 (.shflx o) o (fun a b m l => a (shuffleSource 1 m l (b l))) s

/-- SHFLU (R446, R447). -/
def execShflu (o : Ops) (s : State) : Answer := cross32 (.shflu o) o (fun a b m l => a (shuffleSource 2 m l (b l))) s

/-- SHFLD (R446, R447). -/
def execShfld (o : Ops) (s : State) : Answer := cross32 (.shfld o) o (fun a b m l => a (shuffleSource 3 m l (b l))) s

/-- WRLN (R474): each lane's A into register D of the lane that B names; the highest lane's value remains, against the clk's
other pick too. Nothing enters a latch. -/
def execWrln (o : Ops) (s : State) : Answer :=
  .next (s.run (.wrln o) { d := 1, a := 1, b := 1 } fun s =>
    let w := s.pre
    let puts := (lanesOf s.mask).map fun l => ((laneReader w l o .w .b).toNat % 32, (laneReader w l o .w .a).toNat)
    let s := puts.foldl (fun s p => s.writeLane w.vb p.1 o.d 1 p.2) s
    let s := { s with cur := { s.cur with frozen := s.cur.frozen ++ puts.map fun (p : Nat × Nat) => (p.1, w.vb + o.d.toNat) } }
    s.advance s.mask)

/-! ## Reductions and scans -/

/-- The type of a reduction, B[3:0] (R435): how A is read, and whether its elements are a packed pair of floats. -/
def redType (o : Ops) : Nat := (o.b.extractLsb' 0 4).toNat
def redTy (o : Ops) : Ty := if redType o = 6 then .s else if redType o = 7 then .n else .w

/-- A reduction of the group: `int` of the integer values, `flt` of the codes of a float format, per element. -/
def reduce (i : Instr) (o : Ops) (int : List (Nat × Int) → BitVec 32 → Nat → Int)
    (flt : FEnv → Fmt → (Nat → Nat) → BitVec 32 → Nat → FRes) (s : State) : Answer :=
  let t := redType o
  let ty := redTy o
  let env : FEnv := { mode := 0, ftz := fcsrFtz s.pre.fcsr }
  cross i o { d := ty.regs, a := ty.regs, b := 1 } (fun w m l =>
    let a := fun x => (laneReader w x o ty .a).toNat
    if t < 8 then ⟨wrapInt (intWidth t) (int ((lanesOf m).map fun x => (x, intOf t (a x))) m l), 0⟩
    else if t = 10 then flt env Fmt.f32 a m l
    else
      let f := fmtOfType t
      let lo := flt env f (fun x => a x % 65536) m l
      let hi := flt env f (fun x => a x / 65536) m l
      ⟨lo.bits + hi.bits * 65536, lo.flags ||| hi.flags⟩) s

/-- The 32 leaves of the tree: a lane outside the group contributes -0 (R167). -/
def leaves (f : Fmt) (a : Nat → Nat) (m : BitVec 32) : List Nat :=
  (List.range 32).map fun x => if m.getLsbD x then a x else signBit f true

/-- REDA (R435, R436). -/
def execReda (o : Ops) (s : State) : Answer :=
  reduce (.reda o) o (fun xs _ _ => (xs.map (·.2)).sum) (fun v f a m _ => treeSum v f 5 (leaves f a m)) s

/-- The least or greatest of a list, in an order that `better` gives. -/
def extremum (isMax : Bool) (xs : List Int) : Int :=
  match xs with
  | [] => 0
  | x :: xs => xs.foldl (if isMax then max else min) x

/-- REDM (R435, R436). A float extremum of one lane compares that lane with itself (log entry 16). -/
def execRedm (o : Ops) (s : State) : Answer :=
  let isMax := o.b.getLsbD 4
  reduce (.redm o) o (fun xs _ _ => extremum isMax (xs.map (·.2)))
    (fun v f a m _ =>
      let first := fMinMax isMax v f (a (lowest m)) (a (lowest m))
      (lanesOf m).foldl (fun acc x => let r := fMinMax isMax v f acc.bits (a x); ⟨r.bits, acc.flags ||| r.flags⟩) first) s

/-- SCANA (R444): the inclusive prefix; the flags of every node raise for the whole group. -/
def execScana (o : Ops) (s : State) : Answer :=
  reduce (.scana o) o (fun xs _ l => ((xs.filter fun p => p.1 ≤ l).map (·.2)).sum)
    (fun v f a m l =>
      let scan := fun x => scanLane v f (leaves f a m) x
      ⟨(scan l).bits, (lanesOf m).foldl (fun acc x => acc ||| (scan x).flags) 0⟩) s

end Sys2Proof.Machine
end

