-- ==== Sys2Proof/Machine/Narrow.lean ====
section
/-! DEFINITION. Class 3, conversion, narrow formats, dot products and quantisation (R124, R365, R366, R381, R382, R385 to
R387, R396, R397, R420, R427, R472). -/
namespace Sys2Proof.Machine

/-- How an operand of a type code is read (R118, R74). -/
def tyOfType (t : Nat) : Ty := match t with | 6 => .s | 7 => .n | 11 => .f | _ => .w

/-- The rounding that a conversion's field selects (R381, R397): 0 FCSR.RM, 1 RNE, 2 RTZ, 3 RUP. -/
def roundField (f : Word) (r : Nat) : Nat := match r with | 0 => fcsrRm f | 1 => 0 | 2 => 1 | _ => 3

/-- CVT (R381, R382). -/
def execCvt (src : BitVec 4) (o : Ops) (s : State) : Answer :=
  let dst := (o.b.extractLsb' 3 4).toNat
  let mode := roundField s.pre.fcsr (o.b.extractLsb' 0 2).toNat
  let ftz := fcsrFtz s.pre.fcsr
  let ty := tyOfType src.toNat
  alu (.cvt src o) o { d := (tyOfType dst).regs, a := ty.regs, b := 1 }
    (fun rd => convert src.toNat dst (o.b.getLsbD 2) mode ftz (rd ty .a).toNat) s

/-- FRND (R397). -/
def execFrnd (o : Ops) (s : State) : Answer :=
  let t := (o.b.extractLsb' 3 4).toNat
  let mode := roundField s.pre.fcsr (o.b.extractLsb' 0 2).toNat
  let ftz := fcsrFtz s.pre.fcsr
  let ty := tyOfType t
  alu (.frnd o) o { d := ty.regs, a := ty.regs, b := 1 }
    (fun rd => perElement (t == 8 || t == 9) (fun a _ _ => fRnd (fmtOfType t) mode ftz a) (rd ty .a).toNat 0 0) s

/-- FCLASS (R396): one mask, or one per element of a packed pair. -/
def execFclass (o : Ops) (s : State) : Answer :=
  let t := (o.b.extractLsb' 3 4).toNat
  let ty := tyOfType t
  alu (.fclass o) o { d := 1, a := ty.regs, b := 1 }
    (fun rd => perElement (t == 8 || t == 9) (fun a _ _ => ⟨fClass (fmtOfType t) a, 0⟩) (rd ty .a).toNat 0 0) s

/-- PACK (R420). -/
def execPack (o : Ops) (s : State) : Answer :=
  alu (.pack o) o { d := 1, a := 1, b := 1 }
    (fun rd => ⟨(rd .w .b).toNat % 65536 * 65536 + (rd .w .a).toNat % 65536, 0⟩) s

/-- UNPK (R472): element B[0], sign-extended where B[1] is 1. -/
def execUnpk (o : Ops) (s : State) : Answer :=
  alu (.unpk o) o { d := 1, a := 1, b := 1 } (fun rd =>
    let e := (rd .w .a).toNat / 65536 ^ (o.b.extractLsb' 0 1).toNat % 65536
    ⟨if o.b.getLsbD 1 then wrapInt 32 (intOf 2 e) else e, 0⟩) s

/-- A dot product of three one-register operands (R385): `f` of A, B and D's old value. -/
def dot (i : Instr) (o : Ops) (f : Nat → Nat → Nat → FRes) (s : State) : Answer :=
  alu i o { d := 1, a := 1, b := 1 } (fun rd => f (rd .w .a).toNat (rd .w .b).toNat (rd .w .d).toNat) s

/-- DOT4 (R385, R386): 0 s8, 1 n8, 2 e4m3, 3 e5m2. -/
def execDot4 (k : BitVec 2) (o : Ops) (s : State) : Answer :=
  let ftz := fcsrFtz s.pre.fcsr
  dot (.dot4 k o) o (fun a b d =>
    match k.toNat with
    | 0 => ⟨dotInt 0 a b d, 0⟩
    | 1 => ⟨dotInt 1 a b d, 0⟩
    | 2 => dotFloat Fmt.e4m3 8 4 ftz a b d
    | _ => dotFloat Fmt.e5m2 8 4 ftz a b d) s

/-- DOT2 (R385, R386): bf16, or f16. -/
def execDot2 (k : Bool) (o : Ops) (s : State) : Answer :=
  let ftz := fcsrFtz s.pre.fcsr
  dot (.dot2 k o) o (fun a b d => dotFloat (if k then Fmt.f16 else Fmt.bf16) 16 2 ftz a b d) s

/-- DOT8.e2m1 (R385, R386). -/
def execDot8 (o : Ops) (s : State) : Answer :=
  let ftz := fcsrFtz s.pre.fcsr
  dot (.dot8 o) o (fun a b d => dotFloat Fmt.e2m1 4 8 ftz a b d) s

/-- A of every lane of the wave as an exact f32 (R365, R427). -/
def blockOf (w : Wave) (o : Ops) : List XV :=
  (List.range 32).map fun l => decodeF Fmt.f32 (laneReader w l o .w .a).toNat

/-- QNT (R427). -/
def execQnt (k : BitVec 2) (o : Ops) (s : State) : Answer :=
  cross (.qnt k o) o { d := 1, a := 1, b := 1 } (fun w _ l =>
    let q := quantise k.toNat (blockOf w o)
    ⟨q.2.getD l 0 + q.1 * 256, 0⟩) s

/-- DQNT (R387). -/
def execDqnt (k : BitVec 2) (o : Ops) (s : State) : Answer :=
  alu (.dqnt k o) o { d := 1, a := 1, b := 1 }
    (fun rd => ⟨dequantise k.toNat (rd .w .a).toNat ((rd .w .b).toNat % 256), 0⟩) s

/-- BXENC (R365): word L of the block in lane L. -/
def execBxenc (k : BitVec 2) (o : Ops) (s : State) : Answer :=
  cross (.bxenc k o) o { d := 1, a := 1, b := 1 }
    (fun w _ l => ⟨bxEncode k.toNat (blockOf w o) / 2 ^ (32 * l) % 2 ^ 32, 0⟩) s

/-- BXDEC (R366): element L of the block that the first kw lanes carry. -/
def bxdec (fmt kw : Nat) (i : Instr) (o : Ops) (s : State) : Answer :=
  cross i o { d := 1, a := 1, b := 1 } (fun w _ l =>
    let block := (List.range kw).foldl (fun acc j => acc + (laneReader w j o .w .a).toNat * 2 ^ (32 * j)) 0
    ⟨(roundXV Fmt.f32 0 false false (bxDecode fmt block l)).bits, 0⟩) s

/-- BXDEC.bx3 (R366). -/
def execBxdecBx3 (o : Ops) (s : State) : Answer := bxdec 0 4 (.bxdecBx3 o) o s

/-- BXDEC.bx5 (R366). -/
def execBxdecBx5 (o : Ops) (s : State) : Answer := bxdec 1 6 (.bxdecBx5 o) o s

/-- BXDEC.bx8 (R366). -/
def execBxdecBx8 (o : Ops) (s : State) : Answer := bxdec 2 9 (.bxdecBx8 o) o s

end Sys2Proof.Machine
end

