-- ==== Sys2Proof/WellFormed.lean ====
section
/-! DEFINITION. Well-formed instructions: those whose words step 2 of R137 accepts, and steps of the part
whose arguments name things the part has (R13, R26, R34, R59, R174, R225, R307, R340, R343). Operand codes that R137
judges later (ILLEGAL_OPERAND) are well-formed here. -/
namespace Sys2Proof

/-- The bounds on the arguments of the steps of the part. -/
def Instr.eventOk : Instr → Bool
  | .registerWrite _ num _ => num < 1024
  | .dspszWrite die size => die < 4 && size < 16
  | .dspszChangeComplete die => die < 4
  | .ctxctlCreate ctx => ctx < 16
  | .contextCreateComplete ctx => ctx < 16
  | .ctxctlDestroy ctx => ctx < 16
  | .contextDestroyComplete ctx => ctx < 16
  | .fqresRetry ctx tag => ctx < 16 && tag < 256
  | .fqresFail ctx tag => ctx < 16 && tag < 256
  | .lqtailWrite queue _ => queue < 64
  | .faultRecordWrite ctx => ctx < 16
  | .dispatcherTakeRecord queue => queue < 64
  | .taskLaunch die ctx => die < 4 && ctx < 16
  | .erTaskPick die ctx _ => die < 4 && ctx < 16
  | .erTaskPass die ctx _ => die < 4 && ctx < 16
  | .registerLineFill _ line _ victimLine => line < 72 && victimLine < 72
  | .blockedLaneWake _ lane => lane < 32
  | .sleepExpire _ lane => lane < 32
  | .spawnTimerExpire core bin => core < 192 && bin < 16
  | .spawnBatchStart core bin => core < 192 && bin < 16
  | .asyncFaultDelivery _ lane => lane < 32
  | .tryConflictAbort core space _ => core < 192 && space < 4
  | .tlbiComplete ctx scope core _ => ctx < 16 && 2 ≤ scope && scope ≤ 4 && core < 192
  | .retractionComplete ctx _ => ctx < 16
  | .matrixCommandStart core => core < 192
  | .mxwLoad core => core < 192
  | .mxsStream core => core < 192
  | .mxdDrain core => core < 192
  | .mxzClear core => core < 192
  | .copySegmentLand core ctx _ => core < 192 && ctx < 16
  | .copyCommandComplete core engine => core < 192 && engine.all (· < 16)
  | .collComplete die => die < 4
  | .slotBoundary core => core < 192
  | .bwWindow die => die < 4
  | .watchdogExpire ctx => ctx < 16
  | .thermalHot core _ => core < 192
  | .thermalMigrationTick core => core < 192
  | .thermalCool core _ => core < 192
  | .corePowerGate core => core < 192
  | .wakeMessage core => core < 192
  | .counterSweep core ctx bank idx => core < 192 && ctx < 16 && bank < 8 && idx < 32
  | .sampleRecordWrite ctx times => ctx < 16 && times.length == 12
  | .eccCorrected core => core < 192
  | .hostWindowAccess _ num _ => 0x200 ≤ num && num < 0x400
  | .launchWindowWrite window _ => window < 64
  | .attestationRequest nonce => nonce.length == 32
  | .fabricStatusUpdate module _ => module < 1088
  | .collectiveStep die _ step => die < 4 && step.ctx < 16
  | .powerOnBoot _ _ _ measures set => measures.boot.length == 64 && measures.more.length < 16 && set.modnum < 1024
  | .priorityFlowControl port prio _ => port < 4 && prio < 8
  | _ => true

/-- Well-formed: the first word, the second word and the bounds of a step of the part are right. -/
def Instr.wf (i : Instr) : Bool := Encoding.firstOk i && Encoding.secondOk i && i.eventOk

end Sys2Proof
end

