-- ==== Sys2Proof/Decode.lean ====
section
/-! DEFINITION. The decoder: total on any words, refusing by name (R120, R137 step 2), and after it the
encoder, written from the same tables (R108 to R128). -/
namespace Sys2Proof

open Encoding

/-- Why the decoder refuses: the fault lies in the first word, or in the second (R138); or the words given are
too few. -/
inductive DecodeError where
  | firstWord
  | secondWord
  | tooShort
  deriving DecidableEq, Repr

/-- Class 0, integer arithmetic (R121): base and type. -/
def Decode.class0 (base : Nat) (t : BitVec 2) (o : Ops) : Option Instr :=
  match base with
  | 0 => some (.add t o)
  | 1 => some (.sub t o)
  | 2 => some (.addx t o)
  | 3 => some (.subx t o)
  | 4 => some (.adds t o)
  | 5 => some (.subs t o)
  | 6 => some (.mul t o)
  | 7 => some (.mulh t o)
  | 8 => some (.mad t o)
  | 9 => some (.div t o)
  | 10 => some (.rem t o)
  | 11 => some (.min t o)
  | 12 => some (.max t o)
  | 13 => some (.clamp t o)
  | 14 => some (.lea t o)
  | 15 => some (.absd t o)
  | _ => none

/-- Class 2, floating point (R123): base and format. -/
def Decode.class2 (base : Nat) (f : BitVec 2) (o : Ops) : Option Instr :=
  match base with
  | 0 => some (.fadd f o)
  | 1 => some (.fsub f o)
  | 2 => some (.fmul f o)
  | 3 => some (.fma f o)
  | 4 => some (.fmin f o)
  | 5 => some (.fmax f o)
  | 6 => some (.fdiv f o)
  | 7 => some (.fsqrt f o)
  | 8 => some (.frcp f o)
  | 9 => some (.frsq f o)
  | 10 => some (.fexp2 f o)
  | 11 => some (.flog2 f o)
  | 12 => some (.fcmp 0#2 f o)
  | 13 => some (.fcmp 1#2 f o)
  | 14 => some (.fcmp 2#2 f o)
  | 15 => some (.fcmp 3#2 f o)
  | _ => none

/-- Class 1, bits, compare and select (R122): the index in its half, and the width. -/
def Decode.class1 (idx : Nat) (w : Bool) (o : Ops) : Option Instr :=
  match idx with
  | 0 => some (.andB w o)
  | 1 => some (.orB w o)
  | 2 => some (.xorB w o)
  | 3 => some (.andn w o)
  | 4 => some (.notB w o)
  | 5 => some (.lut3 w o)
  | 6 => some (.shl w o)
  | 7 => some (.shr w o)
  | 8 => some (.sar w o)
  | 9 => some (.rol w o)
  | 10 => some (.bfx w o)
  | 11 => some (.bfxs w o)
  | 12 => some (.bfi w o)
  | 13 => some (.popc w o)
  | 14 => some (.clz w o)
  | 15 => some (.ctz w o)
  | 16 => some (.brev w o)
  | 17 => some (.prmb w o)
  | 18 => some (.sel w o)
  | 19 => some (.mov w o)
  | 20 => some (.cmpEq w o)
  | 21 => some (.cmpNe w o)
  | 22 => some (.cmpLt w o)
  | 23 => some (.cmpLe w o)
  | 24 => some (.cmpLtn w o)
  | 25 => some (.cmpLen w o)
  | 26 => some (.testZ w o)
  | 27 => some (.testNz w o)
  | _ => none

/-- Class 3, conversion, narrow formats, dot and quantise (R124). -/
def Decode.class3 (idx : Nat) (o : Ops) : Option Instr :=
  match idx with
  | 0x00 => some (.cvt 0#4 o)
  | 0x01 => some (.cvt 1#4 o)
  | 0x02 => some (.cvt 2#4 o)
  | 0x03 => some (.cvt 3#4 o)
  | 0x04 => some (.cvt 4#4 o)
  | 0x05 => some (.cvt 5#4 o)
  | 0x06 => some (.cvt 6#4 o)
  | 0x07 => some (.cvt 7#4 o)
  | 0x08 => some (.cvt 8#4 o)
  | 0x09 => some (.cvt 9#4 o)
  | 0x0A => some (.cvt 10#4 o)
  | 0x0B => some (.cvt 11#4 o)
  | 0x0C => some (.cvt 12#4 o)
  | 0x0D => some (.cvt 13#4 o)
  | 0x0E => some (.cvt 14#4 o)
  | 0x0F => some (.cvt 15#4 o)
  | 0x10 => some (.frnd o)
  | 0x11 => some (.fclass o)
  | 0x12 => some (.pack o)
  | 0x13 => some (.unpk o)
  | 0x14 => some (.dot4 0#2 o)
  | 0x15 => some (.dot4 1#2 o)
  | 0x16 => some (.dot4 2#2 o)
  | 0x17 => some (.dot4 3#2 o)
  | 0x18 => some (.dot2 false o)
  | 0x19 => some (.dot2 true o)
  | 0x1A => some (.dot8 o)
  | 0x20 => some (.qnt 0#2 o)
  | 0x21 => some (.qnt 1#2 o)
  | 0x22 => some (.qnt 2#2 o)
  | 0x23 => some (.qnt 3#2 o)
  | 0x24 => some (.dqnt 0#2 o)
  | 0x25 => some (.dqnt 1#2 o)
  | 0x26 => some (.dqnt 2#2 o)
  | 0x27 => some (.dqnt 3#2 o)
  | 0x28 => some (.bxenc 0#2 o)
  | 0x29 => some (.bxenc 1#2 o)
  | 0x2A => some (.bxenc 2#2 o)
  | 0x2B => some (.bxdecBx3 o)
  | 0x2C => some (.bxdecBx5 o)
  | 0x2D => some (.bxdecBx8 o)
  | _ => none

/-- Class 4, control and lanes (R125). -/
def Decode.class4 (idx : Nat) (low : BitVec 22) (o : Ops) (c : Ctl) : Option Instr :=
  match idx with
  | 0x00 => some (.br low)
  | 0x01 => some (.brc (low.extractLsb' 15 7) (low.extractLsb' 0 15))
  | 0x02 => some (.brx o c)
  | 0x03 => some (.call low)
  | 0x04 => some (.callx o)
  | 0x05 => some (.ret o)
  | 0x06 => some (.jenr o)
  | 0x07 => some (.jwait o)
  | 0x08 => some (.exit o)
  | 0x09 => some (.wbase o)
  | 0x0A => some (.nop o)
  | 0x0B => some (.yield o)
  | 0x0C => some (.ballot o)
  | 0x0D => some (.vany o)
  | 0x0E => some (.vall o)
  | 0x0F => some (.rankl o)
  | 0x10 => some (.elect o)
  | 0x11 => some (.rdln o)
  | 0x12 => some (.wrln o)
  | 0x13 => some (.shfl o)
  | 0x14 => some (.shflx o)
  | 0x15 => some (.shflu o)
  | 0x16 => some (.shfld o)
  | 0x17 => some (.scana o)
  | 0x18 => some (.reda o)
  | 0x19 => some (.redm o)
  | 0x1A => some (.syncw o c)
  | 0x1B => some (.actm o)
  | 0x1C => some (.sleep o)
  | _ => none

/-- Class 5, memory (R126). -/
def Decode.class5 (idx : Nat) (o : Ops) (c : Ctl) : Option Instr :=
  match idx with
  | 0x00 => some (.ld 0#3 o)
  | 0x01 => some (.ld 1#3 o)
  | 0x02 => some (.ld 2#3 o)
  | 0x03 => some (.ld 3#3 o)
  | 0x04 => some (.ld 4#3 o)
  | 0x05 => some (.ld 5#3 o)
  | 0x06 => some (.ld 6#3 o)
  | 0x07 => some (.pf o)
  | 0x08 => some (.st 0#3 o)
  | 0x09 => some (.st 1#3 o)
  | 0x0A => some (.st 2#3 o)
  | 0x0B => some (.st 3#3 o)
  | 0x0C => some (.st 4#3 o)
  | 0x0D => some (.stc o)
  | 0x0E => some (.lde o)
  | 0x10 => some (.ldt 0#3 o)
  | 0x11 => some (.ldt 1#3 o)
  | 0x12 => some (.ldt 2#3 o)
  | 0x13 => some (.ldt 3#3 o)
  | 0x14 => some (.ldt 4#3 o)
  | 0x15 => some (.ldt 5#3 o)
  | 0x16 => some (.ldt 6#3 o)
  | 0x18 => some (.stt 0#3 o)
  | 0x19 => some (.stt 1#3 o)
  | 0x1A => some (.stt 2#3 o)
  | 0x1B => some (.stt 3#3 o)
  | 0x1C => some (.stt 4#3 o)
  | 0x20 => some (.ldp 0#3 o)
  | 0x21 => some (.ldp 1#3 o)
  | 0x22 => some (.ldp 2#3 o)
  | 0x23 => some (.ldp 3#3 o)
  | 0x24 => some (.ldp 4#3 o)
  | 0x25 => some (.ldp 5#3 o)
  | 0x26 => some (.ldp 6#3 o)
  | 0x28 => some (.stp 0#3 o)
  | 0x29 => some (.stp 1#3 o)
  | 0x2A => some (.stp 2#3 o)
  | 0x2B => some (.stp 3#3 o)
  | 0x2C => some (.stp 4#3 o)
  | 0x30 => some (.pushv o)
  | 0x31 => some (.popv o)
  | 0x32 => some (.atom o c)
  | 0x33 => some (.cas o c)
  | 0x34 => some (.red o c)
  | 0x35 => some (.lda o c)
  | 0x36 => some (.stl o c)
  | 0x37 => some (.fence o c)
  | 0x38 => some (.cinv o)
  | 0x39 => some (.cwb o)
  | _ => none

/-- Class 6, engines, matrix and barriers (R127). -/
def Decode.class6 (idx : Nat) (o : Ops) (c : Ctl) : Option Instr :=
  match idx with
  | 0x00 => some (.cpy o c)
  | 0x01 => some (.cpyg o c)
  | 0x02 => some (.cpys o c)
  | 0x03 => some (.cpyr o c)
  | 0x04 => some (.coll o c)
  | 0x05 => some (.tlrd o)
  | 0x06 => some (.tlarm o c)
  | 0x08 => some (.mxw o c)
  | 0x09 => some (.mxs o c)
  | 0x0A => some (.mxd o c)
  | 0x0B => some (.mxz o c)
  | 0x10 => some (.bari o c)
  | 0x11 => some (.bara o c)
  | 0x12 => some (.barx o c)
  | 0x13 => some (.barw o c)
  | 0x14 => some (.bart o c)
  | 0x15 => some (.bard o c)
  | 0x18 => some (.crit o)
  | 0x19 => some (.uncrit o)
  | _ => none

/-- Class 7, system, publication, speculation and work creation (R128). -/
def Decode.class7 (idx : Nat) (o : Ops) (c : Ctl) : Option Instr :=
  match idx with
  | 0x00 => some (.publish o c)
  | 0x01 => some (.adopt o c)
  | 0x02 => some (.retract o c)
  | 0x03 => some (.icinv o c)
  | 0x08 => some (.tryR o c)
  | 0x09 => some (.commit o c)
  | 0x0A => some (.abort o c)
  | 0x0B => some (.tstat o)
  | 0x10 => some (.launch o)
  | 0x11 => some (.tsub o)
  | 0x12 => some (.tdone o)
  | 0x13 => some (.spawn o)
  | 0x14 => some (.erarm o)
  | 0x15 => some (.erpass o)
  | 0x20 => some (.trap o)
  | 0x21 => some (.rte o)
  | 0x22 => some (.rdsr o)
  | 0x23 => some (.wrsr o)
  | 0x24 => some (.bkpt o)
  | 0x25 => some (.sysc o)
  | 0x26 => some (.halt o)
  | 0x27 => some (.tlbi o c)
  | 0x28 => some (.ctxsw o)
  | _ => none

/-- The instruction an opcode names, with the fields of its words as they stand. The S bit of formats J and
JC is 0 (R114). -/
def Decode.build (s : Bool) (op : BitVec 9) (low : BitVec 22) (w1 : Word) (lit : Word) : Option Instr :=
  let o := unpackOps s low lit
  let idx := op.extractLsb' 0 6
  match (op.extractLsb' 6 3).toNat with
  | 0 => Decode.class0 (op.extractLsb' 2 4).toNat (op.extractLsb' 0 2) o
  | 1 => Decode.class1 (op.extractLsb' 0 5).toNat (op.getLsbD 5) o
  | 2 => Decode.class2 (op.extractLsb' 2 4).toNat (op.extractLsb' 0 2) o
  | 3 => Decode.class3 idx.toNat o
  | 4 => if s && (idx == 0#6 || idx == 1#6 || idx == 3#6) then none
         else Decode.class4 idx.toNat low o (unpackCtl w1)
  | 5 => Decode.class5 idx.toNat o (unpackCtl w1)
  | 6 => Decode.class6 idx.toNat o (unpackCtl w1)
  | _ => Decode.class7 idx.toNat o (unpackCtl w1)

/-- The fields of a first word. -/
def Decode.first (w0 w1 lit : Word) : Option Instr :=
  Decode.build (w0.getLsbD 31) (w0.extractLsb' 22 9) (w0.extractLsb' 0 22) w1 lit

/-- Whether a second word follows this first word (R108, R110, R111). -/
def Decode.needsSecond (w0 : Word) : Bool :=
  match Decode.first w0 0 0 with
  | some i => twoWords i
  | none => false

/-- Decode a first word and, where one follows, a second (step 2 of R137). -/
def decode (w0 w1 : Word) : Except DecodeError Instr :=
  match Decode.first w0 w1 0 with
  | none => .error .firstWord
  | some i0 =>
    let i := if hasLiteral i0 then (Decode.first w0 w1 w1).getD i0 else i0
    if !firstOk i then .error .firstWord
    else if !secondOk i then .error .secondWord
    else .ok i

/-- A little-endian word at the head of a list of bytes (R4). -/
def Decode.word : List Byte → Option (Word × List Byte)
  | b0 :: b1 :: b2 :: b3 :: rest => some (b3 ++ b2 ++ b1 ++ b0, rest)
  | _ => none

/-- Decode the instruction at the head of a list of bytes and answer the rest. -/
def decodeBytes (bs : List Byte) : Except DecodeError (Instr × List Byte) :=
  match Decode.word bs with
  | none => .error .tooShort
  | some (w0, rest) =>
    if Decode.needsSecond w0 then
      match Decode.word rest with
      | none => .error .tooShort
      | some (w1, rest') => (decode w0 w1).map (·, rest')
    else (decode w0 0).map (·, rest)

/-! ## The encoder -/

/-- The first word of an instruction that has an encoding. -/
def encodeFirst (i : Instr) : Option Word :=
  match i with
  | .br off => some (packWord false 0x100#9 off)
  | .brc c off => some (packWord false 0x101#9 (c ++ off))
  | .call off => some (packWord false 0x103#9 off)
  | _ =>
    match row i, ops i with
    | some r, some o => some (packWord o.s r.op (packLow o))
    | _, _ => none

/-- The second word, where the instruction takes one. -/
def encodeSecond (i : Instr) : Option Word :=
  match ctl i with
  | some c => some (packCtl c)
  | none => if hasLiteral i then (ops i).map (·.lit) else none

/-- The words of an instruction; none for a step of the part, which has no encoding. -/
def encode (i : Instr) : List Word :=
  match encodeFirst i with
  | none => []
  | some w0 => w0 :: (encodeSecond i).toList

/-- Decode what `encode` writes: one word or two. -/
def decodeWords : List Word → Except DecodeError Instr
  | [w0] => if Decode.needsSecond w0 then .error .tooShort else decode w0 0
  | [w0, w1] => if Decode.needsSecond w0 then decode w0 w1 else .error .tooShort
  | _ => .error .tooShort

/-- The bytes of a word in memory (R4, R108). -/
def Decode.bytesOf (w : Word) : List Byte :=
  [w.extractLsb' 0 8, w.extractLsb' 8 8, w.extractLsb' 16 8, w.extractLsb' 24 8]

/-- The two words that a table entry of `nbits` bits with value `w` stands for: bit 0 of `w` is bit 0 of the first
word, bit 32 is bit 0 of the second, and bits from `nbits` up are 0. -/
def Decode.tableWords (nbits w : Nat) : Word × Word :=
  let v := w % 2 ^ nbits
  (BitVec.ofNat 32 v, BitVec.ofNat 32 (v / 2 ^ 32))

/-- The instruction the decoder reads from an entry of the opcode table, laid out as the part stores it. -/
def decodeTableWord (nbits w : Nat) : Option Instr :=
  let (w0, w1) := Decode.tableWords nbits w
  match decodeBytes (Decode.bytesOf w0 ++ Decode.bytesOf w1) with
  | .ok (i, _) => some i
  | .error _ => none

end Sys2Proof
end

