-- ==== Sys2Proof/Machine/Access.lean ====
section
/-! DEFINITION. Instructions that act lane by lane and may stop in one lane and complete in another (R139, R142, R185):
the acts of a group, the stops of its lanes, the place of an access and its checks (R140, R168, R171, R172, R182),
and reading and writing at a place, inside a try region and outside (R195, R275 to R278). -/
namespace Sys2Proof.Machine

/-! ## Acts and stops -/

/-- Why one lane's act ends without completing. -/
inductive Stop where
  | trap (cause : Nat) (info : Word) (addr : DWord)
  | park (addr : DWord) (data : BitVec 128) (kind : Kind) (migration : Bool)
  | block (w : Wait)
  deriving DecidableEq, Repr

/-- A lane's act: the state after it, and its stop where it does not complete. -/
abbrev Acted := State × Option Stop

/-- An act that a bivouac slot can replay (R224, R230): the address and data bits a lane logs, and the act on them. `moves`
says that an act that completes has set the PC itself. -/
structure Act where
  gather : State → Nat → DWord × BitVec 128
  body : State → Nat → DWord → BitVec 128 → Acted
  moves : Bool := false

/-- The acts of a group in ascending lane order; one act, with L = 0, for a scalar instruction (R139). A lane that an earlier
act of the group has aborted does not act. -/
def State.actAll (s : State) (scalar : Bool) (f : State → Nat → Acted) : State × List (Nat × Stop) :=
  if scalar then
    let r := f s 0
    match r.2 with
    | some e => (r.1, (lanesOf s.mask).map fun l => (l, e))
    | none => (r.1, [])
  else
    (lanesOf s.mask).foldl (fun (acc : State × List (Nat × Stop)) l =>
      if acc.1.cur.frozenLanes.getLsbD l then acc
      else
        let r := f acc.1 l
        (r.1, match r.2 with
              | some e => acc.2 ++ [(l, e)]
              | none => acc.2)) (s, [])

/-- What a stop makes of a lane; a member of a try region meets PAGE_FAULT where another lane would park (R280). -/
def Stop.report (l : Nat) (member : Bool) : Stop → Option Report
  | .trap cause info addr => some { lane := l, cause := cause, info := info, addr := addr }
  | .park addr _ _ _ => if member then some { lane := l, cause := 6, info := 0, addr := addr } else none
  | .block _ => none

def Stop.parking (l : Nat) : Stop → Option Parking
  | .park addr data kind migration => some { lane := l, addr := addr, data := data, kind := kind, migration := migration }
  | _ => none

/-- Apply the stops of a group at its instruction: blocked lanes, parked lanes, then the causes of the others in ascending lane
order, members aborting with FAULT (R280). -/
def State.settleStops (s : State) (i : Instr) (stops : List (Nat × Stop)) : State :=
  let k := s.cur.wave
  let stops := stops.filter fun p => !s.cur.frozenLanes.getLsbD p.1
  let w := s.wave k
  let s := stops.foldl (fun s p => match p.2 with
    | .block x => s.block k (1#32 <<< p.1) x
    | _ => s) s
  let parks := (stops.filterMap fun p => p.2.parking p.1).filter fun p => !(w.lane p.lane).member
  let s := s.park k s.cur.pc s.cur.w0 s.cur.w1 i s.pre.vb s.pre.sb parks
  let reports := stops.filterMap fun p => p.2.report p.1 (w.lane p.1).member
  if reports.isEmpty then s else s.raise k s.cur.mask s.cur.pc reports

/-- Run the acts of a group: the lanes that complete go on, the others stop. -/
def State.lanewise (s : State) (i : Instr) (scalar moves : Bool) (f : State → Nat → Acted) : State :=
  let r := s.actAll scalar f
  let s' := if moves then r.1 else r.1.advance (s.mask &&& ~~~ maskOf (r.2.map (·.1)))
  s'.settleStops i r.2

/-- The act of a lane of the group on what it gathers. -/
def Act.run (x : Act) (s : State) (l : Nat) : Acted := x.body s l (x.gather s l).1 (x.gather s l).2

/-- An instruction whose effect is an act in each lane. -/
def acting (i : Instr) (o : Ops) (sp : Spans) (x : Act) (s : State) : Answer :=
  .next (s.run i sp fun s => s.lanewise i o.s x.moves x.run)

/-- An act that completes. -/
def done (s : State) : Acted := (s, none)

/-- An act that stops. -/
def stop (s : State) (e : Stop) : Acted := (s, some e)

/-! ## Places (R168) -/

/-- The stop that a failed translation of an address gives, with the data that a parked lane logs (R141, R182, R219). -/
def TErr.stop (e : TErr) (k : Kind) (addr : DWord) (data : BitVec 128) : Stop :=
  match e with
  | .protection usr => .trap 5 (BitVec.ofNat 32 (k * 256 + usr.toNat * 1024)) addr
  | .fatal level => .trap 7 (BitVec.ofNat 32 level) addr
  | .absent => .park addr data k false
  | .migrating => .park addr data k true

/-- PROTECTION of an access outside its space (R219). -/
def outside (k : Kind) (addr : DWord) : Stop := .trap 5 (BitVec.ofNat 32 (k * 256)) addr

/-- The place of n bytes at an address of a space, for a kind of access: alignment (R140), then the space's own range and the
launch barrier (R171, R172), or translation (R141) with every byte backed (R174, R333), then poison (R241). A change of DSPSZ stalls die scratchpad (R19). -/
def State.place (s : State) (space : Nat) (k : Kind) (n : Nat) (addr : DWord) (data : BitVec 128) : State × Except Stop Place :=
  if addr.toNat % n ≠ 0 then (s, .error (.trap 4 (BitVec.ofNat 32 n) addr))
  else if space = 0 then
    match s.translate s.coreNo s.ctxNo addr k with
    | (s, .error e) => (s, .error (e.stop k addr data))
    | (s, .ok pa) =>
      if !s.backedAll pa n then (s, .error (.trap 7 7 addr))
      else match (if k = 1 then none else s.poisonAt pa n) with
      | some info => (s, .error (.trap 0x12 (BitVec.ofNat 32 info) addr))
      | none => (s, .ok (.mem pa))
  else if space = 1 then
    match s.teamOffset s.tid addr.toInt n with
    | none => (s, .error (outside k addr))
    | some off => if k ≠ 0 ∧ off < 32 then (s, .error (outside k addr)) else (s, .ok (.team s.tid off))
  else if (s.die s.dieNo).busy then (s, .error (.block .dsp))
  else
    match s.dieOffset s.dieNo s.ctxNo addr.toInt n with
    | none => (s, .error (outside k addr))
    | some off =>
      if k ≠ 1 ∧ (s.die s.dieNo).poisonAt off n then (s, .error (.trap 0x12 2 addr)) else (s, .ok (.die s.dieNo off))

/-- The location of byte i of a place, as belay entries and watch sets name it. -/
def Place.loc (p : Place) (i : Nat) : Loc :=
  match p with
  | .mem pa => ⟨0, pa + i⟩
  | .team _ off => ⟨1, off + i⟩
  | .die _ off => ⟨2, off + i⟩

/-- Read and write at a place by the executing core. -/
def State.readAt (s : State) (p : Place) (n : Nat) (bypass : Bool) : State × List Byte := s.readOn s.coreNo p n bypass
def State.writeAt (s : State) (p : Place) (bs : List Byte) (bypass : Bool) : State := s.writeOn s.coreNo p bs bypass

/-! ## Accesses of a lane to one location are in order (R198, R199) -/

/-- The lanes whose access an act is. -/
def State.actMask (s : State) (scalar : Bool) (l : Nat) : BitVec 32 := if scalar then s.mask else 1#32 <<< l

/-- What a lane has loaded early at a place, past the L1 or not. -/
def Lane.earlyAt (x : Lane) (p : Place) (n : Nat) (bypass : Bool) : Option (List Byte) :=
  (x.early.find? fun e => e.place == p && e.data.length == n && e.bypass == bypass).map (·.data)

/-- One part of a load: what the lane has loaded early, else the bytes now. -/
def State.readUnit (s : State) (m : BitVec 32) (p : Place) (n : Nat) (bypass : Bool) : State × List Byte :=
  match ((s.w.lane (lowest m)).earlyAt p n bypass) with
  | some bs => (s.meet s.cur.wave m p n, bs)
  | none => (s.meet s.cur.wave m p n).readAt p n bypass

/-- The bytes of a load of an act. -/
def State.readFor (s : State) (m : BitVec 32) (p : Place) (n : Nat) (bypass : Bool) : State × List Byte :=
  if (s.w.lane (lowest m)).early.isEmpty then (s.meet s.cur.wave m p n).readAt p n bypass
  else (p.units n).foldl (fun acc u =>
    let r := acc.1.readUnit m (p.plus u.1) u.2 bypass
    (r.1, acc.2 ++ r.2)) (s, [])

/-- An access of the executing instruction that waits. -/
def State.pend (s : State) (m : BitVec 32) (p : Place) (e : Effect) : Pend := { lanes := m, place := p, effect := e, clk := s.clk, group := s.mask }

/-- Issue a store without performing it: its parts wait behind what waits already (R198). -/
def State.defer (s : State) (m : BitVec 32) (p : Place) (bs : List Byte) (bypass : Bool) : State :=
  let s := s.dropEarly s.cur.wave m p bs.length
  let parts := (p.units bs.length).map fun u => s.pend m (p.plus u.1) (.store ((bs.drop u.1).take u.2) bypass)
  s.modWave s.cur.wave fun w => { w with stores := w.stores ++ parts }

/-- A further step of a reduction that waits. -/
def Pend.more (x : Pend) (m : BitVec 32) (b : Nat) : Pend :=
  match x.effect with
  | .reduce sub type scope bs => { x with lanes := x.lanes ||| m, effect := .reduce sub type scope (bs ++ [b]) }
  | _ => x

/-- Issue a step of a reduction without performing it (R434): with the steps of its instruction that wait at its place already, so that
they are performed one after another, in ascending lane order (R216). -/
def State.deferReduction (s : State) (m : BitVec 32) (p : Place) (sub type scope b : Nat) : State :=
  let s := s.dropEarly s.cur.wave m p (typeBytes type)
  let same := fun (x : Pend) => x.clk == s.clk && x.group == s.mask && x.place == p
  s.modWave s.cur.wave fun w =>
    { w with stores := if w.stores.any same then w.stores.map fun x => if same x then x.more m b else x
                       else w.stores ++ [s.pend m p (.reduce sub type scope [b])] }

/-- The store of an act: performed, or left to wait where this pick's stores do. -/
def State.writeFor (s : State) (m : BitVec 32) (p : Place) (bs : List Byte) (bypass : Bool) : State :=
  if s.cur.lazy then s.defer m p bs bypass else (s.meet s.cur.wave m p bs.length).writeAt p bs bypass

/-! ## Members of try regions (R275 to R278) -/

/-- The member lanes that an act stands for: the lane itself, or every member of the group in a scalar instruction. -/
def State.actMembers (s : State) (scalar : Bool) (l : Nat) : List Nat :=
  if scalar then lanesOf s.members else if (s.w.lane l).member then [l] else []

/-- Abort one lane of the executing wave, if it is a member still. -/
def State.abortLane (s : State) (l code detail : Nat) : State := s.abort s.cur.wave (1#32 <<< l) code 0 detail

/-- Note the bytes that a hoisted load read from memory in a lane's watch set; past 64 lines of the wave it aborts with
OVERFLOW (R277). -/
def State.watch (s : State) (l : Nat) (locs : List Loc) : State :=
  let add := fun (x : Lane) => { x with watch := x.watch ++ locs.filter fun b => !x.watch.contains b }
  if 64 < (s.w.modLane l add).watchLines.length then s.abortLane l 4 3 else s.modLane s.cur.wave l add

/-- Read n bytes for an act: a member's own belay entries first (R276), and with H afresh into the watch set (R277). A member's access
to a peer or host aborts it (R279); none where nothing is left to read for. -/
def State.loadAt (s : State) (scalar : Bool) (l : Nat) (p : Place) (n : Nat) (bypass hoist : Bool) : State × Option Nat :=
  let ms := s.actMembers scalar l
  let s := if p.foreign then ms.foldl (fun s x => s.abortLane x 7 0) s else s
  if p.foreign && !ms.isEmpty && (!scalar || s.thawed s.mask == 0) then (s, none)
  else
    let ms := s.actMembers scalar l
    let m := s.actMask scalar l
    let (s, bs) := if hoist && !ms.isEmpty then (s.meet s.cur.wave m p n).readAt p n true else s.readFor m p n bypass
    let own := fun i => match ms with
      | [] => none
      | x :: _ => (s.w.lane x).belayAt (p.loc i).space (p.loc i).addr
    let v := fromBytes ((List.range n).map fun i => (own i).getD (bs.getD i 0))
    let fresh := ((List.range n).filter fun i => (own i).isNone).map p.loc
    let s := if hoist then ms.foldl (fun s x => if (s.w.lane x).member then s.watch x fresh else s) s else s
    (s, some v)

/-- Buffer a member's store: ALIAS where the lane read the byte with a hoisted load, OVERFLOW past the limits of R275. -/
def State.bufferAt (s : State) (l : Nat) (p : Place) (bs : List Byte) : State :=
  let x := s.w.lane l
  let locs := (List.range bs.length).map p.loc
  let buffered := x.buffer (p.loc 0).space (p.loc 0).addr bs
  let more := buffered.belayBlocks.length - x.belayBlocks.length
  if p.foreign then s.abortLane l 7 0
  else if locs.any x.watch.contains then s.abortLane l 2 0
  else if 128 < s.w.belayCount + more ∨ 2048 < s.belayCount s.coreNo + more then s.abortLane l 4 1
  else s.modLane s.cur.wave l fun _ => buffered

/-- Write bytes for an act: buffered by the members it stands for, else performed (R275). -/
def State.storeAt (s : State) (scalar : Bool) (l : Nat) (p : Place) (bs : List Byte) (bypass : Bool) : State :=
  match s.actMembers scalar l with
  | [] => s.writeFor (s.actMask scalar l) p bs bypass
  | ms => ms.foldl (fun s x => if (s.w.lane x).member then s.bufferAt x p bs else s) s

/-- Note the page of an address whose translation a member's buffered store or hoisted load used; the heap window uses none (R278). -/
def State.notePage (s : State) (ms : List Nat) (space : Nat) (k : Kind) (addr : DWord) : State :=
  if space ≠ 0 || (s.heapWindow s.ctxNo addr k).isSome then s
  else ms.foldl (fun s x =>
    s.modLane s.cur.wave x fun y => if y.member then { y with pages := addOnce (addr.toNat % 2 ^ 57 / 4096) y.pages } else y) s

/-! ## Addresses of operands (R168) -/

/-- The address that A and B form in a space: for global memory the sum modulo 2^64, else the exact sum, which 64 bits hold
signed. -/
def addrAB (space : Nat) (rd : Reader) : DWord :=
  if space = 0 then rd .n .a + (lo32 (rd .w .b)).signExtend 64
  else (lo32 (rd .w .a)).zeroExtend 64 + (lo32 (rd .w .b)).signExtend 64

/-- The address that A alone forms. -/
def addrA (space : Nat) (rd : Reader) : DWord := if space = 0 then rd .n .a else (lo32 (rd .w .a)).zeroExtend 64

/-- Registers that an address operand spans. -/
def addrRegs (space : Nat) : Nat := if space = 0 then 2 else 1

end Sys2Proof.Machine
end

