-- ==== Sys2Proof/Machine/Memory.lean ====
section
/-! DEFINITION. The memory instructions of class 5 (R126, R251, R352 to R354, R369, R370, R398, R405 to R408, R421,
R423, R424, R433, R434, R451 to R454). -/
namespace Sys2Proof.Machine

/-! ## Loads (R405, R406) -/

/-- Bytes of a load and whether it is sign-extended: .n8 .s8 .n16 .s16 .b32 .b64 .b128. -/
def loadForm (k : Nat) : Nat × Bool :=
  match k with
  | 0 => (1, false) | 1 => (1, true) | 2 => (2, false) | 3 => (2, true) | 4 => (4, false) | 5 => (8, false) | _ => (16, false)

/-- Registers that n bytes take. -/
def regsFor (n : Nat) : Nat := (n + 3) / 4

/-- A loaded value as registers hold it: narrow ones are extended to a word. -/
def extend (n : Nat) (signed : Bool) (v : Nat) : Nat :=
  if 4 ≤ n then v
  else if signed ∧ 2 ^ (8 * n - 1) ≤ v then v + 2 ^ 32 - 2 ^ (8 * n) else v

/-- The act of a load of n bytes: read at the place, extend, write D. -/
def loadBody (i : Instr) (o : Ops) (space n : Nat) (signed bypass hoist : Bool) (s : State) (l : Nat) (addr : DWord)
    (data : BitVec 128) : Acted :=
  match s.place space 0 n addr data with
  | (s, .error e) => stop s e
  | (s, .ok p) =>
    match s.loadAt o.s l p n bypass hoist with
    | (s, none) => done s
    | (s, some v) =>
      let s := if hoist then s.notePage (s.actMembers o.s l) space 0 addr else s
      done (s.dst i o l (regsFor n) (extend n signed v))

/-- The act of LD, LDT and LDP. -/
def loadAct (i : Instr) (k : BitVec 3) (o : Ops) (space : Nat) : Act :=
  { gather := fun s l => (addrAB space (reader s.pre o l), 0)
    body := loadBody i o space (loadForm k.toNat).1 (loadForm k.toNat).2 false o.nw }

/-- The spans of a load. -/
def loadSpans (n space : Nat) : Spans := { d := regsFor n, a := addrRegs space, b := 1 }

/-- LD (R406). -/
def ldAct (k : BitVec 3) (o : Ops) : Act := loadAct (.ld k o) k o 0
def execLd (k : BitVec 3) (o : Ops) (s : State) : Answer :=
  acting (.ld k o) o (loadSpans (loadForm k.toNat).1 0) (ldAct k o) s

/-- LDT (R406). -/
def ldtAct (k : BitVec 3) (o : Ops) : Act := loadAct (.ldt k o) k o 1
def execLdt (k : BitVec 3) (o : Ops) (s : State) : Answer :=
  acting (.ldt k o) o (loadSpans (loadForm k.toNat).1 1) (ldtAct k o) s

/-- LDP (R406). -/
def ldpAct (k : BitVec 3) (o : Ops) : Act := loadAct (.ldp k o) k o 2
def execLdp (k : BitVec 3) (o : Ops) (s : State) : Answer :=
  acting (.ldp k o) o (loadSpans (loadForm k.toNat).1 2) (ldpAct k o) s

/-- The rank of a lane within the group (R251). -/
def rankIn (m : BitVec 32) (l : Nat) : Nat := ((lanesOf m).filter (· < l)).length

/-- The address that STC and LDE give a lane (R251, R407). -/
def rankedAddr (s : State) (o : Ops) (l : Nat) : DWord :=
  addrAB 0 (reader s.pre o l) + BitVec.ofNat 64 (4 * rankIn s.mask l)

/-- LDE (R407). -/
def ldeAct (o : Ops) : Act :=
  { gather := fun s l => (rankedAddr s o l, 0), body := loadBody (.lde o) o 0 4 false false o.nw }
def execLde (o : Ops) (s : State) : Answer := acting (.lde o) o (loadSpans 4 0) (ldeAct o) s

/-! ## Stores (R451, R452) -/

/-- The act of a store of the n low bytes of the data. -/
def storeBody (o : Ops) (space n : Nat) (bypass : Bool) (s : State) (l : Nat) (addr : DWord) (data : BitVec 128) : Acted :=
  match s.place space 1 n addr data with
  | (s, .error e) => stop s e
  | (s, .ok p) => done ((s.storeAt o.s l p (toBytes n data.toNat) bypass).notePage (s.actMembers o.s l) space 1 addr)

/-- The data that D names. -/
def storeData (s : State) (o : Ops) (l n : Nat) : BitVec 128 := BitVec.ofNat 128 (readRegs s.pre o l (regsFor n))

/-- The act of ST, STT and STP: .b8 .b16 .b32 .b64 .b128. -/
def storeAct (k : BitVec 3) (o : Ops) (space : Nat) : Act :=
  { gather := fun s l => (addrAB space (reader s.pre o l), storeData s o l (2 ^ k.toNat))
    body := storeBody o space (2 ^ k.toNat) false }

/-- ST (R452). -/
def stAct (k : BitVec 3) (o : Ops) : Act := storeAct k o 0
def execSt (k : BitVec 3) (o : Ops) (s : State) : Answer :=
  acting (.st k o) o (loadSpans (2 ^ k.toNat) 0) (stAct k o) s

/-- STT (R452). -/
def sttAct (k : BitVec 3) (o : Ops) : Act := storeAct k o 1
def execStt (k : BitVec 3) (o : Ops) (s : State) : Answer :=
  acting (.stt k o) o (loadSpans (2 ^ k.toNat) 1) (sttAct k o) s

/-- STP (R452). -/
def stpAct (k : BitVec 3) (o : Ops) : Act := storeAct k o 2
def execStp (k : BitVec 3) (o : Ops) (s : State) : Answer :=
  acting (.stp k o) o (loadSpans (2 ^ k.toNat) 2) (stpAct k o) s

/-- STC (R251, R453). -/
def stcAct (o : Ops) : Act :=
  { gather := fun s l => (rankedAddr s o l, storeData s o l 4), body := storeBody o 0 4 false }
def execStc (o : Ops) (s : State) : Answer := acting (.stc o) o (loadSpans 4 0) (stcAct o) s

/-! ## Ordered accesses (R131, R196) -/

/-- Orders that release before the access, and that acquire after it. -/
def releases (c : Ctl) : Bool := 2 ≤ c.order.toNat
def acquires (c : Ctl) : Bool := c.order.toNat % 2 == 1

/-- Release at the scope before the effect, and acquire at the scope after it, for the lanes that act: what they have loaded early is loaded
again (R196). -/
def State.before (s : State) (c : Ctl) : State := if releases c then s.release s.coreNo c.scope.toNat else s
def State.after (s : State) (c : Ctl) (m : BitVec 32) : State :=
  if acquires c then (s.acquire s.coreNo c.scope.toNat).forget s.cur.wave m else s

/-- Whether a type is sign-extended into a register. -/
def typeSigned (t : Nat) : Bool := t < 8 && t % 2 == 0

/-- LDA (R408): performed at its scope, past L1 from die scope up; like any load perhaps before an earlier access (R198). -/
def ldaAct (o : Ops) (c : Ctl) : Act :=
  { gather := fun s l => (addrAB c.space (reader s.pre o l), 0)
    body := fun s l addr data =>
      let r := loadBody (.lda o c) o c.space (typeBytes c.type.toNat) (typeSigned c.type.toNat) (3 ≤ c.scope.toNat) false
        (s.before c) l addr data
      (if r.2.isNone then r.1.after c (s.actMask o.s l) else r.1, r.2) }
def execLda (o : Ops) (c : Ctl) (s : State) : Answer :=
  acting (.lda o c) o (loadSpans (typeBytes c.type.toNat) c.space) (ldaAct o c) s

/-- STL (R454). -/
def stlAct (o : Ops) (c : Ctl) : Act :=
  { gather := fun s l => (addrAB c.space (reader s.pre o l), storeData s o l (typeBytes c.type.toNat))
    body := fun s l addr data =>
      storeBody o c.space (typeBytes c.type.toNat) (3 ≤ c.scope.toNat) (s.before c) l addr data }
def execStl (o : Ops) (c : Ctl) (s : State) : Answer :=
  acting (.stl o c) o (loadSpans (typeBytes c.type.toNat) c.space) (stlAct o c) s

/-! ## Atomics (R132, R195, R200, R216, R353) -/

/-- One indivisible read-modify-write: `f` of the old value gives the new one, none where nothing is written (R200). -/
def atomicBody (o : Ops) (c : Ctl) (n : Nat) (f : BitVec 128 → Nat → Option Nat) (wr : State → Nat → Nat → State) (s : State) (l : Nat)
    (addr : DWord) (data : BitVec 128) : Acted :=
  match (s.before c).place c.space 2 n addr data with
  | (s, .error e) => stop s e
  | (s, .ok p) =>
    let s := (s.meet s.cur.wave (s.actMask o.s l) p n).dropCopies s.coreNo p c.scope.toNat
    let (s, bs) := s.readAt p n true
    let old := fromBytes bs
    let s := match f data old with
      | some v => s.writeAt p (toBytes n v) true
      | none => s
    done ((wr s l old).after c (s.actMask o.s l))

/-- The operand of an atomic: B, of the type's width. -/
def atomData (s : State) (o : Ops) (l n : Nat) : BitVec 128 :=
  (reader s.pre o l (if n = 8 then .n else .w) .b).zeroExtend 128

/-- The spans of an atomic. -/
def atomSpans (n space : Nat) : Spans := { d := regsFor n, a := addrRegs space, b := regsFor n }

/-- ATOM (R353, R354). -/
def atomAct (o : Ops) (c : Ctl) : Act :=
  let n := typeBytes c.type.toNat
  { gather := fun s l => (addrA c.space (reader s.pre o l), atomData s o l n)
    body := atomicBody o c n (fun b old => some (atomOp c.sub.toNat c.type.toNat old b.toNat))
      (fun s l old => s.dst (.atom o c) o l (regsFor n) old) }
def execAtom (o : Ops) (c : Ctl) (s : State) : Answer :=
  acting (.atom o c) o (atomSpans (typeBytes c.type.toNat) c.space) (atomAct o c) s

/-- RED (R433, R434): ATOM without the write of D, performed now or left to wait like a store. -/
def redAct (o : Ops) (c : Ctl) : Act :=
  let n := typeBytes c.type.toNat
  { gather := fun s l => (addrA c.space (reader s.pre o l), atomData s o l n)
    body := fun s l addr data =>
      match (s.before c).place c.space 2 n addr data with
      | (s, .error e) => stop s e
      | (s, .ok p) =>
        let m := s.actMask o.s l
        done (if s.cur.lazy then s.deferReduction m p c.sub.toNat c.type.toNat c.scope.toNat data.toNat
              else (s.meet s.cur.wave m p n).reduceOn s.coreNo p c.sub.toNat c.type.toNat c.scope.toNat data.toNat) }
def execRed (o : Ops) (c : Ctl) (s : State) : Answer :=
  acting (.red o c) o (atomSpans (typeBytes c.type.toNat) c.space) (redAct o c) s

/-- CAS (R369): compare value in [63:0] of the log, swap value in [127:64] (R224). -/
def casAct (o : Ops) (c : Ctl) : Act :=
  let n := typeBytes c.type.toNat
  { gather := fun s l =>
      (addrA c.space (reader s.pre o l), BitVec.ofNat 128 (readRegs s.pre o l (regsFor n)) ||| (atomData s o l n <<< 64))
    body := atomicBody o c n
      (fun d old => if old = d.toNat % 2 ^ 64 then some (d.toNat / 2 ^ 64) else none)
      (fun s l old => s.dst (.cas o c) o l (regsFor n) old) }
def execCas (o : Ops) (c : Ctl) (s : State) : Answer :=
  acting (.cas o c) o (atomSpans (typeBytes c.type.toNat) c.space) (casAct o c) s

/-- FENCE (R398): the waits of its scope end within its step (log entry 10). -/
def execFence (o : Ops) (c : Ctl) (s : State) : Answer :=
  .next (s.run (.fence o c) { d := 1, a := 1, b := 1 } fun s => ((s.before c).after c s.mask).advance s.mask)

/-! ## Lines: PF, CINV, CWB (R370, R421) -/

/-- The physical address that a lane's line instruction names; none where it does not translate. -/
def State.lineAt (s : State) (o : Ops) (l : Nat) : State × Option Nat :=
  match s.translate s.coreNo s.ctxNo (addrAB 0 (reader s.pre o l)) 0 with
  | (s, .ok pa) => (s, some (pa / 128))
  | (s, .error _) => (s, none)

/-- An act on each lane's line that never stops. -/
def onLines (i : Instr) (o : Ops) (f : State → BitVec 32 → Nat → State) (s : State) : Answer :=
  .next (s.run i { d := 1, a := 2, b := 1 } fun s => s.lanewise i o.s false fun s l =>
    match s.lineAt o l with
    | (s, some line) => done (f s (s.actMask o.s l) line)
    | (s, none) => done s)

/-- PF (R421). -/
def execPf (o : Ops) (s : State) : Answer := onLines (.pf o) o (fun s _ line => s.l1Fill s.coreNo line) s

/-- A line instruction comes after the earlier accesses of its lanes to the line, and before their later ones (R370). -/
def State.meetLine (s : State) (m : BitVec 32) (line : Nat) : State := s.meet s.cur.wave m (.mem (line * 128)) 128

/-- CWB (R370). -/
def execCwb (o : Ops) (s : State) : Answer := onLines (.cwb o) o (fun s m line => (s.meetLine m line).l1Clean s.coreNo line) s

/-- CINV (R370). -/
def execCinv (o : Ops) (s : State) : Answer := onLines (.cinv o) o (fun s m line => (s.meetLine m line).l1Evict s.coreNo line) s

/-! ## The spill stack (R80, R423, R424) -/

/-- Where the word of a lane lies in the slot at an offset: in the wave's part of the context image. -/
def Wave.spillWord (w : Wave) (ssp l : Nat) : Nat := w.spillAt.toNat + ssp + 4 * l

/-- A lane's word onto the slot at an offset, through the L1: a plain access of its own (R195). -/
def State.pushLane (s : State) (o : Ops) (ssp l : Nat) : State :=
  s.writeFor (1#32 <<< l) (.mem (s.pre.spillWord ssp l)) (toBytes 4 (readRegs s.pre o l 1)) false

/-- A lane's word from the slot at an offset; a poisoned one traps (R241), with its physical address in TADDR (log entry 64). -/
def State.popLane (s : State) (o : Ops) (ssp l : Nat) : Acted :=
  let a := s.pre.spillWord ssp l
  match s.poisonAt a 4 with
  | some info => stop s (.trap 0x12 (BitVec.ofNat 32 info) (BitVec.ofNat 64 a))
  | none =>
    let r := s.readFor (1#32 <<< l) (.mem a) 4 false
    done (r.1.dst (.popv o) o l 1 (fromBytes r.2))

/-- PUSHV (R423). -/
def execPushv (o : Ops) (s : State) : Answer :=
  .next (s.run (.pushv o) { d := 1, a := 1, b := 1 } fun s =>
    let ssp := s.pre.ssp
    if s.pre.sslim < ssp + 128 then s.fault s.mask 0x10 (BitVec.ofNat 32 ssp) 0
    else
      let s := (lanesOf s.mask).foldl (fun s l => s.pushLane o ssp l) s
      (s.modWave s.cur.wave fun w => { w with ssp := ssp + 128 }).advance s.mask)

/-- POPV (R423): SSP moves for the wave whatever its lanes read. -/
def execPopv (o : Ops) (s : State) : Answer :=
  .next (s.run (.popv o) { d := 1, a := 1, b := 1 } fun s =>
    let ssp := s.pre.ssp
    if ssp < 128 then s.fault s.mask 0x10 (BitVec.ofNat 32 ssp) 0
    else
      (s.modWave s.cur.wave fun w => { w with ssp := ssp - 128 }).lanewise (.popv o) false false fun s l => s.popLane o (ssp - 128) l)

end Sys2Proof.Machine
end

