-- ==== Sys2Proof/Machine/Control.lean ====
section
/-! DEFINITION. Control flow, joins, exit and the waits of class 4 (R46 to R48, R72, R247, R362, R364, R367, R368, R391,
R402, R403, R418, R438, R448, R456 to R458, R477). -/
namespace Sys2Proof.Machine

/-- Spans of an instruction of 32-bit operands. -/
def spans1 : Spans := { d := 1, a := 1, b := 1 }

/-- An address a signed number of words away (R112, R113). -/
def wordsFrom (pc : DWord) (off : DWord) : DWord := pc + (off <<< 2)

/-! ## Branches, calls and returns -/

/-- BR (R362). -/
def execBr (off : BitVec 22) (s : State) : Answer :=
  .next (s.run (.br off) spans1 fun s => s.jump s.mask (wordsFrom s.cur.pc (off.signExtend 64)))

/-- BRC (R362): each lane whose C is not zero branches. -/
def execBrc (cond : Code) (off : BitVec 15) (s : State) : Answer :=
  .next (s.run (.brc cond off) spans1 fun s =>
    let taken := maskOf ((lanesOf s.mask).filter fun l => readV s.pre l 0 .w cond != 0)
    (s.jump (s.mask &&& taken) (wordsFrom s.cur.pc (off.signExtend 64))).advance (s.mask &&& ~~~ taken))

/-- The act of BRX (R247, R364): bound, alignment, entry, target. -/
def brxAct (o : Ops) (c : Ctl) : Act :=
  let abs := c.sub == 1#4
  let n := if abs then 8 else 4
  { gather := fun s l =>
      (readV s.pre l o.lit .n o.b + BitVec.ofNat 64 n * readV s.pre l o.lit .w o.a, (readV s.pre l o.lit .w o.a).zeroExtend 128)
    body := fun s l addr data =>
      if c.spec.toNat % 65536 ≤ data.toNat then stop s (.trap 8 (BitVec.ofNat 32 l) 0)
      else
        match s.place 0 0 n addr data with
        | (s, .error e) => stop s e
        | (s, .ok p) =>
          match s.loadAt false l p n false false with
          | (s, none) => done s
          | (s, some v) =>
            let target := if abs then BitVec.ofNat 64 v else s.cur.pc + (BitVec.ofNat 32 v).signExtend 64
            if target.toNat % 4 ≠ 0 then stop s (.trap 4 4 target)
            else done (s.jump (1#32 <<< l) target)
    moves := true }

/-- BRX (R247, R364). -/
def execBrx (o : Ops) (c : Ctl) (s : State) : Answer :=
  acting (.brx o c) o { d := 1, a := 1, b := 2 } (brxAct o c) s

/-- CALL (R367): the return address to window codes 94 and 95. -/
def execCall (off : BitVec 22) (s : State) : Answer :=
  .next (s.run (.call off) spans1 fun s =>
    let s := (lanesOf s.mask).foldl (fun s l => s.writeLane s.pre.vb l 94 2 s.nextPc.toNat) s
    s.jump s.mask (wordsFrom s.cur.pc (off.signExtend 64)))

/-- Go to each lane's own target, trapping where its bits [1:0] are not zero; `f` is done in each lane that goes. -/
def State.goEach (s : State) (i : Instr) (target : Nat → DWord) (f : State → Nat → State) : State :=
  s.lanewise i false true fun s l =>
    if (target l).toNat % 4 ≠ 0 then stop s (.trap 4 4 (target l))
    else done ((f s l).jump (1#32 <<< l) (target l))

/-- CALLX (R368). -/
def execCallx (o : Ops) (s : State) : Answer :=
  .next (s.run (.callx o) { d := 2, a := 2, b := 1 } fun s =>
    let w := s.pre
    s.goEach (.callx o) (fun l => readV w l o.lit .n o.a) fun s l => s.writeLane w.vb l o.d 2 s.nextPc.toNat)

/-- RET (R438). -/
def execRet (o : Ops) (s : State) : Answer :=
  .next (s.run (.ret o) { d := 1, a := 2, b := 1 } fun s =>
    let w := s.pre
    s.goEach (.ret o) (fun l => readV w l o.lit .n o.a) fun s _ => s)

/-! ## Joins -/

/-- JENR (R46, R403). -/
def execJenr (o : Ops) (s : State) : Answer :=
  .next (s.run (.jenr o) spans1 fun s =>
    let n := o.a.toNat
    let j := s.w.join n
    let j := { enrolled := j.enrolled ||| s.mask, arrived := if j.enrolled = 0 then 0 else j.arrived : Join }
    (s.modWave s.cur.wave fun w => { w with joins := w.joins.put n j }).advance s.mask)

/-- JWAIT (R46, R48, R403). -/
def execJwait (o : Ops) (s : State) : Answer :=
  .next (s.run (.jwait o) spans1 fun s =>
    let n := o.a.toNat
    let j := s.w.join n
    let m := s.mask &&& j.enrolled
    let s := s.modWave s.cur.wave fun w =>
      if m = 0 then w
      else ({ w with joins := w.joins.put n { j with arrived := j.arrived ||| m } }).completeJoin n m
    if m ≠ 0 ∧ (s.w.joins.find? n).isSome then
      let s := s.advance (s.mask &&& ~~~ m)
      (s.modLanes s.cur.wave m fun _ l => { l with life := .held n s.nextPc }).deadlock s.cur.wave
    else s.advance s.mask)

/-- One lane's arrival at SYNCW (R457). -/
def State.syncLane (s : State) (mask : BitVec 32) (order : BitVec 2) (l : Nat) : Acted :=
  if mask.getLsbD l = false then stop s (.trap 0x0B 1 0)
  else if (match s.w.sync.pending with
           | some p => p != (mask, order)
           | none => false) then stop s (.trap 0x0B 2 0)
  else
    let next := s.nextPc
    let s := s.modWave s.cur.wave fun w =>
      { w with sync := { pending := some (mask, order), arrived := (if w.sync.pending.isSome then w.sync.arrived else 0) ||| (1#32 <<< l) } }
    let s := s.modLane s.cur.wave l fun x => { x with life := .held 4 next }
    done (s.modWave s.cur.wave fun w => w.completeSync (1#32 <<< l))

/-- SYNCW (R456, R457, R48); its order is kept by State.orderAccesses before it acts. -/
def execSyncw (o : Ops) (c : Ctl) (s : State) : Answer :=
  .next (s.run (.syncw o c) spans1 fun s =>
    let w := s.pre
    let s := s.lanewise (.syncw o c) false true fun s l =>
      s.syncLane ((readV w l o.lit .w o.a).extractLsb' 0 32) c.order l
    (s.brokenSync s.cur.wave).deadlock s.cur.wave)

/-! ## Exit -/

/-- A wave with no live lane ends (R34), and with a team's last wave its spawn bins fire at once (R391). -/
def State.endWave (s : State) (k : Nat) : State :=
  if (s.wave k).live ≠ 0 then s
  else
    let t := k / 64
    let s := s.dropWave k
    if (s.wavesOf t).isEmpty then
      s.modCore (s.team t).core fun c => { c with bins := c.bins.mapAll fun _ b => if b.team = t then { b with fired := true } else b }
    else s

/-- EXIT (R391). -/
def execExit (o : Ops) (s : State) : Answer :=
  .next (s.run (.exit o) spans1 fun s =>
    let k := s.cur.wave
    ((s.exitLanes k s.mask).deadlock k).endWave k)

/-! ## The window, and doing nothing -/

/-- Whether WBASE accepts a base: all ones keeps it (R72). -/
def baseOk (v : Word) (limit : Nat) : Bool := v == -1 || (v.toNat % 16 == 0 && v.toNat ≤ limit)

/-- WBASE (R72). -/
def execWbase (o : Ops) (s : State) : Answer :=
  .next (s.run (.wbase o) spans1 fun s =>
    let w := s.pre
    let va := lo32 (readS w o.lit .w o.a)
    let sa := lo32 (readS w o.lit .w o.b)
    if baseOk va 416 && baseOk sa 160 then
      let s := s.modWave s.cur.wave fun w => { w with vb := if va = -1 then w.vb else va.toNat, sb := if sa = -1 then w.sb else sa.toNat }
      (s.writeWave w.sb o.d 1 (w.sb * 65536 + w.vb)).advance s.mask
    else s.fault s.mask 2 0 0)

/-- NOP (R418). -/
def execNop (o : Ops) (s : State) : Answer := .next (s.run (.nop o) spans1 fun s => s.advance s.mask)

/-- YIELD (R477): step 3 of R321 takes the wave as if placed now, and a critical wave goes to the end of the critical order. -/
def execYield (o : Ops) (s : State) : Answer :=
  .next (s.run (.yield o) spans1 fun s =>
    let k := s.cur.wave
    let s := s.modWave k fun w => { w with order := s.clk }
    let s := s.modCore s.coreNo fun c => if c.crit.contains k then { c with crit := c.crit.filter (· != k) ++ [k] } else c
    s.advance s.mask)

/-- SLEEP (R448): each lane waits for its own count of clk. -/
def execSleep (o : Ops) (s : State) : Answer :=
  .next (s.run (.sleep o) spans1 fun s =>
    let w := s.pre
    s.lanewise (.sleep o) false false fun s l =>
      let c := (readV w l o.lit .w o.a).toNat
      if c = 0 then done s else stop s (.block (.sleep (s.clk + c) s.nextPc)))

end Sys2Proof.Machine
end

