-- ==== Sys2Proof/Machine/Barriers.lean ====
section
/-! DEFINITION. The barrier instructions, the timeline counters and the critical mark of class 6 (R135, R210, R213, R326,
R356 to R359, R377, R463, R466, R471). -/
namespace Sys2Proof.Machine

/-! ## Barrier instructions -/

/-- The space of a barrier instruction's object (R135). -/
def objSpace (c : Ctl) : Nat := c.sub.toNat % 4

/-- A poisoned object in a die's scratchpad stops a lane that comes to it (R241). -/
def State.unpoisoned (s : State) (o : ObjRef) (addr : DWord) : Except Stop ObjRef :=
  match o with
  | .die d off => if (s.die d).poisonAt off 32 then .error (.trap 0x12 2 addr) else .ok o
  | .team _ _ => .ok o

/-- The object at an offset, with the causes of R358: alignment, then the space, then the launch barrier, which only BARW may
name (R171, R358; log entry 65), and then poison (R241). -/
def State.object (s : State) (space : Nat) (k : Kind) (low : Bool) (off : DWord) : Except Stop ObjRef :=
  if off.toNat % 32 ≠ 0 then .error (.trap 4 32 off)
  else
    match s.objAt space s.tid off.toNat with
    | none => .error (outside k off)
    | some o => if space = 1 ∧ off.toNat < 32 ∧ low = false then .error (outside k off) else s.unpoisoned o off

/-- The offset that A names. -/
def offsetA (rd : Reader) : DWord := (lo32 (rd .w .a)).zeroExtend 64

/-- BARRIER_MISUSE with a reason (R358). -/
def misuse (reason : Word) (off : DWord) : Stop := .trap 0x0D reason off

/-- An act comes to an object: the accesses of its lanes to the object's bytes come first (R199). -/
def State.meetObject (s : State) (scalar : Bool) (l : Nat) (obj : ObjRef) : State := s.meet s.cur.wave (s.actMask scalar l) obj.place 32

/-- A barrier instruction: `f` of the state, the lane, the object and its offset. -/
def onObject (i : Instr) (o : Ops) (c : Ctl) (sp : Spans) (k : Kind) (low : Bool)
    (f : State → Nat → ObjRef → DWord → Acted) (s : State) : Answer :=
  .next (s.run i sp fun s =>
    s.lanewise i o.s false fun s l =>
      let off := offsetA (reader s.pre o l)
      match s.object (objSpace c) k low off with
      | .error e => stop s e
      | .ok obj => f (s.meetObject o.s l obj) l obj off)

/-- The fields that BARI sets (R357). -/
def Bar.init (b : Bar) (cnt : DWord) : Bar :=
  { phase := b.phase, expArr := cnt.toNat % 65536, arrived := 0, expBytes := (hi32 cnt).toNat, landed := 0,
    flags := if cnt.getLsbD 16 then 1 else 0, id := 0, target := 0 }

/-- BARI (R356, R357). -/
def execBari (o : Ops) (c : Ctl) (s : State) : Answer :=
  onObject (.bari o c) o c { d := 1, a := 1, b := 2 } 2 false (fun s l obj off =>
    let cnt := reader s.pre o l .n .b
    if cnt.toNat % 65536 = 0 ∧ hi32 cnt = 0 then stop s (misuse 1 off)
    else done ({ s with arms := s.arms.filter (· != obj) }.updateBar obj fun b => b.init cnt)) s

/-- BARA (R357): one arrival, a release with order 2 or 3 (R214). -/
def execBara (o : Ops) (c : Ctl) (s : State) : Answer :=
  onObject (.bara o c) o c spans1 2 false (fun s _ obj _ => done ((s.before c).arrive obj)) s

/-- BARX (R357): new expected bytes and one arrival, in one update. -/
def execBarx (o : Ops) (c : Ctl) (s : State) : Answer :=
  onObject (.barx o c) o c spans1 2 false (fun s l obj _ =>
    let bytes := (reader s.pre o l .w .b).toNat
    done ((s.before c).updateBar obj fun b => (Bar.arrive { b with expBytes := bytes }).check)) s

/-- BARD (R357, R359): one arrival fewer to expect, always a release. -/
def execBard (o : Ops) (c : Ctl) (s : State) : Answer :=
  onObject (.bard o c) o c spans1 2 false (fun s _ obj off =>
    if (s.bar obj).expArr = 0 then stop s (misuse 2 off)
    else done ((s.release s.coreNo c.scope.toNat).updateBar obj fun b => Bar.check { b with expArr := b.expArr - 1 })) s

/-- What the end of a wait on an object acquires (R196): 0 nothing, 1 without dropping a line, 2 at die scope or wider. That is what order and
scope say, but device scope where the object has been armed for a counter (R210), or where order 1 or 3 observes a graph's completion,
whatever the scope (R328). -/
def State.waitAcquires (s : State) (c : Ctl) (obj : ObjRef) : Nat :=
  if (s.bar obj).target ≠ 0 then 2
  else if acquires c then (if 3 ≤ c.scope.toNat || s.graphBars.contains obj then 2 else 1)
  else 0

/-- The acquire after a wait of lanes on an object. -/
def State.afterWait (s : State) (c : Ctl) (obj : ObjRef) (m : BitVec 32) : State :=
  match s.waitAcquires c obj with
  | 0 => s
  | 1 => s.forget s.cur.wave m
  | _ => (s.l1DropClean s.coreNo).forget s.cur.wave m

/-- BARW (R357, R214): go on, or wait for the phase to pass. -/
def execBarw (o : Ops) (c : Ctl) (s : State) : Answer :=
  onObject (.barw o c) o c spans1 0 true (fun s l obj _ =>
    let p := lo32 (reader s.pre o l .w .b)
    if past (s.bar obj).phase p then done (s.afterWait c obj (s.actMask o.s l))
    else stop s (.block (.barw obj p (s.waitAcquires c obj) s.nextPc s.clk))) s

/-- BART (R357): whether the phase has passed. -/
def execBart (o : Ops) (c : Ctl) (s : State) : Answer :=
  onObject (.bart o c) o c spans1 0 false (fun s l obj _ =>
    let yes := past (s.bar obj).phase (lo32 (reader s.pre o l .w .b))
    let s := if yes then s.afterWait c obj (s.actMask o.s l) else s
    done (s.dst (.bart o c) o l 1 (if yes then 0xFFFFFFFF else 0))) s

/-! ## Timeline counters -/

/-- A bad identifier (R209, R219). -/
def badId (id : Word) : Stop := .trap 5 2 (id.zeroExtend 64)

/-- TLRD (R466): the counter's value, then an acquire at device scope. -/
def execTlrd (o : Ops) (s : State) : Answer :=
  .next (s.run (.tlrd o) { d := 2, a := 1, b := 1 } fun s =>
    s.lanewise (.tlrd o) o.s false fun s l =>
      let id := lo32 (reader s.pre o l .w .a)
      if idOk id s.ctxNo then done ((s.dst (.tlrd o) o l 2 (s.counter id)).acquire s.coreNo 4) else stop s (badId id))

/-- The die of an object. -/
def State.objDie (s : State) (o : ObjRef) : Nat :=
  match o with
  | .team t _ => (s.team t).core / Config.coresPerDie
  | .die d _ => d

/-- The barrier that the engine layout of a control word names (R134), with PROTECTION outside its space or in the launch
barrier. -/
def State.engineBar (s : State) (c : Ctl) : Except Stop (Option ObjRef) :=
  if c.barSpace = 0 then .ok none
  else
    let off := BitVec.ofNat 64 (c.barIndex * 32)
    match s.objAt c.barSpace s.tid (c.barIndex * 32) with
    | none => .error (outside 2 off)
    | some o => if c.barSpace = 1 ∧ c.barIndex = 0 then .error (outside 2 off) else .ok (some o)

/-- Arm an object for a counter, an update with its completion check (R212), and release it at once where the counter has reached the target
(R213, R463). -/
def State.arm (s : State) (obj : ObjRef) (id : Word) (target : Nat) : State :=
  let remote := if idDie id = s.objDie obj then 0 else 4
  let s := s.updateBar obj fun b => Bar.check { b with id := id, target := target, flags := (b.flags &&& ~~~ (6#32)) ||| 2 ||| remote }
  let s := { s with arms := s.arms.filter (· != obj) ++ [obj] }
  if target ≤ s.counter id then s.releaseArm obj else s

/-- TLARM (R463). -/
def execTlarm (o : Ops) (c : Ctl) (s : State) : Answer :=
  .next (s.run (.tlarm o c) { d := 1, a := 1, b := 2 } fun s =>
    s.lanewise (.tlarm o c) o.s false fun s l =>
      let id := lo32 (reader s.pre o l .w .a)
      if !idOk id s.ctxNo then stop s (badId id)
      else
        match s.engineBar c with
        | .error e => stop s e
        | .ok none => done s
        | .ok (some obj) =>
          match s.unpoisoned obj (BitVec.ofNat 64 (c.barIndex * 32)) with
          | .error e => stop s e
          | .ok obj => done ((s.meetObject o.s l obj).arm obj id (reader s.pre o l .n .b).toNat))

/-! ## The critical mark -/

/-- CRIT (R377): the wave joins the end of the critical order. -/
def execCrit (o : Ops) (s : State) : Answer :=
  .next (s.run (.crit o) spans1 fun s =>
    (s.modCore s.coreNo fun x => { x with crit := addOnce s.cur.wave x.crit }).advance s.mask)

/-- UNCRIT (R471). -/
def execUncrit (o : Ops) (s : State) : Answer :=
  .next (s.run (.uncrit o) spans1 fun s =>
    (s.modCore s.coreNo fun x => { x with crit := x.crit.filter (· != s.cur.wave) }).advance s.mask)

end Sys2Proof.Machine
end

