-- ==== Sys2Proof/Machine/Engines.lean ====
section
/-! DEFINITION. Issuing engine commands (R134, R290 to R292, R298, R299, R335, R374, R376, R415, R416): the checks of a
command, its records, its number and its queue. -/
namespace Sys2Proof.Machine

/-! ## Checks of R291 -/

/-- An operand or a record value out of its command's limits (R219): 1 operand A, 2 operand B, 3 a record field. -/
def outOfLimits (v : Nat) : Stop := .trap 5 (BitVec.ofNat 32 (v * 8)) 0

/-- An operand offset that is not a multiple of the alignment its command requires. -/
def misaligned (n : Nat) (addr : DWord) : Stop := .trap 4 (BitVec.ofNat 32 n) addr

/-- Whether an entry of the slot table admits a context (R304). -/
def admits (e : Word) (ctx : Nat) : Bool := e.getLsbD 4 || (e.extractLsb' 0 4).toNat == ctx

/-- The entry of a core's slot table. -/
def Core.slotEntry (x : Core) (i : Nat) : Word := x.slottab.get i 0x10

/-- Checks 1 and 2 of R291: FEATMASK, for a matrix command and for a 4-bit format, and the slot table. -/
def State.engineOpen (s : State) (matrix fourBit : Bool) : Bool :=
  let f := (s.ctx s.ctxNo).featmask
  (!matrix || f.getLsbD 0) && (!fourBit || f.getLsbD 1) &&
    (List.range 64).any fun i => admits ((s.core s.coreNo).slotEntry i) s.ctxNo

/-- The range of n bytes at a scratchpad offset, as the engine names it: in team memory above the launch barrier, or in the
context's window, as an offset of the die (R291 check 5). -/
def State.range (s : State) (space off n : Nat) : Option Nat :=
  if space = 1 then if 32 ≤ off then s.teamOffset s.tid off n else none
  else s.dieOffset s.dieNo s.ctxNo off n

/-- A record of n bytes in the issuing team's memory (R291). -/
def State.recordAt (s : State) (off n : Nat) : Option (List Byte) :=
  (s.teamOffset s.tid off n).map fun o => s.tmemRead s.tid o n

/-! ## Tensor descriptors and records (R298, R299) -/

/-- Bytes of an element-size code. -/
def esizeOf (code : Nat) : Option Nat := [1, 2, 4, 8, 14, 16, 22, 34][code]?

/-- The element or block size of a matrix format code that a descriptor may name. -/
def formatBytes (fmt : Nat) : Option Nat :=
  match fmt with
  | 0 => some 2 | 1 => some 2 | 2 => some 1 | 3 => some 1 | 5 => some 14 | 6 => some 22 | 7 => some 34 | 8 => some 1 | _ => none

/-- A descriptor from its 128 bytes; none where a value breaks a limit of R298. -/
def parseDesc (b : List Byte) : Option Desc :=
  match esizeOf (fld b 9 1) with
  | none => none
  | some es =>
    let rank := fld b 8 1
    let sizes := (List.range 9).map fun d => fld b (16 + 4 * d) 4
    let strides := (List.range 8).map fun d => fld b (56 + 8 * d) 8
    let sizesOk := (List.range 9).all fun d => if d < rank then 1 ≤ sizes.getD d 0 else sizes.getD d 0 == 1
    if 1 ≤ rank ∧ rank ≤ 9 ∧ (fld b 10 1 = 0xFF ∨ formatBytes (fld b 10 1) = some es) ∧ fld b 11 1 = 0 ∧ fld b 12 4 = 0 ∧
        sizesOk ∧ fld b 52 4 = 0 ∧ strides.all (· % es == 0) ∧ fld b 120 8 = 0 ∧ canonical (BitVec.ofNat 64 (fld b 0 8)) then
      some { base := BitVec.ofNat 64 (fld b 0 8), rank := rank, esize := es, sizes := sizes, strides := strides }
    else none

/-- A box record: origin, extent and scratchpad offset; none where a value breaks a limit of R299. -/
def parseBox (b : List Byte) (rank : Nat) : Option (List Nat × List Nat × Nat) :=
  let origin := (List.range 9).map fun d => fld b (4 * d) 4
  let extent := (List.range 9).map fun d => fld b (36 + 4 * d) 4
  let ok := (List.range 9).all fun d => if d < rank then 1 ≤ extent.getD d 0 else extent.getD d 0 == 1
  if ok ∧ fld b 76 4 = 0 then some (origin, extent, fld b 72 4) else none

/-! ## Queues (R290) -/

/-- Commands that wait in a queue: an entry frees when its command starts. -/
def queued (q : List Cmd) : Nat := (q.filter fun c => !c.started).length

/-- The command of a lane: scalar forms issue one for the group (R290, R142). -/
def State.newCmd (s : State) (o : Ops) (c : Ctl) (l num : Nat) (bar : Option ObjRef) (op : CmdOp) : Cmd :=
  { num := num, team := s.tid, ctx := s.ctxNo, wave := s.cur.wave, lanes := if o.s then s.mask else 1#32 <<< l,
    scope := c.scope.toNat, bar := bar, op := op, pc := s.cur.pc, started := false, finished := false, pos := 0, tag := none, va := 0, ended := false }

/-- An order-2 command releases before the engine reads, and writes back the L1 whatever its scope (R210). -/
def State.engineRelease (s : State) (c : Ctl) : State :=
  if c.order = 2#2 then s.release s.coreNo (max 3 c.scope.toNat) else s

/-- Queue a copy command, or wait for an entry. -/
def State.issueCopy (s : State) (i : Instr) (o : Ops) (c : Ctl) (l : Nat) (bar : Option ObjRef) (op : CmdOp) : Acted :=
  let q := s.copyCtx s.coreNo s.ctxNo
  if 16 ≤ queued q.queue then stop s (.block (.queue (some s.ctxNo)))
  else
    let n := q.issued + 1
    let s := s.engineRelease c
    let s := s.modCopy s.coreNo s.ctxNo fun q => { q with issued := n, queue := q.queue ++ [s.newCmd o c l n bar op] }
    done (s.dst i o l 1 (n % 2 ^ 32))

/-- Queue a matrix command, or wait for an entry. -/
def State.issueMatrix (s : State) (i : Instr) (o : Ops) (c : Ctl) (l : Nat) (bar : Option ObjRef) (op : CmdOp) : Acted :=
  let x := s.core s.coreNo
  if 16 ≤ queued x.mq then stop s (.block (.queue none))
  else
    let n := x.mIssued + 1
    let s := s.engineRelease c
    let s := s.modCore s.coreNo fun x => { x with mIssued := n, mq := x.mq ++ [s.newCmd o c l n bar op] }
    done (s.dst i o l 1 (n % 2 ^ 32))

/-! ## Copies (R376) -/

/-- The space of a copy's scratchpad: 1 team memory, 2 die scratchpad (R134). -/
def copySpace (i : Instr) (c : Ctl) : Nat :=
  match i with
  | .cpyr _ _ => if c.sub.getLsbD 3 then 2 else 1
  | _ => if c.sub = 0#4 then 1 else 2

/-- One lane's box copy: checks 1 to 5 of R291, then its queue. -/
def boxCopy (i : Instr) (o : Ops) (c : Ctl) (kind : Nat) (s : State) (l : Nat) : Acted :=
  let a := offsetA (reader s.pre o l)
  let b := (lo32 (reader s.pre o l .w .b)).zeroExtend 64
  let space := copySpace i c
  if !s.engineOpen false false then stop s (.trap 5 4 0)
  else
    match s.engineBar c with
    | .error e => stop s e
    | .ok bar =>
      if a.toNat % 128 ≠ 0 then stop s (misaligned 128 a)
      else if b.toNat % 16 ≠ 0 then stop s (misaligned 16 b)
      else
        match s.recordAt a.toNat 128, s.recordAt b.toNat 80 with
        | none, _ => stop s (outOfLimits 1)
        | _, none => stop s (outOfLimits 2)
        | some db, some bb =>
          match parseDesc db with
          | none => stop s (outOfLimits 3)
          | some d =>
            match parseBox bb d.rank with
            | none => stop s (outOfLimits 3)
            | some (origin, extent, off) =>
              let typeOk := kind != 3 || d.esize == typeBytes (if c.type.toNat = 10 then 10 else if c.type.toNat = 4 then 4 else 2)
              match s.range space off (boxBytes d extent) with
              | none => stop s (outOfLimits 3)
              | some off =>
                if !typeOk then stop s (outOfLimits 3)
                else s.issueCopy i o c l bar (.box kind (c.sub.toNat % 8) c.type.toNat space d origin extent off)

/-- A command instruction: one act in each lane, or one for the wave. -/
def commanding (i : Instr) (o : Ops) (sp : Spans) (f : State → Nat → Acted) (s : State) : Answer :=
  .next (s.run i sp fun s => s.lanewise i o.s false f)

/-- CPY (R300). -/
def execCpy (o : Ops) (c : Ctl) (s : State) : Answer := commanding (.cpy o c) o spans1 (boxCopy (.cpy o c) o c 0) s

/-- CPYS (R300). -/
def execCpys (o : Ops) (c : Ctl) (s : State) : Answer := commanding (.cpys o c) o spans1 (boxCopy (.cpys o c) o c 2) s

/-- CPYR (R300). -/
def execCpyr (o : Ops) (c : Ctl) (s : State) : Answer := commanding (.cpyr o c) o spans1 (boxCopy (.cpyr o c) o c 3) s

/-- One lane's gather. -/
def gatherCopy (i : Instr) (o : Ops) (c : Ctl) (s : State) (l : Nat) : Acted :=
  let a := offsetA (reader s.pre o l)
  let b := (lo32 (reader s.pre o l .w .b)).zeroExtend 64
  let space := copySpace i c
  let isize := if c.type = 7#4 then 8 else 4
  if !s.engineOpen false false then stop s (.trap 5 4 0)
  else
    match s.engineBar c with
    | .error e => stop s e
    | .ok bar =>
      if a.toNat % 128 ≠ 0 then stop s (misaligned 128 a)
      else if b.toNat % 16 ≠ 0 then stop s (misaligned 16 b)
      else
        match s.recordAt a.toNat 128, s.recordAt b.toNat 16 with
        | none, _ => stop s (outOfLimits 1)
        | _, none => stop s (outOfLimits 2)
        | some db, some rb =>
          match parseDesc db with
          | none => stop s (outOfLimits 3)
          | some d =>
            let list := fld rb 0 4
            let count := fld rb 4 4
            if d.rank ≠ 2 ∨ list % isize ≠ 0 ∨ count < 1 ∨ 65536 < count ∨ fld rb 12 4 ≠ 0 then stop s (outOfLimits 3)
            else
              match s.range 1 list (count * isize), s.range space (fld rb 8 4) (count * d.sizes.getD 0 0 * d.esize) with
              | some lo, some off =>
                let index := (List.range count).map fun j => fromBytes (s.tmemRead s.tid (lo + j * isize) isize)
                s.issueCopy i o c l bar (.gather space d index off)
              | _, _ => stop s (outOfLimits 3)

/-- CPYG (R300). -/
def execCpyg (o : Ops) (c : Ctl) (s : State) : Answer := commanding (.cpyg o c) o spans1 (gatherCopy (.cpyg o c) o c) s

/-! ## Matrix commands (R415, R416) -/

/-- Checks 1 to 3 of R291 for a matrix command. -/
def State.matrixChecks (s : State) (c : Ctl) (fourBit : Bool) : Except Stop (Option ObjRef) :=
  if !s.engineOpen true fourBit then .error (.trap 5 4 0) else s.engineBar c

/-- The 4-bit formats of FEATMASK bit 1. -/
def fourBit (fmt : Nat) : Bool := fmt == 4 || fmt == 5

/-- One lane's MXW (R294). -/
def mxwLane (o : Ops) (c : Ctl) (s : State) (l : Nat) : Acted :=
  let a := offsetA (reader s.pre o l)
  let b := (lo32 (reader s.pre o l .w .b)).zeroExtend 64
  let fmt := c.type.toNat
  let fold := c.sub.getLsbD 1
  match s.matrixChecks c (fourBit fmt) with
  | .error e => stop s e
  | .ok bar =>
    if a.toNat % 128 ≠ 0 then stop s (misaligned 128 a)
    else if fold ∧ b.toNat % 16 ≠ 0 then stop s (misaligned 16 b)
    else if !fold && b != 0 then stop s (outOfLimits 2)
    else if (s.range 1 a.toNat (tileBytes fmt)).isNone then stop s (outOfLimits 1)
    else if fold && (s.range 1 b.toNat 512).isNone then stop s (outOfLimits 2)
    else s.issueMatrix (.mxw o c) o c l bar (.mxw (c.sub.getLsbD 0) fold fmt a.toNat b.toNat)

/-- MXW (R294). -/
def execMxw (o : Ops) (c : Ctl) (s : State) : Answer := commanding (.mxw o c) o spans1 (mxwLane o c) s

/-- One lane's MXS (R295). -/
def mxsLane (o : Ops) (c : Ctl) (s : State) (l : Nat) : Acted :=
  let a := offsetA (reader s.pre o l)
  let b := (reader s.pre o l .w .b).toNat
  let fmt := c.type.toNat
  let row0 := b % 256
  let m := b / 256 % 256 + 1
  let k := (b / 65536 % 8 + 1) * 16
  match s.matrixChecks c (fourBit fmt) with
  | .error e => stop s e
  | .ok bar =>
    if a.toNat % 16 ≠ 0 then stop s (misaligned 16 a)
    else if b / 2 ^ 19 ≠ 0 ∨ 256 < row0 + m ∨ (blockFormat fmt ∧ k % 32 ≠ 0) then stop s (outOfLimits 2)
    else if (s.range 1 a.toNat (m * rowBytes fmt k)).isNone then stop s (outOfLimits 1)
    else s.issueMatrix (.mxs o c) o c l bar
      (.mxs fmt (c.sub.toNat % 4) (c.sub.getLsbD 2) (c.sub.getLsbD 3) a.toNat row0 m k)

/-- MXS (R295). -/
def execMxs (o : Ops) (c : Ctl) (s : State) : Answer := commanding (.mxs o c) o spans1 (mxsLane o c) s

/-- The space of a drain: 1 team memory, 2 die scratchpad, 0 global (R134). -/
def drainSpace (c : Ctl) : Nat := match c.sub.toNat / 4 with | 0 => 1 | 1 => 2 | _ => 0

/-- One lane's MXD (R296). -/
def mxdLane (o : Ops) (c : Ctl) (s : State) (l : Nat) : Acted :=
  let space := drainSpace c
  let a := addrA space (reader s.pre o l)
  let b := (reader s.pre o l .w .b).toNat
  let row0 := b % 256
  let m := b / 256 % 256 + 1
  let row := 128 * drainBytes c.type.toNat
  let stride := if b / 65536 = 0 then row else b / 65536 * 128
  let dest := if space = 0 then some a.toNat else s.range space a.toNat ((m - 1) * stride + row)
  match s.matrixChecks c false with
  | .error e => stop s e
  | .ok bar =>
    if a.toNat % 128 ≠ 0 then stop s (misaligned 128 a)
    else if 256 < row0 + m ∨ stride < row then stop s (outOfLimits 2)
    else
      match dest with
      | none => stop s (outOfLimits 1)
      | some off =>
        s.issueMatrix (.mxd o c) o c l bar (.mxd c.type.toNat (c.sub.toNat % 4) space (c.spec.getLsbD 18) off row0 m stride)

/-- MXD (R296). -/
def execMxd (o : Ops) (c : Ctl) (s : State) : Answer :=
  commanding (.mxd o c) o { d := 1, a := addrRegs (drainSpace c), b := 1 } (mxdLane o c) s

/-- MXZ (R297). -/
def execMxz (o : Ops) (c : Ctl) (s : State) : Answer :=
  commanding (.mxz o c) o spans1 (fun s l =>
    match s.matrixChecks c false with
    | .error e => stop s e
    | .ok bar => s.issueMatrix (.mxz o c) o c l bar (.mxz (c.sub.toNat % 4))) s

/-! ## Collectives (R335, R336, R374) -/

/-- Bytes of an element. -/
def collBytes (type : Nat) : Nat := if type = 8 ∨ type = 9 then 2 else 4

/-- Blocks that a member sends, and receives. -/
def sendBlocks (kind p : Nat) : Nat := if kind = 1 ∨ kind = 3 then p else 1
def recvBlocks (kind p : Nat) : Nat := if kind = 2 ∨ kind = 3 then p else 1

/-- Whether a contribution agrees with an instance. -/
def Coll.agrees (x : Coll) (c : CollStep) : Bool := c.kind == x.kind && c.type == x.type && c.n == x.n && c.p == x.p

/-- Whether an instance takes a contribution: the instance of the sender's number, while it lacks that rank; word of a failure, while it has not
failed (R336; log entry 63). -/
def Coll.takes (x : Coll) (tag : Word) (c : CollStep) : Bool :=
  x.tag == tag && x.ctx == c.ctx && x.inst == c.inst && (if c.p = 0 then !x.failed else x.steps.all fun y => y.rank != c.rank)

/-- An instance with a contribution, or with word of a failure. -/
def Coll.take (x : Coll) (c : CollStep) : Coll :=
  if c.p = 0 then { x with failed := true } else { x with steps := x.steps ++ [c], failed := x.failed || !x.agrees c }

/-- Give a contribution to the instance of a die that it is for; it waits where there is none yet (R27, R336). -/
def State.giveStep (s : State) (d : Nat) (tag : Word) (c : CollStep) : State :=
  match (s.die d).colls.find? fun x => x.takes tag c with
  | none => s.modDie d fun x => { x with collSteps := x.collSteps ++ [(tag, c)] }
  | some y => s.modDie d fun x => { x with colls := x.colls.map fun z => if z.num = y.num then z.take c else z }

/-- Take the contributions that came before an instance: the first of each rank. -/
def State.takeSteps (s : State) (d num : Nat) : State :=
  (s.die d).collSteps.foldl (fun s p =>
    if (s.die d).colls.any fun x => x.num == num && x.takes p.1 p.2 then
      s.modDie d fun x => { x with collSteps := x.collSteps.erase p, colls := x.colls.map fun z => if z.num = num then z.take p.2 else z }
    else s) s

/-- The members of an instance, but its own, that are dies of this module: the rank and the die of each. -/
def State.collPeers (s : State) (members : List Nat) (rank : Nat) : List (Nat × Nat) :=
  ((List.range members.length).filter fun j => j != rank && members.getD j 0 % 1024 == s.mod.modnum.toNat).map fun j =>
    (j, members.getD j 0 / 1024 % 4)

/-- Where a die counts the instances of a tag that a member of a context has issued. -/
def collKey (ctx rank : Nat) (tag : Word) : Nat := (tag.toNat * 16 + ctx) * 1024 + rank

/-- A member has ended an instance already, which had no part for a further member: they disagree on P or on the list (R336). -/
def State.collOver (s : State) (ctx rank d inst : Nat) (tag : Word) : Bool :=
  inst ≤ (s.die d).collCount.get (collKey ctx rank tag) 0 &&
    !(s.die d).colls.any fun x => x.tag == tag && x.ctx == ctx && x.inst == inst && x.rank == rank

/-- Read bytes of global memory for an act of a lane, byte ranges of at most a page at a time; `data` is what a parked lane logs beside the
address that it translates. A poisoned word traps (R241). -/
def State.readGlobal (s : State) (data : BitVec 128) : (fuel : Nat) → (addr : DWord) → (n : Nat) → State × Except Stop (List Byte)
  | 0, _, _ => (s, .ok [])
  | fuel + 1, addr, n =>
    if n = 0 then (s, .ok [])
    else
      let k := min n (4096 - addr.toNat % 4096)
      match s.translate s.coreNo s.ctxNo addr 0 with
      | (s, .error e) => (s, .error (e.stop 0 addr data))
      | (s, .ok pa) =>
        if !s.backedAll pa k then (s, .error (.trap 7 7 addr))
        else match s.poisonAt pa k with
        | some info => (s, .error (.trap 0x12 (BitVec.ofNat 32 info) addr))
        | none =>
        match s.readGlobal data fuel (addr + BitVec.ofNat 64 k) (n - k) with
        | (s, .error e) => (s, .error e)
        | (s, .ok bs) => (s, .ok (s.l2Read pa k ++ bs))

/-- One lane's COLL: the checks of R291, the member list, the number, and the contributions it gives its peers. A
parked lane logs the record's offset as its data. -/
def collBody (o : Ops) (c : Ctl) (s : State) (l : Nat) (_ : DWord) (data : BitVec 128) : Acted :=
  let a : DWord := data.extractLsb' 0 64
  match s.engineBar c with
  | .error e => stop s e
  | .ok bar =>
    if a.toNat % 64 ≠ 0 then stop s (misaligned 64 a)
    else
      match s.recordAt a.toNat 64 with
      | none => stop s (outOfLimits 1)
      | some r =>
        let n := fld r 16 4
        let p := fld r 20 2
        let rank := fld r 22 2
        let kind := c.sub.toNat
        if n < 1 ∨ 2 ^ 30 < n ∨ p < 2 ∨ 1024 < p ∨ p ≤ rank ∨ fld r 36 28 ≠ 0 then stop s (outOfLimits 3)
        else
          let s := s.engineRelease c
          match s.readGlobal data (p + 2) (BitVec.ofNat 64 (fld r 24 8)) (2 * p) with
          | (s, .error e) => stop s e
          | (s, .ok mb) =>
            let members := (List.range p).map fun j => fld mb (2 * j) 2
            if members.any (fun m => m / 4096 != 0) || (c.scope == 4#3 && members.any fun m => m % 1024 != s.mod.modnum.toNat) then
              stop s (outOfLimits 3)
            else
              let bytes := sendBlocks kind p * n * collBytes c.type.toNat
              match s.readGlobal data (bytes / 4096 + 2) (BitVec.ofNat 64 (fld r 0 8)) bytes with
              | (s, .error e) => stop s e
              | (s, .ok send) =>
                let d := s.dieNo
                let num := (s.die d).collIssued + 1
                let tag : Word := BitVec.ofNat 32 (fld r 32 4)
                let key := collKey s.ctxNo rank tag
                let inst := (s.die d).collCount.get key 0 + 1
                let mine : CollStep :=
                  { inst := inst, ctx := s.ctxNo, rank := rank, kind := kind, type := c.type.toNat, n := n, p := p, send := send }
                let lanes := if o.s then s.mask else 1#32 <<< l
                let peers := s.collPeers members rank
                let x : Coll :=
                  { num := num, team := s.tid, ctx := s.ctxNo, wave := s.cur.wave, lanes := lanes,
                    scope := c.scope.toNat, bar := bar, recv := BitVec.ofNat 64 (fld r 8 8), kind := kind, type := c.type.toNat,
                    n := n, p := p, rank := rank, tag := tag, members := members, steps := [mine],
                    failed := peers.any fun q => s.collOver s.ctxNo q.1 q.2 inst tag, pc := s.cur.pc, page := none, va := 0, ended := false,
                    inst := inst, core := s.coreNo, loc := s.location s.cur.wave (lowest lanes), teamId := BitVec.ofNat 32 s.tm.lin }
                let s := s.modDie d fun y => { y with collIssued := num, collCount := y.collCount.put key inst, colls := y.colls ++ [x] }
                let s := s.takeSteps d num
                let s := peers.foldl (fun s q => s.giveStep q.2 tag mine) s
                done (s.dst (.coll o c) o l 1 (num % 2 ^ 32))

/-- The act of COLL. -/
def collAct (o : Ops) (c : Ctl) : Act :=
  { gather := fun s l => (offsetA (reader s.pre o l), (offsetA (reader s.pre o l)).zeroExtend 128), body := collBody o c }

/-- COLL (R335, R374). -/
def execColl (o : Ops) (c : Ctl) (s : State) : Answer := acting (.coll o c) o spans1 (collAct o c) s

end Sys2Proof.Machine
end

