-- ==== Sys2Proof/Machine/Publication.lean ====
section
/-! DEFINITION. Publication of generated code (R258 to R268, R350, R401, R426, R439): PUBLISH, ADOPT, RETRACT and ICINV, and
the completion of a retraction. -/
namespace Sys2Proof.Machine

/-- The cores of a scope around a core (R265). -/
def coresOf (scope c : Nat) : List Nat :=
  match scope with
  | 2 => [c]
  | 3 => (List.range Config.coresPerDie).map (· + c / Config.coresPerDie * Config.coresPerDie)
  | _ => List.range Config.cores

/-- Whether a line of 128 bytes overlaps a range. -/
def overlaps (line base len : Nat) : Bool := line * 128 < base + len && base < (line + 1) * 128

/-- Keep the lines of a core's instruction cache that a property holds for. -/
def State.keepLines (s : State) (cores : List Nat) (keep : ICLine → Bool) : State :=
  { s with cores := s.cores.mapAll fun c x => if cores.contains c then { x with icache := x.icache.filter keep } else x }

/-- The region whose base an operand names: none is PROTECTION with TINFO = 1, a bad entry FATAL_FAULT (R259, R265). -/
def State.regionBase (s : State) (base : DWord) : Except Stop Nat :=
  match s.regionAt s.ctxNo base with
  | none => .error (.trap 5 1 base)
  | some r =>
    let x := s.region s.ctxNo r
    if x.base ≠ base.toNat then .error (.trap 5 1 base)
    else if x.bad then .error (.trap 7 7 base)
    else .ok r

/-- REGION_CLOSED for a region's base. -/
def closed (r : Nat) (base : DWord) : Stop := .trap 0x0A (BitVec.ofNat 32 r) base

/-- The spans of a publication instruction. -/
def baseSpans : Spans := { d := 1, a := 2, b := 1 }

/-- One lane's PUBLISH. -/
def publishLane (o : Ops) (c : Ctl) (s : State) (l : Nat) : Acted :=
  let base := reader s.pre o l .n .a
  match s.regionBase base with
  | .error e => stop s e
  | .ok r =>
    let x := s.region s.ctxNo r
    if x.state = 2 ∨ x.gen = 0xFFFFFFFE then stop s (closed r base)
    else
      let s := s.release s.coreNo c.scope.toNat
      let s := s.setRegion s.ctxNo r { x with gen := x.gen + 1, scope := c.scope.toNat, state := 2 }
      done (s.dst (.publish o c) o l 1 (x.gen + 1))

/-- PUBLISH (R265, R426). -/
def execPublish (o : Ops) (c : Ctl) (s : State) : Answer := commanding (.publish o c) o baseSpans (publishLane o c) s

/-- Adopt a generation of a region on a core, the least recently adopted entry leaving a full table (R263). -/
def Core.adoptRegion (x : Core) (ctx r : Nat) (g : Word) : Core :=
  { x with adopt := ({ ctx := ctx, region := r, gen := g : Adopt } :: x.adopt.filter fun a => !(a.ctx == ctx && a.region == r)).take 256 }

/-- One lane's ADOPT: every core of the scope acknowledges within the step (log entry 10). -/
def adoptLane (o : Ops) (c : Ctl) (s : State) (l : Nat) : Acted :=
  let base := reader s.pre o l .n .a
  let want := lo32 (reader s.pre o l .w .b)
  match s.regionBase base with
  | .error e => stop s e
  | .ok r =>
    let x := s.region s.ctxNo r
    if x.state ≠ 2 ∨ (want ≠ -1 ∧ want.toNat ≠ x.gen) then done (s.dst (.adopt o c) o l 1 0)
    else
      let g := BitVec.ofNat 32 x.gen
      let cores := coresOf c.scope.toNat s.coreNo
      let ctx := s.ctxNo
      let s := s.keepLines cores fun i => !(i.ctx == ctx && overlaps i.line x.base x.len && i.gen != g)
      let s := cores.foldl (fun s k => s.modCore k fun y => y.adoptRegion ctx r g) s
      done ((s.acquire s.coreNo c.scope.toNat).dst (.adopt o c) o l 1 x.gen)

/-- ADOPT (R265, R350). -/
def execAdopt (o : Ops) (c : Ctl) (s : State) : Answer := commanding (.adopt o c) o baseSpans (adoptLane o c) s

/-- One lane's RETRACT. -/
def retractLane (o : Ops) (c : Ctl) (s : State) (l : Nat) : Acted :=
  let base := reader s.pre o l .n .a
  match s.regionBase base with
  | .error e => stop s e
  | .ok r =>
    match s.engineBar c with
    | .error e => stop s e
    | .ok _ =>
      let x := s.region s.ctxNo r
      if x.state ≠ 2 ∨ x.pending then stop s (closed r base)
      else
        let s := s.setRegion s.ctxNo r
          { x with pgen := x.gen, bar := c.barSpace * 65536 + c.barIndex, pending := true, state := 3 }
        let who := (s.tid, s.dieNo)
        let s := s.modCtx s.ctxNo fun y => { y with retracts := y.retracts.put r who }
        done (s.dst (.retract o c) o l 1 x.gen)

/-- RETRACT (R265, R439). -/
def execRetract (o : Ops) (c : Ctl) (s : State) : Answer := commanding (.retract o c) o baseSpans (retractLane o c) s

/-- One lane's ICINV. -/
def icinvLane (o : Ops) (c : Ctl) (s : State) (l : Nat) : Acted :=
  let base := (reader s.pre o l .n .a).toNat
  let len := (reader s.pre o l .w .b).toNat
  let s := s.release s.coreNo c.scope.toNat
  let ctx := s.ctxNo
  done (if len = 0 then s
        else s.keepLines (coresOf c.scope.toNat s.coreNo) fun i => !(i.ctx == ctx && overlaps i.line base len))

/-- ICINV (R265, R267, R401). -/
def execIcinv (o : Ops) (c : Ctl) (s : State) : Answer := commanding (.icinv o c) o baseSpans (icinvLane o c) s

/-! ## Completion of a retraction (R268) -/

/-- Whether a pending retraction can complete: no die holds a resident of the generation. -/
def State.retractionReady (s : State) (ctx r : Nat) : Bool :=
  let x := s.region ctx r
  x.pending && s.dies.all fun p => p.2.resid.all fun y => !(y.ctx == ctx && y.region == r && y.gen.toNat == x.pgen)

/-- The recorded barrier of a retraction. -/
def State.retractBar (s : State) (ctx r : Nat) (bar : Nat) : Option ObjRef :=
  let who := (s.ctx ctx).retracts.get r (0, 0)
  let off := bar % 65536 * 32
  if bar / 65536 % 4 = 1 then some (.team who.1 off) else (s.dieOffset who.2 ctx off 32).map (ObjRef.die who.2)

/-- A retraction completes where no resident holds it back (R268): lines drop, the state updates, the barrier gets an arrival. -/
def State.completeRetraction (s : State) (ctx region : Nat) : State :=
  if s.retractionReady ctx region then
    let x := s.region ctx region
    let s := s.keepLines (List.range Config.cores) fun i =>
      !(i.ctx == ctx && i.gen.toNat == x.pgen && overlaps i.line x.base x.len)
    let s := s.setRegion ctx region { x with pending := false, state := if x.state = 3 then 4 else x.state }
    let bar := s.retractBar ctx region x.bar
    (s.modCtx ctx fun y => { y with retracts := y.retracts.del region }).arriveAt bar
  else s

/-- RETRACTION_COMPLETE (R268). -/
def execRetractionComplete (ctx region : Nat) (s : State) : Answer := .next (s.completeRetraction ctx region)

end Sys2Proof.Machine
end

