-- ==== Sys2Proof/Machine/Try.lean ====
section
/-! DEFINITION. Try regions (R273, R274, R281, R283 to R285, R347, R375, R468, R469): TRY, COMMIT, ABORT and TSTAT, and the
abort of a lane that a conflict has reached (R278). -/
namespace Sys2Proof.Machine

/-- A lane becomes a member (R273). -/
def Lane.enterTry (l : Lane) (waveMode : Bool) (target : DWord) : Lane :=
  { l with depth := 1, status := 0, waveMode := waveMode, target := target, belay := [], watch := [], pages := [], conflict := false }

/-- The register lines that a window spans (R71, R274). -/
def windowLines (vb sb : Nat) : List Nat :=
  (List.range 12).map (vline vb + ·) ++ (List.range (sline (sb + 95) - sline sb + 1)).map (sline sb + ·)

/-- A lane's slice of a shadowed vector line, copied afresh (R274). -/
def Wave.reshadow (w : Wave) (l : Nat) : Wave :=
  { w with shadow := w.shadow.map fun p =>
      if p.1 < 64 then (p.1, (List.range 8).foldl (fun ws r => ws.set (32 * r + l) ((w.lane l).reg (p.1 * 8 + r))) p.2) else p }

/-- Lanes become members: the checkpoint covers the lines of the window, and in lines already shadowed their slices are copied afresh (R273,
R274). -/
def Wave.openTry (w : Wave) (m : BitVec 32) (vb sb : Nat) (waveMode : Bool) (target : DWord) : Wave :=
  let w := (lanesOf m).foldl Wave.reshadow w
  ({ w with covered := (windowLines vb sb).foldl (fun acc l => addOnce l acc) w.covered }).modLanes m fun _ l => l.enterTry waveMode target

/-- TRY (R273, R468): in a group of members and others neither goes on; at depth 4 the lane aborts with DEPTH. -/
def execTryR (o : Ops) (c : Ctl) (s : State) : Answer :=
  .next (s.run (.tryR o c) spans1 fun s =>
    if !(s.ctx s.ctxNo).featmask.getLsbD 3 then s.fault s.mask 5 4 0
    else
      let k := s.cur.wave
      let m := s.members
      if m ≠ 0 ∧ m ≠ s.mask then
        let others := s.mask &&& ~~~ m
        let s := (lanesOf m).foldl (fun s l => if (s.w.lane l).member then s.abort k (1#32 <<< l) 5 0 0x16 else s) s
        s.fault others 0x16 2 0
      else if m = 0 then
        let target := wordsFrom s.cur.pc (c.spec.signExtend 64)
        (s.modWave k fun w => w.openTry s.mask s.pre.vb s.pre.sb (c.sub == 1#4) target).advance s.mask
      else
        let s := (lanesOf m).foldl (fun s l =>
          if (s.w.lane l).depth = 4 then s.abort k (1#32 <<< l) 8 0 5
          else s.modLane k l fun x => if x.member then { x with depth := x.depth + 1 } else x) s
        s.advance s.mask)

/-- Perform a buffered byte at its coherence point (R284). -/
def State.performByte (s : State) (b : Loc × Byte) : State :=
  match b.1.space with
  | 0 => (s.l1Evict s.coreNo (b.1.addr / 128)).l2Write b.1.addr [b.2]
  | 1 => s.tmemWrite s.tid b.1.addr [b.2]
  | _ => s.dspWrite s.dieNo b.1.addr [b.2]

/-- What a lane that commits has loaded early, but for the bytes that its commit performs (R199). -/
def Lane.unbuffered (l : Lane) : List Early :=
  l.early.filter fun e => !(List.range e.data.length).any fun i => (l.belayAt (e.place.loc i).space (e.place.loc i).addr).isSome

/-- Commit lanes: a conflict aborts with CONFLICT, else every buffered byte is performed, lanes ascending (R283). -/
def State.commitLanes (s : State) (m : BitVec 32) : State :=
  let k := s.cur.wave
  let bad := maskOf ((lanesOf m).filter fun l => (s.w.lane l).conflict)
  let s := (lanesOf bad).foldl (fun s l => if (s.w.lane l).member then s.abort k (1#32 <<< l) 3 0 0 else s) s
  let good := m &&& s.w.which Lane.member
  let bytes := (lanesOf good).flatMap fun l => (s.w.lane l).belay.reverse
  let s := s.modLanes k good fun _ l => { l.leaveTry with status := 0, early := l.unbuffered }
  let s := s.modWave k Wave.freeShadows
  bytes.foldl (fun s b => s.performByte b) s

/-- COMMIT (R283, R375): a release at its scope; a .wave member commits only with every live .wave member of its wave. -/
def execCommit (o : Ops) (c : Ctl) (s : State) : Answer :=
  .next (s.run (.commit o c) spans1 fun s =>
    let k := s.cur.wave
    let s := s.release s.coreNo c.scope.toNat
    let at1 := fun (p : Lane → Bool) => s.mask &&& s.w.which fun l => l.depth == 1 && p l
    let waveMs := at1 Lane.waveMode
    let all := s.w.which fun l => l.member && l.live && l.waveMode
    let outs := s.mask &&& s.w.which fun l => l.depth == 0
    let deeper := s.mask &&& s.w.which fun l => 2 ≤ l.depth
    let broken := waveMs ≠ 0 ∧ s.mask &&& all ≠ all
    let go := at1 (fun l => !l.waveMode) ||| (if broken then 0 else waveMs)
    let s := s.modLanes k deeper fun _ l => { l with depth := l.depth - 1 }
    let s := if broken then s.abort k waveMs 5 0 0x16 else s
    let s := s.commitLanes go
    let s := s.advance (s.mask &&& ~~~ outs)
    if outs = 0 then s else s.fault outs 0x16 1 0)

/-- ABORT (R285, R347). -/
def execAbort (o : Ops) (c : Ctl) (s : State) : Answer :=
  .next (s.run (.abort o c) spans1 fun s =>
    let k := s.cur.wave
    let outs := s.mask &&& s.w.which fun l => l.depth == 0
    let s := (lanesOf (s.mask &&& ~~~ outs)).foldl (fun s l =>
      if (s.w.lane l).member then s.abort k (1#32 <<< l) 1 (c.spec.toNat % 256) 0 else s) s
    if outs = 0 then s else s.fault outs 0x16 1 0)

/-- TSTAT (R285, R469). -/
def execTstat (o : Ops) (s : State) : Answer :=
  .next (s.run (.tstat o) spans1 fun s =>
    let s := (lanesOf s.mask).foldl (fun s l => s.dst (.tstat o) o l 1 (s.w.lane l).status.toNat) s
    s.advance s.mask)

/-- Abort every lane of a wave that a conflict has reached, before its next instruction issues (R278). -/
def State.abortConflicts (s : State) (k : Nat) : State :=
  let hit := (s.wave k).which fun l => l.member && l.live && l.conflict
  (lanesOf hit).foldl (fun s l => if ((s.wave k).lane l).member then s.abort k (1#32 <<< l) 3 0 0 else s) s

/-- Whether a lane watches what a step of space 0 to 3 names: a line of a space, or with 3 the 1 KiB range of a line. -/
def Lane.watchesPart (l : Lane) (space line : Nat) : Bool := if space = 3 then l.watchesRange line else l.watches space line

/-- A line leaves the L2 of a die, or with `space` 3 the eight lines of its range do: every lane of the die that watches one meets a
conflict. -/
def State.evictConflict (s : State) (d space line : Nat) : State :=
  { s with waves := s.waves.mapAll fun k w =>
      if s.dieOf k = d then
        { w with lanes := w.lanes.mapAll fun _ l => if l.watchesPart space line then { l with conflict := true } else l }
      else w }

/-- TRY_CONFLICT_ABORT (R278): the lanes of a core that watch the line abort; for a line of global memory the step is also its
eviction from the L2 of the core's die, and with `space` 3 that of its directory range there. -/
def execTryConflictAbort (core space line : Nat) (s : State) : Answer :=
  .next (
    let s := if space = 0 ∨ space = 3 then s.evictConflict (core / Config.coresPerDie) space line else s
    s.waves.foldl (fun s p =>
      if s.coreOf p.1 = core ∧ (s.team (p.1 / 64)).state = .resident ∧
          p.2.lanes.any (fun q => q.2.member && q.2.live && q.2.conflict && q.2.watchesPart space line) then s.abortConflicts p.1
      else s) s)

end Sys2Proof.Machine
end

