-- ==== Sys2Proof/Machine/Waves.lean ====
section
/-! DEFINITION. Starting waves: issue slots (R313), register images (R29, R67), the state of a wave at its start (R61, R82,
R311), and the spawn bins of a core (R59 to R62). -/
namespace Sys2Proof.Machine

/-! ## Image areas (R29, R67, R80, R234) -/

/-- A size in units of 4 KiB, in bytes. -/
def pages (n : Nat) : Nat := (n + 4095) / 4096 * 4096

/-- Bytes of a register image and of the spill stack of one wave. -/
def imageBytes : Nat := 69632
def Team.waveImage (t : Team) : Nat := imageBytes + pages t.spillSize

/-- Waves that a team may hold at once. -/
def Team.maxWaves (t : Team) : Nat := t.nWaves + t.pool

/-- Bytes of a team's save record: header, team memory, wave records. -/
def Team.saveBytes (t : Team) : Nat := 4096 + pages t.alloc + pages (6144 * t.maxWaves)

/-- Bytes that a team takes of its context's image area. -/
def Team.imageSize (t : Team) : Nat := t.saveBytes + t.maxWaves * t.waveImage

/-- Bytes that a team holds: an Awaiting-children team keeps its save record alone. -/
def Team.imageHeld (t : Team) : Nat :=
  match t.state with
  | .awaiting => t.saveBytes
  | _ => t.imageSize

/-- The physical addresses that an allocation of n bytes may take in a context's area, in units of 4 KiB from its base. -/
def State.imagePlaces (s : State) (ctx n : Nat) : List Nat :=
  let base := (s.ctx ctx).imgb.toNat % 2 ^ 52
  let len := (s.ctx ctx).imgl.toNat
  (List.range (len / 4096 + 1)).filter fun i =>
    i * 4096 + n ≤ len && s.teams.all fun p =>
      p.2.ctx != ctx || base + i * 4096 + n ≤ p.2.image.toNat || p.2.image.toNat + p.2.imageHeld ≤ base + i * 4096

/-- Where the dispatcher allocates: a free choice among the places that fit (log entry 14). -/
def State.allocImage (s : State) (ctx n : Nat) : State × Option DWord :=
  match s.imagePlaces ctx n with
  | [] => (s, none)
  | ps =>
    let r := s.fresh
    let i := ps.getD (Config.freeChoice r.1 % ps.length) 0
    (r.2, some (BitVec.ofNat 64 ((s.ctx ctx).imgb.toNat % 2 ^ 52 + i * 4096)))

/-- The register image and the spill stack of a wave within its team's allocation. -/
def Team.rimg (t : Team) (wid : Nat) : DWord := t.image + BitVec.ofNat 64 (t.saveBytes + wid * t.waveImage)
def Team.spillBase (t : Team) (wid : Nat) : DWord := t.rimg wid + BitVec.ofNat 64 imageBytes

/-! ## Issue slots (R313) -/

/-- Waves of resident teams in an issue slot of a core. -/
def State.slotCount (s : State) (c slot : Nat) : Nat :=
  (s.waves.filter fun p => s.coreOf p.1 == c && (s.team (p.1 / 64)).state == .resident && p.2.islot == slot).length

/-- The slot that holds the fewest waves, the lowest on a tie. -/
def State.pickSlot (s : State) (c : Nat) : Nat :=
  (List.range 4).foldl (fun best i => if s.slotCount c i < s.slotCount c best then i else best) 0

/-- The issue slot of a wave that has none: one that is saved (R313). -/
def noSlot : Nat := 4

/-- Put a wave into an issue slot at this clk. -/
def State.seatWave (s : State) (k : Nat) : State :=
  let slot := s.pickSlot (s.coreOf k)
  s.modWave k fun w => { w with islot := slot, rank := s.clk, order := s.clk, lastIssue := s.clk }

/-! ## A wave at its start -/

/-- A lane at its start. -/
def Lane.start (entry : DWord) (v : Tbl Word) : Lane := { Lane.gone with life := .ready, pc := entry, v := v }

/-- Scalar registers at the start, of which the first `backed` exist. -/
def startRegs (ws : List Word) (backed : Nat) : Tbl Word :=
  (List.range (min ws.length backed)).foldl (fun t i => t.set 0 i (ws.getD i 0)) []

/-- The lines of a wave that its team's register counts back. -/
def backedLines (vcount scount : Nat) : List Nat :=
  List.range ((vcount + 7) / 8) ++ (List.range ((scount + 31) / 32)).map (· + 64)

/-- Start a wave of a team, whose register lines are all in the cache and newer than its image (R68): `args` gives v0 of each lane, and lanes beyond them begin Exited (R61, R82, R311). -/
def State.startWave (s : State) (t wid : Nat) (entry : DWord) (args : List Word) (regs : List Word) (spawned : Bool) : State :=
  let x := s.team t
  let lanes : Tbl Lane := (List.range 32).map fun l =>
    (l, if l < args.length then Lane.start entry (Tbl.set 0 [] 0 (args.getD l 0)) else Lane.gone)
  let w : Wave := { Wave.gone with
    team := t, waveId := wid, lanes := lanes, s := startRegs regs x.scount, sslim := x.spillSize, trapvec := (s.ctx x.ctx).tvdef &&& ~~~ (3#64),
    rimg := x.rimg wid, spillAt := x.spillBase wid, spawned := spawned, fresh := spawned, islot := noSlot
    dirty := backedLines x.vcount x.scount, used := (backedLines x.vcount x.scount).map fun l => (l, s.clk) }
  State.seatWave { s with waves := s.waves.put (t * 64 + wid) w } (t * 64 + wid)

/-- The lowest WAVEID not in use in a team. -/
def State.freeWid (s : State) (t : Nat) : Nat :=
  ((List.range 64).find? fun i => (s.waves.find? (t * 64 + i)).isNone).getD 0

/-! ## Spawn bins -/

/-- The spawned waves of a team that are in use. -/
def State.spawnedWaves (s : State) (t : Nat) : Nat := (s.waves.filter fun p => p.1 / 64 == t && p.2.spawned).length

/-- Start the batch of a bin where a pool wave is free; otherwise it waits in its bin (R61, R62). -/
def State.startBatch (s : State) (c b : Nat) : State :=
  match (s.core c).bins.find? b with
  | none => s
  | some x =>
    if x.fired ∧ x.args ≠ [] ∧ (s.team x.team).state = .resident ∧ s.spawnedWaves x.team < (s.team x.team).pool then
      let s := s.startWave x.team (s.freeWid x.team) x.entry x.args [] true
      s.modCore c fun y => { y with bins := y.bins.mod b fun z => { z with args := [], fired := false } }
    else s

/-- A bin fires. -/
def State.fireBin (s : State) (c b : Nat) : State :=
  (s.modCore c fun x => { x with bins := x.bins.mod b fun y => { y with fired := true } }).startBatch c b

/-- Bins without a request are empty. -/
def State.sweepBins (s : State) (c : Nat) : State := s.modCore c fun x => { x with bins := x.bins.filter fun p => p.2.args != [] }

/-- The first bin that holds a key. -/
def Core.binOf (x : Core) (t : Nat) (entry : DWord) : Option Nat :=
  (List.find? (fun p => p.2.team == t && p.2.entry == entry) x.bins).map (·.1)

/-- The lowest-numbered empty bin. -/
def Core.emptyBin (x : Core) : Option Nat :=
  (List.range 16).find? fun i => match x.bins.find? i with
    | some b => b.args == []
    | none => true

/-- The bin whose first request is oldest, as the core numbers its requests (R59, R60). -/
def Core.oldestBin (x : Core) : Nat :=
  (x.bins.foldl (fun (best : Option (Nat × Nat)) p => match best with
    | some (_, seq) => if p.2.seq < seq then some (p.1, p.2.seq) else best
    | none => some (p.1, p.2.seq)) none).elim 0 (·.1)

/-- A request enters a bin: an empty one takes the key and starts its timer, and a bin of 32 fires (R60, R61). -/
def State.enterBin (s : State) (c b t : Nat) (entry : DWord) (arg : Word) : State :=
  let delay := (s.ctx (s.team t).ctx).spwndly.toNat
  let fresh : Bin := { team := t, entry := entry, args := [arg], seq := (s.core c).spawned, due := s.clk + delay, fired := false }
  let s := s.modCore c fun x => { x with spawned := x.spawned + 1, bins := match x.bins.find? b with
    | some y => if y.args = [] then x.bins.put b fresh else x.bins.put b { y with args := y.args ++ [arg] }
    | none => x.bins.put b fresh }
  if 32 ≤ ((s.core c).bins.get b fresh).args.length then s.fireBin c b else s

/-- SPAWN_TIMER_EXPIRE (R61). -/
def execSpawnTimerExpire (core bin : Nat) (s : State) : Answer :=
  .next (match (s.core core).bins.find? bin with
    | some b => if !b.fired && b.due ≤ s.clk && (s.team b.team).state == .resident then (s.fireBin core bin).sweepBins core else s
    | none => s)

/-- SPAWN_BATCH_START (R62). -/
def execSpawnBatchStart (core bin : Nat) (s : State) : Answer := .next ((s.startBatch core bin).sweepBins core)

end Sys2Proof.Machine
end

