-- ==== Sys2Proof/Machine/Work.lean ====
section
/-! DEFINITION. Work creation of class 7 (R56, R57, R309, R314 to R318, R389, R390, R404, R449, R461, R470): LAUNCH, TSUB,
TDONE, SPAWN, ERARM and ERPASS. -/
namespace Sys2Proof.Machine

/-! ## Launch records (R309) -/

/-- A launch record from its 64 bytes. -/
def parseLaunch (b : List Byte) : LaunchRec :=
  { entry := BitVec.ofNat 64 (fld b 0 8), arg := BitVec.ofNat 64 (fld b 8 8), gx := fld b 16 4, gy := fld b 20 4, gz := fld b 24 4,
    waves := fld b 28 1, prio := fld b 29 1, vregs := fld b 30 2, sregs := fld b 32 2, flags := fld b 34 2, tmem := fld b 36 4,
    spill := fld b 40 4, pool := fld b 44 4, completion := BitVec.ofNat 64 (fld b 48 8), rsv := BitVec.ofNat 64 (fld b 56 8) }

/-- Whether a completion-barrier field is valid for a context and a source (R309). -/
def State.completionOk (s : State) (ctx : Nat) (src : Source) (field : DWord) : Bool :=
  let f := field.toNat
  let off : Nat := f % 2 ^ 32
  match f / 2 ^ 62 with
  | 0 => f == 0
  | 1 => match src with
         | .child t => bitsAt f 32 30 == 0 && off % 32 == 0 && 32 ≤ off && (s.teamOffset t off 32).isSome
         | _ => false
  | 2 => bitsAt f 32 24 == 0 && bitsAt f 58 4 == 0 && off % 32 == 0 && (s.dieOffset (bitsAt f 56 2) ctx off 32).isSome
  | _ => false

/-- Whether a record keeps every limit of R309, and its waves the limit of R310. -/
def State.launchOk (s : State) (ctx : Nat) (src : Source) (r : LaunchRec) : Bool :=
  canonical r.entry && r.entry.toNat % 4 == 0 && 1 ≤ r.gx && 1 ≤ r.gy && 1 ≤ r.gz && r.teams ≤ 2 ^ 32 &&
  1 ≤ r.waves && r.waves ≤ 32 && r.prio ≤ 7 && 1 ≤ r.vregs && r.vregs ≤ 512 && 1 ≤ r.sregs && r.sregs ≤ 256 &&
  r.flags < 8 && r.tmem ≤ 1048544 && r.spill % 128 == 0 && r.spill ≤ 2 ^ 20 &&
  (if r.spawns then 1 ≤ r.pool && r.pool ≤ 63 else r.pool == 0) && s.completionOk ctx src r.completion && r.rsv == 0 &&
  r.waves + r.pool ≤ 64

/-- Take the next launch number of a context (R208). -/
def State.launchNumber (s : State) (ctx : Nat) : State × Nat :=
  let n := (s.ctx ctx).launchIssued + 1
  (s.modCtx ctx fun x => { x with launchIssued := n, launchOut := x.launchOut ++ [n] }, n)

/-- One lane's LAUNCH from step 2 on (R404). -/
def launchBody (o : Ops) (s : State) (l : Nat) (a : DWord) (_ : BitVec 128) : Acted :=
  let status := fun (s : State) (v : Nat) => done (s.dst (.launch o) o l 1 v)
  if s.tm.depth = 10 then stop s (.trap 0x0F 10 0)
  else if a.toNat % 64 ≠ 0 then stop s (misaligned 64 a)
  else if 4 ≤ s.tm.pending.length then status s 1
  else
    match (s.release s.coreNo 4).place 0 0 64 a 0 with
    | (s, .error e) => stop s e
    | (s, .ok (.mem pa)) =>
      let r := parseLaunch (s.l2Read pa 64)
      if !s.launchOk s.ctxNo (.child s.tid) r then status s 2
      else
        let (s, n) := s.launchNumber s.ctxNo
        let taken : Taken := { num := n, record := r, bar := s.completionObj s.ctxNo (.child s.tid) r.completion }
        status (s.modTeam s.tid fun x => { x with pending := x.pending ++ [taken], children := x.children + 1 }) 0
    | (s, .ok _) => status s 2

/-- The act of LAUNCH. -/
def launchAct (o : Ops) : Act := { gather := fun s l => (reader s.pre o l .n .a, 0), body := launchBody o }

/-- LAUNCH (R404). -/
def execLaunch (o : Ops) (s : State) : Answer := acting (.launch o) o baseSpans (launchAct o) s

/-! ## Tasks -/

/-- One lane's TSUB from step 2 on (R470). -/
def tsubBody (o : Ops) (s : State) (l : Nat) (a : DWord) (_ : BitVec 128) : Acted :=
  if a.toNat % 64 ≠ 0 then stop s (misaligned 64 a)
  else
    match (s.release s.coreNo 4).place 0 0 64 a 0 with
    | (s, .error e) => stop s e
    | (s, .ok (.mem pa)) =>
      match s.submitAt s.dieNo s.ctxNo pa with
      | (s, .accepted) => done (s.dst (.tsub o) o l 1 0)
      | (s, .full) => done (s.dst (.tsub o) o l 1 1)
      | (s, _) => stop s (.trap 5 0x0B a)
    | (s, .ok _) => done s

/-- The act of TSUB. -/
def tsubAct (o : Ops) : Act := { gather := fun s l => (reader s.pre o l .n .a, 0), body := tsubBody o }

/-- TSUB (R470). -/
def execTsub (o : Ops) (s : State) : Answer := acting (.tsub o) o baseSpans (tsubAct o) s

/-- TDONE (R316, R461). -/
def execTdone (o : Ops) (s : State) : Answer :=
  .next (s.run (.tdone o) spans1 fun s =>
    if s.tm.task.isNone || s.tm.tdone then s.fault s.mask 5 5 0
    else ((s.release s.coreNo 4).retireTask s.tid).advance s.mask)

/-- ERPASS (R390). -/
def execErpass (o : Ops) (s : State) : Answer :=
  .next (s.run (.erpass o) spans1 fun s =>
    s.lanewise (.erpass o) o.s false fun s l =>
      let r := s.passMark s.dieNo s.ctxNo (reader s.pre o l .w .a).toNat (reader s.pre o l .w .b).toNat
      done (r.1.dst (.erpass o) o l 1 r.2.toNat))

/-! ## Spawn -/

/-- One lane's SPAWN (R59, R449). Where no bin is empty and the oldest has fired and waits for a pool wave, the lane waits for that bin, and no
other fires (DESIGN CHOICE, log entry 66). -/
def spawnLane (o : Ops) (s : State) (l : Nat) : Acted :=
  let entry := reader s.pre o l .n .a
  let arg := lo32 (reader s.pre o l .w .b)
  let c := s.coreNo
  let t := s.tid
  if !(s.ctx s.ctxNo).featmask.getLsbD 7 then stop s (.trap 5 4 0)
  else if s.tm.pool = 0 then stop s (.trap 5 7 0)
  else if entry.toNat % 4 ≠ 0 then stop s (.trap 4 4 entry)
  else
    let fired := fun (s : State) (b : Nat) => match (s.core c).bins.find? b with
      | some x => x.fired
      | none => false
    match (s.core c).binOf t entry with
    | some b => if fired s b then stop s (.block (.spawnBin b)) else done (s.enterBin c b t entry arg)
    | none =>
      match (s.core c).emptyBin with
      | some b => done (s.enterBin c b t entry arg)
      | none =>
        let b := (s.core c).oldestBin
        let s := s.fireBin c b
        if fired s b then stop s (.block (.spawnBin b)) else done (s.enterBin c b t entry arg)

/-- SPAWN (R449). -/
def execSpawn (o : Ops) (s : State) : Answer :=
  .next (s.run (.spawn o) { d := 1, a := 2, b := 1 } fun s =>
    (s.lanewise (.spawn o) false false (spawnLane o)).sweepBins s.coreNo)

/-! ## Arming a graph (R317, R318, R389) -/

/-- A graph descriptor. -/
structure GraphDesc where
  tasks : DWord
  count : Nat
  ropeCount : Nat
  ropes : DWord
  rounds : Nat
  completion : DWord
  rsv : Bool
  rsv2 : Bool
  deriving DecidableEq, Repr

/-- A descriptor from its 64 bytes. -/
def parseGraph (b : List Byte) : GraphDesc :=
  { tasks := BitVec.ofNat 64 (fld b 0 8), count := fld b 8 4, ropeCount := fld b 12 4, ropes := BitVec.ofNat 64 (fld b 16 8),
    rounds := fld b 24 4, rsv := fld b 28 4 != 0, completion := BitVec.ofNat 64 (fld b 32 8), rsv2 := (b.drop 40).any (· != 0) }

/-- A rope record: a, b, the orientation, and whether a reserved bit is set. -/
structure RopeRec where
  a : Nat
  b : Nat
  towardB : Bool
  rsv : Bool
  deriving DecidableEq, Repr

/-- A rope from its 16 bytes. -/
def parseRope (b : List Byte) : RopeRec :=
  { a := fld b 0 2, b := fld b 2 2, towardB := fld b 4 4 % 2 == 1, rsv := 2 ≤ fld b 4 4 }

/-- Read n records of a size from an address on, in order. -/
def State.readRecords (s : State) (log : BitVec 128) (size : Nat) : (n : Nat) → (addr : DWord) → State × Except Stop (List (List Byte))
  | 0, _ => (s, .ok [])
  | n + 1, addr =>
    match s.readGlobal log 3 addr size with
    | (s, .error e) => (s, .error e)
    | (s, .ok b) =>
      match s.readRecords log size n (addr + BitVec.ofNat 64 size) with
      | (s, .error e) => (s, .error e)
      | (s, .ok bs) => (s, .ok (b :: bs))

/-- Read the rope lists that pointers name: a count and that many indices. -/
def State.readLists (s : State) (log : BitVec 128) : List DWord → State × Except Stop (List (List Nat))
  | [] => (s, .ok [])
  | p :: ps =>
    match s.readGlobal log 3 p 4 with
    | (s, .error e) => (s, .error e)
    | (s, .ok cb) =>
      let c := fromBytes cb
      match s.readGlobal log (c / 1024 + 3) (p + 4) (4 * c) with
      | (s, .error e) => (s, .error e)
      | (s, .ok b) =>
        match s.readLists log ps with
        | (s, .error e) => (s, .error e)
        | (s, .ok ls) => (s, .ok (((List.range c).map fun i => fld b (4 * i) 4) :: ls))

/-- A graph as its parts were read. -/
structure GraphParts where
  desc : GraphDesc
  tasks : List TaskRec
  lists : List (List Nat)
  ropes : List RopeRec
  deriving DecidableEq, Repr

/-- Read every part, before any check of R318; a parked lane logs the descriptor's address as its data (R389 step 4). -/
def State.readGraph (s : State) (a : DWord) : State × Except Stop GraphParts :=
  let log : BitVec 128 := a.zeroExtend 128
  match s.readGlobal log 3 a 64 with
  | (s, .error e) => (s, .error e)
  | (s, .ok db) =>
    let d := parseGraph db
    match s.readRecords log 64 d.count d.tasks with
    | (s, .error e) => (s, .error e)
    | (s, .ok ts) =>
      let tasks := ts.map parseTask
      match s.readLists log (tasks.map (·.ropes)) with
      | (s, .error e) => (s, .error e)
      | (s, .ok lists) =>
        match s.readRecords log 16 d.ropeCount d.ropes with
        | (s, .error e) => (s, .error e)
        | (s, .ok rs) => (s, .ok { desc := d, tasks := tasks, lists := lists, ropes := rs.map parseRope })

/-- The offset of the first field of the descriptor that breaks R317. -/
def GraphDesc.breach (d : GraphDesc) : Option Nat :=
  let space := d.completion.toNat / 2 ^ 62
  let fieldOk := (space == 1 || space == 2) && d.completion.toNat % 32 == 0 && bitsAt d.completion.toNat 32 24 == 0 &&
    bitsAt d.completion.toNat 58 4 == 0 && (space == 2 || bitsAt d.completion.toNat 56 2 == 0)
  if d.count < 1 ∨ 65536 < d.count then some 8
  else if d.ropeCount < 1 ∨ 262144 < d.ropeCount then some 12
  else if d.ropes.toNat % 4 ≠ 0 then some 16
  else if d.rounds < 1 then some 24
  else if d.rsv then some 28
  else if !fieldOk then some 32
  else if d.rsv2 then some 40
  else none

/-- The offset of the first field of a task record of a graph that breaks R318: R315, an aligned rope list, the one graph id,
the edge-reversal flag. Where the flag is missing, the flag offends, and not the rope list pointer beside it (log entry 45). -/
def TaskRec.graphBreach (t : TaskRec) (gid : Nat) (armed : Bool) : Option Nat :=
  if t.tile.toNat / 2 ^ 48 ≠ 0 then some 16
  else if t.ropes.toNat % 4 ≠ 0 then some 32
  else if t.gid = 0 ∨ t.gid ≠ gid ∨ armed then some 40
  else if t.flags ≠ 1 then some 44
  else t.breach

/-- Whether a rope names a task. -/
def RopeRec.names (r : RopeRec) (t : Nat) : Bool := r.a == t || r.b == t

/-- The offset in a rope list of its first offending word: the count, then an index that is out of range, names another
task's rope, or stands twice. -/
def listBreach (ropes : List RopeRec) (t : Nat) (ls : List Nat) : Option Nat :=
  if ls.length ≠ (ropes.filter fun r => r.names t).length then some 0
  else
    ((List.range ls.length).find? fun i =>
      let j := ls.getD i 0
      (ls.take i).contains j || !(match ropes[j]? with
        | some r => r.names t
        | none => false)).map fun i => 4 + 4 * i

/-- The offset in a rope of its first offending field. -/
def RopeRec.breach (r : RopeRec) (count : Nat) : Option Nat :=
  if count ≤ r.a then some 0 else if count ≤ r.b ∨ r.a = r.b then some 2 else if r.rsv then some 4 else none

/-- The first of a list of results. -/
def firstSome {α : Type} : List (Option α) → Option α
  | [] => none
  | some x :: _ => some x
  | none :: xs => firstSome xs

/-- The address of the first offending field of a graph (R318 check 1). -/
def GraphParts.breach (g : GraphParts) (a : DWord) (armed : Bool) : Option DWord :=
  let gid := match g.tasks with
    | t :: _ => t.gid
    | [] => 0
  let at' := fun (base : DWord) (o : Option Nat) => o.map fun k => base + BitVec.ofNat 64 k
  firstSome (at' a g.desc.breach :: ((List.range g.tasks.length).flatMap fun i =>
      match g.tasks[i]? with
      | some t => [at' (g.desc.tasks + BitVec.ofNat 64 (64 * i)) (t.graphBreach gid armed),
                   at' t.ropes (listBreach g.ropes i (g.lists.getD i []))]
      | none => []) ++
    (List.range g.ropes.length).map fun j => match g.ropes[j]? with
      | some r => at' (g.desc.ropes + BitVec.ofNat 64 (16 * j)) (r.breach g.tasks.length)
      | none => none)

/-- A frame of the search of R318 check 4: a task, the ropes of its list still to follow, and the rope it followed last. -/
structure Frame where
  task : Nat
  rest : List Nat
  via : Nat
  deriving DecidableEq, Repr

/-- The other end of a rope that leaves a task. -/
def RopeRec.leaves (r : RopeRec) (t : Nat) : Option Nat :=
  if r.towardB then (if r.a = t then some r.b else none) else if r.b = t then some r.a else none

/-- The depth-first search from a task: the tasks visited, or the rope that leaves the revisited task along the path. -/
def GraphParts.search (g : GraphParts) : (fuel : Nat) → (visited : List Nat) → (stack : List Frame) → Except Nat (List Nat)
  | 0, visited, _ => .ok visited
  | _ + 1, visited, [] => .ok visited
  | fuel + 1, visited, f :: fs =>
    match f.rest with
    | [] => g.search fuel visited fs
    | j :: js =>
      let f := { f with rest := js }
      match (g.ropes[j]?).bind fun r => r.leaves f.task with
      | none => g.search fuel visited (f :: fs)
      | some u =>
        let f := { f with via := j }
        match (f :: fs).find? fun x => x.task == u with
        | some x => .error x.via
        | none =>
          if visited.contains u then g.search fuel visited (f :: fs)
          else g.search fuel (u :: visited) ({ task := u, rest := g.lists.getD u [], via := 0 } :: f :: fs)

/-- The rope that the first cycle reports (R318 check 4). -/
def GraphParts.cycle (g : GraphParts) : Option Nat :=
  let fuel := 2 * g.tasks.length + (g.lists.map List.length).sum + 1
  let r := (List.range g.tasks.length).foldl (fun (acc : Except Nat (List Nat)) t =>
    match acc with
    | .error j => .error j
    | .ok visited =>
      if visited.contains t then .ok visited
      else g.search fuel (t :: visited) [{ task := t, rest := g.lists.getD t [], via := 0 }]) (.ok [])
  match r with
  | .error j => some j
  | .ok _ => none

/-- The completion barrier of a graph: in the arming team's memory, or in the context's window on the arming die (R318
check 2). -/
def State.graphBar (s : State) (field : DWord) : Option ObjRef :=
  let off : Nat := field.toNat % 2 ^ 32
  if field.toNat / 2 ^ 62 = 1 then if 32 ≤ off then s.objAt 1 s.tid off else none else s.objAt 2 s.tid off

/-- The armed graph of its parts. -/
def State.armGraph (s : State) (g : GraphParts) (bar : ObjRef) : Graph :=
  { ctx := s.ctxNo, gid := (g.tasks.head?.map (·.gid)).getD 0, rounds := g.desc.rounds,
    tasks := (List.range g.tasks.length).filterMap fun i => (g.tasks[i]?).map fun t =>
      { task := t, ropes := g.lists.getD i [], turns := 0, mark := false, running := false : GTask },
    ropes := g.ropes.map fun r => { a := r.a, b := r.b, towardB := r.towardB : Rope }, ropeBase := g.desc.ropes, bar := bar }

/-- One lane's ERARM from step 2 on (R389). -/
def erarmBody (o : Ops) (s : State) (l : Nat) (_ : DWord) (data : BitVec 128) : Acted :=
  let a : DWord := data.extractLsb' 0 64
  let d := s.dieNo
  if !(s.ctx s.ctxNo).featmask.getLsbD 4 then stop s (.trap 5 4 0)
  else if a.toNat % 64 ≠ 0 then stop s (misaligned 64 a)
  else
    match (s.release s.coreNo 4).readGraph a with
    | (s, .error e) => stop s e
    | (s, .ok g) =>
      let armed := match g.tasks with
        | t :: _ => ((s.die d).graph t.gid).isSome
        | [] => false
      match g.breach a armed with
      | some x => stop s (.trap 5 0x0C x)
      | none =>
        match s.graphBar g.desc.completion with
        | none => stop s (.trap 5 0x200 (BitVec.ofNat 64 (g.desc.completion.toNat % 2 ^ 32)))
        | some bar =>
          if 16 ≤ (s.die d).graphs.length then done (s.dst (.erarm o) o l 1 1)
          else
            match g.cycle with
            | some j => stop s (.trap 0x0E (BitVec.ofNat 32 j) 0)
            | none =>
              let x := s.armGraph g bar
              done ((s.modDie d fun y => { y with graphs := y.graphs ++ [x] }).dst (.erarm o) o l 1 0)

/-- The act of ERARM. -/
def erarmAct (o : Ops) : Act :=
  { gather := fun s l => (reader s.pre o l .n .a, (reader s.pre o l .n .a).zeroExtend 128), body := erarmBody o }

/-- ERARM (R389). -/
def execErarm (o : Ops) (s : State) : Answer := acting (.erarm o) o baseSpans (erarmAct o) s

end Sys2Proof.Machine
end

