-- ==== Sys2Proof/Machine/EngineSteps.lean ====
section
/-! DEFINITION. The steps of the engines (R164, R165, R208, R210, R213, R217, R222, R288 to R297, R300, R301, R304, R305, R336,
R337, R478): starts of matrix commands, loads, streams, drains and clears, copy segments, completions, collectives. -/
namespace Sys2Proof.Machine

/-! ## Failures after issue, and the end of a command (R222, R289, R478) -/

/-- Deliver a failure to the lanes that issued a command, at their next instruction; where all have exited, the team is killed with
UNHANDLED, also where their wave has ended and another has taken its number (R222). -/
def State.failLate (s : State) (k : Nat) (ended : Bool) (lanes : BitVec 32) (pc : DWord) (l : Late) : State :=
  if (s.teams.find? (k / 64)).isNone || (s.team (k / 64)).state == .killed then s
  else
    let m := if ended then 0 else lanes &&& (s.wave k).live
    if m = 0 then s.kill (k / 64) (some (s.laneRec k lanes 0x81 0 0 l.addr pc))
    else s.modLanes k m fun _ x => { x with late := x.late ++ [l] }

/-- A killed team whose last started command has ended frees its memory and residency (R478). -/
def State.reap (s : State) (t : Nat) : State :=
  match s.teams.find? t with
  | some x => if x.state == .killed && !s.hasCommands t then s.freeTeam t else s
  | none => s

/-- Change a command of the matrix queue. -/
def State.modMx (s : State) (core num : Nat) (f : Cmd → Cmd) : State :=
  s.modCore core fun x => { x with mq := x.mq.map fun c => if c.num = num then f c else c }

/-- Change a command of a copy queue. -/
def State.modCpy (s : State) (core ctx num : Nat) (f : Cmd → Cmd) : State :=
  s.modCopy core ctx fun q => { q with queue := q.queue.map fun c => if c.num = num then f c else c }

/-- A matrix command ends: its barrier receives its arrival. -/
def State.endMatrix (s : State) (core : Nat) (c : Cmd) : State :=
  ((s.modMx core c.num fun x => { x with finished := true, tag := none }).arriveAt c.bar).reap c.team

/-- A matrix command fails: the failure is recorded, and its barrier still receives its arrival (R289). -/
def State.failMatrix (s : State) (core : Nat) (c : Cmd) (l : Late) : State :=
  (s.failLate c.wave c.ended c.lanes c.pc l).endMatrix core c

/-- The failure of a command whose buffer or tile is another's (R289). -/
def notOwned (c : Cmd) : Late := { cause := 5, info := 3, addr := BitVec.ofNat 64 c.num }

/-! ## Starting matrix commands (R290, R304, R305) -/

/-- Rate class of a matrix format: bits per element of its stream, 4, 8 or 16 (R23). -/
def rateOf (fmt : Nat) : Nat := if fmt < 2 then 16 else if fmt = 4 ∨ fmt = 5 then 4 else 8

/-- A quotient rounded up. -/
def ceilDiv (a b : Nat) : Nat := (a + b - 1) / b

/-- The bound of a command in clk (R305); `wfmt` is the format of the weights that it streams through. -/
def CmdOp.bound (op : CmdOp) (wfmt : Nat) : Nat :=
  match op with
  | .mxz _ => 64
  | .mxw _ fold fmt _ _ => min 256 (64 + ceilDiv (tileBytes fmt) 512 + (if fold then 128 else 0))
  | .mxs fmt _ clear _ _ _ m _ =>
    let rate := max (rateOf fmt) (rateOf wfmt)
    min 1344 (256 + (if rate = 16 then 4 * m else if rate = 8 then m else ceilDiv m 2) + (if clear then 64 else 0))
  | .mxd type _ _ add _ _ m _ => min 544 (32 + (if add then 2 else 1) * ceilDiv (m * (128 * drainBytes type)) 512)
  | _ => 0

/-- Whether the head command of a queue may start beside what runs: nothing, or an MXS beside a load of the shadow buffer. -/
def mayStart (running : List Cmd) (c : Cmd) : Bool :=
  match running with
  | [] => true
  | [r] => match r.op, c.op with
           | .mxs _ _ _ _ _ _ _ _, .mxw active _ _ _ _ => !active
           | _, _ => false
  | _ => false

/-- The weight buffer that an MXS reads: the shadow buffer where it swaps. -/
def Core.streamBuffer (x : Core) (swap : Bool) : WBuf := if swap then x.shadow else x.active

/-- Whether an MXS meets a buffer or a tile that is not its team's (R289). -/
def Core.streamBarred (x : Core) (c : Cmd) (tile : Nat) (clear swap : Bool) : Bool :=
  (x.streamBuffer swap).owner != some c.team || (!clear && x.tileTag.find? tile != some c.team)

/-- The head command that waits to start, where it may start now. -/
def State.matrixHead (s : State) (core : Nat) : Option Cmd :=
  let x := s.core core
  match x.mq.find? fun c => !c.started with
  | none => none
  | some c =>
    let swap := match c.op with
      | .mxs _ _ _ swap _ _ _ _ => swap
      | _ => false
    let fits := c.op.bound (x.streamBuffer swap).fmt ≤ 2048 - s.clk % 2048
    if mayStart (x.mq.filter fun y => y.started && !y.finished) c && x.slotNow == s.clk / 2048 &&
        admits (x.slotEntry (s.clk / 2048 % 64)) c.ctx && fits then some c
    else none

/-- MATRIX_COMMAND_START (R290, R305): an MXS that swaps exchanges the buffers first, and the swap stands where it then
fails under R289 (R295, R416); `pos` 1 notes that it fails. A load beside it goes to the other buffer. -/
def execMatrixCommandStart (core : Nat) (s : State) : Answer :=
  .next (match s.matrixHead core with
    | none => s
    | some c =>
      match c.op with
      | .mxs _ tile clear swap _ _ _ _ =>
        let barred := (s.core core).streamBarred c tile clear swap
        let s := s.modMx core c.num fun y => { y with started := true, pos := barred.toNat }
        if swap then s.modCore core fun x => { x with active := x.shadow, shadow := x.active } else s
      | _ => s.modMx core c.num fun y => { y with started := true })

/-- The running matrix command that a property holds for. -/
def State.runningMx (s : State) (core : Nat) (p : CmdOp → Bool) : Option Cmd :=
  (s.core core).mq.find? fun c => c.started && !c.finished && p c.op

/-! ## What engines read ahead (R302; log entry 42) -/

/-- The word at a place. -/
def State.wordThere (s : State) (p : Place) : List Byte :=
  match p with
  | .mem pa => s.l2Read pa 4
  | .team t off => s.tmemRead t off 4
  | .die d off => s.dspRead d off 4

/-- A command reads the word at a place ahead. -/
def Cmd.note (c : Cmd) (p : Place) (w : List Byte) : Cmd := { c with seen := (p, w) :: c.seen.filter fun x => x.1 != p }

/-- The commands of a copy context that run: in order, up to four at once (R290). -/
def CopyCtx.running (q : CopyCtx) : List Cmd := (q.queue.filter fun c => !c.finished).take 4

/-- The running commands of a core read the word at a place now, for a read of it that comes later (R302). -/
def State.engineRead (s : State) (core : Nat) (p : Place) : State :=
  let w := s.wordThere p
  s.modCore core fun x =>
    { x with mq := x.mq.map fun c => if c.started && !c.finished then c.note p w else c
             copy := x.copy.mapAll fun _ q => { q with queue := q.queue.map fun c => if q.running.contains c then c.note p w else c } }

/-! ## Loads (R163, R293, R294) -/

/-- The rows of a tile in team memory. -/
def State.tileRows (s : State) (c : Cmd) (off bytes n : Nat) : List (List Byte) :=
  (List.range n).map fun r => s.teamSeen c (off + r * bytes) bytes

/-- MXW_LOAD (R294). The side list is read entry by entry: it may leave the allocation, and a 65th escape is one too many. -/
def execMxwLoad (core : Nat) (s : State) : Answer :=
  .next (match s.runningMx core (fun op => match op with | .mxw _ _ _ _ _ => true | _ => false) with
    | none => s
    | some c =>
      match c.op with
      | .mxw active fold fmt w sv =>
        let rows := s.tileRows c w (rowBytes fmt 128) 128
        let count := (escapesOf fmt rows).length
        let sideAt := w + tileBytes fmt
        let alloc := (s.team c.team).alloc
        let inside := (alloc - sideAt) / 2
        if inside < min count 64 then s.failMatrix core c { cause := 5, info := 0, addr := BitVec.ofNat 64 alloc }
        else if 64 < count then s.failMatrix core c { cause := 0x11, info := BitVec.ofNat 32 c.num, addr := 0 }
        else
          let side := (List.range count).map fun i => fromBytes (s.teamSeen c (sideAt + 2 * i) 2)
          let factors := if fold then
              some ((List.range 128).map fun k => decodeF Fmt.f32 (fromBytes (s.teamSeen c (sv + 4 * k) 4)))
            else none
          let b := loadTile fmt c.team rows side factors
          (s.modCore core fun x => if active then { x with active := b } else { x with shadow := b }).endMatrix core c
      | _ => s)

/-! ## Streams (R164, R165, R295) -/

/-- MXS_STREAM (R295). -/
def execMxsStream (core : Nat) (s : State) : Answer :=
  .next (match s.runningMx core (fun op => match op with | .mxs _ _ _ _ _ _ _ _ => true | _ => false) with
    | none => s
    | some c =>
      match c.op with
      | .mxs fmt tile clear _ act row0 m k =>
        if c.pos = 1 then s.failMatrix core c (notOwned c)
        else
          let rows := s.tileRows c act (rowBytes fmt k) m
          let s := s.modCore core fun x =>
            let x := if clear then { x with tiles := clearTile tile x.tiles, tileTag := x.tileTag.put tile c.team } else x
            { x with tiles := (List.range m).foldl (fun ts r => streamRow x.active fmt k tile (row0 + r) (rows.getD r []) ts) x.tiles }
          s.endMatrix core c
      | _ => s)

/-- MXZ_CLEAR (R297). -/
def execMxzClear (core : Nat) (s : State) : Answer :=
  .next (match s.runningMx core (fun op => match op with | .mxz _ => true | _ => false) with
    | none => s
    | some c =>
      match c.op with
      | .mxz tile =>
        (s.modCore core fun x => { x with tiles := clearTile tile x.tiles, tileTag := x.tileTag.put tile c.team }).endMatrix core c
      | _ => s)

/-! ## Global accesses of an engine (R296, R301) -/

/-- What translating the bytes of one segment gives. -/
inductive Seg where
  | ok (pas : List Nat)
  | wait (va : DWord) (kind : Kind)
  | stall
  | fail (l : Late)
  deriving DecidableEq, Repr

/-- Translate bytes of global memory for an engine command on a core, in order; an access of kind 2 needs both permissions and
reports the one that is missing, and an absent page as what it is (R226, R301; log entry 25). -/
def State.translateAll (s : State) (core ctx : Nat) (k : Kind) : List DWord → State × Seg
  | [] => (s, .ok [])
  | va :: vas =>
    let failed := fun (e : TErr) (kind : Kind) => match e with
      | .protection usr => Seg.fail { cause := 5, info := BitVec.ofNat 32 (kind * 256 + usr.toNat * 1024), addr := va }
      | .fatal level => .fail { cause := 7, info := BitVec.ofNat 32 level, addr := va }
      | .absent => .wait va k
      | .migrating => .stall
    let rd := if k = 2 then s.translate core ctx va 0 else (s, .ok 0)
    match rd with
    | (s, .error e) => (s, failed e 0)
    | (s, .ok _) =>
      match s.translate core ctx va (if k = 2 then 1 else k) with
      | (s, .error e) => (s, failed e (if k = 2 then 1 else k))
      | (s, .ok pa) =>
        match s.translateAll core ctx k vas with
        | (s, .ok pas) => (s, .ok (pa :: pas))
        | r => r

/-- An engine meets an absent page: a record for its issuing lanes, and the command waits on the page's tag (R296). With no tag
free it tries again later. -/
def State.engineTag (s : State) (c : Cmd) (va : DWord) (k : Kind) : State × Option Nat :=
  let ps := (lanesOf c.lanes).map fun l => { lane := l, addr := va, data := 0, kind := k, migration := false : Parking }
  match ps with
  | [] => (s, none)
  | p :: _ => s.takeTag c.wave c.pc ps p

/-- Write bytes at their physical addresses. -/
def State.scatter (s : State) (pas : List Nat) (bs : List Byte) : State :=
  (List.range pas.length).foldl (fun s i => s.l2Write (pas.getD i 0) [bs.getD i 0]) s

/-- The L1 of an engine's own core writes back and drops the lines that the engine is about to write, so that a wait at the
command's scope meets its bytes (R210). -/
def State.dropLines (s : State) (core : Nat) (pas : List Nat) : State :=
  (pas.foldl (fun acc pa => addOnce (pa / 128) acc) []).foldl (fun s line => s.l1Evict core line) s

/-- Read the bytes at physical addresses. -/
def State.collect (s : State) (pas : List Nat) : List Byte := pas.map fun pa => Memory.read s.mem pa

/-! ## Drains (R217, R296) -/

/-- The global request of one segment of an engine command (R245). -/
def State.countSegment (s : State) (core : Nat) (c : Cmd) (va : DWord) : State :=
  s.countRequest core c.ctx { pc := c.pc, addr := va, loc := s.location c.wave (lowest c.lanes) }

/-- One segment of a drain, `pos` counted over the rows. A global one translates like a lane's store, also where it adds (R296). -/
def State.drainStep (s : State) (core : Nat) (c : Cmd) (type tile space : Nat) (add : Bool) (dst row0 stride : Nat) : State :=
  let per := drainBytes type
  let row := row0 + c.pos / per
  let seg := c.pos % per
  let at' := dst + c.pos / per * stride + seg * 128
  let x := s.core core
  let next := fun (s : State) => s.modMx core c.num fun y => { y with pos := y.pos + 1 }
  if space = 1 then
    next (s.tmemWrite c.team at' (drainSegment x type tile row seg (if add then some (s.tmemRead c.team at' 128) else none)))
  else if space = 2 then
    let d := core / Config.coresPerDie
    next (s.dspWrite d at' (drainSegment x type tile row seg (if add then some (s.dspRead d at' 128) else none)))
  else
    match s.translateAll core c.ctx 1 (addrsFrom (BitVec.ofNat 64 at') 128) with
    | (s, .ok pas) =>
      let s := (s.countSegment core c (BitVec.ofNat 64 at')).dropLines core pas
      next (s.scatter pas (drainSegment x type tile row seg (if add then some (s.collect pas) else none)))
    | (s, .wait va k) => let r := s.engineTag c va k; r.1.modMx core c.num fun y => { y with tag := r.2, va := va }
    | (s, .stall) => s
    | (s, .fail l) => s.failMatrix core c l

/-- Segments of a drain until one does not land. -/
def State.drainFrom (s : State) (core num type tile space : Nat) (add : Bool) (dst row0 stride : Nat) : (fuel : Nat) → State
  | 0 => s
  | fuel + 1 =>
    match (s.core core).mq.find? fun c => c.num == num with
    | none => s
    | some c =>
      let s' := s.drainStep core c type tile space add dst row0 stride
      match (s'.core core).mq.find? fun y => y.num == num with
      | none => s'
      | some y => if y.pos = c.pos then s' else s'.drainFrom core num type tile space add dst row0 stride fuel

/-- MXD_DRAIN (R296): the barrier receives its arrival when every segment has been performed. -/
def execMxdDrain (core : Nat) (s : State) : Answer :=
  .next (match s.runningMx core (fun op => match op with | .mxd _ _ _ _ _ _ _ _ => true | _ => false) with
    | none => s
    | some c =>
      match c.op with
      | .mxd type tile space add dst row0 m stride =>
        if c.tag.isSome then s
        else if (s.core core).tileTag.find? tile ≠ some c.team then s.failMatrix core c (notOwned c)
        else
          let total := m * drainBytes type
          let s := s.drainFrom core c.num type tile space add dst row0 stride (total - c.pos)
          match (s.core core).mq.find? fun y => y.num == c.num with
          | some y => if !y.finished && total ≤ y.pos then s.endMatrix core y else s
          | none => s
      | _ => s)

/-! ## Copies (R300, R301) -/

/-- Write the scratchpad of a command. -/
def State.scratchWrite (s : State) (core : Nat) (c : Cmd) (x : Nat) (bs : List Byte) : State :=
  if c.op.scratch.1 = 1 then s.tmemWrite c.team (c.op.scratch.2 + x) bs
  else s.dspWrite (core / Config.coresPerDie) (c.op.scratch.2 + x) bs

/-- A copy command ends; CPYS and CPYR give their arrival. -/
def State.endCopy (s : State) (core : Nat) (c : Cmd) : State :=
  let s := s.modCpy core c.ctx c.num fun x => { x with finished := true, tag := none }
  (if 2 ≤ c.op.copyKind then s.arriveAt c.bar else s).reap c.team

/-- A copy command fails (R301). -/
def State.failCopy (s : State) (core : Nat) (c : Cmd) (l : Late) : State := (s.failLate c.wave c.ended c.lanes c.pc l).endCopy core c

/-- The landed bytes of a segment, added to the named barrier (R213). -/
def State.landed (s : State) (o : Option ObjRef) (n : Nat) : State :=
  match o with
  | some o => s.updateBar o fun b => (b.land n).check
  | none => s

/-- The element operation of CPYR (R300): R132 for s32 and f32, f16 and bf16 rounded RNE with no flags. -/
def engineOp (op type old b : Nat) : Nat :=
  if type = 8 ∨ type = 9 then
    if op = 0 then fAddPlain (fmtOfType type) old b
    else (fMinMax (op == 2) { mode := 0, ftz := false } (fmtOfType type) old b).bits
  else atomOp op type old b

/-- The elements of a CPYR segment, each a read-modify-write of its own, in order: two at one address both count (R300). -/
def State.reduceInto (s : State) (op type es : Nat) (pas : List Nat) (new : List Byte) : State :=
  (List.range (pas.length / es)).foldl (fun s i =>
    let ps := (pas.drop (es * i)).take es
    s.scatter ps (toBytes es (engineOp op type (fromBytes (s.collect ps)) (fld new (es * i) es)))) s

/-- Land the next segment of a copy: at most 128 bytes, up to a 128-byte boundary of the scratchpad destination for CPY and
CPYG. -/
def State.landSegment (s : State) (core : Nat) (c : Cmd) : State :=
  let kind := c.op.copyKind
  let total := c.op.total
  let room := if kind < 2 then 128 - (c.op.scratch.2 + c.pos) % 128 else 128
  let n := min room (total - c.pos)
  let places := (List.range n).map fun i => c.op.addrOf (c.pos + i)
  match s.translateAll core c.ctx (match kind with | 2 => 1 | 3 => 2 | _ => 0) (places.filterMap id) with
  | (s, .wait va k) => let r := s.engineTag c va k; r.1.modCpy core c.ctx c.num fun y => { y with tag := r.2, va := va }
  | (s, .stall) => s
  | (s, .fail l) => s.failCopy core c l
  | (s, .ok pas) =>
    let s := match places.filterMap id with
      | va :: _ => s.countSegment core c va
      | [] => s
    let there := (List.range n).filter fun i => (places.getD i none).isSome
    let s :=
      if kind < 2 then
        let got : List Byte := pas.map (s.memSeen c)
        let bytes := (List.range n).map fun i => if there.contains i then got.getD (there.idxOf i) 0 else 0
        (s.scratchWrite core c c.pos bytes).landed c.bar n
      else
        let s := s.dropLines core pas
        let src := s.scratchRead core c c.pos n
        let new := there.map fun i => src.getD i 0
        match c.op with
        | .box 3 op type _ d _ _ _ => s.reduceInto op type d.esize pas new
        | _ => s.scatter pas new
    let s := s.modCpy core c.ctx c.num fun y => { y with pos := y.pos + n }
    if total ≤ c.pos + n then s.endCopy core { c with pos := c.pos + n } else s

/-- COPY_SEGMENT_LAND (R301): `pos` is the command's place among the running ones. -/
def execCopySegmentLand (core ctx pos : Nat) (s : State) : Answer :=
  .next (match (s.copyCtx core ctx).running[pos]? with
    | none => s
    | some c =>
      let first := ((s.copyCtx core ctx).running.take (pos + 1)).map (·.num)
      let s := s.modCopy core ctx fun q => { q with queue := q.queue.map fun y => if first.contains y.num then { y with started := true } else y }
      if c.tag.isSome then s else s.landSegment core { c with started := true })

/-- COPY_COMMAND_COMPLETE (R208): the counter of an engine reaches the number of each finished command at the head of its
queue, and what waits on the counter goes on (R213). -/
def execCopyCommandComplete (core : Nat) (engine : Option Nat) (s : State) : Answer :=
  .next (let q := match engine with
      | some ctx => (s.copyCtx core ctx).queue
      | none => (s.core core).mq
    match q with
    | c :: _ => if c.finished then s.settleEngines core else s
    | [] => s)

/-! ## Slots (R304) -/

/-- A core enters a slot: writes made to its table in an earlier one take effect (R304). -/
def Core.enterSlot (x : Core) (now : Nat) : Core :=
  if x.slotNow = now then x
  else { x with slotNow := now, slottab := x.slotPending.foldl (fun t p => t.put p.1 p.2) x.slottab, slotPending := [] }

/-- SLOT_BOUNDARY (R304): a new slot begins. -/
def execSlotBoundary (core : Nat) (s : State) : Answer :=
  .next (if (s.core core).slotNow = s.clk / 2048 then s else s.modCore core fun x => x.enterSlot (s.clk / 2048))

/-! ## Collectives (R336, R337) -/

/-- The number of an element of a block. -/
def collElem (type : Nat) (b : List Byte) (i : Nat) : Nat := fld b (collBytes type * i) (collBytes type)

/-- One add of a reduction (R337). -/
def collAdd (type a b : Nat) : Nat := if type = 4 then (a + b) % 2 ^ 32 else fAddPlain (fmtOfType type) a b

/-- What rank j sent. -/
def Coll.sent (x : Coll) (j : Nat) : List Byte := ((x.steps.find? fun y => y.rank == j).map (·.send)).getD []

/-- The sum, in ascending rank, of element i of each rank's block b. -/
def Coll.sum (x : Coll) (b i : Nat) : Nat :=
  let e := fun j => collElem x.type (x.sent j) (b * x.n + i)
  (List.range (x.p - 1)).foldl (fun a j => collAdd x.type a (e (j + 1))) (e 0)

/-- The bytes that a member receives. -/
def Coll.received (x : Coll) : List Byte :=
  let bytes := collBytes x.type
  let block := x.n * bytes
  match x.kind with
  | 0 => (List.range x.n).flatMap fun i => toBytes bytes (x.sum 0 i)
  | 1 => (List.range x.n).flatMap fun i => toBytes bytes (x.sum x.rank i)
  | 2 => (List.range x.p).flatMap fun j => (x.sent j).take block
  | _ => (List.range x.p).flatMap fun j => ((x.sent j).drop (x.rank * block)).take block

/-- Whether an instance has every contribution, or has failed. -/
def Coll.ready (x : Coll) : Bool := x.page.isNone && (x.failed || x.steps.length == x.p)

/-- Translate the pages of a receive buffer by a die's own translation, writing. -/
def State.translateRecv (s : State) (d ctx : Nat) : (fuel : Nat) → (addr : DWord) → (n : Nat) → State × Except (TErr × DWord) (List (Nat × Nat))
  | 0, _, _ => (s, .ok [])
  | fuel + 1, addr, n =>
    if n = 0 then (s, .ok [])
    else
      let k := min n (4096 - addr.toNat % 4096)
      match s.translateDie d ctx addr 1 with
      | (s, .error e) => (s, .error (e, addr))
      | (s, .ok pa) =>
        if !s.backedAll pa k then (s, .error (.fatal 7, addr))
        else match s.translateRecv d ctx fuel (addr + BitVec.ofNat 64 k) (n - k) with
        | (s, .ok r) => (s, .ok ((pa, k) :: r))
        | r => r

/-- A collective ends: its number is complete, and its barrier receives an arrival. -/
def State.endColl (s : State) (d : Nat) (x : Coll) : State :=
  ((s.modDie d fun y => { y with colls := y.colls.filter fun z => z.num != x.num }).arriveAt x.bar).checkArms

/-- A collective fails at this member: no receive byte is written (R336). -/
def State.failColl (s : State) (d : Nat) (x : Coll) (l : Late) : State := (s.failLate x.wave x.ended x.lanes x.pc l).endColl d x

/-- A member whose instance fails by a disagreement lets the others know, so that it fails at every member, also one that has heard nothing of
the disagreement itself (R336; log entry 63). -/
def State.tellColl (s : State) (x : Coll) : State :=
  (s.collPeers x.members x.rank).foldl (fun s q =>
    s.giveStep q.2 x.tag { inst := x.inst, ctx := x.ctx, rank := x.rank, kind := x.kind, type := x.type, n := x.n, p := 0, send := [] }) s

/-- The core whose L1 drops what a collective writes: that of its team, or where it was issued if the team has gone. -/
def State.collCore (s : State) (x : Coll) : Nat := if (s.teams.find? x.team).isSome then s.coreOf x.wave else x.core

/-- An instance that is ready completes or fails (R336). -/
def State.completeColl (s : State) (d : Nat) (x : Coll) : State :=
  if x.failed then (s.tellColl x).failColl d x { cause := 5, info := 0x0A, addr := BitVec.ofNat 64 x.num }
  else
    let bytes := x.received
    match s.translateRecv d x.ctx (bytes.length / 4096 + 2) x.recv bytes.length with
    | (s, .ok pieces) =>
      let s := s.dropLines (s.collCore x) (pieces.flatMap fun p => (List.range (p.2 / 128 + 2)).map fun i => p.1 + min (128 * i) (p.2 - 1))
      let s := (pieces.foldl (fun (acc : State × List Byte) p => (acc.1.l2Write p.1 (acc.2.take p.2), acc.2.drop p.2)) (s, bytes)).1
      s.endColl d x
    | (s, .error (.protection usr, va)) => s.failColl d x { cause := 5, info := BitVec.ofNat 32 (256 + usr.toNat * 1024), addr := va }
    | (s, .error (.fatal level, va)) => s.failColl d x { cause := 7, info := BitVec.ofNat 32 level, addr := va }
    | (s, .error (.migrating, _)) => s
    | (s, .error (.absent, va)) =>
      let r := s.takeTagAs x.ctx (pageOf va) fun t =>
        { addr := pageOf va, kind := 6, access := 1, tag := t, ctx := x.ctx, loc := x.loc, mask := x.lanes, teamId := x.teamId, pc := x.pc }
      r.1.modDie d fun y => { y with colls := y.colls.map fun z => if z.num = x.num then { z with page := r.2, va := va } else z }

/-- COLL_COMPLETE (R336): the first instance of the die that is ready completes or fails. -/
def execCollComplete (die : Nat) (s : State) : Answer :=
  .next (match (s.die die).colls.find? Coll.ready with
    | none => s
    | some x => s.completeColl die x)

/-- COLLECTIVE_STEP (R336): a contribution from a peer member arrives. -/
def execCollectiveStep (die : Nat) (tag : Word) (c : CollStep) (s : State) : Answer := .next (s.giveStep die tag c)

end Sys2Proof.Machine
end

