-- ==== Sys2Proof/Machine/Replay.lean ====
section
/-! DEFINITION. Answers to fault records (R224, R229, R230, R233, R252, R460): replay of parked accesses from their logs, retry
and fail of a tag. -/
namespace Sys2Proof.Machine

/-- The act that a slot replays; none for SYSC and for a fetch. -/
def actOf (i : Instr) : Option Act :=
  match i with
  | .ld k o => some (ldAct k o)
  | .ldt k o => some (ldtAct k o)
  | .ldp k o => some (ldpAct k o)
  | .lde o => some (ldeAct o)
  | .st k o => some (stAct k o)
  | .stt k o => some (sttAct k o)
  | .stp k o => some (stpAct k o)
  | .stc o => some (stcAct o)
  | .lda o c => some (ldaAct o c)
  | .stl o c => some (stlAct o c)
  | .atom o c => some (atomAct o c)
  | .red o c => some (redAct o c)
  | .cas o c => some (casAct o c)
  | .brx o c => some (brxAct o c)
  | .coll o c => some (collAct o c)
  | .launch o => some (launchAct o)
  | .tsub o => some (tsubAct o)
  | .erarm o => some (erarmAct o)
  | _ => none

/-! ## Samples of lanes' requests (R245) -/

/-- The addresses of the global requests of an act that has gathered an address and data: of COLL those of its member list and of what it
sends, which its record names. -/
def State.requestAddrs (s : State) (i : Instr) (addr : DWord) (data : BitVec 128) : List DWord :=
  match i with
  | .ldt _ _ => []
  | .ldp _ _ => []
  | .stt _ _ => []
  | .stp _ _ => []
  | .lda _ c => if c.space = 0 then [addr] else []
  | .stl _ c => if c.space = 0 then [addr] else []
  | .atom _ c => if c.space = 0 then [addr] else []
  | .red _ c => if c.space = 0 then [addr] else []
  | .cas _ c => if c.space = 0 then [addr] else []
  | .coll _ _ =>
    match s.recordAt (data.toNat % 2 ^ 64) 64 with
    | some r => [BitVec.ofNat 64 (fld r 24 8), BitVec.ofNat 64 (fld r 0 8)]
    | none => []
  | _ => [addr]

/-- The addresses of the global requests that a lane of the executing group makes: of the spill stack, which has no other, the physical ones; of
PF, where it reaches a line. -/
def State.requestsOf (s : State) (i : Instr) (l : Nat) : List DWord :=
  match i with
  | .pushv _ => [BitVec.ofNat 64 (s.pre.spillWord s.pre.ssp l)]
  | .popv _ => [BitVec.ofNat 64 (s.pre.spillWord (s.pre.ssp - 128) l)]
  | .pf o => if (s.lineAt o l).2.isSome then [addrAB 0 (reader s.pre o l)] else []
  | i =>
    match actOf i with
    | some a => s.requestAddrs i (a.gather s l).1 (a.gather s l).2
    | none => []

/-- Requests of a lane of the executing group are counted. -/
def State.noteAll (s : State) (l : Nat) (addrs : List DWord) : State :=
  addrs.foldl (fun s a => s.countRequest s.coreNo s.ctxNo { pc := s.cur.pc, addr := a, loc := s.location s.cur.wave l }) s

/-- The length of an instruction in bytes (R117). -/
def lengthOf (i : Instr) : Nat := if Encoding.twoWords i then 8 else 4

/-- The executing group of a replay: the parked lanes, at the logged address, with the logged window bases (R224). -/
def State.enterReplay (s : State) (k : Nat) (x : Slot) (m : BitVec 32) : State :=
  { s with cur := { Cur.none with wave := k, mask := m, pc := x.pc, w0 := x.w0, w1 := x.w1, len := lengthOf x.instr,
                                  pre := some { s.wave k with vb := x.vb, sb := x.sb } } }

/-- The register lines that a result of a logged instruction may go to, through the logged windows: it has at most four registers. -/
def Slot.destLines (x : Slot) (w : Wave) : List Nat :=
  linesUsed { w with vb := x.vb, sb := x.sb } (scalarOf x.instr) (nwOf x.instr) ((usesOf x.instr { d := 4, a := 1, b := 1 }).filter (·.dst))

/-- Park lanes again in their slot on the pages they meet now; a lane for which no tag is free becomes Blocked at its instruction
(R225, R229). -/
def State.parkAgain (s : State) (k slot : Nat) (pc : DWord) (ps : List Parking) : State :=
  ps.foldl (fun s p =>
    let again := fun (s : State) (t : Option Nat) => s.modWave k fun w =>
      { w with slots := w.slots.mod slot fun x => { x with lanes := x.lanes.mod p.lane fun y => { y with tag := t } } }
    if p.migration then again s none
    else
      match s.takeTag k pc ps p with
      | (s, some t) => again s (some t)
      | (s, none) => (s.unpark k slot p.lane).block k (1#32 <<< p.lane) .tag) s

/-- Lanes leave their slot, Ready at their instruction. -/
def State.leaveSlot (s : State) (k slot : Nat) (m : BitVec 32) : State :=
  (lanesOf m).foldl (fun s l => s.unpark k slot l) (s.modLanes k m fun _ x => { x with life := .ready })

/-- What follows the acts of a replay: those that completed go on, the others stop again. -/
def State.settleReplay (s : State) (k slot : Nat) (x : Slot) (m : BitVec 32) (moves : Bool) (stops : List (Nat × Stop)) : State :=
  let parks := stops.filterMap fun p => p.2.parking p.1
  let traps := stops.filterMap fun p => p.2.report p.1 false
  let ended := m &&& ~~~ maskOf (stops.map (·.1))
  let w := s.wave k
  let s := s.leaveSlot k slot (m &&& ~~~ maskOf (parks.map (·.lane)))
  let s := if moves then s.modLanes k ended fun l y => { y with pc := (w.lane l).pc } else s.advance ended
  let s := s.parkAgain k slot x.pc parks
  let s := stops.foldl (fun s p => match p.2 with
    | .block b => s.block k (1#32 <<< p.1) b
    | _ => s) s
  if traps.isEmpty then s else s.raise k m x.pc traps

/-- Replay lanes of a slot from its log (R229, R230), once the lines of its result are there (R68, R69): SYSC completes
with its acquire (R460), a fetch is made afresh. -/
def State.replay (s : State) (k slot : Nat) (x : Slot) (m : BitVec 32) : State :=
  let outer := s.cur
  let s := (s.fillAbsent k (x.destLines (s.wave k))).enterReplay k x m
  let s := match actOf x.instr, x.instr with
    | some a, i =>
      let log := fun (l : Nat) => x.lanes.get l { addr := 0, data := 0, tag := none }
      let r : State × List (Nat × Stop) :=
        if scalarOf i then
          let r := a.body s 0 (log (lowest m)).addr (log (lowest m)).data
          (r.1, match r.2 with
                | some e => (lanesOf m).map fun l => (l, e)
                | none => [])
        else
          (lanesOf m).foldl (fun (acc : State × List (Nat × Stop)) l =>
            let r := a.body acc.1 l (log l).addr (log l).data
            (r.1, match r.2 with
                  | some e => acc.2 ++ [(l, e)]
                  | none => acc.2)) (s, [])
      let ended := m &&& ~~~ maskOf (r.2.map Prod.fst)
      let t : State := (if scalarOf i then (lanesOf ended).take 1 else lanesOf ended).foldl (fun (s : State) l =>
        s.noteAll l (s.requestAddrs i (log l).addr (log l).data)) r.1
      t.settleReplay k slot x m a.moves r.2
    | none, .sysc _ => ((s.acquire s.coreNo 4).leaveSlot k slot m).advance m
    | none, _ => s.leaveSlot k slot m
  { s with cur := outer }

/-- A fault record failed: PAGE_FAULT with the tag and the lane's address, or SOFTWARE for SYSC (R229, R460). -/
def State.failParked (s : State) (k slot : Nat) (x : Slot) (m : BitVec 32) (tag : Nat) : State :=
  let addr := fun (l : Nat) => (x.lanes.get l { addr := 0, data := 0, tag := none }).addr
  let rs := (lanesOf m).map fun l => match x.instr with
    | .sysc o => { lane := l, cause := 0x14, info := BitVec.ofNat 32 o.b.toNat, addr := 0 : Report }
    | _ => { lane := l, cause := 6, info := BitVec.ofNat 32 tag, addr := addr l }
  (s.leaveSlot k slot m).raise k m x.pc rs

/-- The lanes of each slot that wait on a tag of a context. -/
def State.waiters (s : State) (c tag : Nat) : List (Nat × Nat × BitVec 32) :=
  s.waves.flatMap fun p =>
    if s.ctxOf p.1 = c then
      p.2.slots.filterMap fun q =>
        let m := maskOf ((q.2.lanes.filter fun r => r.2.tag == some tag).map (·.1))
        if m = 0 then none else some (p.1, q.1, m)
    else []

/-- Commands and collectives that wait on a tag go on, or fail with PAGE_FAULT at the address that met the page (R218, R296, R301). -/
def State.resolveEngines (s : State) (c tag : Nat) (fail : Bool) : State :=
  let late := fun (va : DWord) => { cause := 6, info := BitVec.ofNat 32 tag, addr := va : Late }
  let wait := fun (x : Cmd) => x.ctx == c && x.tag == some tag
  s.cores.foldl (fun s p =>
    let s := (p.2.mq.filter wait).foldl (fun s x =>
      if fail then s.failMatrix p.1 x (late x.va) else s.modMx p.1 x.num fun y => { y with tag := none }) s
    (p.2.copy.flatMap fun q => q.2.queue.filter wait).foldl (fun s x =>
      if fail then s.failCopy p.1 x (late x.va) else s.modCpy p.1 x.ctx x.num fun y => { y with tag := none }) s)
    (s.dies.foldl (fun s p =>
      (p.2.colls.filter fun x => x.ctx == c && x.page == some tag).foldl (fun s x =>
        if fail then s.failColl p.1 x (late x.va)
        else s.modDie p.1 fun y => { y with colls := y.colls.map fun z => if z.num = x.num then { z with page := none } else z }) s) s)

/-- Whether a wave's team is resident. -/
def State.residentWave (s : State) (k : Nat) : Bool := (s.team (k / 64)).state == .resident && (s.waves.find? k).isSome

/-- Lanes of a slot follow how their tag was resolved. -/
def State.follow (s : State) (k slot : Nat) (m : BitVec 32) (tag : Nat) (fail : Bool) : State :=
  if s.residentWave k then
    match (s.wave k).slots.find? slot with
    | some x => if fail then s.failParked k slot x m tag else s.replay k slot x m
    | none => s
  else s

/-- Resolve a tag that is in use (R229): action 0 retries, action 1 fails. Lanes of a saved team follow at its restore (R233); until the last
lane has left it the tag stays in use, and a second resolution of it changes nothing (log entry 67). -/
def State.resolveTag (s : State) (c tag : Nat) (fail : Bool) : State :=
  match (s.ctx c).tags.find? tag with
  | none => s
  | some x =>
    if x.resolved.isSome then s
    else
      let s := s.modCtx c fun y => { y with tags := y.tags.put tag { x with resolved := some fail } }
      let ws := s.waiters c tag
      (ws.foldl (fun s (k, slot, m) => s.follow k slot m tag fail) (s.resolveEngines c tag fail)).sweepTags c

/-- FQRES_RETRY (R229). -/
def execFqresRetry (ctx tag : Nat) (s : State) : Answer := .next (s.resolveTag ctx tag false)

/-- FQRES_FAIL (R229). -/
def execFqresFail (ctx tag : Nat) (s : State) : Answer := .next (s.resolveTag ctx tag true)

/-- FAULT_RECORD_WRITE (R228): a record that waited is written once there is room. -/
def execFaultRecordWrite (ctx : Nat) (s : State) : Answer :=
  .next (match (s.ctx ctx).waiting with
    | r :: rs => if (s.ctx ctx).queueFull then s else (s.modCtx ctx fun x => { x with waiting := rs }).writeRecord ctx r
    | [] => s)

end Sys2Proof.Machine
end

