-- ==== Sys2Proof/Machine/Special.lean ====
section
/-! DEFINITION. Special registers (R6, R16, R17, R28, R29, R81 to R85, R173, R227, R252, R256, R304, R307, R308, R315, R322,
R323, R324, R332, R338, R341): which numbers are assigned, what each reads, and what a write of each does. -/
namespace Sys2Proof.Machine

/-! ## Numbers (R81) -/

/-- The even numbers of the 64-bit registers. -/
def srPairs : List Nat :=
  [0x016, 0x022, 0x024, 0x028, 0x040, 0x042, 0x210, 0x212, 0x214, 0x216, 0x218, 0x220, 0x230, 0x238, 0x23C, 0x240, 0x248, 0x252,
   0x256, 0x264, 0x266, 0x26A, 0x270, 0x272]

/-- The 32-bit registers outside the counters. -/
def srWords : List Nat :=
  [0x000, 0x001, 0x002, 0x003, 0x004, 0x005, 0x006, 0x007, 0x008, 0x009, 0x00A, 0x00B, 0x010, 0x011, 0x012, 0x013, 0x014, 0x015,
   0x020, 0x021, 0x026, 0x027, 0x100, 0x200, 0x201, 0x202, 0x203, 0x204, 0x205, 0x206, 0x207, 0x224, 0x232, 0x233, 0x234, 0x235,
   0x236, 0x237, 0x23A, 0x23B, 0x250, 0x251, 0x254, 0x255, 0x258, 0x259, 0x260, 0x261, 0x262, 0x263, 0x268, 0x269, 0x26C, 0x26D,
   0x26E, 0x26F, 0x274]

/-- Whether a number is half of a 64-bit register, and whether it is assigned. -/
def srIsPair (n : Nat) : Bool := srPairs.contains (n / 2 * 2)
def srAssigned (n : Nat) : Bool := srIsPair n || srWords.contains n || (0x120 ≤ n && n < 0x140)

/-- Clks of a microsecond and of a millisecond at the current clock (R8, R345). -/
def State.us (s : State) : Nat := s.mod.mhz
def State.ms (s : State) : Nat := s.mod.mhz * 1000

/-- Registers held per lane (R82). -/
def srPerLane (n : Nat) : Bool := n == 0 || (0x020 ≤ n && n ≤ 0x027)

/-- The number of the host bridge's own selector, which no wave reaches (R338). -/
def brsel : Nat := 0x26F

/-! ## Who accesses -/

/-- The party of an access: a wave with its executing group, or the host bridge; the core it acts on; its view and context. -/
structure Agent where
  wave : Option Nat
  mask : BitVec 32
  core : Nat
  ctx : Nat
  deriving DecidableEq, Repr

/-- The executing wave, and the host bridge on the die and core that BRSEL names. A core number above 47 has no core: which
one then answers is free. -/
def State.waveAgent (s : State) : Agent := { wave := some s.cur.wave, mask := s.mask, core := s.coreNo, ctx := s.ctxNo }
def State.bridgeAgent (s : State) : Agent :=
  let c := (s.mod.brsel.extractLsb' 8 6).toNat
  let c := if c < Config.coresPerDie then c else Config.freeChoice c % Config.coresPerDie
  { wave := none, mask := 0, core := (s.mod.brsel.extractLsb' 0 2).toNat * Config.coresPerDie + c, ctx := 0 }

/-- A selector: held by the wave, with a separate copy for the bridge (R338). -/
def State.sel (s : State) (a : Agent) (n : Nat) : Word :=
  match a.wave with
  | none => s.mod.bridge.get n 0
  | some k =>
    let w := s.wave k
    match n with
    | 0x100 => w.cntsel | 0x201 => w.ctxsel | 0x204 => w.slotsel | 0x206 => w.bwsel | 0x250 => w.lqsel | 0x262 => w.peersel
    | 0x268 => w.lwsel | _ => 0

/-- The bits of a selector (R82, R244, R304, R307, R324, R332). -/
def selBits (n : Nat) : Word :=
  match n with
  | 0x100 => 7 | 0x201 => 0xF | 0x204 => 0x3F | 0x206 => 0x3F | 0x250 => 0x3F | 0x262 => 0x3FF | 0x268 => 0x3F | _ => 0

/-- Write a selector; BWSEL.CTRL keeps its value on a write of 3 (R324). -/
def State.setSel (s : State) (a : Agent) (n : Nat) (v : Word) : State :=
  let v := v &&& selBits n
  let v := if n = 0x206 ∧ v.extractLsb' 4 2 = 3#2 then (v &&& 0xF) ||| (s.sel a n &&& 0x30) else v
  match a.wave with
  | none => s.modMod fun m => { m with bridge := m.bridge.set 0 n v }
  | some k => s.modWave k fun w =>
    match n with
    | 0x100 => { w with cntsel := v } | 0x201 => { w with ctxsel := v } | 0x204 => { w with slotsel := v }
    | 0x206 => { w with bwsel := v } | 0x250 => { w with lqsel := v } | 0x262 => { w with peersel := v }
    | 0x268 => { w with lwsel := v } | _ => w

/-- The context, queue, window, slot and share that selectors name. -/
def State.ctxSel (s : State) (a : Agent) : Nat := (s.sel a 0x201).toNat
def State.lqSel (s : State) (a : Agent) : Nat := (s.sel a 0x250).toNat
def State.lwSel (s : State) (a : Agent) : Nat := (s.sel a 0x268).toNat
def State.slotSel (s : State) (a : Agent) : Nat := (s.sel a 0x204).toNat
def State.shareSel (s : State) (a : Agent) : Nat := (s.sel a 0x206).toNat
def Agent.die (a : Agent) : Nat := a.core / Config.coresPerDie

/-! ## Windows with pending writes (R304, R324, R16) -/

/-- SLOTTAB and BWSHARE as they read: what was last written. -/
def Core.slotRead (x : Core) (i : Nat) : Word := (x.slotPending.find? i).getD (x.slotEntry i)
def Die.shareRead (x : Die) (i : Nat) : Word := (x.bwPending.find? i).getD (x.bwshare.get i 16)

/-- The sum of a controller's shares with one of them changed. -/
def Die.shareSum (x : Die) (i : Nat) (v : Nat) : Nat :=
  ((List.range 16).map fun c => let j := i / 16 * 16 + c; if j = i then v else (x.shareRead j).toNat).sum

/-- A die enters a bandwidth window: writes made to its shares in an earlier one take effect (R324). -/
def Die.enterWindow (x : Die) (now : Nat) : Die :=
  if x.bwNow = now then x
  else { x with bwNow := now, bwshare := x.bwPending.foldl (fun t p => t.put p.1 p.2) x.bwshare, bwPending := [] }

/-- DSPCFG as it reads: DSPSZ as last written, and BUSY (R16, R19). -/
def Die.dspRead (x : Die) : Word :=
  match x.dspNext with
  | some n => BitVec.ofNat 32 (0x80000000 + n)
  | none => x.dspcfg

/-- TQCFG of a context on a die (R307, R315). -/
def Die.tq (x : Die) (ctx : Nat) : Word := x.tqcfg.get ctx 0x00800040

/-! ## Team coordinates (R54) -/

/-- The coordinates of a team in its grid. -/
def State.coord (s : State) (t i : Nat) : Nat :=
  match s.grids.find? (s.team t).grid with
  | none => 0
  | some g =>
    let l := (s.team t).lin
    match i with
    | 0 => l % g.record.gx
    | 1 => l / g.record.gx % g.record.gy
    | _ => l / g.record.gx / g.record.gy

/-! ## Peers (R332) -/

/-- PEERSTAT for a module number. -/
def State.peerStat (s : State) (n : Nat) : Word :=
  if n = s.mod.modnum.toNat % 1024 then s.mod.fabstat &&& 0x7FFFFFFF
  else
    match s.mod.peers.find? n with
    | none => 0x80000000
    | some p => if p.reachable then p.fabstat &&& 0x7FFFFFFF else p.fabstat ||| 0x80000000

/-! ## Reads -/

/-- What a register of a wave or of its lane reads. FCSR and WSTAT hold what the clk's first pick has raised or marked already: R42 orders
the picks' operands alone, and how these registers read beside it is DEDUCED (log entry 22). -/
def State.srUser (s : State) (k : Nat) (mask : BitVec 32) (n lane : Nat) : DWord :=
  let w := s.wave k
  let l := w.lane lane
  let t := s.team (k / 64)
  let x := s.ctx t.ctx
  let word := fun (v : Nat) => BitVec.ofNat 64 v
  let wide := fun (v : Word) => v.zeroExtend 64
  match n with
  | 0x000 => word lane
  | 0x001 => word w.waveId
  | 0x002 => word t.lin
  | 0x003 => word (s.coord (k / 64) 0)
  | 0x004 => word (s.coord (k / 64) 1)
  | 0x005 => word (s.coord (k / 64) 2)
  | 0x006 => word (t.core % Config.coresPerDie)
  | 0x007 => word (t.core / Config.coresPerDie)
  | 0x008 => word t.ctx
  | 0x009 => word t.depth
  | 0x00A => wide mask
  | 0x00B => word (w.sb * 65536 + w.vb)
  | 0x010 => wide (s.readWstat k)
  | 0x011 => wide w.fcsr
  | 0x012 => wide w.tstatus
  | 0x013 => word w.ssp
  | 0x014 => word w.sslim
  | 0x015 => wide x.spwndly
  | 0x016 => x.featmask
  | 0x020 => wide l.tcause
  | 0x021 => wide l.tinfo
  | 0x022 => l.tpc
  | 0x024 => l.taddr
  | 0x026 => wide l.tparent
  | 0x027 => wide l.tsibs
  | 0x028 => w.trapvec
  | 0x040 => x.hwbase
  | 0x042 => x.hwlim
  | 0x218 => w.rimg
  | _ => 0

/-- What a register of the privileged view reads. -/
def State.srPriv (s : State) (a : Agent) (n : Nat) : DWord :=
  let x := s.ctx (s.ctxSel a)
  let d := s.die a.die
  let q := s.queue (s.lqSel a)
  let m := s.mod
  let wide := fun (v : Word) => v.zeroExtend 64
  match n with
  | 0x200 => wide d.dspRead
  | 0x202 => wide x.critmax
  | 0x203 => wide x.swapthr
  | 0x205 => wide ((s.core a.core).slotRead (s.slotSel a))
  | 0x207 => wide (d.shareRead (s.shareSel a))
  | 0x210 => x.hwbase
  | 0x212 => x.hwlim
  | 0x214 => x.hwoff
  | 0x216 => x.tvdef
  | 0x220 => x.ptroot
  | 0x224 => wide (d.dspwin.get (s.ctxSel a) 0)
  | 0x230 => x.fqbase
  | 0x232 => wide x.fqsize
  | 0x233 => wide x.fqhead
  | 0x234 => wide x.fqtail
  | 0x236 => wide x.fqbar
  | 0x237 => wide x.wdtime
  | 0x238 => x.cnttot
  | 0x23A => wide x.sampcfg
  | 0x23B => wide x.samphead
  | 0x23C => x.sampbuf
  | 0x240 => x.rgtbase
  | 0x248 => x.featmask
  | 0x251 => wide q.cfg
  | 0x252 => q.base
  | 0x254 => wide q.tail
  | 0x255 => wide q.head
  | 0x256 => d.plcmask
  | 0x258 => wide (d.tq (s.ctxSel a))
  | 0x259 => wide d.therm
  | 0x260 => wide m.modnum
  | 0x261 => wide m.fabstat
  | 0x263 => wide (s.peerStat (s.sel a 0x262).toNat)
  | 0x264 => m.expbase
  | 0x266 => m.explen
  | 0x269 => wide (m.lwcfg.get (s.lwSel a) 0)
  | 0x26A => m.hcqbase
  | 0x26C => wide m.hcqcfg
  | 0x26D => wide m.hcqhead
  | 0x26E => wide m.pwrcap
  | 0x26F => wide m.brsel
  | 0x270 => x.imgb
  | 0x272 => x.imgl
  | 0x274 => (if x.live then 0x80000000 else 0) ||| (if x.busy then 0x40000000 else 0)
  | _ => 0

/-- Where a core keeps a counter of a context's bank (R244). -/
def counterKey (ctx bank i : Nat) : Nat := ctx * 256 + bank * 32 + i

/-- An event counter counts up to this clk: by at most one event a clk. How many there were is free, for the spec lists no event (R244; log
entry 22). -/
def State.count (s : State) (core key : Nat) : State × Counter :=
  let c := (s.core core).counters.get key { value := 0, at_ := 0, swept := 0 }
  let r := s.fresh
  let c := { c with value := c.value + BitVec.ofNat 32 (Config.freeChoice r.1 % (s.clk - c.at_ + 1)), at_ := s.clk }
  (r.2.modCore core fun x => { x with counters := x.counters.put key c }, c)

/-- Read the register at a number, an even one for a pair. An event counter is of the bank that CNTSEL selects (R244). FQHEAD is an
acquire (R252). -/
def State.srRead (s : State) (a : Agent) (n lane : Nat) : State × DWord :=
  if 0x120 ≤ n ∧ n < 0x140 then
    let r := s.count a.core (counterKey a.ctx (s.sel a 0x100).toNat (n - 0x120))
    (r.1, r.2.value.zeroExtend 64)
  else if selBits n ≠ 0 then (s, (s.sel a n).zeroExtend 64)
  else
    let s := if n = 0x233 ∧ a.wave.isSome then s.acquire a.core 4 else s
    match a.wave with
    | some k => (s, if n < 0x200 ∨ n = 0x218 then s.srUser k a.mask n lane else s.srPriv a n)
    | none => (s, s.srPriv a n)

/-! ## Effects of writes -/

/-- LQCFG (R307, R308). -/
def Queue.writeCfg (q : Queue) (v : Word) : Queue :=
  let bad := q.cfg &&& 0x40000000 &&& ~~~ v
  let size := if 4 ≤ (v &&& 0x1F).toNat ∧ (v &&& 0x1F).toNat ≤ 16 then v &&& 0x1F else q.cfg &&& 0x1F
  let fixed := if q.cfg.getLsbD 31 then q.cfg &&& 0x000F001F else (v &&& 0x000F0000) ||| size
  { q with cfg := (v &&& 0x80000700) ||| bad ||| fixed }

/-- The ring size of a queue, and the context of its grids. -/
def Queue.size (q : Queue) : Nat := 2 ^ (q.cfg &&& 0x1F).toNat
def Queue.ctx (q : Queue) : Nat := (q.cfg.extractLsb' 16 4).toNat
def Queue.enabled (q : Queue) : Bool := q.cfg.getLsbD 31
def Queue.setBad (q : Queue) : Queue := { q with cfg := q.cfg ||| 0x40000000 }

/-- Whether an enabled launch window names a queue (R341). -/
def State.windowed (s : State) (q : Nat) : Bool :=
  s.mod.lwcfg.any fun p => p.2.getLsbD 31 && (p.2.extractLsb' 24 6).toNat == q

/-- A write of LQTAIL (R308, R341). -/
def State.writeTail (s : State) (q : Nat) (v : Word) : State :=
  let x := s.queue q
  s.modQueue q fun y => if s.windowed q ∨ x.size < (v - x.head).toNat then y.setBad else { y with tail := v }

/-- A write of DSPSZ (R17, R19). Stores of the die that were issued before it are performed first. -/
def State.writeDspsz (s : State) (d n : Nat) : State :=
  let x := s.die d
  if x.busy ∨ 11 < n ∨ n = (x.dspcfg.extractLsb' 0 4).toNat then s
  else
    ((s.waves.filter fun p => s.dieOf p.1 == d && !p.2.stores.isEmpty).foldl (fun s p => s.drain p.1) s).modDie d fun x =>
      { x with dspNext := some n }

/-- What Create resets and Destroy drops in the caches of the cores and dies (R29). -/
def State.dropContext (s : State) (c : Nat) : State :=
  { s with
    cores := s.cores.mapAll fun _ x =>
      { x with adopt := x.adopt.filter (·.ctx != c), icache := x.icache.filter (·.ctx != c), tlb := x.tlb.filter (·.ctx != c) }
    dies := s.dies.mapAll fun _ x =>
      { x with resid := x.resid.filter (·.ctx != c), tlb := x.tlb.filter (·.ctx != c), walk := x.walk.filter (·.ctx != c) } }

/-- A team is discarded without a record, an arrival or a relaunch (R29, R478). -/
def State.discardTeam (s : State) (t : Nat) : State :=
  let core := (s.team t).core
  let s := ((s.wavesOf t).foldl State.dropWave s).release core 4
  let s := s.modCore core fun c => { c with bins := c.bins.filter fun p => p.2.team != t, mq := c.mq.map (Cmd.dropFor t),
                                            copy := c.copy.mapAll fun _ y => { y with queue := y.queue.map (Cmd.dropFor t) } }
  let s := s.settleEngines core
  if s.hasCommands t then s.modTeam t fun x => { x with state := .killed, pending := [] } else s.freeTeam t

/-- The start of Destroy (R29): everything of the context is killed and dropped. Every member of its collectives on this module is of the context
too, and goes with it (log entry 63). -/
def State.destroyStart (s : State) (c : Nat) : State :=
  let s := s.modCtx c fun x => { x with busy := true, creating := false }
  let s := (s.teams.filter fun p => p.2.ctx == c).foldl (fun s p => s.discardTeam p.1) s
  let s := { s with grids := s.grids.filter fun p => p.2.ctx != c }
  let s := { s with
    dies := s.dies.mapAll fun _ x => { x with units := x.units.mapAll fun k u => if k = c then { u with pool := [] } else u
                                              graphs := x.graphs.filter (·.ctx != c)
                                              colls := x.colls.filter (·.ctx != c)
                                              collSteps := x.collSteps.filter (·.2.ctx != c)
                                              collCount := x.collCount.filter fun p => p.1 / 1024 % 16 != c }
    queues := s.queues.mapAll fun _ q => if q.ctx = c then { q with cfg := q.cfg &&& 0x7FFFFFFF } else q
    mod := { s.mod with lwcfg := s.mod.lwcfg.mapAll fun _ v =>
      if (s.queue (v.extractLsb' 24 6).toNat).ctx = c then v &&& 0x7FFFFFFF else v } }
  (s.modCtx c fun x => { x with tags := [], waiting := [] }).dropContext c

/-- A write of CTXCTL (R28, R29). -/
def State.writeCtxctl (s : State) (c : Nat) (cmd : Nat) : State :=
  let x := s.ctx c
  if c = 0 ∨ x.busy then s
  else if cmd = 1 ∧ x.live = false then s.modCtx c fun x => { x with busy := true, creating := true }
  else if cmd = 2 ∧ x.live = true then s.destroyStart c
  else s

/-- TQCFG (R315): fields out of range keep their values. -/
def writeTq (old v : Word) : Word :=
  let vr := (v.extractLsb' 16 10).toNat
  let sr := (v.extractLsb' 0 9).toNat
  (if 1 ≤ vr ∧ vr ≤ 512 then v &&& 0x03FF0000 else old &&& 0x03FF0000) ||| (v &&& 0x7000) |||
    (if 1 ≤ sr ∧ sr ≤ 256 then v &&& 0x1FF else old &&& 0x1FF)

/-- Sizes that FQSIZE takes (R227). -/
def fqSizes : List Nat := (List.range 13).map fun i => 2 ^ (i + 4)

/-! ## Writes -/

/-- Write a register of the executing wave, or of a lane. `priv` is the privileged view: SSP, SPWNDLY, TCAUSE, TINFO and TADDR
are RO in the other. -/
def State.srWriteUser (s : State) (k : Nat) (priv : Bool) (n lane : Nat) (v : DWord) : State :=
  let w32 := lo32 v
  let c := s.ctxOf k
  match n with
  | 0x010 => s.modWave k fun w => { w with wstat := writeWstat w.wstat w32 }
  | 0x011 => s.modWave k fun w => { w with fcsr := writeFcsr w.fcsr w32 s.cur.raised }
  | 0x022 => s.modLane k lane fun l => { l with tpc := v }
  | 0x028 => s.modWave k fun w => { w with trapvec := v &&& ~~~ (3#64) }
  | 0x013 => if priv then s.modWave k fun w => { w with ssp := w32.toNat } else s
  | 0x015 => if priv ∧ w32 &&& 0xFFFF ≠ 0 then s.modCtx c fun x => { x with spwndly := w32 &&& 0xFFFF } else s
  | 0x020 => if priv then s.modLane k lane fun l => { l with tcause := w32 } else s
  | 0x021 => if priv then s.modLane k lane fun l => { l with tinfo := w32 } else s
  | 0x024 => if priv then s.modLane k lane fun l => { l with taddr := v } else s
  | _ => s

/-- A core's temperature against its die's THERM (R323): above the threshold it is held hot, until it falls below the threshold by more than
the hysteresis. -/
def Core.judgeHeat (x : Core) (therm : Word) (clk : Nat) : Core :=
  let limit := (therm.extractLsb' 8 8).toNat
  if limit < x.celsius then (if x.hot then x else { x with hot := true, hotSince := clk })
  else if x.celsius + (therm.extractLsb' 0 8).toNat < limit then { x with hot := false }
  else x

/-- A write of THERM judges the die's cores anew (R323). -/
def State.writeTherm (s : State) (d : Nat) (v : Word) : State :=
  let s := s.modDie d fun x => { x with therm := v }
  { s with cores := s.cores.mapAll fun c x => if c / Config.coresPerDie = d then x.judgeHeat v s.clk else x }

/-- Write a register of the context that CTXSEL names. CTXIMGB and CTXIMGL keep their values while the context is LIVE, which context 0
is from reset on; how it comes by an image area the spec does not say (R28; log entry 3). -/
def State.srWriteCtx (s : State) (c n : Nat) (v : DWord) : State :=
  let w := lo32 v
  s.modCtx c fun x =>
    match n with
    | 0x202 => { x with critmax := w &&& 0xFFFFFF }
    | 0x203 => { x with swapthr := w &&& 0xFFFFFF }
    | 0x210 => { x with hwbase := v &&& ~~~ (0x1FFFFF#64) }
    | 0x212 => { x with hwlim := v &&& ~~~ (0x1FFFFF#64) }
    | 0x214 => { x with hwoff := v &&& ~~~ (0x1FFFFF#64) }
    | 0x216 => { x with tvdef := v }
    | 0x220 => { x with ptroot := v &&& ~~~ (0xFFF#64) }
    | 0x230 => { x with fqbase := v &&& ~~~ (0x1F#64) }
    | 0x232 => if fqSizes.contains w.toNat then { x with fqsize := w } else x
    | 0x234 => { x with fqtail := w }
    | 0x236 => { x with fqbar := w &&& 0x8000FFFF }
    | 0x237 => { x with wdtime := w }
    | 0x238 => { x with cnttot := v }
    | 0x23A => { x with sampcfg := w &&& 0xF000FFFF }
    | 0x23C => { x with sampbuf := v &&& ~~~ (0x1F#64) }
    | 0x240 => { x with rgtbase := v &&& ~~~ (0xFFF#64) }
    | 0x248 => { x with featmask := v &&& 0xFF }
    | 0x270 => if x.live then x else { x with imgb := v &&& ~~~ (0xFFF#64) }
    | 0x272 => if x.live then x else { x with imgl := v &&& ~~~ (0xFFF#64) }
    | _ => x

/-- Numbers of the registers that `srWriteCtx` writes. -/
def srCtxRegs : List Nat :=
  [0x202, 0x203, 0x210, 0x212, 0x214, 0x216, 0x220, 0x230, 0x232, 0x234, 0x236, 0x237, 0x238, 0x23A, 0x23C, 0x240, 0x248, 0x270,
   0x272]

/-- Set FABSTAT.HALTED: issue stops on every core (R338, R400). -/
def State.halt (s : State) : State :=
  s.modMod fun m => { m with fabstat := m.fabstat ||| 1, haltedAt := if m.haltedAt.isSome then m.haltedAt else some s.clk }

/-- A wait that has not advanced while the module was halted (R53, R400). -/
def Lane.delay (l : Lane) (n : Nat) : Lane :=
  match l.life with
  | .blocked (.barw o p a next since) => { l with life := .blocked (.barw o p a next (since + n)) }
  | .blocked (.halt next) => { l with life := .ready, pc := next }
  | _ => l

/-- Clear FABSTAT.HALTED: a wave goes on after its HALT, and neither the watchdog counts nor the swap waits have advanced
(R400). -/
def State.unhalt (s : State) : State :=
  let n := match s.mod.haltedAt with
    | some t => s.clk - t
    | none => 0
  let s := s.modMod fun m => { m with fabstat := m.fabstat &&& 0xFFFFFFFE, haltedAt := none }
  { s with waves := s.waves.mapAll fun _ w => { w with lanes := w.lanes.mapAll fun _ l => l.delay n }
           ctxs := s.ctxs.mapAll fun _ x => { x with wdSince := x.wdSince.map (· + n) } }

/-- A write of FABSTAT: HALTED as the bridge sets and clears it, and RESET. -/
def State.writeFabstat (s : State) (v : Word) : State :=
  let s := s.modMod fun m => { m with fabstat := (m.fabstat &&& 1) ||| (v &&& 2) }
  if v.getLsbD 0 then s.halt else s.unhalt

/-- Write a register of the module. -/
def State.srWriteMod (s : State) (a : Agent) (n : Nat) (v : DWord) : State :=
  let w := lo32 v
  s.modMod fun m =>
    match n with
    | 0x264 => { m with expbase := v &&& ~~~ (0x1FFFFF#64) }
    | 0x266 => { m with explen := v }
    | 0x269 => { m with lwcfg := m.lwcfg.set 0 (s.lwSel a) (w &&& 0xBFFFFFFF) }
    | 0x26A => { m with hcqbase := v &&& ~~~ (0xF#64) }
    | 0x26C => { m with hcqcfg := w &&& 0x801F0000 }
    | 0x26E => if 600 ≤ (w &&& 0xFFF).toNat ∧ (w &&& 0xFFF).toNat ≤ 2500 then { m with pwrcap := w &&& 0xFFF } else m
    | 0x26F => { m with brsel := w &&& 0x3F03 }
    | _ => m

/-- Write a register of the privileged view. A wave's write of FQRES or LQTAIL takes effect after its earlier accesses have been
performed at device scope (R252, R308). -/
def State.srWritePriv (s : State) (a : Agent) (n : Nat) (v : DWord) : State :=
  let w := lo32 v
  let c := s.ctxSel a
  let d := a.die
  let settled := fun (s : State) => if a.wave.isSome then s.release a.core 4 else s
  if srCtxRegs.contains n then s.srWriteCtx c n v
  else
    match n with
    | 0x200 => s.writeDspsz d (w &&& 0xF).toNat
    | 0x205 =>
      s.modCore a.core fun x =>
        let x := x.enterSlot (s.clk / 2048)
        { x with slotPending := x.slotPending.put (s.slotSel a) (w &&& 0x1F) }
    | 0x207 =>
      let i := s.shareSel a
      if 256 < (s.die d).shareSum i (w &&& 0x1FF).toNat then s
      else s.modDie d fun x =>
        let x := x.enterWindow (s.clk / s.us)
        { x with bwPending := x.bwPending.put i (w &&& 0x1FF) }
    | 0x224 => s.modDie d fun x => { x with dspwin := x.dspwin.set 0 c w }
    | 0x235 =>
      let s := settled s
      match (w.extractLsb' 8 2).toNat with
      | 0 => s.resolveTag c (w &&& 0xFF).toNat false
      | 1 => s.resolveTag c (w &&& 0xFF).toNat true
      | _ => s
    | 0x251 => s.modQueue (s.lqSel a) fun q => q.writeCfg w
    | 0x252 => s.modQueue (s.lqSel a) fun q => if q.enabled then q else { q with base := v &&& ~~~ (0x3F#64) }
    | 0x254 => (settled s).writeTail (s.lqSel a) w
    | 0x256 => s.modDie d fun x => { x with plcmask := v &&& 0xFFFFFFFFFFFF }
    | 0x258 => s.modDie d fun x => { x with tqcfg := x.tqcfg.put c (writeTq (x.tq c) w) }
    | 0x259 => s.writeTherm d (w &&& 0xFFFF)
    | 0x261 => s.writeFabstat w
    | 0x274 => s.writeCtxctl c (w &&& 3).toNat
    | _ => s.srWriteMod a n v

/-- Write the register at a number, an even one for a pair. -/
def State.srWrite (s : State) (a : Agent) (n lane : Nat) (v : DWord) : State :=
  if selBits n ≠ 0 then s.setSel a n (lo32 v)
  else if n < 0x200 then
    match a.wave with
    | some k => s.srWriteUser k (a.ctx == 0) n lane v
    | none => s
  else s.srWritePriv a n v

/-! ## Halves of 64-bit registers (R81, R432) -/

/-- The key of a held or captured half: the register, and the lane of a per-lane one. -/
def halfKey (n lane : Nat) : Nat := n / 2 * 2 * 64 + (if srPerLane n then lane else 32)

/-- Read a number: the low half captures the high one, and the next read of the high half gives the captured word. `pending` and
`captured` are the halves held for the party. -/
def State.readHalf (s : State) (a : Agent) (n lane : Nat) : State × Word :=
  if !srIsPair n then
    let r := s.srRead a n lane
    (r.1, lo32 r.2)
  else
    let r := s.srRead a (n / 2 * 2) lane
    let key := halfKey n lane
    let captured := match a.wave with
      | some k => (r.1.wave k).srHigh
      | none => r.1.mod.bridgeHigh
    let keep := fun (s : State) (t : Tbl Word) => match a.wave with
      | some k => s.modWave k fun w => { w with srHigh := t }
      | none => s.modMod fun m => { m with bridgeHigh := t }
    if n % 2 = 0 then (keep r.1 (captured.put key (hi32 r.2)), lo32 r.2)
    else
      match captured.find? key with
      | some v => (keep r.1 (captured.del key), v)
      | none => (r.1, hi32 r.2)

/-- Write a number: the low half is held until the high one is written, and both take effect together; with none held the low
half keeps its value. -/
def State.writeHalf (s : State) (a : Agent) (n lane : Nat) (v : Word) : State :=
  if !srIsPair n then s.srWrite a n lane (v.zeroExtend 64)
  else
    let key := halfKey n lane
    let pending := match a.wave with
      | some k => (s.wave k).srLow
      | none => s.mod.bridgeLow
    let keep := fun (s : State) (t : Tbl Word) => match a.wave with
      | some k => s.modWave k fun w => { w with srLow := t }
      | none => s.modMod fun m => { m with bridgeLow := t }
    if n % 2 = 0 then keep s (pending.put key v)
    else
      let low := match pending.find? key with
        | some x => x
        | none => lo32 (s.srRead a (n - 1) lane).2
      (keep s (pending.del key)).srWrite a (n - 1) lane (pair low v)

end Sys2Proof.Machine
end

