-- ==== Sys2Proof/Machine/Preempt.lean ====
section
/-! DEFINITION. Pre-emption, swap-out and restore (R53, R66, R68, R69, R231 to R235, R282, R288, R322, R323, R458, R478): the steps that take a
team off its core, its save record in the context's image area, and the steps that bring it back. -/
namespace Sys2Proof.Machine

/-! ## Save records (R224, R234, R235) -/

/-- The mask of the lanes of a slot, and whether their pages differ. -/
def Slot.mask (x : Slot) : BitVec 32 := maskOf (x.lanes.map (·.1))
def Slot.pagesDiffer (x : Slot) : Bool :=
  match x.lanes with
  | [] => false
  | p :: ps => ps.any fun q => pageOf q.2.addr != pageOf p.2.addr

/-- A bivouac slot as R224 lays it out, 1 KiB. -/
def Slot.bytes (x : Slot) : List Byte :=
  let tag := match x.lanes with
    | p :: _ => p.2.tag.getD 0
    | [] => 0
  toBytes 8 x.pc.toNat ++ toBytes 4 x.w0.toNat ++ toBytes 4 x.w1.toNat ++ toBytes 4 x.mask.toNat ++
  toBytes 4 (tag + (if x.pagesDiffer then 256 else 0)) ++ toBytes 4 (x.sb * 65536 + x.vb) ++ List.replicate 36 (0 : Byte) ++
  ((List.range 32).flatMap fun l => match x.lanes.find? l with
    | some y => toBytes 8 y.addr.toNat ++ toBytes 16 y.data.toNat
    | none => List.replicate 24 (0 : Byte)) ++ List.replicate 192 (0 : Byte)

/-- The code of a lane's state, with the index of its log entry (R235). -/
def Lane.stateByte (l : Lane) : Nat :=
  match l.life with
  | .ready => 0
  | .blocked _ => 0
  | .held _ _ => 1
  | .parked slot => 2 + 16 * slot
  | .exited => 3

/-- A residency as a save record holds it (R235). -/
def residWord (r : Option Resid) : Nat :=
  match r with
  | some r => r.gen.toNat + r.region * 2 ^ 32 + r.die * 2 ^ 48 + 2 ^ 63
  | none => 0

/-- A lane's trap block; its status word rides in bytes 1 to 3 (R235, R282). -/
def Lane.trapBlock (l : Lane) : List Byte :=
  toBytes 1 l.tcause.toNat ++ toBytes 3 l.status.toNat ++ toBytes 4 l.tinfo.toNat ++ toBytes 8 l.tpc.toNat ++ toBytes 8 l.taddr.toNat ++
  toBytes 4 l.tparent.toNat ++ toBytes 4 l.tsibs.toNat

/-- A set of small numbers as bits. -/
def bitSet (xs : List Nat) : Nat := (xs.map fun i => 2 ^ i).sum

/-- A wave save record, 6 KiB (R235). -/
def Wave.saveRecord (w : Wave) : List Byte :=
  let lane := fun (f : Lane → List Byte) => (List.range 32).flatMap fun l => f (w.lane l)
  lane (fun l => toBytes 8 (l.pc.toNat / 2 * 2 + l.handler.toNat)) ++
  lane (fun l => toBytes 1 l.stateByte) ++
  ((List.range 4).flatMap fun n => toBytes 4 (w.join n).enrolled.toNat ++ toBytes 4 (w.join n).arrived.toNat) ++
  toBytes 4 w.fcsr.toNat ++ toBytes 4 ((w.wstat &&& 3).toNat + (if w.critSaved then 0x80 else 0)) ++
  toBytes 4 (w.sb * 65536 + w.vb) ++ toBytes 4 w.ssp ++ toBytes 8 w.trapvec.toNat ++
  toBytes 4 (bitSet (w.slots.map (·.1)) + (if w.critSaved then 16 else 0)) ++ toBytes 4 w.tstatus.toNat ++
  lane (fun l => toBytes 8 (residWord l.resid)) ++ lane (fun l => toBytes 8 (residWord l.hresid)) ++ List.replicate 160 (0 : Byte) ++
  lane Lane.trapBlock ++
  (List.range 4).flatMap fun i => match w.slots.find? i with
    | some x => x.bytes
    | none => List.replicate 1024 (0 : Byte)

/-- The entry of a saved bin in the header (R234). -/
def Bin.bytes (b : Bin) : List Byte :=
  toBytes 8 b.entry.toNat ++ toBytes 4 b.args.length ++ toBytes 4 b.fired.toNat ++
  (List.range 32).flatMap fun i => toBytes 4 (b.args.getD i 0).toNat

/-- The header block of a save record (R234): `waves` are the WAVEIDs saved. -/
def Team.header (t : Team) (waves : List Nat) : List Byte :=
  toBytes 8 t.alloc ++ toBytes 8 (bitSet waves) ++ toBytes 4 t.lin ++ toBytes 2 t.depth ++
  toBytes 2 (bitSet (t.saved.map (·.1))) ++ List.replicate 232 (0 : Byte) ++
  ((List.range 16).flatMap fun i => match t.saved.find? i with
    | some b => b.bytes
    | none => List.replicate 144 (0 : Byte)) ++ List.replicate 1536 (0 : Byte)

/-- Write a team's save record: header, team memory, wave records (R234). -/
def State.writeSave (s : State) (t : Nat) : State :=
  let x := s.team t
  let ks := s.wavesOf t
  let base := x.image.toNat
  let s := s.l2Write base (x.header (ks.map (· % 64)))
  let s := s.l2Write (base + 4096) (s.tmemRead t 0 x.alloc)
  let recs := base + 4096 + pages x.alloc
  ((List.range ks.length).foldl (fun s i => s.l2Write (recs + 6144 * i) (s.wave (ks.getD i 0)).saveRecord) s)

/-! ## Reading a save record (R224, R233 to R235) -/

/-- The instruction that two words stand for; words that step 2 of R137 refuses stand for UNASSIGNED_OPCODE. -/
def instrOf (w0 w1 : Word) : Instr :=
  match decode w0 w1 with
  | .ok i => i
  | .error .secondWord => .unassignedOpcode true
  | .error _ => .unassignedOpcode false

/-- A residency from its eight bytes (R235). -/
def parseResid (v : Nat) : Option Resid :=
  if v.testBit 63 then some { region := bitsAt v 32 12, gen := BitVec.ofNat 32 v, die := bitsAt v 48 2 } else none

/-- A bivouac slot from its bytes. The tags of its lanes, which R224 logs of the lowest alone, are those that the part holds, and so is the
instruction where it is the same (log entry 39). -/
def parseSlot (old : Option Slot) (b : List Byte) : Slot :=
  let pc := BitVec.ofNat 64 (fld b 0 8)
  let w0 := BitVec.ofNat 32 (fld b 8 4)
  let w1 := BitVec.ofNat 32 (fld b 12 4)
  let mask := BitVec.ofNat 32 (fld b 16 4)
  let tag := fun (l : Nat) => match old.bind fun x => x.lanes.find? l with
    | some y => y.tag
    | none => some (fld b 20 1)
  { pc := pc, w0 := w0, w1 := w1, vb := fld b 24 2, sb := fld b 26 2
    instr := match old with
      | some x => if x.pc = pc ∧ x.w0 = w0 ∧ x.w1 = w1 then x.instr else instrOf w0 w1
      | none => instrOf w0 w1
    lanes := (lanesOf mask).map fun l =>
      (l, { addr := BitVec.ofNat 64 (fld b (64 + 24 * l) 8), data := BitVec.ofNat 128 (fld b (72 + 24 * l) 16), tag := tag l }) }

/-- The join register at whose JWAIT a lane of a record is Held: the one it was Held on, else the lowest where its bit has arrived. -/
def heldJoin (old : Lane) (joins : Tbl Join) (l : Nat) : Option Nat :=
  let here := fun (n : Nat) => (joins.get n { enrolled := 0, arrived := 0 }).arrived.getLsbD l
  match old.life with
  | .held n _ => if here n then some n else (List.range 4).find? here
  | _ => (List.range 4).find? here

/-- A lane from a wave's record. -/
def Lane.parse (x : Lane) (joins : Tbl Join) (slots : Tbl Slot) (b : List Byte) (l : Nat) : Lane :=
  let raw := fld b (8 * l) 8
  let pc : DWord := BitVec.ofNat 64 (raw / 2 * 2)
  let code := fld b (0x100 + l) 1
  let trap := 0x400 + 32 * l
  { x with
    pc := pc, handler := raw % 2 == 1
    life := match code % 16 with
      | 1 => match heldJoin x joins l with
             | some n => .held n (pc + 4)
             | none => .ready
      | 2 => if (slots.find? (code / 16)).any fun s => (s.lanes.find? l).isSome then .parked (code / 16) else .ready
      | 3 => .exited
      | _ => .ready
    resid := parseResid (fld b (0x160 + 8 * l) 8), hresid := parseResid (fld b (0x260 + 8 * l) 8)
    tcause := BitVec.ofNat 32 (fld b trap 1), status := BitVec.ofNat 32 (fld b (trap + 1) 3), tinfo := BitVec.ofNat 32 (fld b (trap + 4) 4)
    tpc := BitVec.ofNat 64 (fld b (trap + 8) 8), taddr := BitVec.ofNat 64 (fld b (trap + 16) 8)
    tparent := BitVec.ofNat 32 (fld b (trap + 24) 4), tsibs := BitVec.ofNat 32 (fld b (trap + 28) 4), waitsOn := none }

/-- A wave from its record: what R235 holds of it, over what it does not, which the part keeps (log entry 39). -/
def Wave.parse (w : Wave) (b : List Byte) : Wave :=
  let flags := fld b 0x158 4
  let slots : Tbl Slot := (List.range 4).filterMap fun i =>
    if flags.testBit i then some (i, parseSlot (w.slots.find? i) ((b.drop (0x800 + 1024 * i)).take 1024)) else none
  let joins : Tbl Join := (List.range 4).filterMap fun n =>
    let j : Join := { enrolled := BitVec.ofNat 32 (fld b (0x120 + 8 * n) 4), arrived := BitVec.ofNat 32 (fld b (0x124 + 8 * n) 4) }
    if j.enrolled = 0 then none else some (n, j)
  { w with
    lanes := w.lanes.mapAll fun l x => x.parse joins slots b l
    joins := joins, slots := slots
    fcsr := writeFcsr w.fcsr (BitVec.ofNat 32 (fld b 0x140 4)) 0, wstat := BitVec.ofNat 32 (fld b 0x144 4) &&& 3
    vb := fld b 0x148 2, sb := fld b 0x14A 2, ssp := fld b 0x14C 4, trapvec := BitVec.ofNat 64 (fld b 0x150 8)
    critSaved := flags.testBit 4, tstatus := BitVec.ofNat 32 (fld b 0x15C 4) }

/-- A bin of a team from its entry in a header. -/
def parseBin (t : Nat) (b : List Byte) : Bin :=
  { team := t, entry := BitVec.ofNat 64 (fld b 0 8), args := (List.range (min (fld b 8 4) 32)).map fun i => BitVec.ofNat 32 (fld b (16 + 4 * i) 4),
    seq := 0, due := 0, fired := (fld b 12 4).testBit 0 }

/-- Read a team's save record (R234): its header, its memory, and the record of each wave of its mask. -/
def State.readSave (s : State) (t : Nat) : State :=
  let x := s.team t
  let h := s.l2Read x.image.toNat 4096
  let mask := fld h 8 8
  let recs := x.savedAt + pages x.alloc
  let place := fun (wid : Nat) => ((List.range wid).filter mask.testBit).length
  let s := (s.wavesOf t).foldl (fun s k =>
    if mask.testBit (k % 64) then s.modWave k fun w => w.parse (s.l2Read (recs + 6144 * place (k % 64)) 6144) else s) s
  s.modTeam t fun x =>
    { x with
      lin := fld h 16 4, depth := fld h 20 1
      tmem := (s.mem.filter fun p => decide (x.savedAt ≤ p.1) && decide (p.1 < x.savedAt + x.alloc)).map fun p => (p.1 - x.savedAt, p.2)
      saved := ((List.range 16).filter (fld h 22 2).testBit).map fun i => (i, parseBin t ((h.drop (0x100 + 144 * i)).take 144)) }

/-! ## Register lines in memory (R67 to R69) -/

/-- Write back one register line. -/
def State.writeLine (s : State) (k line : Nat) : State :=
  let w := s.wave k
  (s.l2Write (w.rimg.toNat + lineOffset line) ((w.lineWords line).flatMap fun x => toBytes 4 x.toNat)).modWave k fun w =>
    { w with dirty := w.dirty.filter (· != line) }

/-- A line leaves the register cache, a dirty one for its image (R68). -/
def State.evictLine (s : State) (k line : Nat) : State :=
  (if (s.wave k).dirty.contains line then s.writeLine k line else s).modWave k fun w => { w with absent := addOnce line w.absent }

/-- The lines of a wave that the register cache holds. -/
def State.presentLines (s : State) (k : Nat) : List Nat :=
  let t := s.team (k / 64)
  (backedLines t.vcount t.scount).filter fun l => !(s.wave k).absent.contains l

/-- Bytes of register cache that the lines of a core take, those of teams that have left it and the shadow lines among them (R68, R69, R274). -/
def State.presentBytes (s : State) (c : Nat) : Nat :=
  (s.waves.map fun p =>
    if s.coreOf p.1 = c then ((p.2.shadow.map (·.1) ++ s.presentLines p.1).map lineBytes).sum else 0).sum

/-- The lines of a core that may be replaced, each with its wave and whether it is evictable and when it was last used: none that a shadow line
stands for (R68, R69, R274). -/
def State.replaceable (s : State) (c : Nat) : List (Nat × Nat × Bool × Nat) :=
  s.waves.flatMap fun p =>
    if s.coreOf p.1 ≠ c then []
    else ((s.presentLines p.1).filter fun l => (p.2.shadow.find? l).isNone).map fun l =>
      (p.1, l, (s.team (p.1 / 64)).state != .resident, p.2.used.get l 0)

/-- The lines that are replaced next: those of evictable teams, else the least recently used of resident waves (R68). Among several the
choice is free. -/
def State.victims (s : State) (c : Nat) : List (Nat × Nat) :=
  let all := s.replaceable c
  let gone := all.filter fun x => x.2.2.1
  if !gone.isEmpty then gone.map fun x => (x.1, x.2.1)
  else
    let oldest := (all.map fun x => x.2.2.2).min?
    (all.filter fun x => some x.2.2.2 == oldest).map fun x => (x.1, x.2.1)

/-! ## Taking a team off its core (R231, R232) -/

/-- A lane as it is saved (R232, R458). -/
def Lane.save (l : Lane) : Lane :=
  match l.life with
  | .blocked (.barw o _ _ _ _) => { l with life := .ready, waitsOn := some o }
  | .blocked (.sleep _ next) => { l with life := .ready, pc := next }
  | .blocked (.halt next) => { l with life := .ready, pc := next }
  | .blocked _ => { l with life := .ready }
  | .held 4 _ => { l with life := .ready }
  | _ => l

/-- Every open try region of a wave aborts with PREEMPT (R282). -/
def State.abortAll (s : State) (k : Nat) : State :=
  (lanesOf ((s.wave k).which fun l => l.member && l.live)).foldl (fun s l =>
    if ((s.wave k).lane l).member then s.abort k (1#32 <<< l) 6 0 0 else s) s

/-- Save a wave: its lanes, its latches and SYNCW state, and whether it is critical. It leaves its issue slot. -/
def State.saveWave (s : State) (k : Nat) : State :=
  let s := (s.drain k).abortAll k
  let crit := (s.core (s.coreOf k)).crit.contains k
  (s.modWave k fun w =>
    { (w.clearLatches 0 false) with lanes := (w.clearLatches 0 false).lanes.mapAll fun _ l => { l.save with age := 0, early := [] },
                                    sync := { pending := none, arrived := 0 }, critSaved := crit, islot := noSlot }).modCore (s.coreOf k) fun c =>
    { c with crit := c.crit.filter (· != k) }

/-- A lane at a CTXSW counts a team that it waits for and that is now pre-empted (R379). -/
def Lane.countPreempted (t : Nat) (l : Lane) : Lane :=
  match l.life with
  | .blocked (.ctxsw ts done ctx hold reg next) =>
    if ts.contains t then { l with life := .blocked (.ctxsw ts (addOnce t done) ctx hold reg next) } else l
  | _ => l

/-- Steps 2 to 9 of R231; the team enters Queued, or Swapped. -/
def State.preemptTeam (s : State) (t : Nat) (into : TeamState) : State :=
  let c := (s.team t).core
  let s := (s.wavesOf t).foldl State.saveWave s
  let s := s.release c 4
  let s := s.modCore c fun x => x.clearEngine t
  let bins := (s.core c).bins.filter fun p => p.2.team == t && p.2.args != []
  let s := s.modCore c fun x => { x with bins := x.bins.filter fun p => p.2.team != t }
  let s := s.modTeam t fun x => { x with saved := bins }
  let s := s.writeSave t
  let s := s.modTeam t fun x => { x with state := into, preempt := none, swapping := false, since := s.clk, tmem := [] }
  { s with waves := s.waves.mapAll fun _ w => { w with lanes := w.lanes.mapAll fun _ l => l.countPreempted t } }

/-- Whether a team has a critical wave, and whether that defers its pre-emption (R66, R322). -/
def State.critical (s : State) (t : Nat) : Bool := (s.core (s.team t).core).crit.any fun k => k / 64 == t
def State.deferred (s : State) (t : Nat) : Bool := s.critical t && (s.ctx (s.team t).ctx).critmax != 0

/-- A lane of the team waits for a CTXSW to complete, which comes before step 4 of R231 (R232). -/
def State.inCtxsw (s : State) (t : Nat) : Bool :=
  s.waves.any fun p => p.1 / 64 == t && p.2.lanes.any fun q => match q.2.life with
    | .blocked (.ctxsw _ _ _ _ _ _) => true
    | _ => false

/-- Whether nothing holds back the steps of R231: no critical wave, no command to complete. -/
def State.quiet (s : State) (t : Nat) : Bool :=
  (s.team t).state == .resident && (s.teams.find? t).isSome && !s.deferred t && !s.hasCommands t && !s.inCtxsw t

/-! ## Swap-out (R53) -/

/-- Whether a lane waits at BARW, and on which object and since when. -/
def Lane.barwOn (l : Lane) : Option (ObjRef × Nat) :=
  match l.life with
  | .blocked (.barw o _ _ _ since) => some (o, since)
  | _ => none

/-- The swap condition of a team (R53); a threshold of 0 disables it (R322). A wave waits at BARW where every live lane of it is Blocked
there: one with Held lanes does not (DEDUCED; log entry 68). A child grid is there from its LAUNCH on (R56). -/
def State.swapMet (s : State) (t : Nat) : Bool :=
  let limit := (s.ctx (s.team t).ctx).swapthr.toNat * 1024
  let ks := s.wavesOf t
  let waits := ks.flatMap fun k => (lanesOf (s.wave k).live).filterMap fun l => ((s.wave k).lane l).barwOn
  let signalled := fun (o : ObjRef) =>
    (s.grids.any fun p => p.2.source == .child t && p.2.bar == some o) || (s.team t).pending.any fun p => p.bar == some o
  limit != 0 && s.mod.haltedAt.isNone && !ks.isEmpty &&
    (ks.all fun k => (lanesOf (s.wave k).live).all fun l => (((s.wave k).lane l).barwOn).isSome) &&
    waits.any fun p => signalled p.1 && p.2 + limit < s.clk

/-! ## Asking for a pre-emption (R231) -/

/-- Ask for the pre-emption of a resident team (R231): of one whose swap-out was asked for, it is that which comes now. -/
def State.askPreempt (s : State) (t : Nat) : State :=
  s.modTeam t fun x => if x.state == .resident then { x with preempt := some (x.preempt.getD s.clk), swapping := false } else x

/-- Ask for the swap-out of a team (R53), which a critical wave may defer (R66); or give it up, where the swap condition no longer holds. -/
def State.askSwap (s : State) (t : Nat) : State :=
  s.modTeam t fun x =>
    if x.state != .resident then x
    else if s.swapMet t then (if x.preempt.isNone then { x with preempt := some s.clk, swapping := true } else x)
    else if x.swapping then { x with preempt := none, swapping := false }
    else x

/-- Carry out a pre-emption or a swap-out that has been asked for, where nothing holds it back (R53, R231). -/
def State.tryPreempt (s : State) (t : Nat) : State :=
  if (s.team t).preempt.isSome && s.quiet t then
    if !(s.team t).swapping then s.preemptTeam t .queued
    else if s.swapMet t then s.preemptTeam t .swapped
    else s.askSwap t
  else s

/-- Issue of a team's waves stops once its pre-emption is asked for and not deferred (step 1 of R231). -/
def State.stopped (s : State) (t : Nat) : Bool := (s.team t).preempt.isSome && !s.deferred t

/-- PREEMPTION (R231). -/
def execPreemption (team : Nat) (s : State) : Answer := .next (s.tryPreempt team)

/-- CRIT_LIMIT_EXPIRE (R66, R322): the record, the critical bits cleared, and the pre-emption no longer deferred. -/
def execCritLimitExpire (team : Nat) (s : State) : Answer :=
  .next (let x := s.team team
    match x.preempt with
    | none => s
    | some t0 =>
      if x.swapping && !s.swapMet team then s.askSwap team
      else if s.deferred team && t0 + (s.ctx x.ctx).critmax.toNat * 1024 ≤ s.clk then
        let k := ((s.core x.core).crit.find? fun k => k / 64 == team).getD 0
        let m := (s.wave k).live
        let s := s.post x.ctx (s.laneRec k m 0x18 0 0 0 ((s.wave k).lane (lowest m)).pc)
        (s.modCore x.core fun c => { c with crit := c.crit.filter fun k => k / 64 != team }).tryPreempt team
      else s)

/-- SWAP_OUT (R53): at once, or, where something defers it, once that has ended (R66, R231). -/
def execSwapOut (team : Nat) (s : State) : Answer := .next ((s.askSwap team).tryPreempt team)

/-! ## Restore (R233) -/

/-- A restored resident is counted on its new die, and then released from the old (R262). -/
def State.moveResid (s : State) (k l d : Nat) : State :=
  let c := s.ctxOf k
  let x := (s.wave k).lane l
  let move := fun (s : State) (r : Option Resid) => match r with
    | none => (s, none)
    | some r => if r.die = d then (s, some r) else ((s.residEnter d c r.region r.gen).residLeave c r, some { r with die := d })
  let a := move s x.resid
  let b := move a.1 x.hresid
  b.1.modLane k l fun y => { y with resid := a.2, hresid := b.2 }

/-- Whether the die's residency table has room for the residents of a team (R262). -/
def State.residFits (s : State) (t d : Nat) : Bool :=
  let need := (s.wavesOf t).foldl (fun acc k => (s.wave k).lanes.foldl (fun acc p =>
    (p.2.resid.toList ++ p.2.hresid.toList).foldl (fun acc r => if r.die = d then acc else addOnce (r.region, r.gen.toNat) acc) acc) acc)
    ([] : List (Nat × Nat))
  let c := (s.team t).ctx
  let new := need.filter fun p => !(s.die d).resid.any fun y => y.ctx == c && y.region == p.1 && y.gen.toNat == p.2
  (s.die d).resid.length + new.length ≤ 1024
where
  /-- Add a pair without repeats. -/
  addOnce (x : Nat × Nat) (xs : List (Nat × Nat)) : List (Nat × Nat) := if xs.contains x then xs else xs ++ [x]

/-- A restored wave takes an issue slot; it is critical where it was saved so. On another core (`moved`) its lines, written back there, are
filled on demand; on its own those that nothing has replaced are there still (R68, R69, R233). -/
def State.restoreWave (s : State) (moved : Bool) (k : Nat) : State :=
  let x := s.team (k / 64)
  let s := (lanesOf (s.wave k).live).foldl (fun s l => s.moveResid k l (x.core / Config.coresPerDie)) s
  let s := s.seatWave k
  let s := if (s.wave k).critSaved then s.modCore x.core fun c => { c with crit := c.crit ++ [k] } else s
  s.modWave k fun w => { w with absent := if moved then backedLines x.vcount x.scount else w.absent, critSaved := false }

/-- Lanes saved Parked (R233): a tag resolved meanwhile is followed now, and a migration wait looks at its page again. -/
def State.rejoin (s : State) (k : Nat) : State :=
  let c := s.ctxOf k
  let s := (s.wave k).slots.foldl (fun (s : State) p =>
    let on := fun (tag : Option Nat) => maskOf ((p.2.lanes.filter fun q => q.2.tag == tag).map (·.1))
    let s := if on none != 0 && s.residentWave k then s.replay k p.1 p.2 (on none) else s
    (s.ctx c).tags.foldl (fun s t => match t.2.resolved with
      | some fail => if on (some t.1) != 0 then s.follow k p.1 (on (some t.1)) t.1 fail else s
      | none => s) s) s
  s.sweepTags c

/-- Bins return in their saved order, each to the lowest-numbered empty bin, their timers started anew (R233; log entry 39). -/
def State.returnBins (s : State) (c : Nat) (bins : Tbl Bin) (delay : Nat) : State :=
  bins.foldl (fun s p =>
    match (s.core c).emptyBin with
    | some i => s.modCore c fun x =>
      { x with bins := x.bins.put i { p.2 with seq := x.spawned, due := s.clk + delay }, spawned := x.spawned + p.2.args.length }
    | none => s) s

/-- The lines of a generation of a region leave a core's instruction cache. -/
def State.dropFetched (s : State) (core ctx region : Nat) (gen : Word) : State :=
  let r := s.region ctx region
  s.modCore core fun x => { x with icache := x.icache.filter fun l =>
    !(l.ctx == ctx && l.gen == gen && decide (r.base / 128 ≤ l.line) && decide (l.line < (r.base + r.len + 127) / 128)) }

/-- The lines of the instruction cache that a core may hold of a restored resident's region and generation go, so that its fetches are no
older than those it has made (R269). -/
def State.dropStale (s : State) (core t : Nat) : State :=
  let held := (s.wavesOf t).flatMap fun k => (s.wave k).lanes.flatMap fun p => p.2.resid.toList ++ p.2.hresid.toList
  held.foldl (fun s r => s.dropFetched core (s.team t).ctx r.region r.gen) s

/-- Bring a saved team back onto a core and a residency slot (R233). -/
def State.restoreTeam (s : State) (t core slot : Nat) : State :=
  let moved := (s.team t).core != core
  let s := if moved then (s.wavesOf t).foldl (fun s k => (s.wave k).dirty.foldl (fun s l => s.writeLine k l) s) s else s
  let s := (s.acquire core 4).readSave t
  let bins := (s.team t).saved
  let s := s.modTeam t fun x => { x with core := core, rslot := slot, state := .resident, since := s.clk, preempt := none, swapping := false, saved := [], moved := none }
  let s := (s.wavesOf t).foldl (fun s k => s.restoreWave moved k) s
  let s := s.dropStale core t
  let s := s.returnBins core bins (s.ctx (s.team t).ctx).spwndly.toNat
  (s.wavesOf t).foldl State.rejoin s

end Sys2Proof.Machine
end

