-- ==== Sys2Proof/Machine/System.lean ====
section
/-! DEFINITION. System instructions of class 7 (R129, R184, R186, R361, R378, R379, R400, R431, R432, R441, R459, R464, R465, R467,
R475): RDSR, WRSR, TRAP, RTE, BKPT, SYSC, HALT, TLBI and CTXSW. -/
namespace Sys2Proof.Machine

/-! ## Special registers -/

/-- The number that RDSR or WRSR reads from B: of the lowest lane of its group, or of the wave (R431, R475). -/
def State.srNumber (s : State) (o : Ops) : Nat := (lo32 (reader s.pre o (lowest s.mask) .w .b)).toNat

/-- The checks of R431 and R475, then the effect on the number that they are taken for: PRIVILEGE for the privileged view outside context 0
and for BRSEL (log entry 11), and ILLEGAL_OPERAND for a number that is not assigned. -/
def State.runSr (s : State) (i : Instr) (o : Ops) (f : State → Nat → State) : State :=
  let n := s.srNumber o
  let priv := n == brsel || (0x200 ≤ n && n < 0x400 && s.ctxNo != 0)
  match s.start i spans1 priv (if n < 0x400 && srAssigned n then none else some n) with
  | .error s => s
  | .ok s => f s n

/-- RDSR (R431, R432). -/
def execRdsr (o : Ops) (s : State) : Answer :=
  .next (s.runSr (.rdsr o) o fun s n =>
    let a := s.waveAgent
    let s := if !o.s && srPerLane n then
        (lanesOf s.mask).foldl (fun s l => let r := s.readHalf a n l; r.1.dst (.rdsr o) o l 1 r.2.toNat) s
      else
        let r := s.readHalf a n (lowest s.mask)
        if o.s then r.1.dst (.rdsr o) o 0 1 r.2.toNat
        else (lanesOf s.mask).foldl (fun s l => s.dst (.rdsr o) o l 1 r.2.toNat) r.1
    s.advance s.mask)

/-- WRSR (R248, R475); the value where lanes leave the group is log entry 69. -/
def execWrsr (o : Ops) (s : State) : Answer :=
  .next (s.runSr (.wrsr o) o fun s n =>
    let a := s.waveAgent
    let pre := s.pre
    let value := fun (l : Nat) => lo32 (reader pre o l .w .a)
    let m := s.mask
    let s := s.advance m
    if srPerLane n then (lanesOf m).foldl (fun s l => s.writeHalf a n l (value l)) s
    else s.writeHalf a n (lowest m) (value (lowest m)))

/-! ## Traps -/

/-- TRAP (R467): TPC is the address of the instruction after it. -/
def execTrap (o : Ops) (s : State) : Answer :=
  .next (s.run (.trap o) spans1 fun s =>
    s.raise s.cur.wave s.mask s.nextPc ((lanesOf s.mask).map fun l =>
      { lane := l, cause := 0x14, info := lo32 (reader s.pre o l .w .a), addr := 0 }))

/-- RTE (R441): ILLEGAL_OPCODE outside handler mode; joins that waited for the handler to end may now complete (R47). -/
def execRte (o : Ops) (s : State) : Answer :=
  .next (
    if !(s.pre.lane (lowest s.mask)).handler then s.fault s.mask 1 s.cur.w0 s.cur.pc
    else s.run (.rte o) spans1 fun s =>
      let s := s.modLanes s.cur.wave s.mask fun _ l => l.returnTrap
      s.modWave s.cur.wave Wave.recheckJoins)

/-- BKPT (R361). -/
def execBkpt (o : Ops) (s : State) : Answer := .next (s.run (.bkpt o) spans1 fun s => s.fault s.mask 0x13 s.cur.w0 0)

/-- SYSC (R459): a release, a slot and a tag of its own, and a record. -/
def execSysc (o : Ops) (s : State) : Answer :=
  .next (s.run (.sysc o) { d := 1, a := 2, b := 1 } fun s =>
    let k := s.cur.wave
    let c := s.ctxNo
    let s := s.release s.coreNo 4
    match lowestFree (s.ctx c).tags 256, s.slotFree k with
    | some t, true =>
      let arg := fun (l : Nat) => reader s.pre o l .n .a
      let idx := (lowestFree (s.wave k).slots 4).getD 0
      let x : Slot :=
        { pc := s.cur.pc, w0 := s.cur.w0, w1 := s.cur.w1, instr := .sysc o, vb := s.pre.vb, sb := s.pre.sb,
          lanes := (lanesOf s.mask).map fun l => (l, { addr := 0, data := (arg l).zeroExtend 128, tag := some t }) }
      let s := s.modCtx c fun y => { y with tags := y.tags.put t { page := 0, sysc := true, resolved := none } }
      let s := s.modWave k fun w => { w with slots := w.slots.put idx x }
      let s := s.modLanes k s.mask fun _ l => { l with life := .parked idx }
      s.post c (s.laneRec k s.mask 0x82 o.b.toNat t (arg (lowest s.mask)) s.cur.pc)
    | none, true => s.block k s.mask .tag
    | _, false => s.block k s.mask .slot)

/-- HALT (R400): issue stops on every core until HALTED is cleared. -/
def execHalt (o : Ops) (s : State) : Answer :=
  .next (s.run (.halt o) spans1 fun s => ((s.release s.coreNo 4).block s.cur.wave s.mask (.halt s.nextPc)).halt)

/-! ## TLBI (R184, R186, R464, R465) -/

/-- The cores and dies that a TLBI covers. -/
def tlbiCores (scope core : Nat) : List Nat := coresOf scope core
def tlbiDies (scope core : Nat) : List Nat := if scope = 4 then [0, 1, 2, 3] else [core / Config.coresPerDie]

/-- Whether an entry goes: every one of the context, or the one that translates the page. -/
def TlbEntry.goes (e : TlbEntry) (ctx : Nat) (page : Option DWord) : Bool :=
  e.ctx == ctx && (match page with
    | none => true
    | some va => canonical va && e.va ≤ va.toNat % 2 ^ 57 && va.toNat % 2 ^ 57 < e.va + e.size)

/-- Members whose buffered stores or hoisted loads used a dropped translation meet a conflict (R278). -/
def State.tlbConflict (s : State) (ctx : Nat) (cores : List Nat) (gone : List TlbEntry) : State :=
  let used := fun (page : Nat) => gone.any fun e => e.va ≤ page * 4096 && page * 4096 < e.va + e.size
  { s with waves := s.waves.mapAll fun k w =>
      if s.ctxOf k == ctx && cores.contains (s.coreOf k) then
        { w with lanes := w.lanes.mapAll fun _ l =>
            if l.pages.any used then { l with conflict := true } else l }
      else w }

/-- The page that holds an address, as the tables now give it: base and size. -/
def State.pageAround (s : State) (ctx : Nat) (va : DWord) : Nat × Nat :=
  let a := va.toNat % 2 ^ 57
  match (s.walkFrom ctx a 4 ((s.ctx ctx).ptroot.toNat % 2 ^ 52)).2 with
  | .leaf e => (e.va, e.size)
  | _ => (a / 4096 * 4096, 4096)

/-- Wake the lanes of a context parked on a migration wait: all of them, or those of one page (R186, R187, R465). -/
def State.wakeMigration (s : State) (ctx : Nat) (page : Option DWord) : State :=
  let on := fun (va : DWord) => match page with
    | none => true
    | some a =>
      let p := s.pageAround ctx a
      canonical a && p.1 ≤ va.toNat % 2 ^ 57 && va.toNat % 2 ^ 57 < p.1 + p.2
  let jobs := s.waves.flatMap fun p =>
    if s.ctxOf p.1 == ctx && s.residentWave p.1 then
      p.2.slots.filterMap fun q =>
        let m := maskOf ((q.2.lanes.filter fun r => r.2.tag.isNone && on r.2.addr).map (·.1))
        if m = 0 then none else some (p.1, q.1, m)
    else []
  jobs.foldl (fun s (k, slot, m) =>
    match (s.wave k).slots.find? slot with
    | some x => if s.residentWave k then s.replay k slot x m else s
    | none => s) s

/-- The accesses that used translations of a context on some cores are performed: what waits in its waves for a page of theirs, and the dirty lines
of those pages (R184, R186; log entry 70). -/
def State.performUses (s : State) (ctx : Nat) (cores : List Nat) (gone : List TlbEntry) : State :=
  let used := fun (p : Place) (n : Nat) => gone.any fun e => p.meets n (.mem (s.selfAddressed e.pa)) e.size
  let s := (s.waves.filter fun p => s.ctxOf p.1 == ctx && cores.contains (s.coreOf p.1)).foldl (fun s p =>
    s.performWanted p.1 fun x => used x.place x.effect.size) s
  (s.cores.filter fun p => cores.contains p.1).foldl (fun s p =>
    p.2.l1.foldl (fun s q => if used (.mem (q.1 * 128)) 128 then s.l1Clean p.1 q.1 else s) s) s

/-- Drop translations, perform the accesses that used them, and wake the migration waits that the completion ends. -/
def State.tlbi (s : State) (ctx scope core : Nat) (page : Option DWord) : State :=
  let cs := tlbiCores scope core
  let ds := tlbiDies scope core
  let gone := (s.cores.flatMap fun p => if cs.contains p.1 then p.2.tlb.filter fun e => e.goes ctx page else []) ++
    s.dies.flatMap fun p => if ds.contains p.1 then p.2.tlb.filter fun e => e.goes ctx page else []
  let s := (s.tlbConflict ctx cs gone).performUses ctx cs gone
  let s := { s with
    cores := s.cores.mapAll fun c x => if cs.contains c then { x with tlb := x.tlb.filter fun e => !e.goes ctx page } else x
    dies := s.dies.mapAll fun d x =>
      if ds.contains d then { x with tlb := x.tlb.filter fun e => !e.goes ctx page, walk := x.walk.filter (·.ctx != ctx) } else x }
  s.wakeMigration ctx page

/-- TLBI (R464, R465): it completes within its step (log entry 10). -/
def execTlbi (o : Ops) (c : Ctl) (s : State) : Answer :=
  let byPage := c.sub == 1#4
  .next (s.run (.tlbi o c) { d := 1, a := if byPage then 2 else 1, b := 1 } fun s =>
    let va := reader s.pre o 0 .n .a
    let ctx := (if byPage then lo32 (reader s.pre o 0 .w .b) else lo32 (reader s.pre o 0 .w .a)).toNat
    if 15 < ctx then s.fault s.mask 5 9 0
    else (s.advance s.mask).tlbi ctx c.scope.toNat s.coreNo (if byPage then some va else none))

/-- TLBI_COMPLETE (R184, R465). -/
def execTlbiComplete (ctx scope core : Nat) (page : Option DWord) (s : State) : Answer := .next (s.tlbi ctx scope core page)

/-! ## CTXSW (R378, R379) -/

/-- Write back the dirty register lines of a context's teams that are not resident, so that their images are current. -/
def State.writeImages (s : State) (ctx : Nat) : State :=
  s.waves.foldl (fun s p =>
    let t := s.team (p.1 / 64)
    if t.ctx = ctx ∧ t.state ≠ .resident then p.2.dirty.foldl (fun s line => s.writeLine p.1 line) s else s) s

/-- Whether a team that a CTXSW pre-empts has released residency: `done` are those that it has seen pre-empted. A team that ends before its
deferred pre-emption has released it too. -/
def State.released (s : State) (done : List Nat) (t : Nat) : Bool :=
  done.contains t || (s.team t).preempt.isNone || (s.team t).state != .resident

/-- What CTXSW does last: the images under HOLD, and an acquire at device scope. -/
def State.endCtxsw (s : State) (core ctx : Nat) (hold : Bool) : State :=
  (if hold then s.writeImages ctx else s).acquire core 4

/-- CTXSW (R378, R379). -/
def execCtxsw (o : Ops) (s : State) : Answer :=
  .next (s.run (.ctxsw o) spans1 fun s =>
    let ctx := (lo32 (reader s.pre o 0 .w .a)).toNat
    let sel := lo32 (reader s.pre o 0 .w .b)
    let extent := (sel.extractLsb' 0 2).toNat
    let hold := sel.getLsbD 8
    let resume := sel.getLsbD 9
    if ctx = 0 ∨ 15 < ctx ∨ extent = 3 ∨ (hold = true ∧ resume = true) ∨ sel &&& ~~~ (0x303#32) ≠ 0 then s.fault s.mask 5 6 0
    else
      let core := s.coreNo
      let s := s.release core 4
      if resume then ((s.modCtx ctx fun x => { x with hold := false }).dstWave (.ctxsw o) o 1 0).advance s.mask
      else
        let inside := fun (c : Nat) => extent = 2 ∨ (extent = 1 ∧ c / Config.coresPerDie = core / Config.coresPerDie) ∨ c = core
        let ts := (s.teams.filter fun p => p.2.ctx == ctx && p.2.state == .resident && decide (inside p.2.core)).map (·.1)
        let s := if hold then s.modCtx ctx fun x => { x with hold := true } else s
        let s := ts.foldl (fun s t => (s.askPreempt t).tryPreempt t) s
        let done := ts.filter fun t => (s.team t).state == .queued
        if ts.all (s.released done) then
          ((s.endCtxsw core ctx hold).dstWave (.ctxsw o) o 1 done.length).advance s.mask
        else s.block s.cur.wave s.mask (.ctxsw ts done ctx hold (s.pre.sb + o.d.toNat) s.nextPc))

/-- The lanes of a wave at a CTXSW whose teams have all released residency go on (R379). -/
def State.wakeCtxsw (s : State) (k : Nat) : State :=
  match (lanesOf (s.wave k).live).find? fun l => match ((s.wave k).lane l).life with
      | .blocked (.ctxsw ts done _ _ _ _) => ts.all (s.released done)
      | _ => false with
  | none => s
  | some l =>
    match ((s.wave k).lane l).life with
    | .blocked (.ctxsw ts done ctx hold reg next) =>
      let s := (s.endCtxsw (s.coreOf k) ctx hold).fillAbsent k [sline reg]
      s.modWave k fun w =>
        ({ w with lanes := w.lanes.mapAll fun _ x =>
            if x.life = Life.blocked (.ctxsw ts done ctx hold reg next) then { x with life := .ready, pc := next } else x }
          ).putS reg (BitVec.ofNat 32 done.length)
    | _ => s

end Sys2Proof.Machine
end

