-- ==== Sys2Proof/Machine/Dispatcher.lean ====
section
/-! DEFINITION. The dispatcher and the task units (R29, R50 to R58, R231, R233, R307 to R316, R319, R323, R390): records taken, teams
placed, retired and restored, tasks launched, thermal migration and power gating. -/
namespace Sys2Proof.Machine

/-! ## Sources and grids (R54, R312) -/

/-- A new grid of a record, with its completion barrier's object (R309); its teams begin to wait now. -/
def State.newGrid (s : State) (ctx : Nat) (r : LaunchRec) (num depth prio root : Nat) (src : Source) (task : Option TaskRef)
    (bar : Option ObjRef) : State :=
  let g : Grid := { ctx := ctx, record := r, num := num, depth := depth, prio := prio, source := src, next := 0, retired := 0,
                    lost := false, task := task, waitSince := some s.clk, reserved := false, redo := [], root := root, bar := bar }
  { s with grids := s.grids.put s.nextGrid g, nextGrid := s.nextGrid + 1 }

/-- The team of a grid that is to be placed next: one that was killed and runs again, else the next in order. -/
def Grid.pendingTeam (g : Grid) : Option Nat :=
  match g.redo with
  | x :: _ => some x
  | [] => if g.next < g.record.teams then some g.next else none

/-- Whether a source still has a team of its head grid to place (step 4 of R312); a die's task unit is one source for each context. -/
def State.headOpen (s : State) (src : Source) (ctx : Nat) : Bool :=
  s.grids.any fun p => p.2.source == src && decide (p.2.next < p.2.record.teams) &&
    (match src with
     | .task _ => p.2.ctx == ctx
     | _ => true)

/-- The dies on which a grid's teams may be placed. -/
def Grid.dieSet (g : Grid) : List Nat :=
  match g.source with
  | .task d => [d]
  | _ => [0, 1, 2, 3]

/-- Priority of a launch queue. -/
def Queue.prio (q : Queue) : Nat := (q.cfg.extractLsb' 8 3).toNat

/-! ## Taking records (R308, R309, R310) -/

/-- Whether the dispatcher can take a record of a queue now (R29, R308, R312). -/
def State.canTake (s : State) (q : Nat) : Bool :=
  let x := s.queue q
  x.enabled && (s.ctx x.ctx).live && x.head != x.tail && !s.headOpen (.queue q) x.ctx

/-- Where the head record of a queue lies. -/
def Queue.recordAt (x : Queue) : Nat := x.base.toNat % 2 ^ 52 + 64 * (x.head.toNat % x.size)

/-- A refused record sets BAD, and still gives its arrival where its completion field is valid (R310); with flag 1 the host learns of
it (R339). It has no launch number: the value in the entry is free. -/
def State.refuse (s : State) (q : Nat) (r : LaunchRec) : State :=
  let ctx := (s.queue q).ctx
  let s := s.modQueue q Queue.setBad
  let s := if s.completionOk ctx (.queue q) r.completion then s.arriveAt (s.completionObj ctx (.queue q) r.completion) else s
  if r.external then
    let f := s.fresh
    f.2.hostEntry (Config.freeDWord f.1).toNat q ctx 1
  else s

/-- DISPATCHER_TAKE_RECORD (R308, R310). -/
def execDispatcherTakeRecord (queue : Nat) (s : State) : Answer :=
  .next (if !s.canTake queue then s
    else
      let x := s.queue queue
      let pa := x.recordAt
      let s := s.modQueue queue fun y => { y with head := y.head + 1 }
      if !s.backed (s.selfAddressed pa) || (s.poisonAt pa 64).isSome then s.modQueue queue Queue.setBad
      else
        let r := parseLaunch (s.l2Read (s.selfAddressed pa) 64)
        if s.launchOk x.ctx (.queue queue) r then
          let n := s.launchNumber x.ctx
          n.1.newGrid x.ctx r n.2 1 x.prio x.prio (.queue queue) none (s.completionObj x.ctx (.queue queue) r.completion)
        else s.refuse queue r)

/-- Whether the dispatcher can take the next record of a team's pending-launch queue: not of a team that has gone (R29). -/
def State.canTakePending (s : State) (t : Nat) : Bool :=
  !(s.team t).pending.isEmpty && (s.team t).state != .killed && !s.headOpen (.child t) (s.team t).ctx

/-- PENDING_LAUNCH_TAKE (R57, R58, R312): the entry frees, and the launch barrier's phase advances. -/
def execPendingLaunchTake (team : Nat) (s : State) : Answer :=
  .next (let x := s.team team
    match x.pending with
    | [] => s
    | p :: rest =>
      if !s.canTakePending team then s
      else
        let s := s.modTeam team fun y => { y with pending := rest }
        let s := s.release x.core 1
        let s := s.updateBar (.team team 0) fun b => { b with phase := b.phase + 1 }
        s.newGrid x.ctx p.record p.num (x.depth + 1) (min p.record.prio x.root) x.root (.child team) none p.bar)

/-! ## Places on cores (R50, R313) -/

/-- The memory that a record's team takes (R51). -/
def allocBytes (tmem : Nat) : Nat := (tmem + 32 + 127) / 128 * 128

/-- Teams that hold a place on a core, and those whose waves hold wave places. -/
def State.onCore (s : State) (c : Nat) : List (Nat × Team) :=
  s.teams.filter fun p => p.2.core == c && (p.2.state == .resident || p.2.state == .awaiting || p.2.state == .killed)
def Team.holdsWaves (t : Team) : Bool := t.state == .resident || t.state == .killed

/-- Whether waves and memory fit on a core. -/
def State.roomOn (s : State) (c waves alloc : Nat) : Bool :=
  let ts := s.onCore c
  let used := (ts.map fun p => if p.2.holdsWaves then p.2.nWaves + p.2.pool else 0).sum
  decide (ts.length < Config.teamsPerCore) && decide (used + waves ≤ Config.wavesPerCore) &&
    decide ((ts.map fun p => p.2.alloc).sum + alloc ≤ 2 ^ 20)

/-- A team's need of register cache in bytes (R313). -/
def registerNeed (waves v sc : Nat) : Nat := waves * ((v + 7) / 8 * 1024 + (sc + 31) / 32 * 128)

/-- The free register cache of a core, which may be negative. -/
def State.freeCache (s : State) (c : Nat) : Int :=
  786432 - ((s.onCore c).map fun p => if p.2.state = .resident then registerNeed p.2.nWaves p.2.vcount p.2.scount else 0).sum

/-- Whether a core is eligible by itself: neither excluded nor held hot. -/
def State.coreOpen (s : State) (c : Nat) : Bool :=
  !(s.die (c / Config.coresPerDie)).plcmask.getLsbD (c % Config.coresPerDie) && !(s.core c).hot

/-- The team that a grid would place, before its core is chosen. -/
def Grid.team (g : Grid) (gk lin : Nat) : Team :=
  let r := g.record
  { Team.gone with ctx := g.ctx, grid := gk, lin := lin, depth := g.depth, prio := g.prio, root := g.root, vcount := r.vregs,
                   scount := r.sregs, nWaves := r.waves, pool := r.pool, spillSize := r.spill, alloc := allocBytes r.tmem, task := g.task }

/-- Whether the dispatcher serves a source: a launch queue while it is enabled (step 1 of R312). -/
def State.serves (s : State) (src : Source) : Bool :=
  match src with
  | .queue q => (s.queue q).enabled
  | _ => true

/-- Whether only a core is wanting for a grid's next team: its source is served, its context is live and not held, and its area has room (R29,
R312, R379). -/
def State.wantsCore (s : State) (gk : Nat) (g : Grid) : Bool :=
  let x := s.ctx g.ctx
  s.serves g.source && g.pendingTeam.isSome && x.live && !x.hold && !(s.imagePlaces g.ctx (g.team gk 0).imageSize).isEmpty

/-- The dies on which a saved team may be restored. -/
def Team.dieSet (t : Team) : List Nat :=
  match t.task with
  | some r => [r.die]
  | none => [0, 1, 2, 3]

/-- A saved team that waits for a core. -/
def State.wantsRestore (s : State) (x : Team) : Bool := x.state == .queued && (s.ctx x.ctx).live && !(s.ctx x.ctx).hold

/-- Whether a grid's next team has waited 1 ms. -/
def State.longWait (s : State) (g : Grid) : Bool :=
  match g.waitSince with
  | some t => decide (t + s.ms ≤ s.clk)
  | none => false

/-- Whether a team that has waited 1 ms bars lower priorities from a die (step 6 of R312): one of a grid, or a saved one. A team that its
context's area has no room for holds back none (R29). -/
def State.barred (s : State) (prio d : Nat) : Bool :=
  (s.grids.any fun p => (p.2.reserved || s.longWait p.2) && decide (prio < p.2.prio) && p.2.dieSet.contains d && s.wantsCore p.1 p.2) ||
  s.teams.any fun p => decide (prio < p.2.prio) && p.2.dieSet.contains d && s.wantsRestore p.2 && decide (p.2.since + s.ms ≤ s.clk)

/-- The core for a team: the most free register cache, the lowest number on a tie. -/
def State.coreFor (s : State) (dies : List Nat) (prio waves alloc : Nat) (more : Nat → Bool) : Option Nat :=
  let cs := (dies.filter fun d => !s.barred prio d).flatMap fun d => (List.range Config.coresPerDie).map (· + d * Config.coresPerDie)
  (cs.filter fun c => s.coreOpen c && s.roomOn c waves alloc && more c).foldl (fun best c =>
    match best with
    | none => some c
    | some b => if s.freeCache b < s.freeCache c then some c else best) none

/-- The lowest free residency slot of a core. -/
def State.freeSlot (s : State) (c : Nat) : Nat :=
  ((List.range Config.teamsPerCore).find? fun i => !(s.onCore c).any fun p => p.2.rslot == i).getD 0

/-! ## Placement (R29, R312, R313) -/

/-- Where a grid's next team would go. -/
def State.target (s : State) (gk : Nat) (g : Grid) : Option Nat :=
  let t := g.team gk 0
  if s.wantsCore gk g then s.coreFor g.dieSet g.prio (t.nWaves + t.pool) t.alloc fun _ => true else none

/-- The bivouac slots that a team's waves hold. -/
def State.slotsOf (s : State) (t : Nat) : Nat := ((s.wavesOf t).map fun k => (s.wave k).slots.length).sum

/-- Where a saved team would go: any die, but a task team's own, and not the hot core that it left (R323); its bins, its bivouac slots
(R223) and its residents must find room. -/
def State.restoreTarget (s : State) (t : Nat) : Option Nat :=
  let x := s.team t
  if s.wantsRestore x then
    s.coreFor x.dieSet x.prio (x.nWaves + x.pool) x.alloc fun c =>
      x.moved != some c && decide (((s.core c).bins.filter fun p => p.2.args != []).length + x.saved.length ≤ 16) &&
        decide (s.slotsUsed c + s.slotsOf t ≤ 16) && s.residFits t (c / Config.coresPerDie)
  else none

/-- The place of a source in the round robin of its priority. -/
def sourceKey (src : Source) (ctx : Nat) : Nat :=
  match src with
  | .queue q => q
  | .task d => 64 + d * 16 + ctx
  | .child t => 128 + t

/-- The task that a unit picks of a graph of its context, and its pass mark. -/
def State.erPick (s : State) (d ctx gid : Nat) : Option (Nat × GTask) :=
  match (s.die d).graph gid with
  | none => none
  | some g =>
    if g.ctx ≠ ctx then none
    else
      match g.pick with
      | none => none
      | some i => (g.task i).map fun t => (i, t)

/-- Whether a task unit has a task to launch for a context: of its pool, or of a graph (R315, R319). -/
def State.taskWaits (s : State) (d ctx : Nat) : Bool :=
  !s.headOpen (.task d) ctx && (!(s.unit d ctx).pool.isEmpty ||
    (s.die d).graphs.any fun g => match s.erPick d ctx g.gid with
      | some p => !p.2.mark
      | none => false)

/-- The priority of a die's tasks for a context (R315). -/
def Die.taskPrio (x : Die) (ctx : Nat) : Nat := ((x.tq ctx).extractLsb' 12 3).toNat

/-- The sources that can give a record now: the priority of each, and its place in the round robin of that. -/
def State.waiting (s : State) : List (Nat × Nat) :=
  ((List.range 64).filter s.canTake).map (fun q => ((s.queue q).prio, sourceKey (.queue q) 0)) ++
  (s.teams.filter fun p => s.canTakePending p.1).map (fun p =>
    ((match p.2.pending with
      | x :: _ => min x.record.prio p.2.root
      | [] => 0), sourceKey (.child p.1) 0)) ++
  s.dies.flatMap fun p => ((List.range 16).filter (s.taskWaits p.1)).map fun c => (p.2.taskPrio c, sourceKey (.task p.1) c)

/-- Grids that could place a team now, with their cores. -/
def State.placeable (s : State) : List (Nat × Grid × Nat) :=
  s.grids.filterMap fun p => (s.target p.1 p.2).map fun c => (p.1, p.2, c)

/-- Whether the round robin comes to a grid: among the placeable grids of its priority and the sources of that priority whose record is still to be
taken, its source is the next after the last one served (R312). -/
def State.turnOf (s : State) (gk : Nat) (g : Grid) : Bool :=
  let grids := (s.placeable.filter fun p => p.2.1.prio == g.prio).map fun p => (p.1, sourceKey p.2.1.source p.2.1.ctx)
  let all := grids ++ (s.waiting.filter fun p => p.1 == g.prio).map fun p => (s.nextGrid, p.2)
  let after : Nat → Nat := fun k => match s.robin.find? g.prio with
    | some last => if last < k then 0 else 1
    | none => 0
  let mine := sourceKey g.source g.ctx
  all.all fun p => decide (after mine < after p.2) || (after mine == after p.2 && (decide (mine < p.2) || (mine == p.2 && decide (gk ≤ p.1))))

/-- Whether nothing of a higher priority can be served (step 1 of R312). -/
def State.foremost (s : State) (prio : Nat) : Bool :=
  !(s.waiting.any fun p => decide (prio < p.1)) && !(s.placeable.any fun p => decide (prio < p.2.1.prio)) &&
  !(s.teams.any fun p => decide (prio < p.2.prio) && (s.restoreTarget p.1).isSome)

/-- Whether a grid may place its next team now: nothing of higher priority comes first, no saved team of its own does (log entry 31), and it is its
turn. -/
def State.mayPlace (s : State) (gk : Nat) (g : Grid) : Bool :=
  s.foremost g.prio && !(s.teams.any fun p => p.2.prio == g.prio && (s.restoreTarget p.1).isSome) && s.turnOf gk g

/-- Whether a saved team may be restored now: nothing of higher priority comes first, and no team that has left a hot core, unless it is one
itself (R323). -/
def State.mayRestore (s : State) (t : Nat) : Bool :=
  let x := s.team t
  (s.restoreTarget t).isSome && s.foremost x.prio &&
    (x.moved.isSome || !(s.teams.any fun p => p.2.prio == x.prio && p.2.moved.isSome && (s.restoreTarget p.1).isSome))

/-- The scalar registers of a team's waves at their start (R311, R316). -/
def startScalars (r : LaunchRec) (task : Option TaskRef) : List Word :=
  match task with
  | none => [lo32 r.arg, hi32 r.arg]
  | some t => [lo32 r.arg, hi32 r.arg, lo32 t.task.tile, hi32 t.task.tile &&& 0xFFFF, BitVec.ofNat 32 t.idx, BitVec.ofNat 32 t.task.gid]

/-- Place a team of a grid on a core: its areas, its memory zeroed, its waves at the entry (R51, R52, R311, R313). -/
def State.placeTeam (s : State) (gk : Nat) (g : Grid) (lin core : Nat) : State :=
  let t := s.nextTeam
  let x := g.team gk lin
  match s.allocImage g.ctx x.imageSize with
  | (s, none) => s
  | (s, some image) =>
    let x := { x with core := core, rslot := s.freeSlot core, since := s.clk, image := image }
    let s := { s with teams := s.teams.put t x, nextTeam := t + 1 }
    let s := (s.modCore core fun c => { c with gated := false }).acquire core 4
    let s := (List.range x.nWaves).foldl (fun s wid =>
      s.startWave t wid g.record.entry (List.replicate 32 0) (startScalars g.record g.task) false) s
    { s with
      robin := s.robin.put g.prio (sourceKey g.source g.ctx)
      grids := s.grids.mod gk fun y =>
        let y := if y.redo.isEmpty then { y with next := y.next + 1 } else { y with redo := y.redo.drop 1 }
        { y with waitSince := if y.pendingTeam.isSome then some s.clk else none, reserved := false } }

/-- TEAM_PLACEMENT (R312, R313). -/
def execTeamPlacement (grid : Nat) (s : State) : Answer :=
  .next (match s.grids.find? grid with
    | none => s
    | some g =>
      match g.pendingTeam, s.target grid g with
      | some lin, some c => if s.mayPlace grid g then s.placeTeam grid g lin c else s
      | _, _ => s)

/-- PLACEMENT_RESERVE_TIMEOUT (step 6 of R312): a team that fits on no core has waited 1 ms. -/
def execPlacementReserveTimeout (grid : Nat) (s : State) : Answer :=
  .next (match s.grids.find? grid with
    | none => s
    | some g =>
      if s.longWait g ∧ s.wantsCore grid g ∧ (s.target grid g).isNone then { s with grids := s.grids.mod grid fun y => { y with reserved := true } }
      else s)

/-- TEAM_RESTORE (R233). -/
def execTeamRestore (saved : Nat) (s : State) : Answer :=
  .next (match s.restoreTarget saved with
    | none => s
    | some c =>
      if s.mayRestore saved then (s.modCore c fun x => { x with gated := false }).restoreTeam saved c (s.freeSlot c) else s)

/-! ## Retirement (R52, R55, R62, R478) -/

/-- Whether a team's waves have all exited and nothing of it is left on its core: no request in a bin, no command. -/
def State.finished (s : State) (t : Nat) : Bool :=
  (s.teams.find? t).isSome && (s.wavesOf t).isEmpty && !s.hasCommands t &&
    !(s.core (s.team t).core).bins.any fun p => p.2.team == t && p.2.args != []

/-- A team retires (R52, R55, R316): its writes are performed, its task retires, its resources free, its grid counts it. -/
def State.retire (s : State) (t : Nat) : State :=
  let x := s.team t
  let s := (s.release x.core 4).retireTask t
  (s.freeTeam t).teamDone x.grid false

/-- TEAM_RETIRE (R52): with a child grid outstanding the team awaits its children, and keeps its team memory and its place. -/
def execTeamRetire (team : Nat) (s : State) : Answer :=
  .next (let x := s.team team
    match x.state with
    | .resident =>
      if !s.finished team then s
      else if x.children = 0 then s.retire team
      else
        let s := (s.release x.core 4).modCore x.core fun c => c.clearEngine team
        (s.writeSave team).modTeam team fun y => { y with state := .awaiting, preempt := none, swapping := false }
    | .awaiting => if x.children = 0 then s.retire team else s
    | _ => s)

/-! ## The task units (R315, R316, R319, R390) -/

/-- The launch record of a task (R315). -/
def taskRecord (t : TaskRec) (tq : Word) : LaunchRec :=
  { entry := t.entry, arg := t.arg, gx := 1, gy := 1, gz := 1, waves := t.waves, prio := (tq.extractLsb' 12 3).toNat,
    vregs := (tq.extractLsb' 16 10).toNat, sregs := (tq.extractLsb' 0 9).toNat, flags := 0, tmem := t.kib * 1024, spill := 0, pool := 0,
    completion := 0, rsv := 0 }

/-- Launch a task of a die's unit for a context as a grid of one team. -/
def State.launchTask (s : State) (d ctx num : Nat) (t : TaskRec) (graph : Bool) (idx : Nat) : State :=
  let r := taskRecord t ((s.die d).tq ctx)
  s.newGrid ctx r num 1 r.prio r.prio (.task d) (some { die := d, num := num, task := t, graph := graph, idx := idx }) none

/-- TASK_LAUNCH (R315): the oldest pooled task of the unit. -/
def execTaskLaunch (die ctx : Nat) (s : State) : Answer :=
  .next (match (s.unit die ctx).pool with
    | [] => s
    | (num, t) :: rest =>
      if s.headOpen (.task die) ctx then s
      else (s.modUnit die ctx fun u => { u with pool := rest }).launchTask die ctx num t false 0)

/-- ER_TASK_PICK (R319): the lowest eligible task, where it has no pass mark. -/
def execErTaskPick (die ctx gid : Nat) (s : State) : Answer :=
  .next (match s.erPick die ctx gid with
    | none => s
    | some (i, t) =>
      if t.mark || s.headOpen (.task die) ctx then s
      else
        (s.modGraph die gid fun g => { g with tasks := g.tasks.set i { t with running := true } }).launchTask die ctx 0 t.task true i)

/-- ER_TASK_PASS (R319): the lowest eligible task, where it has a pass mark: its ropes flip, and the mark clears. -/
def execErTaskPass (die ctx gid : Nat) (s : State) : Answer :=
  .next (match s.erPick die ctx gid with
    | none => s
    | some (i, t) =>
      if t.mark then (s.modGraph die gid fun g => { g with tasks := g.tasks.set i { t with mark := false } }).endTurn die gid i else s)

/-! ## Heat and power (R237, R323) -/

/-- A core's temperature changes. -/
def State.setHeat (s : State) (core celsius : Nat) : State :=
  s.modCore core fun c => { c with celsius := celsius }.judgeHeat (s.die (core / Config.coresPerDie)).therm s.clk

/-- THERMAL_HOT (R323). -/
def execThermalHot (core celsius : Nat) (s : State) : Answer := .next (s.setHeat core celsius)

/-- THERMAL_COOL (R323). -/
def execThermalCool (core celsius : Nat) (s : State) : Answer := .next (s.setHeat core celsius)

/-- The team of a core that has been resident longest. -/
def State.oldestTeam (s : State) (c : Nat) : Option Nat :=
  ((s.teams.filter fun p => p.2.core == c && p.2.state == .resident).foldl (fun (best : Option (Nat × Nat)) p =>
    match best with
    | some (_, since) => if p.2.since < since then some (p.1, p.2.since) else best
    | none => some (p.1, p.2.since)) none).map (·.1)

/-- THERMAL_MIGRATION_TICK (R323): every 100 µs a hot core gives up its longest-resident team, if resident for 500 µs. -/
def execThermalMigrationTick (core : Nat) (s : State) : Answer :=
  .next (
    let x := s.core core
    if x.hot && decide (x.hotSince + 100 * s.us ≤ s.clk) then
      let s := s.modCore core fun c => { c with hotSince := s.clk }
      match s.oldestTeam core with
      | some t =>
        if (s.team t).since + 500 * s.us ≤ s.clk then ((s.askPreempt t).modTeam t fun x => { x with moved := some core }).tryPreempt t else s
      | none => s
    else s)

/-- CORE_POWER_GATE (R237): only with no resident team. -/
def execCorePowerGate (core : Nat) (s : State) : Answer :=
  .next (if s.teams.any fun p => p.2.core == core && p.2.state == .resident then s else s.modCore core fun c => { c with gated := true })

/-- WAKE_MESSAGE (R237). -/
def execWakeMessage (core : Nat) (s : State) : Answer := .next (s.modCore core fun c => { c with gated := false })

end Sys2Proof.Machine
end

