-- ==== Sys2Proof/Machine/Steps.lean ====
section
/-! DEFINITION. Steps inside the part that no instruction takes (R19, R32, R68, R77, R78, R184, R214, R222, R223, R236, R290, R324,
R448): forced switches, register-line fills, the ends of waits, late faults, the watchdog and bandwidth windows. -/
namespace Sys2Proof.Machine

/-! ## Runs and register lines (R68, R78) -/

/-- FORCED_SWITCH (R78): only in a run longer than 16 instructions. -/
def execForcedSwitch (wave : Nat) (s : State) : Answer :=
  .next (if 16 < (s.wave wave).run then s.switchPoint wave else s)

/-- Whether the register cache of a core has room for some bytes more. -/
def State.cacheRoom (s : State) (c n : Nat) : Bool := s.presentBytes c + n ≤ cacheBytes

/-- REGISTER_LINE_FILL (R68): the line comes in from its image. Where there is no room, the victim leaves first, if it is one that may be replaced
next; where there is none still, the line does not come in yet. -/
def execRegisterLineFill (wave line victimWave victimLine : Nat) (s : State) : Answer :=
  .next (let c := s.coreOf wave
    if !(s.wave wave).absent.contains line || !s.residentWave wave then s
    else
      let s := if !s.cacheRoom c (lineBytes line) && (s.victims c).contains (victimWave, victimLine) then s.evictLine victimWave victimLine else s
      if s.cacheRoom c (lineBytes line) then s.fillLine wave line else s)

/-- Lines leave a core until those that are left fit its register cache; of several that may be replaced next, the first (R68; log entry
14). -/
def State.trim (s : State) (c : Nat) : (fuel : Nat) → State
  | 0 => s
  | fuel + 1 =>
    if s.cacheRoom c 0 then s
    else match s.victims c with
      | [] => s
      | p :: _ => (s.evictLine p.1 p.2).trim c fuel

/-- Lines that a wave has at most, and the bytes that they and the shadow lines take at most. -/
def waveLines : Nat := 72
def waveBytes : Nat := 64 * 1024 + 8 * 128 + maxShadows * 1024

/-- Every core's register lines fit its cache: the lines of waves that start are there at once (R68). -/
def State.trimAll (s : State) : State :=
  (s.cores.map (·.1)).foldl (fun s c =>
    let n := (s.waves.filter fun p => s.coreOf p.1 == c).length
    if n * waveBytes ≤ cacheBytes then s else s.trim c (n * waveLines)) s

/-! ## The ends of waits (R19, R32, R62, R68, R223, R225, R262, R290, R379) -/

/-- Whether a wait that ends at its instruction has ended. -/
def State.waitOver (s : State) (k : Nat) (w : Wait) : Bool :=
  let c := s.coreOf k
  match w with
  | .line lines => lines.all fun l => !(s.wave k).absent.contains l
  | .queue (some ctx) => queued (s.copyCtx c ctx).queue < 16
  | .queue none => queued (s.core c).mq < 16
  | .slot => s.slotFree k
  | .tag => (s.ctx (s.ctxOf k)).tags.length < 256
  | .residency => (s.die (s.dieOf k)).resid.length < 1024
  | .spawnBin b => match (s.core c).bins.find? b with
    | some x => !x.fired
    | none => true
  | .dsp => !(s.die (s.dieOf k)).busy
  | .operand => true
  | .completion => true
  | _ => false

/-- The lanes of a wave that wait as a lane does: they wake together. -/
def Wave.waitingAs (w : Wave) (l : Nat) : BitVec 32 := w.which fun x => x.life == (w.lane l).life && x.pc == (w.lane l).pc

/-- BLOCKED_LANE_WAKE (R32): a conflict that reached a member meanwhile is taken here (R278). -/
def execBlockedLaneWake (wave lane : Nat) (s : State) : Answer :=
  .next (match ((s.wave wave).lane lane).life with
    | .blocked (.ctxsw _ _ _ _ _ _) => s.wakeCtxsw wave
    | .blocked w =>
      if s.waitOver wave w then
        (s.modLanes wave ((s.wave wave).waitingAs lane) fun _ l => { l with life := .ready }).abortConflicts wave
      else s
    | _ => s)

/-- SLEEP_EXPIRE (R448). -/
def execSleepExpire (wave lane : Nat) (s : State) : Answer :=
  .next (match ((s.wave wave).lane lane).life with
    | .blocked (.sleep wake next) =>
      if wake ≤ s.clk then s.modLanes wave ((s.wave wave).waitingAs lane) fun _ l => { l with life := .ready, pc := next } else s
    | _ => s)

/-! ## Late faults (R222) -/

/-- Deliver the first failure that waits for each of some lanes, at their next instruction; `fragment` is their group. -/
def State.deliverLate (s : State) (k : Nat) (fragment m : BitVec 32) (pc : DWord) : State :=
  let rs := (lanesOf m).filterMap fun l => match ((s.wave k).lane l).late with
    | x :: _ => some { lane := l, cause := x.cause, info := x.info, addr := x.addr : Report }
    | [] => none
  (s.modLanes k m fun _ l => { l with late := l.late.drop 1 }).raise k fragment pc rs

/-- ASYNC_FAULT_DELIVERY (R222): to a lane that is about to issue. -/
def execAsyncFaultDelivery (wave lane : Nat) (s : State) : Answer :=
  .next (let l := (s.wave wave).lane lane
    if l.life == .ready && !l.late.isEmpty && s.residentWave wave then s.deliverLate wave (1#32 <<< lane) (1#32 <<< lane) l.pc else s)

/-! ## The watchdog (R236) -/

/-- Whether an object belongs to a context: memory of its teams, or its window. -/
def State.objOf (s : State) (c : Nat) (o : ObjRef) : Bool :=
  match o with
  | .team t _ => (s.team t).ctx == c
  | .die d off => c == 0 || (let w := s.dspWindow d c; decide (w.1 ≤ off) && decide (off < w.1 + w.2))

/-- Whether a lane cannot go on by itself: Held, or at BARW on a barrier that no outside agent signals; a lane of a Swapped team waits at the
BARW that it is saved at (R232). -/
def State.stuckLane (s : State) (l : Lane) : Bool :=
  match l.life with
  | .held _ _ => true
  | .blocked (.barw o _ _ _ _) => !(s.bar o).flags.getLsbD 0
  | _ => l.waitsOn.any fun o => !(s.bar o).flags.getLsbD 0

/-- Whether a lane is Parked. -/
def Lane.isParked (l : Lane) : Bool :=
  match l.life with
  | .parked _ => true
  | _ => false

/-- Whether the watchdog of a context counts (R236): a lane is there, those of resident and of Swapped waves are stuck, and no lane of the context
is Parked. -/
def State.watchdogCounts (s : State) (c : Nat) : Bool :=
  let ws := s.waves.filter fun p => s.ctxOf p.1 == c && ((s.team (p.1 / 64)).state == .resident || (s.team (p.1 / 64)).state == .swapped)
  let lanes := ws.flatMap fun p => (lanesOf p.2.live).map fun l => p.2.lane l
  !lanes.isEmpty && lanes.all s.stuckLane && !(s.waves.any fun p => s.ctxOf p.1 == c && p.2.lanes.any fun q => q.2.isParked) &&
    !(s.cores.any fun p => (p.2.mq ++ p.2.copy.flatMap fun q => q.2.queue).any fun x => x.ctx == c && !x.finished) &&
    !(s.dies.any fun p => p.2.colls.any fun x => x.ctx == c) &&
    !(s.arms.any fun o => (s.bar o).flags.getLsbD 2 && s.objOf c o)

/-- The counts of the watchdogs start and stop as their conditions come and go: a count that starts while the module is halted, which adds the
whole halt to it, starts with the halt (R236, R400). -/
def State.tickWatchdogs (s : State) : State :=
  { s with ctxs := s.ctxs.mapAll fun c x =>
      { x with wdSince := if s.watchdogCounts c then some (x.wdSince.getD (s.mod.haltedAt.getD s.clk)) else none } }

/-- Whether a watchdog has run out. -/
def State.watchdogOut (s : State) (c : Nat) : Bool :=
  let x := s.ctx c
  match x.wdSince with
  | some t => x.wdtime != 0 && s.mod.haltedAt.isNone && s.watchdogCounts c && decide (t + x.wdtime.toNat * 1024 ≤ s.clk)
  | none => false

/-- WATCHDOG_EXPIRE (R236): the context's teams are pre-empted, and context 0's queue receives the record. -/
def execWatchdogExpire (ctx : Nat) (s : State) : Answer :=
  .next (if !s.watchdogOut ctx then s
    else
      let ts := (s.teams.filter fun p => p.2.ctx == ctx && p.2.state == .resident).map (·.1)
      let k := ((s.waves.filter fun p => s.ctxOf p.1 == ctx).head?.map (·.1)).getD 0
      let r := s.laneRec k (s.wave k).live 0x15 0 0 0 ((s.wave k).lane (lowest (s.wave k).live)).pc
      let s := s.post 0 { r with ctx := ctx }
      let s := s.modCtx ctx fun x => { x with wdSince := none }
      ts.foldl (fun s t => (s.askPreempt t).tryPreempt t) s)

/-! ## Bandwidth windows (R324) -/

/-- BW_WINDOW (R324): a new window begins, and writes of shares take effect. -/
def execBwWindow (die : Nat) (s : State) : Answer :=
  .next (if (s.die die).bwNow = s.clk / s.us then s else s.modDie die fun x => x.enterWindow (s.clk / s.us))

/-! ## Words that are no instruction (R120, R137, R138) -/

/-- UNASSIGNED_OPCODE: step 2 of R137 fails, in the first word or in the second. -/
def execUnassignedOpcode (second : Bool) (s : State) : Answer :=
  .next (let s := s.countRun (.unassignedOpcode second)
    if second then s.fault s.mask 1 s.cur.w1 (s.cur.pc + 4) else s.fault s.mask 1 s.cur.w0 s.cur.pc)

end Sys2Proof.Machine
end

