-- ==== Sys2Proof/Machine/Outside.lean ====
section
/-! DEFINITION. Paths outside the package and what firmware and the host do to the module (R12, R16 to R19, R28, R29, R81, R174, R238
to R241, R244, R245, R308, R332 to R345): register writes, contexts, the host bridge, peers, Ethernet, boot, reset and reports. -/
namespace Sys2Proof.Machine

/-! ## Register writes -/

/-- The numbers whose writes are steps of their own: DSPCFG, FQRES, LQTAIL, CTXCTL. -/
def ownStep (n : Nat) : Bool := n == 0x200 || n == 0x235 || n == 0x254 || n == 0x274

/-- REGISTER_WRITE (R81): a wave's write of a register in the view it may reach. -/
def execRegisterWrite (wave num : Nat) (val : Word) (s : State) : Answer :=
  .next (let m := (s.wave wave).live
    let a : Agent := { wave := some wave, mask := m, core := s.coreOf wave, ctx := s.ctxOf wave }
    if (s.waves.find? wave).isNone || !srAssigned num || ownStep num || num == brsel || (decide (0x200 ≤ num) && s.ctxOf wave != 0) then s
    else if srPerLane num then (lanesOf m).foldl (fun s l => s.writeHalf a num l val) s
    else s.writeHalf a num (lowest m) val)

/-- LQTAIL_WRITE (R308). -/
def execLqtailWrite (queue : Nat) (val : Word) (s : State) : Answer := .next (s.writeTail queue val)

/-! ## Die scratchpad (R16 to R19) -/

/-- DSPSZ_WRITE (R17, R19). -/
def execDspszWrite (die size : Nat) (s : State) : Answer := .next (s.writeDspsz die size)

/-- DSPSZ_CHANGE_COMPLETE (R19): offsets below both sizes keep their contents, the rest is zero; stalled accesses go on. -/
def execDspszChangeComplete (die : Nat) (s : State) : Answer :=
  .next (match (s.die die).dspNext with
    | none => s
    | some n =>
      let s := s.modDie die fun x =>
        let keep := min x.dspSize (n * 0x800000)
        { x with dspcfg := BitVec.ofNat 32 n, dspNext := none, dsp := x.dsp.filter fun p => decide (p.1 < keep),
                 poison := x.poison.filter fun p => decide (p * 8 < keep) }
      { s with waves := s.waves.mapAll fun k w =>
          if s.dieOf k = die then
            { w with lanes := w.lanes.mapAll fun _ l => if l.life = Life.blocked .dsp then { l with life := .ready } else l }
          else w })

/-! ## Contexts (R28, R29) -/

/-- CTXCTL_CREATE (R29). -/
def execCtxctlCreate (ctx : Nat) (s : State) : Answer := .next (s.writeCtxctl ctx 1)

/-- CTXCTL_DESTROY (R29). -/
def execCtxctlDestroy (ctx : Nat) (s : State) : Answer := .next (s.writeCtxctl ctx 2)

/-- CONTEXT_CREATE_COMPLETE (R29): the context's own state is reset, and it is LIVE. -/
def execContextCreateComplete (ctx : Nat) (s : State) : Answer :=
  .next (if !((s.ctx ctx).busy && (s.ctx ctx).creating) then s
    else
      let s := s.dropContext ctx
      let s := { s with
        cores := s.cores.mapAll fun _ x => { x with copy := x.copy.del ctx }
        dies := s.dies.mapAll fun _ x => { x with units := x.units.del ctx, graphs := x.graphs.filter (·.ctx != ctx) } }
      s.modCtx ctx fun x => { x with tags := [], waiting := [], fqhead := 0, launchIssued := 0, launchOut := [], retracts := [],
                                     wdSince := none, live := true, busy := false, creating := false })

/-- CONTEXT_DESTROY_COMPLETE (R29, R478): once no started command of its teams runs. -/
def execContextDestroyComplete (ctx : Nat) (s : State) : Answer :=
  .next (let x := s.ctx ctx
    if !x.busy || x.creating || s.teams.any (fun p => p.2.ctx == ctx) then s
    else (s.dropContext ctx).modCtx ctx fun x => { x with live := false, busy := false, hold := false })

/-! ## The host bridge (R338, R400) -/

/-- HOST_WINDOW_ACCESS (R338): as context 0's RDSR or WRSR. Where no register lies the answer to a read is free, and a write has
no effect. -/
def execHostWindowAccess (write : Bool) (num : Nat) (val : Word) (s : State) : Answer :=
  .next (
    let there := decide (0x200 ≤ num) && srAssigned num && num / 2 != 0x10C
    if write then (if there then s.writeHalf s.bridgeAgent num 0 val else s)
    else if there then
      let r := s.readHalf s.bridgeAgent num 0
      r.1.emit (.windowRead r.2)
    else
      let r := s.fresh
      r.2.emit (.windowRead (Config.freeWord r.1)))

/-- FABSTAT_HALT_SET (R338). -/
def execFabstatHaltSet (s : State) : Answer := .next s.halt

/-- FABSTAT_HALT_CLEAR (R400). -/
def execFabstatHaltClear (s : State) : Answer := .next s.unhalt

/-- HOST_MEMORY_ACCESS (R338): a store or load of local HBM, performed at the home die's L2. -/
def execHostMemoryAccess (write : Bool) (addr len : Nat) (data : List Byte) (s : State) : Answer :=
  .next (
    let ok := localBacked addr && localBacked (addr + len - 1)
    if write then (if ok then s.l2Write addr (data.take len) else s)
    else s.emit (.hostRead (if ok then s.l2Read addr len else [])))

/-! ## Fapol Link (R332 to R334, R336, R344) -/

/-- Whether a peer may access n bytes of this module's local HBM. -/
def State.exported (s : State) (a n : Nat) : Bool :=
  let base := s.mod.expbase.toNat
  !s.mod.fabstat.getLsbD 1 && decide (base ≤ a) && decide (a + n ≤ base + s.mod.explen.toNat) && localBacked a && localBacked (a + n - 1)

/-- The value that a peer's atomic writes (R132): `sub` 9 is a compare and swap, which writes nothing where the values differ. -/
def peerAtomic (sub type operand swap old : Nat) : Option Nat :=
  if sub = 9 then (if old = operand then some swap else none) else some (atomOp sub type old operand)

/-- PEER_ACCESS (R333, R334): inside the exported range, or refused to its issuer. An atomic executes here, at the owner (R195), and
answers with the old value. -/
def execPeerAccess (op : PeerOp) (addr len : Nat) (data : List Byte) (s : State) : Answer :=
  .next (
    match op with
    | .load => if s.exported addr len then s.emit (.peerRead (s.l2Read addr len)) else s.emit (.peerFault addr)
    | .store => if s.exported addr len then s.l2Write addr (data.take len) else s.emit (.peerFault addr)
    | .atomic sub type operand swap =>
      let n := typeBytes type
      if s.exported addr n then
        let s := s.evictEverywhere (addr / 128)
        let old := s.l2Read addr n
        let s := match peerAtomic sub type operand swap (fromBytes old) with
          | some v => s.l2Write addr (toBytes n v)
          | none => s
        s.emit (.peerRead old)
      else s.emit (.peerFault addr))

/-- Collective instances with a module among their members fail (R344). -/
def State.failMember (s : State) (n : Nat) : State :=
  { s with dies := s.dies.mapAll fun _ x =>
      { x with colls := x.colls.map fun y => if y.members.any fun m => m % 1024 == n then { y with failed := true } else y } }

/-- FABRIC_STATUS_UPDATE (R332, R333, R344): a peer's FABSTAT, bit 31 set where it is unreachable, and the range it exports; from 1024 on it is
host node `module` - 1024 and the memory that it exports. -/
def execFabricStatusUpdate (module : Nat) (status : PeerReport) (s : State) : Answer :=
  .next (
    if 1024 ≤ module then s.modMod fun m => { m with host := m.host.put (module - 1024) (status.base, status.len) }
    else
      let gone := status.fabstat.getLsbD 31
      let p : Peer := { fabstat := status.fabstat &&& 0x7FFFFFFF, reachable := !gone, expbase := status.base, explen := status.len }
      let s := s.modMod fun m => { m with peers := m.peers.put module p }
      if gone || status.fabstat.getLsbD 1 then s.failMember module else s)

/-! ## Ethernet (R340, R341) -/

/-- LAUNCH_WINDOW_WRITE (R341): whole records, all or none. -/
def execLaunchWindowWrite (window : Nat) (data : List Byte) (s : State) : Answer :=
  .next (
    let cfg := s.mod.lwcfg.get window 0
    let q := (cfg.extractLsb' 24 6).toNat
    let x := s.queue q
    let k := data.length / 64
    if data.length % 64 ≠ 0 ∨ k = 0 ∨ cfg.getLsbD 31 = false ∨ x.enabled = false then s.emit (.accessNak window)
    else if x.size < (x.tail - x.head).toNat + k then s.emit (.rnrNak window)
    else
      let s := (List.range k).foldl (fun s i =>
        s.l2Write (x.base.toNat % 2 ^ 52 + 64 * ((x.tail.toNat + i) % 2 ^ 32 % x.size)) ((data.drop (64 * i)).take 64)) s
      (s.modQueue q fun y => { y with tail := y.tail + BitVec.ofNat 32 k }).emit (.windowAck window))

/-- Queue pairs that a module has at most (R340). -/
def maxQps : Nat := 16384

/-- A request on a queue pair: the first on one connects it, and where all are in use it is answered with a NAK (log entry 42). -/
def State.onQp (s : State) (qp : Nat) (f : State → State) : State :=
  if s.mod.qps.contains qp then f s
  else if s.mod.qps.length < maxQps then f (s.modMod fun m => { m with qps := m.qps ++ [qp] })
  else s.emit (.rdmaNak qp)

/-- RDMA_WRITE (R340), with an immediate word or without: the word is received once the data is written. -/
def execRdmaWrite (qp addr : Nat) (data : RdmaData) (s : State) : Answer :=
  .next (s.onQp qp fun s =>
    if localBacked addr && localBacked (addr + data.bytes.length - 1) then
      let s := s.l2Write addr data.bytes
      let s := match data.imm with
        | some v => s.emit (.received qp v)
        | none => s
      s.emit (.rdmaAck qp)
    else s.emit (.rdmaNak qp))

/-- RDMA_READ (R340). -/
def execRdmaRead (qp addr len : Nat) (s : State) : Answer :=
  .next (s.onQp qp fun s =>
    if localBacked addr && localBacked (addr + len - 1) then s.emit (.rdmaRead qp (s.l2Read addr len)) else s.emit (.rdmaNak qp))

/-- RDMA_ATOMIC (R340): a NAK, and nothing else. -/
def execRdmaAtomic (qp : Nat) (s : State) : Answer := .next (s.onQp qp fun s => s.emit (.rdmaNak qp))

/-- SEND (R340): the message is received on its queue pair. -/
def execSendMsg (qp : Nat) (data : List Byte) (s : State) : Answer :=
  .next (s.onQp qp fun s => (s.modMod fun m => { m with inbox := m.inbox ++ [(qp, data)] }).emit (.rdmaAck qp))

/-- PRIORITY_FLOW_CONTROL (R340). -/
def execPriorityFlowControl (port prio : Nat) (pause : Bool) (s : State) : Answer :=
  .next (s.modMod fun m => { m with paused := m.paused.set false (port * 8 + prio) pause })

/-- DCQCN_RATE_CONTROL (R340): the rate of the queue pair falls; to what, in Gb/s, is free. -/
def execDcqcnRateControl (qp : Nat) (s : State) : Answer :=
  .next (
    let r := s.fresh
    r.2.modMod fun m => { m with rates := m.rates.put qp (Config.freeChoice r.1 % max 1 (m.rates.get qp 800)) })

/-! ## Boot, reset and reports (R12, R342 to R345) -/

/-- POWER_ON_BOOT (R342): a failed link or a failed signature leaves the module in reset; otherwise context 0 starts. The fabric
manager sets MODNUM before it runs (R332). Context 0, whose CTXIMGB and CTXIMGL no write changes, has the image area that the boot gives it
(log entry 3). -/
def execPowerOnBoot (links : BitVec 4) (sigOk : Bool) (version : Word) (measures : Measures) (set : BootSet) (s : State) : Answer :=
  .next (
    if s.mod.boot = .running then s
    else if links ≠ 0 then s.modMod fun m => { m with boot := .linkFailure, links := links, version := version }
    else if !sigOk then s.modMod fun m => { m with boot := .signatureFailure, links := 0, version := version }
    else
      (s.modMod fun m => { m with boot := .running, links := 0, version := version, measure := measures.boot, more := measures.more.take 15,
                                  modnum := set.modnum &&& 0x3FF, fabstat := m.fabstat &&& 0xFFFFFFFD }).modCtx 0 fun x =>
        { x with imgb := set.imgb &&& ~~~ (0xFFF#64), imgl := set.imgl &&& ~~~ (0xFFF#64) })

/-- WARM_RESET (R344): every register at its reset value, FABSTAT.RESET set, and boot to run again. What memory then holds is not
defined: nothing is listed (log entry 1). -/
def execWarmReset (s : State) : Answer :=
  .next { State.reset with
    mod := { Mod.reset with fabstat := 2, peers := s.mod.peers, host := s.mod.host }
    inputs := s.inputs, out := s.out, free := s.free }

/-- The boot status of a report (R342). -/
def Boot.status : Boot → Nat
  | .linkFailure => 1
  | .signatureFailure => 2
  | _ => 0

/-- The boot report. -/
def State.bootReport (s : State) : Out := .bootReport s.mod.boot.status s.mod.links s.mod.version s.mod.measure

/-- ATTESTATION_REQUEST (R343): measurement 0, firmware's further ones and MODNUM, signed with the request's nonce. -/
def execAttestationRequest (nonce : List Byte) (s : State) : Answer :=
  .next (
    let measures := s.mod.measure :: s.mod.more
    s.emit (.attestation nonce measures s.mod.modnum (Config.signature nonce measures s.mod.modnum)))

/-- SIDEBAND_MAILBOX_REQUEST (R342, R345): while the module is in reset the mailbox answers with the boot report alone. Measured power
is free. -/
def execSidebandMailboxRequest (req : SidebandReq) (s : State) : Answer :=
  .next (
    if s.mod.boot ≠ .running then s.emit s.bootReport
    else
      match req with
      | .bootReport => s.emit s.bootReport
      | .power =>
        let r := s.fresh
        r.2.emit (.sideband [(Config.freeWord r.1).toNat])
      | .temperatures => s.emit (.sideband ((List.range Config.cores).map fun c => (s.core c).celsius))
      | .setPwrcap watts =>
        if 600 ≤ watts ∧ watts ≤ 2500 then s.modMod fun m => { m with pwrcap := BitVec.ofNat 32 watts } else s)

/-- POWER_CAP_STEP (R345): one step of 25 MHz down above the cap, one back up within it. -/
def execPowerCapStep (watts : Nat) (s : State) : Answer :=
  .next (s.modMod fun m =>
    if m.pwrcap.toNat < watts then { m with mhz := if 25 < m.mhz then m.mhz - 25 else m.mhz }
    else { m with mhz := min 1750 (m.mhz + 25) })

/-! ## Observation (R240, R244, R245) -/

/-- COUNTER_SWEEP (R244): the counter's change since the last sweep is added to its total. -/
def execCounterSweep (core ctx bank idx : Nat) (s : State) : Answer :=
  .next (
    let key := counterKey ctx bank idx
    let r := s.count core key
    let at' := (s.ctx ctx).cnttot.toNat % 2 ^ 52 + 8 * ((core * 8 + bank) * 32 + idx)
    let old := fromBytes (s.l2Read at' 8)
    (r.1.modCore core fun x => { x with counters := x.counters.put key { r.2 with swept := r.2.value } }).l2Write at'
      (toBytes 8 ((old + (r.2.value - r.2.swept).toNat) % 2 ^ 64)))

/-- The 32 bytes of a sample record (R245): the times, which depend on the part's timing, come with the step. -/
def Sample.bytes (x : Sample) (times : List Byte) : List Byte :=
  toBytes 8 x.pc.toNat ++ toBytes 8 x.addr.toNat ++ toBytes 4 x.loc.toNat ++ times.take 12

/-- SAMPLE_RECORD_WRITE (R245): the oldest marked request of the context has completed. -/
def execSampleRecordWrite (ctx : Nat) (times : List Byte) (s : State) : Answer :=
  .next (
    let x := s.ctx ctx
    let size := 2 ^ ((x.sampcfg.extractLsb' 28 4).toNat + 8)
    match x.samples with
    | [] => s
    | r :: rs =>
      (s.l2Write (x.sampbuf.toNat % 2 ^ 52 + 32 * (x.samphead.toNat % size)) (r.bytes times)).modCtx ctx fun y =>
        { y with samphead := y.samphead + 1, samples := rs })

/-- ECC_CORRECTED (R240). -/
def execEccCorrected (core : Nat) (s : State) : Answer := .next (s.modCore core fun c => { c with corrected := c.corrected + 1 })

/-! ## Uncorrectable errors and dumps (R239, R241) -/

/-- A team whose state an uncorrectable error strikes is killed, with a record of kind 0x12. -/
def State.softKill (s : State) (t : Nat) : State := s.kill t (some (s.laneRec (t * 64) 0 0x12 0 0 0 0))

/-- Poison the words of a line of memory (R241). -/
def State.poisonLine (s : State) (line : Nat) : State :=
  { s with poison := (List.range 16).foldl (fun ps i => addOnce ((line * 16 + i) * 2) ps) s.poison }

/-- UNCORRECTABLE_ERROR (R241). -/
def execUncorrectableError (place : ErrorPlace) (s : State) : Answer :=
  .next (match place with
    | .cleanLine => s
    | .walkCache => s
    | .tlb => s
    | .dirtyL2 addr => s.poisonLine (addr / 128)
    | .hbm addr => { s with poison := addOnce (addr / 8 * 2 + 1) s.poison }
    | .registerLine t => s.softKill t
    | .dirtyL1 ts => ts.foldl State.softKill s
    | .scratchpad t => s.softKill t
    | .bivouac t => s.softKill t
    | .dieScratch d off => s.modDie d fun x => { x with poison := addOnce (off / 8) x.poison })

/-- The state that a step answers. -/
def Answer.after (a : Answer) (s : State) : State :=
  match a with
  | .next t => t
  | _ => s

/-- One round of a core's engines: the matrix engine's next step, and a segment of each copy that runs. -/
def State.engineRound (s : State) (core : Nat) : State :=
  let go := fun (f : State → Answer) (s : State) => (f s).after s
  let s := go (execMatrixCommandStart core) s
  let s := go (execMxzClear core) (go (execMxdDrain core) (go (execMxsStream core) (go (execMxwLoad core) s)))
  (s.core core).copy.foldl (fun s q =>
    (List.range q.2.running.length).foldl (fun s i => go (execCopySegmentLand core q.1 i) s) s) s

/-- Rounds of a core's engines while they get on. -/
def State.runEngines (s : State) (core : Nat) : (fuel : Nat) → State
  | 0 => s
  | fuel + 1 =>
    let t := s.engineRound core
    if (t.core core).mq = (s.core core).mq ∧ (t.core core).copy = (s.core core).copy then t else t.runEngines core fuel

/-- Rounds that are enough for what a core's commands can still do: a byte at least is landed in each. -/
def Core.rounds (x : Core) : Nat :=
  ((x.mq ++ x.copy.flatMap fun q => q.2.queue).map fun c => c.op.total + 4).sum + 1

/-- The collectives of a team, with their dies. -/
def State.collsOf (s : State) (t : Nat) : List (Nat × Coll) := s.dies.flatMap fun p => (p.2.colls.filter fun x => x.team == t).map fun x => (p.1, x)

/-- The collectives of a team write to their receive buffers: what a dump lists of them. -/
def State.leftColls (s : State) (t : Nat) : List DumpItem :=
  (s.collsOf t).map fun p => s.dumpItem p.2.wave (lowest p.2.lanes) p.2.recv p.2.received

/-- The commands and collectives that a dump lists as failed end without further effect (R239; log entry 71). -/
def State.endListed (s : State) (t : Nat) : State :=
  let core := (s.team t).core
  let drop := fun (c : Cmd) => if c.team = t then { c with started := true, finished := true, tag := none } else c
  let s := s.modCore core fun x =>
    { x with mq := x.mq.map drop, copy := x.copy.mapAll fun _ y => { y with queue := y.queue.map drop } }
  let s := ((s.collsOf t).foldl (fun s p => (s.tellColl p.2).modDie p.1 fun y => { y with colls := y.colls.filter fun z => z.num != p.2.num }) s)
  ((s.settleEngines core).sweepTags (s.team t).ctx).reap t

/-- What a dump lists of a team as not performed (R239): what its kill left undone, its parked stores, the stores of its engine commands that have
not finished, and the receive buffers of its collectives. -/
def State.leftOver (s : State) (t : Nat) : List DumpItem :=
  s.left.get t [] ++ s.leftStores t ++ (s.leftCommands t fun _ => true) ++ s.leftColls t

/-- CORE_DUMP (R239): of a team of a halted module, or of a killed team, which may have been freed meanwhile. What can still be performed is: its
stores that wait, its engine commands and collectives as far as they can go, the dirty lines of its core. The rest is listed, and ends. -/
def execCoreDump (team : Nat) (s : State) : Answer :=
  .next (if s.mod.haltedAt.isNone && (s.team team).state != .killed && (s.left.find? team).isNone then s
    else
      let core := (s.team team).core
      let there := (s.teams.find? team).isSome
      let s := (s.wavesOf team).foldl (fun s k => (s.drain k).abortAll k) s
      let s := if there && s.hasCommands team then s.runEngines core (s.core core).rounds else s
      let s := ((s.collsOf team).filter fun p => p.2.ready).foldl (fun s p => s.completeColl p.1 p.2) s
      let s := if there then s.release core 5 else s
      let left := s.leftOver team
      let s := (if there && s.hasCommands team || !(s.collsOf team).isEmpty then s.endListed team else s).emit (.dump team left)
      { s with left := s.left.del team })

end Sys2Proof.Machine
end

