-- ==== Sys2Proof/Machine/Fetch.lean ====
section
/-! DEFINITION. PC groups and their picks (R36 to R39, R64), region entry (R261, R262), and the fetch of an instruction's words
(R117, R120, R137, R263, R269). -/
namespace Sys2Proof.Machine

/-! ## PC groups (R36) -/

/-- Put a lane into the group of its key. -/
def joinGroup (key : GroupKey) (l : Nat) : List (GroupKey × BitVec 32) → List (GroupKey × BitVec 32)
  | [] => [(key, 1#32 <<< l)]
  | g :: gs => if g.1 = key then (g.1, g.2 ||| (1#32 <<< l)) :: gs else g :: joinGroup key l gs

/-- The PC groups of a wave's Ready lanes, by their lowest lane. -/
def State.groups (s : State) (k : Nat) : List (BitVec 32) :=
  let ready := (List.range 32).filter fun l => ((s.wave k).lane l).life == .ready
  (ready.foldl (fun gs l => joinGroup (s.groupKey k l) l gs) []).map (·.2)

/-- The address that a group is picked at: what the other pick of the clk does to its lanes does not move it (R281). -/
def State.groupPc (s : State) (k : Nat) (m : BitVec 32) : DWord := ((s.asPicked k).lane (lowest m)).pc

/-- The lane whose residency a group fetches under: the lowest that the other pick of the clk has not aborted. -/
def State.speaker (s : State) (m : BitVec 32) : Nat := lowest (if s.thawed m = 0 then m else s.thawed m)

/-- Lanes of a group. -/
def groupSize (m : BitVec 32) : Nat := (lanesOf m).length

/-- The most populous group; on a tie the one whose lowest lane is smaller, which stands first (R37). -/
def largest (gs : List (BitVec 32)) : Option (BitVec 32) :=
  gs.foldl (fun best g => match best with
    | some b => if groupSize b < groupSize g then some g else best
    | none => some g) none

/-- The age of a group: that of its oldest lane, where lanes of different ages have come together (R64 does not say; DEDUCED, log entry 68). -/
def Wave.groupAge (w : Wave) (m : BitVec 32) : Nat := (lanesOf m).foldl (fun a l => max a (w.lane l).age) 0

/-- The group of the greatest age among those aged 63 (R64). -/
def Wave.agedGroup (w : Wave) (gs : List (BitVec 32)) : Option (BitVec 32) :=
  (gs.filter fun g => 63 ≤ w.groupAge g).foldl (fun best g => match best with
    | some b => if w.groupAge b < w.groupAge g then some g else best
    | none => some g) none

/-- The first pick of a wave (R37, R64). -/
def State.firstPick (s : State) (k : Nat) : Option (BitVec 32) :=
  let gs := s.groups k
  match (s.wave k).agedGroup gs with
  | some g => some g
  | none => largest gs

/-- After an issue cycle, groups that could issue and were not picked are a cycle older (R64). -/
def State.ageLanes (s : State) (k : Nat) (picked : BitVec 32) : State :=
  s.modWave k fun w => { w with lanes := w.lanes.mapAll fun l x =>
    { x with age := if x.life == .ready && !picked.getLsbD l then x.age + 1 else 0 } }

/-! ## Region entry (R261, R262) -/

/-- Steps 1 and 2 of R261 for region r at an address: none where they pass. -/
def State.entryStop (s : State) (c ctx r : Nat) (pc : DWord) : Option Stop :=
  let x := s.region ctx r
  if x.bad then some (.trap 7 7 pc)
  else if x.state ≠ 2 then some (.trap 0x0A (BitVec.ofNat 32 r) pc)
  else
    match (s.core c).adopted ctx r with
    | none => some (.trap 9 (-1) pc)
    | some g => if g.toNat = x.gen then none else some (.trap 9 g pc)

/-- Lanes become resident of a region at a generation: in its own right, or for handler code (R261, R262). -/
def State.enterRegion (s : State) (k : Nat) (m : BitVec 32) (r : Resid) : State :=
  (lanesOf m).foldl (fun s l =>
    let c := s.ctxOf k
    let old := fun (q : Option Resid) (s : State) => match q with
      | some q => s.residLeave c q
      | none => s
    let x := (s.wave k).lane l
    let s := old (if x.handler then x.hresid else x.resid) s
    (s.residEnter r.die c r.region r.gen).modLane k l fun x =>
      if x.handler then { x with hresid := some r } else { x with resid := some r }) s

/-! ## Words (R117, R263, R269) -/

/-- Drop every line but the newest that the instruction cache has room for: 128 KiB (R14). -/
def keepNewest (ls : List ICLine) : List ICLine := ls.take 1024

/-- A word through the instruction cache, filled on a miss. A line with a poisoned word is not kept. -/
def State.icRead (s : State) (c ctx : Nat) (va : DWord) (pa : Nat) (gen : Word) : State × Word :=
  let line := va.toNat / 128
  let word := fun (d : BitVec 1024) => d.extractLsb' (va.toNat % 128 * 8) 32
  match (s.core c).icache.find? fun x => x.ctx == ctx && x.line == line && x.gen == gen with
  | some x => (s, word x.data)
  | none =>
    let data := BitVec.ofNat 1024 (fromBytes (s.fetchLine c (pa / 128)))
    let s := if (s.poisonAt (pa / 128 * 128) 128).isSome then s
      else s.modCore c fun x => { x with icache := keepNewest ({ ctx := ctx, line := line, gen := gen, data := data } :: x.icache) }
    (s, word data)

/-- A word of a line of the instruction cache is taken anew, as the loss of the line and its fill would, and the others stand: the words of a line are
decided independently (R269). -/
def State.icRenew (s : State) (c n word : Nat) : State :=
  match (s.core c).icache[n]? with
  | none => s
  | some x =>
    let at_ := 4 * (word % 32)
    match (s.translate c x.ctx (BitVec.ofNat 64 (x.line * 128 + at_)) 3).2 with
    | .error _ => s
    | .ok pa =>
      if (s.poisonAt pa 4).isSome then s
      else
        let v := fromBytes (((s.fetchLine c (pa / 128)).drop at_).take 4)
        let keep : BitVec 1024 := x.data &&& ~~~ (BitVec.ofNat 1024 (0xFFFFFFFF * 2 ^ (8 * at_)))
        let y := { x with data := keep ||| BitVec.ofNat 1024 (v * 2 ^ (8 * at_)) }
        s.modCore c fun z => { z with icache := z.icache.set n y }

/-- Fetch one word at a generation. -/
def State.fetchWord (s : State) (c ctx : Nat) (pc : DWord) (gen : Word) : State × Except Stop Word :=
  if pc.toNat % 4 ≠ 0 then (s, .error (.trap 4 4 pc))
  else
    match s.translate c ctx pc 3 with
    | (s, .error e) => (s, .error (e.stop 3 pc 0))
    | (s, .ok pa) =>
      match s.poisonAt pa 4 with
      | some info => (s, .error (.trap 0x12 (BitVec.ofNat 32 info) pc))
      | none =>
        let r := s.icRead c ctx pc pa gen
        (r.1, .ok r.2)

/-- Enter a region, after the checks of R261, and fetch. Lines of its generation that the core filled before count no more (R269). -/
def State.fetchEntering (s : State) (k : Nat) (m : BitVec 32) (r : Nat) (pc : DWord) : State × Except Stop Word :=
  let c := s.coreOf k
  let ctx := s.ctxOf k
  match s.entryStop c ctx r pc with
  | some e => (s, .error e)
  | none =>
    let gen := BitVec.ofNat 32 (s.region ctx r).gen
    if s.residRoom (s.dieOf k) ctx r gen then
      ((s.enterRegion k m { region := r, gen := gen, die := s.dieOf k }).dropFetched c ctx r gen).fetchWord c ctx pc gen
    else (s, .error (.block .residency))

/-- Fetch the first word of a group: by residents at their generation, by entering lanes after the checks of R261, else static
code at generation 0, where a spawned wave does not begin (R63; its TINFO DEDUCED, log entry 57). -/
def State.fetchFirst (s : State) (k : Nat) (m : BitVec 32) : State × Except Stop Word :=
  let first := (s.wave k).fresh
  let s := if first then s.modWave k fun w => { w with fresh := false } else s
  let pc := s.groupPc k m
  let l := s.speaker m
  let m := s.thawed m
  let s := s.settleGroup k m
  let c := s.coreOf k
  let ctx := s.ctxOf k
  match s.residentAt k l pc with
  | some r => s.fetchWord c ctx pc r.gen
  | none =>
    match s.regionAt ctx pc with
    | none => if first then (s, .error (.trap 9 (-1) pc)) else s.fetchWord c ctx pc 0
    | some r => s.fetchEntering k m r pc

/-- A residency of a lane in the region that holds an address. -/
def State.residencyAt (s : State) (k l : Nat) (pc : DWord) : Option Resid :=
  let x := (s.wave k).lane l
  let holds := fun (r : Resid) => s.inRegion (s.ctxOf k) r.region pc
  (x.hresid.filter holds).or (x.resid.filter holds)

/-- The generation at which a lane reads a second word: its own, where it is resident there, else the current one of the region that holds the word, or
0 (R261). -/
def State.secondGen (s : State) (k : Nat) (pc : DWord) (l : Nat) : Word :=
  match s.residencyAt k l pc with
  | some r => r.gen
  | none =>
    match s.regionAt (s.ctxOf k) pc with
    | some r => BitVec.ofNat 32 (s.region (s.ctxOf k) r).gen
    | none => 0

/-- What steps 1 and 2 of R261 make of the second word of a group that has a lane not resident where it lies; none where they pass. -/
def State.secondStop (s : State) (k : Nat) (m : BitVec 32) (pc : DWord) : Option Stop :=
  if (lanesOf m).all fun l => (s.residencyAt k l pc).isSome then none
  else
    match s.regionAt (s.ctxOf k) pc with
    | some r => s.entryStop (s.coreOf k) (s.ctxOf k) r pc
    | none => none

/-- Fetch the second word of a group, never an entry (R117, R261): a failed check traps the group. Lanes that read the word at another generation than
the speaker do not issue with it: they issue later, as a group of their own (DEDUCED; log entry 75). -/
def State.fetchSecond (s : State) (k : Nat) (m : BitVec 32) : State × Except Stop Word :=
  let pc := s.groupPc k m + 4
  match s.secondStop k (s.thawed m) pc with
  | some e => (s, .error e)
  | none =>
    let g := s.secondGen k pc (s.speaker m)
    let apart := maskOf ((lanesOf m).filter fun l => s.secondGen k pc l != g)
    (s.without apart).fetchWord (s.coreOf k) (s.ctxOf k) pc g

/-- What a group executes. -/
structure Fetched where
  w0 : Word
  w1 : Word
  len : Nat
  instr : Instr
  deriving DecidableEq, Repr

/-- Fetch and decode the instruction of a group. A fetch of the second word that parks logs the first (R224). -/
def State.fetch (s : State) (k : Nat) (m : BitVec 32) : State × Except Stop Fetched :=
  match s.fetchFirst k m with
  | (s, .error e) => (s, .error e)
  | (s, .ok w0) =>
    if Decode.needsSecond w0 then
      match State.fetchSecond { s with cur := { s.cur with w0 := w0 } } k m with
      | (s, .error e) => (s, .error e)
      | (s, .ok w1) => (s, .ok { w0 := w0, w1 := w1, len := 8, instr := instrOf w0 w1 })
    else (s, .ok { w0 := w0, w1 := 0, len := 4, instr := instrOf w0 0 })

/-! ## The second pick (R37 to R39) -/

/-- The kinds of R39, by the opcode alone. -/
def restrictedOp (op : BitVec 9) : Bool :=
  let cls := op.toNat / 64
  let idx := op.toNat % 64
  5 ≤ cls || (cls == 4 && (idx ≤ 9 || idx == 0x0B || idx == 0x1A || idx == 0x1C))

/-- Whether a group's next instruction is of the restricted kinds; one whose first word cannot be fetched counts as such. -/
def State.restricted (s : State) (k : Nat) (m : BitVec 32) : Bool :=
  match (s.fetchFirst k m).2 with
  | .ok w0 => restrictedOp (w0.extractLsb' 22 9)
  | .error _ => true

/-- The second pick beside a first (R37, R38). -/
def State.secondPick (s : State) (k : Nat) (first : BitVec 32) : Option (BitVec 32) :=
  let rest := (s.groups k).filter (· != first)
  if rest.isEmpty then none
  else if s.restricted k first then largest (rest.filter fun g => !s.restricted k g)
  else largest rest

end Sys2Proof.Machine
end

