-- ==== Sys2Proof/Machine/Sched.lean ====
section
/-! DEFINITION. Who may move next: the wave that each issue slot chooses (R37, R41, R65, R321), and the steps inside the part whose
conditions hold. The order in which they come is the environment's (log entry 6). -/
namespace Sys2Proof.Machine

/-! ## The choice of an issue slot (R321) -/

/-- Whether the module issues at all (R338, R342, R400). -/
def State.issuing (s : State) : Bool := s.mod.boot == .running && s.mod.haltedAt.isNone

/-- How many clk an instruction holds its half of the datapath (R41). -/
def holdClk (i : Instr) : Nat :=
  match i with
  | .add t _ => if 2 ≤ t.toNat then 2 else 1
  | .sub t _ => if 2 ≤ t.toNat then 2 else 1
  | .addx t _ => if 2 ≤ t.toNat then 2 else 1
  | .subx t _ => if 2 ≤ t.toNat then 2 else 1
  | .adds t _ => if 2 ≤ t.toNat then 2 else 1
  | .subs t _ => if 2 ≤ t.toNat then 2 else 1
  | .min t _ => if 2 ≤ t.toNat then 2 else 1
  | .max t _ => if 2 ≤ t.toNat then 2 else 1
  | .clamp t _ => if 2 ≤ t.toNat then 2 else 1
  | .absd t _ => if 2 ≤ t.toNat then 2 else 1
  | .mul t _ => if 2 ≤ t.toNat then 4 else 1
  | .mulh t _ => if 2 ≤ t.toNat then 4 else 1
  | .mad t _ => if 2 ≤ t.toNat then 4 else 1
  | .div t _ => if 2 ≤ t.toNat then 16 else 8
  | .rem t _ => if 2 ≤ t.toNat then 16 else 8
  | .lea _ _ => 2
  | .andB w _ => if w then 2 else 1
  | .orB w _ => if w then 2 else 1
  | .xorB w _ => if w then 2 else 1
  | .andn w _ => if w then 2 else 1
  | .notB w _ => if w then 2 else 1
  | .lut3 w _ => if w then 2 else 1
  | .shl w _ => if w then 2 else 1
  | .shr w _ => if w then 2 else 1
  | .sar w _ => if w then 2 else 1
  | .rol w _ => if w then 2 else 1
  | .bfx w _ => if w then 2 else 1
  | .bfxs w _ => if w then 2 else 1
  | .bfi w _ => if w then 2 else 1
  | .popc w _ => if w then 2 else 1
  | .clz w _ => if w then 2 else 1
  | .ctz w _ => if w then 2 else 1
  | .brev w _ => if w then 2 else 1
  | .prmb w _ => if w then 2 else 1
  | .sel w _ => if w then 2 else 1
  | .mov w _ => if w then 2 else 1
  | .cmpEq w _ => if w then 2 else 1
  | .cmpNe w _ => if w then 2 else 1
  | .cmpLt w _ => if w then 2 else 1
  | .cmpLe w _ => if w then 2 else 1
  | .cmpLtn w _ => if w then 2 else 1
  | .cmpLen w _ => if w then 2 else 1
  | .testZ w _ => if w then 2 else 1
  | .testNz w _ => if w then 2 else 1
  | .fadd f _ => if f = 1 then 4 else 1
  | .fsub f _ => if f = 1 then 4 else 1
  | .fmul f _ => if f = 1 then 4 else 1
  | .fma f _ => if f = 1 then 4 else 1
  | .fmin f _ => if f = 1 then 4 else 1
  | .fmax f _ => if f = 1 then 4 else 1
  | .fcmp _ f _ => if f = 1 then 4 else 1
  | .fdiv f _ => if f = 1 then 16 else 4
  | .fsqrt f _ => if f = 1 then 16 else 4
  | .frcp _ _ => 2
  | .frsq _ _ => 2
  | .fexp2 _ _ => 2
  | .flog2 _ _ => 2
  | .cvt src o => if src = 11 ∨ (o.b.extractLsb' 3 4) = 11 then 4 else 1
  | .frnd o => if (o.b.extractLsb' 3 4) = 11 then 4 else 1
  | .fclass o => if (o.b.extractLsb' 3 4) = 11 then 4 else 1
  | .qnt _ _ => 2
  | .dqnt _ _ => 2
  | .bxenc _ _ => 2
  | .bxdecBx3 _ => 2
  | .bxdecBx5 _ => 2
  | .bxdecBx8 _ => 2
  | .reda _ => 2
  | .redm _ => 2
  | .scana _ => 2
  | _ => 1

/-- A half of the datapath of an issue slot, as a core numbers them (R41). -/
def halfOf (slot half : Nat) : Nat := slot * 2 + half

/-- The halves of a wave's slot that are free. -/
def State.freeHalves (s : State) (k : Nat) : List Nat :=
  (List.range 2).filter fun h => decide ((s.core (s.coreOf k)).halves.get (halfOf (s.wave k).islot h) 0 ≤ s.clk)

/-- Whether a wave has a group that can issue now (R32, R41, R231). -/
def State.ready (s : State) (k : Nat) : Bool :=
  s.residentWave k && !s.stopped (k / 64) && !(s.freeHalves k).isEmpty && (s.wave k).which (fun l => l.life == .ready) != 0

/-- The waves that could issue. -/
def State.readyWaves (s : State) : List Nat := if s.issuing then (s.waves.map (·.1)).filter s.ready else []

/-- The first of some waves by a clk of each. -/
def State.eldest (s : State) (since : Wave → Nat) (ks : List Nat) : Option Nat :=
  ks.foldl (fun best k => match best with
    | some b => if since (s.wave k) < since (s.wave b) then some k else best
    | none => some k) none

/-- The choice among the ready waves of one slot (R321): one that has waited 512 clk, oldest by its placement first; a critical one; the oldest, by
what YIELD makes of its placement (R477). -/
def State.slotChoice (s : State) (c : Nat) (ks : List Nat) : Option Nat :=
  match s.eldest Wave.rank (ks.filter fun k => (s.wave k).lastIssue + 512 ≤ s.clk) with
  | some k => some k
  | none =>
    match (s.core c).crit.find? ks.contains with
    | some k => some k
    | none => s.eldest Wave.order ks

/-- The waves that their slots choose. -/
def State.issues (s : State) : List Nat :=
  let ks := s.readyWaves
  ks.filter fun k =>
    let same := ks.filter fun j => s.coreOf j == s.coreOf k && (s.wave j).islot == (s.wave k).islot
    s.slotChoice (s.coreOf k) same == some k

/-! ## Steps inside the part -/

/-- A step where its condition holds. -/
def whenStep (b : Bool) (i : Instr) : List Instr := if b then [i] else []

/-- Steps of the dies (R19, R315, R319, R324, R336). -/
def State.dieSteps (s : State) : List Instr :=
  s.dies.flatMap fun (d, x) =>
    whenStep x.busy (.dspszChangeComplete d) ++
    (x.units.flatMap fun (c, u) => whenStep (!u.pool.isEmpty && !s.headOpen (.task d) c) (.taskLaunch d c)) ++
    (x.graphs.flatMap fun g => match s.erPick d g.ctx g.gid with
      | some (_, t) => if t.mark then [.erTaskPass d g.ctx g.gid] else whenStep (!s.headOpen (.task d) g.ctx) (.erTaskPick d g.ctx g.gid)
      | none => []) ++
    whenStep (x.colls.any Coll.ready) (.collComplete d) ++
    whenStep (!x.bwPending.isEmpty && x.bwNow != s.clk / s.us) (.bwWindow d)

/-- Steps of the contexts (R28, R29, R228, R236, R268). -/
def State.ctxSteps (s : State) : List Instr :=
  s.ctxs.flatMap fun (c, x) =>
    whenStep (x.busy && x.creating) (.contextCreateComplete c) ++
    whenStep (x.busy && !x.creating && !s.teams.any fun p => p.2.ctx == c) (.contextDestroyComplete c) ++
    whenStep (!x.waiting.isEmpty && !x.queueFull) (.faultRecordWrite c) ++
    whenStep (s.watchdogOut c) (.watchdogExpire c) ++
    x.retracts.flatMap fun (r, _) => whenStep (s.retractionReady c r) (.retractionComplete c r)

/-- Steps of the dispatcher (R57, R308, R312). -/
def State.dispatchSteps (s : State) : List Instr :=
  (s.queues.flatMap fun (q, _) => whenStep (s.canTake q) (.dispatcherTakeRecord q)) ++
  s.grids.flatMap fun (k, g) =>
    whenStep (g.pendingTeam.isSome && (s.target k g).isSome && s.mayPlace k g) (.teamPlacement k) ++
    whenStep (!g.reserved && s.longWait g && s.wantsCore k g &&
      (s.target k g).isNone)
      (.placementReserveTimeout k)

/-- Whether a team can retire, or begin to await its children (R52). -/
def State.mayRetire (s : State) (t : Nat) : Bool :=
  match (s.team t).state with
  | .resident => s.finished t
  | .awaiting => (s.team t).children == 0
  | _ => false

/-- Steps of the teams (R52, R53, R57, R66, R231, R233). -/
def State.teamSteps (s : State) : List Instr :=
  s.teams.flatMap fun (t, x) =>
    whenStep (s.canTakePending t) (.pendingLaunchTake t) ++ whenStep (s.mayRetire t) (.teamRetire t) ++
    whenStep (x.preempt.isSome && s.quiet t) (.preemption t) ++ whenStep (if s.swapMet t then s.quiet t || x.preempt.isNone else x.swapping) (.swapOut t) ++
    whenStep (s.mayRestore t) (.teamRestore t) ++
    whenStep (s.deferred t && (match x.preempt with | some t0 => decide (t0 + (s.ctx x.ctx).critmax.toNat * 1024 ≤ s.clk) | none => false))
      (.critLimitExpire t)

/-- The fills of a line that a lane waits for: into free room, or over a line of the core that may be replaced next (R68, R69). Where there is
room the victim named is the line itself, which is not present. -/
def State.fillSteps (s : State) (k line : Nat) : List Instr :=
  let c := s.coreOf k
  if s.cacheRoom c (lineBytes line) then [.registerLineFill k line k line]
  else (s.victims c).map fun p => .registerLineFill k line p.1 p.2

/-- Whether a lane's wait has ended. -/
def State.wakes (s : State) (k : Nat) (l : Lane) : Bool :=
  match l.life with
  | .blocked (.ctxsw ts done _ _ _ _) => ts.all (s.released done)
  | .blocked w => s.waitOver k w
  | _ => false

/-- Whether a lane's sleep has ended (R448). -/
def State.slept (s : State) (l : Lane) : Bool :=
  match l.life with
  | .blocked (.sleep wake _) => decide (wake ≤ s.clk)
  | _ => false

/-- The lines that a wave's lanes wait for. -/
def Wave.linesAwaited (w : Wave) : List Nat :=
  w.lanes.foldl (fun acc p => match p.2.life with
    | .blocked (.line ls) => ls.foldl (fun acc l => if w.absent.contains l then addOnce l acc else acc) acc
    | _ => acc) []

/-- Steps of the waves (R32, R68, R78, R448). -/
def State.waveSteps (s : State) : List Instr :=
  s.waves.flatMap fun (k, w) =>
    if !s.residentWave k then []
    else
      whenStep (decide (16 < w.run)) (.forcedSwitch k) ++ (w.linesAwaited.flatMap (s.fillSteps k)) ++
      w.lanes.flatMap fun (l, x) =>
        whenStep (s.wakes k x && lowest (w.waitingAs l) == l) (.blockedLaneWake k l) ++
        whenStep (s.slept x && lowest (w.waitingAs l) == l) (.sleepExpire k l)

/-- Whether the matrix engine runs a command whose next step can come, and which step it is. -/
def State.matrixSteps (s : State) (c : Nat) : List Instr :=
  (s.core c).mq.flatMap fun x =>
    if !x.started || x.finished then []
    else
      match x.op with
      | .mxw _ _ _ _ _ => [.mxwLoad c]
      | .mxs _ _ _ _ _ _ _ _ => [.mxsStream c]
      | .mxd _ _ _ _ _ _ _ _ => whenStep x.tag.isNone (.mxdDrain c)
      | .mxz _ => [.mxzClear c]
      | _ => []

/-- Whether the first command of a queue has finished. -/
def headFinished : List Cmd → Bool
  | c :: _ => c.finished
  | [] => false

/-- Steps of the cores (R61, R62, R208, R290, R301, R304, R323). -/
def State.coreSteps (s : State) : List Instr :=
  s.cores.flatMap fun (c, x) =>
    (x.bins.flatMap fun (b, y) =>
      whenStep (!y.fired && y.args != [] && decide (y.due ≤ s.clk) && (s.team y.team).state == .resident) (.spawnTimerExpire c b) ++
      whenStep (y.fired && y.args != [] && (s.team y.team).state == .resident && decide (s.spawnedWaves y.team < (s.team y.team).pool))
        (.spawnBatchStart c b)) ++
    whenStep (s.matrixHead c).isSome (.matrixCommandStart c) ++ s.matrixSteps c ++
    (x.copy.flatMap fun (e, q) =>
      ((List.range q.running.length).flatMap fun i =>
        whenStep ((q.running[i]?).all fun y => y.tag.isNone) (.copySegmentLand c e i)) ++
      whenStep (headFinished q.queue) (.copyCommandComplete c (some e))) ++
    whenStep (headFinished x.mq) (.copyCommandComplete c none) ++
    whenStep (x.slotNow != s.clk / 2048 && (!x.slotPending.isEmpty || x.mq.any fun y => !y.started)) (.slotBoundary c) ++
    whenStep (x.hot && decide (x.hotSince + 100 * s.us ≤ s.clk)) (.thermalMigrationTick c)

/-- Every step inside the part whose condition holds. -/
def State.innerSteps (s : State) : List Instr :=
  s.dieSteps ++ s.ctxSteps ++ s.dispatchSteps ++ s.teamSteps ++ s.waveSteps ++ s.coreSteps

/-- Stores that wait may be performed at any time, in any order that keeps those of one byte in order (R198, R199). -/
def State.storeMoves (s : State) : List Input := s.waves.flatMap fun p => (List.range p.2.stores.length).map (Input.perform p.1)

/-- What the part may do next of itself. -/
def State.moves (s : State) : List Input :=
  s.issues.map Input.issue ++ s.innerSteps.map Input.event ++ s.storeMoves

end Sys2Proof.Machine
end

