-- ==== Sys2Proof/Machine/Dispatch.lean ====
section
/-! DEFINITION. The meaning of every instruction and of every step of the part: one arm for each constructor of `Instr`. -/
namespace Sys2Proof.Machine

def exec (i : Instr) (s : State) : Host.Outcome State Fault Refusal :=
  match i with
  | .add t o => Sys2Proof.Machine.execAdd t o s
  | .sub t o => Sys2Proof.Machine.execSub t o s
  | .addx t o => Sys2Proof.Machine.execAddx t o s
  | .subx t o => Sys2Proof.Machine.execSubx t o s
  | .adds t o => Sys2Proof.Machine.execAdds t o s
  | .subs t o => Sys2Proof.Machine.execSubs t o s
  | .mul t o => Sys2Proof.Machine.execMul t o s
  | .mulh t o => Sys2Proof.Machine.execMulh t o s
  | .mad t o => Sys2Proof.Machine.execMad t o s
  | .div t o => Sys2Proof.Machine.execDiv t o s
  | .rem t o => Sys2Proof.Machine.execRem t o s
  | .min t o => Sys2Proof.Machine.execMin t o s
  | .max t o => Sys2Proof.Machine.execMax t o s
  | .clamp t o => Sys2Proof.Machine.execClamp t o s
  | .lea t o => Sys2Proof.Machine.execLea t o s
  | .absd t o => Sys2Proof.Machine.execAbsd t o s
  | .andB w o => Sys2Proof.Machine.execAndB w o s
  | .orB w o => Sys2Proof.Machine.execOrB w o s
  | .xorB w o => Sys2Proof.Machine.execXorB w o s
  | .andn w o => Sys2Proof.Machine.execAndn w o s
  | .notB w o => Sys2Proof.Machine.execNotB w o s
  | .lut3 w o => Sys2Proof.Machine.execLut3 w o s
  | .shl w o => Sys2Proof.Machine.execShl w o s
  | .shr w o => Sys2Proof.Machine.execShr w o s
  | .sar w o => Sys2Proof.Machine.execSar w o s
  | .rol w o => Sys2Proof.Machine.execRol w o s
  | .bfx w o => Sys2Proof.Machine.execBfx w o s
  | .bfxs w o => Sys2Proof.Machine.execBfxs w o s
  | .bfi w o => Sys2Proof.Machine.execBfi w o s
  | .popc w o => Sys2Proof.Machine.execPopc w o s
  | .clz w o => Sys2Proof.Machine.execClz w o s
  | .ctz w o => Sys2Proof.Machine.execCtz w o s
  | .brev w o => Sys2Proof.Machine.execBrev w o s
  | .prmb w o => Sys2Proof.Machine.execPrmb w o s
  | .sel w o => Sys2Proof.Machine.execSel w o s
  | .mov w o => Sys2Proof.Machine.execMov w o s
  | .cmpEq w o => Sys2Proof.Machine.execCmpEq w o s
  | .cmpNe w o => Sys2Proof.Machine.execCmpNe w o s
  | .cmpLt w o => Sys2Proof.Machine.execCmpLt w o s
  | .cmpLe w o => Sys2Proof.Machine.execCmpLe w o s
  | .cmpLtn w o => Sys2Proof.Machine.execCmpLtn w o s
  | .cmpLen w o => Sys2Proof.Machine.execCmpLen w o s
  | .testZ w o => Sys2Proof.Machine.execTestZ w o s
  | .testNz w o => Sys2Proof.Machine.execTestNz w o s
  | .fadd f o => Sys2Proof.Machine.execFadd f o s
  | .fsub f o => Sys2Proof.Machine.execFsub f o s
  | .fmul f o => Sys2Proof.Machine.execFmul f o s
  | .fma f o => Sys2Proof.Machine.execFma f o s
  | .fmin f o => Sys2Proof.Machine.execFmin f o s
  | .fmax f o => Sys2Proof.Machine.execFmax f o s
  | .fdiv f o => Sys2Proof.Machine.execFdiv f o s
  | .fsqrt f o => Sys2Proof.Machine.execFsqrt f o s
  | .frcp f o => Sys2Proof.Machine.execFrcp f o s
  | .frsq f o => Sys2Proof.Machine.execFrsq f o s
  | .fexp2 f o => Sys2Proof.Machine.execFexp2 f o s
  | .flog2 f o => Sys2Proof.Machine.execFlog2 f o s
  | .fcmp c f o => Sys2Proof.Machine.execFcmp c f o s
  | .cvt src o => Sys2Proof.Machine.execCvt src o s
  | .frnd o => Sys2Proof.Machine.execFrnd o s
  | .fclass o => Sys2Proof.Machine.execFclass o s
  | .pack o => Sys2Proof.Machine.execPack o s
  | .unpk o => Sys2Proof.Machine.execUnpk o s
  | .dot4 k o => Sys2Proof.Machine.execDot4 k o s
  | .dot2 k o => Sys2Proof.Machine.execDot2 k o s
  | .dot8 o => Sys2Proof.Machine.execDot8 o s
  | .qnt k o => Sys2Proof.Machine.execQnt k o s
  | .dqnt k o => Sys2Proof.Machine.execDqnt k o s
  | .bxenc k o => Sys2Proof.Machine.execBxenc k o s
  | .bxdecBx3 o => Sys2Proof.Machine.execBxdecBx3 o s
  | .bxdecBx5 o => Sys2Proof.Machine.execBxdecBx5 o s
  | .bxdecBx8 o => Sys2Proof.Machine.execBxdecBx8 o s
  | .br off => Sys2Proof.Machine.execBr off s
  | .brc cond off => Sys2Proof.Machine.execBrc cond off s
  | .brx o c => Sys2Proof.Machine.execBrx o c s
  | .call off => Sys2Proof.Machine.execCall off s
  | .callx o => Sys2Proof.Machine.execCallx o s
  | .ret o => Sys2Proof.Machine.execRet o s
  | .jenr o => Sys2Proof.Machine.execJenr o s
  | .jwait o => Sys2Proof.Machine.execJwait o s
  | .exit o => Sys2Proof.Machine.execExit o s
  | .wbase o => Sys2Proof.Machine.execWbase o s
  | .nop o => Sys2Proof.Machine.execNop o s
  | .yield o => Sys2Proof.Machine.execYield o s
  | .ballot o => Sys2Proof.Machine.execBallot o s
  | .vany o => Sys2Proof.Machine.execVany o s
  | .vall o => Sys2Proof.Machine.execVall o s
  | .rankl o => Sys2Proof.Machine.execRankl o s
  | .elect o => Sys2Proof.Machine.execElect o s
  | .rdln o => Sys2Proof.Machine.execRdln o s
  | .wrln o => Sys2Proof.Machine.execWrln o s
  | .shfl o => Sys2Proof.Machine.execShfl o s
  | .shflx o => Sys2Proof.Machine.execShflx o s
  | .shflu o => Sys2Proof.Machine.execShflu o s
  | .shfld o => Sys2Proof.Machine.execShfld o s
  | .scana o => Sys2Proof.Machine.execScana o s
  | .reda o => Sys2Proof.Machine.execReda o s
  | .redm o => Sys2Proof.Machine.execRedm o s
  | .syncw o c => Sys2Proof.Machine.execSyncw o c s
  | .actm o => Sys2Proof.Machine.execActm o s
  | .sleep o => Sys2Proof.Machine.execSleep o s
  | .ld k o => Sys2Proof.Machine.execLd k o s
  | .ldt k o => Sys2Proof.Machine.execLdt k o s
  | .ldp k o => Sys2Proof.Machine.execLdp k o s
  | .pf o => Sys2Proof.Machine.execPf o s
  | .st k o => Sys2Proof.Machine.execSt k o s
  | .stt k o => Sys2Proof.Machine.execStt k o s
  | .stp k o => Sys2Proof.Machine.execStp k o s
  | .stc o => Sys2Proof.Machine.execStc o s
  | .lde o => Sys2Proof.Machine.execLde o s
  | .pushv o => Sys2Proof.Machine.execPushv o s
  | .popv o => Sys2Proof.Machine.execPopv o s
  | .atom o c => Sys2Proof.Machine.execAtom o c s
  | .cas o c => Sys2Proof.Machine.execCas o c s
  | .red o c => Sys2Proof.Machine.execRed o c s
  | .lda o c => Sys2Proof.Machine.execLda o c s
  | .stl o c => Sys2Proof.Machine.execStl o c s
  | .fence o c => Sys2Proof.Machine.execFence o c s
  | .cinv o => Sys2Proof.Machine.execCinv o s
  | .cwb o => Sys2Proof.Machine.execCwb o s
  | .cpy o c => Sys2Proof.Machine.execCpy o c s
  | .cpyg o c => Sys2Proof.Machine.execCpyg o c s
  | .cpys o c => Sys2Proof.Machine.execCpys o c s
  | .cpyr o c => Sys2Proof.Machine.execCpyr o c s
  | .coll o c => Sys2Proof.Machine.execColl o c s
  | .tlrd o => Sys2Proof.Machine.execTlrd o s
  | .tlarm o c => Sys2Proof.Machine.execTlarm o c s
  | .mxw o c => Sys2Proof.Machine.execMxw o c s
  | .mxs o c => Sys2Proof.Machine.execMxs o c s
  | .mxd o c => Sys2Proof.Machine.execMxd o c s
  | .mxz o c => Sys2Proof.Machine.execMxz o c s
  | .bari o c => Sys2Proof.Machine.execBari o c s
  | .bara o c => Sys2Proof.Machine.execBara o c s
  | .barx o c => Sys2Proof.Machine.execBarx o c s
  | .barw o c => Sys2Proof.Machine.execBarw o c s
  | .bart o c => Sys2Proof.Machine.execBart o c s
  | .bard o c => Sys2Proof.Machine.execBard o c s
  | .crit o => Sys2Proof.Machine.execCrit o s
  | .uncrit o => Sys2Proof.Machine.execUncrit o s
  | .publish o c => Sys2Proof.Machine.execPublish o c s
  | .adopt o c => Sys2Proof.Machine.execAdopt o c s
  | .retract o c => Sys2Proof.Machine.execRetract o c s
  | .icinv o c => Sys2Proof.Machine.execIcinv o c s
  | .tryR o c => Sys2Proof.Machine.execTryR o c s
  | .commit o c => Sys2Proof.Machine.execCommit o c s
  | .abort o c => Sys2Proof.Machine.execAbort o c s
  | .tstat o => Sys2Proof.Machine.execTstat o s
  | .launch o => Sys2Proof.Machine.execLaunch o s
  | .tsub o => Sys2Proof.Machine.execTsub o s
  | .tdone o => Sys2Proof.Machine.execTdone o s
  | .spawn o => Sys2Proof.Machine.execSpawn o s
  | .erarm o => Sys2Proof.Machine.execErarm o s
  | .erpass o => Sys2Proof.Machine.execErpass o s
  | .trap o => Sys2Proof.Machine.execTrap o s
  | .rte o => Sys2Proof.Machine.execRte o s
  | .rdsr o => Sys2Proof.Machine.execRdsr o s
  | .wrsr o => Sys2Proof.Machine.execWrsr o s
  | .bkpt o => Sys2Proof.Machine.execBkpt o s
  | .sysc o => Sys2Proof.Machine.execSysc o s
  | .halt o => Sys2Proof.Machine.execHalt o s
  | .tlbi o c => Sys2Proof.Machine.execTlbi o c s
  | .ctxsw o => Sys2Proof.Machine.execCtxsw o s
  | .registerWrite wave num val => Sys2Proof.Machine.execRegisterWrite wave num val s
  | .dspszWrite die size => Sys2Proof.Machine.execDspszWrite die size s
  | .dspszChangeComplete die => Sys2Proof.Machine.execDspszChangeComplete die s
  | .ctxctlCreate ctx => Sys2Proof.Machine.execCtxctlCreate ctx s
  | .contextCreateComplete ctx => Sys2Proof.Machine.execContextCreateComplete ctx s
  | .ctxctlDestroy ctx => Sys2Proof.Machine.execCtxctlDestroy ctx s
  | .contextDestroyComplete ctx => Sys2Proof.Machine.execContextDestroyComplete ctx s
  | .fqresRetry ctx tag => Sys2Proof.Machine.execFqresRetry ctx tag s
  | .fqresFail ctx tag => Sys2Proof.Machine.execFqresFail ctx tag s
  | .lqtailWrite queue val => Sys2Proof.Machine.execLqtailWrite queue val s
  | .faultRecordWrite ctx => Sys2Proof.Machine.execFaultRecordWrite ctx s
  | .dispatcherTakeRecord queue => Sys2Proof.Machine.execDispatcherTakeRecord queue s
  | .pendingLaunchTake team => Sys2Proof.Machine.execPendingLaunchTake team s
  | .teamPlacement grid => Sys2Proof.Machine.execTeamPlacement grid s
  | .placementReserveTimeout grid => Sys2Proof.Machine.execPlacementReserveTimeout grid s
  | .taskLaunch die ctx => Sys2Proof.Machine.execTaskLaunch die ctx s
  | .erTaskPick die ctx gid => Sys2Proof.Machine.execErTaskPick die ctx gid s
  | .erTaskPass die ctx gid => Sys2Proof.Machine.execErTaskPass die ctx gid s
  | .teamRetire team => Sys2Proof.Machine.execTeamRetire team s
  | .swapOut team => Sys2Proof.Machine.execSwapOut team s
  | .preemption team => Sys2Proof.Machine.execPreemption team s
  | .teamRestore saved => Sys2Proof.Machine.execTeamRestore saved s
  | .forcedSwitch wave => Sys2Proof.Machine.execForcedSwitch wave s
  | .registerLineFill wave line victimWave victimLine => Sys2Proof.Machine.execRegisterLineFill wave line victimWave victimLine s
  | .blockedLaneWake wave lane => Sys2Proof.Machine.execBlockedLaneWake wave lane s
  | .sleepExpire wave lane => Sys2Proof.Machine.execSleepExpire wave lane s
  | .spawnTimerExpire core bin => Sys2Proof.Machine.execSpawnTimerExpire core bin s
  | .spawnBatchStart core bin => Sys2Proof.Machine.execSpawnBatchStart core bin s
  | .asyncFaultDelivery wave lane => Sys2Proof.Machine.execAsyncFaultDelivery wave lane s
  | .tryConflictAbort core space line => Sys2Proof.Machine.execTryConflictAbort core space line s
  | .tlbiComplete ctx scope core page => Sys2Proof.Machine.execTlbiComplete ctx scope core page s
  | .retractionComplete ctx region => Sys2Proof.Machine.execRetractionComplete ctx region s
  | .matrixCommandStart core => Sys2Proof.Machine.execMatrixCommandStart core s
  | .mxwLoad core => Sys2Proof.Machine.execMxwLoad core s
  | .mxsStream core => Sys2Proof.Machine.execMxsStream core s
  | .mxdDrain core => Sys2Proof.Machine.execMxdDrain core s
  | .mxzClear core => Sys2Proof.Machine.execMxzClear core s
  | .copySegmentLand core ctx pos => Sys2Proof.Machine.execCopySegmentLand core ctx pos s
  | .copyCommandComplete core engine => Sys2Proof.Machine.execCopyCommandComplete core engine s
  | .collComplete die => Sys2Proof.Machine.execCollComplete die s
  | .slotBoundary core => Sys2Proof.Machine.execSlotBoundary core s
  | .bwWindow die => Sys2Proof.Machine.execBwWindow die s
  | .watchdogExpire ctx => Sys2Proof.Machine.execWatchdogExpire ctx s
  | .critLimitExpire team => Sys2Proof.Machine.execCritLimitExpire team s
  | .thermalHot core celsius => Sys2Proof.Machine.execThermalHot core celsius s
  | .thermalMigrationTick core => Sys2Proof.Machine.execThermalMigrationTick core s
  | .thermalCool core celsius => Sys2Proof.Machine.execThermalCool core celsius s
  | .corePowerGate core => Sys2Proof.Machine.execCorePowerGate core s
  | .wakeMessage core => Sys2Proof.Machine.execWakeMessage core s
  | .powerCapStep watts => Sys2Proof.Machine.execPowerCapStep watts s
  | .counterSweep core ctx bank idx => Sys2Proof.Machine.execCounterSweep core ctx bank idx s
  | .sampleRecordWrite ctx times => Sys2Proof.Machine.execSampleRecordWrite ctx times s
  | .eccCorrected core => Sys2Proof.Machine.execEccCorrected core s
  | .uncorrectableError place => Sys2Proof.Machine.execUncorrectableError place s
  | .hostWindowAccess write num val => Sys2Proof.Machine.execHostWindowAccess write num val s
  | .fabstatHaltSet => Sys2Proof.Machine.execFabstatHaltSet s
  | .fabstatHaltClear => Sys2Proof.Machine.execFabstatHaltClear s
  | .peerAccess op addr len data => Sys2Proof.Machine.execPeerAccess op addr len data s
  | .launchWindowWrite window data => Sys2Proof.Machine.execLaunchWindowWrite window data s
  | .rdmaAtomic qp => Sys2Proof.Machine.execRdmaAtomic qp s
  | .rdmaWrite qp addr data => Sys2Proof.Machine.execRdmaWrite qp addr data s
  | .rdmaRead qp addr len => Sys2Proof.Machine.execRdmaRead qp addr len s
  | .sendMsg qp data => Sys2Proof.Machine.execSendMsg qp data s
  | .powerOnBoot failedLinks sigOk version measures set => Sys2Proof.Machine.execPowerOnBoot failedLinks sigOk version measures set s
  | .warmReset => Sys2Proof.Machine.execWarmReset s
  | .attestationRequest nonce => Sys2Proof.Machine.execAttestationRequest nonce s
  | .unassignedOpcode second => Sys2Proof.Machine.execUnassignedOpcode second s
  | .hostMemoryAccess write addr len data => Sys2Proof.Machine.execHostMemoryAccess write addr len data s
  | .fabricStatusUpdate module status => Sys2Proof.Machine.execFabricStatusUpdate module status s
  | .collectiveStep die tag from_ => Sys2Proof.Machine.execCollectiveStep die tag from_ s
  | .sidebandMailboxRequest req => Sys2Proof.Machine.execSidebandMailboxRequest req s
  | .priorityFlowControl port prio pause => Sys2Proof.Machine.execPriorityFlowControl port prio pause s
  | .dcqcnRateControl qp => Sys2Proof.Machine.execDcqcnRateControl qp s
  | .coreDump team => Sys2Proof.Machine.execCoreDump team s

end Sys2Proof.Machine
end

