-- ==== Sys2Proof/Machine/Issue.lean ====
section
/-! DEFINITION. Issue: the two picks of a clk, each fetched, decoded and executed (R37 to R42, R64, R137), and the turns of the
machine: what comes from outside, the second pick of a clk, or what the part does next of itself. -/
namespace Sys2Proof.Machine

/-! ## The end of a clk -/

/-- Retractions complete in the clk in which their last resident has left (R268, R271). -/
def State.completeRetractions (s : State) : State :=
  s.ctxs.foldl (fun s c => c.2.retracts.foldl (fun s r => s.completeRetraction c.1 r.1) s) s

/-- Joins and syncs that lanes were holding open complete once these are back (R47, R457). -/
def State.recheckAll (s : State) : State :=
  { s with waves := s.waves.mapAll fun _ w => if w.joins.isEmpty && w.sync.pending.isNone then w else w.recheckJoins }

/-- A clk passes: what completes in it completes, register lines fit their caches, the watchdogs start and stop (R236); the slots and the bandwidth
windows that begin with the next one begin (R304, R324). A wave that could not issue has not waited (R321). -/
def State.tick (s : State) : State :=
  let s := s.completeRetractions.recheckAll.trimAll.tickWatchdogs
  let now := s.clk + 1
  { s with clk := now
           cores := s.cores.mapAll fun _ x => x.enterSlot (now / 2048)
           dies := s.dies.mapAll fun _ x => x.enterWindow (now / s.us)
           waves := s.waves.mapAll fun k w => if s.issuing && s.ready k then w else { w with lastIssue := s.clk + 1 } }

/-- Change the state that a step answers. -/
def Answer.map (f : State → State) (a : Answer) : Answer :=
  match a with
  | .next s => .next (f s)
  | .fault r => .fault r
  | .refused r => .refused r

/-! ## One pick -/

/-- The lanes of a mask for which a late failure waits (R222). -/
def Wave.lateLanes (w : Wave) (m : BitVec 32) : BitVec 32 := m &&& w.which fun l => !l.late.isEmpty

/-- Name the executing group: the wave, the lanes, and their PC. -/
def State.select (s : State) (p : Pick) : State :=
  { s with cur := { s.cur with wave := p.wave, mask := p.mask, pc := s.groupPc p.wave p.mask, w0 := 0, w1 := 0,
                               len := 4, second := none } }

/-- Name the words that the executing group has fetched. -/
def State.withWords (s : State) (f : Fetched) : State := { s with cur := { s.cur with w0 := f.w0, w1 := f.w1, len := f.len } }

/-- Whether an instruction is a release, before which the accesses of its lanes are performed, and whether what its lanes have loaded early is
made again before it (R196, R198, R214, R458). LDA, atomics and barrier waits of order 1 do the latter after their effect, and what is not named
orders nothing. -/
def ordersOf (i : Instr) : Bool × Bool :=
  let ord := fun (c : Ctl) => (releases c, c.order == 3)
  match i with
  | .syncw _ c => if c.order = 0 then (false, false) else (true, true)
  | .lda _ c => ord c
  | .stl _ c => ord c
  | .atom _ c => ord c
  | .cas _ c => ord c
  | .red _ c => ord c
  | .fence _ c => (releases c, acquires c)
  | .cpy _ c => ord c
  | .cpyg _ c => ord c
  | .cpys _ c => ord c
  | .cpyr _ c => ord c
  | .coll _ c => ord c
  | .mxw _ c => ord c
  | .mxs _ c => ord c
  | .mxd _ c => ord c
  | .mxz _ c => ord c
  | .tlrd _ => (false, true)
  | .bara _ c => ord c
  | .barx _ c => ord c
  | .barw _ c => ord c
  | .bart _ c => ord c
  | .bard _ _ => (true, false)
  | .publish _ _ => (true, false)
  | .adopt _ _ => (false, true)
  | .icinv _ _ => (true, false)
  | .commit _ _ => (true, false)
  | .launch _ => (true, false)
  | .tsub _ => (true, false)
  | .tdone _ => (true, false)
  | .spawn _ => (true, false)
  | .erarm _ => (true, false)
  | .sysc _ => (true, true)
  | .halt _ => (true, false)
  | .ctxsw _ => (true, true)
  | _ => (false, false)

/-- The same where the state decides: an RDSR of FQHEAD is an acquire (R252, R432), a WRSR of FQRES or LQTAIL waits for the earlier accesses of
its lanes (R252, R308, R475). -/
def State.ordersNow (s : State) (i : Instr) : Bool × Bool :=
  match i with
  | .rdsr o => (false, s.srNumber o == 0x233)
  | .wrsr o => (s.srNumber o == 0x235 || s.srNumber o == 0x254, false)
  | i => ordersOf i

/-- What an instruction orders of its lanes' accesses, before its own effect: those that wait are performed, and loads made early are made
again (R198). -/
def State.orderAccesses (s : State) (i : Instr) : State :=
  let k := s.cur.wave
  let m := s.mask
  let o := s.ordersNow i
  let s := if o.1 then s.settleLanes k m else s
  if o.2 then s.forget k m else s

/-! ## Samples of global requests (R245) -/

/-- Whether a lane has completed its instruction, by the lane before and after. -/
def Lane.completed (before after : Lane) : Bool :=
  after.life == .ready && after.handler == before.handler && after.depth == before.depth && after.pc != before.pc

/-- The requests that an instruction has made, counted where SAMPCFG asks for samples; `before` is the state that it executed in. -/
def State.noteRequests (s before : State) (i : Instr) : State :=
  if (before.ctx before.ctxNo).sampcfg.extractLsb' 0 16 = 0 then s
  else
    let k := before.cur.wave
    (if scalarOf i then [lowest before.mask] else lanesOf before.mask).foldl (fun s l =>
      if ((before.wave k).lane l).completed ((s.wave k).lane l) then
        (before.requestsOf i l).foldl (fun s a =>
          s.countRequest before.coreNo before.ctxNo { pc := before.cur.pc, addr := a, loc := before.location k l }) s
      else s) s

/-! ## Fetch, decode, execute -/

/-- A fetch that fails stops every lane of its group (R137, R142). -/
def State.fetchFails (s : State) (e : Stop) : State :=
  let i : Instr := .unassignedOpcode false
  let s := match e with
    | .trap _ _ _ => s.countRun i
    | _ => s
  s.settleStops i ((lanesOf s.mask).map fun l => (l, e))

/-- An instruction holds a half of its slot's datapath: one that does so for a clk only has let it go when the next clk begins (R41). -/
def State.holdHalf (s : State) (core half : Nat) (i : Instr) : State :=
  if 1 < holdClk i then s.modCore core fun c => { c with halves := c.halves.put half (s.clk + holdClk i) } else s

/-- Whether a lane may wait for an instruction past it: for its completion (R32), or, of classes 5 to 7, for its result or its write-back
(R41, R370). HALT and CTXSW have waits of their own. -/
def waitsFor (i : Instr) : Bool :=
  match i with
  | .fence _ _ => true
  | .tlbi _ _ => true
  | .commit _ _ => true
  | .cas _ _ => true
  | .cwb _ => true
  | .cinv _ => true
  | .icinv _ _ => true
  | i => 5 ≤ classOf i && (Encoding.row i).any fun r => r.d == .dst

/-- The lanes that an instruction has gone past, by the state that it executed in, wait for its completion (R32; log entry 10). -/
def State.lingerOn (s before : State) (i : Instr) : State :=
  let k := before.cur.wave
  if waitsFor i then
    s.modLanes k before.mask fun l x =>
      if x.life == .ready && x.pc == before.nextPc && x.handler == ((before.wave k).lane l).handler then { x with life := .blocked .completion } else x
  else s

/-- Fetch, decode and execute a group that no late failure holds back, in a half of its slot's datapath. -/
def State.execGroup (s : State) (half : Nat) (p : Pick) : Answer :=
  let key := halfOf (s.wave p.wave).islot half
  let core := s.coreOf p.wave
  match (s.select p).fetch p.wave p.mask with
  | (t, .error e) => .next (t.fetchFails e)
  | (t, .ok f) =>
    let t := (t.withWords f).orderAccesses f.instr
    Answer.map (fun u =>
      let u := (u.noteRequests t f.instr).holdHalf core key f.instr
      if s.cur.linger then u.lingerOn t f.instr else u) (exec f.instr t)

/-- Issue one pick: late failures are delivered to their lanes, and the others execute (R222). -/
def State.execPick (s : State) (half : Nat) (p : Pick) : Answer :=
  let late := s.thawed ((s.wave p.wave).lateLanes p.mask)
  if late = 0 then s.execGroup half p
  else
    let s := s.deliverLate p.wave p.mask late (s.groupPc p.wave p.mask)
    let rest := p.mask &&& ~~~ late
    if rest = 0 || !s.residentWave p.wave then .next s else s.execGroup half { p with mask := rest }

/-! ## The picks of a clk -/

/-- The clk of a wave's issue begins: no results yet, and both picks read the wave as it stands (R42). `lazy` leaves their stores to be performed
later (R198), and `cur.linger` lets their lanes wait for the completion of what they execute (R32). -/
def State.openClk (s : State) (k : Nat) (lazy : Bool) (first second : Option (BitVec 32)) : State :=
  let s := s.ageLanes k (first.getD 0 ||| second.getD 0)
  let s := s.modWave k fun w => { w with lastIssue := s.clk }
  { s with cur := { Cur.none with wave := k, pre := some (s.wave k), lazy := lazy, linger := s.cur.linger, second := second.map fun m => { wave := k, mask := m } } }

/-- The lanes of the first pick of a wave find an operand that is not there yet: they wait at their instruction, which then executes afresh
(R32, R232; log entry 10). -/
def State.waitOperand (s : State) (k : Nat) : State :=
  let s := s.abortConflicts k
  match s.firstPick k with
  | none => s.tick
  | some m => ((s.ageLanes k m).block k m .operand).tick

/-- The first pick of a wave's issue cycle; where there is a second, the clk goes on with it. While one half of the slot's datapath
is held, only the other issues, a single pick (R41). -/
def State.issue (s : State) (k : Nat) (lazy : Bool) : Answer :=
  let s := s.abortConflicts k
  match s.firstPick k with
  | none => .next s.tick
  | some m =>
    let free := s.freeHalves k
    let second := if free.length = 2 then s.secondPick k m else none
    Answer.map (fun t => match second with
      | none => t.tick
      | some g => { t with cur := { t.cur with second := some { wave := k, mask := g } } })
      ((s.openClk k lazy (some m) second).execPick (free.headD 0) { wave := k, mask := m })

/-- Lanes of the second pick that the first has not aborted. A restricted instruction is not discarded in part, so it does not
issue for a lane that has been aborted (R281). -/
def State.secondMask (s : State) (p : Pick) : BitVec 32 :=
  if s.restricted p.wave p.mask then p.mask &&& ~~~ s.cur.frozenLanes else p.mask

/-- The second pick, in the second half. The run that a switch point of this pick begins counts the first pick's instruction, where that was none
itself (R77). -/
def State.issueSecond (s : State) (p : Pick) : Answer :=
  let m := s.secondMask p
  let s := { s with cur := { s.cur with second := none } }
  if m = 0 || !s.residentWave p.wave then .next s.tick
  else
    let first := s.cur.counted && !s.cur.keepLatches
    Answer.map (fun t =>
      (if first && t.cur.keepLatches then t.modWave p.wave fun w => { w with run := 1 } else t).tick)
      (s.execPick 1 { p with mask := m })

/-! ## Turns -/

/-- Whether a constructor stands for a step of the part, with arguments that the part has. -/
def isStep (i : Instr) : Bool := (encode i).isEmpty && i.eventOk

/-- Whether a boot that failed holds the module in reset (R12, R342). -/
def Boot.failed : Boot → Bool
  | .linkFailure => true
  | .signatureFailure => true
  | _ => false

/-- What a module acts on that a failed boot holds in reset: a new power-on, and its mailbox (R12, R342). -/
def Input.reaches (boot : Boot) (x : Input) : Bool :=
  match x with
  | .event (.powerOnBoot _ _ _ _ _) => true
  | .event (.sidebandMailboxRequest _) => true
  | _ => !boot.failed

/-- What follows from a choice of the environment that reaches the module: a step, an issue of a wave that its slot chooses, an access
performed early or late (R198), an engine's read ahead (R302), or the loss of a cached line. Anything else changes nothing. -/
def State.accept (s : State) (x : Input) : Answer :=
  match x with
  | .event i => if isStep i then exec i s else .next s
  | .issue k => if s.issues.contains k then s.issue k false else .next s
  | .issueLate k => if s.issues.contains k then s.issue k true else .next s
  | .issueLong k => if s.issues.contains k then ({ s with cur := { s.cur with linger := true } } : State).issue k false else .next s
  | .issueWait k => .next (if s.issues.contains k then s.waitOperand k else s)
  | .perform k n => .next (s.perform k n)
  | .loadEarly k l place n bypass => .next (if s.residentWave k then s.loadEarly k l place n bypass else s)
  | .engineRead core place => .next (s.engineRead core place)
  | .l1Evict core line => .next (s.l1Evict core line)
  | .icEvict core line => .next (s.modCore core fun c => { c with icache := c.icache.filter fun x => x.line != line })
  | .icRenew core n word => .next (s.icRenew core n word)
  | .tlbEvict core => .next (s.modCore core fun c => { c with tlb := [] })

/-- Take what comes from outside. -/
def State.take (s : State) (x : Input) : Answer := if x.reaches s.mod.boot then s.accept x else .next s

/-- A move of the part's own takes a clk. -/
def State.makeMove (s : State) (x : Input) : Answer :=
  match x with
  | .issue k => s.issue k false
  | x => Answer.map State.tick (s.take x)

/-- The part moves: a free choice where there are several moves, and an idle clk where there is none. -/
def State.moveOn (s : State) : Answer :=
  match s.moves with
  | [] => .next s.tick
  | [x] => s.makeMove x
  | x :: xs =>
    let r := s.fresh
    r.2.makeMove ((x :: xs).getD (Config.freeChoice r.1 % (xs.length + 1)) x)

/-- One turn: the second pick of a clk that has begun, else the next input, else a move of the part. -/
def State.turn (s : State) : Answer :=
  match s.cur.second with
  | some p => s.issueSecond p
  | none =>
    let s := { s with cur := Cur.none }
    match s.inputs with
    | x :: xs => State.take { s with inputs := xs } x
    | [] => if s.mod.boot.failed then .fault .moduleInReset else s.moveOn

/-! ## A word placed for the next fetch -/

/-- Where `withFetchWord` places words: a virtual address of context 0 and the physical address it is given. -/
def loadVa : Nat := 0x4000_0000
def loadPa : Nat := 0x4000_0000

/-- The translation that the loading core holds for the page of the placed words. -/
def loadEntry : TlbEntry :=
  { ctx := 0, va := loadVa, pa := loadPa, size := 4096, usr := true, ex := true, wr := false, rd := true, mig := false }

/-- The core that the placed words run on: the first that has no wave. -/
def State.loadCore (s : State) : Nat := ((List.range Config.cores).find? fun c => !s.waves.any fun p => s.coreOf p.1 == c).getD 0

/-- Place two words at the start of a fresh wave of context 0 on a core of a running module that has no other, and let that wave issue next:
a team of one wave with 512 vector and 256 scalar registers (log entry 3). -/
def State.loadWords (s : State) (w0 w1 : Word) : State :=
  let t := s.nextTeam
  let core := s.loadCore
  let x : Team := { Team.gone with core := core, vcount := 512, scount := 256, nWaves := 1, alloc := 65536, spillSize := 65536 }
  let s := { s with
    mem := Memory.writeBytes s.mem loadPa (Decode.bytesOf w0 ++ Decode.bytesOf w1)
    poison := s.poison.filter fun p => p / 2 != loadPa / 8
    teams := s.teams.put t x
    nextTeam := t + 1
    mod := { s.mod with boot := .running, haltedAt := none }
    inputs := .issue (t * 64) :: s.inputs
    cur := Cur.none }
  let s := s.modCore core fun c =>
    { c with tlb := loadEntry :: c.tlb, icache := c.icache.filter fun l => !(l.ctx == 0 && l.line == loadVa / 128)
             l1 := c.l1.del (loadPa / 128), halves := [] }
  s.startWave t 0 (BitVec.ofNat 64 loadVa) (List.replicate 32 0) [] false

end Sys2Proof.Machine
end

