-- ==== Sys2Proof/Safety.lean ====
section
/-! DEFINITION. The terms in which claims about the machine are stated: the executing group's premises, what stays as it was, what a
result is, and the invariant that every step keeps. -/
namespace Sys2Proof.Machine

/-! ## The invariant -/

/-- What holds in every state that is reached: memory is in its canonical form (addresses rising, nothing listed that an unlisted
address reads as), the power cap lies in its range (R345), and the module number has 10 bits (R332). -/
def State.inv (s : State) : Bool :=
  Memory.wf s.mem && decide (600 ≤ s.mod.pwrcap.toNat) && decide (s.mod.pwrcap.toNat ≤ 2500) && decide (s.mod.modnum.toNat < 1024)

/-! ## The executing group -/

/-- The lanes that an instruction acts in: the group's, or one act for the wave (R139). -/
def State.acts (s : State) (o : Ops) : List Nat := if o.s then [0] else lanesOf s.mask

/-- The executing group is one of Ready lanes of a resident team, which are there, and the clk has frozen nothing (R36, R42). -/
structure State.Group (s : State) : Prop where
  home : s.tm.away = false
  wave : (s.waves.find? s.cur.wave).isSome
  lanes : ∀ l, s.mask.getLsbD l → (s.w.lanes.find? l).isSome
  ready : ∀ l, s.mask.getLsbD l → (s.w.lane l).life = .ready
  some : s.mask ≠ 0
  frozen : s.cur.frozen = []
  frozenLanes : s.cur.frozenLanes = 0
  frozenLines : s.cur.frozenLines = []

/-- The lines that an instruction would shadow fit: in the register cache, with the lines they are copies of, and among the shadow lines
that a wave may hold (R274). -/
def State.shadowsFit (s : State) (lines : List Nat) : Prop :=
  s.shadowBytes s.coreNo + (lines.map fun l => 2 * lineBytes l).sum ≤ cacheBytes ∧ s.w.shadow.length + lines.length ≤ maxShadows

/-- The checks of R137 pass for an instruction in the executing group, and nothing delays it: it is not privileged or its context is 0
(R129), its operand codes are legal (R138), it reads no stale latch where those trap (R79), it is allowed in the region of any member
(R279) and by FEATMASK (R257), its register lines are present (R68) and its shadow lines have room (R274). -/
structure State.Clear (s : State) (i : Instr) (sp : Spans) : Prop extends s.Group where
  privileged : isPrivileged i = true → s.ctxNo = 0
  legal : s.illegalUse i (usesOf i sp) = none
  latches : s.staleUse i (usesOf i sp) = none ∨ wstatLtrap s.pre.wstat = false
  region : isForbidden i = true → s.members = 0
  feature : ∀ b, featureOf i = Option.some b → (s.ctx s.ctxNo).featmask.getLsbD b = true
  present : ∀ x ∈ linesUsed s.pre (scalarOf i) (nwOf i) (usesOf i sp), s.w.absent.contains x = false
  shadow : s.members = 0 ∨ s.newShadows i (usesOf i sp) (scalarOf i) (nwOf i) = [] ∨
    s.shadowsFit (s.newShadows i (usesOf i sp) (scalarOf i) (nwOf i))

/-- No access that the executing wave has made is early or late: no store of it waits, and no lane has loaded anything before its turn
(R198). -/
structure State.Orderly (s : State) : Prop where
  stores : s.w.stores = []
  early : ∀ l, (s.w.lane l).early = []

/-- Nor does this pick leave a store to be performed later. -/
structure State.Direct (s : State) : Prop extends s.Orderly where
  now : s.cur.lazy = false

/-- The lanes of the group can take a trap: none is a member of a try region or in a handler, and the wave has a handler (R220, R221,
R280). -/
def State.CanTrap (s : State) : Prop :=
  s.w.trapvec ≠ 0 ∧ ∀ l, s.mask.getLsbD l = true → (s.w.lane l).depth = 0 ∧ (s.w.lane l).handler = false

/-! ## What stays as it was -/

/-- Everything but the executing wave, and the record of the clk, is as it was. -/
def State.Elsewhere (s t : State) : Prop :=
  { t with waves := s.waves, cur := s.cur } = s ∧ ∀ k, k ≠ s.cur.wave → t.waves.find? k = s.waves.find? k

/-- Everything of the state but the waves and the record of the clk is as it was. -/
def State.Outside (s t : State) : Prop := { t with waves := s.waves, cur := s.cur } = s

/-- Everything of a wave but its lanes, its scalar registers and latches, its run, the lines noted as shadowed, used or written, FCSR and
WSTAT is as it was. -/
def Wave.Kept (w w' : Wave) : Prop :=
  { w' with lanes := w.lanes, s := w.s, slatch := w.slatch, run := w.run, shadow := w.shadow, dirty := w.dirty, used := w.used,
            fcsr := w.fcsr, wstat := w.wstat } = w

/-- Everything of a lane but its PC, its life, its registers and its latches is as it was. -/
def Lane.Kept (x x' : Lane) : Prop := { x' with pc := x.pc, life := x.life, v := x.v, latch := x.latch } = x

/-! ## Results -/

/-- Whether result register r of n from code d on in a window at `base` is written, and the word it takes. -/
def inSpan (base : Nat) (d : Code) (n r : Nat) : Bool := decide (base + d.toNat ≤ r) && decide (r < base + d.toNat + n)

/-- The flag LSTALE as an instruction leaves it (R79). -/
def State.staleAfter (s : State) (i : Instr) (sp : Spans) : Word :=
  if (s.staleUse i (usesOf i sp)).isSome then s.w.wstat ||| 1 else s.w.wstat

/-- The latches of a lane once an instruction has run: cleared by a switch point, which shifts nothing in, else with the result as b0
(R75, R77); `keep` is what this clk's other pick shifted in before. -/
def latchesAfter (old : List (Option DWord)) (switch keep : Bool) (result : Option Nat) : List (Option DWord) :=
  if switch then (if keep then old.take 1 else [])
  else match result with
    | some v => shiftLatch old (BitVec.ofNat 64 v)
    | none => old

/-- An instruction that reads registers and writes one result of n registers leaves the machine so: `val` is the value in each act, `fl`
the flags raised. The group has gone on past the instruction. Only the result's registers, the latches, the PCs and the flags change. -/
structure State.Result (s t : State) (i : Instr) (o : Ops) (sp : Spans) (val : Nat → Nat) (fl : Flags) : Prop where
  elsewhere : s.Elsewhere t
  kept : s.w.Kept t.w
  lanes : ∀ l, (s.w.lane l).Kept (t.w.lane l)
  regs : ∀ l r, (t.w.lane l).reg r =
    if !o.s && s.mask.getLsbD l && !nwOf i && inSpan s.pre.vb o.d sp.d r then wordAt (val l) (r - (s.pre.vb + o.d.toNat))
    else (s.w.lane l).reg r
  sregs : ∀ m, t.w.sreg m =
    if o.s && !nwOf i && inSpan s.pre.sb o.d sp.d m then wordAt (val 0) (m - (s.pre.sb + o.d.toNat)) else s.w.sreg m
  next : ∀ l, s.mask.getLsbD l → (t.w.lane l).pc = s.nextPc ∧ (t.w.lane l).life = .ready
  others : ∀ l, s.mask.getLsbD l = false → (t.w.lane l).pc = (s.w.lane l).pc ∧ (t.w.lane l).life = (s.w.lane l).life
  latch : isSwitch i = false → ∀ l, (t.w.lane l).latch =
    latchesAfter (s.w.lane l).latch false false (if !o.s && s.mask.getLsbD l then some (val l) else none)
  slatch : isSwitch i = false → t.w.slatch = latchesAfter s.w.slatch false false (if o.s then some (val 0) else none)
  fcsr : t.w.fcsr = s.w.fcsr ||| fl.zeroExtend 32
  wstat : t.w.wstat = s.staleAfter i sp

/-- The flags that an instruction raises: those of all its acts (R155). -/
def flagsOf (ls : List Nat) (f : Nat → FRes) : Flags := ls.foldl (fun a l => a ||| (f l).flags) 0

/-- An instruction answers the result `f` in each act, wherever its checks pass and no act raises a flag that FCSR enables. -/
def Computes (i : Instr) (o : Ops) (sp : Spans) (f : State → Nat → FRes) : Prop :=
  ∀ s : State, s.Clear i sp → (∀ l ∈ s.acts o, (f s l).flags &&& fcsrEn s.pre.fcsr = 0) →
    ∃ t, exec i s = .next t ∧ s.Result t i o sp (fun l => (f s l).bits) (flagsOf (s.acts o) (f s))

/-- Where some acts of an instruction raise a flag that FCSR enables and its lanes can trap, the lanes of those acts, in a scalar instruction every
lane of the group, take FLOAT and write nothing; the others complete, and the flags of all acts are raised (R142, R155). -/
def FlagsTrap (i : Instr) (o : Ops) (sp : Spans) (f : State → Nat → FRes) : Prop :=
  ∀ s : State, s.Clear i sp → s.CanTrap →
    let r := fun l => f s (if o.s then 0 else l)
    let hit := fun l => (r l).flags &&& fcsrEn s.pre.fcsr
    (∃ l, s.mask.getLsbD l = true ∧ hit l ≠ 0) →
    ∃ t, exec i s = .next t ∧ s.Outside t ∧ (∀ k, k ≠ s.cur.wave → t.waves.find? k = s.waves.find? k) ∧
      (∀ l, s.mask.getLsbD l = true → hit l ≠ 0 →
        (t.w.lane l).pc = s.w.trapvec ∧ (t.w.lane l).handler = true ∧ (t.w.lane l).life = .ready ∧ (t.w.lane l).tcause = 0x17 ∧
        (t.w.lane l).tinfo = (hit l).zeroExtend 32 ∧ (t.w.lane l).taddr = 0 ∧ (t.w.lane l).tpc = s.cur.pc ∧
        ∀ x, (t.w.lane l).reg x = (s.w.lane l).reg x) ∧
      (∀ l, s.mask.getLsbD l = true → hit l = 0 → (t.w.lane l).pc = s.nextPc ∧ (t.w.lane l).life = .ready ∧ (t.w.lane l).handler = false ∧
        ∀ x, (t.w.lane l).reg x =
          if nwOf i = false ∧ inSpan s.pre.vb o.d sp.d x then wordAt (r l).bits (x - (s.pre.vb + o.d.toNat))
          else (s.w.lane l).reg x) ∧
      (∀ l, s.mask.getLsbD l = false → (t.w.lane l).reg = (s.w.lane l).reg ∧ (t.w.lane l).pc = (s.w.lane l).pc ∧
        (t.w.lane l).life = (s.w.lane l).life) ∧
      (∀ m, t.w.sreg m = s.w.sreg m) ∧ t.w.fcsr = s.w.fcsr ||| (flagsOf (s.acts o) (f s)).zeroExtend 32

/-! ## What rounding means (R149, R152 to R154, R157) -/

/-- The rational number that a finite value is; 0 for the others. -/
def XV.rat : XV → ℚ
  | .fin neg m e => (if neg then -1 else 1) * m * 2 ^ e
  | _ => 0

/-- A finite value. -/
def XV.isFinite : XV → Bool
  | .zero _ => true
  | .fin _ _ _ => true
  | _ => false

/-- Codes that stand for a finite value. -/
def Fmt.finite (f : Fmt) (c : Nat) : Bool := decide (c < 2 ^ f.width) && (decodeF f c).isFinite

/-- The number that a finite code stands for. -/
def Fmt.rat (f : Fmt) (c : Nat) : ℚ := (decodeF f c).rat

/-- An exact real result, by the numbers that lie below it and above it. -/
structure Exact where
  above : ℚ → Bool
  below : ℚ → Bool

/-- A rational number, and the square root of one, as exact results: whether the result is above q, and below q. -/
def Exact.rat (y : ℚ) : Exact := { above := fun q => decide (q < y), below := fun q => decide (y < q) }
def Exact.sqrt (x : ℚ) : Exact :=
  { above := fun q => decide (q < 0) || decide (q * q < x), below := fun q => decide (0 ≤ q) && decide (x < q * q) }

/-- The largest finite value, the distance of representable values there, and the smallest normal value. -/
def Fmt.top (f : Fmt) : ℚ := f.maxM * 2 ^ f.maxE
def Fmt.topUlp (f : Fmt) : ℚ := 2 ^ (f.maxE + (Nat.log2 f.maxM : Int) - f.mb)
def Fmt.least (f : Fmt) : ℚ := 2 ^ f.emin

/-- Whether a mode rounds a result of a sign away from zero, where the mode is directed. -/
def roundsAway (mode : Nat) (neg : Bool) : Bool := (mode == 2 && neg) || (mode == 3 && !neg)

/-- Whether the result's magnitude, of the sign `neg`, exceeds q, or reaches it. -/
def Exact.beyond (y : Exact) (neg : Bool) (q : ℚ) : Bool := if neg then y.below (-q) else y.above q
def Exact.reaches (y : Exact) (neg : Bool) (q : ℚ) : Bool := if neg then !y.above (-q) else !y.below q

/-- Overflow (R153): rounded with unbounded exponent the result exceeds the largest finite value. To nearest it does so from half a step
above that value on, and in a tie where the value is odd or ties go away from zero. -/
def Fmt.overflows (f : Fmt) (mode : Nat) (y : Exact) (neg : Bool) : Bool :=
  match mode with
  | 0 => if (maxCode f false) % 2 = 1 then y.reaches neg (f.top + f.topUlp / 2) else y.beyond neg (f.top + f.topUlp / 2)
  | 4 => y.reaches neg (f.top + f.topUlp / 2)
  | m => if roundsAway m neg then y.beyond neg f.top else y.reaches neg (f.top + f.topUlp)

/-- Tininess (R153): rounded with unbounded exponent the result is nonzero and below the smallest normal value. -/
def Fmt.tiny (f : Fmt) (mode : Nat) (y : Exact) (neg : Bool) : Bool :=
  y.beyond neg 0 &&
    (match mode with
     | 0 => !y.reaches neg (f.least - 2 ^ (f.emin - f.mb - 2))
     | 4 => !y.reaches neg (f.least - 2 ^ (f.emin - f.mb - 2))
     | m => if roundsAway m neg then !y.beyond neg (f.least - 2 ^ (f.emin - f.mb - 1)) else !y.reaches neg f.least)

/-- A finite code is what a mode rounds to, among the finite codes (R152): to nearest no other is closer, and of two as close the one with
an even lowest bit, or the one of larger magnitude, is taken; directed, none lies between it and the result on the mode's side. -/
def Fmt.Nearest (f : Fmt) (mode : Nat) (y : Exact) (neg : Bool) (c : Nat) : Prop :=
  f.finite c = true ∧
  (mode = 0 ∨ mode = 4 → ∀ d, f.finite d = true →
    (f.rat c < f.rat d → y.above ((f.rat c + f.rat d) / 2) = false ∧
      (y.below ((f.rat c + f.rat d) / 2) = false → if mode = 0 then c % 2 = 0 else neg = true)) ∧
    (f.rat d < f.rat c → y.below ((f.rat c + f.rat d) / 2) = false ∧
      (y.above ((f.rat c + f.rat d) / 2) = false → if mode = 0 then c % 2 = 0 else neg = false))) ∧
  ((mode = 2 ∨ mode = 1 ∧ neg = false) → y.below (f.rat c) = false ∧
    ∀ d, f.finite d = true → y.below (f.rat d) = false → f.rat d ≤ f.rat c) ∧
  ((mode = 3 ∨ mode = 1 ∧ neg = true) → y.above (f.rat c) = false ∧
    ∀ d, f.finite d = true → y.above (f.rat d) = false → f.rat c ≤ f.rat d)

/-- The code that an overflow delivers (R153, R157). -/
def Fmt.overflowCode (f : Fmt) (mode : Nat) (sat neg : Bool) : Nat :=
  if sat || f == Fmt.e2m1 then maxCode f neg
  else if f = Fmt.e4m3 then signBit f neg + f.nan
  else if mode = 1 ∨ (mode = 2 ∧ neg = false) ∨ (mode = 3 ∧ neg = true) then maxCode f neg
  else infCode f neg

/-- `r` is the rounded form of an exact result that is not zero, of sign `neg` (R152 to R154, R157): the code, and the flags
overflow, underflow and inexact; neither invalid nor divide by zero. -/
structure Rounded (f : Fmt) (mode : Nat) (ftz sat : Bool) (y : Exact) (neg : Bool) (r : FRes) : Prop where
  big : f.overflows mode y neg = true → r = ⟨f.overflowCode mode sat neg, fOverflow ||| fInexact⟩
  fits : f.overflows mode y neg = false → ∃ c, f.Nearest mode y neg c ∧ (decodeF f c).sign = (neg && !(f == Fmt.e2m1 && f.rat c == 0)) ∧
    if ftz = true ∧ f.rat c ≠ 0 ∧ |f.rat c| < f.least then r = ⟨signBit f neg, fUnderflow ||| fInexact⟩
    else r = ⟨c, flagIf (f.tiny mode y neg && (y.above (f.rat c) || y.below (f.rat c))) fUnderflow |||
                 flagIf (y.above (f.rat c) || y.below (f.rat c)) fInexact⟩

/-- An integer is what a mode rounds a rational number to (R152, R158). -/
def IntRounds (mode : Nat) (q : ℚ) (n : ℤ) : Prop :=
  match mode with
  | 0 => |q - n| ≤ 1 / 2 ∧ (|q - n| = 1 / 2 → n % 2 = 0)
  | 1 => |(n : ℚ)| ≤ |q| ∧ |q| - |(n : ℚ)| < 1 ∧ 0 ≤ q * n
  | 2 => (n : ℚ) ≤ q ∧ q < n + 1
  | 3 => q ≤ n ∧ (n : ℚ) - 1 < q
  | _ => |q - n| ≤ 1 / 2 ∧ (|q - n| = 1 / 2 → |q| < |(n : ℚ)|)

/-- A rounded rational result: a zero has the sign `z` and raises nothing. -/
def RoundedTo (f : Fmt) (mode : Nat) (ftz sat : Bool) (y : ℚ) (z : Bool) (r : FRes) : Prop :=
  (y ≠ 0 → Rounded f mode ftz sat (.rat y) (decide (y < 0)) r) ∧
  (y = 0 → r = ⟨if f = Fmt.e2m1 then 0 else signBit f z, 0⟩)

/-- One add into an accumulator element, rounded to nearest even in f32 (R164). -/
def AddsTo (x : Nat) (q : ℚ) (y : Nat) : Prop :=
  Fmt.f32.finite x = true → ∃ z r, RoundedTo Fmt.f32 0 false false (Fmt.f32.rat x + q) z r ∧ y = r.bits

/-- An accumulator element over a row of k activations, all finite (R164, R165): in ascending order each group of 16 products, in whose exact
sum an escape counts as zero, is rounded once and added, and then the corrections of its escapes are, in ascending k. -/
def Accumulated (w : Nat → ℚ) (esc : Nat → Option ℚ) (a : Nat → ℚ) (k old new : Nat) : Prop :=
  ∃ (acc : Nat → Nat → Nat) (group : Nat → Nat), acc 0 0 = old ∧ acc (k / 16) 0 = new ∧ ∀ g, g < k / 16 →
    (∃ z r, RoundedTo Fmt.f32 0 false false
      ((List.range 16).map fun j => if (esc (16 * g + j)).isSome then 0 else w (16 * g + j) * a (16 * g + j)).sum z r ∧ group g = r.bits) ∧
    (Fmt.f32.finite (group g) = true → AddsTo (acc g 0) (Fmt.f32.rat (group g)) (acc g 1)) ∧
    (∀ j, j < 16 → match esc (16 * g + j) with
      | none => acc g (j + 2) = acc g (j + 1)
      | some e => AddsTo (acc g (j + 1)) (e * a (16 * g + j)) (acc g (j + 2))) ∧
    acc (g + 1) 0 = acc g 17

/-- Order on values that are no NaN, with infinities at the ends. -/
def XV.less (x y : XV) : Bool :=
  match x, y with
  | .inf a, .inf b => a && !b
  | .inf a, _ => a
  | _, .inf b => !b
  | x, y => decide (x.rat < y.rat)

/-- A value as quantisation reads it, ±∞ as the largest f32 magnitude, and the greatest magnitude of a list (R161). -/
def XV.near : XV → ℚ
  | .inf neg => if neg then -Fmt.f32.top else Fmt.f32.top
  | x => x.rat
def greatest (xs : List XV) : ℚ := xs.foldl (fun a x => max a |x.near|) 0

/-- The scale exponent of a block whose greatest magnitude is a (R161). -/
def ScaleExp (emax : ℤ) (a : ℚ) (e : ℤ) : Prop :=
  (a = 0 → e = -127) ∧ (a ≠ 0 → ∃ l : ℤ, (2 : ℚ) ^ l ≤ a ∧ a < 2 ^ (l + 1) ∧ e = max (-127) (min 127 (l - emax)))

/-- An integer type's value as a register holds it: s8 and s16 sign-extended, n8 and n16 zero-extended (R381). -/
def intReg (t : Nat) (i : Int) : Nat :=
  if intWidth t = 64 then (BitVec.ofInt 64 i).toNat
  else if intSigned t then ((BitVec.ofInt (intWidth t) i).signExtend 32).toNat
  else (BitVec.ofInt (intWidth t) i).toNat

/-! ## Results of the families -/

/-- The exact value of a field's operand, read as a type T of class 0 (R121). -/
def State.int (s : State) (t : BitVec 2) (o : Ops) (l : Nat) (f : Fld) : Int := intOf (typeOf t) (reader s.pre o l (tyOf t) f).toNat

/-- The width of T. -/
def intN (t : BitVec 2) : Nat := if t.toNat < 2 then 32 else 64

/-- The spans of an instruction of class 0. -/
def intSpans (t : BitVec 2) : Spans := { d := (tyOf t).regs, a := (tyOf t).regs, b := (tyOf t).regs }

/-- An instruction of class 0 writes bits [N-1:0] of an exact function of A, B and D's old value. -/
def ComputesInt (mk : BitVec 2 → Ops → Instr) (f : BitVec 2 → Int → Int → Int → Int) : Prop :=
  ∀ t o, Computes (mk t o) o (intSpans t) fun s l =>
    ⟨(BitVec.ofInt (intN t) (f t (s.int t o l .a) (s.int t o l .b) (s.int t o l .d))).toNat, 0⟩

/-- A field's operand as N bits. -/
def State.bitv (s : State) (w : Bool) (o : Ops) (l : Nat) (f : Fld) : BitVec (bitsN w) :=
  BitVec.ofNat (bitsN w) (reader s.pre o l (tyB w) f).toNat

/-- B as a 32-bit operand. -/
def State.word (s : State) (o : Ops) (l : Nat) (f : Fld) : Word := lo32 (reader s.pre o l .w f)

/-- The spans of an instruction of class 1 whose operands have N bits, and of one whose B has 32. -/
def bitSpans (w : Bool) : Spans := { d := (tyB w).regs, a := (tyB w).regs, b := (tyB w).regs }
def fieldSpans (w : Bool) : Spans := { d := (tyB w).regs, a := (tyB w).regs, b := 1 }

/-- An instruction of class 1 writes a function of A, B and D's old value as N bits. -/
def ComputesBits (mk : Bool → Ops → Instr) (f : (w : Bool) → BitVec (bitsN w) → BitVec (bitsN w) → BitVec (bitsN w) → BitVec (bitsN w)) : Prop :=
  ∀ w o, Computes (mk w o) o (bitSpans w) fun s l => ⟨(f w (s.bitv w o l .a) (s.bitv w o l .b) (s.bitv w o l .d)).toNat, 0⟩

/-- An instruction of class 1 writes a function of A as N bits and of B as 32 bits. -/
def ComputesField (mk : Bool → Ops → Instr) (f : (w : Bool) → BitVec (bitsN w) → Word → BitVec (bitsN w)) : Prop :=
  ∀ w o, Computes (mk w o) o (fieldSpans w) fun s l => ⟨(f w (s.bitv w o l .a) (s.word o l .b)).toNat, 0⟩

/-- How a comparison reads its operands: a literal of the .b64 form is extended as s64, or as n64 (R373). -/
def cmpTy (w signed : Bool) : Ty := if w then (if signed then .s else .n) else .w

/-- A comparison writes all ones or zero in one register. -/
def ComputesTruth (mk : Bool → Ops → Instr) (signed : Bool) (f : (w : Bool) → BitVec (bitsN w) → BitVec (bitsN w) → Bool) : Prop :=
  ∀ w o, Computes (mk w o) o { d := 1, a := (cmpTy w signed).regs, b := (cmpTy w signed).regs } fun s l =>
    ⟨if f w (BitVec.ofNat _ (reader s.pre o l (cmpTy w signed) .a).toNat) (BitVec.ofNat _ (reader s.pre o l (cmpTy w signed) .b).toNat)
      then 0xFFFFFFFF else 0, 0⟩

/-- The spans of a class 2 instruction. -/
def floatSpans (f : BitVec 2) : Spans := { d := (tyF f).regs, a := (tyF f).regs, b := (tyF f).regs }

/-- `op` of the operands of an act, of each element of a packed pair on its own. -/
def State.floatOf (op : FEnv → Fmt → Nat → Nat → Nat → FRes) (f : BitVec 2) (o : Ops) (s : State) (l : Nat) : FRes :=
  perElement (2 ≤ f.toNat) (op (arithEnv s.pre.fcsr) (fmtOf f)) (reader s.pre o l (tyF f) .a).toNat (reader s.pre o l (tyF f) .b).toNat
    (reader s.pre o l (tyF f) .d).toNat

/-- An instruction of class 2 writes `op` of its operands, and traps where that raises an enabled flag. -/
def ComputesFloat (mk : BitVec 2 → Ops → Instr) (op : FEnv → Fmt → Nat → Nat → Nat → FRes) : Prop :=
  ∀ f o, Computes (mk f o) o (floatSpans f) (State.floatOf op f o)
def TrapsFloat (mk : BitVec 2 → Ops → Instr) (op : FEnv → Fmt → Nat → Nat → Nat → FRes) : Prop :=
  ∀ f o, FlagsTrap (mk f o) o (floatSpans f) (State.floatOf op f o)

/-- A lane-crossing instruction of class 4 writes, in each lane l of the group m, a function of A and B of every lane. -/
def ComputesLanes (mk : Ops → Instr) (f : (Nat → Word) → (Nat → Word) → BitVec 32 → Nat → Word) : Prop :=
  ∀ o, o.s = false → Computes (mk o) o { d := 1, a := 1, b := 1 } fun s l =>
    ⟨(f (fun x => lo32 (laneReader s.pre x o .w .a)) (fun x => lo32 (laneReader s.pre x o .w .b)) s.mask l).toNat, 0⟩

/-! ## What an instruction that computes nothing leaves as it was -/

/-- The latches of a file after a switch point of this clk: none, but for what the clk's other pick has shifted in (R77). -/
def State.latchesLeft (s : State) (i : Instr) (keep : Bool) (old : List (Option DWord)) : List (Option DWord) :=
  if isSwitch i && !s.cur.keepLatches then (if keep then old.take 1 else []) else old

/-- What an instruction changes of the executing wave: vector registers, scalar registers, the wave's own fields, the lanes' own fields;
and the lanes outside the group that may move. -/
structure Change where
  put : Nat → Nat → Option Word := fun _ _ => none
  puts : Nat → Option Word := fun _ => none
  wave : Wave → Wave := id
  lane : Nat → Lane → Lane := fun _ l => l
  moved : Nat → Bool := fun _ => false

/-- What an instruction leaves of the executing wave and of the other waves: everything but its change; of FCSR and WSTAT only LSTALE
(R79) changes, a switch point invalidates the latches (R77), and the lanes outside the group stay where they are. -/
structure State.Frame (s t : State) (i : Instr) (sp : Spans) (c : Change) : Prop where
  waves : ∀ k, k ≠ s.cur.wave → t.waves.find? k = s.waves.find? k
  kept : (c.wave s.w).Kept t.w
  lanes : ∀ l, (c.lane l (s.w.lane l)).Kept (t.w.lane l)
  regs : ∀ l r, (t.w.lane l).reg r = (c.put l r).getD ((s.w.lane l).reg r)
  sregs : ∀ m, t.w.sreg m = (c.puts m).getD (s.w.sreg m)
  others : ∀ l, s.mask.getLsbD l = false → c.moved l = false → (t.w.lane l).pc = (s.w.lane l).pc ∧ (t.w.lane l).life = (s.w.lane l).life
  latch : ∀ l, (t.w.lane l).latch = s.latchesLeft i (s.cur.shifted.getLsbD l) (s.w.lane l).latch
  slatch : t.w.slatch = s.latchesLeft i s.cur.shiftedS s.w.slatch
  fcsr : t.w.fcsr = s.w.fcsr
  wstat : t.w.wstat = s.staleAfter i sp

/-- Lanes of a mask are Ready at an address. -/
def State.At (t : State) (m : BitVec 32) (pc : Nat → DWord) : Prop :=
  ∀ l, m.getLsbD l = true → (t.w.lane l).pc = pc l ∧ (t.w.lane l).life = .ready

/-- Lanes of a mask take a trap at the executing instruction (R220): the trap registers, handler mode, and the wave's handler; nothing
else of the lane changes but its latches, which the trap's switch point invalidates (R77). -/
def State.Took (s t : State) (m : BitVec 32) (cause : Nat) (info : Nat → Word) (addr : Nat → DWord) : Prop :=
  ∀ l, m.getLsbD l = true → t.w.lane l = { s.w.lane l with
    tcause := BitVec.ofNat 32 cause, tinfo := info l, tpc := s.cur.pc, taddr := addr l, tparent := s.tparent s.cur.wave,
    tsibs := s.w.live &&& ~~~ s.mask, handler := true, life := .ready, pc := s.w.trapvec, latch := (t.w.lane l).latch }

/-! ## Memory as a core sees it -/

/-- A byte of global memory as a load of a core finds it: in its L1, else at the coherence point (R188, R195). -/
def State.seen (s : State) (c a : Nat) : Byte :=
  match (s.core c).l1.find? (a / 128) with
  | some l => l.byte (a % 128)
  | none => Memory.read s.mem a

/-- A byte of global memory once a core has written back what it holds dirty. -/
def State.settled (s : State) (c a : Nat) : Byte :=
  match (s.core c).l1.find? (a / 128) with
  | some l => if l.dirty.getLsbD (a % 128) then l.byte (a % 128) else Memory.read s.mem a
  | none => Memory.read s.mem a

/-- A byte of the executing group's spaces: global memory as `g` gives it, the team's memory, the die's scratchpad. -/
def State.byteBy (s : State) (g : Nat → Byte) (q : Loc) : Byte :=
  match q.space with
  | 0 => g q.addr
  | 1 => s.tm.tmem.get q.addr 0
  | 2 => (s.die s.dieNo).dsp.get q.addr 0
  | _ => 0

/-- The n bytes of a place as one number. -/
def Place.value (p : Place) (n : Nat) (view : Loc → Byte) : Nat := fromBytes ((List.range n).map fun j => view (p.loc j))

/-- A view with the n bytes of a place replaced. -/
def Place.update (p : Place) (n v : Nat) (view : Loc → Byte) : Loc → Byte := fun q =>
  match (List.range n).find? fun j => p.loc j == q with
  | some j => BitVec.ofNat 8 (v / 256 ^ j)
  | none => view q

/-- Read-modify-writes of n bytes, one lane after the other: the bytes they leave, and the value that each lane found. -/
def rmwAll (n : Nat) (p : Nat → Place) (f : Nat → Nat → Option Nat) (view : Loc → Byte) (ls : List Nat) :
    (Loc → Byte) × (Nat → Nat) :=
  ls.foldl (fun acc l =>
    let old := (p l).value n acc.1
    ((match f l old with
      | some v => (p l).update n v acc.1
      | none => acc.1), fun x => if x = l then old else acc.2 x)) (view, fun _ => 0)

/-- The state with every lane's conflict flag cleared: what a store changes of lanes that watch its bytes (R278) is left out. -/
def State.calm (s : State) : State :=
  { s with waves := s.waves.mapAll fun _ w => { w with lanes := w.lanes.mapAll fun _ l => { l with conflict := false } } }

/-- Nothing but the waves, the record of the clk and the L1s differs, and no core sees another byte anywhere. -/
def State.OutsideL1 (s t : State) : Prop :=
  { t with waves := s.waves, cur := s.cur, cores := s.cores } = s ∧ (∀ c, { t.core c with l1 := (s.core c).l1 } = s.core c) ∧
    (∀ c a, t.seen c a = s.seen c a) ∧ ∀ c a, t.settled c a = s.settled c a

/-- Nothing but the waves, the record of the clk, the memory, the poison-free scratchpads and the L1s differs. -/
def State.OutsideMem (s t : State) : Prop :=
  { t with waves := s.waves, cur := s.cur, cores := s.cores, mem := s.mem, teams := s.teams, dies := s.dies } = s ∧
    (∀ c, { t.core c with l1 := (s.core c).l1 } = s.core c) ∧
    (∀ k, k ≠ s.tid → t.team k = s.team k) ∧ { t.tm with tmem := s.tm.tmem } = s.tm ∧
    (∀ d, d ≠ s.dieNo → t.die d = s.die d) ∧ { t.die s.dieNo with dsp := (s.die s.dieNo).dsp } = s.die s.dieNo

/-- The places that n bytes at the acts' addresses have, found in the TLB or the heap window (R141, R168). -/
def State.Placed (s : State) (o : Ops) (space : Nat) (k : Kind) (n : Nat) (addr : Nat → DWord) (p : Nat → Place) : Prop :=
  ∀ l ∈ s.acts o, s.place space k n (addr l) 0 = (s, .ok (p l))

/-- Registers that an act writes: n of them, from code d on. -/
def State.puts (s : State) (i : Instr) (o : Ops) (n : Nat) (val : Nat → Nat → Word) : Change :=
  { put := fun l r => if !o.s && s.mask.getLsbD l && !nwOf i && inSpan s.pre.vb o.d n r then some (val l (r - (s.pre.vb + o.d.toNat))) else none
    puts := fun m => if o.s && !nwOf i && inSpan s.pre.sb o.d n m then some (val 0 (m - (s.pre.sb + o.d.toNat))) else none }

/-- Register j of a loaded value of n bytes (R405): below a word it is extended. -/
def loadedWord (n : Nat) (signed : Bool) (v j : Nat) : Word :=
  if 4 ≤ n then wordAt v j
  else if signed then (BitVec.ofNat (8 * n) v).signExtend 32
  else (BitVec.ofNat (8 * n) v).zeroExtend 32

/-! ## Try regions -/

/-- A register of a lane as an abort leaves it (R281): as it was before the clk, or in a line that was shadowed then as its shadow holds it. -/
def State.rolled (s : State) (l r : Nat) : Word :=
  s.pre.shadow.foldl (fun v p => if p.1 < 64 ∧ p.1 = r / 8 then (s.w.shadow.get p.1 p.2).getD (32 * (r % 8) + l) 0 else v) ((s.pre.lane l).reg r)

/-- A scalar register as an abort leaves it (R281): where its line is shadowed as the shadow holds it, which for a line that this clk
shadowed is as it was before the clk, and else as it is. -/
def State.rolledS (s : State) (m : Nat) : Word :=
  let line := 64 + m / 32
  if line ∈ s.w.shadow.map (·.1) then (((s.pre.shadow.find? line).map fun ws => s.w.shadow.get line ws).getD (s.pre.lineWords line)).getD (m % 32) 0
  else s.w.sreg m

/-- The lanes that an abort of member lanes of a set acts on: each of .lane mode alone, and every live .wave member with one of .wave mode
(R281). -/
def Wave.aborts (w : Wave) (set : Nat → Bool) (l : Nat) : Bool :=
  decide (l < 32) && (set l ||
    ((List.range 32).any (fun j => set j && (w.lane j).waveMode) && (w.lane l).member && (w.lane l).live && (w.lane l).waveMode))

/-- The executing wave once the lanes of a set have aborted with a status word (R281): each is at its abort target, out of its region, with
nothing buffered or watched and its registers rolled back; shadowed scalar lines are rolled back; TSTATUS is the status word. Of the other
lanes only what `lane` says changes. -/
structure State.Aborting (s t : State) (i : Instr) (sp : Spans) (set : Nat → Bool) (status : Word) (lane : Nat → Lane → Lane) : Prop where
  waves : ∀ k, k ≠ s.cur.wave → t.waves.find? k = s.waves.find? k
  kept : ({ s.w with tstatus := status, covered := t.w.covered } : Wave).Kept t.w
  flags : t.w.fcsr = s.w.fcsr ∧ t.w.wstat = s.staleAfter i sp
  aborted : ∀ l, set l = true → t.w.lane l = { s.w.lane l with
    v := (t.w.lane l).v, latch := (t.w.lane l).latch, belay := [], watch := [], pages := [], depth := 0, conflict := false,
    status := status, pc := (s.w.lane l).target, life := .ready }
  others : ∀ l, set l = false → ({ t.w.lane l with latch := (s.w.lane l).latch } : Lane) = lane l (s.w.lane l)
  regs : ∀ l, set l = true → ∀ r, (t.w.lane l).reg r = s.rolled l r
  sregs : ∀ m, t.w.sreg m = s.rolledS m

/-- Member lanes of a mask have aborted with a status word (R281): at their abort targets, out of their regions, with nothing buffered, and
with their registers rolled back. -/
def State.Aborted (s t : State) (m : BitVec 32) (status : Word) : Prop :=
  ∀ l, m.getLsbD l = true → (t.w.lane l).pc = (s.w.lane l).target ∧ (t.w.lane l).life = .ready ∧ (t.w.lane l).status = status ∧
    (t.w.lane l).depth = 0 ∧ (t.w.lane l).belay = [] ∧ (t.w.lane l).watch = [] ∧ (t.w.lane l).handler = (s.w.lane l).handler ∧
    ∀ r, (t.w.lane l).reg r = s.rolled l r

/-- The executing group is of members in .lane mode. -/
def State.InTry (s : State) : Prop := s.members = s.mask ∧ ∀ l, s.mask.getLsbD l = true → (s.w.lane l).waveMode = false

/-- The state as a wave's core, team and die see it: with the wave named as the executing one. -/
def State.from' (s : State) (k : Nat) : State := { s with cur := { Cur.none with wave := k } }

/-! ## Barrier objects -/

/-- No lane waits at BARW on an object. -/
def State.Unwaited (s : State) (x : ObjRef) : Prop :=
  ∀ p ∈ s.waves, ∀ q ∈ p.2.lanes, ∀ n acquire next since, q.2.life ≠ .blocked (.barw x n acquire next since)

/-- Whether a byte belongs to an object of the executing team or die. -/
def ObjRef.holds (x : ObjRef) (q : Loc) : Bool :=
  match x with
  | .team _ off => q.space == 1 && decide (off ≤ q.addr) && decide (q.addr < off + 32)
  | .die _ off => q.space == 2 && decide (off ≤ q.addr) && decide (q.addr < off + 32)

/-- The objects that the acts of a barrier instruction name, for a kind of access: aligned, in their space, and above the launch barrier
(R358). -/
def State.Names (s : State) (o : Ops) (c : Ctl) (k : Kind) (low : Bool) (obj : Nat → ObjRef) : Prop :=
  ∀ l ∈ s.acts o, s.object (objSpace c) k low (offsetA (reader s.pre o l)) = .ok (obj l)

/-- Each act updates its object by f, in ascending lane order; the group goes on. Every other byte is, with what the core holds dirty
written back, as it was; `rel` says that the core's dirty bytes are written back. -/
structure State.Updated (s t : State) (i : Instr) (o : Ops) (sp : Spans) (obj : Nat → ObjRef) (f : Nat → Bar → Bar) (rel : Bool) :
    Prop where
  outside : s.OutsideMem { t with arms := s.arms }
  frame : s.calm.Frame t.calm i sp {}
  next : t.At s.mask fun _ => s.nextPc
  bars : ∀ x, (∃ l ∈ s.acts o, obj l = x) → t.bar x = (s.acts o).foldl (fun b l => if obj l = x then f l b else b) (s.bar x)
  bytes : ∀ q, (∀ l ∈ s.acts o, (obj l).holds q = false) → t.byteBy (t.settled s.coreNo) q = s.byteBy (s.settled s.coreNo) q
  cores : ∀ d, d ≠ s.coreNo → t.core d = s.core d
  plain : rel = false → t.mem = s.mem ∧ t.core s.coreNo = s.core s.coreNo
  released : rel = true → ∀ a, Memory.read t.mem a = s.settled s.coreNo a

/-- Nothing but the waves, the record of the clk and the L1s differs, no core has lost a dirty byte; where `acq` is true the executing core
holds no clean line and sees memory wherever it holds no dirty byte, and where it is false the L1s are as they were. -/
def State.OutsideAcquire (s t : State) (acq : Bool) : Prop :=
  { t with waves := s.waves, cur := s.cur, cores := s.cores } = s ∧ (∀ c, { t.core c with l1 := (s.core c).l1 } = s.core c) ∧
    (∀ c a, t.settled c a = s.settled c a) ∧ (acq = false → ∀ c, t.core c = s.core c) ∧
    (acq = true → (∀ a x, (t.core s.coreNo).l1.find? a = some x → x.dirty ≠ 0) ∧ ∀ a, t.seen s.coreNo a = s.settled s.coreNo a)

/-! ## Special registers -/

/-- THERM of a die takes a value: a core above its threshold is held hot, one below it by more than the hysteresis is not (R323). -/
def State.heated (s : State) (die : Nat) (v : Word) : State :=
  let s := s.modDie die fun d => { d with therm := v }
  { s with cores := s.cores.mapAll fun c y =>
      if c / 48 ≠ die then y
      else if (v.extractLsb' 8 8).toNat < y.celsius then { y with hot := true, hotSince := if y.hot then y.hotSince else s.clk }
      else if y.celsius + (v.extractLsb' 0 8).toNat < (v.extractLsb' 8 8).toNat then { y with hot := false }
      else y }

/-- Registers of 32 bits that one write changes, for a party on a core that has selected a context and an entry of the slot table, and what
a write of v changes (R82, R227, R245, R304, R312, R323, R345). -/
def plainWrites : List (Nat × (State → Nat → Nat → Nat → Word → State)) :=
  [(0x202, fun s ctx _ _ v => s.modCtx ctx fun c => { c with critmax := v &&& 0xFFFFFF }),
   (0x203, fun s ctx _ _ v => s.modCtx ctx fun c => { c with swapthr := v &&& 0xFFFFFF }),
   (0x205, fun s _ core slot v => s.modCore core fun c =>
     let c := if c.slotNow = s.clk / 2048 then c
       else { c with slotNow := s.clk / 2048, slottab := c.slotPending.foldl (fun t p => t.put p.1 p.2) c.slottab, slotPending := [] }
     { c with slotPending := c.slotPending.put slot (v &&& 0x1F) }),
   (0x224, fun s ctx core _ v => s.modDie (core / 48) fun d => { d with dspwin := d.dspwin.set 0 ctx v }),
   (0x232, fun s ctx _ _ v => s.modCtx ctx fun c => if ∃ k, k < 13 ∧ v.toNat = 2 ^ (k + 4) then { c with fqsize := v } else c),
   (0x234, fun s ctx _ _ v => s.modCtx ctx fun c => { c with fqtail := v }),
   (0x236, fun s ctx _ _ v => s.modCtx ctx fun c => { c with fqbar := v &&& 0x8000FFFF }),
   (0x237, fun s ctx _ _ v => s.modCtx ctx fun c => { c with wdtime := v }),
   (0x23A, fun s ctx _ _ v => s.modCtx ctx fun c => { c with sampcfg := v &&& 0xF000FFFF }),
   (0x259, fun s _ core _ v => s.heated (core / 48) (v &&& 0xFFFF)),
   (0x26C, fun s _ _ _ v => s.modMod fun m => { m with hcqcfg := v &&& 0x801F0000 }),
   (0x26E, fun s _ _ _ v =>
     if 600 ≤ (v &&& 0xFFF).toNat ∧ (v &&& 0xFFF).toNat ≤ 2500 then s.modMod fun m => { m with pwrcap := v &&& 0xFFF } else s)]

/-! ## Engine commands -/

/-- A command that a team's core has started for it and not finished; an MXD has started with its first segment (log entry 72). -/
def State.commandRuns (s : State) (t : Nat) : Prop :=
  let x := s.core (s.team t).core
  ∃ c, (c ∈ x.mq ∨ ∃ p ∈ x.copy, c ∈ p.2.queue) ∧ c.team = t ∧ c.unstarted = false ∧ c.finished = false

/-- The number of an act's command in a queue whose last number is n: the acts take the following ones in order (R290). -/
def State.cmdNum (s : State) (o : Ops) (n l : Nat) : Nat := n + 1 + (s.acts o).idxOf l

/-- The commands that the acts of an instruction queue. -/
def State.cmds (s : State) (o : Ops) (c : Ctl) (n : Nat) (bar : Option ObjRef) (op : Nat → CmdOp) : List Cmd :=
  (s.acts o).map fun l => s.newCmd o c l (s.cmdNum o n l) bar (op l)

/-- An instruction that queues a command has gone on with the command's number in D; with order 2 the core's dirty bytes are written
back first; and nothing but the core's queues differs beside that. -/
structure State.Issued (s t : State) (i : Instr) (o : Ops) (c : Ctl) (sp : Spans) (n : Nat) : Prop where
  outside : s.OutsideMem { t with cores := t.cores.mapAll fun d x =>
    { x with copy := (s.core d).copy, mq := (s.core d).mq, mIssued := (s.core d).mIssued } }
  teams : t.tm = s.tm
  dies : ∀ d, t.die d = s.die d
  frame : s.calm.Frame t.calm i sp (s.puts i o 1 fun l _ => BitVec.ofNat 32 (s.cmdNum o n l))
  next : t.At s.mask fun _ => s.nextPc
  bytes : ∀ a, t.settled s.coreNo a = s.settled s.coreNo a
  cores : ∀ d, d ≠ s.coreNo → t.core d = s.core d
  plain : c.order ≠ 2 → t.mem = s.mem ∧ (t.core s.coreNo).l1 = (s.core s.coreNo).l1
  released : c.order = 2 → ∀ a, Memory.read t.mem a = s.settled s.coreNo a

/-- Only the waves, the record of the clk and the executing core's L1 differ, and memory, in which the core's dirty bytes stand: what a
release at device scope leaves. -/
def State.Released (s t : State) : Prop :=
  { t with waves := s.waves, cur := s.cur, cores := s.cores, mem := s.mem } = s ∧
    (∀ c, { t.core c with l1 := (s.core c).l1 } = s.core c) ∧ (∀ d, d ≠ s.coreNo → t.core d = s.core d) ∧
    ∀ a, Memory.read t.mem a = s.settled s.coreNo a ∧ t.settled s.coreNo a = s.settled s.coreNo a

/-- A core has an address of a context translated without a walk: by the heap window, or by an entry of its TLB that grants the kind. -/
def State.CoreMaps (s : State) (c ctx : Nat) (va : DWord) (k : Kind) (pa : Nat) : Prop :=
  canonical va = true ∧ (s.heapWindow ctx va k = some (.ok pa) ∨ (s.heapWindow ctx va k = none ∧
    ∃ e, tlbHit (s.core c).tlb ctx (va.toNat % 2 ^ 57) = some e ∧ s.applyLeaf ctx (va.toNat % 2 ^ 57) k e = .ok pa))

/-- An agent of a die has an address of a context translated without a walk: by the heap window, or by an entry of the die's TLB that grants
the kind (R176, R183). -/
def State.DieMaps (s : State) (d ctx : Nat) (va : DWord) (k : Kind) (pa : Nat) : Prop :=
  canonical va = true ∧ (s.heapWindow ctx va k = some (.ok pa) ∨ (s.heapWindow ctx va k = none ∧
    ∃ e, tlbHit (s.die d).tlb ctx (va.toNat % 2 ^ 57) = some e ∧ s.applyLeaf ctx (va.toNat % 2 ^ 57) k e = .ok pa))

/-- A release of the executing core, at device scope. -/
def State.settle (s : State) : State := s.release s.coreNo 4

/-- n bytes of memory once the executing core has written back what it holds dirty. -/
def State.settledBytes (s : State) (pa n : Nat) : List Byte := (List.range n).map fun j => s.settled s.coreNo (pa + j)

end Sys2Proof.Machine
end

