-- ==== Sys2Proof/Certificates/Slice0/Obligations.lean ====
section
/-! DEFINITION. The statements for the provers, in the terms of Sys2Proof.Safety. -/

open Sys2Proof Sys2Proof.Machine


/-- In every state in which the checks of R137 pass, each of ADD, ADDX, ADDS, ABSD, SUB, SUBX, SUBS, MUL, MULH and MAD, with every type T,
operand code, literal, S and NW, answers a next state in which each act of the group has the stated function of the exact values of A,
B and (MAD) D, kept as N bits, as its result: the result goes to D unless NW is 1 and into the latches, the lanes go on past the
instruction, and nothing else changes. (R348, R455, R412) -/
def Obligations.IntegerSumsAndProducts : Prop :=
  ((∀ t o, Encoding.row (.add t o) = some ⟨BitVec.ofNat 9 (0 * 4 + t.toNat), .both, true, .dst, .code, .code⟩) ∧
   (∀ t o, Encoding.row (.sub t o) = some ⟨BitVec.ofNat 9 (1 * 4 + t.toNat), .both, true, .dst, .code, .code⟩) ∧
   (∀ t o, Encoding.row (.addx t o) = some ⟨BitVec.ofNat 9 (2 * 4 + t.toNat), .both, true, .dst, .code, .code⟩) ∧
   (∀ t o, Encoding.row (.subx t o) = some ⟨BitVec.ofNat 9 (3 * 4 + t.toNat), .both, true, .dst, .code, .code⟩) ∧
   (∀ t o, Encoding.row (.adds t o) = some ⟨BitVec.ofNat 9 (4 * 4 + t.toNat), .both, true, .dst, .code, .code⟩) ∧
   (∀ t o, Encoding.row (.subs t o) = some ⟨BitVec.ofNat 9 (5 * 4 + t.toNat), .both, true, .dst, .code, .code⟩) ∧
   (∀ t o, Encoding.row (.mul t o) = some ⟨BitVec.ofNat 9 (6 * 4 + t.toNat), .both, true, .dst, .code, .code⟩) ∧
   (∀ t o, Encoding.row (.mulh t o) = some ⟨BitVec.ofNat 9 (7 * 4 + t.toNat), .both, true, .dst, .code, .code⟩) ∧
   (∀ t o, Encoding.row (.mad t o) = some ⟨BitVec.ofNat 9 (8 * 4 + t.toNat), .both, true, .both, .code, .code⟩) ∧
   (∀ t o, Encoding.row (.absd t o) = some ⟨BitVec.ofNat 9 (15 * 4 + t.toNat), .both, true, .dst, .code, .code⟩)) ∧
  ComputesInt .add (fun _ x y _ => x + y) ∧
  ComputesInt .addx (fun t x y _ => Int.fdiv (x + y) (2 ^ intN t)) ∧
  ComputesInt .adds (fun t x y _ => max (intMin (typeOf t)) (min (x + y) (intMax (typeOf t)))) ∧
  ComputesInt .absd (fun _ x y _ => (x - y).natAbs) ∧
  ComputesInt .sub (fun _ x y _ => x - y) ∧
  ComputesInt .subx (fun t x y _ => Int.fdiv (x - y) (2 ^ intN t)) ∧
  ComputesInt .subs (fun t x y _ => max (intMin (typeOf t)) (min (x - y) (intMax (typeOf t)))) ∧
  ComputesInt .mul (fun _ x y _ => x * y) ∧
  ComputesInt .mulh (fun t x y _ => Int.fdiv (x * y) (2 ^ intN t)) ∧
  ComputesInt .mad (fun _ x y z => x * y + z)

/-- DIV and REM write the quotient q and the remainder r with dividend = q * divisor + r, r smaller in magnitude than the divisor and of
the sign of the dividend or zero; a zero divisor gives all ones and the dividend. MIN and MAX write the lesser and the greater operand,
CLAMP min(max(z, lo), hi), and LEA a + b * 2^T modulo 2^64. Each completes wherever the checks of R137 pass, and nothing but the result
changes. (R147, R384, R437, R413, R371, R409) -/
def Obligations.IntegerDivisionAndOrder : Prop :=
  ((∀ t o, Encoding.row (.div t o) = some ⟨BitVec.ofNat 9 (9 * 4 + t.toNat), .both, true, .dst, .code, .code⟩) ∧
   (∀ t o, Encoding.row (.rem t o) = some ⟨BitVec.ofNat 9 (10 * 4 + t.toNat), .both, true, .dst, .code, .code⟩) ∧
   (∀ t o, Encoding.row (.min t o) = some ⟨BitVec.ofNat 9 (11 * 4 + t.toNat), .both, true, .dst, .code, .code⟩) ∧
   (∀ t o, Encoding.row (.max t o) = some ⟨BitVec.ofNat 9 (12 * 4 + t.toNat), .both, true, .dst, .code, .code⟩) ∧
   (∀ t o, Encoding.row (.clamp t o) = some ⟨BitVec.ofNat 9 (13 * 4 + t.toNat), .both, true, .both, .code, .code⟩) ∧
   (∀ t o, Encoding.row (.lea t o) = some ⟨BitVec.ofNat 9 (14 * 4 + t.toNat), .both, true, .dst, .code, .code⟩)) ∧
  (∃ q r : Int → Int → Int,
    (∀ x y, y ≠ 0 → x = q x y * y + r x y ∧ (r x y).natAbs < y.natAbs ∧ 0 ≤ r x y * x) ∧
    (∀ x, q x 0 = -1 ∧ r x 0 = x) ∧
    ComputesInt .div (fun _ x y _ => q x y) ∧ ComputesInt .rem (fun _ x y _ => r x y)) ∧
  ComputesInt .min (fun _ x y _ => if x ≤ y then x else y) ∧
  ComputesInt .max (fun _ x y _ => if x ≤ y then y else x) ∧
  ComputesInt .clamp (fun _ lo hi z => min (max z lo) hi) ∧
  ∀ t o, Computes (.lea t o) o { d := 2, a := 2, b := 1 } fun s l =>
    ⟨(reader s.pre o l .n .a + ((s.word o l .b).signExtend 64 <<< t.toNat)).toNat, 0⟩

/-- In both widths, AND, OR, XOR, ANDN, NOT, SEL and MOV write the bitwise function of their operands, LUT3 takes each bit from its table
at 4 d[i] + 2 a[i] + b[i], and BREV takes bit i from bit N - 1 - i. Each completes wherever the checks of R137 pass, and nothing but
the result changes. (R351, R419, R476, R410, R445, R414, R363) -/
def Obligations.BitwiseLogicAndSelect : Prop :=
  ComputesBits .andB (fun _ a b _ => a &&& b) ∧
  ComputesBits .orB (fun _ a b _ => a ||| b) ∧
  ComputesBits .xorB (fun _ a b _ => a ^^^ b) ∧
  ComputesBits .andn (fun _ a b _ => a &&& ~~~ b) ∧
  ComputesBits .notB (fun _ a _ _ => ~~~ a) ∧
  ComputesBits .sel (fun _ a b d => (a &&& d) ||| (b &&& ~~~ d)) ∧
  ComputesBits .mov (fun _ a _ _ => a) ∧
  (∃ rev : (w : Bool) → BitVec (bitsN w) → BitVec (bitsN w),
    (∀ w a i, i < bitsN w → (rev w a).getLsbD i = a.getLsbD (bitsN w - 1 - i)) ∧ ComputesBits .brev (fun w a _ _ => rev w a)) ∧
  ∀ w o, ∃ r : BitVec (bitsN w) → BitVec (bitsN w) → BitVec (bitsN w) → BitVec (bitsN w),
    (∀ a b d i, i < bitsN w →
      (r a b d).getLsbD i = o.lit.getLsbD (4 * (d.getLsbD i).toNat + 2 * (a.getLsbD i).toNat + (b.getLsbD i).toNat)) ∧
    Computes (.lut3 w o) o (bitSpans w) fun s l => ⟨(r (s.bitv w o l .a) (s.bitv w o l .b) (s.bitv w o l .d)).toNat, 0⟩

/-- In both widths: SHL and SHR give 0 and SAR the sign for a count of N or more, ROL rotates by the count modulo N; BFX, BFXS and BFI
extract and place the field that position min(b[7:0], N) and length min(b[15:8], N) name; PRMB builds byte i from nibble i of B; POPC
writes the number of one bits of A, CLZ the number of zero bits above its highest one bit and CTZ the number below its lowest, both N
for 0, in one register. Each completes wherever the checks of R137 pass, and nothing but the result changes. (R443, R440, R360, R425, R372, R422) -/
def Obligations.ShiftsFieldsAndCounts : Prop :=
  (  ((∀ w o, Encoding.row (.shl w o) = some ⟨if w then 0x066#9 else 0x046#9, .both, true, .dst, .code, .code⟩) ∧
   (∀ w o, Encoding.row (.shr w o) = some ⟨if w then 0x067#9 else 0x047#9, .both, true, .dst, .code, .code⟩) ∧
   (∀ w o, Encoding.row (.sar w o) = some ⟨if w then 0x068#9 else 0x048#9, .both, true, .dst, .code, .code⟩) ∧
   (∀ w o, Encoding.row (.rol w o) = some ⟨if w then 0x069#9 else 0x049#9, .both, true, .dst, .code, .code⟩) ∧
   (∀ w o, Encoding.row (.bfx w o) = some ⟨if w then 0x06A#9 else 0x04A#9, .both, true, .dst, .code, .code⟩) ∧
   (∀ w o, Encoding.row (.bfxs w o) = some ⟨if w then 0x06B#9 else 0x04B#9, .both, true, .dst, .code, .code⟩) ∧
   (∀ w o, Encoding.row (.bfi w o) = some ⟨if w then 0x06C#9 else 0x04C#9, .both, true, .dst, .code, .code⟩) ∧
   (∀ w o, Encoding.row (.prmb w o) = some ⟨if w then 0x071#9 else 0x051#9, .both, true, .dst, .code, .code⟩)) ∧
  ComputesField .shl (fun w a c => if c.toNat < bitsN w then a <<< c.toNat else 0) ∧
  ComputesField .shr (fun w a c => if c.toNat < bitsN w then a >>> c.toNat else 0) ∧
  ComputesField .sar (fun w a c => if c.toNat < bitsN w then a.sshiftRight c.toNat else if a.msb then BitVec.allOnes (bitsN w) else 0) ∧
  ComputesField .rol (fun _ a b => a.rotateLeft b.toNat) ∧
  ComputesField .bfx (fun w a b => BitVec.ofNat (bitsN w)
    (a.toNat / 2 ^ min (b.extractLsb' 0 8).toNat (bitsN w) % 2 ^ min (b.extractLsb' 8 8).toNat (bitsN w))) ∧
  ComputesField .bfxs (fun w a b =>
    let n := min (b.extractLsb' 8 8).toNat (bitsN w)
    let f := a.toNat / 2 ^ min (b.extractLsb' 0 8).toNat (bitsN w) % 2 ^ n
    BitVec.ofInt (bitsN w) (if 0 < n ∧ 2 ^ (n - 1) ≤ f then (f : Int) - 2 ^ n else f)) ∧
  ComputesField .bfi (fun w a b => BitVec.ofNat (bitsN w)
    (a.toNat % 2 ^ min (b.extractLsb' 8 8).toNat (bitsN w) * 2 ^ min (b.extractLsb' 0 8).toNat (bitsN w))) ∧
  ∃ r : (w : Bool) → BitVec (bitsN w) → Word → BitVec (bitsN w),
    (∀ w a b i, 8 * i < bitsN w → (r w a b).extractLsb' (8 * i) 8 =
      (let nib := (b.extractLsb' (4 * i) 4).toNat
       let byte := a.extractLsb' (8 * (nib % (if w then 8 else 4))) 8
       match nib / (if w then 8 else 4) with
       | 0 => byte
       | 1 => if byte.msb then 0xFF else 0
       | 2 => 0
       | _ => 0xFF)) ∧
    ComputesField .prmb r) ∧
  ((∀ w o, Encoding.row (.popc w o) = some ⟨if w then 0x06D#9 else 0x04D#9, .both, true, .dst, .code, .rsv⟩) ∧
   (∀ w o, Encoding.row (.clz w o) = some ⟨if w then 0x06E#9 else 0x04E#9, .both, true, .dst, .code, .rsv⟩) ∧
   (∀ w o, Encoding.row (.ctz w o) = some ⟨if w then 0x06F#9 else 0x04F#9, .both, true, .dst, .code, .rsv⟩)) ∧
  (∀ w o, Computes (.popc w o) o { d := 1, a := (tyB w).regs, b := 1 } fun s l =>
    ⟨((List.range (bitsN w)).filter (s.bitv w o l .a).getLsbD).length, 0⟩) ∧
  (∃ clz : (w : Bool) → BitVec (bitsN w) → Nat,
    (∀ w a, clz w a ≤ bitsN w ∧ (∀ i, bitsN w - clz w a ≤ i → a.getLsbD i = false) ∧
      (clz w a < bitsN w → a.getLsbD (bitsN w - 1 - clz w a) = true)) ∧
    ∀ w o, Computes (.clz w o) o { d := 1, a := (tyB w).regs, b := 1 } fun s l => ⟨clz w (s.bitv w o l .a), 0⟩) ∧
  ∃ ctz : (w : Bool) → BitVec (bitsN w) → Nat,
    (∀ w a, ctz w a ≤ bitsN w ∧ (∀ i, i < ctz w a → a.getLsbD i = false) ∧ (ctz w a < bitsN w → a.getLsbD (ctz w a) = true)) ∧
    ∀ w o, Computes (.ctz w o) o { d := 1, a := (tyB w).regs, b := 1 } fun s l => ⟨ctz w (s.bitv w o l .a), 0⟩

/-- In both widths CMP.eq, .ne, .lt, .le, .ltn and .len compare, signed or unsigned, and TEST.z and .nz test the bits that the operands
share; the result is 0xFFFF_FFFF or 0 in one 32-bit register. Each completes wherever the checks of R137 pass, and nothing but the
result changes. (R373, R462) -/
def Obligations.ComparesAndTests : Prop :=
  ((∀ w o, Encoding.row (.cmpEq w o) = some ⟨if w then 0x074#9 else 0x054#9, .both, true, .dst, .code, .code⟩) ∧
   (∀ w o, Encoding.row (.cmpNe w o) = some ⟨if w then 0x075#9 else 0x055#9, .both, true, .dst, .code, .code⟩) ∧
   (∀ w o, Encoding.row (.cmpLt w o) = some ⟨if w then 0x076#9 else 0x056#9, .both, true, .dst, .code, .code⟩) ∧
   (∀ w o, Encoding.row (.cmpLe w o) = some ⟨if w then 0x077#9 else 0x057#9, .both, true, .dst, .code, .code⟩) ∧
   (∀ w o, Encoding.row (.cmpLtn w o) = some ⟨if w then 0x078#9 else 0x058#9, .both, true, .dst, .code, .code⟩) ∧
   (∀ w o, Encoding.row (.cmpLen w o) = some ⟨if w then 0x079#9 else 0x059#9, .both, true, .dst, .code, .code⟩) ∧
   (∀ w o, Encoding.row (.testZ w o) = some ⟨if w then 0x07A#9 else 0x05A#9, .both, true, .dst, .code, .code⟩) ∧
   (∀ w o, Encoding.row (.testNz w o) = some ⟨if w then 0x07B#9 else 0x05B#9, .both, true, .dst, .code, .code⟩)) ∧
  ComputesTruth .cmpEq true (fun _ a b => a == b) ∧
  ComputesTruth .cmpNe true (fun _ a b => a != b) ∧
  ComputesTruth .cmpLt true (fun _ a b => a.slt b) ∧
  ComputesTruth .cmpLe true (fun _ a b => a.sle b) ∧
  ComputesTruth .cmpLtn false (fun _ a b => a.ult b) ∧
  ComputesTruth .cmpLen false (fun _ a b => a.ule b) ∧
  ComputesTruth .testZ false (fun _ a b => a &&& b == 0) ∧
  ComputesTruth .testNz false (fun _ a b => a &&& b != 0)

/-- In every state in which the checks of R137 pass and no act raises a flag that FCSR.EN enables, FADD, FSUB, FMUL, FMA, FMIN, FMAX, FDIV,
FSQRT, FRCP, FRSQ, FEXP2, FLOG2 and FCMP complete in every lane: the result is the operation of the operands in the rounding mode and
FTZ of FCSR, for each element of a packed pair on its own; FCSR.FLAGS receives the OR of the flags of every act; nothing else changes.
What each operation is, FloatResultsAreRounded states; FRCP, FRSQ, FEXP2 and FLOG2 choose between the two enclosing values by a free
value (log entry 5). (R392, R393, R394, R395, R155) -/
def Obligations.FloatArithmeticCompletes : Prop :=
  ComputesFloat .fadd (fun v m a b _ => fAdd v m a b) ∧
  ComputesFloat .fsub (fun v m a b _ => fSub v m a b) ∧
  ComputesFloat .fmul (fun v m a b _ => fMul v m a b) ∧
  ComputesFloat .fma (fun v m a b d => fFma v m a b d) ∧
  ComputesFloat .fmin (fun v m a b _ => fMinMax false v m a b) ∧
  ComputesFloat .fmax (fun v m a b _ => fMinMax true v m a b) ∧
  ComputesFloat .fdiv (fun v m a b _ => fDiv v m a b) ∧
  ComputesFloat .fsqrt (fun v m a _ _ => fSqrt v m a) ∧
  ComputesFloat .frcp (fun v m a _ _ => fRcp v m a) ∧
  ComputesFloat .frsq (fun v m a _ _ => fRsq v m a) ∧
  ComputesFloat .fexp2 (fun v m a _ _ => fExp2 v m a) ∧
  ComputesFloat .flog2 (fun v m a _ _ => fLog2 v m a) ∧
  ∀ c f o, Computes (.fcmp c f o) o { d := 1, a := (tyF f).regs, b := (tyF f).regs } fun s l =>
    perElement (2 ≤ f.toNat) (fun a b _ =>
        ⟨if (fCmp c.toNat (arithEnv s.pre.fcsr) (fmtOf f) a b).1 then (if 2 ≤ f.toNat then 0xFFFF else 0xFFFFFFFF) else 0,
          (fCmp c.toNat (arithEnv s.pre.fcsr) (fmtOf f) a b).2⟩)
      (reader s.pre o l (tyF f) .a).toNat (reader s.pre o l (tyF f) .b).toNat 0

/-- A code of any of the seven formats stands for the value that its sign, exponent and fraction give, for an infinity, or for a NaN. In
f16, bf16, f32 and f64 and every mode of arithmetic, with subnormal operands flushed under FTZ: FADD, FSUB, FMUL, FMA, FDIV and FSQRT
of finite operands deliver the exact result rounded once (to nearest with ties to even, toward zero, down or up), with overflow,
underflow, inexact and the FTZ flush as given, and a zero result with the sign given; FRCP and FRSQ one of the two values that enclose
the exact one; infinities, division by zero and the square root of a negative value give the results and flags of R153; a NaN operand
gives the default NaN, with invalid exactly for a signalling operand or, in FMA, infinity times zero beside a NaN addend, which is the
model's choice (log entry 55: no rule says in so many words that a quiet NaN addend leaves that exception standing); FMIN, FMAX and
FCMP follow the order of the values, -0 below +0 for the first two. (R149, R151, R152, R153, R154, R392, R393, R394, R395) -/
def Obligations.FloatResultsAreRounded : Prop :=
  (∀ f ∈ [Fmt.f16, Fmt.bf16, Fmt.f32, Fmt.f64, Fmt.e4m3, Fmt.e5m2, Fmt.e2m1], ∀ sg e m : Nat, sg < 2 → e < 2 ^ f.eb → m < 2 ^ f.mb →
    let x := decodeF f (sg * 2 ^ (f.mb + f.eb) + e * 2 ^ f.mb + m)
    let plain := x.isFinite = true ∧ x.sign = (sg == 1) ∧
      x.rat = (-1) ^ sg * (if e = 0 then (m : ℚ) / 2 ^ f.mb * 2 ^ (1 - f.bias : ℤ) else (1 + (m : ℚ) / 2 ^ f.mb) * 2 ^ ((e : ℤ) - f.bias))
    if f = Fmt.e2m1 then (if sg = 1 ∧ e = 0 ∧ m = 0 then x = .nan false else plain)
    else if f = Fmt.e4m3 then (if e = 15 ∧ m = 7 then x = .nan false else plain)
    else if e = 2 ^ f.eb - 1 then
      (if m = 0 then x = .inf (sg == 1) else x = .nan (decide (f ≠ Fmt.e5m2 ∧ m < 2 ^ (f.mb - 1))))
    else plain) ∧
  ∀ f ∈ [Fmt.f16, Fmt.bf16, Fmt.f32, Fmt.f64], ∀ (v : FEnv) (a b d : Nat), v.mode < 4 → a < 2 ^ f.width → b < 2 ^ f.width →
    let x := v.read f a
    let y := v.read f b
    let z := v.read f d
    let rnd := RoundedTo f v.mode v.ftz false
    let zero := fun (p q : Bool) => if p = q then p else v.mode == 2
    (v.read f a = if v.ftz = true ∧ (decodeF f a).isFinite = true ∧ (decodeF f a).rat ≠ 0 ∧ |(decodeF f a).rat| < f.least
      then .zero (decodeF f a).sign else decodeF f a) ∧
    (x.isFinite → y.isFinite →
      rnd (x.rat + y.rat) (zero x.sign y.sign) (fAdd v f a b) ∧
      rnd (x.rat - y.rat) (zero x.sign !y.sign) (fSub v f a b) ∧
      rnd (x.rat * y.rat) (x.sign != y.sign) (fMul v f a b) ∧
      (z.isFinite → rnd (x.rat * y.rat + z.rat) (zero (x.sign != y.sign) z.sign) (fFma v f a b d)) ∧
      (y.rat ≠ 0 → rnd (x.rat / y.rat) (x.sign != y.sign) (fDiv v f a b)) ∧
      (y.rat = 0 → fDiv v f a b = if x.rat = 0 then ⟨f.nan, fInvalid⟩ else ⟨infCode f (x.sign != y.sign), fDivZero⟩)) ∧
    (x.isFinite →
      (0 < x.rat → Rounded f v.mode v.ftz false (.sqrt x.rat) false (fSqrt v f a)) ∧
      (x.rat = 0 → fSqrt v f a = ⟨signBit f x.sign, 0⟩) ∧ (x.rat < 0 → fSqrt v f a = ⟨f.nan, fInvalid⟩) ∧
      (x.rat ≠ 0 → ∃ m ∈ [1, if x.sign then 2 else 3], Rounded f m v.ftz false (.rat (1 / x.rat)) x.sign (fRcp v f a)) ∧
      (0 < x.rat → ∃ m ∈ [1, 3], Rounded f m v.ftz false (.sqrt (1 / x.rat)) false (fRsq v f a)) ∧
      (x.rat = 0 → fRcp v f a = ⟨infCode f x.sign, fDivZero⟩ ∧ fRsq v f a = ⟨infCode f x.sign, fDivZero⟩)) ∧
    (∀ p q, x = .inf p → y = .inf q →
      fAdd v f a b = (if p = q then ⟨infCode f p, 0⟩ else ⟨f.nan, fInvalid⟩) ∧
      fMul v f a b = ⟨infCode f (p != q), 0⟩ ∧ fDiv v f a b = ⟨f.nan, fInvalid⟩) ∧
    (∀ p, x = .inf p → y.isFinite →
      fAdd v f a b = ⟨infCode f p, 0⟩ ∧ fAdd v f b a = ⟨infCode f p, 0⟩ ∧
      fMul v f a b = (if y.rat = 0 then ⟨f.nan, fInvalid⟩ else ⟨infCode f (p != y.sign), 0⟩) ∧
      fDiv v f a b = ⟨infCode f (p != y.sign), 0⟩ ∧ fDiv v f b a = ⟨signBit f (y.sign != p), 0⟩) ∧
    (let sig := (decodeF f a).isSnan || (decodeF f b).isSnan
     (((decodeF f a).isNan || (decodeF f b).isNan) →
       fAdd v f a b = ⟨f.nan, flagIf sig fInvalid⟩ ∧ fSub v f a b = ⟨f.nan, flagIf sig fInvalid⟩ ∧
       fMul v f a b = ⟨f.nan, flagIf sig fInvalid⟩ ∧ fDiv v f a b = ⟨f.nan, flagIf sig fInvalid⟩) ∧
     ((decodeF f a).isNan → fSqrt v f a = ⟨f.nan, flagIf (decodeF f a).isSnan fInvalid⟩) ∧
     (((decodeF f a).isNan || (decodeF f b).isNan || (decodeF f d).isNan) →
       let product := match x, y with
         | .inf _, .zero _ => true
         | .zero _, .inf _ => true
         | _, _ => false
       fFma v f a b d = ⟨f.nan, flagIf (sig || (decodeF f d).isSnan || product) fInvalid⟩) ∧
     (∀ isMax, let code := fun (u : XV) (bits : Nat) => if u.isFinite ∧ u.rat = 0 then signBit f u.sign else bits
       let same := ¬ x.less y ∧ ¬ y.less x
       fMinMax isMax v f a b = ⟨if x.isNan ∧ y.isNan then f.nan else if x.isNan then code y b else if y.isNan then code x a
         else if (x.less y ∨ same ∧ x.sign ∧ ¬ y.sign) ↔ isMax = false then code x a else code y b, flagIf sig fInvalid⟩) ∧
     (∀ c < 4, fCmp c v f a b =
       ⟨if x.isNan ∨ y.isNan then c == 3 else match c with
         | 0 => decide (¬ x.less y ∧ ¬ y.less x)
         | 1 => decide (x.less y)
         | 2 => decide (¬ y.less x)
         | _ => false,
        flagIf (if c = 1 ∨ c = 2 then x.isNan || y.isNan else sig) fInvalid⟩))

/-- When a floating instruction executes and some acts raise a flag that FCSR.EN enables, while no lane of the group is a member of a try
region or in a handler and the wave has a handler, then the lanes of those acts, for a scalar instruction every lane of the group, take
the trap FLOAT with TINFO the enabled flags raised and TADDR 0, and no register of theirs, nor a scalar one, changes; the other lanes
write and go on; and FCSR.FLAGS receives the flags of all acts. So it is for the thirteen class 2 instructions in every format, for
CVT, FRND, DOT2, DOT4 and DOT8, vector and scalar, and for REDA, REDM and SCANA, where a flag of any node is one of every lane. (R155, R142, R220, R382, R436) -/
def Obligations.EnabledFlagTraps : Prop :=
  TrapsFloat .fadd (fun v m a b _ => fAdd v m a b) ∧
  TrapsFloat .fsub (fun v m a b _ => fSub v m a b) ∧
  TrapsFloat .fmul (fun v m a b _ => fMul v m a b) ∧
  TrapsFloat .fma (fun v m a b d => fFma v m a b d) ∧
  TrapsFloat .fmin (fun v m a b _ => fMinMax false v m a b) ∧
  TrapsFloat .fmax (fun v m a b _ => fMinMax true v m a b) ∧
  TrapsFloat .fdiv (fun v m a b _ => fDiv v m a b) ∧
  TrapsFloat .fsqrt (fun v m a _ _ => fSqrt v m a) ∧
  TrapsFloat .frcp (fun v m a _ _ => fRcp v m a) ∧
  TrapsFloat .frsq (fun v m a _ _ => fRsq v m a) ∧
  TrapsFloat .fexp2 (fun v m a _ _ => fExp2 v m a) ∧
  TrapsFloat .flog2 (fun v m a _ _ => fLog2 v m a) ∧
  (∀ c f o, FlagsTrap (.fcmp c f o) o { d := 1, a := (tyF f).regs, b := (tyF f).regs } fun s l =>
    perElement (2 ≤ f.toNat) (fun a b _ =>
        ⟨if (fCmp c.toNat (arithEnv s.pre.fcsr) (fmtOf f) a b).1 then (if 2 ≤ f.toNat then 0xFFFF else 0xFFFFFFFF) else 0,
          (fCmp c.toNat (arithEnv s.pre.fcsr) (fmtOf f) a b).2⟩)
      (reader s.pre o l (tyF f) .a).toNat (reader s.pre o l (tyF f) .b).toNat 0) ∧
  (∀ src o, FlagsTrap (.cvt src o) o { d := (tyOfType (o.b.extractLsb' 3 4).toNat).regs, a := (tyOfType src.toNat).regs, b := 1 } fun s l =>
    convert src.toNat (o.b.extractLsb' 3 4).toNat (o.b.getLsbD 2) (roundField s.pre.fcsr (o.b.extractLsb' 0 2).toNat)
      (fcsrFtz s.pre.fcsr) (reader s.pre o l (tyOfType src.toNat) .a).toNat) ∧
  (∀ o, let t := (o.b.extractLsb' 3 4).toNat
    FlagsTrap (.frnd o) o { d := (tyOfType t).regs, a := (tyOfType t).regs, b := 1 } fun s l =>
      perElement (t == 8 || t == 9)
        (fun a _ _ => fRnd (fmtOfType t) (roundField s.pre.fcsr (o.b.extractLsb' 0 2).toNat) (fcsrFtz s.pre.fcsr) a)
        (reader s.pre o l (tyOfType t) .a).toNat 0 0) ∧
  (∀ (i : Instr) (o : Ops) (m : Fmt) (w n : Nat), (i, m, w, n) ∈ [(.dot2 true o, Fmt.f16, 16, 2), (.dot2 false o, Fmt.bf16, 16, 2),
      (.dot4 2 o, Fmt.e4m3, 8, 4), (.dot4 3 o, Fmt.e5m2, 8, 4), (.dot8 o, Fmt.e2m1, 4, 8)] →
    FlagsTrap i o { d := 1, a := 1, b := 1 } fun s l =>
      dotFloat m w n (fcsrFtz s.pre.fcsr) (s.word o l .a).toNat (s.word o l .b).toNat (s.word o l .d).toNat) ∧
  ∀ (i : Instr) (o : Ops), i ∈ [Instr.reda o, Instr.redm o, Instr.scana o] →
    ∃ f, Computes i o { d := (redTy o).regs, a := (redTy o).regs, b := 1 } f ∧
      FlagsTrap i o { d := (redTy o).regs, a := (redTy o).regs, b := 1 } f

/-- In every state in which the checks of R137 pass and no act raises an enabled flag, CVT, FRND, FCLASS, PACK, UNPK, DOT2, DOT4 and DOT8
complete: the result is the conversion that the field B selects, or the dot product of the elements of A and B added to D, and the
flags go to FCSR; nothing else changes. An integer converts to an integer by keeping or clamping it, a float to a float or an integer
to a float by one rounding, a float to an integer by rounding to an integer, with the special values, saturations and flags of R157 and
R158; FRND rounds to an integral value, FCLASS sets the bit of the class; an integer dot product is exact modulo 2^32 and a float one
the exact sum rounded once, or a NaN with invalid as R386 gives it. (R381, R382, R396, R397, R420, R472, R385, R386, R157, R158, R146, R166) -/
def Obligations.ConversionsAndDots : Prop :=
  (∀ src o, Computes (.cvt src o) o { d := (tyOfType (o.b.extractLsb' 3 4).toNat).regs, a := (tyOfType src.toNat).regs, b := 1 } fun s l =>
    convert src.toNat (o.b.extractLsb' 3 4).toNat (o.b.getLsbD 2) (roundField s.pre.fcsr (o.b.extractLsb' 0 2).toNat)
      (fcsrFtz s.pre.fcsr) (reader s.pre o l (tyOfType src.toNat) .a).toNat) ∧
  (∀ o, let t := (o.b.extractLsb' 3 4).toNat
    Computes (.frnd o) o { d := (tyOfType t).regs, a := (tyOfType t).regs, b := 1 } fun s l =>
      perElement (t == 8 || t == 9)
        (fun a _ _ => fRnd (fmtOfType t) (roundField s.pre.fcsr (o.b.extractLsb' 0 2).toNat) (fcsrFtz s.pre.fcsr) a)
        (reader s.pre o l (tyOfType t) .a).toNat 0 0) ∧
  (∀ o, let t := (o.b.extractLsb' 3 4).toNat
    Computes (.fclass o) o { d := 1, a := (tyOfType t).regs, b := 1 } fun s l =>
      perElement (t == 8 || t == 9) (fun a _ _ => ⟨fClass (fmtOfType t) a, 0⟩) (reader s.pre o l (tyOfType t) .a).toNat 0 0) ∧
  (∀ o, Computes (.pack o) o { d := 1, a := 1, b := 1 } fun s l =>
    ⟨((s.word o l .b).extractLsb' 0 16 ++ (s.word o l .a).extractLsb' 0 16).toNat, 0⟩) ∧
  (∀ o, Computes (.unpk o) o { d := 1, a := 1, b := 1 } fun s l =>
    let e := if o.b.getLsbD 0 then (s.word o l .a).extractLsb' 16 16 else (s.word o l .a).extractLsb' 0 16
    ⟨(if o.b.getLsbD 1 then e.signExtend 32 else e.zeroExtend 32).toNat, 0⟩) ∧
  (∀ k o, Computes (.dot4 k o) o { d := 1, a := 1, b := 1 } fun s l =>
    let a := (s.word o l .a).toNat
    let b := (s.word o l .b).toNat
    let d := (s.word o l .d).toNat
    if k = 0 then ⟨dotInt 0 a b d, 0⟩ else if k = 1 then ⟨dotInt 1 a b d, 0⟩
    else dotFloat (if k = 2 then Fmt.e4m3 else Fmt.e5m2) 8 4 (fcsrFtz s.pre.fcsr) a b d) ∧
  (∀ t b, t < 8 → intWidth t = [8, 16, 32, 64].getD (t / 2) 0 ∧
    intOf t b = if t % 2 = 0 then (BitVec.ofNat (intWidth t) b).toInt else (BitVec.ofNat (intWidth t) b).toNat) ∧
  (∀ src dst sat mode ftz bits, src < 15 → dst < 15 → mode < 5 →
    let r := convert src dst sat mode ftz bits
    let i := intOf src bits
    let fs := fmtOfType src
    let fd := fmtOfType dst
    let x := (⟨mode, ftz && src ≤ 11⟩ : FEnv).read fs bits
    let sat' := sat && 12 ≤ dst
    let ends := fun (low : Bool) => intReg dst (if low then intMin dst else intMax dst)
    (src < 8 → dst < 8 → r = ⟨intReg dst (if sat then max (intMin dst) (min i (intMax dst)) else i), 0⟩) ∧
    (src < 8 → 8 ≤ dst → RoundedTo fd mode (ftz && dst ≤ 11) sat' i false r) ∧
    (8 ≤ src → 8 ≤ dst →
      (x.isFinite → RoundedTo fd mode (ftz && dst ≤ 11) sat' x.rat x.sign r) ∧
      (x.isNan → r = ⟨fd.nan, flagIf (x.isSnan || dst == 14) fInvalid⟩) ∧
      (∀ p, x = .inf p → r =
        if dst = 14 ∨ (sat = true ∧ 12 ≤ dst) then ⟨maxCode fd p, flagIf (!sat) fOverflow⟩
        else if dst = 12 then ⟨signBit fd p + fd.nan, fOverflow⟩ else ⟨infCode fd p, 0⟩)) ∧
    (8 ≤ src → dst < 8 →
      (x.isFinite → ∃ n, IntRounds mode x.rat n ∧
        r = if n < intMin dst then ⟨ends true, fInvalid⟩ else if intMax dst < n then ⟨ends false, fInvalid⟩
          else ⟨intReg dst n, flagIf (decide ((n : ℚ) ≠ x.rat)) fInexact⟩) ∧
      (x.isNan → r = ⟨0, fInvalid⟩) ∧ (∀ p, x = .inf p → r = ⟨ends p, fInvalid⟩))) ∧
  (∀ f ∈ [Fmt.f16, Fmt.bf16, Fmt.f32, Fmt.f64], ∀ mode ftz bits, mode < 5 →
    let r := fRnd f mode ftz bits
    let x := (⟨mode, ftz⟩ : FEnv).read f bits
    (x.isFinite → ∃ n, IntRounds mode x.rat n ∧ f.finite r.bits = true ∧ f.rat r.bits = n ∧ (decodeF f r.bits).sign = x.sign ∧
      r.flags = flagIf (decide ((n : ℚ) ≠ x.rat)) fInexact) ∧
    (x.isNan → r = ⟨f.nan, flagIf x.isSnan fInvalid⟩) ∧ (∀ p, x = .inf p → r = ⟨infCode f p, 0⟩)) ∧
  (∀ f ∈ [Fmt.f16, Fmt.bf16, Fmt.f32, Fmt.f64, Fmt.e4m3, Fmt.e5m2, Fmt.e2m1], ∀ c, c < 2 ^ f.width →
    let x := decodeF f c
    let signed := fun (p q : Nat) => 2 ^ (if x.sign then p else q)
    fClass f c = if f = Fmt.e2m1 ∧ c = 8 then 2 ^ 10 else if x.isNan then 2 ^ (if x.isSnan then 8 else 9)
      else if x.isFinite = false then signed 0 7 else if x.rat = 0 then signed 3 4
      else if |x.rat| < f.least then signed 2 5 else signed 1 6) ∧
  (∀ t a b d, t < 2 → dotInt t a b d = (BitVec.ofInt 32 (intOf 4 d +
    ((List.range 4).map fun i => intOf t (a / 2 ^ (8 * i)) * intOf t (b / 2 ^ (8 * i))).sum)).toNat) ∧
  (∀ f w n ftz a b d, (f, w, n) ∈ [(Fmt.e4m3, 8, 4), (Fmt.e5m2, 8, 4), (Fmt.f16, 16, 2), (Fmt.bf16, 16, 2), (Fmt.e2m1, 4, 8)] →
    let el := fun (x i : Nat) => decodeF f (x / 2 ^ (w * i) % 2 ^ w)
    let dv := (⟨0, ftz⟩ : FEnv).read Fmt.f32 d
    let is := List.range n
    let r := dotFloat f w n ftz a b d
    let product := fun (i : Nat) (neg : Bool) => ((∃ p, el a i = .inf p) ∨ ∃ p, el b i = .inf p) ∧
      (el a i).isNan = false ∧ (el b i).isNan = false ∧ (el a i).rat * (el b i).rat = 0 ∧ ((el a i).sign != (el b i).sign) = neg
    let spoilt := ∃ i ∈ is, (∃ p, (el a i = .inf p ∧ (el b i).isFinite ∧ (el b i).rat = 0) ∨
      (el b i = .inf p ∧ (el a i).isFinite ∧ (el a i).rat = 0))
    let hasInf := fun (neg : Bool) => dv = .inf neg ∨ ∃ i ∈ is, product i neg ∧
      ¬ ((el a i).isFinite ∧ (el a i).rat = 0) ∧ ¬ ((el b i).isFinite ∧ (el b i).rat = 0)
    let invalid := spoilt ∨ (hasInf false ∧ hasInf true) ∨ dv.isSnan = true ∨ ∃ i ∈ is, (el a i).isSnan = true ∨ (el b i).isSnan = true
    let total := dv.rat + (is.map fun i => (el a i).rat * (el b i).rat).sum
    (dv.isFinite → (∀ i ∈ is, (el a i).isFinite ∧ (el b i).isFinite) →
      (total ≠ 0 → Rounded Fmt.f32 0 ftz false (.rat total) (decide (total < 0)) r) ∧ (total = 0 → r.bits % 2 ^ 31 = 0 ∧ r.flags = 0)) ∧
    ((invalid ∨ dv.isNan ∨ ∃ i ∈ is, (el a i).isNan ∨ (el b i).isNan) →
      r.bits = Fmt.f32.nan ∧ (invalid → r.flags = fInvalid) ∧ (¬ invalid → r.flags = 0)) ∧
    (∀ p, hasInf p → ¬ hasInf (!p) → ¬ spoilt → dv.isNan = false → (∀ i ∈ is, (el a i).isNan = false ∧ (el b i).isNan = false) →
      r = ⟨infCode Fmt.f32 p, 0⟩)) ∧
  (∀ k o, Computes (.dot2 k o) o { d := 1, a := 1, b := 1 } fun s l =>
    dotFloat (if k then Fmt.f16 else Fmt.bf16) 16 2 (fcsrFtz s.pre.fcsr) (s.word o l .a).toNat (s.word o l .b).toNat
      (s.word o l .d).toNat) ∧
  ∀ o, Computes (.dot8 o) o { d := 1, a := 1, b := 1 } fun s l =>
    dotFloat Fmt.e2m1 4 8 (fcsrFtz s.pre.fcsr) (s.word o l .a).toNat (s.word o l .b).toNat (s.word o l .d).toNat

/-- In every state in which the checks of R137 pass, QNT writes the code of its lane's element with the scale of the block above it, DQNT
the value that a code and a scale stand for, BXENC word L of the block in lane L, and BXDEC.bx3, .bx5 and .bx8 element L of the block
that the first 4, 6 or 9 lanes carry, as an exact f32; A of every lane of the wave is read, in the group or not. Nothing but the
results changes. The shared scale is that of R161, from the greatest magnitude of the block, and each element is divided by its scale
and rounded to nearest even with saturation; a block with a NaN is NaN; a decoded element is the element times its scale. (R427, R387, R365, R366, R159, R160, R161) -/
def Obligations.BlockQuantisation : Prop :=
  (∀ k o, Computes (.qnt k o) o { d := 1, a := 1, b := 1 } fun s l =>
    ⟨(quantise k.toNat (blockOf s.pre o)).2.getD l 0 + (quantise k.toNat (blockOf s.pre o)).1 * 256, 0⟩) ∧
  (∀ k o, Computes (.dqnt k o) o { d := 1, a := 1, b := 1 } fun s l =>
    ⟨dequantise k.toNat (s.word o l .a).toNat ((s.word o l .b).extractLsb' 0 8).toNat, 0⟩) ∧
  (∀ k o, Computes (.bxenc k o) o { d := 1, a := 1, b := 1 } fun s l =>
    ⟨bxEncode k.toNat (blockOf s.pre o) / 2 ^ (32 * l) % 2 ^ 32, 0⟩) ∧
  (∀ k (xs : List XV), k < 4 → xs.length = 32 →
    ((∃ x ∈ xs, x.isNan) → quantise k xs = (255, List.replicate 32 0)) ∧
    ((∀ x ∈ xs, x.isNan = false) → ∃ e : ℤ, ScaleExp ([8, 15, 2, 6].getD k 0) (greatest xs) e ∧
      (quantise k xs).1 = (e + 127).toNat ∧ (quantise k xs).2.length = 32 ∧
      ∀ i < 32, let x := xs.getD i (.zero false)
        let q := x.near / 2 ^ e
        let c := (quantise k xs).2.getD i 0
        if k = 3 then ∃ n, IntRounds 0 q n ∧ c = (BitVec.ofInt 8 (max (-128) (min n 127))).toNat
        else let f := [Fmt.e4m3, Fmt.e5m2, Fmt.e2m1].getD k Fmt.e4m3
          ∃ r, RoundedTo f 0 false true q x.sign r ∧ c = if r.bits % 2 ^ (f.width - 1) = 0 then 0 else r.bits)) ∧
  (∀ k a x8, k < 4 → x8 < 256 →
    let x := [decodeF Fmt.e4m3 (a % 256), decodeF Fmt.e5m2 (a % 256), decodeF Fmt.e2m1 (a % 16), XV.ofInteger (intOf 0 a)].getD k (.zero false)
    if x8 = 255 ∨ x.isNan then dequantise k a x8 = Fmt.f32.nan
    else (∀ p, x = .inf p → dequantise k a x8 = infCode Fmt.f32 p) ∧
      (x.isFinite → ∃ r, RoundedTo Fmt.f32 0 false false (x.rat * 2 ^ ((x8 : ℤ) - 127)) x.sign r ∧ dequantise k a x8 = r.bits)) ∧
  (∀ fmt (xs : List XV), fmt < 3 → xs.length = 32 →
    let k : Nat := [2, 4, 7].getD fmt 0
    let b := bxEncode fmt xs
    ((∃ x ∈ xs, x.isNan) → b = 255) ∧
    ((∀ x ∈ xs, x.isNan = false) → b < 2 ^ (16 + 32 * (k + 1)) ∧ ∃ e : ℤ, ScaleExp 0 (greatest xs) e ∧ b % 256 = (e + 127).toNat ∧
      ∀ g < 4, ∃ sh : ℕ, b / 2 ^ (8 + 2 * g) % 4 = sh ∧
        (let a := greatest ((xs.drop (8 * g)).take 8)
         (a = 0 → sh = 0) ∧ (a ≠ 0 → ∃ l : ℤ, (2 : ℚ) ^ l ≤ a ∧ a < 2 ^ (l + 1) ∧ (sh : ℤ) = min 3 (e - l))) ∧
        ∀ j < 8, let x := xs.getD (8 * g + j) (.zero false)
          ∃ n : ℤ, IntRounds 0 (|x.near| / 2 ^ (e - sh) * 2 ^ (k - 1)) n ∧
            let m := min n.toNat (2 ^ k - 1)
            b / 2 ^ (16 + (k + 1) * (8 * g + j)) % 2 ^ (k + 1) = if m = 0 then 0 else (if x.sign then 2 ^ k else 0) + m)) ∧
  ∀ o,
    let block := fun (s : State) (kw : Nat) => ((List.range kw).map fun j => (laneReader s.pre j o .w .a).toNat * 2 ^ (32 * j)).sum
    ∃ dec : Nat → Nat → Nat → Nat, (∀ fmt block i, fmt < 3 → i < 32 →
        let k : Nat := [2, 4, 7].getD fmt 0
        let e : Nat := block % 256
        let sg : Nat := block / 2 ^ (16 + k + (k + 1) * i) % 2
        let m : Nat := block / 2 ^ (16 + (k + 1) * i) % 2 ^ k
        let sh : Nat := block / 2 ^ (8 + 2 * (i / 8)) % 4
        dec fmt block i < 2 ^ 32 ∧
        if e = 255 then dec fmt block i = Fmt.f32.nan
        else if m = 0 then dec fmt block i = 0
        else Fmt.f32.finite (dec fmt block i) = true ∧
          Fmt.f32.rat (dec fmt block i) = (-1) ^ sg * ((m : ℚ) / 2 ^ (k - 1)) * 2 ^ ((e : ℤ) - 127 - sh)) ∧
      Computes (.bxdecBx3 o) o { d := 1, a := 1, b := 1 } (fun s l => ⟨dec 0 (block s 4) l, 0⟩) ∧
      Computes (.bxdecBx5 o) o { d := 1, a := 1, b := 1 } (fun s l => ⟨dec 1 (block s 6) l, 0⟩) ∧
      Computes (.bxdecBx8 o) o { d := 1, a := 1, b := 1 } (fun s l => ⟨dec 2 (block s 9) l, 0⟩)

/-- BALLOT writes the mask of the group's lanes whose A is not zero, ACTM that of those whose A equals this lane's, VANY and VALL all ones
where some or every such A is not zero, RANKL the one bits of A below the lane, ELECT all ones in the lowest lane alone, RDLN the value
that lane B[4:0] would read, in the group or not; SHFL, SHFLX, SHFLU and SHFLD take A of the lane they name, or the lane's own A where
that lane is not in the group. Each completes wherever the checks of R137 pass, no latch is invalidated, and nothing but the result
changes. WRLN writes A of each lane of the group into register D of the lane that B[4:0] names, in the group or not, so that the
highest such lane remains. (R250, R473, R326, R430, R349, R446, R447, R474) -/
def Obligations.LaneCrossing : Prop :=
  (∃ f : (Nat → Word) → BitVec 32 → Word,
    (∀ a m i, (f a m).getLsbD i = (m.getLsbD i && a i != 0)) ∧ ComputesLanes .ballot (fun a _ m _ => f a m)) ∧
  (∃ f : (Nat → Word) → BitVec 32 → Nat → Word,
    (∀ a m l i, (f a m l).getLsbD i = (m.getLsbD i && a i == a l)) ∧ ComputesLanes .actm (fun a _ m l => f a m l)) ∧
  ComputesLanes .vany (fun a _ m _ => if ∃ x ∈ lanesOf m, a x ≠ 0 then -1 else 0) ∧
  ComputesLanes .vall (fun a _ m _ => if ∀ x ∈ lanesOf m, a x ≠ 0 then -1 else 0) ∧
  ComputesLanes .rankl (fun a _ _ l => BitVec.ofNat 32 ((List.range l).filter (a l).getLsbD).length) ∧
  ComputesLanes .elect (fun _ _ m l => if ∀ x ∈ lanesOf m, l ≤ x then -1 else 0) ∧
  ComputesLanes .rdln (fun a b _ l => a ((b l).toNat % 32)) ∧
  ComputesLanes .shfl (fun a b m l => if m.getLsbD ((b l).toNat % 32) then a ((b l).toNat % 32) else a l) ∧
  ComputesLanes .shflx (fun a b m l => if m.getLsbD (l ^^^ ((b l).toNat % 32)) then a (l ^^^ ((b l).toNat % 32)) else a l) ∧
  ComputesLanes .shflu (fun a b m l => if (b l).toNat ≤ l ∧ m.getLsbD (l - (b l).toNat) then a (l - (b l).toNat) else a l) ∧
  ComputesLanes .shfld (fun a b m l => if l + (b l).toNat ≤ 31 ∧ m.getLsbD (l + (b l).toNat) then a (l + (b l).toNat) else a l) ∧
  ∀ o s, s.Clear (.wrln o) { d := 1, a := 1, b := 1 } → o.s = false → o.nw = false →
    ∃ t, exec (.wrln o) s = .next t ∧ s.Outside t ∧
      s.Frame t (.wrln o) { d := 1, a := 1, b := 1 }
        { put := fun x r => if r = s.pre.vb + o.d.toNat ∧ (s.w.lanes.find? x).isSome then
            ((lanesOf s.mask).reverse.find? fun l => (laneReader s.pre l o .w .b).toNat % 32 == x).map fun l => lo32 (laneReader s.pre l o .w .a)
          else none } ∧
      t.At s.mask (fun _ => s.nextPc)

/-- For the integer types REDA writes the sum of A over the group modulo 2^N in every lane, REDM its least or greatest value and SCANA the
sum over the lanes up to and including this one. For f32 and for each element of an f16 or bf16 pair, REDA is the tree of 32 leaves
with -0 for a lane outside the group, SCANA the prefix by the aligned nodes of that tree, and REDM the chain of FMIN or FMAX in lane
order. Two points are the model's choice: a SCANA prefix of one lane is read as by an add of -0 (log entry 56), and the chain of REDM
begins with the lowest lane compared with itself (log entry 16). Each completes wherever the checks of R137 pass and no enabled flag is
raised, and nothing but the results and FCSR.FLAGS changes. (R435, R436, R444, R167) -/
def Obligations.ReductionsAndScans : Prop :=
  (∀ t o, 4 ≤ t → t < 8 → (o.b.extractLsb' 0 4).toNat = t →
    let sp : Spans := { d := (redTy o).regs, a := (redTy o).regs, b := 1 }
    let val := fun (s : State) (x : Nat) => intOf t (laneReader s.pre x o (redTy o) .a).toNat
    Computes (.reda o) o sp (fun s _ => ⟨(BitVec.ofInt (intWidth t) ((lanesOf s.mask).map (val s)).sum).toNat, 0⟩) ∧
    Computes (.scana o) o sp (fun s l =>
      ⟨(BitVec.ofInt (intWidth t) (((lanesOf s.mask).filter (· ≤ l)).map (val s)).sum).toNat, 0⟩) ∧
    ∃ best : State → Int, (∀ s, s.mask ≠ 0 → (∃ x ∈ lanesOf s.mask, best s = val s x) ∧
        ∀ x ∈ lanesOf s.mask, if o.b.getLsbD 4 then val s x ≤ best s else best s ≤ val s x) ∧
      Computes (.redm o) o sp (fun s _ => ⟨(BitVec.ofInt (intWidth t) (best s)).toNat, 0⟩)) ∧
  (∀ o, (o.b.extractLsb' 0 4).toNat = 10 →
    let sp : Spans := { d := 1, a := 1, b := 1 }
    let env := fun (s : State) => ({ mode := 0, ftz := fcsrFtz s.pre.fcsr } : FEnv)
    let val := fun (s : State) (x : Nat) => (laneReader s.pre x o .w .a).toNat
    Computes (.reda o) o sp (fun s _ => treeSum (env s) Fmt.f32 5 (leaves Fmt.f32 (val s) s.mask)) ∧
    Computes (.scana o) o sp (fun s l =>
      ⟨(scanLane (env s) Fmt.f32 (leaves Fmt.f32 (val s) s.mask) l).bits,
        flagsOf (lanesOf s.mask) fun x => scanLane (env s) Fmt.f32 (leaves Fmt.f32 (val s) s.mask) x⟩) ∧
    Computes (.redm o) o sp (fun s _ => (lanesOf s.mask).foldl
      (fun acc x => ⟨(fMinMax (o.b.getLsbD 4) (env s) Fmt.f32 acc.bits (val s x)).bits,
        acc.flags ||| (fMinMax (o.b.getLsbD 4) (env s) Fmt.f32 acc.bits (val s x)).flags⟩)
      (fMinMax (o.b.getLsbD 4) (env s) Fmt.f32 (val s (lowest s.mask)) (val s (lowest s.mask))))) ∧
  ∀ t o, t = 8 ∨ t = 9 → (o.b.extractLsb' 0 4).toNat = t →
    let sp : Spans := { d := 1, a := 1, b := 1 }
    let f := fmtOfType t
    let env := fun (s : State) => ({ mode := 0, ftz := fcsrFtz s.pre.fcsr } : FEnv)
    let half := fun (s : State) (hi : Bool) (x : Nat) =>
      if hi then (laneReader s.pre x o .w .a).toNat / 65536 else (laneReader s.pre x o .w .a).toNat % 65536
    let both := fun (g : Bool → FRes) => (⟨(g false).bits + (g true).bits * 65536, (g false).flags ||| (g true).flags⟩ : FRes)
    Computes (.reda o) o sp (fun s _ => both fun hi => treeSum (env s) f 5 (leaves f (half s hi) s.mask)) ∧
    Computes (.scana o) o sp (fun s l => both fun hi =>
      ⟨(scanLane (env s) f (leaves f (half s hi) s.mask) l).bits,
        flagsOf (lanesOf s.mask) fun x => scanLane (env s) f (leaves f (half s hi) s.mask) x⟩) ∧
    Computes (.redm o) o sp (fun s _ => both fun hi => (lanesOf s.mask).foldl
      (fun acc x => ⟨(fMinMax (o.b.getLsbD 4) (env s) f acc.bits (half s hi x)).bits,
        acc.flags ||| (fMinMax (o.b.getLsbD 4) (env s) f acc.bits (half s hi x)).flags⟩)
      (fMinMax (o.b.getLsbD 4) (env s) f (half s hi (lowest s.mask)) (half s hi (lowest s.mask))))

/-- BR sends the group to its own address plus 4 times its offset; BRC sends the lanes whose C is not zero there and the others past it;
CALL writes the address past it to the pair of window code 94 and branches; CALLX and RET go to each lane's own target where its bits
[1:0] are zero, CALLX with the return address in D. Each completes wherever the checks of R137 pass, every latch is invalidated, and
nothing else changes. (R362, R367, R368, R438, R112, R113) -/
def Obligations.BranchesCallsAndReturns : Prop :=
  (∀ off s, s.Clear (.br off) spans1 → ∃ t, exec (.br off) s = .next t ∧ s.Outside t ∧ s.Frame t (.br off) spans1 {} ∧
    t.At s.mask fun _ => s.cur.pc + off.signExtend 64 * 4) ∧
  (∀ c off s, s.Clear (.brc c off) spans1 → ∃ t, exec (.brc c off) s = .next t ∧ s.Outside t ∧ s.Frame t (.brc c off) spans1 {} ∧
    t.At s.mask fun l => if readV s.pre l 0 .w c ≠ 0 then s.cur.pc + off.signExtend 64 * 4 else s.nextPc) ∧
  (∀ off s, s.Clear (.call off) spans1 → ∃ t, exec (.call off) s = .next t ∧ s.Outside t ∧
    s.Frame t (.call off) spans1
      { put := fun l r =>
          if s.mask.getLsbD l then
            (if r = s.pre.vb + 94 then some (lo32 s.nextPc) else if r = s.pre.vb + 95 then some (hi32 s.nextPc) else none)
          else none } ∧
    t.At s.mask fun _ => s.cur.pc + off.signExtend 64 * 4) ∧
  (∀ o s, s.Clear (.callx o) { d := 2, a := 2, b := 1 } → o.s = false →
    (∀ l, s.mask.getLsbD l = true → (reader s.pre o l .n .a).toNat % 4 = 0) →
    ∃ t, exec (.callx o) s = .next t ∧ s.Outside t ∧
      s.Frame t (.callx o) { d := 2, a := 2, b := 1 }
        { put := fun l r =>
            if s.mask.getLsbD l then
              (if r = s.pre.vb + o.d.toNat then some (lo32 s.nextPc)
               else if r = s.pre.vb + o.d.toNat + 1 then some (hi32 s.nextPc) else none)
            else none } ∧
      t.At s.mask fun l => reader s.pre o l .n .a) ∧
  ∀ o s, s.Clear (.ret o) { d := 1, a := 2, b := 1 } → o.s = false →
    (∀ l, s.mask.getLsbD l = true → (reader s.pre o l .n .a).toNat % 4 = 0) →
    ∃ t, exec (.ret o) s = .next t ∧ s.Outside t ∧ s.Frame t (.ret o) { d := 1, a := 2, b := 1 } {} ∧
      t.At s.mask fun l => reader s.pre o l .n .a

/-- For lanes outside try regions whose index A is below the bound and whose table entry lies in the TLB or the heap window: BRX reads the
entry at B plus 4 or 8 times A as a load does, and the lane goes to the branch's own address plus the signed 32-bit entry, or to the
64-bit entry itself, where bits [1:0] of that target are zero. Where every lane's index is at or above the bound and the group can
trap, every lane takes BRX_BOUND with TINFO the lane number and TADDR 0. A BRX with S set is no well-formed instruction: the rules give
BRX no scalar form. (R364, R247) -/
def Obligations.IndexedBranchReadsItsTable : Prop :=
  (∀ o c, (Instr.brx o c).wf = true → o.s = false) ∧
  (∀ o c s p, s.Clear (.brx o c) { d := 1, a := 1, b := 2 } → s.Direct → o.s = false → s.members = 0 →
    let n := if c.sub = 1 then 8 else 4
    let idx := fun l => (reader s.pre o l .w .a).toNat
    let entry := fun l => (p l).value n (s.byteBy (s.seen s.coreNo))
    let target := fun l => if c.sub = 1 then BitVec.ofNat 64 (entry l) else s.cur.pc + (BitVec.ofNat 32 (entry l)).signExtend 64
    s.Placed o 0 0 n (fun l => reader s.pre o l .n .b + BitVec.ofNat 64 (n * idx l)) p →
    (∀ l, s.mask.getLsbD l = true → idx l < (c.spec.extractLsb' 0 16).toNat ∧ (target l).toNat % 4 = 0) →
    ∃ t, exec (.brx o c) s = .next t ∧ s.OutsideL1 t ∧ s.Frame t (.brx o c) { d := 1, a := 1, b := 2 } {} ∧ t.At s.mask target) ∧
  ∀ o c s, s.Clear (.brx o c) { d := 1, a := 1, b := 2 } → o.s = false → s.CanTrap →
    (∀ l, s.mask.getLsbD l = true → (c.spec.extractLsb' 0 16).toNat ≤ (reader s.pre o l .w .a).toNat) →
    ∃ t, exec (.brx o c) s = .next t ∧ s.Outside t ∧ s.Took t s.mask 8 (fun l => BitVec.ofNat 32 l) (fun _ => 0) ∧
      ∀ l, s.mask.getLsbD l = false → (t.w.lane l).pc = (s.w.lane l).pc ∧ (t.w.lane l).life = (s.w.lane l).life

/-- JENR adds the group to the enrolled mask of its join register and clears stale arrivals of an empty one. JWAIT on a register that
enrols none of the group goes on; where the group's arrivals make the arrived mask the enrolled one and no lane in a handler, Blocked
or Parked holds the join open, the register returns to zero and the group and every lane Held on it go on past their own JWAIT;
otherwise the enrolled lanes of the group are Held and the register keeps their bits, while some live lane stays outside Held. SYNCW,
where every lane of the group names one mask that contains it and no sync of another mask or order is pending: if the arrivals make up
the mask and nothing holds the sync open, the SYNCW state returns to zero and the group and every lane Held at SYNCW go on past their
own; otherwise the group is Held, its mask and order pending and its bits arrived, while every lane of the mask is live and some live
lane stays outside Held. Nothing else changes. (R46, R47, R403, R456, R457) -/
def Obligations.JoinsAndSyncs : Prop :=
  (∀ o s, s.Clear (.jenr o) spans1 →
    let j := s.w.join o.a.toNat
    let j' : Join := { enrolled := j.enrolled ||| s.mask, arrived := if j.enrolled = (0 : BitVec 32) then 0 else j.arrived }
    ∃ t, exec (.jenr o) s = .next t ∧ s.Outside t ∧
      s.Frame t (.jenr o) spans1
        { wave := fun w => { w with joins := w.joins.put o.a.toNat j' } } ∧
      t.At s.mask fun _ => s.nextPc) ∧
  (∀ o s, s.Clear (.jwait o) spans1 →
    let n := o.a.toNat
    let j := s.w.join n
    let m := s.mask &&& j.enrolled
    (m = 0 → ∃ t, exec (.jwait o) s = .next t ∧ s.Outside t ∧ s.Frame t (.jwait o) spans1 {} ∧ t.At s.mask fun _ => s.nextPc) ∧
    (m ≠ 0 → j.arrived ||| m = j.enrolled → j.enrolled &&& s.w.holdOpen n m = 0 →
      ∃ t, exec (.jwait o) s = .next t ∧ s.Outside t ∧
        s.Frame t (.jwait o) spans1 { wave := fun w => { w with joins := w.joins.del n }, moved := fun l => (s.w.lane l).heldOn n } ∧
        t.At s.mask (fun _ => s.nextPc) ∧
        ∀ l next, s.mask.getLsbD l = false → (s.w.lane l).life = .held n next → (t.w.lane l).pc = next ∧ (t.w.lane l).life = .ready) ∧
    (m ≠ 0 → ¬ (j.arrived ||| m = j.enrolled ∧ j.enrolled &&& s.w.holdOpen n m = 0) →
      (∃ l, l < 32 ∧ (s.w.lane l).live = true ∧ m.getLsbD l = false ∧ ∀ x next, (s.w.lane l).life ≠ .held x next) →
      ∃ t, exec (.jwait o) s = .next t ∧ s.Outside t ∧
        s.Frame t (.jwait o) spans1 { wave := fun w => { w with joins := w.joins.put n { j with arrived := j.arrived ||| m } } } ∧
        (t.At (s.mask &&& ~~~ m) fun _ => s.nextPc) ∧
        ∀ l, m.getLsbD l = true → (t.w.lane l).life = .held n s.nextPc ∧ (t.w.lane l).pc = (s.w.lane l).pc)) ∧
  ∀ o c s (M : BitVec 32), s.Clear (.syncw o c) spans1 → o.s = false →
    (∀ l, s.mask.getLsbD l = true → lo32 (reader s.pre o l .w .a) = M ∧ M.getLsbD l = true) →
    (s.w.sync.pending = none ∨ (s.w.sync.pending = some (M, c.order) ∧ s.w.sync.arrived &&& s.mask = 0)) →
    let arrived := (if s.w.sync.pending.isSome then s.w.sync.arrived else 0) ||| s.mask
    (arrived = M → M &&& s.w.holdOpen 4 s.mask = 0 →
      ∃ t, exec (.syncw o c) s = .next t ∧ s.Outside t ∧
        s.Frame t (.syncw o c) spans1 { wave := fun w => { w with sync := { pending := none, arrived := 0 } },
                                        moved := fun l => (s.w.lane l).heldOn 4 } ∧
        t.At s.mask (fun _ => s.nextPc) ∧
        ∀ l next, s.mask.getLsbD l = false → (s.w.lane l).life = .held 4 next → (t.w.lane l).pc = next ∧ (t.w.lane l).life = .ready) ∧
    (¬ (arrived = M ∧ M &&& s.w.holdOpen 4 s.mask = 0) → M &&& ~~~ s.w.live = 0 →
      (∃ l, l < 32 ∧ (s.w.lane l).live = true ∧ s.mask.getLsbD l = false ∧ ∀ x next, (s.w.lane l).life ≠ .held x next) →
      ∃ t, exec (.syncw o c) s = .next t ∧ s.Outside t ∧
        s.Frame t (.syncw o c) spans1 { wave := fun w => { w with sync := { pending := some (M, c.order), arrived := arrived } } } ∧
        ∀ l, s.mask.getLsbD l = true → (t.w.lane l).life = .held 4 s.nextPc ∧ (t.w.lane l).pc = (s.w.lane l).pc)

/-- EXIT answers a next state in which every lane of the group is Exited, whatever joins, regions or syncs it leaves. Where the wave has no
join open and no sync pending, no lane of the group is resident of generated code and some live lane outside the group is not Held,
nothing but those lanes changes; where no live lane is left, no store of the wave waits and it has other waves in its team, the wave is
gone and nothing else changes. (R391, R32, R34) -/
def Obligations.ExitEndsLanesAndWave : Prop :=
  ∀ o s, s.Clear (.exit o) spans1 →
    ∃ t, exec (.exit o) s = .next t ∧ (∀ l, s.mask.getLsbD l = true → (t.w.lane l).life = .exited) ∧
      (s.w.joins = [] → s.w.sync.pending = none →
        (∀ l, s.mask.getLsbD l = true → (s.w.lane l).resid = none ∧ (s.w.lane l).hresid = none) →
        (((∃ l, l < 32 ∧ (s.w.lane l).live = true ∧ s.mask.getLsbD l = false ∧ ∀ x next, (s.w.lane l).life ≠ .held x next) →
          s.Outside t ∧ s.Frame t (.exit o) spans1 {} ∧
          ∀ l, s.mask.getLsbD l = true → (t.w.lane l).pc = (s.w.lane l).pc) ∧
         (s.w.stores = [] → (∀ l, l < 32 → s.mask.getLsbD l = false → (s.w.lane l).life = .exited) →
          t.waves.find? s.cur.wave = none ∧
          ((∃ k, k ≠ s.cur.wave ∧ k / 64 = s.tid ∧ (s.waves.find? k).isSome) →
            (∀ k, k ≠ s.cur.wave → t.waves.find? k = s.waves.find? k) ∧ t.mem = s.mem ∧ t.teams = s.teams ∧ t.mod = s.mod))))

/-- WBASE with two bases that are multiples of 16 within their limits, or all ones, sets VB and SB (all ones keeps one), and writes the old
bases to D in the old window; with another base and a handler it traps with ILLEGAL_OPERAND, TINFO 0, and writes nothing. NOP goes on
and changes nothing, not even a latch. YIELD goes on, orders the wave as if placed at this clk and moves a critical one to the end of
the critical order. SLEEP goes on in the lanes whose count is 0 and blocks each other lane until its count of clk has passed. (R72, R418, R477, R448) -/
def Obligations.WindowNopYieldAndSleep : Prop :=
  (∀ o s, s.Clear (.wbase o) spans1 → o.s = true →
    let va := lo32 (readS s.pre o.lit .w o.a)
    let sa := lo32 (readS s.pre o.lit .w o.b)
    ((va = -1 ∨ (va.toNat % 16 = 0 ∧ va.toNat ≤ 416)) ∧ (sa = -1 ∨ (sa.toNat % 16 = 0 ∧ sa.toNat ≤ 160)) →
      ∃ t, exec (.wbase o) s = .next t ∧ s.Outside t ∧
        s.Frame t (.wbase o) spans1
          { puts := fun m => if m = s.pre.sb + o.d.toNat then some (BitVec.ofNat 32 (s.pre.sb * 65536 + s.pre.vb)) else none,
            wave := fun w => { w with vb := if va = -1 then w.vb else va.toNat, sb := if sa = -1 then w.sb else sa.toNat } } ∧
        t.At s.mask fun _ => s.nextPc) ∧
    (¬ ((va = -1 ∨ (va.toNat % 16 = 0 ∧ va.toNat ≤ 416)) ∧ (sa = -1 ∨ (sa.toNat % 16 = 0 ∧ sa.toNat ≤ 160))) → s.CanTrap →
      ∃ t, exec (.wbase o) s = .next t ∧ s.Outside t ∧ s.Took t s.mask 2 (fun _ => 0) (fun _ => 0) ∧
        t.w.vb = s.w.vb ∧ t.w.sb = s.w.sb ∧ ∀ m, t.w.sreg m = s.w.sreg m)) ∧
  (∀ o s, s.Clear (.nop o) spans1 → ∃ t, exec (.nop o) s = .next t ∧ s.Outside t ∧ s.Frame t (.nop o) spans1 {} ∧
    t.At s.mask fun _ => s.nextPc) ∧
  (∀ o s, s.Clear (.yield o) spans1 → ∃ t, exec (.yield o) s = .next t ∧
    { t with waves := s.waves, cur := s.cur, cores := s.cores } = s ∧
    (∀ c, t.core c = if c = s.coreNo ∧ (s.core c).crit.contains s.cur.wave then
        { s.core c with crit := (s.core c).crit.filter (· != s.cur.wave) ++ [s.cur.wave] } else s.core c) ∧
    s.Frame t (.yield o) spans1 { wave := fun w => { w with order := s.clk } } ∧ t.At s.mask fun _ => s.nextPc) ∧
  ∀ o s, s.Clear (.sleep o) spans1 → o.s = false →
    ∃ t, exec (.sleep o) s = .next t ∧ s.Outside t ∧ s.Frame t (.sleep o) spans1 {} ∧
      ∀ l, s.mask.getLsbD l = true →
        if (reader s.pre o l .w .a).toNat = 0 then (t.w.lane l).pc = s.nextPc ∧ (t.w.lane l).life = .ready
        else (t.w.lane l).pc = (s.w.lane l).pc ∧
          (t.w.lane l).life = .blocked (.sleep (s.clk + (reader s.pre o l .w .a).toNat) s.nextPc)

/-- For a group outside try regions whose addresses are aligned, permitted and found in the TLB or the heap window, with no access early or
late: LD reads global memory as the executing core sees it, LDT the team's memory, LDP the die scratchpad, and LDE the word at the
address of the lane's rank in the group; each writes the bytes to D, narrow ones sign- or zero-extended, as a vector or a scalar
instruction. The lanes go on, the latches are invalidated, and nothing else changes: every byte of memory, as any core sees it, is as
it was. (R405, R406, R407, R251, R168, R195) -/
def Obligations.LoadsReadWhatTheCoreSees : Prop :=
  (∀ (mk : BitVec 3 → Ops → Instr) (space : Nat), (mk, space) ∈ [(.ld, 0), (.ldt, 1), (.ldp, 2)] →
    ∀ k o s p, k.toNat ≤ 6 → s.Clear (mk k o) (loadSpans (loadForm k.toNat).1 space) → s.Direct → s.members = 0 →
      let n := (loadForm k.toNat).1
      s.Placed o space 0 n (fun l => addrAB space (reader s.pre o l)) p →
      ∃ t, exec (mk k o) s = .next t ∧ s.OutsideL1 t ∧
        s.Frame t (mk k o) (loadSpans n space) (s.puts (mk k o) o (regsFor n) fun l j =>
          loadedWord n (loadForm k.toNat).2 ((p l).value n (s.byteBy (s.seen s.coreNo))) j) ∧
        t.At s.mask fun _ => s.nextPc) ∧
  ∀ o s p, s.Clear (.lde o) (loadSpans 4 0) → s.Direct → s.members = 0 → o.s = false →
    s.Placed o 0 0 4 (fun l => addrAB 0 (reader s.pre o l) + BitVec.ofNat 64 (4 * ((lanesOf s.mask).filter (· < l)).length)) p →
    ∃ t, exec (.lde o) s = .next t ∧ s.OutsideL1 t ∧
      s.Frame t (.lde o) (loadSpans 4 0) (s.puts (.lde o) o 1 fun l j =>
        loadedWord 4 false ((p l).value 4 (s.byteBy (s.seen s.coreNo))) j) ∧
      t.At s.mask fun _ => s.nextPc

/-- For a group outside try regions whose addresses are aligned, permitted and found in the TLB or the heap window, with no access early or
late: ST, STT, STP and STC store the low bytes of the registers that D names, little-endian, lane after lane in ascending order, STC at
the address of the lane's rank. Afterwards the executing core sees those bytes there, and every other byte, of global memory, of every
team and of every die, is as it was. No register changes, the lanes go on, and only the conflict flags of lanes that watch the stored
lines may differ. (R451, R452, R453, R251, R168, R195) -/
def Obligations.StoresWriteTheirBytes : Prop :=
  ∀ (i : Instr) (o : Ops) (space n : Nat) (rank : Bool) (s : State) (p : Nat → Place),
    ((∃ k : BitVec 3, k.toNat ≤ 4 ∧ n = 2 ^ k.toNat ∧ rank = false ∧
        ((i = .st k o ∧ space = 0) ∨ (i = .stt k o ∧ space = 1) ∨ (i = .stp k o ∧ space = 2))) ∨
      (i = .stc o ∧ space = 0 ∧ n = 4 ∧ rank = true ∧ o.s = false)) →
    s.Clear i (loadSpans n space) → s.members = 0 → s.Direct →
    s.Placed o space 1 n (fun l => addrAB space (reader s.pre o l) +
      (if rank then BitVec.ofNat 64 (4 * ((lanesOf s.mask).filter (· < l)).length) else 0)) p →
    ∃ t, exec i s = .next t ∧ s.OutsideMem t ∧ s.calm.Frame t.calm i (loadSpans n space) {} ∧ (t.At s.mask fun _ => s.nextPc) ∧
      (∀ q, t.byteBy (t.seen s.coreNo) q =
        (rmwAll n p (fun l _ => some (readRegs s.pre o l (regsFor n))) (s.byteBy (s.seen s.coreNo)) (s.acts o)).1 q) ∧
      (∀ q, t.byteBy (t.settled s.coreNo) q =
        (rmwAll n p (fun l _ => some (readRegs s.pre o l (regsFor n))) (s.byteBy (s.settled s.coreNo)) (s.acts o)).1 q) ∧
      (∀ c, c ≠ s.coreNo → t.core c = s.core c) ∧ (space ≠ 0 ∨ (s.poison = [] ∧ (s.core s.coreNo).l1.length + 32 ≤ l1Lines) → t.mem = s.mem)

/-- For a group outside try regions whose addresses are aligned, permitted and found in the TLB or the heap window, with no access early or
late: LDA writes to D the bytes at each lane's address, below die scope as the core sees them, from die scope up with what the core
holds dirty written back; STL stores the low bytes of D. A release from die scope up leaves no dirty line in the core and an acquire no
clean one. Every byte that is not stored to is, with the core's own dirty bytes written back, as it was; the other cores' caches and
all other state are unchanged. (R408, R454, R131, R195, R196) -/
def Obligations.OrderedLoadsAndStores : Prop :=
  (∀ o c s p, s.Clear (.lda o c) (loadSpans (typeBytes c.type.toNat) c.space) → s.Direct → s.members = 0 → s.poison = [] → c.space < 3 →
    let n := typeBytes c.type.toNat
    s.Placed o c.space 0 n (fun l => addrAB c.space (reader s.pre o l)) p →
    ∃ t, exec (.lda o c) s = .next t ∧ s.OutsideMem t ∧
      s.calm.Frame t.calm (.lda o c) (loadSpans n c.space) (s.puts (.lda o c) o (regsFor n) fun l j =>
        loadedWord n (typeSigned c.type.toNat)
          ((p l).value n (s.byteBy (if 3 ≤ c.scope.toNat then s.settled s.coreNo else s.seen s.coreNo))) j) ∧
      (t.At s.mask fun _ => s.nextPc) ∧ (∀ q, t.byteBy (t.settled s.coreNo) q = s.byteBy (s.settled s.coreNo) q) ∧
      (∀ d, d ≠ s.coreNo → t.core d = s.core d) ∧ (c.scope.toNat < 3 → t.mem = s.mem) ∧
      (c.order = 3 → 3 ≤ c.scope.toNat → ∀ a, Memory.read t.mem a = s.settled s.coreNo a) ∧
      (acquires c = true → 3 ≤ c.scope.toNat → ∀ a x, (t.core s.coreNo).l1.find? a = some x → x.dirty ≠ 0)) ∧
  ∀ o c s p, s.Clear (.stl o c) (loadSpans (typeBytes c.type.toNat) c.space) → s.members = 0 → s.poison = [] → c.space < 3 →
    s.Direct →
    let n := typeBytes c.type.toNat
    s.Placed o c.space 1 n (fun l => addrAB c.space (reader s.pre o l)) p →
    ∃ t, exec (.stl o c) s = .next t ∧ s.OutsideMem t ∧ s.calm.Frame t.calm (.stl o c) (loadSpans n c.space) {} ∧
      (t.At s.mask fun _ => s.nextPc) ∧
      (∀ q, t.byteBy (t.settled s.coreNo) q =
        (rmwAll n p (fun l _ => some (readRegs s.pre o l (regsFor n))) (s.byteBy (s.settled s.coreNo)) (s.acts o)).1 q) ∧
      (∀ d, d ≠ s.coreNo → t.core d = s.core d) ∧
      (3 ≤ c.scope.toNat → c.space = 0 → ∀ l ∈ s.acts o, ∀ j, j < n → ∀ pa, (p l) = .mem pa →
        Memory.read t.mem (pa + j) = t.settled s.coreNo (pa + j))

/-- For a group whose addresses are aligned, permitted and found in the TLB or the heap window, with no access early or late and no other
core holding one of the lines dirty: lane after lane in ascending order, ATOM and RED replace the old value by the operation of sub on
it and B, CAS by its swap value where the old value equals D, and ATOM and CAS write the old value to D. The operations of sub are
those of R132: add, signed or unsigned or float, least, greatest, and, or, exclusive or, exchange, and the wrapping increment and
decrement. The bytes are performed past the L1; every other byte is, with what the core holds dirty written back, as it was, and no
other register or state changes. (R353, R354, R369, R433, R434, R132, R195, R200) -/
def Obligations.AtomicsReadModifyWrite : Prop :=
  (∀ (type old b : Nat), old < 2 ^ (8 * typeBytes type) → b < 2 ^ (8 * typeBytes type) →
    (type ∈ [4, 5, 6, 7] →
      typeBytes type = (if type < 6 then 4 else 8) ∧
      atomOp 0 type old b = (old + b) % 2 ^ (8 * typeBytes type) ∧
      atomOp 1 type old b = (if intOf type b < intOf type old then b else old) ∧
      atomOp 2 type old b = (if intOf type old < intOf type b then b else old)) ∧
    (type ∈ [4, 5, 6, 7, 15] → atomOp 3 type old b = old &&& b ∧ atomOp 4 type old b = old ||| b ∧ atomOp 5 type old b = old ^^^ b ∧
      atomOp 6 type old b = b) ∧
    (type = 5 → atomOp 7 type old b = (if b ≤ old then 0 else old + 1) ∧
      atomOp 8 type old b = (if old = 0 ∨ b < old then b else old - 1)) ∧
    (type = 10 ∨ type = 11 →
      let f := if type = 10 then Fmt.f32 else Fmt.f64
      typeBytes type = (if type = 10 then 4 else 8) ∧
      atomOp 0 type old b = (fAdd ⟨0, false⟩ f old b).bits ∧ atomOp 1 type old b = (fMinMax false ⟨0, false⟩ f old b).bits ∧
      atomOp 2 type old b = (fMinMax true ⟨0, false⟩ f old b).bits)) ∧
  let data := fun (s : State) (o : Ops) (n l : Nat) => (reader s.pre o l (if n = 8 then .n else .w) .b).toNat
  let alone := fun (s : State) (o : Ops) (p : Nat → Place) => ∀ l ∈ s.acts o, ∀ pa, p l = .mem pa → ∀ d, d ≠ s.coreNo →
    ∀ x, (s.core d).l1.find? (pa / 128) = some x → x.dirty = 0
  let leaves := fun (s t : State) (i : Instr) (o : Ops) (c : Ctl) (n : Nat) (p : Nat → Place) (f : Nat → Nat → Option Nat) (wr : Bool) =>
    let r := rmwAll n p f (s.byteBy (s.settled s.coreNo)) (s.acts o)
    exec i s = .next t ∧ s.OutsideMem t ∧
      s.calm.Frame t.calm i (atomSpans n c.space) (if wr then s.puts i o (regsFor n) (fun l j => wordAt (r.2 l) j) else {}) ∧
      (t.At s.mask fun _ => s.nextPc) ∧ ∀ q, t.byteBy (t.settled s.coreNo) q = r.1 q
  (∀ o c s p, s.Clear (.atom o c) (atomSpans (typeBytes c.type.toNat) c.space) → Encoding.ctlOk (.atom o c) → s.poison = [] →
    s.Direct → s.Placed o c.space 2 (typeBytes c.type.toNat) (fun l => addrA c.space (reader s.pre o l)) p → alone s o p →
    ∃ t, leaves s t (.atom o c) o c (typeBytes c.type.toNat) p
      (fun l old => some (atomOp c.sub.toNat c.type.toNat old (data s o (typeBytes c.type.toNat) l))) true) ∧
  (∀ o c s p, s.Clear (.red o c) (atomSpans (typeBytes c.type.toNat) c.space) → Encoding.ctlOk (.red o c) → s.poison = [] →
    s.Direct → s.Placed o c.space 2 (typeBytes c.type.toNat) (fun l => addrA c.space (reader s.pre o l)) p → alone s o p →
    ∃ t, leaves s t (.red o c) o c (typeBytes c.type.toNat) p
      (fun l old => some (atomOp c.sub.toNat c.type.toNat old (data s o (typeBytes c.type.toNat) l))) false) ∧
  ∀ o c s p, s.Clear (.cas o c) (atomSpans (typeBytes c.type.toNat) c.space) → Encoding.ctlOk (.cas o c) → s.poison = [] →
    s.Direct → s.Placed o c.space 2 (typeBytes c.type.toNat) (fun l => addrA c.space (reader s.pre o l)) p → alone s o p →
    ∃ t, leaves s t (.cas o c) o c (typeBytes c.type.toNat) p
      (fun l old => if old = readRegs s.pre o l (regsFor (typeBytes c.type.toNat)) then some (data s o (typeBytes c.type.toNat) l) else none) true

/-- FENCE goes on in every lane, and what its lanes have loaded early counts no more where it acquires; from die scope up, a releasing one
leaves in memory every byte the core held dirty, and an acquiring one drops the core's clean lines. PF fills where the L1 has room, CWB
writes back and CINV writes back and drops the line at each lane's address where that address translates for a read, and does nothing
where it does not, each after the lanes' own accesses to the line, of which none is early or late here; each goes on in every lane.
That the translation asks for read permission is the model's choice (log entry 40: the rule says "not permitted" and names no kind).
With what the core holds dirty written back, every byte is as it was, and the other cores and all other state are unchanged. (R398, R421, R370, R195, R196) -/
def Obligations.FencesAndLineOperations : Prop :=
  (∀ o c s, s.Clear (.fence o c) spans1 → ∃ t, exec (.fence o c) s = .next t ∧ s.OutsideMem t ∧
    s.calm.Frame t.calm (.fence o c) spans1
      { lane := fun l x => if c.order.toNat % 2 = 1 ∧ s.mask.getLsbD l = true then { x with early := [] } else x } ∧ (t.At s.mask fun _ => s.nextPc) ∧
    (∀ d, d ≠ s.coreNo → t.core d = s.core d) ∧ t.teams = s.teams ∧ (∀ d, t.die d = s.die d) ∧
    (∀ a, t.settled s.coreNo a = s.settled s.coreNo a) ∧ (c.scope.toNat < 3 → t.mem = s.mem) ∧
    (3 ≤ c.scope.toNat → 2 ≤ c.order.toNat → ∀ a, Memory.read t.mem a = s.settled s.coreNo a) ∧
    (3 ≤ c.scope.toNat → c.order.toNat % 2 = 1 → ∀ a x, (t.core s.coreNo).l1.find? a = some x → x.dirty ≠ 0)) ∧
  ∀ (mk : Ops → Instr), mk ∈ [Instr.pf, Instr.cwb, Instr.cinv] → ∀ o s, s.Clear (mk o) { d := 1, a := 2, b := 1 } → s.Orderly → s.poison = [] →
    (∀ pa : Nat → Nat, (∀ l ∈ s.acts o, s.translate s.coreNo s.ctxNo (addrAB 0 (reader s.pre o l)) 0 = (s, .ok (pa l))) →
      ∃ t, exec (mk o) s = .next t ∧ s.OutsideMem t ∧ s.calm.Frame t.calm (mk o) { d := 1, a := 2, b := 1 } {} ∧
        (t.At s.mask fun _ => s.nextPc) ∧ (∀ d, d ≠ s.coreNo → t.core d = s.core d) ∧ t.teams = s.teams ∧ (∀ d, t.die d = s.die d) ∧
        (∀ a, t.settled s.coreNo a = s.settled s.coreNo a) ∧ (mk o = .pf o → t.mem = s.mem) ∧
        ∀ l ∈ s.acts o,
          (mk o = .pf o → (s.core s.coreNo).l1.length + 32 ≤ l1Lines → t.l1Has s.coreNo (pa l / 128) = true) ∧
          (mk o = .cwb o → ∀ j, j < 128 → Memory.read t.mem (pa l / 128 * 128 + j) = s.settled s.coreNo (pa l / 128 * 128 + j)) ∧
          (mk o = .cinv o → t.l1Has s.coreNo (pa l / 128) = false ∧
            ∀ j, j < 128 → Memory.read t.mem (pa l / 128 * 128 + j) = s.settled s.coreNo (pa l / 128 * 128 + j))) ∧
    ((∀ l ∈ s.acts o, ∃ e, s.translate s.coreNo s.ctxNo (addrAB 0 (reader s.pre o l)) 0 = (s, .error e)) →
      ∃ t, exec (mk o) s = .next t ∧ s.Outside t ∧ s.Frame t (mk o) { d := 1, a := 2, b := 1 } {} ∧ t.At s.mask fun _ => s.nextPc)

/-- With no access of the wave early or late: PUSHV with room for 128 more bytes stores register D of each lane of the group at SSP + 4 L
of the wave's spill memory, as a store of the core does, and adds 128 to SSP; POPV with at least 128 bytes subtracts 128 and reads
register D of each lane of the group back from SSP + 4 L as a load does. Every other byte, as the core sees it, and all other state is
unchanged. A word that is poisoned traps its lane with SOFT_ERROR; that TADDR is then the physical address, and that SSP has moved all
the same, is the model's choice (log entry 64). Where there is no room, or nothing to pop, and the group can trap, every lane takes
SPILL_LIMIT with TINFO the old SSP, and neither SSP nor the stack changes. (R80, R423, R424, R241) -/
def Obligations.SpillStackPushAndPop : Prop :=
  (∀ o s, s.Clear (.pushv o) spans1 → s.Direct → o.s = false → s.pre.spillAt.toNat % 4 = 0 → s.pre.ssp % 4 = 0 →
    let p := fun (l : Nat) => Place.mem (s.pre.spillAt.toNat + s.pre.ssp + 4 * l)
    (s.pre.ssp + 128 ≤ s.pre.sslim →
      ∃ t, exec (.pushv o) s = .next t ∧ s.OutsideMem t ∧
        s.calm.Frame t.calm (.pushv o) spans1 { wave := fun w => { w with ssp := s.pre.ssp + 128 } } ∧ (t.At s.mask fun _ => s.nextPc) ∧
        (∀ q, t.byteBy (t.seen s.coreNo) q =
          (rmwAll 4 p (fun l _ => some ((s.pre.lane l).reg (s.pre.vb + o.d.toNat)).toNat) (s.byteBy (s.seen s.coreNo)) (lanesOf s.mask)).1 q) ∧
        (∀ q, t.byteBy (t.settled s.coreNo) q =
          (rmwAll 4 p (fun l _ => some ((s.pre.lane l).reg (s.pre.vb + o.d.toNat)).toNat) (s.byteBy (s.settled s.coreNo)) (lanesOf s.mask)).1 q) ∧
        ∀ c, c ≠ s.coreNo → t.core c = s.core c) ∧
    (s.pre.sslim < s.pre.ssp + 128 → s.CanTrap →
      ∃ t, exec (.pushv o) s = .next t ∧ s.Outside t ∧ s.Took t s.mask 0x10 (fun _ => BitVec.ofNat 32 s.pre.ssp) (fun _ => 0) ∧
        t.w.ssp = s.w.ssp)) ∧
  ∀ o s, s.Clear (.popv o) spans1 → s.Direct → o.s = false → o.nw = false → s.pre.spillAt.toNat % 4 = 0 → s.pre.ssp % 4 = 0 →
    let at' := fun (l : Nat) => s.pre.spillAt.toNat + (s.pre.ssp - 128) + 4 * l
    (128 ≤ s.pre.ssp → (∀ l, s.mask.getLsbD l = true → s.poisonAt (at' l) 4 = none) →
      ∃ t, exec (.popv o) s = .next t ∧ s.OutsideL1 t ∧
        s.Frame t (.popv o) spans1
          { put := fun l r => if s.mask.getLsbD l ∧ r = s.pre.vb + o.d.toNat then
              some (BitVec.ofNat 32 ((Place.mem (at' l)).value 4 (s.byteBy (s.seen s.coreNo)))) else none,
            wave := fun w => { w with ssp := s.pre.ssp - 128 } } ∧
        t.At s.mask fun _ => s.nextPc) ∧
    (128 ≤ s.pre.ssp → s.CanTrap → ∀ info : Nat → Nat, (∀ l, s.mask.getLsbD l = true → s.poisonAt (at' l) 4 = some (info l)) →
      ∃ t, exec (.popv o) s = .next t ∧ s.Outside t ∧
        s.Took t s.mask 0x12 (fun l => BitVec.ofNat 32 (info l)) (fun l => BitVec.ofNat 64 (at' l)) ∧ t.w.ssp = s.pre.ssp - 128) ∧
    (s.pre.ssp < 128 → s.CanTrap →
      ∃ t, exec (.popv o) s = .next t ∧ s.Outside t ∧ s.Took t s.mask 0x10 (fun _ => BitVec.ofNat 32 s.pre.ssp) (fun _ => 0) ∧
        t.w.ssp = s.w.ssp)

/-- Where every lane's address of an LD, ST, LDT, STT, LDP, STP, LDE, STC, LDA, STL, ATOM, RED or CAS is not a multiple of the access size,
and the group can trap, every lane takes MISALIGN with TINFO the size and TADDR the address; no register changes, and no byte of
memory, beyond the release that order 2 or 3 makes first. (R140, R219, R142) -/
def Obligations.MisalignedAccessTraps : Prop :=
  let traps := fun (s : State) (i : Instr) (n : Nat) (addr : Nat → DWord) (order : BitVec 2) =>
    s.CanTrap → (∀ l, s.mask.getLsbD l = true → (addr l).toNat % n ≠ 0) →
    ∃ t, exec i s = .next t ∧ s.OutsideMem t ∧ (order.toNat < 2 → s.Outside t) ∧ (∀ a, t.settled s.coreNo a = s.settled s.coreNo a) ∧
      (∀ d, d ≠ s.coreNo → t.core d = s.core d) ∧ t.tm = s.tm ∧ (∀ d, t.die d = s.die d) ∧
      s.calm.Took t.calm s.mask 4 (fun _ => BitVec.ofNat 32 n) addr ∧
      (∀ m, t.w.sreg m = s.w.sreg m) ∧
      ∀ l, s.mask.getLsbD l = false → (t.w.lane l).reg = (s.w.lane l).reg ∧ (t.w.lane l).pc = (s.w.lane l).pc
  (∀ (mk : BitVec 3 → Ops → Instr) (space : Nat) (store : Bool),
      (mk, space, store) ∈ [(.ld, 0, false), (.ldt, 1, false), (.ldp, 2, false), (.st, 0, true), (.stt, 1, true), (.stp, 2, true)] →
    ∀ k o s, (if store then k.toNat ≤ 4 else k.toNat ≤ 6) →
      let n := if store then 2 ^ k.toNat else (loadForm k.toNat).1
      s.Clear (mk k o) (loadSpans n space) → o.s = false → traps s (mk k o) n (fun l => addrAB space (reader s.pre o l)) 0) ∧
  (∀ mk ∈ [Instr.lde, Instr.stc], ∀ o s, s.Clear (mk o) (loadSpans 4 0) → o.s = false →
    traps s (mk o) 4 (fun l => addrAB 0 (reader s.pre o l) + BitVec.ofNat 64 (4 * ((lanesOf s.mask).filter (· < l)).length)) 0) ∧
  (∀ mk ∈ [Instr.lda, Instr.stl], ∀ o c s, c.space < 3 → o.s = false → s.Clear (mk o c) (loadSpans (typeBytes c.type.toNat) c.space) →
    traps s (mk o c) (typeBytes c.type.toNat) (fun l => addrAB c.space (reader s.pre o l)) c.order) ∧
  ∀ mk ∈ [Instr.atom, Instr.red, Instr.cas], ∀ o c s, c.space < 3 → o.s = false → s.Clear (mk o c) (atomSpans (typeBytes c.type.toNat) c.space) →
    traps s (mk o c) (typeBytes c.type.toNat) (fun l => addrA c.space (reader s.pre o l)) c.order

/-- Where the clk leaves accesses to be performed later, ST, STT, STP and STC complete with memory as it was and their bytes added to the
wave's waiting accesses in lane order, a 16-byte store to peer or host memory as two of 8 bytes; RED does so with an access per lane
where the lanes' places differ, and with one that holds the operands in lane order where all name one place. A step that performs
waiting access n writes its bytes, of a RED the old value with each operand applied in turn, and nothing else, and takes it off the
list, unless an older one of its lanes or of its instruction touches its bytes: then nothing happens. A step that performs a load early
notes the bytes that the core sees at the place, or past its L1 those of memory, where nothing of the lane that waits touches them. LD
of a place that each lane has loaded early writes those bytes, whatever memory holds by then, and the note is gone. That accesses wait
in a list of the wave and are performed or loaded early by inputs is the model's choice (log entry 7), and so is that a step whose
condition does not hold changes nothing (log entry 13). (R198, R199, R193, R206, R207, R216, R434) -/
def Obligations.AccessesOutOfOrder : Prop :=
  let pend := fun (s : State) (m : BitVec 32) (p : Place) (e : Effect) => ({ lanes := m, place := p, effect := e, clk := s.clk, group := s.mask } : Pend)
  (∀ (i : Instr) (o : Ops) (space n : Nat) (rank : Bool) (s : State) (p : Nat → Place),
    ((∃ k : BitVec 3, k.toNat ≤ 4 ∧ n = 2 ^ k.toNat ∧ rank = false ∧
        ((i = .st k o ∧ space = 0) ∨ (i = .stt k o ∧ space = 1) ∨ (i = .stp k o ∧ space = 2))) ∨
      (i = .stc o ∧ space = 0 ∧ n = 4 ∧ rank = true ∧ o.s = false)) →
    s.Clear i (loadSpans n space) → s.members = 0 → s.cur.lazy = true → (∀ l, (s.w.lane l).early = []) →
    s.Placed o space 1 n (fun l => addrAB space (reader s.pre o l) +
      (if rank then BitVec.ofNat 64 (4 * ((lanesOf s.mask).filter (· < l)).length) else 0)) p →
    ∃ t, exec i s = .next t ∧ s.Outside t ∧ (t.At s.mask fun _ => s.nextPc) ∧
      s.Frame t i (loadSpans n space) { wave := fun w => { w with stores := w.stores ++ (s.acts o).flatMap fun l =>
        let v := readRegs s.pre o l (regsFor n)
        let part := fun (at' size v : Nat) => pend s (if o.s then s.mask else 1#32 <<< l) ((p l).plus at') (.store (toBytes size v) false)
        if (p l).foreign = true ∧ n = 16 then [part 0 8 v, part 8 8 (v / 2 ^ 64)] else [part 0 n v] } }) ∧
  (∀ o c s p, s.Clear (.red o c) (atomSpans (typeBytes c.type.toNat) c.space) → Encoding.ctlOk (.red o c) → s.cur.lazy = true →
    s.Orderly → c.order.toNat < 2 → s.Placed o c.space 2 (typeBytes c.type.toNat) (fun l => addrA c.space (reader s.pre o l)) p →
    let n := typeBytes c.type.toNat
    let data := fun l => (reader s.pre o l (if n = 8 then .n else .w) .b).toNat
    let waits := fun (t : State) (xs : List Pend) => s.Outside t ∧ (t.At s.mask fun _ => s.nextPc) ∧
      s.Frame t (.red o c) (atomSpans n c.space) { wave := fun w => { w with stores := xs } }
    ((∀ l ∈ s.acts o, ∀ j ∈ s.acts o, p l = p j → l = j) →
      ∃ t, exec (.red o c) s = .next t ∧ waits t ((s.acts o).map fun l =>
        pend s (if o.s then s.mask else 1#32 <<< l) (p l) (.reduce c.sub.toNat c.type.toNat c.scope.toNat [data l]))) ∧
    ∀ p₀, (∀ l ∈ s.acts o, p l = p₀) →
      ∃ t, exec (.red o c) s = .next t ∧
        waits t [pend s s.mask p₀ (.reduce c.sub.toNat c.type.toNat c.scope.toNat ((s.acts o).map data))]) ∧
  (∀ (s : State) (k n : Nat) xs x, s.cur.second = none → s.inputs = .perform k n :: xs → s.mod.boot = .running →
    (s.waves.find? k).isSome → (s.wave k).stores[n]? = some x →
    let older := ((s.wave k).stores.take n).any fun y => y.place.meets y.effect.size x.place x.effect.size &&
      (y.lanes &&& x.lanes != 0 || (y.clk == x.clk && y.group == x.group))
    (older = true → step s = .next { s with inputs := xs, cur := Cur.none }) ∧
    (older = false → (∀ pa, x.place = .mem pa → pa % 128 + x.effect.size ≤ 128) →
      (∀ t off, x.place = .team t off → t = k / 64 ∧ (s.team t).away = false ∧ (s.teams.find? t).isSome) →
      (∀ d off, x.place = .die d off → d = s.dieOf k) → (∀ sub type bs, x.effect ≠ .reduce sub type 5 bs) →
      let view := (s.from' k).byteBy (s.settled (s.coreOf k))
      let value := match x.effect with
        | .store data _ => fromBytes data
        | .reduce sub type _ bs => bs.foldl (fun v b => atomOp sub type v b % 2 ^ (8 * typeBytes type)) (x.place.value (typeBytes type) view)
      ∃ t, step s = .next t ∧ (t.wave k).stores = (s.wave k).stores.eraseIdx n ∧ t.inputs = xs ∧
        (s.from' k).OutsideMem { (t.from' k) with inputs := s.inputs } ∧ (∀ c, c ≠ s.coreOf k → t.core c = s.core c) ∧
        ∀ q, (t.from' k).byteBy (t.settled (s.coreOf k)) q = x.place.update x.effect.size value view q)) ∧
  (∀ (s : State) (k l : Nat) p (n : Nat) bypass xs, s.cur.second = none → s.inputs = .loadEarly k l p n bypass :: xs → s.mod.boot = .running →
    s.residentWave k = true → ((s.wave k).lanes.find? l).isSome → ((s.wave k).lane l).life = .ready →
    (∀ y ∈ (s.wave k).stores, y.lanes.getLsbD l = true → y.place.meets y.effect.size p n = false) →
    (∀ e ∈ ((s.wave k).lane l).early, e.place.meets e.data.length p n = false) →
    0 < n → n ≤ 16 → (p.foreign = true → n ≤ 8) → s.poison = [] →
    (∀ pa, p = .mem pa → pa % 128 + n ≤ 128) → (∀ t off, p = .team t off → t = k / 64) →
    (∀ d off, p = .die d off → d = s.dieOf k) →
    ∃ t, step s = .next t ∧ t.inputs = xs ∧
      (∃ data, ((t.wave k).lane l).early = ((s.wave k).lane l).early ++ [⟨p, data, bypass⟩] ∧ data.length = n ∧
        fromBytes data = p.value n ((s.from' k).byteBy ((if bypass then s.settled else s.seen) (s.coreOf k)))) ∧
      ∀ a, t.settled (s.coreOf k) a = s.settled (s.coreOf k) a) ∧
  ∀ k o s p (data : Nat → List Byte), k.toNat ≤ 6 → s.Clear (.ld k o) (loadSpans (loadForm k.toNat).1 0) → s.members = 0 → o.s = false →
    s.w.stores = [] →
    let n := (loadForm k.toNat).1
    s.Placed o 0 0 n (fun l => addrAB 0 (reader s.pre o l)) p →
    (∀ l, s.mask.getLsbD l = true → (s.w.lane l).early = [⟨p l, data l, false⟩] ∧ (data l).length = n ∧ ((p l).foreign = true → n ≤ 8)) →
    ∃ t, exec (.ld k o) s = .next t ∧ s.Outside t ∧ (t.At s.mask fun _ => s.nextPc) ∧
      s.Frame t (.ld k o) (loadSpans n 0)
        { s.puts (.ld k o) o (regsFor n) (fun l j => loadedWord n (loadForm k.toNat).2 (fromBytes (data l)) j) with
          lane := fun l x => if s.mask.getLsbD l then { x with early := [] } else x }

/-- For a group of members in .lane mode whose addresses are aligned, permitted and found, in local memory, team memory or the die
scratchpad: ST, STT and STP within the limits of R275 buffer each lane's bytes, which replace what the lane had buffered there, and
perform nothing; LD, LDT and LDP write the youngest bytes that the lane has buffered and elsewhere what the core sees; with H they read
past the L1 and add the bytes not found in the buffer to the lane's watch set. A store to a byte that the lane watches aborts it with
ALIAS, one that needs a buffer entry past the wave's 128 with OVERFLOW 1, a misaligned store with FAULT and the cause, and FENCE, CWB,
CINV, ATOM, RED and CAS with FORBIDDEN_OP: such a lane goes on at its abort target with its status, nothing buffered, its registers as
its checkpoint has them, and no byte of memory changes. (R275, R276, R277, R278, R279, R280, R281) -/
def Obligations.TryRegionMemory : Prop :=
  let near := fun (s : State) (p : Nat → Place) => ∀ l, s.mask.getLsbD l = true → (p l).foreign = false
  let own := fun (s : State) (l : Nat) (q : Loc) => (s.w.lane l).belayAt q.space q.addr
  let paged := fun (s t : State) (space : Nat) (k : Kind) (addr : Nat → DWord) => ∀ l, s.mask.getLsbD l = true →
    (t.w.lane l).pages = if space ≠ 0 ∨ (s.heapWindow s.ctxNo (addr l) k).isSome then (s.w.lane l).pages
      else addOnce ((addr l).toNat % 2 ^ 57 / 4096) (s.w.lane l).pages
  (∀ (mk : BitVec 3 → Ops → Instr) (space : Nat), (mk, space) ∈ [(.st, 0), (.stt, 1), (.stp, 2)] →
    ∀ k o s p, k.toNat ≤ 4 → o.s = false →
      let n := 2 ^ k.toNat
      let addr := fun l => addrAB space (reader s.pre o l)
      s.Clear (mk k o) (loadSpans n space) → s.InTry → s.Placed o space 1 n addr p → near s p →
      ((∀ l, s.mask.getLsbD l = true → ∀ j, j < n → (p l).loc j ∉ (s.w.lane l).watch) → s.w.belayCount + 32 ≤ 128 →
        s.belayCount s.coreNo + 32 ≤ 2048 →
        ∃ t, exec (mk k o) s = .next t ∧ s.Outside t ∧ (t.At s.mask fun _ => s.nextPc) ∧
          s.Frame t (mk k o) (loadSpans n space)
            { lane := fun l x => if s.mask.getLsbD l then { x with belay := (t.w.lane l).belay, pages := (t.w.lane l).pages } else x } ∧
          paged s t space 1 addr ∧
          ∀ l, s.mask.getLsbD l = true → ∀ q, own t l q =
            match (List.range n).find? fun j => (p l).loc j == q with
            | some j => some (BitVec.ofNat 8 (readRegs s.pre o l (regsFor n) / 256 ^ j))
            | none => own s l q) ∧
      ((∀ l, s.mask.getLsbD l = true → ∃ j, j < n ∧ (p l).loc j ∈ (s.w.lane l).watch) →
        ∃ t, exec (mk k o) s = .next t ∧ s.Outside t ∧ s.Aborted t s.mask 2) ∧
      (∀ l, s.mask = 1#32 <<< l → 128 ≤ s.w.belayCount → (∀ j, j < n → (p l).loc j ∉ (s.w.lane l).watch) →
        (∀ b ∈ (s.w.lane l).belay, ¬ (b.1.space = ((p l).loc 0).space ∧ b.1.addr / 32 = ((p l).loc 0).addr / 32)) →
        ∃ t, exec (mk k o) s = .next t ∧ s.Outside t ∧ s.Aborted t s.mask 0x10004)) ∧
  (∀ (mk : BitVec 3 → Ops → Instr) (space : Nat), (mk, space) ∈ [(.ld, 0), (.ldt, 1), (.ldp, 2)] →
    ∀ k o s p, k.toNat ≤ 6 → o.s = false →
      let n := (loadForm k.toNat).1
      let addr := fun l => addrAB space (reader s.pre o l)
      let value := fun (view : Nat → Byte) (l : Nat) =>
        fromBytes ((List.range n).map fun j => (own s l ((p l).loc j)).getD (s.byteBy view ((p l).loc j)))
      s.Clear (mk k o) (loadSpans n space) → s.InTry → s.Direct → s.Placed o space 0 n addr p → near s p →
      (o.nw = false →
        ∃ t, exec (mk k o) s = .next t ∧ s.OutsideL1 t ∧ (t.At s.mask fun _ => s.nextPc) ∧
          s.Frame t (mk k o) (loadSpans n space) (s.puts (mk k o) o (regsFor n) fun l j =>
            loadedWord n (loadForm k.toNat).2 (value (s.seen s.coreNo) l) j)) ∧
      (o.nw = true → s.w.watchLines.length + 32 ≤ 64 → s.poison = [] →
        ∃ t, exec (mk k o) s = .next t ∧ s.OutsideMem t ∧ (t.At s.mask fun _ => s.nextPc) ∧
          (∀ q, t.byteBy (t.settled s.coreNo) q = s.byteBy (s.settled s.coreNo) q) ∧
          s.calm.Frame t.calm (mk k o) (loadSpans n space)
            { s.puts (mk k o) o (regsFor n) (fun l j => loadedWord n (loadForm k.toNat).2 (value (s.settled s.coreNo) l) j) with
              lane := fun l x => if s.mask.getLsbD l then { x with watch := (t.w.lane l).watch, pages := (t.w.lane l).pages } else x } ∧
          paged s t space 0 addr ∧
          ∀ l, s.mask.getLsbD l = true → ∀ q, q ∈ (t.w.lane l).watch ↔
            q ∈ (s.w.lane l).watch ∨ ((∃ j, j < n ∧ (p l).loc j = q) ∧ own s l q = none))) ∧
  (∀ (mk : BitVec 3 → Ops → Instr) (space : Nat), (mk, space) ∈ [(.st, 0), (.stt, 1), (.stp, 2)] →
    ∀ k o s, k.toNat ≤ 4 → o.s = false → s.Clear (mk k o) (loadSpans (2 ^ k.toNat) space) → s.InTry →
      (∀ l, s.mask.getLsbD l = true → (addrAB space (reader s.pre o l)).toNat % 2 ^ k.toNat ≠ 0) →
      ∃ t, exec (mk k o) s = .next t ∧ s.Outside t ∧ s.Aborted t s.mask 0x40005) ∧
  ∀ o c (i : Instr) (sp : Spans), (i, sp) ∈ [(.fence o c, spans1), (.cwb o, { d := 1, a := 2, b := 1 }), (.cinv o, { d := 1, a := 2, b := 1 }),
      (.atom o c, atomSpans (typeBytes c.type.toNat) c.space), (.red o c, atomSpans (typeBytes c.type.toNat) c.space),
      (.cas o c, atomSpans (typeBytes c.type.toNat) c.space)] →
    ∀ s : State, s.Group → s.InTry → s.illegalUse i (usesOf i sp) = none →
      (s.staleUse i (usesOf i sp) = none ∨ wstatLtrap s.pre.wstat = false) →
      ∃ t, exec i s = .next t ∧ s.Outside t ∧ s.Aborted t s.mask 7

/-- LD, ST, ATOM, RED and CAS whose acts all meet one absent page of global memory, outside try regions: every lane of the group becomes
Parked in the lowest free bivouac slot (that it is the lowest is the model's choice, log entry 77), which logs PC, words, window bases
and each lane's address and data; a page without a tag takes the lowest free one and one record at FQHEAD, a page with a tag none;
without a free slot or tag the lanes become Blocked. A retry of a tag whose lanes' pages are now present, where the context takes no
samples and the destination's register lines are there, performs LD, ST, ATOM, RED and CAS with the logged operands, writes the
destination against the logged bases, and the lanes go on past the instruction; a fail traps them with PAGE_FAULT. Either way the lanes
leave the slot, which frees with its last lane, and the tag frees; that a tag which was resolved stands for its page no longer is the
model's choice (log entry 54). That the order of a store and of other parts' accesses is that of the replay follows from its taking
effect there. (R142, R223, R224, R225, R226, R228, R229, R230, R182) -/
def Obligations.AbsentPagesParkAndReplay : Prop :=
  (∀ (i : Instr) (o : Ops) (sp : Spans) (kind n : Nat) (addr : State → Nat → DWord) (data : State → Nat → BitVec 128),
    ((∃ k : BitVec 3, k.toNat ≤ 6 ∧ i = .ld k o ∧ n = (loadForm k.toNat).1 ∧ sp = loadSpans n 0 ∧ kind = 0 ∧
        addr = (fun s l => addrAB 0 (reader s.pre o l)) ∧ data = fun _ _ => 0) ∨
     (∃ k : BitVec 3, k.toNat ≤ 4 ∧ i = .st k o ∧ n = 2 ^ k.toNat ∧ sp = loadSpans n 0 ∧ kind = 1 ∧
        addr = (fun s l => addrAB 0 (reader s.pre o l)) ∧ data = fun s l => BitVec.ofNat 128 (readRegs s.pre o l (regsFor n))) ∨
     ∃ c : Ctl, c.space = 0 ∧ c.order = 0 ∧ n = typeBytes c.type.toNat ∧ sp = atomSpans n 0 ∧ kind = 2 ∧
        addr = (fun s l => addrA 0 (reader s.pre o l)) ∧
        (let operand := fun (s : State) (l : Nat) => (reader s.pre o l (if n = 8 then .n else .w) .b).zeroExtend 128
         ((i = .atom o c ∨ i = .red o c) ∧ data = operand) ∨
         (i = .cas o c ∧ data = fun s l => BitVec.ofNat 128 (readRegs s.pre o l (regsFor n)) ||| (operand s l <<< 64)))) →
    ∀ (s : State) (page : DWord), s.Clear i sp → s.members = 0 → s.Direct →
      (∀ l ∈ s.acts o, pageOf (addr s l) = page ∧
        s.place 0 kind n (addr s l) (data s l) = (s, .error (.park (addr s l) (data s l) kind false))) →
      let c := s.ctxNo
      let x := s.ctx c
      let act := fun (l : Nat) => if o.s then 0 else l
      let slot := (List.range 4).find? fun j => (s.w.slots.find? j).isNone
      let parked := fun (t : State) (tag : Nat) => ∃ j y, slot = some j ∧ t.w.slots.find? j = some y ∧
        s.calm.Frame t.calm i sp { wave := fun w => { w with slots := t.w.slots } } ∧
        (∀ q, q ≠ j → t.w.slots.find? q = s.w.slots.find? q) ∧
        y.pc = s.cur.pc ∧ y.w0 = s.cur.w0 ∧ y.w1 = s.cur.w1 ∧ y.instr = i ∧ y.vb = s.pre.vb ∧ y.sb = s.pre.sb ∧
        (∀ l, y.lanes.find? l = if s.mask.getLsbD l then some { addr := addr s (act l), data := data s (act l), tag := some tag } else none) ∧
        ∀ l, s.mask.getLsbD l = true → (t.w.lane l).life = .parked j ∧ (t.w.lane l).pc = (s.w.lane l).pc
      (s.slotFree s.cur.wave = true → x.tagOf page = none → x.waiting = [] → x.fqhead - x.fqtail < x.fqsize → x.fqbar.getLsbD 31 = false →
        ∀ tag, tag < 256 → x.tags.find? tag = none → (∀ j, j < tag → (x.tags.find? j).isSome) →
        ∃ t, exec i s = .next t ∧ { t with waves := s.waves, cur := s.cur, mem := s.mem, ctxs := s.ctxs } = s ∧ parked t tag ∧
          (∀ d, t.ctx d = if d = c then { s.ctx d with fqhead := (s.ctx d).fqhead + 1, tags := (t.ctx d).tags } else s.ctx d) ∧
          (t.ctx c).tags.find? tag = some { page := page, sysc := false, resolved := none } ∧
          (∀ j, j ≠ tag → (t.ctx c).tags.find? j = x.tags.find? j) ∧
          let place := x.fqbase.toNat % 2 ^ 52 + 32 * (x.fqhead.toNat % x.fqsize.toNat)
          let loc := s.dieNo + s.coreNo % 48 * 4 + s.tm.rslot * 2 ^ 8 + s.cur.wave % 64 * 2 ^ 12 + lowest s.mask * 2 ^ 18
          Memory.readBytes t.mem place 32 = toBytes 8 page.toNat ++ toBytes 1 6 ++ toBytes 1 kind ++ toBytes 1 tag ++ toBytes 1 c ++
            toBytes 4 loc ++ toBytes 4 s.mask.toNat ++ toBytes 4 s.tm.lin ++ toBytes 8 s.cur.pc.toNat ∧
          ∀ a, a < place ∨ place + 32 ≤ a → Memory.read t.mem a = Memory.read s.mem a) ∧
      (s.slotFree s.cur.wave = true → ∀ tag, x.tagOf page = some tag →
        ∃ t, exec i s = .next t ∧ s.Outside t ∧ parked t tag) ∧
      (∀ w : Wait, (s.slotFree s.cur.wave = false ∧ w = .slot) ∨
          (s.slotFree s.cur.wave = true ∧ x.tagOf page = none ∧ (∀ j, j < 256 → (x.tags.find? j).isSome) ∧ w = .tag) →
        ∃ t, exec i s = .next t ∧ s.Outside t ∧ s.Frame t i sp {} ∧
          ∀ l, s.mask.getLsbD l = true → (t.w.lane l).life = .blocked w ∧ (t.w.lane l).pc = (s.w.lane l).pc)) ∧
  ∀ (s : State) c tag k slot m x y, (s.ctx c).tags.find? tag = some y → y.resolved = none → s.waiters c tag = [(k, slot, m)] →
    s.ctxOf k = c → s.residentWave k = true → (s.wave k).slots.find? slot = some x → (s.wave k).stores = [] →
    (s.waves.map (·.1)).Nodup → ((s.wave k).slots.map (·.1)).Nodup → (∀ p ∈ s.waves, ∀ q ∈ p.2.slots, ∀ r ∈ q.2.lanes, r.1 < 32) →
    (∀ l, m.getLsbD l = true → ((s.wave k).lanes.find? l).isSome ∧ ((s.wave k).lane l).member = false ∧ ((s.wave k).lane l).early = []) →
    (∀ p ∈ s.cores, (∀ z ∈ p.2.mq, z.tag = none) ∧ ∀ q ∈ p.2.copy, ∀ z ∈ q.2.queue, z.tag = none) →
    (∀ p ∈ s.dies, ∀ z ∈ p.2.colls, z.page = none) →
    let core := s.coreOf k
    let log := fun (l : Nat) => x.lanes.get l { addr := 0, data := 0, tag := none }
    let left := fun (t : State) => (t.ctx c).tags.find? tag = none ∧ (x.mask = m → (t.wave k).slots.find? slot = none) ∧
      ∀ z, (t.wave k).slots.find? slot = some z → ∀ l, m.getLsbD l = true → z.lanes.find? l = none
    let reached := fun (kind n : Nat) (pa : Nat → Nat) => (s.ctx c).sampcfg.extractLsb' 0 16 = 0 ∧
      (∀ z ∈ x.destLines (s.wave k), (s.wave k).absent.contains z = false) ∧ ∀ l, m.getLsbD l = true →
      (log l).addr.toNat % n = 0 ∧ s.CoreMaps core c (log l).addr kind (pa l) ∧ s.backedAll (pa l) n = true ∧ s.poisonAt (pa l) n = none
    let apart := fun (n : Nat) (pa : Nat → Nat) => ∀ l j, m.getLsbD l = true → m.getLsbD j = true → l ≠ j → pa l + n ≤ pa j ∨ pa j + n ≤ pa l
    let on := fun (t : State) (o : Ops) (n : Nat) (value : Nat → Nat → Word) =>
      (∀ l, m.getLsbD l = true → ((t.wave k).lane l).life = .ready ∧ ((t.wave k).lane l).pc = x.pc + BitVec.ofNat 64 (lengthOf x.instr)) ∧
      (∀ l r, ((t.wave k).lane l).reg r = if !o.s && m.getLsbD l && !nwOf x.instr && inSpan x.vb o.d n r
        then value l (r - (x.vb + o.d.toNat)) else ((s.wave k).lane l).reg r) ∧
      ∀ r, (t.wave k).sreg r = if o.s && !nwOf x.instr && inSpan x.sb o.d n r then value (lowest m) (r - (x.sb + o.d.toNat)) else (s.wave k).sreg r
    (∀ kk o pa, x.instr = .ld kk o → kk.toNat ≤ 6 → o.nw = false →
      let n := (loadForm kk.toNat).1
      reached 0 n pa → ∃ t, exec (.fqresRetry c tag) s = .next t ∧ left t ∧ (∀ d a, t.settled d a = s.settled d a) ∧
        on t o (regsFor n) fun l j =>
          loadedWord n (loadForm kk.toNat).2 (fromBytes ((List.range n).map fun b => s.seen core (pa l + b))) j) ∧
    (∀ kk o pa, x.instr = .st kk o → kk.toNat ≤ 4 → o.s = false →
      let n := 2 ^ kk.toNat
      reached 1 n pa → apart n pa → ∃ t, exec (.fqresRetry c tag) s = .next t ∧ left t ∧ on t o 0 (fun _ _ => 0) ∧
        (∀ l b, m.getLsbD l = true → b < n → t.settled core (pa l + b) = BitVec.ofNat 8 ((log l).data.toNat / 256 ^ b)) ∧
        ∀ a, (∀ l, m.getLsbD l = true → a < pa l ∨ pa l + n ≤ a) → t.settled core a = s.settled core a) ∧
    (∀ o (ct : Ctl) pa (wr : Bool) (new : Nat → Nat → Nat),
      (wr = true ∧ x.instr = .atom o ct ∧ new = fun l old => atomOp ct.sub.toNat ct.type.toNat old (log l).data.toNat) ∨
        (wr = false ∧ x.instr = .red o ct ∧ new = fun l old => atomOp ct.sub.toNat ct.type.toNat old (log l).data.toNat) ∨
        (wr = true ∧ x.instr = .cas o ct ∧
          new = fun l old => if old = (log l).data.toNat % 2 ^ 64 then (log l).data.toNat / 2 ^ 64 else old) →
      ct.space = 0 → ct.order = 0 → ct.scope.toNat ≤ 4 → o.s = false →
      let n := typeBytes ct.type.toNat
      let old := fun (l : Nat) => fromBytes ((List.range n).map fun b => s.settled core (pa l + b))
      reached 2 n pa → apart n pa → ∃ t, exec (.fqresRetry c tag) s = .next t ∧ left t ∧
        on t o (if wr then regsFor n else 0) (fun l j => wordAt (old l) j) ∧
        (∀ l b, m.getLsbD l = true → b < n → t.settled core (pa l + b) = (toBytes n (new l (old l))).getD b 0) ∧
        ∀ a, (∀ l, m.getLsbD l = true → a < pa l ∨ pa l + n ≤ a) → t.settled core a = s.settled core a) ∧
    ((∀ o, x.instr ≠ .sysc o) → (s.wave k).trapvec ≠ 0 →
      (∀ l, m.getLsbD l = true → ((s.wave k).lane l).depth = 0 ∧ ((s.wave k).lane l).handler = false) →
      ∃ t, exec (.fqresFail c tag) s = .next t ∧ left t ∧ t.mem = s.mem ∧
        ∀ l, m.getLsbD l = true → ((t.wave k).lane l).tcause = 6 ∧ ((t.wave k).lane l).tinfo = BitVec.ofNat 32 tag ∧
          ((t.wave k).lane l).taddr = (log l).addr ∧ ((t.wave k).lane l).tpc = x.pc ∧ ((t.wave k).lane l).handler = true ∧
          ((t.wave k).lane l).life = .ready ∧ ((t.wave k).lane l).pc = (s.wave k).trapvec ∧ ((t.wave k).lane l).v = ((s.wave k).lane l).v)

/-- In every state in which the checks pass, the offsets are aligned, in their space and above the launch barrier, no access of the wave is
early or late, and no lane waits on an object named: each act of BARI sets the fields of its object and cancels its arm, of BARA adds
one arrival, of BARX sets the expected bytes and adds one arrival, of BARD expects one arrival fewer, each but BARI followed by the
completion check, which advances the phase, zeroes the counts and sets overrun where a count exceeds. The lanes go on; every other
byte, with what the core holds dirty written back, and all other state is as it was; a release from die scope up leaves memory holding
what the core held dirty. (R212, R213, R214, R357, R359, R211) -/
def Obligations.BarrierUpdates : Prop :=
  (∀ b : Bar, b.arrive = (if b.arrived = 0xFFFF then { b with flags := b.flags ||| 8 } else { b with arrived := b.arrived + 1 }) ∧
    b.check = (if b.expArr ≤ b.arrived ∧ b.expBytes ≤ b.landed then
        { b with phase := b.phase + 1, arrived := 0, landed := 0,
                 flags := if b.expArr < b.arrived ∨ b.expBytes < b.landed then b.flags ||| 8 else b.flags } else b)) ∧
  (∀ o c s obj, s.Clear (.bari o c) { d := 1, a := 1, b := 2 } → s.tm.state = .resident → s.Orderly → s.Names o c 2 false obj →
    (∀ l ∈ s.acts o, s.Unwaited (obj l)) →
    let cnt := fun l => reader s.pre o l .n .b
    (∀ l ∈ s.acts o, (cnt l).toNat % 65536 ≠ 0 ∨ (hi32 (cnt l)).toNat ≠ 0) →
    ∃ t, exec (.bari o c) s = .next t ∧
      s.Updated t (.bari o c) o { d := 1, a := 1, b := 2 } obj (fun l b =>
        { b with expArr := (cnt l).toNat % 65536, arrived := 0, expBytes := (hi32 (cnt l)).toNat, landed := 0,
                 flags := if (cnt l).getLsbD 16 then 1 else 0, id := 0, target := 0 }) false ∧
      ∀ x, x ∈ t.arms ↔ x ∈ s.arms ∧ ∀ l ∈ s.acts o, obj l ≠ x) ∧
  (∀ o c s obj, s.Clear (.bara o c) spans1 → s.tm.state = .resident → s.Orderly → s.Names o c 2 false obj → (∀ l ∈ s.acts o, s.Unwaited (obj l)) →
    ∃ t, exec (.bara o c) s = .next t ∧ t.arms = s.arms ∧
      s.Updated t (.bara o c) o spans1 obj (fun _ b => b.arrive.check) (decide (2 ≤ c.order.toNat ∧ 3 ≤ c.scope.toNat))) ∧
  (∀ o c s obj, s.Clear (.barx o c) spans1 → s.tm.state = .resident → s.Orderly → s.Names o c 2 false obj → (∀ l ∈ s.acts o, s.Unwaited (obj l)) →
    ∃ t, exec (.barx o c) s = .next t ∧ t.arms = s.arms ∧
      s.Updated t (.barx o c) o spans1 obj (fun l b => (Bar.arrive { b with expBytes := (reader s.pre o l .w .b).toNat }).check)
        (decide (2 ≤ c.order.toNat ∧ 3 ≤ c.scope.toNat))) ∧
  ∀ o c s obj, s.Clear (.bard o c) spans1 → s.tm.state = .resident → s.Orderly → s.Names o c 2 false obj → (∀ l ∈ s.acts o, s.Unwaited (obj l)) →
    (∀ l ∈ s.acts o, ((s.acts o).filter fun m => obj m = obj l).length ≤ (s.bar (obj l)).expArr) →
    ∃ t, exec (.bard o c) s = .next t ∧ t.arms = s.arms ∧
      s.Updated t (.bard o c) o spans1 obj (fun _ b => Bar.check { b with expArr := b.expArr - 1 }) (decide (3 ≤ c.scope.toNat))

/-- In every state in which the checks pass, the offsets are aligned and in their space and no access of the wave is early or late: each
lane of BARW whose object has a phase beyond its p, read as a signed difference, goes on, and each other lane is Blocked at its object
with the address past the instruction; BART writes all ones to D where the phase has passed and zero otherwise, and every lane goes on.
An act that passes acquires with order 1 or 3 at its scope, but at device scope on an object that a graph's completion has advanced,
and always at device scope on an object that has been armed: from die scope up the core then holds no clean line and sees memory
wherever it holds no dirty byte. A lane that waits keeps which of these its end will do. No byte, with what the cores hold dirty
written back, and no other state changes. (R214, R357, R359, R210, R196, R328) -/
def Obligations.BarrierWaitsAndTests : Prop :=
  (∀ o c s obj, s.Clear (.barw o c) spans1 → s.Orderly → s.Names o c 0 true obj →
    let a := fun l => if o.s then 0 else l
    let passed := fun l => (0#32).slt ((s.bar (obj l)).phase - lo32 (reader s.pre o l .w .b))
    let acq := fun l => if (s.bar (obj l)).target ≠ 0 then 2 else if c.order.toNat % 2 = 1 then
      (if 3 ≤ c.scope.toNat ∨ obj l ∈ s.graphBars then 2 else 1) else 0
    ∃ t, exec (.barw o c) s = .next t ∧ s.OutsideAcquire t ((s.acts o).any fun l => passed l && acq l == 2) ∧
      s.Frame t (.barw o c) spans1 {} ∧
      ∀ l, s.mask.getLsbD l = true →
        if passed (a l) then (t.w.lane l).pc = s.nextPc ∧ (t.w.lane l).life = .ready
        else (t.w.lane l).pc = (s.w.lane l).pc ∧
          (t.w.lane l).life = .blocked (.barw (obj (a l)) (lo32 (reader s.pre o l .w .b)) (acq (a l)) s.nextPc s.clk)) ∧
  ∀ o c s obj, s.Clear (.bart o c) spans1 → s.Orderly → s.Names o c 0 false obj →
    let passed := fun l => (0#32).slt ((s.bar (obj l)).phase - lo32 (reader s.pre o l .w .b))
    let acq := fun l => if (s.bar (obj l)).target ≠ 0 then 2 else if c.order.toNat % 2 = 1 then
      (if 3 ≤ c.scope.toNat ∨ obj l ∈ s.graphBars then 2 else 1) else 0
    ∃ t, exec (.bart o c) s = .next t ∧ s.OutsideAcquire t ((s.acts o).any fun l => passed l && acq l == 2) ∧
      s.Frame t (.bart o c) spans1 (s.puts (.bart o c) o 1 fun l _ => if passed l then 0xFFFFFFFF else 0) ∧
      t.At s.mask fun _ => s.nextPc

/-- Where no access of the wave is early or late and one act of BARA names an object: every lane of another wave that is Blocked at BARW on
that object goes on past its BARW exactly where the phase after the arrival has passed its own, and otherwise stays Blocked where it
is; a lane Blocked on another object stays as it is. Where the group can trap: an offset that is no multiple of 32 gives MISALIGN with
TINFO 32 and TADDR the offset in BARI, BARA, BARX, BARW, BART and BARD; BARI with no expected arrivals and no expected bytes gives
BARRIER_MISUSE reason 1; BARD on an object that expects no arrival gives reason 2; TADDR is the offset, and nothing outside the wave
changes. (R214, R213, R357, R358, R140, R220) -/
def Obligations.BarrierWakesAndCauses : Prop :=
  (∀ o c s obj l₀, s.Clear (.bara o c) spans1 → s.tm.state = .resident → s.Orderly → s.Names o c 2 false obj → s.acts o = [l₀] →
    ∃ t, exec (.bara o c) s = .next t ∧ t.bar (obj l₀) = (s.bar (obj l₀)).arrive.check ∧
      ∀ k l x n acquire next since, k ≠ s.cur.wave → ((s.wave k).lane l).life = .blocked (.barw x n acquire next since) →
        if x = obj l₀ ∧ (0#32).slt ((t.bar x).phase - n) then ((t.wave k).lane l).pc = next ∧ ((t.wave k).lane l).life = .ready
        else ((t.wave k).lane l).pc = ((s.wave k).lane l).pc ∧ ((t.wave k).lane l).life = ((s.wave k).lane l).life) ∧
  (∀ (mk : Ops → Ctl → Instr) (sp : Spans),
    (mk, sp) ∈ [(Instr.bari, (⟨1, 1, 2⟩ : Spans)), (.bara, spans1), (.barx, spans1), (.barw, spans1), (.bart, spans1), (.bard, spans1)] →
    ∀ o c s, s.Clear (mk o c) sp → s.CanTrap → (∀ l ∈ s.acts o, (offsetA (reader s.pre o l)).toNat % 32 ≠ 0) →
      ∃ t, exec (mk o c) s = .next t ∧ s.Outside t ∧ s.Took t s.mask 4 (fun _ => 32) (fun l => offsetA (reader s.pre o l))) ∧
  (∀ o c s obj, s.Clear (.bari o c) { d := 1, a := 1, b := 2 } → s.CanTrap → s.Orderly → s.Names o c 2 false obj →
    (∀ l ∈ s.acts o, (reader s.pre o l .n .b).toNat % 65536 = 0 ∧ (hi32 (reader s.pre o l .n .b)).toNat = 0) →
    ∃ t, exec (.bari o c) s = .next t ∧ s.Outside t ∧ s.Took t s.mask 0x0D (fun _ => 1) (fun l => offsetA (reader s.pre o l))) ∧
  ∀ o c s obj, s.Clear (.bard o c) spans1 → s.CanTrap → s.Orderly → s.Names o c 2 false obj → (∀ l ∈ s.acts o, (s.bar (obj l)).expArr = 0) →
    ∃ t, exec (.bard o c) s = .next t ∧ s.Outside t ∧ s.Took t s.mask 0x0D (fun _ => 2) (fun l => offsetA (reader s.pre o l))

/-- With identifiers that are valid for the context: TLRD writes the counter to the pair D and leaves no clean line in the core, which then
sees memory wherever it holds no dirty byte. TLARM stores id, target, armed and remote-counter in the barrier its control word names,
which is not poisoned and which no lane waits on, no access of the wave being early or late, followed by the completion check; where
the counter has reached the target the arm is released at once: armed and remote-counter clear, one arrival, completion check;
otherwise the object waits among the arms. The lanes go on and nothing else changes. A bad identifier, where the group can trap, gives
PROTECTION with TINFO 2 and TADDR the identifier. CRIT leaves a critical wave where it is in the critical order of its core and adds
another at the end; UNCRIT takes the wave out; each goes on and changes nothing else. (R466, R463, R212, R213, R209, R210, R377, R471) -/
def Obligations.TimelinesAndCriticalMarks : Prop :=
  (∀ o s, s.Clear (.tlrd o) { d := 2, a := 1, b := 1 } → (∀ l ∈ s.acts o, idOk (lo32 (reader s.pre o l .w .a)) s.ctxNo) →
    ∃ t, exec (.tlrd o) s = .next t ∧ s.OutsideAcquire t true ∧
      s.Frame t (.tlrd o) { d := 2, a := 1, b := 1 }
        (s.puts (.tlrd o) o 2 fun l j => wordAt (s.counter (lo32 (reader s.pre o l .w .a))) j) ∧
      t.At s.mask fun _ => s.nextPc) ∧
  (∀ o c s x, s.Clear (.tlarm o c) { d := 1, a := 1, b := 2 } → s.engineBar c = .ok (some x) → s.tm.state = .resident → s.Orderly →
    s.unpoisoned x (BitVec.ofNat 64 (c.barIndex * 32)) = .ok x → s.Unwaited x →
    let id := fun l => lo32 (reader s.pre o l .w .a)
    let target := fun l => (reader s.pre o l .n .b).toNat
    (∀ l ∈ s.acts o, idOk (id l) s.ctxNo) →
    ∃ t, exec (.tlarm o c) s = .next t ∧
      s.Updated t (.tlarm o c) o { d := 1, a := 1, b := 2 } (fun _ => x) (fun l b =>
        let flags := (b.flags &&& ~~~ (6#32)) ||| 2 ||| (if idDie (id l) = s.objDie x then 0 else 4)
        let armed := Bar.check { b with id := id l, target := target l, flags := flags }
        if target l ≤ s.counter (id l) then (Bar.arrive { armed with flags := armed.flags &&& ~~~ (6#32) }).check else armed) false ∧
      (∀ y, y ≠ x → (y ∈ t.arms ↔ y ∈ s.arms)) ∧
      ∀ l ∈ s.acts o, (∀ m ∈ s.acts o, m ≤ l) → (x ∈ t.arms ↔ s.counter (id l) < target l)) ∧
  (∀ o s, s.Clear (.tlrd o) { d := 2, a := 1, b := 1 } → s.CanTrap →
    (∀ l ∈ s.acts o, idOk (lo32 (reader s.pre o l .w .a)) s.ctxNo = false) →
    ∃ t, exec (.tlrd o) s = .next t ∧ s.Outside t ∧
      s.Took t s.mask 5 (fun _ => 2) (fun l => (lo32 (reader s.pre o l .w .a)).zeroExtend 64)) ∧
  (∀ o c s, s.Clear (.tlarm o c) { d := 1, a := 1, b := 2 } → s.CanTrap →
    (∀ l ∈ s.acts o, idOk (lo32 (reader s.pre o l .w .a)) s.ctxNo = false) →
    ∃ t, exec (.tlarm o c) s = .next t ∧ s.Outside t ∧
      s.Took t s.mask 5 (fun _ => 2) (fun l => (lo32 (reader s.pre o l .w .a)).zeroExtend 64)) ∧
  (∀ o s, s.Clear (.crit o) spans1 → ∃ t, exec (.crit o) s = .next t ∧
    { t with waves := s.waves, cur := s.cur, cores := s.cores } = s ∧
    (∀ c, t.core c = if c = s.coreNo ∧ s.cur.wave ∉ (s.core c).crit then
        { s.core c with crit := (s.core c).crit ++ [s.cur.wave] } else s.core c) ∧
    s.Frame t (.crit o) spans1 {} ∧ t.At s.mask fun _ => s.nextPc) ∧
  ∀ o s, s.Clear (.uncrit o) spans1 → ∃ t, exec (.uncrit o) s = .next t ∧
    { t with waves := s.waves, cur := s.cur, cores := s.cores } = s ∧
    (∀ c, t.core c = if c = s.coreNo then { s.core c with crit := (s.core c).crit.filter (· != s.cur.wave) } else s.core c) ∧
    s.Frame t (.uncrit o) spans1 {} ∧ t.At s.mask fun _ => s.nextPc

/-- In every state in which the checks of R137 and of R291 pass in each act (FEATMASK and slot table, barrier, alignment of both records,
records in the team's memory, descriptor and box or gather record within their limits, scratchpad range, element size of CPYR) and the
queue has room, each act appends one command to the copy queue of its core and context: its number is one more than the last, its
descriptor, box or index list are those of the records, its barrier the one the control word names; the number goes to D. With order 2
the core's dirty bytes are written back first. Nothing else changes. That the room counts only commands that have not started is the
model's choice (log entry 18), and so is that the index list is read at issue (log entry 42). (R290, R291, R298, R299, R300, R376, R210) -/
def Obligations.CopyCommandsQueue : Prop :=
  let room := fun (s : State) (o : Ops) => queued (s.copyCtx s.coreNo s.ctxNo).queue + (s.acts o).length ≤ 16
  let queues := fun (s t : State) (o : Ops) (c : Ctl) (bar : Option ObjRef) (op : Nat → CmdOp) =>
    let q := s.copyCtx s.coreNo s.ctxNo
    (t.core s.coreNo).mq = (s.core s.coreNo).mq ∧ (t.core s.coreNo).mIssued = (s.core s.coreNo).mIssued ∧
    (∀ x, t.copyCtx s.coreNo x = if x = s.ctxNo then
      { q with issued := q.issued + (s.acts o).length, queue := q.queue ++ s.cmds o c q.issued bar op } else s.copyCtx s.coreNo x)
  (∀ (mk : Ops → Ctl → Instr) (kind : Nat), (mk, kind) ∈ [(Instr.cpy, 0), (.cpys, 2), (.cpyr, 3)] →
    ∀ o c s bar (rec box : Nat → List Byte) (desc : Nat → Desc) (b : Nat → List Nat × List Nat × Nat) (off : Nat → Nat),
    s.Clear (mk o c) spans1 → s.engineOpen false false = true → s.engineBar c = .ok bar → room s o →
    (∀ l ∈ s.acts o, (offsetA (reader s.pre o l)).toNat % 128 = 0 ∧ (lo32 (reader s.pre o l .w .b)).toNat % 16 = 0 ∧
      s.recordAt (offsetA (reader s.pre o l)).toNat 128 = some (rec l) ∧ s.recordAt (lo32 (reader s.pre o l .w .b)).toNat 80 = some (box l) ∧
      parseDesc (rec l) = some (desc l) ∧ parseBox (box l) (desc l).rank = some (b l) ∧
      s.range (copySpace (mk o c) c) (b l).2.2 (boxBytes (desc l) (b l).2.1) = some (off l) ∧
      (kind = 3 → (desc l).esize = typeBytes (if c.type.toNat = 10 then 10 else if c.type.toNat = 4 then 4 else 2))) →
    ∃ t, exec (mk o c) s = .next t ∧ s.Issued t (mk o c) o c spans1 (s.copyCtx s.coreNo s.ctxNo).issued ∧
      queues s t o c bar fun l => .box kind (c.sub.toNat % 8) c.type.toNat (copySpace (mk o c) c) (desc l) (b l).1 (b l).2.1 (off l)) ∧
  ∀ o c s bar (rec gat : Nat → List Byte) (desc : Nat → Desc) (list off : Nat → Nat),
    s.Clear (.cpyg o c) spans1 → s.engineOpen false false = true → s.engineBar c = .ok bar → room s o →
    let isize := if c.type = 7 then 8 else 4
    let count := fun l => fld (gat l) 4 4
    (∀ l ∈ s.acts o, (offsetA (reader s.pre o l)).toNat % 128 = 0 ∧ (lo32 (reader s.pre o l .w .b)).toNat % 16 = 0 ∧
      s.recordAt (offsetA (reader s.pre o l)).toNat 128 = some (rec l) ∧ s.recordAt (lo32 (reader s.pre o l .w .b)).toNat 16 = some (gat l) ∧
      parseDesc (rec l) = some (desc l) ∧ (desc l).rank = 2 ∧ fld (gat l) 0 4 % isize = 0 ∧ 1 ≤ count l ∧ count l ≤ 65536 ∧
      fld (gat l) 12 4 = 0 ∧ s.range 1 (fld (gat l) 0 4) (count l * isize) = some (list l) ∧
      s.range (copySpace (.cpyg o c) c) (fld (gat l) 8 4) (count l * (desc l).sizes.getD 0 0 * (desc l).esize) = some (off l)) →
    ∃ t, exec (.cpyg o c) s = .next t ∧ s.Issued t (.cpyg o c) o c spans1 (s.copyCtx s.coreNo s.ctxNo).issued ∧
      queues s t o c bar fun l => .gather (copySpace (.cpyg o c) c) (desc l)
        ((List.range (count l)).map fun j => fromBytes ((List.range isize).map fun i => s.tm.tmem.get (list l + j * isize + i) 0)) (off l)

/-- In every state in which the checks of R137 and of R291 pass in each act (FEATMASK and slot table, barrier, alignment, operand ranges
and limits) and the matrix queue has room, each act appends one command to the queue of its core's matrix engine with the next number,
which goes to D: MXW with the buffer, fold, format and the offsets of weights and scale vector; MXS with the tile, clear, swap, first
row, rows and columns that B names; MXD with the tile, destination, rows and row stride; MXZ with its tile. With order 2 the core's
dirty bytes are written back first. Nothing else changes. That the room counts only commands that have not started is the model's
choice (log entry 18). (R290, R291, R294, R295, R296, R297, R415, R416, R210) -/
def Obligations.MatrixCommandsQueue : Prop :=
  let ready := fun (s : State) (o : Ops) (c : Ctl) (four : Bool) (bar : Option ObjRef) =>
    s.engineOpen true four = true ∧ s.engineBar c = .ok bar ∧ queued (s.core s.coreNo).mq + (s.acts o).length ≤ 16
  let queues := fun (s t : State) (o : Ops) (c : Ctl) (bar : Option ObjRef) (op : Nat → CmdOp) =>
    let x := s.core s.coreNo
    (t.core s.coreNo).copy = x.copy ∧ (t.core s.coreNo).mIssued = x.mIssued + (s.acts o).length ∧
      (t.core s.coreNo).mq = x.mq ++ s.cmds o c x.mIssued bar op
  let b := fun (s : State) (o : Ops) (l : Nat) => (reader s.pre o l .w .b).toNat
  let a := fun (s : State) (o : Ops) (l : Nat) => (lo32 (reader s.pre o l .w .a)).toNat
  let rows := fun n => n / 256 % 256 + 1
  let cols := fun n => (n / 65536 % 8 + 1) * 16
  (∀ o c s bar, s.Clear (.mxw o c) spans1 → ready s o c (c.type = 4 || c.type = 5) bar →
    (∀ l ∈ s.acts o, a s o l % 128 = 0 ∧ (s.range 1 (a s o l) (tileBytes c.type.toNat)).isSome ∧
      (if c.sub.getLsbD 1 then b s o l % 16 = 0 ∧ (s.range 1 (b s o l) 512).isSome else b s o l = 0)) →
    ∃ t, exec (.mxw o c) s = .next t ∧ s.Issued t (.mxw o c) o c spans1 (s.core s.coreNo).mIssued ∧
      queues s t o c bar fun l => .mxw (c.sub.getLsbD 0) (c.sub.getLsbD 1) c.type.toNat (a s o l) (b s o l)) ∧
  (∀ o c s bar, s.Clear (.mxs o c) spans1 → ready s o c (c.type = 4 || c.type = 5) bar →
    (∀ l ∈ s.acts o, a s o l % 16 = 0 ∧ (s.range 1 (a s o l) (rows (b s o l) * rowBytes c.type.toNat (cols (b s o l)))).isSome ∧
      b s o l < 2 ^ 19 ∧ b s o l % 256 + rows (b s o l) ≤ 256 ∧ (blockFormat c.type.toNat = true → cols (b s o l) % 32 = 0)) →
    ∃ t, exec (.mxs o c) s = .next t ∧ s.Issued t (.mxs o c) o c spans1 (s.core s.coreNo).mIssued ∧
      queues s t o c bar fun l => .mxs c.type.toNat (c.sub.toNat % 4) (c.sub.getLsbD 2) (c.sub.getLsbD 3) (a s o l) (b s o l % 256)
        (rows (b s o l)) (cols (b s o l))) ∧
  (∀ o c s bar (off : Nat → Nat), s.Clear (.mxd o c) { d := 1, a := addrRegs (drainSpace c), b := 1 } → ready s o c false bar →
    let row := 128 * drainBytes c.type.toNat
    let stride := fun l => if b s o l / 65536 = 0 then row else b s o l / 65536 * 128
    let dst := fun l => (addrA (drainSpace c) (reader s.pre o l)).toNat
    (∀ l ∈ s.acts o, dst l % 128 = 0 ∧ b s o l % 256 + rows (b s o l) ≤ 256 ∧ row ≤ stride l ∧
      (if drainSpace c = 0 then off l = dst l
       else s.range (drainSpace c) (dst l) ((rows (b s o l) - 1) * stride l + row) = some (off l))) →
    ∃ t, exec (.mxd o c) s = .next t ∧
      s.Issued t (.mxd o c) o c { d := 1, a := addrRegs (drainSpace c), b := 1 } (s.core s.coreNo).mIssued ∧
      queues s t o c bar fun l => .mxd c.type.toNat (c.sub.toNat % 4) (drainSpace c) (c.spec.getLsbD 18) (off l) (b s o l % 256)
        (rows (b s o l)) (stride l)) ∧
  ∀ o c s bar, s.Clear (.mxz o c) spans1 → ready s o c false bar →
    ∃ t, exec (.mxz o c) s = .next t ∧ s.Issued t (.mxz o c) o c spans1 (s.core s.coreNo).mIssued ∧
      queues s t o c bar fun _ => .mxz (c.sub.toNat % 4)

/-- For one act of COLL with FEATMASK bit 5 set, no dirty byte left unwritten, a barrier and a record that keep R291 and R335, a member
list and a send buffer that the TLB or the heap window translates, no contribution waiting on the die and no other member in this
module: a new instance with the next number joins those of the die, the next of this tag, context and rank, with the record's fields,
the members and this member's contribution of the bytes of the send buffer; the number goes to D, the group goes on, and nothing else
changes. That the send buffer is read at issue is the model's choice (log entry 42), and so is that instances are their context's own
and that the n-th issue of a tag by a member is part of the n-th instance (log entry 63). A record whose count, member count, rank or
reserved bytes break a limit gives PROTECTION with TINFO 24 where the group can trap. (R335, R336, R374, R291, R208) -/
def Obligations.CollectiveContributions : Prop :=
  (∀ o c s l₀ bar r mb send, s.Clear (.coll o c) spans1 → s.acts o = [l₀] → c.order ≠ 2 → s.engineBar c = .ok bar →
    let a := offsetA (reader s.pre o l₀)
    let n := fld r 16 4
    let p := fld r 20 2
    let rank := fld r 22 2
    let members := (List.range p).map fun j => fld mb (2 * j) 2
    let bytes := sendBlocks c.sub.toNat p * n * collBytes c.type.toNat
    a.toNat % 64 = 0 → s.recordAt a.toNat 64 = some r → 1 ≤ n → n ≤ 2 ^ 30 → 2 ≤ p → p ≤ 1024 → rank < p → fld r 36 28 = 0 →
    s.readGlobal (a.zeroExtend 128) (p + 2) (BitVec.ofNat 64 (fld r 24 8)) (2 * p) = (s, .ok mb) →
    s.readGlobal (a.zeroExtend 128) (bytes / 4096 + 2) (BitVec.ofNat 64 (fld r 0 8)) bytes = (s, .ok send) →
    (∀ m ∈ members, m < 4096 ∧ (c.scope = 4 → m % 1024 = s.mod.modnum.toNat)) →
    (s.die s.dieNo).collSteps = [] → (∀ j, j < p → j ≠ rank → members.getD j 0 % 1024 ≠ s.mod.modnum.toNat) →
    let num := (s.die s.dieNo).collIssued + 1
    let key := collKey s.ctxNo rank (BitVec.ofNat 32 (fld r 32 4))
    let inst := (s.die s.dieNo).collCount.get key 0 + 1
    ∃ t x, exec (.coll o c) s = .next t ∧ { t with waves := s.waves, cur := s.cur, dies := s.dies } = s ∧
      (∀ d, t.die d = if d = s.dieNo then { s.die d with collIssued := num, collCount := (s.die d).collCount.put key inst, colls := (s.die d).colls ++ [x] } else s.die d) ∧
      (x.num = num ∧ x.team = s.tid ∧ x.ctx = s.ctxNo ∧ x.wave = s.cur.wave ∧ x.scope = c.scope.toNat ∧ x.bar = bar ∧
        x.lanes = (if o.s then s.mask else 1#32 <<< l₀) ∧ x.recv = BitVec.ofNat 64 (fld r 8 8) ∧ x.kind = c.sub.toNat ∧
        x.type = c.type.toNat ∧ x.n = n ∧ x.p = p ∧ x.rank = rank ∧ x.tag = BitVec.ofNat 32 (fld r 32 4) ∧ x.members = members ∧
        x.failed = false ∧ x.page = none ∧ x.ended = false ∧ x.inst = inst ∧ x.core = s.coreNo ∧ x.pc = s.cur.pc ∧
        x.loc = s.location s.cur.wave (lowest x.lanes) ∧ x.teamId = BitVec.ofNat 32 s.tm.lin ∧
        x.steps = [{ inst := inst, ctx := s.ctxNo, rank := rank, kind := c.sub.toNat, type := c.type.toNat, n := n, p := p, send := send : CollStep }]) ∧
      s.Frame t (.coll o c) spans1 (s.puts (.coll o c) o 1 fun _ _ => BitVec.ofNat 32 num) ∧ t.At s.mask fun _ => s.nextPc) ∧
  ∀ o c s l₀ bar r, s.Clear (.coll o c) spans1 → s.acts o = [l₀] → s.CanTrap → s.engineBar c = .ok bar →
    (offsetA (reader s.pre o l₀)).toNat % 64 = 0 → s.recordAt (offsetA (reader s.pre o l₀)).toNat 64 = some r →
    (fld r 16 4 < 1 ∨ 2 ^ 30 < fld r 16 4 ∨ fld r 20 2 < 2 ∨ 1024 < fld r 20 2 ∨ fld r 20 2 ≤ fld r 22 2 ∨ fld r 36 28 ≠ 0) →
    ∃ t, exec (.coll o c) s = .next t ∧ s.Outside t ∧ s.Took t s.mask 5 (fun _ => 24) (fun _ => 0)

/-- For one act whose operand is the base of a well-formed region: PUBLISH of a region that is not published and has a next generation
writes back the core's dirty bytes at its scope, then stores generation + 1, the scope and state published, and D receives the
generation; RETRACT of a published region with none pending records the pending generation and the barrier, marks it pending and
retracting, notes the team and the die, and D receives the generation; every byte outside bytes 12 to 27 of the entry is as it was.
Where the group can trap, PUBLISH in no region gives PROTECTION with TINFO 1, and of a published region REGION_CLOSED with its number.
ADOPT of a published region, at the generation B names unless B is all ones, leaves every core of its scope with that generation
adopted and no line of the region at another generation in its instruction cache, its own core from die scope up with no clean L1 line
and seeing memory wherever it holds no dirty byte, and D with the generation; else D receives 0 and no core changes. ICINV writes back
the core's dirty bytes at its scope and drops from every core of the scope exactly the context's instruction lines that overlap a range
of an act. The group goes on and nothing else changes. (R426, R439, R265, R259, R268, R350, R401, R263, R267, R202) -/
def Obligations.PublicationAndAdoption : Prop :=
  (∀ o c s l₀ r, s.Clear (.publish o c) baseSpans → s.acts o = [l₀] →
    let base := reader s.pre o l₀ .n .a
    let x := s.region s.ctxNo r
    let at' := s.regionAddr s.ctxNo r
    s.regionAt s.ctxNo base = some r → x.base = base.toNat → x.bad = false → x.state ≠ 2 → x.gen ≠ 0xFFFFFFFE →
    ∃ t, exec (.publish o c) s = .next t ∧ s.OutsideMem t ∧ t.tm = s.tm ∧ (∀ d, t.die d = s.die d) ∧
      (∀ d, d ≠ s.coreNo → t.core d = s.core d) ∧
      s.calm.Frame t.calm (.publish o c) baseSpans (s.puts (.publish o c) o 1 fun _ _ => BitVec.ofNat 32 (x.gen + 1)) ∧
      (t.At s.mask fun _ => s.nextPc) ∧
      (let y := t.region s.ctxNo r
       y.gen = (x.gen + 1) % 2 ^ 32 ∧ y.scope = c.scope.toNat ∧ y.state = 2 ∧ y.pending = x.pending ∧ y.pgen = x.pgen ∧ y.bar = x.bar) ∧
      ∀ a, (a < at' + 12 ∨ at' + 28 ≤ a) → t.settled s.coreNo a = s.settled s.coreNo a ∧
        (3 ≤ c.scope.toNat → Memory.read t.mem a = s.settled s.coreNo a)) ∧
  (∀ o c s l₀ r bar, s.Clear (.retract o c) baseSpans → s.acts o = [l₀] → s.engineBar c = .ok bar →
    let base := reader s.pre o l₀ .n .a
    let x := s.region s.ctxNo r
    let at' := s.regionAddr s.ctxNo r
    s.regionAt s.ctxNo base = some r → x.base = base.toNat → x.bad = false → x.state = 2 → x.pending = false →
    ∃ t, exec (.retract o c) s = .next t ∧ { t with waves := s.waves, cur := s.cur, mem := s.mem, ctxs := s.ctxs } = s ∧
      (∀ k, t.ctx k = if k = s.ctxNo then { s.ctx k with retracts := (s.ctx k).retracts.put r (s.tid, s.dieNo) } else s.ctx k) ∧
      s.calm.Frame t.calm (.retract o c) baseSpans (s.puts (.retract o c) o 1 fun _ _ => BitVec.ofNat 32 x.gen) ∧
      (t.At s.mask fun _ => s.nextPc) ∧
      (let y := t.region s.ctxNo r
       y.gen = x.gen ∧ y.scope = x.scope ∧ y.state = 3 ∧ y.pending = true ∧ y.pgen = x.gen ∧ y.bar = c.barSpace * 65536 + c.barIndex) ∧
      ∀ a, (a < at' + 12 ∨ at' + 28 ≤ a) → Memory.read t.mem a = Memory.read s.mem a) ∧
  (∀ o c s l₀, s.Clear (.publish o c) baseSpans → s.acts o = [l₀] → s.CanTrap → s.regionAt s.ctxNo (reader s.pre o l₀ .n .a) = none →
    ∃ t, exec (.publish o c) s = .next t ∧ s.Outside t ∧ s.Took t s.mask 5 (fun _ => 1) (fun _ => reader s.pre o l₀ .n .a)) ∧
  (∀ o c s l₀ r, s.Clear (.publish o c) baseSpans → s.acts o = [l₀] → s.CanTrap →
    let base := reader s.pre o l₀ .n .a
    s.regionAt s.ctxNo base = some r → (s.region s.ctxNo r).base = base.toNat → (s.region s.ctxNo r).bad = false →
    ((s.region s.ctxNo r).state = 2 ∨ (s.region s.ctxNo r).gen = 0xFFFFFFFE) →
    ∃ t, exec (.publish o c) s = .next t ∧ s.Outside t ∧ s.Took t s.mask 0x0A (fun _ => BitVec.ofNat 32 r) (fun _ => base)) ∧
  (∀ o c s l₀ r, s.Clear (.adopt o c) baseSpans → s.acts o = [l₀] →
    let base := reader s.pre o l₀ .n .a
    let want := lo32 (reader s.pre o l₀ .w .b)
    let x := s.region s.ctxNo r
    s.regionAt s.ctxNo base = some r → x.base = base.toNat → x.bad = false →
    (x.state = 2 ∧ (want = -1 ∨ want.toNat = x.gen) →
      ∃ t, exec (.adopt o c) s = .next t ∧ { t with waves := s.waves, cur := s.cur, cores := s.cores } = s ∧
        s.Frame t (.adopt o c) baseSpans (s.puts (.adopt o c) o 1 fun _ _ => BitVec.ofNat 32 x.gen) ∧ (t.At s.mask fun _ => s.nextPc) ∧
        (∀ k a, t.settled k a = s.settled k a) ∧
        (3 ≤ c.scope.toNat → (∀ a y, (t.core s.coreNo).l1.find? a = some y → y.dirty ≠ 0) ∧
          ∀ a, t.seen s.coreNo a = s.settled s.coreNo a) ∧
        ∀ k, { t.core k with l1 := (s.core k).l1, adopt := (s.core k).adopt, icache := (s.core k).icache } = s.core k ∧
          if k ∈ coresOf c.scope.toNat s.coreNo then
            (t.core k).adopted s.ctxNo r = some (BitVec.ofNat 32 x.gen) ∧
            (t.core k).adopt.length ≤ 256 ∧
            ∀ i, i ∈ (t.core k).icache ↔ i ∈ (s.core k).icache ∧
              ¬ (i.ctx = s.ctxNo ∧ i.line * 128 < x.base + x.len ∧ x.base < (i.line + 1) * 128 ∧ i.gen ≠ BitVec.ofNat 32 x.gen)
          else (t.core k).adopt = (s.core k).adopt ∧ (t.core k).icache = (s.core k).icache) ∧
    (¬ (x.state = 2 ∧ (want = -1 ∨ want.toNat = x.gen)) →
      ∃ t, exec (.adopt o c) s = .next t ∧ s.Outside t ∧
        s.Frame t (.adopt o c) baseSpans (s.puts (.adopt o c) o 1 fun _ _ => 0) ∧ t.At s.mask fun _ => s.nextPc)) ∧
  ∀ o c s, s.Clear (.icinv o c) baseSpans →
    ∃ t, exec (.icinv o c) s = .next t ∧ { t with waves := s.waves, cur := s.cur, cores := s.cores, mem := s.mem } = s ∧
      s.calm.Frame t.calm (.icinv o c) baseSpans {} ∧ (t.At s.mask fun _ => s.nextPc) ∧
      (∀ a, t.settled s.coreNo a = s.settled s.coreNo a) ∧ (c.scope.toNat < 3 → t.mem = s.mem) ∧
      (3 ≤ c.scope.toNat → ∀ a, Memory.read t.mem a = s.settled s.coreNo a) ∧
      ∀ k, { t.core k with l1 := (s.core k).l1, icache := (s.core k).icache } = s.core k ∧ (k ≠ s.coreNo → (t.core k).l1 = (s.core k).l1) ∧
        ∀ i, i ∈ (t.core k).icache ↔ i ∈ (s.core k).icache ∧ ¬ (k ∈ coresOf c.scope.toNat s.coreNo ∧ i.ctx = s.ctxNo ∧ ∃ l ∈ s.acts o,
          let base := (reader s.pre o l .n .a).toNat
          let len := (reader s.pre o l .w .b).toNat
          len ≠ 0 ∧ i.line * 128 < base + len ∧ base < (i.line + 1) * 128)

/-- With FEATMASK bit 3: TRY in a group of no members makes every lane a member at depth 1 with status 0 and the abort target its control
word names, its checkpoint covering the lines of its window, in lines already shadowed its slice being copied afresh; TRY of members
below depth 4 and COMMIT above depth 1 change each depth by one; TRY at depth 4 aborts with DEPTH, detail 5. COMMIT at depth 1, where
every live .wave member is in the group if any is, performs every byte that lanes without conflict buffered, lanes ascending, and takes
them out of the region with status 0, while lanes that a conflict has reached, with every .wave member if one of them is such, abort
with CONFLICT; the core then sees those bytes, and every other byte as before. COMMIT of .wave members without all of them aborts all
with FAULT, detail 0x16; at depth 0 it gives TRY_MISUSE with TINFO 1. Lines that the lanes watch have no dirty byte in the core and no
range of theirs does. Nothing else changes but conflicts of lanes that watch the stored lines. (R468, R273, R274, R281, R283, R375, R284) -/
def Obligations.TryOpensDeepensAndCommits : Prop :=
  (∀ o c s, s.Clear (.tryR o c) spans1 → (s.ctx s.ctxNo).featmask.getLsbD 3 = true →
    (s.members = 0 →
      ∃ t, exec (.tryR o c) s = .next t ∧ s.Outside t ∧
        s.Frame t (.tryR o c) spans1
          { wave := fun w => { w with covered := t.w.covered },
            lane := fun l x => if s.mask.getLsbD l then
              { x with depth := 1, status := 0, waveMode := c.sub == 1, target := s.cur.pc + c.spec.signExtend 64 * 4,
                       belay := [], watch := [], pages := [], conflict := false } else x } ∧
        (∀ x, x ∈ t.w.covered ↔ x ∈ s.w.covered ∨ (s.pre.vb / 8 ≤ x ∧ x < s.pre.vb / 8 + 12) ∨
          (64 + s.pre.sb / 32 ≤ x ∧ x ≤ 64 + (s.pre.sb + 95) / 32)) ∧
        (∀ x ws, s.w.shadow.find? x = some ws → ws.length = (if x < 64 then 256 else 32) → ∃ ws', t.w.shadow.find? x = some ws' ∧
          ∀ r l, r < 8 → l < 32 → ws'.getD (32 * r + l) 0 =
            if x < 64 ∧ s.mask.getLsbD l = true then (s.w.lane l).reg (x * 8 + r) else ws.getD (32 * r + l) 0) ∧
        t.At s.mask fun _ => s.nextPc) ∧
    ((∀ l, s.mask.getLsbD l = true → 1 ≤ (s.w.lane l).depth ∧ (s.w.lane l).depth ≤ 3) →
      ∃ t, exec (.tryR o c) s = .next t ∧ s.Outside t ∧
        s.Frame t (.tryR o c) spans1 { lane := fun l x => if s.mask.getLsbD l then { x with depth := x.depth + 1 } else x } ∧
        t.At s.mask fun _ => s.nextPc) ∧
    ((∀ l, s.mask.getLsbD l = true → (s.w.lane l).depth = 4) →
      ∃ t, exec (.tryR o c) s = .next t ∧ s.Outside t ∧
        s.Aborting t (.tryR o c) spans1 (s.w.aborts fun l => s.mask.getLsbD l) 0x50008 fun _ x => x)) ∧
  ∀ o c s, s.Clear (.commit o c) spans1 →
    let settles := fun (t : State) => s.OutsideMem t ∧ t.tm = s.tm ∧ (∀ d, t.die d = s.die d) ∧
      ∀ a, t.settled s.coreNo a = s.settled s.coreNo a
    let whole := (∃ l, s.mask.getLsbD l = true ∧ (s.w.lane l).waveMode = true) →
      ∀ l, l < 32 → (s.w.lane l).member = true → (s.w.lane l).live = true → (s.w.lane l).waveMode = true → s.mask.getLsbD l = true
    ((∀ l, s.mask.getLsbD l = true → 2 ≤ (s.w.lane l).depth) →
      ∃ t, exec (.commit o c) s = .next t ∧ settles t ∧
        s.calm.Frame t.calm (.commit o c) spans1 { lane := fun l x => if s.mask.getLsbD l then { x with depth := x.depth - 1 } else x } ∧
        t.At s.mask fun _ => s.nextPc) ∧
    ((∀ l, s.mask.getLsbD l = true → (s.w.lane l).depth = 1 ∧ (∀ p ∈ (s.w.lane l).belay, p.1.space ≤ 2) ∧
        ∀ p ∈ (s.w.lane l).watch, p.space = 0 → ∀ q ∈ (s.core s.coreNo).l1, q.2.dirty ≠ 0 → q.1 / 8 ≠ p.addr / 1024) →
      (s.teams.find? s.tid).isSome → whole →
      let gone := s.w.aborts fun l => s.mask.getLsbD l && (s.w.lane l).conflict
      let left := fun (x : Lane) => { x with belay := [], watch := [], pages := [], depth := 0, status := 0, conflict := false }
      let perform := fun (v : Loc → Byte) (l : Nat) =>
        if gone l then v
        else (s.w.lane l).belay.reverse.foldl (fun v p => fun q => if q = p.1 then p.2 else v q) v
      ∃ t, exec (.commit o c) s = .next t ∧ s.OutsideMem t ∧
        (∀ q, q.space ≤ 2 → t.byteBy (t.settled s.coreNo) q = (lanesOf s.mask).foldl perform (s.byteBy (s.settled s.coreNo)) q) ∧
        ((∀ l, s.mask.getLsbD l = true → (s.w.lane l).conflict = false) →
          s.calm.Frame t.calm (.commit o c) spans1
            { wave := fun w => { w with covered := t.w.covered }, lane := fun l x => if s.mask.getLsbD l then left x else x } ∧
          t.At s.mask fun _ => s.nextPc) ∧
        ((∃ l, s.mask.getLsbD l = true ∧ (s.w.lane l).conflict = true) →
          s.calm.Aborting t.calm (.commit o c) spans1 gone 3 fun l x =>
            if s.mask.getLsbD l then { left x with pc := s.nextPc, life := .ready } else x)) ∧
    ((∀ l, s.mask.getLsbD l = true → (s.w.lane l).depth = 1 ∧ (s.w.lane l).waveMode = true) → ¬ whole →
      ∃ t, exec (.commit o c) s = .next t ∧ settles t ∧
        s.calm.Aborting t.calm (.commit o c) spans1 (s.w.aborts fun l => s.mask.getLsbD l) 0x160005 fun _ x => x) ∧
    (s.members = 0 → s.CanTrap →
      ∃ t, exec (.commit o c) s = .next t ∧ settles t ∧ s.calm.Took t.calm s.mask 0x16 (fun _ => 1) (fun _ => 0))

/-- ABORT in a group of members: every lane, with every live member of .wave mode of the wave where one of the group is such, continues at
its abort target, outside the region, with nothing buffered or watched, its registers in shadowed lines as their shadows hold them and
else as before the clk, and status EXPLICIT with imm8, which TSTATUS takes too; shadowed scalar lines are restored; every other
register, every other lane, every byte of memory and all other state is as it was. In a group of no members that can trap, every lane
takes TRY_MISUSE with TINFO 1. TSTAT writes each lane's status word to D. (R281, R285, R347, R469) -/
def Obligations.AbortsRestoreTheLane : Prop :=
  (∀ o c s, s.Clear (.abort o c) spans1 →
    ((∀ l, s.mask.getLsbD l = true → (s.w.lane l).member = true) →
      ∃ t, exec (.abort o c) s = .next t ∧ s.Outside t ∧
        s.Aborting t (.abort o c) spans1 (s.w.aborts fun l => s.mask.getLsbD l) (BitVec.ofNat 32 (1 + c.spec.toNat % 256 * 256)) fun _ x => x) ∧
    (s.members = 0 → s.CanTrap → ∃ t, exec (.abort o c) s = .next t ∧ s.Outside t ∧ s.Took t s.mask 0x16 (fun _ => 1) (fun _ => 0))) ∧
  ∀ o s, s.Clear (.tstat o) spans1 → o.s = false →
    ∃ t, exec (.tstat o) s = .next t ∧ s.Outside t ∧
      s.Frame t (.tstat o) spans1 (s.puts (.tstat o) o 1 fun l _ => (s.w.lane l).status) ∧ t.At s.mask fun _ => s.nextPc

/-- For one act of an aligned record address that translates, in a team that is there: below depth 10, LAUNCH with four records pending
answers 1 and takes nothing; else it writes back what the core holds dirty and reads the record, and answers 2 where it breaks a limit
of R309, or 0 with the record queued at the team under the next launch number, with the object that its completion names, and one more
child. TSUB answers 1 where the pools of the die hold 16384 tasks, else 0 with the task pooled under the next number. At depth 10
LAUNCH gives LAUNCH_DEPTH with TINFO 10 where the group can trap. Nothing else changes. (R404, R470, R309, R57, R208, R315) -/
def Obligations.LaunchAndTaskSubmission : Prop :=
  (∀ o s l₀, s.Clear (.launch o) baseSpans → s.acts o = [l₀] → (s.teams.find? s.tid).isSome →
    let a := reader s.pre o l₀ .n .a
    a.toNat % 64 = 0 → s.tm.depth ≠ 10 →
    (4 ≤ s.tm.pending.length →
      ∃ t, exec (.launch o) s = .next t ∧ s.Outside t ∧ s.Frame t (.launch o) baseSpans (s.puts (.launch o) o 1 fun _ _ => 1) ∧
        t.At s.mask fun _ => s.nextPc) ∧
    ∀ pa, s.tm.pending.length < 4 → s.settle.place 0 0 64 a 0 = (s.settle, .ok (.mem pa)) →
      let r := parseLaunch (s.settledBytes pa 64)
      let n := (s.ctx s.ctxNo).launchIssued + 1
      (s.launchOk s.ctxNo (.child s.tid) r = false →
        ∃ t, exec (.launch o) s = .next t ∧ s.Released t ∧
          s.calm.Frame t.calm (.launch o) baseSpans (s.puts (.launch o) o 1 fun _ _ => 2) ∧ t.At s.mask fun _ => s.nextPc) ∧
      (s.launchOk s.ctxNo (.child s.tid) r = true →
        ∃ t, exec (.launch o) s = .next t ∧ s.Released { t with teams := s.teams, ctxs := s.ctxs } ∧
          s.calm.Frame t.calm (.launch o) baseSpans (s.puts (.launch o) o 1 fun _ _ => 0) ∧ (t.At s.mask fun _ => s.nextPc) ∧
          (∀ k, t.team k = if k = s.tid then
            { s.team k with
              pending := (s.team k).pending ++ [{ num := n, record := r, bar := s.completionObj s.ctxNo (.child s.tid) r.completion }],
              children := (s.team k).children + 1 } else s.team k) ∧
          ∀ k, t.ctx k = if k = s.ctxNo then
            { s.ctx k with launchIssued := n, launchOut := (s.ctx k).launchOut ++ [n] } else s.ctx k)) ∧
  (∀ o s l₀ pa, s.Clear (.tsub o) baseSpans → s.acts o = [l₀] →
    let a := reader s.pre o l₀ .n .a
    a.toNat % 64 = 0 → s.settle.place 0 0 64 a 0 = (s.settle, .ok (.mem pa)) →
    let r := parseTask (s.settledBytes pa 64)
    let u := s.unit s.dieNo s.ctxNo
    r.breach = none → r.er = false →
    let full := 16384 ≤ ((s.die s.dieNo).units.map fun p => p.2.pool.length).sum
    (full → ∃ t, exec (.tsub o) s = .next t ∧ s.Released t ∧
      s.calm.Frame t.calm (.tsub o) baseSpans (s.puts (.tsub o) o 1 fun _ _ => 1) ∧ t.At s.mask fun _ => s.nextPc) ∧
    (¬ full → ∃ t, exec (.tsub o) s = .next t ∧ s.Released { t with dies := s.dies } ∧
      s.calm.Frame t.calm (.tsub o) baseSpans (s.puts (.tsub o) o 1 fun _ _ => 0) ∧ (t.At s.mask fun _ => s.nextPc) ∧
      (∀ d, { t.die d with units := (s.die d).units } = s.die d) ∧
      ∀ d c, t.unit d c = if d = s.dieNo ∧ c = s.ctxNo then
        { u with pool := u.pool ++ [(u.issued + 1, r)], issued := u.issued + 1, outstanding := u.outstanding ++ [u.issued + 1] }
        else s.unit d c)) ∧
  ∀ o s l₀, s.Clear (.launch o) baseSpans → s.acts o = [l₀] → s.CanTrap → s.tm.depth = 10 →
    ∃ t, exec (.launch o) s = .next t ∧ s.Outside t ∧ s.Took t s.mask 0x0F (fun _ => 10) (fun _ => 0)

/-- TDONE in a team that runs a task not yet done, with no arm waiting: the core's dirty bytes are written back and the task is done. A
pooled task's number leaves the outstanding ones of its unit; its successor counter falls by one, and at 0 the record named beside it
enters the pool with the next number. A graph task's turn ends: it has one more turn, does not run, all its ropes and their bytes in
memory point away from it, and no other task or rope changes; with the last turn of all the graph leaves the die and its barrier gets
an arrival. Addresses are translated without a walk. In a team with no task, or done, where the group can trap, PROTECTION with TINFO
5. One act of ERPASS sets the pass mark of a task of the context that is not Done and answers 0, and else answers 2 with no effect,
also for a graph of another context, which is the model's choice (log entry 63). SPAWN of one lane, with FEATMASK bit 7 and a pool,
enters an unfired bin of its key that does not fill, or an empty bin with a new timer. The lanes go on and nothing else changes. (R461, R316, R319, R479, R390, R27, R449, R59, R60, R61) -/
def Obligations.TaskEndPassAndSpawn : Prop :=
  (∀ o s r, s.Clear (.tdone o) spans1 → (s.teams.find? s.tid).isSome → s.tm.task = some r → s.tm.tdone = false → s.arms = [] →
    let succ := r.task.succ
    let u := s.unit r.die s.ctxNo
    let marked := fun (t : State) (mem : Nat → Byte) =>
      { t with waves := s.waves, cur := s.cur, cores := s.cores, mem := s.mem, teams := s.teams, dies := s.dies } = s ∧
      (∀ c, { t.core c with l1 := (s.core c).l1 } = s.core c) ∧ (∀ c, c ≠ s.coreNo → t.core c = s.core c) ∧
      (∀ a, Memory.read t.mem a = mem a) ∧ s.calm.Frame t.calm (.tdone o) spans1 {} ∧ (t.At s.mask fun _ => s.nextPc) ∧
      ∀ k, t.team k = if k = s.tid then { s.team k with tdone := true } else s.team k
    let ended := fun (t : State) (u : TaskUnit) =>
      (∀ d, { t.die d with units := (s.die d).units } = s.die d) ∧
      ∀ d c, t.unit d c = if d = r.die ∧ c = s.ctxNo then { u with outstanding := u.outstanding.filter (· != r.num) } else s.unit d c
    (r.graph = false → succ = 0 → ∃ t, exec (.tdone o) s = .next t ∧ marked t (s.settled s.coreNo) ∧ ended t u) ∧
    (∀ pa, r.graph = false → succ ≠ 0 → s.DieMaps r.die s.ctxNo succ 2 pa →
      let v := BitVec.ofNat 32 (fromBytes (s.settledBytes pa 4)) - 1
      let mem := fun a => if pa ≤ a ∧ a < pa + 4 then (toBytes 4 v.toNat).getD (a - pa) 0 else s.settled s.coreNo a
      (v ≠ 0 → ∃ t, exec (.tdone o) s = .next t ∧ marked t mem ∧ ended t u) ∧
      ∀ pb pc, v = 0 → s.DieMaps r.die s.ctxNo (succ + 8) 0 pb → (pb + 8 ≤ pa ∨ pa + 4 ≤ pb) → (pc + 64 ≤ pa ∨ pa + 4 ≤ pc) →
        let next := BitVec.ofNat 64 (fromBytes (s.settledBytes pb 8))
        let task := parseTask (s.settledBytes pc 64)
        next.toNat % 64 = 0 → s.DieMaps r.die s.ctxNo next 0 pc → task.breach = none → task.er = false →
        ((s.die r.die).units.map fun p => p.2.pool.length).sum < 16384 →
        ∃ t, exec (.tdone o) s = .next t ∧ marked t mem ∧
          ended t { u with pool := u.pool ++ [(u.issued + 1, task)], issued := u.issued + 1, outstanding := u.outstanding ++ [u.issued + 1] }) ∧
    ∀ g x (pa : Nat → Nat), r.graph = true → succ = 0 → (s.die r.die).graph r.task.gid = some g → g.task r.idx = some x →
      (∀ j ∈ x.ropes, s.DieMaps r.die g.ctx (g.ropeBase + BitVec.ofNat 64 (16 * j + 4)) 1 (pa j)) →
      let away := fun (j : Nat) => match g.ropes[j]? with | some q => q.a == r.idx | none => false
      let mem := fun a => x.ropes.foldl (fun b j => if a = pa j then BitVec.ofNat 8 (b.toNat / 2 * 2 + (away j).toNat) else b)
        (s.settled s.coreNo a)
      let last := g.rounds ≤ x.turns + 1 ∧ ∀ i y, i ≠ r.idx → g.task i = some y → g.rounds ≤ y.turns
      (¬ last → ∃ t y, exec (.tdone o) s = .next t ∧ marked t mem ∧ (∀ d, d ≠ r.die → t.die d = s.die d) ∧
        { t.die r.die with graphs := (s.die r.die).graphs } = s.die r.die ∧
        (t.die r.die).graph r.task.gid = some y ∧ { y with ropes := g.ropes, tasks := g.tasks } = g ∧
        y.tasks = g.tasks.set r.idx { x with turns := x.turns + 1, running := false } ∧
        (∀ j, y.ropes[j]? = (g.ropes[j]?).map fun q => if j ∈ x.ropes then { q with towardB := away j } else q) ∧
        ∀ h, h ≠ r.task.gid → (t.die r.die).graph h = (s.die r.die).graph h) ∧
      (last → s.objThere g.bar = true → (∀ k off, g.bar = .team k off → (s.team k).away = false) →
        ∃ t, exec (.tdone o) s = .next t ∧ (t.die r.die).graph r.task.gid = none ∧ (∀ a, Memory.read t.mem a = mem a) ∧
          t.bar g.bar = (s.bar g.bar).arrive.check)) ∧
  (∀ o s, s.Clear (.tdone o) spans1 → s.CanTrap → (s.tm.task = none ∨ s.tm.tdone = true) →
    ∃ t, exec (.tdone o) s = .next t ∧ s.Outside t ∧ s.Took t s.mask 5 (fun _ => 5) (fun _ => 0)) ∧
  (∀ o s l₀, s.Clear (.erpass o) spans1 → s.acts o = [l₀] →
    let gid := (reader s.pre o l₀ .w .a).toNat
    let i := (reader s.pre o l₀ .w .b).toNat
    (∀ g x, (s.die s.dieNo).graph gid = some g → g.ctx = s.ctxNo → g.task i = some x → x.turns < g.rounds →
      ∃ t, exec (.erpass o) s = .next t ∧ { t with waves := s.waves, cur := s.cur, dies := s.dies } = s ∧
        s.Frame t (.erpass o) spans1 (s.puts (.erpass o) o 1 fun _ _ => 0) ∧ (t.At s.mask fun _ => s.nextPc) ∧
        (∀ d, { t.die d with graphs := (s.die d).graphs } = s.die d ∧ (d ≠ s.dieNo → t.die d = s.die d)) ∧
        (t.die s.dieNo).graph gid = some { g with tasks := g.tasks.set i { x with mark := true } } ∧
        ∀ h, h ≠ gid → (t.die s.dieNo).graph h = (s.die s.dieNo).graph h) ∧
    (((s.die s.dieNo).graph gid = none ∨ (∃ g, (s.die s.dieNo).graph gid = some g ∧
        (g.ctx ≠ s.ctxNo ∨ g.tasks.length ≤ i ∨ ∃ x, g.task i = some x ∧ g.rounds ≤ x.turns))) →
      ∃ t, exec (.erpass o) s = .next t ∧ s.Outside t ∧ s.Frame t (.erpass o) spans1 (s.puts (.erpass o) o 1 fun _ _ => 2) ∧
        t.At s.mask fun _ => s.nextPc)) ∧
  ∀ o s l₀, s.Clear (.spawn o) { d := 1, a := 2, b := 1 } → o.s = false → s.mask = 1#32 <<< l₀ → l₀ < 32 →
    (s.ctx s.ctxNo).featmask.getLsbD 7 = true → s.tm.pool ≠ 0 → (reader s.pre o l₀ .n .a).toNat % 4 = 0 →
    (∀ p ∈ (s.core s.coreNo).bins, p.2.args ≠ []) →
    let entry := reader s.pre o l₀ .n .a
    let arg := lo32 (reader s.pre o l₀ .w .b)
    let enters := fun (b : Nat) (y : Bin) =>
      ∃ t, exec (.spawn o) s = .next t ∧ { t with waves := s.waves, cur := s.cur, cores := s.cores } = s ∧
        s.Frame t (.spawn o) { d := 1, a := 2, b := 1 } {} ∧ (t.At s.mask fun _ => s.nextPc) ∧
        (∀ c, { t.core c with bins := (s.core c).bins, spawned := (s.core c).spawned } = s.core c ∧
          (t.core c).spawned = if c = s.coreNo then (s.core c).spawned + 1 else (s.core c).spawned) ∧
        ∀ c k, (t.core c).bins.find? k = if c = s.coreNo ∧ k = b then some y else (s.core c).bins.find? k
    (∀ b y, (s.core s.coreNo).binOf s.tid entry = some b → (s.core s.coreNo).bins.find? b = some y → y.fired = false →
      y.args.length < 31 → enters b { y with args := y.args ++ [arg] }) ∧
    ∀ b, (s.core s.coreNo).binOf s.tid entry = none → (s.core s.coreNo).emptyBin = some b →
      enters b { team := s.tid, entry := entry, args := [arg], seq := (s.core s.coreNo).spawned, due := s.clk + (s.ctx s.ctxNo).spwndly.toNat, fired := false }

/-- For one act of an aligned descriptor whose parts are read and pass checks 1 and 2 of R318: with 16 graphs armed on the die ERARM
answers 1 and arms nothing; else, where the ropes give no cycle, it answers 0 and the die holds one more graph, of the context, with
the rounds, tasks, rope lists, ropes and completion barrier read, no task having run or been marked; where a cycle is found and the
group can trap, every lane takes ROPE_CYCLE with TINFO the rope. What the core held dirty has been written back; nothing else changes. (R389, R318, R317) -/
def Obligations.GraphArming : Prop :=
  ∀ o s l₀ g bar, s.Clear (.erarm o) baseSpans → s.acts o = [l₀] → (s.ctx s.ctxNo).featmask.getLsbD 4 = true →
    let a := reader s.pre o l₀ .n .a
    a.toNat % 64 = 0 → s.settle.readGraph a = (s.settle, .ok g) →
    g.breach a (match g.tasks with | t :: _ => ((s.die s.dieNo).graph t.gid).isSome | [] => false) = none →
    s.graphBar g.desc.completion = some bar →
    (16 ≤ (s.die s.dieNo).graphs.length →
      ∃ t, exec (.erarm o) s = .next t ∧ s.Released t ∧
        s.calm.Frame t.calm (.erarm o) baseSpans (s.puts (.erarm o) o 1 fun _ _ => 1) ∧ t.At s.mask fun _ => s.nextPc) ∧
    ((s.die s.dieNo).graphs.length < 16 → g.cycle = none →
      ∃ t x, exec (.erarm o) s = .next t ∧ s.Released { t with dies := s.dies } ∧
        s.calm.Frame t.calm (.erarm o) baseSpans (s.puts (.erarm o) o 1 fun _ _ => 0) ∧ (t.At s.mask fun _ => s.nextPc) ∧
        (∀ d, t.die d = if d = s.dieNo then { s.die d with graphs := (s.die d).graphs ++ [x] } else s.die d) ∧
        x.ctx = s.ctxNo ∧ x.rounds = g.desc.rounds ∧ x.ropeBase = g.desc.ropes ∧ x.bar = bar ∧
        x.ropes = (g.ropes.map fun r => { a := r.a, b := r.b, towardB := r.towardB : Rope }) ∧ x.tasks.length = g.tasks.length ∧
        ∀ i y, x.task i = some y → g.tasks[i]? = some y.task ∧ y.task.gid = x.gid ∧ y.ropes = g.lists.getD i [] ∧ y.turns = 0 ∧
          y.mark = false ∧ y.running = false) ∧
    ∀ j, (s.die s.dieNo).graphs.length < 16 → g.cycle = some j → s.CanTrap →
      ∃ t, exec (.erarm o) s = .next t ∧ s.Released t ∧ s.calm.Took t.calm s.mask 0x0E (fun _ => BitVec.ofNat 32 j) (fun _ => 0)

/-- Where the group can trap, TRAP enters the handler of every lane with cause 0x14, TINFO the lane's A and TPC the address past the
instruction, and BKPT with cause 0x13, TINFO its word and TPC its own address. RTE of lanes in handler mode, with no join or sync open,
leaves handler mode for TPC with bits [1:0] 0; outside handler mode it gives ILLEGAL_OPCODE with TINFO the word and TADDR the address.
SYSC with a free tag, a free slot and room in the fault queue parks every lane of the group in one slot that holds the instruction and
the lanes' arguments, takes a tag of its own, and writes one record of kind 0x82 to the queue; what the core held dirty has been
written back. (R467, R361, R441, R459, R220, R226, R228) -/
def Obligations.TrapsReturnsAndCalls : Prop :=
  (∀ o s, s.Clear (.trap o) spans1 → o.s = false → s.CanTrap →
    ∃ t, exec (.trap o) s = .next t ∧ s.Outside t ∧ (∀ k, k ≠ s.cur.wave → t.waves.find? k = s.waves.find? k) ∧
      ∀ l, if s.mask.getLsbD l then t.w.lane l = { s.w.lane l with
          tcause := 0x14, tinfo := lo32 (reader s.pre o l .w .a), tpc := s.nextPc, taddr := 0, tparent := s.tparent s.cur.wave,
          tsibs := s.w.live &&& ~~~ s.mask, handler := true, life := .ready, pc := s.w.trapvec, latch := (t.w.lane l).latch }
        else { t.w.lane l with latch := (s.w.lane l).latch } = s.w.lane l) ∧
  (∀ o s, s.Clear (.bkpt o) spans1 → s.CanTrap →
    ∃ t, exec (.bkpt o) s = .next t ∧ s.Outside t ∧ s.Took t s.mask 0x13 (fun _ => s.cur.w0) (fun _ => 0)) ∧
  (∀ o s, s.Clear (.rte o) spans1 → (s.pre.lane (lowest s.mask)).handler = true → s.w.joins = [] → s.w.sync.pending = none →
    ∃ t, exec (.rte o) s = .next t ∧ s.Outside t ∧
      s.Frame t (.rte o) spans1 { lane := fun l x => if s.mask.getLsbD l then { x with handler := false } else x } ∧
      t.At s.mask fun l => (s.w.lane l).tpc &&& ~~~ (3#64)) ∧
  (∀ o s, s.Clear (.rte o) spans1 → (s.pre.lane (lowest s.mask)).handler = false → s.CanTrap →
    ∃ t, exec (.rte o) s = .next t ∧ s.Outside t ∧ s.Took t s.mask 1 (fun _ => s.cur.w0) (fun _ => s.cur.pc)) ∧
  ∀ o s tag, s.Clear (.sysc o) { d := 1, a := 2, b := 1 } → o.s = false →
    let c := s.ctx s.ctxNo
    tag < 256 → c.tags.find? tag = none → (∀ j, j < tag → (c.tags.find? j).isSome) → s.slotFree s.cur.wave = true →
    c.waiting = [] → (c.fqhead - c.fqtail).toNat < c.fqsize.toNat → c.fqbar.getLsbD 31 = false →
    let at' := c.fqbase.toNat % 2 ^ 52 + 32 * (c.fqhead.toNat % c.fqsize.toNat)
    let x : Slot :=
      { pc := s.cur.pc, w0 := s.cur.w0, w1 := s.cur.w1, instr := .sysc o, vb := s.pre.vb, sb := s.pre.sb,
        lanes := (lanesOf s.mask).map fun l =>
          (l, { addr := 0, data := (reader s.pre o l .n .a).zeroExtend 128, tag := some tag }) }
    ∃ t idx, exec (.sysc o) s = .next t ∧ s.w.slots.find? idx = none ∧
      { t with waves := s.waves, cur := s.cur, cores := s.cores, mem := s.mem, ctxs := s.ctxs } = s ∧
      s.calm.Frame t.calm (.sysc o) { d := 1, a := 2, b := 1 }
        { wave := fun w => { w with slots := w.slots.put idx x } } ∧
      (∀ l, s.mask.getLsbD l = true → (t.w.lane l).life = .parked idx ∧ (t.w.lane l).pc = (s.w.lane l).pc) ∧
      (∀ k, t.ctx k = if k = s.ctxNo then
        { c with tags := c.tags.put tag { page := 0, sysc := true, resolved := none }, fqhead := c.fqhead + 1 } else s.ctx k) ∧
      (∀ j, j < 32 → Memory.read t.mem (at' + j) = (FaultRec.bytes
        { addr := reader s.pre o (lowest s.mask) .n .a, kind := 0x82, access := o.b.toNat, tag := tag, ctx := s.ctxNo,
          loc := s.location s.cur.wave (lowest s.mask), mask := s.mask, teamId := BitVec.ofNat 32 s.tm.lin, pc := s.cur.pc }).getD j 0) ∧
      ∀ a, (a < at' ∨ at' + 32 ≤ a) → Memory.read t.mem a = s.settled s.coreNo a

/-- RDSR writes the value of the register that B names to D, in each lane its own copy of a per-lane register, in a scalar form that of the
lowest lane: of the user view every 32-bit register, WSTAT with the deepest open try, the critical mark, LTRAP and LSTALE, and of the
privileged view, in context 0, every 32-bit register of the selected context, queue, window, slot, share and peer, of the core, die and
module; FQHEAD after an acquire at device scope. The low half of a 64-bit register of either view, TPC and TADDR among them lane by
lane, reads bits [31:0] and captures bits [63:32], and the next read of the high half gives the captured word, else the current one. A
counter of the selected bank reads what it held last and at most one more event for each clk since, by a free value (the model's
choice, log entry 22). The lanes go on and nothing else changes. (R81, R82, R83, R85, R227, R244, R252, R307, R332, R431, R432) -/
def Obligations.SpecialRegisterReads : Prop :=
  let ctx := fun (s : State) => s.ctx s.w.ctxsel.toNat
  let queue := fun (s : State) => s.queue s.w.lqsel.toNat
  let ls := fun (s : State) (o : Ops) => if o.s then [lowest s.mask] else lanesOf s.mask
  let own := fun (s : State) (o : Ops) (l : Nat) => if o.s then lowest s.mask else l
  (∀ (n : Nat) (val : State → Nat → Word), (n, val) ∈ ([
      (0x000, fun _ l => BitVec.ofNat 32 l), (0x001, fun s _ => BitVec.ofNat 32 s.w.waveId), (0x002, fun s _ => BitVec.ofNat 32 s.tm.lin),
      (0x003, fun s _ => BitVec.ofNat 32 (s.coord s.tid 0)), (0x004, fun s _ => BitVec.ofNat 32 (s.coord s.tid 1)),
      (0x005, fun s _ => BitVec.ofNat 32 (s.coord s.tid 2)),
      (0x006, fun s _ => BitVec.ofNat 32 (s.coreNo % 48)), (0x007, fun s _ => BitVec.ofNat 32 (s.coreNo / 48)),
      (0x008, fun s _ => BitVec.ofNat 32 s.ctxNo), (0x009, fun s _ => BitVec.ofNat 32 s.tm.depth), (0x00A, fun s _ => s.mask),
      (0x00B, fun s _ => BitVec.ofNat 32 (s.w.sb * 65536 + s.w.vb)), (0x011, fun s _ => s.w.fcsr), (0x012, fun s _ => s.w.tstatus),
      (0x013, fun s _ => BitVec.ofNat 32 s.w.ssp), (0x014, fun s _ => BitVec.ofNat 32 s.w.sslim), (0x015, fun s _ => (s.ctx s.ctxNo).spwndly),
      (0x020, fun s l => (s.w.lane l).tcause), (0x021, fun s l => (s.w.lane l).tinfo), (0x026, fun s l => (s.w.lane l).tparent),
      (0x027, fun s l => (s.w.lane l).tsibs), (0x100, fun s _ => s.w.cntsel),
      (0x200, fun s _ => match (s.die s.dieNo).dspNext with | some n => BitVec.ofNat 32 (0x80000000 + n) | none => (s.die s.dieNo).dspcfg),
      (0x201, fun s _ => s.w.ctxsel), (0x202, fun s _ => (ctx s).critmax), (0x203, fun s _ => (ctx s).swapthr), (0x204, fun s _ => s.w.slotsel),
      (0x205, fun s _ => (s.core s.coreNo).slotRead s.w.slotsel.toNat), (0x206, fun s _ => s.w.bwsel),
      (0x207, fun s _ => (s.die s.dieNo).shareRead s.w.bwsel.toNat), (0x224, fun s _ => (s.die s.dieNo).dspwin.get s.w.ctxsel.toNat 0),
      (0x232, fun s _ => (ctx s).fqsize), (0x234, fun s _ => (ctx s).fqtail), (0x236, fun s _ => (ctx s).fqbar),
      (0x237, fun s _ => (ctx s).wdtime), (0x23A, fun s _ => (ctx s).sampcfg), (0x23B, fun s _ => (ctx s).samphead),
      (0x250, fun s _ => s.w.lqsel), (0x251, fun s _ => (queue s).cfg), (0x254, fun s _ => (queue s).tail), (0x255, fun s _ => (queue s).head),
      (0x258, fun s _ => (s.die s.dieNo).tq s.w.ctxsel.toNat), (0x259, fun s _ => (s.die s.dieNo).therm), (0x260, fun s _ => s.mod.modnum),
      (0x261, fun s _ => s.mod.fabstat), (0x262, fun s _ => s.w.peersel), (0x263, fun s _ => s.peerStat s.w.peersel.toNat),
      (0x268, fun s _ => s.w.lwsel), (0x269, fun s _ => s.mod.lwcfg.get s.w.lwsel.toNat 0), (0x26C, fun s _ => s.mod.hcqcfg),
      (0x26D, fun s _ => s.mod.hcqhead), (0x26E, fun s _ => s.mod.pwrcap),
      (0x274, fun s _ => (if (ctx s).live then 0x80000000 else 0) ||| (if (ctx s).busy then 0x40000000 else 0))]
      : List (Nat × (State → Nat → Word))) →
    ∀ o s, s.Clear (.rdsr o) spans1 → s.srNumber o = n → (0x200 ≤ n → s.ctxNo = 0) →
      ∃ t, exec (.rdsr o) s = .next t ∧ s.Outside t ∧
        s.Frame t (.rdsr o) spans1 (s.puts (.rdsr o) o 1 fun l _ => val s (own s o l)) ∧
        t.At s.mask fun _ => s.nextPc) ∧
  (∀ o s d, s.Clear (.rdsr o) spans1 → s.srNumber o = 0x010 → (∀ p ∈ s.w.lanes, p.2.depth ≤ d) →
    (d = 0 ∨ ∃ p ∈ s.w.lanes, p.2.depth = d) →
    ∃ t, exec (.rdsr o) s = .next t ∧ s.Outside t ∧
      s.Frame t (.rdsr o) spans1 (s.puts (.rdsr o) o 1 fun _ _ => (s.staleAfter (.rdsr o) spans1 &&& 3) ||| BitVec.ofNat 32 (d * 256) |||
        (if s.cur.wave ∈ (s.core s.coreNo).crit then 0x80 else 0)) ∧
      t.At s.mask fun _ => s.nextPc) ∧
  (∀ o s, s.Clear (.rdsr o) spans1 → s.srNumber o = 0x233 → s.ctxNo = 0 →
    ∃ t, exec (.rdsr o) s = .next t ∧ s.OutsideAcquire t true ∧
      s.Frame t (.rdsr o) spans1 (s.puts (.rdsr o) o 1 fun _ _ => (ctx s).fqhead) ∧ t.At s.mask fun _ => s.nextPc) ∧
  (∀ o s, s.Clear (.rdsr o) spans1 → 0x120 ≤ s.srNumber o → s.srNumber o < 0x140 →
    let key := counterKey s.ctxNo s.w.cntsel.toNat (s.srNumber o - 0x120)
    let x := (s.core s.coreNo).counters.get key { value := 0, at_ := 0, swept := 0 }
    ∃ t e, e ≤ s.clk - x.at_ ∧ exec (.rdsr o) s = .next t ∧
      { t with waves := s.waves, cur := s.cur, cores := s.cores, free := s.free } = s ∧
      (∀ c, t.core c = if c = s.coreNo then { s.core c with
        counters := (s.core c).counters.put key { x with value := x.value + BitVec.ofNat 32 e, at_ := s.clk } } else s.core c) ∧
      s.Frame t (.rdsr o) spans1 (s.puts (.rdsr o) o 1 fun _ _ => x.value + BitVec.ofNat 32 e) ∧ t.At s.mask fun _ => s.nextPc) ∧
  (∀ (n : Nat) (val : State → DWord), (n, val) ∈ ([
      (0x016, fun s => (s.ctx s.ctxNo).featmask), (0x028, fun s => s.w.trapvec), (0x040, fun s => (s.ctx s.ctxNo).hwbase),
      (0x042, fun s => (s.ctx s.ctxNo).hwlim), (0x210, fun s => (ctx s).hwbase), (0x212, fun s => (ctx s).hwlim), (0x214, fun s => (ctx s).hwoff),
      (0x216, fun s => (ctx s).tvdef), (0x218, fun s => s.w.rimg), (0x220, fun s => (ctx s).ptroot), (0x230, fun s => (ctx s).fqbase),
      (0x238, fun s => (ctx s).cnttot), (0x23C, fun s => (ctx s).sampbuf), (0x240, fun s => (ctx s).rgtbase),
      (0x248, fun s => (ctx s).featmask), (0x252, fun s => (queue s).base), (0x256, fun s => (s.die s.dieNo).plcmask),
      (0x264, fun s => s.mod.expbase), (0x266, fun s => s.mod.explen), (0x26A, fun s => s.mod.hcqbase), (0x270, fun s => (ctx s).imgb),
      (0x272, fun s => (ctx s).imgl)]
      : List (Nat × (State → DWord))) →
    ∀ o s, s.Clear (.rdsr o) spans1 → (0x200 ≤ n → s.ctxNo = 0) →
      let key := n * 64 + 32
      (s.srNumber o = n →
        ∃ t, exec (.rdsr o) s = .next t ∧ s.Outside t ∧
          s.Frame t (.rdsr o) spans1
            { s.puts (.rdsr o) o 1 fun _ _ => lo32 (val s) with
              wave := fun w => { w with srHigh := w.srHigh.put key (hi32 (val s)) } } ∧
          t.At s.mask fun _ => s.nextPc) ∧
      (∀ v, s.srNumber o = n + 1 → s.w.srHigh.find? key = some v →
        ∃ t, exec (.rdsr o) s = .next t ∧ s.Outside t ∧
          s.Frame t (.rdsr o) spans1
            { s.puts (.rdsr o) o 1 fun _ _ => v with wave := fun w => { w with srHigh := w.srHigh.del key } } ∧
          t.At s.mask fun _ => s.nextPc) ∧
      (s.srNumber o = n + 1 → s.w.srHigh.find? key = none →
        ∃ t, exec (.rdsr o) s = .next t ∧ s.Outside t ∧
          s.Frame t (.rdsr o) spans1 (s.puts (.rdsr o) o 1 fun _ _ => hi32 (val s)) ∧ t.At s.mask fun _ => s.nextPc)) ∧
  ∀ (n : Nat) (val : State → Nat → DWord), (n, val) ∈ ([(0x022, fun s l => (s.w.lane l).tpc), (0x024, fun s l => (s.w.lane l).taddr)]
      : List (Nat × (State → Nat → DWord))) →
    ∀ o s, s.Clear (.rdsr o) spans1 →
      let reads := fun (t : State) (v : Nat → Word) (high : Nat → Option Word) => s.Outside t ∧ (t.At s.mask fun _ => s.nextPc) ∧
        s.Frame t (.rdsr o) spans1
          { s.puts (.rdsr o) o 1 fun l _ => v (own s o l) with wave := fun w => { w with srHigh := t.w.srHigh } } ∧
        ∀ j, t.w.srHigh.find? j = if n * 64 ≤ j ∧ j - n * 64 ∈ ls s o then high (j - n * 64) else s.w.srHigh.find? j
      (s.srNumber o = n → ∃ t, exec (.rdsr o) s = .next t ∧ reads t (fun l => lo32 (val s l)) fun l => some (hi32 (val s l))) ∧
      (s.srNumber o = n + 1 → ∃ t, exec (.rdsr o) s = .next t ∧
        reads t (fun l => (s.w.srHigh.find? (n * 64 + l)).getD (hi32 (val s l))) fun _ => none)

/-- With v the value of A in the lowest lane: WRSR of FCSR keeps FTZ, EN, FLAGS and RM but for RM 5 to 7, of WSTAT sets LTRAP and clears
LSTALE where bit 0 is one; the low half of TRAPVEC is held and its high half writes both, with bits [1:0] 0; TPC is written per lane in
the same way. In context 0, WRSR of CTXSEL, CRITMAX, SWAPTHR, SPWNDLY, SLOTTAB, DSPWIN, FQSIZE, FQTAIL, FQBAR, WDTIME, SAMPCFG, THERM,
HCQCFG and PWRCAP changes that register of the selected context, core, die or module alone, within its field and its limits; THERM
judges which cores of the die are hot, and SLOTTAB is held until the next slot. The lanes go on and nothing else changes. (R81, R82, R83, R84, R475, R248, R227, R345, R322) -/
def Obligations.SpecialRegisterWrites : Prop :=
  let v := fun (s : State) (o : Ops) => lo32 (reader s.pre o (lowest s.mask) .w .a)
  (∀ o s, s.Clear (.wrsr o) spans1 →
    (s.srNumber o = 0x011 → s.cur.raised = 0 →
      ∃ t, exec (.wrsr o) s = .next t ∧ s.Outside t ∧
        s.Frame (t.modWave s.cur.wave fun w => { w with fcsr := s.w.fcsr }) (.wrsr o) spans1 {} ∧ (t.At s.mask fun _ => s.nextPc) ∧
        t.w.fcsr = (if 5 ≤ ((v s o).extractLsb' 12 3).toNat then ((v s o) &&& 0x8F9F) ||| (s.w.fcsr &&& 0x7000) else (v s o) &&& 0xFF9F)) ∧
    (s.srNumber o = 0x010 →
      ∃ t, exec (.wrsr o) s = .next t ∧ s.Outside t ∧
        s.Frame (t.modWave s.cur.wave fun w => { w with wstat := s.staleAfter (.wrsr o) spans1 }) (.wrsr o) spans1 {} ∧
        (t.At s.mask fun _ => s.nextPc) ∧
        t.w.wstat = ((v s o) &&& 2) ||| (s.staleAfter (.wrsr o) spans1 &&& 1 &&& ~~~ (v s o))) ∧
    (s.srNumber o = 0x028 →
      ∃ t, exec (.wrsr o) s = .next t ∧ s.Outside t ∧
        s.Frame t (.wrsr o) spans1 { wave := fun w => { w with srLow := w.srLow.put (0x028 * 64 + 32) (v s o) } } ∧
        t.At s.mask fun _ => s.nextPc) ∧
    (∀ low, s.srNumber o = 0x029 → s.w.srLow.find? (0x028 * 64 + 32) = some low →
      ∃ t, exec (.wrsr o) s = .next t ∧ s.Outside t ∧
        s.Frame t (.wrsr o) spans1
          { wave := fun w => { w with srLow := w.srLow.del (0x028 * 64 + 32), trapvec := ((v s o) ++ low) &&& ~~~ (3#64) } } ∧
        t.At s.mask fun _ => s.nextPc) ∧
    ∀ low : Nat → Word, s.srNumber o = 0x023 → (∀ l, s.mask.getLsbD l = true → s.w.srLow.find? (0x022 * 64 + l) = some (low l)) →
      ∃ t, exec (.wrsr o) s = .next t ∧ s.Outside t ∧
        s.Frame t (.wrsr o) spans1
          { wave := fun w => { w with srLow := t.w.srLow },
            lane := fun l x => if s.mask.getLsbD l then { x with tpc := lo32 (reader s.pre o l .w .a) ++ low l } else x } ∧
        (∀ j, t.w.srLow.find? j = if 0x022 * 64 ≤ j ∧ j < 0x022 * 64 + 32 ∧ s.mask.getLsbD (j - 0x022 * 64) then none
          else s.w.srLow.find? j) ∧
        t.At s.mask fun _ => s.nextPc) ∧
  (∀ o s, s.Clear (.wrsr o) spans1 → s.ctxNo = 0 → s.srNumber o = 0x201 →
    ∃ t, exec (.wrsr o) s = .next t ∧ s.Outside t ∧ s.Frame t (.wrsr o) spans1 { wave := fun w => { w with ctxsel := (v s o) &&& 0xF } } ∧
      t.At s.mask fun _ => s.nextPc) ∧
  (∀ o s, s.Clear (.wrsr o) spans1 → s.ctxNo = 0 → s.srNumber o = 0x015 →
    ∃ t, exec (.wrsr o) s = .next t ∧ s.Outside { t with ctxs := s.ctxs } ∧ s.Frame t (.wrsr o) spans1 {} ∧ (t.At s.mask fun _ => s.nextPc) ∧
      ∀ k, t.ctx k = if k = 0 ∧ v s o &&& 0xFFFF ≠ 0 then { s.ctx k with spwndly := v s o &&& 0xFFFF } else s.ctx k) ∧
  ∀ n f, (n, f) ∈ plainWrites →
    ∀ o s, s.Clear (.wrsr o) spans1 → s.ctxNo = 0 → s.srNumber o = n →
      ∃ t, exec (.wrsr o) s = .next t ∧ (f s s.w.ctxsel.toNat s.coreNo s.w.slotsel.toNat (v s o)).Outside t ∧ s.Frame t (.wrsr o) spans1 {} ∧ t.At s.mask fun _ => s.nextPc

/-- In context 0: HALT writes back what the core holds dirty, sets FABSTAT.HALTED and blocks the group until it is cleared. TLBI of a
context up to 15, with no lane parked and no store waiting, drops from the TLBs of every core and die of its scope the context's
entries, all of them or those that translate the page, with the dies' walk caches of the context, has the dirty bytes that the cores of
its scope hold of the pages of those entries written back, no others (log entry 70, the model's choice), and goes on; a context above
15 gives PROTECTION with TINFO 9 where the group can trap. CTXSW with RESUME clears the context's hold, and with no team of the context
resident reports 0 to D; it writes back what the core holds dirty. Nothing else changes. (R400, R464, R465, R184, R378, R379) -/
def Obligations.HaltTranslationAndSwitch : Prop :=
  (∀ o s, s.Clear (.halt o) spans1 →
    ∃ t, exec (.halt o) s = .next t ∧ s.Released { t with mod := s.mod } ∧ s.calm.Frame t.calm (.halt o) spans1 {} ∧
      t.mod = { s.mod with fabstat := s.mod.fabstat ||| 1, haltedAt := if s.mod.haltedAt.isSome then s.mod.haltedAt else some s.clk } ∧
      ∀ l, s.mask.getLsbD l = true → (t.w.lane l).life = .blocked (.halt s.nextPc) ∧ (t.w.lane l).pc = (s.w.lane l).pc) ∧
  (∀ (o : Ops) (c : Ctl) (s : State),
    let byPage := c.sub = 1
    let sp : Spans := { d := 1, a := if c.sub = 1 then 2 else 1, b := 1 }
    s.Clear (.tlbi o c) sp → (∀ p ∈ s.waves, p.2.slots = [] ∧ p.2.stores = []) →
    (s.cores.map (·.1)).Nodup → (s.dies.map (·.1)).Nodup →
    let va := reader s.pre o 0 .n .a
    let ctx := (if byPage then lo32 (reader s.pre o 0 .w .b) else lo32 (reader s.pre o 0 .w .a)).toNat
    let goes := fun (e : TlbEntry) => e.ctx = ctx ∧
      (byPage → canonical va = true ∧ e.va ≤ va.toNat % 2 ^ 57 ∧ va.toNat % 2 ^ 57 < e.va + e.size)
    (ctx ≤ 15 →
      ∃ t, exec (.tlbi o c) s = .next t ∧
        { t with waves := s.waves, cur := s.cur, cores := s.cores, dies := s.dies, mem := s.mem } = s ∧
        s.calm.Frame t.calm (.tlbi o c) sp {} ∧ (t.At s.mask fun _ => s.nextPc) ∧
        (let inside := fun (k : Nat) => k ∈ coresOf c.scope.toNat s.coreNo
         let dies := fun (d : Nat) => if c.scope = 4 then d < 4 else d = s.dieNo
         let gone := fun (e : TlbEntry) => goes e ∧ ((∃ k, inside k ∧ e ∈ (s.core k).tlb) ∨ ∃ d, dies d ∧ e ∈ (s.die d).tlb)
         let used := fun (line : Nat) => ∃ e, gone e ∧ (Place.mem (line * 128)).meets 128 (.mem (s.selfAddressed e.pa)) e.size = true
         let holds := fun (k a : Nat) => ∃ x, (s.core k).l1.find? (a / 128) = some x ∧ x.dirty.getLsbD (a % 128) = true
         (∀ k, { t.core k with tlb := (s.core k).tlb, l1 := (s.core k).l1 } = s.core k ∧
          (∀ e, e ∈ (t.core k).tlb ↔ e ∈ (s.core k).tlb ∧ ¬ (inside k ∧ goes e)) ∧
          ∀ a, (inside k ∧ used a → (t.core k).l1.find? a = ((s.core k).l1.find? a).map fun x => { x with dirty := 0 }) ∧
            (¬ (inside k ∧ used a) → (t.core k).l1.find? a = (s.core k).l1.find? a)) ∧
         ∀ a, (¬ used (a / 128) ∨ (∀ k, inside k → ¬ holds k a) → Memory.read t.mem a = Memory.read s.mem a) ∧
          ∀ k, used (a / 128) → inside k → holds k a → (∀ j, inside j → j ≠ k → ¬ holds j a) → Memory.read t.mem a = s.settled k a) ∧
        ∀ d, { t.die d with tlb := (s.die d).tlb, walk := (s.die d).walk } = s.die d ∧
          (let inside := if c.scope = 4 then d < 4 else d = s.dieNo
           (∀ e, e ∈ (t.die d).tlb ↔ e ∈ (s.die d).tlb ∧ ¬ (inside ∧ goes e)) ∧
           ∀ e, e ∈ (t.die d).walk ↔ e ∈ (s.die d).walk ∧ ¬ (inside ∧ e.ctx = ctx))) ∧
    (15 < ctx → s.CanTrap →
      ∃ t, exec (.tlbi o c) s = .next t ∧ s.Outside t ∧ s.Took t s.mask 5 (fun _ => 9) (fun _ => 0))) ∧
  ∀ o s, s.Clear (.ctxsw o) spans1 → o.s = true →
    let ctx := (lo32 (reader s.pre o 0 .w .a)).toNat
    let sel := lo32 (reader s.pre o 0 .w .b)
    1 ≤ ctx → ctx ≤ 15 →
    (sel ∈ [0x200#32, 0x201, 0x202] →
      ∃ t, exec (.ctxsw o) s = .next t ∧ s.Released { t with ctxs := s.ctxs } ∧
        s.calm.Frame t.calm (.ctxsw o) spans1 (s.puts (.ctxsw o) o 1 fun _ _ => 0) ∧ (t.At s.mask fun _ => s.nextPc) ∧
        ∀ k, t.ctx k = if k = ctx then { s.ctx k with hold := false } else s.ctx k) ∧
    (sel ∈ [0#32, 1, 2, 0x100, 0x101, 0x102] → (∀ p ∈ s.teams, p.2.ctx ≠ ctx) → (∀ p ∈ s.waves, s.ctxOf p.1 ≠ ctx) →
      ∃ t, exec (.ctxsw o) s = .next t ∧ s.Released { t with ctxs := s.ctxs } ∧
        s.calm.Frame t.calm (.ctxsw o) spans1 (s.puts (.ctxsw o) o 1 fun _ _ => 0) ∧ (t.At s.mask fun _ => s.nextPc) ∧
        ∀ k, t.ctx k = if k = ctx ∧ sel.getLsbD 8 = true then { s.ctx k with hold := true } else s.ctx k)

/-- Where the group can trap, in contexts 1 to 15: HALT, TLBI and CTXSW, and RDSR and WRSR of a number from 0x200 to 0x3FF, give PRIVILEGE
with TINFO the first word. In any context an unassigned number up to 0x1FF gives ILLEGAL_OPERAND with its field 5 and TADDR the number,
and an operand code that the checks refuse gives ILLEGAL_OPERAND with TINFO the field and the code, in integer, bit, float, lane,
control, memory, engine, barrier, publication, try, task and system instructions alike. ADD with legal codes, one of which names an
invalid latch while WSTAT.LTRAP is 1, gives STALE_LATCH with TINFO the code. No register changes. With LTRAP 0 an invalid latch that an
operand names reads as 0. (R129, R81, R137, R138, R128, R79) -/
def Obligations.PrivilegeOperandAndLatchTraps : Prop :=
  (∀ i s, s.Group → s.CanTrap → s.ctxNo ≠ 0 →
    ((∃ o, i = .halt o) ∨ (∃ o c, i = .tlbi o c) ∨ (∃ o, i = .ctxsw o) ∨
      (∃ o, i = .rdsr o ∧ 0x200 ≤ s.srNumber o ∧ s.srNumber o < 0x400) ∨ (∃ o, i = .wrsr o ∧ 0x200 ≤ s.srNumber o ∧ s.srNumber o < 0x400)) →
    ∃ t, exec i s = .next t ∧ s.Outside t ∧ s.Took t s.mask 3 (fun _ => s.cur.w0) (fun _ => 0) ∧ ∀ m, t.w.sreg m = s.w.sreg m) ∧
  (∀ i s (o : Ops), s.Group → s.CanTrap → (i = .rdsr o ∨ i = .wrsr o) → s.illegalUse i (usesOf i spans1) = none →
    s.srNumber o < 0x200 → srAssigned (s.srNumber o) = false →
    ∃ t, exec i s = .next t ∧ s.Outside t ∧
      s.Took t s.mask 2 (fun _ => BitVec.ofNat 32 (5 * 256 + s.srNumber o % 256)) (fun _ => BitVec.ofNat 64 (s.srNumber o)) ∧
      ∀ m, t.w.sreg m = s.w.sreg m) ∧
  (∀ i sp u s, s.Group → s.CanTrap →
    ((∃ t o, i ∈ [.add t o, .mul t o, .div t o] ∧ sp = intSpans t) ∨ (∃ w o, i ∈ [.andB w o, .notB w o] ∧ sp = bitSpans w) ∨
      (∃ w o, i = .shl w o ∧ sp = fieldSpans w) ∨ (∃ f o, i ∈ [.fadd f o, .fma f o] ∧ sp = floatSpans f) ∨
      (∃ k o, i = .ld k o ∧ sp = loadSpans (loadForm k.toNat).1 0) ∨ (∃ k o, i = .st k o ∧ sp = loadSpans (2 ^ k.toNat) 0) ∨
      (∃ o, i ∈ [.pack o, .ballot o, .rdln o, .shfl o, .wrln o, .jenr o, .jwait o, .wbase o, .pushv o, .popv o, .erpass o, .tstat o] ∧
        sp = spans1) ∨
      (∃ o c, i ∈ [.lda o c, .stl o c] ∧ sp = loadSpans (typeBytes c.type.toNat) c.space) ∨
      (∃ o c, i ∈ [.atom o c, .cas o c, .red o c] ∧ sp = atomSpans (typeBytes c.type.toNat) c.space) ∨
      (∃ o c, i ∈ [.bara o c, .barw o c, .bart o c, .cpy o c, .cpyg o c, .coll o c, .mxw o c, .mxs o c] ∧ sp = spans1) ∨
      (∃ o c, i ∈ [.publish o c, .adopt o c, .retract o c, .icinv o c] ∧ sp = baseSpans) ∨
      (∃ o, i ∈ [.launch o, .tsub o, .erarm o] ∧ sp = baseSpans) ∨
      (∃ o, i ∈ [.spawn o, .sysc o, .ret o] ∧ sp = { d := 1, a := 2, b := 1 }) ∨ (∃ o, i = .tlrd o ∧ sp = { d := 2, a := 1, b := 1 }) ∨
      (∃ o c, i = .brx o c ∧ sp = { d := 1, a := 1, b := 2 })) →
    s.illegalUse i (usesOf i sp) = some u →
    ∃ t, exec i s = .next t ∧ s.Outside t ∧ s.Took t s.mask 2 (fun _ => BitVec.ofNat 32 (u.field * 256 + u.code.toNat)) (fun _ => 0) ∧
      ∀ m, t.w.sreg m = s.w.sreg m) ∧
  (∀ t o u s, s.Group → s.CanTrap → s.illegalUse (.add t o) (usesOf (.add t o) (intSpans t)) = none →
    s.staleUse (.add t o) (usesOf (.add t o) (intSpans t)) = some u → wstatLtrap s.pre.wstat = true →
    ∃ t', exec (.add t o) s = .next t' ∧ s.Outside t' ∧ s.Took t' s.mask 0x0C (fun _ => BitVec.ofNat 32 u.code.toNat) (fun _ => 0) ∧
      ∀ m, t'.w.sreg m = s.w.sreg m) ∧
  ∀ (w : Wave) (l n : Nat) (lit : Word) (ty : Ty) (c : Code), c.toNat = 112 + n → n < 8 → latchAt (w.lane l).latch n = none →
    readV w l lit ty c = 0

/-- BKPT of lanes outside try regions whose wave has no handler, or one of which is in handler mode, in a team that is there and not
killed: no wave of the team is left, and the team is gone where no command of its own that has started still runs, and Killed where one
does; that an MXD has started, for this, with the first segment it performs is the model's choice (log entry 72). (R220, R221, R242, R478) -/
def Obligations.UnhandledTrapsKillTheTeam : Prop :=
  ∀ o s, s.Clear (.bkpt o) spans1 → (s.teams.find? s.tid).isSome → s.tm.state ≠ .killed →
    (∀ l, s.mask.getLsbD l = true → (s.w.lane l).depth = 0) →
    (s.w.trapvec = 0 ∨ ∃ l, s.mask.getLsbD l = true ∧ (s.w.lane l).handler = true) →
    ∃ t, exec (.bkpt o) s = .next t ∧ (∀ k, k / 64 = s.tid → t.waves.find? k = none) ∧
      (¬ s.commandRuns s.tid → t.teams.find? s.tid = none) ∧
      (s.commandRuns s.tid → (t.teams.find? s.tid).isSome ∧ (t.team s.tid).state = .killed)

/-- REGISTER_WRITE changes WSTAT, FCSR, CNTSEL or TRAPVEC of its wave alone, within their fields, in context 0 also each register of the
table of plain writes for the context, core, die or module that the wave has selected, and none of the privileged view outside context
0. LQTAIL_WRITE takes the tail, or sets BAD where the queue belongs to an enabled window or the ring would overflow. DSPSZ_WRITE of
another size up to 11, with no store waiting, begins a change; DSPSZ_CHANGE_COMPLETE takes it, keeps bytes below both sizes, zeroes the
others, and lets stalled lanes go on. CTXCTL_CREATE marks a context that is not live busy and CONTEXT_CREATE_COMPLETE makes it LIVE
with its queues and counters empty; CTXCTL_DESTROY of a live one leaves it busy with no wave, no grid, no enabled queue and no team but
killed ones; CONTEXT_DESTROY_COMPLETE, with no team left, makes it not live. Context 0 and a busy context ignore CTXCTL. (R81, R82, R83, R308, R17, R19, R28, R29) -/
def Obligations.RegistersScratchpadsAndContexts : Prop :=
  (∀ k (v : Word) s, (s.waves.find? k).isSome →
    (∃ t, exec (.registerWrite k 0x010 v) s = .next t ∧ { t with waves := s.waves } = s ∧
      ∀ j, t.wave j = if j = k then { s.wave j with wstat := (v &&& 2) ||| ((s.wave j).wstat &&& 1 &&& ~~~v) } else s.wave j) ∧
    (s.cur.raised = 0 → ∃ t, exec (.registerWrite k 0x011 v) s = .next t ∧ { t with waves := s.waves } = s ∧
      ∀ j, t.wave j = if j = k then { s.wave j with fcsr :=
        if 5 ≤ (v.extractLsb' 12 3).toNat then (v &&& 0x8F9F) ||| ((s.wave j).fcsr &&& 0x7000) else v &&& 0xFF9F } else s.wave j) ∧
    (∃ t, exec (.registerWrite k 0x100 v) s = .next t ∧ { t with waves := s.waves } = s ∧
      ∀ j, t.wave j = if j = k then { s.wave j with cntsel := v &&& 7 } else s.wave j) ∧
    (∃ t, exec (.registerWrite k 0x028 v) s = .next t ∧ { t with waves := s.waves } = s ∧
      ∀ j, t.wave j = if j = k then { s.wave j with srLow := (s.wave j).srLow.put (0x028 * 64 + 32) v } else s.wave j) ∧
    (∀ low, (s.wave k).srLow.find? (0x028 * 64 + 32) = some low →
      ∃ t, exec (.registerWrite k 0x029 v) s = .next t ∧ { t with waves := s.waves } = s ∧
      ∀ j, t.wave j = if j = k then { s.wave j with srLow := (s.wave j).srLow.del (0x028 * 64 + 32), trapvec := (v ++ low) &&& ~~~ (3#64) }
        else s.wave j) ∧
    (s.ctxOf k = 0 → ∀ n f, (n, f) ∈ plainWrites →
      exec (.registerWrite k n v) s = .next (f s (s.wave k).ctxsel.toNat (s.coreOf k) (s.wave k).slotsel.toNat v)) ∧
    (∀ n, s.ctxOf k ≠ 0 → 0x200 ≤ n → exec (.registerWrite k n v) s = .next s)) ∧
  (∀ q (v : Word) s,
    let x := s.queue q
    let refused := (∃ p ∈ s.mod.lwcfg, p.2.getLsbD 31 = true ∧ (p.2.extractLsb' 24 6).toNat = q) ∨
      2 ^ (x.cfg &&& 0x1F).toNat < (v - x.head).toNat
    ∃ t, exec (.lqtailWrite q v) s = .next t ∧ { t with queues := s.queues } = s ∧ (∀ j, j ≠ q → t.queue j = s.queue j) ∧
      (refused → t.queue q = { x with cfg := x.cfg ||| 0x40000000 }) ∧ (¬ refused → t.queue q = { x with tail := v })) ∧
  (∀ d n s, (∀ p ∈ s.waves, p.2.stores = []) → (s.die d).dspNext = none → n ≤ 11 → n ≠ ((s.die d).dspcfg.extractLsb' 0 4).toNat →
    ∃ t, exec (.dspszWrite d n) s = .next t ∧ { t with dies := s.dies } = s ∧
      ∀ j, t.die j = if j = d then { s.die j with dspNext := some n } else s.die j) ∧
  (∀ d n s, (s.die d).dspNext = some n →
    let keep := min (((s.die d).dspcfg.extractLsb' 0 4).toNat * 0x800000) (n * 0x800000)
    ∃ t, exec (.dspszChangeComplete d) s = .next t ∧ { t with dies := s.dies, waves := s.waves } = s ∧ (∀ j, j ≠ d → t.die j = s.die j) ∧
      { t.die d with dsp := (s.die d).dsp, poison := (s.die d).poison } = { s.die d with dspcfg := BitVec.ofNat 32 n, dspNext := none } ∧
      (∀ a, (t.die d).dsp.get a 0 = if a < keep then (s.die d).dsp.get a 0 else 0) ∧
      ∀ k l, (t.wave k).lane l = if (s.waves.find? k).isSome ∧ s.dieOf k = d ∧ ((s.wave k).lane l).life = .blocked .dsp then
        { (s.wave k).lane l with life := .ready } else (s.wave k).lane l) ∧
  (∀ c s, (c = 0 ∨ (s.ctx c).busy = true) → exec (.ctxctlCreate c) s = .next s ∧ exec (.ctxctlDestroy c) s = .next s) ∧
  (∀ c s, c ≠ 0 → (s.ctx c).busy = false → (s.ctx c).live = false →
    ∃ t, exec (.ctxctlCreate c) s = .next t ∧ { t with ctxs := s.ctxs } = s ∧
      ∀ k, t.ctx k = if k = c then { s.ctx k with busy := true, creating := true } else s.ctx k) ∧
  (∀ c s, (s.ctx c).busy = true → (s.ctx c).creating = true →
    ∃ t, exec (.contextCreateComplete c) s = .next t ∧ { t with ctxs := s.ctxs, cores := s.cores, dies := s.dies } = s ∧
      (let x : Ctx := { s.ctx c with live := true, busy := false, creating := false, tags := [], waiting := [], retracts := [] }
       ∀ k, t.ctx k = if k = c then { x with fqhead := 0, launchIssued := 0, launchOut := [], wdSince := none } else s.ctx k) ∧
      (∀ k, (∀ e ∈ (t.core k).tlb, e.ctx ≠ c) ∧ (∀ e ∈ (t.core k).icache, e.ctx ≠ c) ∧ (∀ e ∈ (t.core k).adopt, e.ctx ≠ c) ∧
        t.copyCtx k c = { queue := [], issued := 0, done := 0 }) ∧
      ∀ d, t.unit d c = { pool := [], issued := 0, outstanding := [] } ∧ ∀ g ∈ (t.die d).graphs, g.ctx ≠ c) ∧
  (∀ c s, c ≠ 0 → (s.ctx c).busy = false → (s.ctx c).live = true →
    ∃ t, exec (.ctxctlDestroy c) s = .next t ∧ (t.ctx c).busy = true ∧ (t.ctx c).creating = false ∧ (t.ctx c).live = true ∧
      (∀ k, s.ctxOf k = c → t.waves.find? k = none) ∧ (∀ p ∈ t.grids, p.2.ctx ≠ c) ∧
      (∀ k x, t.teams.find? k = some x → x.ctx = c → x.state = .killed) ∧
      ∀ q, ((s.queue q).cfg.extractLsb' 16 4).toNat = c → (t.queue q).cfg.getLsbD 31 = false) ∧
  ∀ c s, (s.ctx c).busy = true → (s.ctx c).creating = false → (∀ p ∈ s.teams, p.2.ctx ≠ c) →
    ∃ t, exec (.contextDestroyComplete c) s = .next t ∧ { t with ctxs := s.ctxs, cores := s.cores, dies := s.dies } = s ∧
      (∀ k, t.ctx k = if k = c then { s.ctx k with live := false, busy := false, hold := false } else s.ctx k) ∧
      ∀ k, (∀ e ∈ (t.core k).tlb, e.ctx ≠ c) ∧ (∀ e ∈ (t.core k).icache, e.ctx ≠ c) ∧ ∀ e ∈ (t.core k).adopt, e.ctx ≠ c

/-- The bridge reads MODNUM and FABSTAT, writes each register of the table of plain writes for what the bridge has selected, on the die and
core that BRSEL names, and sets and clears FABSTAT.HALTED, with which lanes at HALT go on. Host loads and stores reach backed local HBM
and nothing else. A peer reads, writes and updates atomically the exported range, the line of an atomic leaving the L1s, and is refused
outside it or while RESET is set. A peer's FABSTAT and export range, and a host node's, are recorded, and the collectives a peer is a
member of fail where it is in reset or unreachable, by the status recorded last (log entry 28, the model's choice). Whole launch
records that fit are appended to the window's queue and acknowledged, and otherwise refused whole. On one of 16384 queue pairs RDMA
writes and reads reach backed HBM, an immediate and a SEND are received, an RDMA atomic is refused; that one more is refused every
request is the model's choice (log entry 42). A pause is recorded, and a rate falls to a value that is free (log entry 44, the model's
choice). Nothing else changes. (R338, R400, R333, R332, R344, R341, R340) -/
def Obligations.BridgePeersAndEthernet : Prop :=
  let stored := fun (s t : State) (a n : Nat) (b : Nat → Byte) => { t.calm with mem := s.mem } = s.calm ∧
    ∀ x, Memory.read t.mem x = if a ≤ x ∧ x < a + n then b (x - a) else Memory.read s.mem x
  let bytes := fun (s : State) (a n : Nat) => (List.range n).map fun i => Memory.read s.mem (a + i)
  (∀ v s, exec (.hostWindowAccess false 0x260 v) s = .next { s with out := s.out ++ [.windowRead s.mod.modnum] } ∧
    exec (.hostWindowAccess false 0x261 v) s = .next { s with out := s.out ++ [.windowRead s.mod.fabstat] } ∧
    ((s.mod.brsel.extractLsb' 8 6).toNat < 48 → ∀ n f, (n, f) ∈ plainWrites →
      exec (.hostWindowAccess true n v) s = .next (f s (s.mod.bridge.get 0x201 0).toNat
        ((s.mod.brsel.extractLsb' 0 2).toNat * 48 + (s.mod.brsel.extractLsb' 8 6).toNat) (s.mod.bridge.get 0x204 0).toNat v))) ∧
  (∀ s, ∃ t, exec .fabstatHaltSet s = .next t ∧ { t with mod := s.mod } = s ∧
    t.mod = { s.mod with fabstat := s.mod.fabstat ||| 1, haltedAt := if s.mod.haltedAt.isSome then s.mod.haltedAt else some s.clk }) ∧
  (∀ s, ∃ t, exec .fabstatHaltClear s = .next t ∧ { t with mod := s.mod, waves := s.waves, ctxs := s.ctxs } = s ∧
    t.mod = { s.mod with fabstat := s.mod.fabstat &&& 0xFFFFFFFE, haltedAt := none } ∧
    (∀ k l next, ((s.wave k).lane l).life = .blocked (.halt next) →
      (t.wave k).lane l = { (s.wave k).lane l with life := .ready, pc := next }) ∧
    ∀ k l, (∀ next, ((s.wave k).lane l).life ≠ .blocked (.halt next)) →
      (∀ x n a next since, ((s.wave k).lane l).life ≠ .blocked (.barw x n a next since)) → (t.wave k).lane l = (s.wave k).lane l) ∧
  (∀ a n data s, localBacked a = true → localBacked (a + n - 1) = true →
    (∃ t, exec (.hostMemoryAccess true a n data) s = .next t ∧ stored s t a (min n data.length) fun i => data.getD i 0) ∧
    exec (.hostMemoryAccess false a n data) s = .next { s with out := s.out ++ [.hostRead (bytes s a n)] }) ∧
  (∀ a n data s, localBacked a = false → exec (.hostMemoryAccess true a n data) s = .next s ∧
    exec (.hostMemoryAccess false a n data) s = .next { s with out := s.out ++ [.hostRead []] }) ∧
  (∀ a n data s,
    let inside := s.mod.expbase.toNat ≤ a ∧ a + n ≤ s.mod.expbase.toNat + s.mod.explen.toNat
    (inside → s.mod.fabstat.getLsbD 1 = false → localBacked a = true → localBacked (a + n - 1) = true →
      (∃ t, exec (.peerAccess .store a n data) s = .next t ∧ stored s t a (min n data.length) fun i => data.getD i 0) ∧
      exec (.peerAccess .load a n data) s = .next { s with out := s.out ++ [.peerRead (bytes s a n)] }) ∧
    ((¬ inside ∨ s.mod.fabstat.getLsbD 1 = true) →
      exec (.peerAccess .load a n data) s = .next { s with out := s.out ++ [.peerFault a] } ∧
      exec (.peerAccess .store a n data) s = .next { s with out := s.out ++ [.peerFault a] })) ∧
  (∀ sub type x y a n data s,
    let k := typeBytes type
    let inside := s.mod.expbase.toNat ≤ a ∧ a + k ≤ s.mod.expbase.toNat + s.mod.explen.toNat
    let old := fun (t : State) => (List.range k).map fun i => Memory.read t.mem (a + i)
    (inside → s.mod.fabstat.getLsbD 1 = false → localBacked a = true → localBacked (a + k - 1) = true → a % k = 0 →
      (∀ c l, (s.core c).l1.find? (a / 128) = some l → l.dirty = 0) →
      ∃ t, exec (.peerAccess (.atomic sub type x y) a n data) s = .next t ∧ t.out = s.out ++ [.peerRead (old s)] ∧
        (∀ c, (t.core c).l1.find? (a / 128) = if (s.cores.find? c).isSome then none else (s.core c).l1.find? (a / 128)) ∧
        (∀ c line, line ≠ a / 128 → (t.core c).l1.find? line = (s.core c).l1.find? line) ∧
        (∀ c, { t.core c with l1 := (s.core c).l1 } = s.core c) ∧
        { t.calm with mem := s.mem, out := s.out, cores := s.cores } = s.calm ∧
        (let v := match sub with
           | 9 => if fromBytes (old s) = x then y else fromBytes (old s) | _ => atomOp sub type (fromBytes (old s)) x
         ∀ j, Memory.read t.mem j = if a ≤ j ∧ j < a + k then (toBytes k v).getD (j - a) 0 else Memory.read s.mem j)) ∧
    ((¬ inside ∨ s.mod.fabstat.getLsbD 1 = true) →
      exec (.peerAccess (.atomic sub type x y) a n data) s = .next { s with out := s.out ++ [.peerFault a] })) ∧
  (∀ m (v : Word) base len s, 1024 ≤ m → ∃ t, exec (.fabricStatusUpdate m { fabstat := v, base := base, len := len }) s = .next t ∧ { t with mod := s.mod } = s ∧
    { t.mod with host := s.mod.host } = s.mod ∧
    ∀ j, t.mod.host.find? j = if j = m - 1024 then some (base, len) else s.mod.host.find? j) ∧
  (∀ m (v : Word) base len s, m < 1024 → ∃ t, exec (.fabricStatusUpdate m { fabstat := v, base := base, len := len }) s = .next t ∧
    { t with mod := s.mod, dies := s.dies } = s ∧
    { t.mod with peers := s.mod.peers } = s.mod ∧
    t.mod.peers.find? m = some { fabstat := v &&& 0x7FFFFFFF, reachable := !v.getLsbD 31, expbase := base, explen := len } ∧
    (∀ j, j ≠ m → t.mod.peers.find? j = s.mod.peers.find? j) ∧
    ∀ d, t.die d = { s.die d with colls := (s.die d).colls.map fun y =>
      if (v.getLsbD 31 = true ∨ v.getLsbD 1 = true) ∧ ∃ x ∈ y.members, x % 1024 = m then { y with failed := true } else y }) ∧
  (∀ w data s,
    let cfg := s.mod.lwcfg.get w 0
    let q := (cfg.extractLsb' 24 6).toNat
    let x := s.queue q
    let k := data.length / 64
    let size := 2 ^ (x.cfg &&& 0x1F).toNat
    let at' := fun i => x.base.toNat % 2 ^ 52 + 64 * ((x.tail.toNat + i) % size)
    (data.length = 64 * k → 1 ≤ k → cfg.getLsbD 31 = true → x.cfg.getLsbD 31 = true →
      ((x.tail - x.head).toNat + k ≤ size →
        ∃ t, exec (.launchWindowWrite w data) s = .next t ∧
          { t.calm with mem := s.mem, queues := s.queues, out := s.out } = s.calm ∧ t.out = s.out ++ [.windowAck w] ∧
          (∀ j, t.queue j = if j = q then { x with tail := x.tail + BitVec.ofNat 32 k } else s.queue j) ∧
          (∀ i j, i < k → j < 64 → Memory.read t.mem (at' i + j) = data.getD (64 * i + j) 0) ∧
          ∀ a, (∀ i, i < k → a < at' i ∨ at' i + 64 ≤ a) → Memory.read t.mem a = Memory.read s.mem a) ∧
      (size < (x.tail - x.head).toNat + k →
        exec (.launchWindowWrite w data) s = .next { s with out := s.out ++ [.rnrNak w] })) ∧
    ((data.length % 64 ≠ 0 ∨ data = [] ∨ cfg.getLsbD 31 = false ∨ x.cfg.getLsbD 31 = false) →
      exec (.launchWindowWrite w data) s = .next { s with out := s.out ++ [.accessNak w] })) ∧
  (let known := fun (s : State) (q : Nat) => if q ∈ s.mod.qps then s else { s with mod := { s.mod with qps := s.mod.qps ++ [q] } }
   (∀ q a data (imm : Option Word) s, q ∈ s.mod.qps ∨ s.mod.qps.length < 16384 → localBacked a = true →
      localBacked (a + data.length - 1) = true →
      ∃ t, exec (.rdmaWrite q a { bytes := data, imm := imm }) s = .next t ∧
        t.out = s.out ++ (match imm with | some v => [.received q v] | none => []) ++ [.rdmaAck q] ∧
        stored (known s q) { t with out := s.out } a data.length fun i => data.getD i 0) ∧
   (∀ q a n s, q ∈ s.mod.qps ∨ s.mod.qps.length < 16384 → localBacked a = true → localBacked (a + n - 1) = true →
      exec (.rdmaRead q a n) s = .next { known s q with out := s.out ++ [.rdmaRead q (bytes s a n)] }) ∧
   (∀ q s, q ∈ s.mod.qps ∨ s.mod.qps.length < 16384 → exec (.rdmaAtomic q) s = .next { known s q with out := s.out ++ [.rdmaNak q] }) ∧
   (∀ q data s, q ∈ s.mod.qps ∨ s.mod.qps.length < 16384 → exec (.sendMsg q data) s =
      .next { known s q with mod := { (known s q).mod with inbox := s.mod.inbox ++ [(q, data)] }, out := s.out ++ [.rdmaAck q] }) ∧
   ∀ q a n data imm s i, q ∉ s.mod.qps → 16384 ≤ s.mod.qps.length →
      i ∈ [.rdmaWrite q a { bytes := data, imm := imm }, .rdmaRead q a n, .rdmaAtomic q, .sendMsg q data] →
      exec i s = .next { s with out := s.out ++ [.rdmaNak q] }) ∧
  (∀ p prio b s, ∃ t, exec (.priorityFlowControl p prio b) s = .next t ∧
    { t with mod := { t.mod with paused := s.mod.paused } } = s ∧
    ∀ j, t.mod.paused.get j false = if j = p * 8 + prio then b else s.mod.paused.get j false) ∧
  ∀ q s, ∃ t, exec (.dcqcnRateControl q) s = .next t ∧
    { t with mod := { t.mod with rates := s.mod.rates }, free := s.free } = s ∧
    t.mod.rates.get q 800 < max 1 (s.mod.rates.get q 800) ∧ ∀ j, j ≠ q → t.mod.rates.get j 800 = s.mod.rates.get j 800

/-- Boot with a failed link or signature leaves the module in reset, where nothing runs and of what comes from outside only the mailbox and
another boot act (log entry 20, the model's choice); otherwise it starts the module with its measurements, MODNUM, context 0's image
area, given with the boot (log entry 3, the model's choice), and RESET clear. Warm reset leaves no wave, team or grid, the register
state of reset and FABSTAT.RESET. The attestation, the boot report and the temperatures are emitted; PWRCAP takes 600 to 2500 W and
ignores the rest; the clock moves by 25 MHz up to 1750. A counter sweep brings its counter up to date, by at most one for each clk, and
adds what it has gained to the total (log entry 22, the model's choice of how it gains); the oldest sample is written at the head of
its ring; a corrected error is counted (log entry 26). An error in a clean copy has no effect, one in a dirty L2 line poisons the line,
one in HBM the word, one in a team's own state kills the team (log entry 27 says which state that is; log entry 72 which commands have
started then). A dump of a halted module's team with no store, command or collective writes back its core, aborts its try regions and
lists its parked stores with their data beside what was left before. Of a CPYS that waits on an absent page it lists the elements yet
to be stored with their data, and the command ends (log entry 71, the model's choice). (R342, R332, R344, R343, R345, R244, R245, R240, R241, R239, R478) -/
def Obligations.BootResetReportsAndErrors : Prop :=
  (∀ links ok ver dig more num imgb imgl s, s.mod.boot ≠ .running →
    ∃ t, exec (.powerOnBoot links ok ver { boot := dig, more := more } { modnum := num, imgb := imgb, imgl := imgl }) s = .next t ∧ { t with mod := s.mod, ctxs := s.ctxs } = s ∧
      (∀ c, t.ctx c = if c = 0 ∧ links = 0 ∧ ok = true then
        { s.ctx c with imgb := imgb &&& ~~~ (0xFFF#64), imgl := imgl &&& ~~~ (0xFFF#64) } else s.ctx c) ∧
      (if links ≠ 0 then t.mod = { s.mod with boot := .linkFailure, links := links, version := ver }
       else if ok = false then t.mod = { s.mod with boot := .signatureFailure, links := 0, version := ver }
       else t.mod = { s.mod with boot := .running, links := 0, version := ver, measure := dig, more := more.take 15,
                                 modnum := num &&& 0x3FF, fabstat := s.mod.fabstat &&& 0xFFFFFFFD }) ∧
      ((links ≠ 0 ∨ ok = false) → s.inputs = [] → s.cur.second = none → step t = .fault .moduleInReset)) ∧
  (∀ x xs s, (s.mod.boot = .linkFailure ∨ s.mod.boot = .signatureFailure) → s.cur.second = none → s.inputs = x :: xs →
    (∀ links ok ver measures set, x ≠ .event (.powerOnBoot links ok ver measures set)) →
    (∀ r, x ≠ .event (.sidebandMailboxRequest r)) → step s = .next { s with inputs := xs, cur := Cur.none }) ∧
  (∀ s, ∃ t, exec .warmReset s = .next t ∧ t.waves = [] ∧ t.teams = [] ∧ t.grids = [] ∧ t.arms = [] ∧
    t.mod = { Mod.reset with fabstat := 2, peers := s.mod.peers, host := s.mod.host } ∧
    (∀ c, t.ctx c = State.reset.ctx c ∧ t.core c = Core.reset ∧ t.die c = Die.reset ∧ t.queue c = Queue.reset) ∧
    t.inputs = s.inputs ∧ t.out = s.out) ∧
  (∀ n s, ∃ sig, exec (.attestationRequest n) s = .next { s with out := s.out ++ [.attestation n (s.mod.measure :: s.mod.more) s.mod.modnum sig] }) ∧
  (∀ r s, s.mod.boot ≠ .running → ∃ c, (c = 0 ∨ c = 1 ∨ c = 2) ∧ (c = 1 ↔ s.mod.boot = .linkFailure) ∧ (c = 2 ↔ s.mod.boot = .signatureFailure) ∧
    exec (.sidebandMailboxRequest r) s = .next { s with out := s.out ++ [.bootReport c s.mod.links s.mod.version s.mod.measure] }) ∧
  (∀ s, s.mod.boot = .running →
    exec (.sidebandMailboxRequest .bootReport) s = .next { s with out := s.out ++ [.bootReport 0 s.mod.links s.mod.version s.mod.measure] } ∧
    (∃ t v, exec (.sidebandMailboxRequest .power) s = .next t ∧ { t with free := s.free, out := s.out } = s ∧
      t.out = s.out ++ [.sideband [v]]) ∧
    exec (.sidebandMailboxRequest .temperatures) s =
      .next { s with out := s.out ++ [.sideband ((List.range 192).map fun c => (s.core c).celsius)] } ∧
    ∀ w, exec (.sidebandMailboxRequest (.setPwrcap w)) s =
      .next (if 600 ≤ w ∧ w ≤ 2500 then { s with mod := { s.mod with pwrcap := BitVec.ofNat 32 w } } else s)) ∧
  (∀ w s, ∃ t, exec (.powerCapStep w) s = .next t ∧ { t with mod := { t.mod with mhz := s.mod.mhz } } = s ∧
    (s.mod.pwrcap.toNat < w → 25 < s.mod.mhz → t.mod.mhz + 25 = s.mod.mhz) ∧
    (w ≤ s.mod.pwrcap.toNat → t.mod.mhz = if s.mod.mhz + 25 ≤ 1750 then s.mod.mhz + 25 else 1750)) ∧
  (∀ k c b i s, ∃ t v, exec (.counterSweep k c b i) s = .next t ∧
    (let at' := (s.ctx c).cnttot.toNat % 2 ^ 52 + 8 * ((k * 8 + b) * 32 + i)
     let key := c * 256 + b * 32 + i
     let old := (s.core k).counters.get key { value := 0, at_ := 0, swept := 0 }
     v ≤ s.clk - old.at_ ∧ { t.calm with mem := s.mem, free := s.free, cores := s.cores } = s.calm ∧
     (∀ j, { t.core j with counters := (s.core j).counters } = s.core j) ∧
     (∀ j n, (t.core j).counters.find? n = if j = k ∧ n = key then
       some { value := old.value + BitVec.ofNat 32 v, at_ := s.clk, swept := old.value + BitVec.ofNat 32 v } else (s.core j).counters.find? n) ∧
     fromBytes (Memory.readBytes t.mem at' 8) =
       (fromBytes (Memory.readBytes s.mem at' 8) + (old.value + BitVec.ofNat 32 v - old.swept).toNat) % 2 ^ 64 ∧
     ∀ a, (a < at' ∨ at' + 8 ≤ a) → Memory.read t.mem a = Memory.read s.mem a)) ∧
  (∀ c (times : List Byte) s,
    let x := s.ctx c
    let at' := x.sampbuf.toNat % 2 ^ 52 + 32 * (x.samphead.toNat % 2 ^ ((x.sampcfg.extractLsb' 28 4).toNat + 8))
    (x.samples = [] → exec (.sampleRecordWrite c times) s = .next s) ∧
    ∀ r rest, x.samples = r :: rest → times.length = 12 →
      ∃ t, exec (.sampleRecordWrite c times) s = .next t ∧ { t.calm with mem := s.mem, ctxs := s.ctxs } = s.calm ∧
        (∀ k, t.ctx k = if k = c then { s.ctx k with samphead := (s.ctx k).samphead + 1, samples := rest } else s.ctx k) ∧
        ∀ a, Memory.read t.mem a = if at' ≤ a ∧ a < at' + 32 then
          (toBytes 8 r.pc.toNat ++ toBytes 8 r.addr.toNat ++ toBytes 4 r.loc.toNat ++ times).getD (a - at') 0 else Memory.read s.mem a) ∧
  (∀ c s, ∃ t, exec (.eccCorrected c) s = .next t ∧ { t with cores := s.cores } = s ∧
    ∀ k, t.core k = if k = c then { s.core k with corrected := (s.core k).corrected + 1 } else s.core k) ∧
  (∀ s, exec (.uncorrectableError .cleanLine) s = .next s ∧ exec (.uncorrectableError .tlb) s = .next s ∧
    exec (.uncorrectableError .walkCache) s = .next s) ∧
  (∀ addr hbm s,
    let at' := if hbm = true then addr / 8 * 8 else addr / 128 * 128
    let size := if hbm = true then 8 else 128
    ∃ t, exec (.uncorrectableError (if hbm = true then .hbm addr else .dirtyL2 addr)) s = .next t ∧ { t with poison := s.poison } = s ∧
    ∀ a n, s.poisonAt a n = none →
      t.poisonAt a n = if a < at' + size ∧ at' < a + n then some (if hbm = true then 3 else 2) else none) ∧
  (∀ d off s, ∃ t, exec (.uncorrectableError (.dieScratch d off)) s = .next t ∧ { t with dies := s.dies } = s ∧
    (∀ j, { t.die j with poison := (s.die j).poison } = s.die j) ∧ (t.die d).poisonAt off 1 = true) ∧
  (∀ n p s, (s.teams.find? n).isSome → (s.team n).state ≠ .killed → p ∈ [ErrorPlace.registerLine n, .dirtyL1 [n], .scratchpad n, .bivouac n] →
    ∃ t, exec (.uncorrectableError p) s = .next t ∧ (∀ k, k / 64 = n → t.waves.find? k = none) ∧
      (¬ s.commandRuns n → t.teams.find? n = none) ∧
      (s.commandRuns n → (t.teams.find? n).isSome ∧ (t.team n).state = .killed)) ∧
  ∀ n s, s.mod.haltedAt.isSome = true → (s.teams.find? n).isSome → (∀ p ∈ s.waves, p.2.stores = []) →
    (∀ p ∈ s.dies, ∀ x ∈ p.2.colls, x.team ≠ n) →
    (s.hasCommands n = false →
      ∃ t left, exec (.coreDump n) s = .next t ∧ t.out = s.out ++ [.dump n left] ∧ t.left.find? n = none ∧
        (∀ x ∈ s.left.get n [], x ∈ left) ∧
        (∀ a, Memory.read t.mem a = s.settled (s.team n).core a) ∧
        (∀ k l, k / 64 = n → l < 32 → (s.waves.find? k).isSome → ((t.wave k).lane l).live = true → ((t.wave k).lane l).depth = 0) ∧
        ∀ k w, s.waves.find? k = some w → k / 64 = n → ∀ p ∈ w.slots, ∀ q ∈ p.2.lanes, ∀ b, storeBytes p.2.instr = some b →
          ∃ x ∈ left, x.wave = k % 64 ∧ x.lane = q.1 ∧ x.addr = q.2.addr ∧ x.data = logBytes p.2.instr b q.2.data) ∧
    ∀ e c y, (s.core (s.team n).core).mq = [] → (s.core (s.team n).core).copy = [(e, y)] → y.queue = [c] → c.team = n → c.started = true →
      c.finished = false → c.tag.isSome = true → c.op.copyKind = 2 → (s.team n).away = false →
      ∃ t left, exec (.coreDump n) s = .next t ∧ t.out = s.out ++ [.dump n left] ∧ (t.copyCtx (s.team n).core e).queue = [] ∧
        ∀ k op type space d origin extent off, c.op = .box k op type space d origin extent off → 1 ≤ d.esize →
          ∀ i, c.pos + (i + 1) * d.esize ≤ c.op.total → ∀ a, c.op.addrOf (c.pos + i * d.esize) = some a →
            ∃ x ∈ left, x.wave = c.wave % 64 ∧ x.lane = lowest c.lanes ∧ x.addr = a ∧
              x.data = s.scratchRead (s.team n).core c (c.pos + i * d.esize) d.esize

/-- The first command of a queue that has not started starts where nothing runs, its slot admits its context and its bound fits the slot;
an MXS that swaps exchanges the weight buffers at its start, also where it then fails, and whether it may go on is decided there (log
entry 23, the model's choice). A running MXW of a format without escapes and without a fold loads every weight of its buffer from team
memory; MXS adds each row of activations to its accumulator elements, over zero where it clears, group by group of 16 exact products,
each sum and each add rounded once, escapes after their group; MXZ clears its tile; MXD rounds every element to its type, with .add
once after the exact add to the old element, and writes it to team memory, the die scratchpad or global memory at its stride. Each then
finishes and its barrier receives its arrival; a stream or drain of a tile of another team, and a tile with more than 64 escapes, fails
to its lanes, writes nothing and still arrives. That a tile or a row is read in one step is the model's choice (log entry 42), so are
what a float add makes of a NaN or an infinity of the tile (log entry 24) and that an arrival meets an object that a team has left (log
entry 50). A global MXD translates as a store does, also with .add (log entry 25). (R290, R304, R305, R294, R295, R297, R296, R289, R164, R217, R163) -/
def Obligations.MatrixEngineSteps : Prop :=
  let fin := fun (c : Cmd) (x : Core) =>
    ({ x with mq := x.mq.map fun y => if y.num = c.num then { y with finished := true, tag := none } else y } : Core)
  let start := fun (c : Cmd) (x : Core) => ({ x with mq := x.mq.map fun y => if y.num = c.num then { y with started := true } else y } : Core)
  let barred := fun (c : Cmd) (x : Core) (tile : Nat) (clear swap : Bool) =>
    (if swap = true then x.shadow else x.active).owner ≠ some c.team ∨ (clear = false ∧ x.tileTag.find? tile ≠ some c.team)
  let runs := fun (s : State) (core : Nat) (c : Cmd) => (∀ y ∈ (s.core core).mq, y.num = c.num → y = c) ∧ c ∈ (s.core core).mq ∧
    c.started = true ∧ c.finished = false ∧ (∀ y ∈ (s.core core).mq, y.started = true → y.finished = false → y = c) ∧
    (s.team c.team).state ≠ .killed
  (∀ core c s, (s.core core).mq.find? (fun y => !y.started) = some c → (∀ y ∈ (s.core core).mq, y.started = true → y.finished = true) →
    (s.core core).slotNow = s.clk / 2048 →
    (let e := (s.core core).slottab.get (s.clk / 2048 % 64) 0x10; e.getLsbD 4 = true ∨ (e.extractLsb' 0 4).toNat = c.ctx) →
    (let b := match c.op with
       | .mxs _ _ _ true _ _ _ _ => (s.core core).shadow
       | _ => (s.core core).active
     c.op.bound b.fmt ≤ 2048 - s.clk % 2048) →
    ∃ t, exec (.matrixCommandStart core) s = .next t ∧ { t with cores := s.cores } = s ∧
      ∀ k, t.core k = if k = core then
          (match c.op with
           | .mxs _ tile clear swap _ _ _ _ =>
             let y := { s.core k with mq := (s.core k).mq.map fun y => if y.num = c.num then
               { y with started := true, pos := if barred c (s.core k) tile clear swap then 1 else 0 } else y }
             if swap = true then { y with active := (s.core k).shadow, shadow := (s.core k).active } else y
           | _ => start c (s.core k))
        else s.core k) ∧
  (∀ core c s active fmt w sv, runs s core c → c.op = .mxw active false fmt w sv → fmt ≠ 4 →
    ∃ t b, exec (.mxwLoad core) s = .next t ∧ b.fmt = fmt ∧ b.owner = some c.team ∧ b.escapes = [] ∧
      (∀ k n, k < 128 → n < 128 → b.w.get (k * 128 + n) (.zero false) =
        elemAt fmt 128 (s.teamSeen c (w + k * rowBytes fmt 128) (rowBytes fmt 128)) n (.zero false)) ∧
      t = (s.modCore core fun x => if active = true then { fin c x with active := b } else { fin c x with shadow := b }).arriveAt c.bar) ∧
  (∀ core c s active fold w sv, runs s core c → c.op = .mxw active fold 4 w sv → w + tileBytes 4 + 128 ≤ (s.team c.team).alloc →
    64 < (escapesOf 4 (s.tileRows c w (rowBytes 4 128) 128)).length → (s.teams.find? c.team).isSome → c.wave / 64 = c.team → c.ended = false →
    c.lanes &&& (s.wave c.wave).live ≠ 0 →
    ∃ t, exec (.mxwLoad core) s = .next t ∧ (∀ k, (t.core k).active = (s.core k).active ∧ (t.core k).shadow = (s.core k).shadow) ∧
      ∀ l, (c.lanes &&& (s.wave c.wave).live).getLsbD l = true →
        ((t.wave c.wave).lane l).late = ((s.wave c.wave).lane l).late ++ [{ cause := 0x11, info := BitVec.ofNat 32 c.num, addr := 0 }]) ∧
  (∀ core c s fmt tile clear swap act row0 m k, runs s core c → c.op = .mxs fmt tile clear swap act row0 m k → c.pos = 0 → row0 + m ≤ 256 →
    ∃ t u : State, exec (.mxsStream core) s = .next t ∧ t = u.arriveAt c.bar ∧ { u with cores := s.cores } = s ∧ (∀ d, d ≠ core → u.core d = s.core d) ∧
      { u.core core with tiles := (s.core core).tiles } =
        (if clear = true then { fin c (s.core core) with tileTag := (s.core core).tileTag.put tile c.team } else fin c (s.core core)) ∧
      (∀ r n, r < m → n < 128 →
        let b := (s.core core).active
        let row := s.teamSeen c (act + r * rowBytes fmt k) (rowBytes fmt k)
        let old := if clear = true then 0 else ((s.core core).tiles.get (tileKey tile (row0 + r) n) 0).toNat
        let new := accRow b fmt k row n old
        let w := fun j => b.w.get (j * 128 + n) (.zero false)
        let a := fun j => elemAt fmt k row j (.nan false)
        (u.core core).tiles.get (tileKey tile (row0 + r) n) 0 = BitVec.ofNat 32 new ∧
        ((∀ j, j < k → (w j).isFinite = true ∧ (a j).isFinite = true ∧ ∀ e, b.escapes.find? (j * 128 + n) = some e → e.isFinite = true) →
          Accumulated (fun j => (w j).rat) (fun j => (b.escapes.find? (j * 128 + n)).map XV.rat) (fun j => (a j).rat) k old new) ∧
        (∀ j, j < k / 16 * 16 → b.escapes.find? (j * 128 + n) = none → ((w j).mul (a j)).1.isNan = true → new = Fmt.f32.nan)) ∧
      ∀ j, (∀ r n, r < m → n < 128 → j ≠ tileKey tile (row0 + r) n) →
        (u.core core).tiles.get j 0 = if clear = true ∧ j / 32768 = tile then 0 else (s.core core).tiles.get j 0) ∧
  (∀ core c s fmt tile clear swap act row0 m k, runs s core c → c.op = .mxs fmt tile clear swap act row0 m k → c.pos = 1 →
    (s.teams.find? c.team).isSome → c.wave / 64 = c.team → c.ended = false → c.lanes &&& (s.wave c.wave).live ≠ 0 →
    ∃ t, exec (.mxsStream core) s = .next t ∧ (∀ k, (t.core k).tiles = (s.core k).tiles) ∧
      ∀ l, (c.lanes &&& (s.wave c.wave).live).getLsbD l = true → ((t.wave c.wave).lane l).late =
        ((s.wave c.wave).lane l).late ++ [{ cause := 5, info := 3, addr := BitVec.ofNat 64 c.num }]) ∧
  (∀ core c s tile, runs s core c → c.op = .mxz tile →
    ∃ t u : State, exec (.mxzClear core) s = .next t ∧ t = u.arriveAt c.bar ∧ { u with cores := s.cores } = s ∧ (∀ d, d ≠ core → u.core d = s.core d) ∧
      { u.core core with tiles := (s.core core).tiles } = { fin c (s.core core) with tileTag := (s.core core).tileTag.put tile c.team } ∧
      ∀ j, (u.core core).tiles.get j 0 = if j / 32768 = tile then 0 else (s.core core).tiles.get j 0) ∧
  (∀ core c s type tile space add dst row0 m stride, runs s core c → c.op = .mxd type tile space add dst row0 m stride → c.tag = none →
    (s.core core).tileTag.find? tile ≠ some c.team → (s.teams.find? c.team).isSome → c.wave / 64 = c.team → c.ended = false →
    c.lanes &&& (s.wave c.wave).live ≠ 0 →
    ∃ t, exec (.mxdDrain core) s = .next t ∧ t.mem = s.mem ∧ (∀ k, (t.core k).tiles = (s.core k).tiles) ∧
      (t.core core).mq = (fin c (s.core core)).mq ∧
      (c.bar = none → (∀ k, (t.team k).tmem = (s.team k).tmem) ∧ ∀ d, t.die d = s.die d) ∧
      (∀ d o, c.bar = some (.die d o) → s.objThere (.die d o) = true → t.bar (.die d o) = (s.bar (.die d o)).arrive.check) ∧
      ∀ l, (c.lanes &&& (s.wave c.wave).live).getLsbD l = true → ((t.wave c.wave).lane l).late.getLast? =
        some { cause := 5, info := 3, addr := BitVec.ofNat 64 c.num }) ∧
  (∀ type (old : Option Nat) acc, type ∈ [8, 9, 10, 12, 13] →
    let f := fmtOfType type
    let x := decodeF Fmt.f32 acc
    let y := match old with | some o => decodeF f o | none => .zero false
    (x.isFinite = true → y.isFinite = true → ∃ z r, RoundedTo f 0 false (decide (12 ≤ type)) (x.rat + y.rat) z r ∧ drainElem type old acc = r.bits) ∧
    ((x.isNan = true ∨ y.isNan = true) → drainElem type old acc = f.nan) ∧
    ∀ neg, x = .inf neg → old = none → drainElem type old acc = if 12 ≤ type then maxCode f neg else infCode f neg) ∧
  (∀ core c s type tile space add dst row0 m stride, runs s core c → c.op = .mxd type tile space add dst row0 m stride → c.pos = 0 →
    c.tag = none → space = 1 ∨ space = 2 → (s.core core).tileTag.find? tile = some c.team → (s.teams.find? c.team).isSome →
    (s.team c.team).away = false → 128 * drainBytes type ≤ stride →
    let n := drainBytes type
    ∃ t, exec (.mxdDrain core) s = .next t ∧ t.mem = s.mem ∧
      (space = 1 → ∀ d o, c.bar = some (.die d o) → s.objThere (.die d o) = true → t.bar (.die d o) = (s.bar (.die d o)).arrive.check) ∧
      (c.bar = none →
        (∀ d, { t.core d with mq := (s.core d).mq } = s.core d) ∧ (∀ d, d ≠ core → t.core d = s.core d) ∧
        (t.core core).mq = (fin c { s.core core with mq := (s.core core).mq.map fun y =>
          if y.num = c.num then { y with pos := m * n } else y }).mq ∧
        let byte := fun (u : State) (a : Nat) => if space = 1 then (u.team c.team).tmem.get a 0 else (u.die (core / 48)).dsp.get a 0
        let was := fun (a : Nat) => if add = true then some (fromBytes ((List.range n).map fun b => byte s (a + b))) else none
        (∀ r col b, r < m → col < 128 → b < n → byte t (dst + r * stride + col * n + b) =
          (toBytes n (drainElem type (was (dst + r * stride + col * n)) ((s.core core).tiles.get (tileKey tile (row0 + r) col) 0).toNat)).getD b 0) ∧
        ∀ a, (∀ r, r < m → a < dst + r * stride ∨ dst + r * stride + 128 * n ≤ a) → byte t a = byte s a)) ∧
  ∀ core c s type tile add dst row0 m stride (pa : Nat → Nat → Nat), runs s core c → c.op = .mxd type tile 0 add dst row0 m stride →
    c.pos = 0 → c.tag = none → c.bar = none → (s.core core).tileTag.find? tile = some c.team →
    let n := drainBytes type
    (∀ r x, r < m → x < 128 * n → s.CoreMaps core c.ctx (BitVec.ofNat 64 (dst + r * stride + x)) 1 (pa r x)) →
    (∀ r x r' x', r < m → x < 128 * n → r' < m → x' < 128 * n → pa r x = pa r' x' → r = r' ∧ x = x') →
    let was := fun (r col : Nat) => if add = true then
      some (fromBytes ((List.range n).map fun b => s.settled core (pa r (col * n + b)))) else none
    ∃ t, exec (.mxdDrain core) s = .next t ∧
      (∀ r col b, r < m → col < 128 → b < n → t.settled core (pa r (col * n + b)) =
        (toBytes n (drainElem type (was r col) ((s.core core).tiles.get (tileKey tile (row0 + r) col) 0).toNat)).getD b 0) ∧
      ∀ a, (∀ r x, r < m → x < 128 * n → a ≠ pa r x) → t.settled core a = s.settled core a

/-- Copies go in ascending segments of at most 128 bytes (log entry 17, the model's choice), each read in one step but for words read ahead
(log entry 42, likewise). The next segment of a running CPY or CPYG to team memory writes n bytes, each the byte its address has in
memory, 0 outside the tensor, moves the command on by n and finishes it at its end, where no barrier is named; where the die scratchpad
holds its barrier, the barrier lands n bytes. A word that a running command has read ahead is read as it was then. A segment of CPYS
writes the scratchpad's bytes at their addresses, and one of CPYR puts into each element the operation of what stood there and the
scratchpad's element. COPY_COMMAND_COMPLETE moves every counter of the core to the last of the leading finished commands. The first
ready collective of a die writes what it receives to its buffer and ends; a failed one writes nothing, reports PROTECTION with TINFO
0x0A and has the instance of a peer on another die fail; an all-reduce of s32 receives the sum modulo 2^32. A contribution joins the
instance of its tag, context and number that lacks its rank, and one that disagrees fails it (log entry 63, the model's choice of what
an instance is); a barrier that an ended command names has its arrival (log entry 50). A new slot and a new window put the pending
entries into their tables. (R302, R301, R300, R208, R213, R336, R337, R304, R324) -/
def Obligations.CopiesCollectivesAndSlots : Prop :=
  (∀ (c : Cmd) place x bs, (c.look place x bs).length = bs.length ∧ ∀ i, i < bs.length → (c.look place x bs).getD i 0 =
    match c.seen.lookup (place ((x + i) / 4 * 4)) with
    | some w => w.getD ((x + i) % 4) 0
    | none => bs.getD i 0) ∧
  (∀ core p xs s, s.cur.second = none → s.mod.boot.failed = false → s.inputs = .engineRead core p :: xs →
    ∃ t, step s = .next t ∧ t.mem = s.mem ∧ (∀ k, k ≠ core → t.core k = s.core k) ∧
      (t.core core).mq.length = (s.core core).mq.length ∧
      (∀ (i : Nat) (c : Cmd), (s.core core).mq[i]? = some c → ∃ c' : Cmd, (t.core core).mq[i]? = some c' ∧ { c' with seen := c.seen } = c ∧
        (c.started = true → c.finished = false → c'.seen.lookup p = some (s.wordThere p) ∧ ∀ q, q ≠ p → c'.seen.lookup q = c.seen.lookup q) ∧
        (c.started = false ∨ c.finished = true → c'.seen = c.seen)) ∧
      ∀ e (i : Nat) (c : Cmd), (s.copyCtx core e).queue[i]? = some c → c ∈ (s.copyCtx core e).running →
        ∃ c' : Cmd, (t.copyCtx core e).queue[i]? = some c' ∧ c'.seen.lookup p = some (s.wordThere p)) ∧
  (∀ core ctx pos c s, (s.copyCtx core ctx).running[pos]? = some c → c.tag = none → (∀ y ∈ (s.copyCtx core ctx).queue, y.num = c.num → y = c) →
    c.ctx = ctx → (s.team c.team).away = false → (s.team c.team).state ≠ .killed → c.op.copyKind < 2 → c.op.scratch.1 = 1 → (s.teams.find? c.team).isSome →
    let first := ((s.copyCtx core ctx).running.take (pos + 1)).map (·.num)
    let s1 := s.modCopy core ctx fun q => { q with queue := q.queue.map fun y => if first.contains y.num then { y with started := true } else y }
    let off := c.op.scratch.2 + c.pos
    let n := min (128 - off % 128) (c.op.total - c.pos)
    let places := (List.range n).map fun i => c.op.addrOf (c.pos + i)
    ∀ pas, s1.translateAll core ctx 0 (places.filterMap id) = (s1, .ok pas) →
      (c.bar = none →
        ∃ t, exec (.copySegmentLand core ctx pos) s = .next t ∧ t.mem = s.mem ∧
          (∀ i, (t.team c.team).tmem.get i 0 = if off ≤ i ∧ i < off + n then
              (if (places.getD (i - off) none).isSome then s.memSeen c (pas.getD ((places.take (i - off)).filterMap id).length 0) else 0)
            else (s.team c.team).tmem.get i 0) ∧
          (t.copyCtx core ctx).queue = (s1.copyCtx core ctx).queue.map fun y => if y.num = c.num then
            { y with pos := c.pos + n, finished := decide (c.op.total ≤ c.pos + n) } else y) ∧
      ∀ d o, c.bar = some (.die d o) → s.objThere (.die d o) = true →
        ∃ t, exec (.copySegmentLand core ctx pos) s = .next t ∧ t.bar (.die d o) = ((s.bar (.die d o)).land n).check) ∧
  (∀ core ctx pos c s, (s.copyCtx core ctx).running[pos]? = some c → c.tag = none → (∀ y ∈ (s.copyCtx core ctx).queue, y.num = c.num → y = c) →
    c.ctx = ctx → (s.team c.team).state ≠ .killed → c.op.copyKind = 2 ∨ c.op.copyKind = 3 → c.bar = none →
    let first := ((s.copyCtx core ctx).running.take (pos + 1)).map (·.num)
    let s1 := s.modCopy core ctx fun q => { q with queue := q.queue.map fun y => if first.contains y.num then { y with started := true } else y }
    let n := min 128 (c.op.total - c.pos)
    ∀ pas, (∀ i, i < n → (c.op.addrOf (c.pos + i)).isSome) → pas.Nodup →
      s1.translateAll core ctx (if c.op.copyKind = 2 then 1 else 2) ((List.range n).filterMap fun i => c.op.addrOf (c.pos + i)) =
        (s1, .ok pas) →
      ∃ t, exec (.copySegmentLand core ctx pos) s = .next t ∧
        (c.op.copyKind = 2 → ∀ i, i < n → Memory.read t.mem (pas.getD i 0) = (s.scratchRead core c (c.pos + i) 1).getD 0 0) ∧
        (∀ k op type space d origin extent off, c.op = .box k op type space d origin extent off → k = 3 → 1 ≤ d.esize →
          ∀ e, (e + 1) * d.esize ≤ n →
            let at' := fun j => pas.getD (e * d.esize + j) 0
            fromBytes ((List.range d.esize).map fun j => Memory.read t.mem (at' j)) =
              engineOp op type (fromBytes ((List.range d.esize).map fun j => s.settled core (at' j)))
                (fromBytes (s.scratchRead core c (c.pos + e * d.esize) d.esize)) % 256 ^ d.esize) ∧
        ∀ a, a ∉ pas → t.settled core a = s.settled core a) ∧
  (∀ core engine s, s.arms = [] →
    (∃ c rest, (match engine with | some ctx => (s.copyCtx core ctx).queue | none => (s.core core).mq) = c :: rest ∧ c.finished = true) →
    ∃ t, exec (.copyCommandComplete core engine) s = .next t ∧ { t with cores := s.cores } = s ∧
      (∀ k, { t.core k with mq := (s.core k).mq, mDone := (s.core k).mDone, copy := (s.core k).copy } = s.core k) ∧
      (t.core core).mq = (s.core core).mq.dropWhile (·.finished) ∧
      (t.core core).mDone = (((s.core core).mq.takeWhile (·.finished)).getLast?.map (·.num)).getD (s.core core).mDone ∧
      ∀ e, t.copyCtx core e = { s.copyCtx core e with
        queue := (s.copyCtx core e).queue.dropWhile (·.finished),
        done := (((s.copyCtx core e).queue.takeWhile (·.finished)).getLast?.map (·.num)).getD (s.copyCtx core e).done }) ∧
  (∀ d x pa s, (s.die d).colls.find? Coll.ready = some x → x.failed = false → x.bar = none → s.arms = [] →
    x.received ≠ [] → x.recv.toNat % 4096 + x.received.length ≤ 4096 → s.translateDie d x.ctx x.recv 1 = (s, .ok pa) →
    s.backedAll pa x.received.length = true →
    let core := s.collCore x
    ∃ t, exec (.collComplete d) s = .next t ∧ { t.calm with mem := s.mem, dies := s.dies, cores := s.cores } = s.calm ∧
      (∀ c, { t.core c with l1 := (s.core c).l1 } = s.core c) ∧ (∀ c, c ≠ core → t.core c = s.core c) ∧
      (∀ j, t.die j = if j = d then { s.die j with colls := (s.die j).colls.filter fun z => z.num != x.num } else s.die j) ∧
      ∀ a, t.settled core a = if pa ≤ a ∧ a < pa + x.received.length then x.received.getD (a - pa) 0 else s.settled core a) ∧
  (∀ d x s, (s.die d).colls.find? Coll.ready = some x → x.failed = true → x.ended = false → x.bar = none → s.arms = [] →
    (s.teams.find? (x.wave / 64)).isSome → (s.team (x.wave / 64)).state ≠ .killed → x.lanes &&& (s.wave x.wave).live ≠ 0 →
    ∃ t, exec (.collComplete d) s = .next t ∧ t.mem = s.mem ∧ (∀ z ∈ (t.die d).colls, z.num ≠ x.num) ∧
      (∀ l, (x.lanes &&& (s.wave x.wave).live).getLsbD l = true → ((t.wave x.wave).lane l).late =
        ((s.wave x.wave).lane l).late ++ [{ cause := 5, info := 0x0A, addr := BitVec.ofNat 64 x.num }]) ∧
      ∀ r e y, s.collPeers x.members x.rank = [(r, e)] → e ≠ d → (s.die e).colls.find? (fun z => z.tag == x.tag && z.ctx == x.ctx &&
          z.inst == x.inst && !z.failed) = some y →
        (t.die e).colls = (s.die e).colls.map fun z => if z.num = y.num then { z with failed := true } else z) ∧
  (∀ (x : Coll) i, x.kind = 0 → x.type = 4 → 1 ≤ x.p → i < x.n →
    fromBytes ((x.received.drop (4 * i)).take 4) = ((List.range x.p).map fun j => fromBytes (((x.sent j).drop (4 * i)).take 4)).sum % 2 ^ 32) ∧
  (∀ d (tag : Word) c s,
    let wants := fun (x : Coll) => x.tag == tag && x.ctx == c.ctx && x.inst == c.inst && x.steps.all fun y => y.rank != c.rank
    c.p ≠ 0 → ((∀ x ∈ (s.die d).colls, wants x = false) →
      ∃ t, exec (.collectiveStep d tag c) s = .next t ∧ { t with dies := s.dies } = s ∧
        ∀ j, t.die j = if j = d then { s.die j with collSteps := (s.die j).collSteps ++ [(tag, c)] } else s.die j) ∧
    ∀ y, (s.die d).colls.find? wants = some y →
      ∃ t, exec (.collectiveStep d tag c) s = .next t ∧ { t with dies := s.dies } = s ∧
        ∀ j, t.die j = if j = d then { s.die j with colls := (s.die j).colls.map fun z =>
          if z.num = y.num then { z with steps := z.steps ++ [c], failed := z.failed || !z.agrees c } else z } else s.die j) ∧
  (∀ core s, (s.core core).slotNow ≠ s.clk / 2048 → ((s.core core).slotPending.map (·.1)).Nodup →
    ∃ t, exec (.slotBoundary core) s = .next t ∧ { t with cores := s.cores } = s ∧ (∀ k, k ≠ core → t.core k = s.core k) ∧
      { t.core core with slottab := (s.core core).slottab } = { s.core core with slotNow := s.clk / 2048, slotPending := [] } ∧
      ∀ i, (t.core core).slottab.get i 0x10 = ((s.core core).slotPending.find? i).getD ((s.core core).slottab.get i 0x10)) ∧
  ∀ d s, (s.die d).bwNow ≠ s.clk / s.mod.mhz → ((s.die d).bwPending.map (·.1)).Nodup →
    ∃ t, exec (.bwWindow d) s = .next t ∧ { t with dies := s.dies } = s ∧ (∀ k, k ≠ d → t.die k = s.die k) ∧
      { t.die d with bwshare := (s.die d).bwshare } = { s.die d with bwNow := s.clk / s.mod.mhz, bwPending := [] } ∧
      ∀ i, (t.die d).bwshare.get i 0 = ((s.die d).bwPending.find? i).getD ((s.die d).bwshare.get i 0)

/-- Where a queue can give a record: the head moves on; a record that keeps every limit makes a grid with the context's next launch number,
and another sets BAD and makes none. A team's next pending record makes a child grid at the lesser of its priority and the root's and
advances the launch barrier's phase. A placement makes a team with zeroed memory whose waves all stand Ready at the entry with zero
registers and the argument in s0 and s1; a grid that has waited 1 ms for a core, its context live and not held and its area with room,
reserves; one whose area has no room does not. A grid whose queue is disabled is not placed (log entry 79, the model's reading), nor is
one while a launch queue of higher priority has a record to give. A pooled task, and an eligible task of a graph without a pass mark,
become a grid of the die's task unit; a marked one takes its turn: its mark clears and its ropes point away. A team with no wave,
command or request retires, or awaits its children. (R308, R309, R310, R312, R57, R313, R311, R315, R319, R52, R55) -/
def Obligations.DispatcherAndTaskSteps : Prop :=
  (∀ q s, s.canTake q = true →
    let x := s.queue q
    let ctx := (x.cfg.extractLsb' 16 4).toNat
    let pa := x.recordAt
    let r := parseLaunch (s.l2Read (s.selfAddressed pa) 64)
    s.backed (s.selfAddressed pa) = true → s.poisonAt pa 64 = none →
    (s.launchOk ctx (.queue q) r = true →
      ∃ t, exec (.dispatcherTakeRecord q) s = .next t ∧
        { t with queues := s.queues, ctxs := s.ctxs, grids := s.grids, nextGrid := s.nextGrid } = s ∧
        (∀ j, t.queue j = if j = q then { x with head := x.head + 1 } else s.queue j) ∧
        (∀ c, t.ctx c = if c = ctx then { s.ctx c with launchIssued := (s.ctx c).launchIssued + 1,
                                                       launchOut := (s.ctx c).launchOut ++ [(s.ctx c).launchIssued + 1] } else s.ctx c) ∧
        t.nextGrid = s.nextGrid + 1 ∧ (∀ g, g ≠ s.nextGrid → t.grids.find? g = s.grids.find? g) ∧
        ∃ g, t.grids.find? s.nextGrid = some g ∧ g.ctx = ctx ∧ g.record = r ∧ g.num = (s.ctx ctx).launchIssued + 1 ∧
          g.prio = (x.cfg.extractLsb' 8 3).toNat ∧ g.source = .queue q ∧ g.next = 0 ∧ g.retired = 0 ∧ g.depth = 1) ∧
    (s.launchOk ctx (.queue q) r = false → s.completionOk ctx (.queue q) r.completion = false → r.external = false →
      ∃ t, exec (.dispatcherTakeRecord q) s = .next t ∧ { t with queues := s.queues } = s ∧
        ∀ j, t.queue j = if j = q then { x with head := x.head + 1, cfg := x.cfg ||| 0x40000000 } else s.queue j)) ∧
  (∀ k (x : Taken) rest s, (s.teams.find? k).isSome → (s.team k).pending = x :: rest → s.headOpen (.child k) (s.team k).ctx = false →
    (s.team k).state = .resident → 32 ≤ (s.team k).alloc → s.Unwaited (.team k 0) →
    ∃ t, exec (.pendingLaunchTake k) s = .next t ∧ { t.calm with teams := s.teams, grids := s.grids, nextGrid := s.nextGrid } = s.calm ∧
      (∀ j, j ≠ k → t.team j = s.team j) ∧ { t.team k with tmem := (s.team k).tmem } = { s.team k with pending := rest } ∧
      t.bar (.team k 0) = { s.bar (.team k 0) with phase := (s.bar (.team k 0)).phase + 1 } ∧
      (∀ a, 32 ≤ a → (t.team k).tmem.get a 0 = (s.team k).tmem.get a 0) ∧ (∀ g, g ≠ s.nextGrid → t.grids.find? g = s.grids.find? g) ∧
      ∃ g, t.grids.find? s.nextGrid = some g ∧ g.ctx = (s.team k).ctx ∧ g.record = x.record ∧ g.num = x.num ∧ g.bar = x.bar ∧ g.source = .child k ∧
        g.prio = min x.record.prio (s.team k).root ∧ g.depth = (s.team k).depth + 1 ∧ g.next = 0 ∧ g.retired = 0) ∧
  (∀ gk g lin c s, s.grids.find? gk = some g → g.pendingTeam = some lin → s.target gk g = some c → s.mayPlace gk g = true →
    ∃ t x, exec (.teamPlacement gk) s = .next t ∧ t.mem = s.mem ∧ t.nextTeam = s.nextTeam + 1 ∧ t.teams.find? s.nextTeam = some x ∧
      x.core = c ∧ x.ctx = g.ctx ∧ x.lin = lin ∧ x.state = .resident ∧ x.tmem = [] ∧ x.alloc = (g.record.tmem + 159) / 128 * 128 ∧
      x.vcount = g.record.vregs ∧ x.scount = g.record.sregs ∧ x.pool = g.record.pool ∧ x.task = g.task ∧
      (∀ k, k / 64 ≠ s.nextTeam → k < s.nextTeam * 64 → t.waves.find? k = s.waves.find? k) ∧
      (∀ k, k ≠ s.nextTeam → t.teams.find? k = s.teams.find? k) ∧
      ∀ wid, wid < g.record.waves → ∃ w, t.waves.find? (s.nextTeam * 64 + wid) = some w ∧ w.vb = 0 ∧ w.sb = 0 ∧
        w.trapvec = (s.ctx g.ctx).tvdef &&& ~~~ (3#64) ∧ w.fcsr = 0 ∧ w.wstat = 0 ∧
        (∀ l, l < 32 → (w.lane l).life = .ready ∧ (w.lane l).pc = g.record.entry ∧ (w.lane l).handler = false ∧ ∀ r, (w.lane l).reg r = 0) ∧
        (2 ≤ g.record.sregs → w.sreg 0 = lo32 g.record.arg ∧ w.sreg 1 = hi32 g.record.arg)) ∧
  (∀ gk g t0 s, s.grids.find? gk = some g → g.waitSince = some t0 → t0 + s.mod.mhz * 1000 ≤ s.clk → s.wantsCore gk g = true → s.target gk g = none →
    ∃ t, exec (.placementReserveTimeout gk) s = .next t ∧ { t with grids := s.grids } = s ∧
      ∀ k, t.grids.find? k = if k = gk then some { g with reserved := true } else s.grids.find? k) ∧
  (∀ gk g s, s.grids.find? gk = some g → s.imagePlaces g.ctx (g.team gk 0).imageSize = [] → exec (.placementReserveTimeout gk) s = .next s) ∧
  (∀ gk g q s, s.grids.find? gk = some g → ((g.source = .queue q ∧ (s.queue q).enabled = false) ∨
    (q < 64 ∧ s.canTake q = true ∧ g.prio < ((s.queue q).cfg.extractLsb' 8 3).toNat)) → exec (.teamPlacement gk) s = .next s) ∧
  (∀ d ctx num (r : TaskRec) rest s, (s.unit d ctx).pool = (num, r) :: rest → s.headOpen (.task d) ctx = false →
    ∃ t g, exec (.taskLaunch d ctx) s = .next t ∧ { t with dies := s.dies, grids := s.grids, nextGrid := s.nextGrid } = s ∧
      t.unit d ctx = { s.unit d ctx with pool := rest } ∧ t.grids.find? s.nextGrid = some g ∧ g.ctx = ctx ∧ g.source = .task d ∧
      g.record.teams = 1 ∧ g.record.entry = r.entry ∧ g.record.arg = r.arg ∧ g.record.waves = r.waves ∧ g.record.tmem = r.kib * 1024 ∧
      g.task = some { die := d, num := num, task := r, graph := false, idx := 0 }) ∧
  (∀ d ctx gid i (g : Graph) x s, (s.die d).graph gid = some g → g.ctx = ctx → g.pick = some i → g.task i = some x → x.mark = false →
    s.headOpen (.task d) ctx = false →
    ∃ t h, exec (.erTaskPick d ctx gid) s = .next t ∧ { t with dies := s.dies, grids := s.grids, nextGrid := s.nextGrid } = s ∧
      (t.die d).graph gid = some { g with tasks := g.tasks.set i { x with running := true } } ∧ t.grids.find? s.nextGrid = some h ∧
      h.ctx = ctx ∧ h.source = .task d ∧ h.record.entry = x.task.entry ∧
      h.task = some { die := d, num := 0, task := x.task, graph := true, idx := i }) ∧
  (∀ d ctx gid i (g : Graph) x s, (s.die d).graph gid = some g → g.ctx = ctx → g.pick = some i → g.task i = some x → x.mark = true →
    x.turns + 1 < g.rounds →
    ∃ t h, exec (.erTaskPass d ctx gid) s = .next t ∧ (t.die d).graph gid = some h ∧
      h.task i = some { x with mark := false, turns := x.turns + 1, running := false } ∧ (∀ j, j ≠ i → h.task j = g.task j) ∧
      ∀ j r, g.ropes[j]? = some r → h.ropes[j]? = some (if j ∈ x.ropes then { r with towardB := decide (r.a = i) } else r)) ∧
  ∀ k x s, s.teams.find? k = some x → (∀ p ∈ s.waves, p.1 / 64 ≠ k) → s.hasCommands k = false →
    (∀ p ∈ (s.core x.core).bins, p.2.team = k → p.2.args = []) → x.state = .resident → x.task = none →
    (x.children = 0 → s.grids.find? x.grid = none →
      ∃ t, exec (.teamRetire k) s = .next t ∧ t.teams.find? k = none ∧ (∀ j, j ≠ k → t.teams.find? j = s.teams.find? j) ∧
        ∀ a, Memory.read t.mem a = s.settled x.core a) ∧
    (x.children ≠ 0 →
      ∃ t y, exec (.teamRetire k) s = .next t ∧ t.teams.find? k = some y ∧ y.state = .awaiting ∧ y.tmem = x.tmem ∧ y.core = x.core ∧
        (∀ j, j ≠ k → t.teams.find? j = s.teams.find? j) ∧ (t.core x.core).active.owner ≠ some k ∧ (t.core x.core).shadow.owner ≠ some k)

/-- Where nothing holds it back, a pre-emption that has been asked for leaves the team Queued, and a swap-out whose condition is met leaves
it Swapped, where a critical wave defers it only asked for: its lanes outside try regions keep their PCs and registers, its latches are
empty, it holds no bin, no critical place and no weight buffer, the core's dirty bytes are in memory, and the team's memory is in its
image. A restore makes a Queued team resident on its target core: its memory, the windows, the trap vector and the PC, handler bit,
state and trap block of its lanes are read from its save record; its lines are absent on another core. At the critical limit the team's
critical places clear and it is pre-empted or swapped out, as was asked; a watchdog that runs out leaves no team of its context
resident without a pre-emption asked for. A core above its threshold is held hot and cools below the hysteresis; a hot core's tick pre-
empts its longest-resident team. A core without resident team is gated, and a wake message ends that. What the save record holds beside
the fields that R234 and R235 place, and that a lane comes back Ready to try its wait again, is the model's choice (log entry 39). (R231, R232, R53, R233, R66, R322, R236, R323, R237) -/
def Obligations.TeamsLeaveAndReturn : Prop :=
  let away := fun (s t : State) (k : Nat) (st : TeamState) => (t.team k).state = st ∧ (t.team k).preempt = none ∧
    (∀ j, j ≠ k → (t.team j).state = (s.team j).state) ∧
    (∀ j w, j / 64 = k → s.waves.find? j = some w → ∃ w', t.waves.find? j = some w' ∧
      w'.slatch = [] ∧ w'.sync.pending = none ∧
      ((∀ l, (w.lane l).depth = 0) → w'.s = w.s ∧ w'.vb = w.vb ∧ w'.sb = w.sb ∧
        ∀ l, (w'.lane l).v = (w.lane l).v ∧ (w'.lane l).latch = [] ∧
          ((∀ x, (w.lane l).life ≠ .blocked x) → (w'.lane l).pc = (w.lane l).pc))) ∧
    (∀ p ∈ (t.core (s.team k).core).bins, p.2.team ≠ k) ∧ (∀ j ∈ (t.core (s.team k).core).crit, j / 64 = k → s.waves.find? j = none) ∧
    (t.core (s.team k).core).active.owner ≠ some k ∧ (t.core (s.team k).core).shadow.owner ≠ some k ∧
    (∀ a, t.settled (s.team k).core a = Memory.read t.mem a) ∧
    ((∀ p ∈ s.waves, p.1 / 64 = k → p.2.stores = []) → ∀ o, o < (s.team k).alloc →
      Memory.read t.mem ((s.team k).image.toNat + 4096 + o) = (s.team k).tmem.get o 0)
  (∀ k s, (s.team k).preempt.isSome = true → (s.team k).swapping = false → s.quiet k = true →
    ∃ t, exec (.preemption k) s = .next t ∧ away s t k .queued) ∧
  (∀ k s, s.quiet k = true → s.swapMet k = true → (s.team k).preempt = none ∨ (s.team k).swapping = true →
    ∃ t, exec (.swapOut k) s = .next t ∧ away s t k .swapped) ∧
  (∀ k x s, s.teams.find? k = some x → x.state = .resident → x.preempt = none → s.deferred k = true → s.swapMet k = true →
    ∃ t, exec (.swapOut k) s = .next t ∧ { t with teams := s.teams } = s ∧
      ∀ j, t.team j = if j = k then { x with preempt := some s.clk, swapping := true } else s.team j) ∧
  (∀ k c s, s.restoreTarget k = some c → s.mayRestore k = true → (s.teams.find? k).isSome →
    ∃ t, exec (.teamRestore k) s = .next t ∧
      let x := s.team k
      let u := if x.core = c then s else (s.wavesOf k).foldl (fun s j => (s.wave j).dirty.foldl (fun s l => s.writeLine j l) s) s
      let h := fun (a n : Nat) => fromBytes (Memory.readBytes u.mem (x.image.toNat + a) n)
      let at' := fun (j : Nat) => 4096 + (x.alloc + 4095) / 4096 * 4096 + 6144 * ((List.range (j % 64)).filter (h 8 8).testBit).length
      (∀ j w, j / 64 = k → s.waves.find? j = some w → (h 8 8).testBit (j % 64) = true ∧ h (at' j + 0x158) 4 % 16 = 0) →
      t.mem = u.mem ∧ (t.team k).state = .resident ∧ (t.team k).core = c ∧ (t.team k).saved = [] ∧ (t.team k).since = s.clk ∧ (t.core c).gated = false ∧
      (∀ o, o < x.alloc → (t.team k).tmem.get o 0 = Memory.read t.mem (x.image.toNat + 4096 + o)) ∧
      ∀ j w, j / 64 = k → s.waves.find? j = some w → ∃ w', t.waves.find? j = some w' ∧
        w'.absent = (if x.core = c then w.absent else backedLines x.vcount x.scount) ∧ w'.s = w.s ∧ w'.slots = [] ∧
        w'.vb = h (at' j + 0x148) 2 ∧ w'.sb = h (at' j + 0x14A) 2 ∧ w'.ssp = h (at' j + 0x14C) 4 ∧
        w'.trapvec = BitVec.ofNat 64 (h (at' j + 0x150) 8) ∧
        ∀ l, l < 32 → (w.lanes.find? l).isSome →
          let y := w'.lane l
          let code := h (at' j + 0x100 + l) 1
          let raw := h (at' j + 8 * l) 8
          y.v = (w.lane l).v ∧ y.pc = BitVec.ofNat 64 (raw / 2 * 2) ∧ y.handler = (raw % 2 == 1) ∧
          (code = 0 → y.life = .ready) ∧ (code = 3 → y.life = .exited) ∧
          y.tcause = BitVec.ofNat 32 (h (at' j + 0x400 + 32 * l) 1) ∧ y.tpc = BitVec.ofNat 64 (h (at' j + 0x408 + 32 * l) 8) ∧
          y.taddr = BitVec.ofNat 64 (h (at' j + 0x410 + 32 * l) 8)) ∧
  (∀ k t0 s, (s.team k).preempt = some t0 → ((s.team k).swapping = true → s.swapMet k = true) → s.deferred k = true → t0 + (s.ctx (s.team k).ctx).critmax.toNat * 1024 ≤ s.clk →
    ∃ t, exec (.critLimitExpire k) s = .next t ∧ (∀ j ∈ (t.core (s.team k).core).crit, j / 64 ≠ k) ∧
      ((s.team k).state = .resident → (s.teams.find? k).isSome → s.hasCommands k = false → s.inCtxsw k = false →
        (t.team k).state = if (s.team k).swapping = true then .swapped else .queued)) ∧
  (∀ c s, s.watchdogOut c = true →
    ∃ t, exec (.watchdogExpire c) s = .next t ∧ (t.ctx c).wdSince = none ∧
      ∀ k x, t.teams.find? k = some x → x.ctx = c → x.state ≠ .resident ∨ x.preempt.isSome = true) ∧
  (∀ core (g : Nat) s,
    let d := s.die (core / 48)
    let hot := (d.therm.extractLsb' 8 8).toNat
    let x : Core := { s.core core with celsius := g }
    ∀ e : Instr, e = .thermalHot core g ∨ e = .thermalCool core g →
      ∃ t, exec e s = .next t ∧ { t with cores := s.cores } = s ∧ ∀ k, t.core k =
        if k ≠ core then s.core k
        else if hot < g then { x with hot := true, hotSince := if x.hot then x.hotSince else s.clk }
        else if g + (d.therm.extractLsb' 0 8).toNat < hot then { x with hot := false } else x) ∧
  (∀ core k x s, (s.core core).hot = true → (s.core core).hotSince + 100 * s.mod.mhz ≤ s.clk → s.teams.find? k = some x →
    x.core = core → x.state = .resident → (∀ p ∈ s.teams, p.2.core = core → p.2.state = .resident → p.1 ≠ k → x.since < p.2.since) →
    ∃ t, exec (.thermalMigrationTick core) s = .next t ∧
      (x.since + 500 * s.mod.mhz ≤ s.clk → (t.team k).moved = some core ∧ ((t.team k).preempt.isSome = true ∨ (t.team k).state = .queued)) ∧
      (s.clk < x.since + 500 * s.mod.mhz → { t with cores := s.cores } = s ∧
        ∀ c, t.core c = if c = core then { s.core c with hotSince := s.clk } else s.core c)) ∧
  (∀ core s, (∀ p ∈ s.teams, p.2.core = core → p.2.state ≠ .resident) →
    ∃ t, exec (.corePowerGate core) s = .next t ∧ { t with cores := s.cores } = s ∧
      ∀ c, t.core c = if c = core then { s.core c with gated := true } else s.core c) ∧
  (∀ core p s, p ∈ s.teams → p.2.core = core → p.2.state = .resident → exec (.corePowerGate core) s = .next s) ∧
  ∀ core s, ∃ t, exec (.wakeMessage core) s = .next t ∧ { t with cores := s.cores } = s ∧
    ∀ c, t.core c = if c = core then { s.core c with gated := false } else s.core c

/-- A run longer than 16 instructions lets a switch come that clears every latch. A register line comes in from its image; where the cache
has no room a victim leaves first, written to its image where dirty, at the places that are the model's choice (log entry 14): a line
of a team that has left the core, else the least recently used, and none that a shadow line copies. Lanes whose wait has ended go on,
sleepers past their SLEEP. A late failure becomes a trap of a ready lane. A bin whose timer has run out, or that waits for a wave,
starts a wave of its requests where a pool wave is free. A conflict aborts the .lane members that watch the line with CONFLICT. A
pending retraction without residents closes its region. A translation shootdown drops the entries and performs what its cores hold
dirty of their pages, nothing else (log entry 70, the model's choice). FQRES frees its tag: retry lets parked SYSC lanes go on past it,
fail gives them SOFTWARE. A record that waited is written at the head of its ring. An unassigned word gives ILLEGAL_OPCODE with the
word. (R78, R68, R32, R448, R222, R61, R62, R278, R268, R465, R229, R460) -/
def Obligations.WaveAndFaultSteps : Prop :=
  (∀ k s, s.cur = Cur.none → 16 < (s.wave k).run →
    ∃ t, exec (.forcedSwitch k) s = .next t ∧ { t with waves := s.waves, cur := s.cur } = s ∧ (∀ j, j ≠ k → t.wave j = s.wave j) ∧
      { t.wave k with lanes := (s.wave k).lanes } = { s.wave k with slatch := [], run := 0 } ∧
      ∀ l, (t.wave k).lane l = { (s.wave k).lane l with latch := [] }) ∧
  (∀ k line v vl s, (s.wave k).absent.contains line = true → s.residentWave k = true →
    let c := s.coreOf k
    let room := fun (u : State) => u.cacheRoom c (lineBytes line)
    (room s = true ∨ (v, vl) ∈ s.victims c ∧ room (s.evictLine v vl) = true →
      ∃ t, exec (.registerLineFill k line v vl) s = .next t ∧ (t.wave k).absent.contains line = false ∧
        (∀ j l, (t.wave j).absent.contains l = true → (s.wave j).absent.contains l = true ∨ (room s = false ∧ j = v ∧ l = vl)) ∧
        (room s = true → t.mem = s.mem) ∧
        (room s = false → (t.wave v).absent.contains vl = true ∧ ((s.wave v).dirty.contains vl = false → t.mem = s.mem) ∧
          ((s.wave v).dirty.contains vl = true → vl < 64 → ∀ r l, r < 8 → l < 32 →
            fromBytes (Memory.readBytes t.mem ((s.wave v).rimg.toNat + vl * 1024 + (r * 32 + l) * 4) 4) = (((s.wave v).lane l).reg (vl * 8 + r)).toNat)) ∧
        let word := fun (o : Nat) => BitVec.ofNat 32 (fromBytes (Memory.readBytes t.mem ((s.wave k).rimg.toNat + o) 4))
        (∀ j l r, l < 32 → ((s.wave j).lanes.find? l).isSome → ((t.wave j).lane l).reg r =
          if j = k ∧ line < 64 ∧ r / 8 = line then word (line * 1024 + (r % 8 * 32 + l) * 4) else ((s.wave j).lane l).reg r) ∧
        ∀ j r, (t.wave j).sreg r =
          if j = k ∧ 64 ≤ line ∧ r / 32 + 64 = line then word (65536 + (line - 64) * 128 + r % 32 * 4) else (s.wave j).sreg r) ∧
    (room s = false → (v, vl) ∉ s.victims c → exec (.registerLineFill k line v vl) s = .next s)) ∧
  (∀ (s : State) c v vl, (s.waves.map (·.1)).Nodup → (v, vl) ∈ s.victims c →
    s.coreOf v = c ∧ (s.wave v).absent.contains vl = false ∧ (s.wave v).shadow.find? vl = none ∧
    ((s.team (v / 64)).state = .resident → ∀ p ∈ s.waves, s.coreOf p.1 = c → ∀ l ∈ backedLines (s.team (p.1 / 64)).vcount (s.team (p.1 / 64)).scount,
      p.2 = s.wave p.1 → p.2.absent.contains l = false → p.2.shadow.find? l = none →
        (s.team (p.1 / 64)).state = .resident ∧ (s.wave v).used.get vl 0 ≤ p.2.used.get l 0)) ∧
  (∀ k l w s, ((s.wave k).lane l).life = .blocked w → (∀ ts c h n r next, w ≠ .ctxsw ts c h n r next) → s.waitOver k w = true →
    (∀ j, ((s.wave k).lane j).conflict = false) →
    ∃ t, exec (.blockedLaneWake k l) s = .next t ∧ { t with waves := s.waves } = s ∧ (∀ j, j ≠ k → t.wave j = s.wave j) ∧
      { t.wave k with lanes := (s.wave k).lanes } = s.wave k ∧
      ∀ j, j < 32 → (t.wave k).lane j = if ((s.wave k).lane j).life = .blocked w ∧ ((s.wave k).lane j).pc = ((s.wave k).lane l).pc then
        { (s.wave k).lane j with life := .ready } else (s.wave k).lane j) ∧
  (∀ k l wake next s, ((s.wave k).lane l).life = .blocked (.sleep wake next) → wake ≤ s.clk →
    ∃ t, exec (.sleepExpire k l) s = .next t ∧ { t with waves := s.waves } = s ∧ (∀ j, j ≠ k → t.wave j = s.wave j) ∧
      { t.wave k with lanes := (s.wave k).lanes } = s.wave k ∧
      ∀ j, j < 32 → (t.wave k).lane j =
        if ((s.wave k).lane j).life = .blocked (.sleep wake next) ∧ ((s.wave k).lane j).pc = ((s.wave k).lane l).pc then
          { (s.wave k).lane j with life := .ready, pc := next } else (s.wave k).lane j) ∧
  (∀ k l x rest s, l < 32 → ((s.wave k).lane l).life = .ready → ((s.wave k).lane l).late = x :: rest → s.residentWave k = true →
    (s.wave k).trapvec ≠ 0 → ((s.wave k).lane l).depth = 0 → ((s.wave k).lane l).handler = false →
    ∃ t, exec (.asyncFaultDelivery k l) s = .next t ∧ t.mem = s.mem ∧ (∀ j, j ≠ k → t.wave j = s.wave j) ∧
      (let y := (t.wave k).lane l
       y.tcause = BitVec.ofNat 32 x.cause ∧ y.tinfo = x.info ∧ y.taddr = x.addr ∧ y.tpc = ((s.wave k).lane l).pc ∧ y.handler = true ∧
       y.life = .ready ∧ y.pc = (s.wave k).trapvec ∧ y.late = rest ∧ y.v = ((s.wave k).lane l).v) ∧
      ∀ j, j ≠ l → { (t.wave k).lane j with latch := ((s.wave k).lane j).latch } = (s.wave k).lane j) ∧
  (∀ c b x s i, (s.core c).bins.find? b = some x → x.args ≠ [] → (s.team x.team).state = .resident →
    s.spawnedWaves x.team < (s.team x.team).pool → i < 64 → s.waves.find? (x.team * 64 + i) = none →
    (∀ j, j < i → (s.waves.find? (x.team * 64 + j)).isSome) →
    ∀ e : Instr, ((e = .spawnTimerExpire c b ∧ x.fired = false ∧ x.due ≤ s.clk) ∨ (e = .spawnBatchStart c b ∧ x.fired = true)) →
      ∃ t w, exec e s = .next t ∧ t.mem = s.mem ∧ (∀ k, k ≠ x.team * 64 + i → t.waves.find? k = s.waves.find? k) ∧
        t.waves.find? (x.team * 64 + i) = some w ∧ w.spawned = true ∧ (t.core c).bins.find? b = none ∧
        ∀ l, l < 32 → if l < x.args.length then (w.lane l).life = .ready ∧ (w.lane l).pc = x.entry ∧ (w.lane l).reg 0 = x.args.getD l 0
          else (w.lane l).life = .exited) ∧
  (∀ c line k l s, s.coreOf k = c → (s.team (k / 64)).state = .resident → l < 32 → ((s.wave k).lane l).member = true →
    ((s.wave k).lane l).live = true → ((s.wave k).lane l).waveMode = false → ((s.wave k).lane l).watches 0 line = true →
    ∃ t, exec (.tryConflictAbort c 0 line) s = .next t ∧ t.mem = s.mem ∧ ((t.wave k).lane l).depth = 0 ∧
      ((t.wave k).lane l).status = 3 ∧ ((t.wave k).lane l).pc = ((s.wave k).lane l).target ∧ ((t.wave k).lane l).life = .ready) ∧
  (∀ c r s, (s.region c r).pending = true →
    (∀ p ∈ s.dies, ∀ y ∈ p.2.resid, ¬ (y.ctx = c ∧ y.region = r ∧ y.gen.toNat = (s.region c r).pgen)) →
    ∃ t, exec (.retractionComplete c r) s = .next t ∧
      (t.region c r).state = (if (s.region c r).state = 3 then 4 else (s.region c r).state) ∧ (t.region c r).pending = false ∧
      (t.region c r).gen = (s.region c r).gen ∧ (t.ctx c).retracts.find? r = none ∧
      ∀ k x, k < 192 → x ∈ (t.core k).icache → x ∈ (s.core k).icache ∧
        ¬ (x.ctx = c ∧ x.gen.toNat = (s.region c r).pgen ∧ overlaps x.line (s.region c r).base (s.region c r).len = true)) ∧
  (∀ c scope core page s, (∀ p ∈ s.waves, p.2.slots = [] ∧ p.2.stores = []) → (s.cores.map (·.1)).Nodup → (s.dies.map (·.1)).Nodup →
    let goes := fun (e : TlbEntry) => e.ctx = c ∧
      ∀ va : DWord, page = some va → canonical va = true ∧ e.va ≤ va.toNat % 2 ^ 57 ∧ va.toNat % 2 ^ 57 < e.va + e.size
    let inside := fun (k : Nat) => k ∈ coresOf scope core
    let near := fun (d : Nat) => if scope = 4 then d < 4 else d = core / 48
    let gone := fun (e : TlbEntry) => goes e ∧ ((∃ k, inside k ∧ e ∈ (s.core k).tlb) ∨ ∃ d, near d ∧ e ∈ (s.die d).tlb)
    let used := fun (line : Nat) => ∃ e, gone e ∧ (Place.mem (line * 128)).meets 128 (.mem (s.selfAddressed e.pa)) e.size = true
    let holds := fun (k a : Nat) => ∃ x, (s.core k).l1.find? (a / 128) = some x ∧ x.dirty.getLsbD (a % 128) = true
    ∃ t, exec (.tlbiComplete c scope core page) s = .next t ∧ { t.calm with cores := s.cores, dies := s.dies, mem := s.mem } = s.calm ∧
      (∀ k, { t.core k with tlb := (s.core k).tlb, l1 := (s.core k).l1 } = s.core k ∧
        (∀ e, e ∈ (t.core k).tlb ↔ e ∈ (s.core k).tlb ∧ ¬ (inside k ∧ goes e)) ∧
        ∀ a, (inside k ∧ used a → (t.core k).l1.find? a = ((s.core k).l1.find? a).map fun x => { x with dirty := 0 }) ∧
          (¬ (inside k ∧ used a) → (t.core k).l1.find? a = (s.core k).l1.find? a)) ∧
      (∀ a, ((¬ used (a / 128) ∨ ∀ k, inside k → ¬ holds k a) → Memory.read t.mem a = Memory.read s.mem a) ∧
        ∀ k, used (a / 128) → inside k → holds k a → (∀ j, inside j → j ≠ k → ¬ holds j a) → Memory.read t.mem a = s.settled k a) ∧
      ∀ d, { t.die d with tlb := (s.die d).tlb, walk := (s.die d).walk } = s.die d ∧
        (∀ e, e ∈ (t.die d).tlb ↔ e ∈ (s.die d).tlb ∧ ¬ (near d ∧ goes e)) ∧
        ∀ e, e ∈ (t.die d).walk ↔ e ∈ (s.die d).walk ∧ ¬ (near d ∧ e.ctx = c)) ∧
  (∀ c tag k slot x o m y s, (s.ctx c).tags.find? tag = some y → y.resolved = none → s.waiters c tag = [(k, slot, m)] → s.residentWave k = true →
    (s.wave k).slots.find? slot = some x → x.instr = .sysc o → (∀ l, m.getLsbD l = true → ((s.wave k).lanes.find? l).isSome) →
    (s.waves.map (·.1)).Nodup → ((s.wave k).slots.map (·.1)).Nodup → (∀ p ∈ s.waves, ∀ q ∈ p.2.slots, ∀ r ∈ q.2.lanes, r.1 < 32) →
    (∀ p ∈ s.cores, (∀ y ∈ p.2.mq, y.tag = none) ∧ ∀ q ∈ p.2.copy, ∀ y ∈ q.2.queue, y.tag = none) →
    (∀ p ∈ s.dies, ∀ y ∈ p.2.colls, y.page = none) →
    (∃ t, exec (.fqresRetry c tag) s = .next t ∧ (t.ctx c).tags.find? tag = none ∧
      ∀ l, m.getLsbD l = true → ((t.wave k).lane l).life = .ready ∧ ((t.wave k).lane l).pc = x.pc + 4) ∧
    ((s.wave k).trapvec ≠ 0 → (∀ l, m.getLsbD l = true → ((s.wave k).lane l).depth = 0 ∧ ((s.wave k).lane l).handler = false) →
      ∃ t, exec (.fqresFail c tag) s = .next t ∧ (t.ctx c).tags.find? tag = none ∧
        ∀ l, m.getLsbD l = true → ((t.wave k).lane l).tcause = 0x14 ∧ ((t.wave k).lane l).tinfo = BitVec.ofNat 32 o.b.toNat ∧
          ((t.wave k).lane l).tpc = x.pc ∧ ((t.wave k).lane l).handler = true ∧ ((t.wave k).lane l).pc = (s.wave k).trapvec)) ∧
  (∀ c r rs s, (s.ctx c).waiting = r :: rs → (s.ctx c).fqhead - (s.ctx c).fqtail < (s.ctx c).fqsize → (s.ctx c).fqbar.getLsbD 31 = false →
    ∃ t, exec (.faultRecordWrite c) s = .next t ∧ { t.calm with mem := s.mem, ctxs := s.ctxs } = s.calm ∧
      (∀ k, t.ctx k = if k = c then { s.ctx k with waiting := rs, fqhead := (s.ctx k).fqhead + 1 } else s.ctx k) ∧
      Memory.readBytes t.mem ((s.ctx c).fqbase.toNat % 2 ^ 52 + 32 * ((s.ctx c).fqhead.toNat % (s.ctx c).fqsize.toNat)) 32 = r.bytes) ∧
  ∀ s, s.Group → s.CanTrap →
    (∃ t, exec (.unassignedOpcode false) s = .next t ∧ s.Outside t ∧ s.Took t s.mask 1 (fun _ => s.cur.w0) (fun _ => s.cur.pc)) ∧
    ∃ t, exec (.unassignedOpcode true) s = .next t ∧ s.Outside t ∧ s.Took t s.mask 1 (fun _ => s.cur.w1) (fun _ => s.cur.pc + 4)

/-- State.reset meets the invariant of memory, power cap and module number; it holds no wave, team or grid; the module is in reset with
PWRCAP 2500, FABSTAT and MODNUM zero; context 0 alone is LIVE, and every context has FEATMASK 0xFF, FQSIZE 16, WDTIME 0x40000 and
SPWNDLY 256; every die has DSPSZ 0 and THERM 0x5F05; every queue is disabled with a ring of 16 records. (R28, R82, R227, R256, R307, R332) -/
def Obligations.ResetMeetsInvariant : Prop :=
  State.reset.inv = true ∧ State.reset.waves = [] ∧ State.reset.teams = [] ∧ State.reset.grids = [] ∧
  State.reset.mod.boot = .inReset ∧ State.reset.mod.pwrcap = 2500 ∧ State.reset.mod.fabstat = 0 ∧ State.reset.mod.modnum = 0 ∧
  (∀ c, ((State.reset.ctx c).live = true ↔ c = 0) ∧ (State.reset.ctx c).featmask = 0xFF ∧ (State.reset.ctx c).fqsize = 16 ∧
    (State.reset.ctx c).wdtime = 0x40000 ∧ (State.reset.ctx c).spwndly = 256 ∧ (State.reset.die c).dspcfg = 0 ∧
    (State.reset.die c).therm = 0x5F05 ∧ (State.reset.queue c).cfg = 4)

/-- From every state, reached or not, in which memory is in its canonical form, PWRCAP lies in 600 to 2500 and MODNUM below 1024, a step
that answers a next state leaves all three so, whatever instruction, trap or step of the part it takes. That memory has one canonical
form is the model's own representation. (R345, R332, R171) -/
def Obligations.EveryStepKeepsTheInvariant : Prop :=
  ∀ s t, s.inv = true → step s = .next t → t.inv = true

/-- Where the module runs, a wave that its slot chooses is given the issue slot, with no conflict or late failure waiting, its group m
alone picked, and the fetch answers words that decode to i: the step is exec of i at the state of the fetch, with the group, its PC and
its words named and the waiting accesses that i orders performed; after it the requests of i are counted, the half of the datapath that
i needs for more than a clk is held, and a clk passes. Where the environment has the issue last, the lanes that have gone past an
instruction with a wait for its completion are Blocked from then on. For static code that is aligned, translated, unpoisoned and not
yet cached, the first word fetched is the four bytes of memory at the translated PC, little-endian. The order in which waves issue is
the environment's (log entry 6), and so is how long such a wait lasts (log entry 10). (R32, R37, R41, R117, R137, R42, R4) -/
def Obligations.StepRunsTheDecodedInstruction : Prop :=
  (∀ (s : State) (long : Bool) k xs m v f i,
    let s0 : State := { s with cur := { Cur.none with linger := long }, inputs := xs }
    let half := (s0.freeHalves k).headD 0
    let s1 := s0.openClk k false (some m) none
    let u := s1.select { wave := k, mask := m }
    let w : State := ({ v with cur := { v.cur with w0 := f.w0, w1 := f.w1, len := f.len } } : State).orderAccesses i
    s.cur.second = none → s.inputs = (if long then .issueLong k else .issue k) :: xs → s.mod.boot.failed = false →
    k ∈ ({ s0 with cur := Cur.none } : State).issues → s0.abortConflicts k = s0 →
    s0.firstPick k = some m → ((s0.freeHalves k).length = 2 → s0.secondPick k m = none) → (s1.wave k).lateLanes m = 0 →
    u.fetch k m = (v, .ok f) → decode f.w0 f.w1 = .ok i →
    step s = Answer.map (fun t =>
      let t := (t.noteRequests w i).holdHalf (s1.coreOf k) (halfOf (s1.wave k).islot half) i
      (if long then t.lingerOn w i else t).tick) (exec i w)) ∧
  (∀ (s before : State) i l,
    let x := (s.wave before.cur.wave).lane l
    ((s.lingerOn before i).wave before.cur.wave).lane l =
      if waitsFor i = true ∧ before.mask.getLsbD l = true ∧ x.life = .ready ∧ x.pc = before.nextPc ∧
        x.handler = ((before.wave before.cur.wave).lane l).handler then { x with life := .blocked .completion } else x) ∧
  ∀ (s : State) k m pa,
    let pc := s.groupPc k m
    (s.wave k).fresh = false → (∀ j, ((s.wave k).lane j).resid = none ∧ ((s.wave k).lane j).hresid = none) →
    s.regionAt (s.ctxOf k) pc = none → pc.toNat % 4 = 0 →
    s.translate (s.coreOf k) (s.ctxOf k) pc 3 = (s, .ok pa) → pa % 128 = pc.toNat % 128 → s.poisonAt (pa / 128 * 128) 128 = none →
    s.poisonAt pa 4 = none → (∀ x, (s.core (s.coreOf k)).l1.find? (pa / 128) = some x → x.dirty = 0) →
    (∀ x ∈ (s.core (s.coreOf k)).icache, ¬ (x.ctx = s.ctxOf k ∧ x.line = pc.toNat / 128 ∧ x.gen = 0)) →
    (s.fetchFirst k m).2 = .ok (BitVec.ofNat 32 (fromBytes (Memory.readBytes s.mem pa 4)))

/-- For every well-formed instruction of the opcode map, with every operand code, literal and control word its encoding admits, decodeWords
of encode gives the instruction: no bit of an encoding is dropped. The steps of the part have no encoding. (R108, R109, R111, R120) -/
def Obligations.DecodeUndoesEncode : Prop :=
  ∀ i : Instr, i.wf = true → encode i ≠ [] → decodeWords (encode i) = .ok i

/-- If two words decode to an instruction, then it is well-formed and encode writes the first word, and the second exactly where the
instruction takes one: no two encodings mean one instruction, and no reserved bit is ignored. (R109, R111, R120, R137) -/
def Obligations.EncodeUndoesDecode : Prop :=
  ∀ (w0 w1 : Word) (i : Instr), decode w0 w1 = .ok i →
    i.wf = true ∧ encode i = if Decode.needsSecond w0 then [w0, w1] else [w0]

/-- One word or pair of words of each class, with its fields written out from the spec's tables, decodes to the instruction and operands it
stands for; an opcode with the S value it lacks, an unassigned index (0x1B, 0x1F, 0x2E and 0x3F of class 3 among them), NW where R76
forbids it and a reserved control-word value are refused, in the word at fault. (R109, R111, R120, R121, R122, R123, R124) -/
def Obligations.WordsDecodeAsTheSpecGivesThem : Prop :=
  let ops := fun (s nw : Bool) (d a b : Nat) => ({ s := s, nw := nw, d := BitVec.ofNat 7 d, a := BitVec.ofNat 7 a, b := BitVec.ofNat 7 b, lit := 0 } : Ops)
  let word := fun (s op nw d a b : Nat) => BitVec.ofNat 32 (s * 2 ^ 31 + op * 2 ^ 22 + nw * 2 ^ 21 + d * 2 ^ 14 + a * 2 ^ 7 + b)
  decode (word 0 0x010 0 6 2 3) 0 = .ok (.adds 0 (ops false false 6 2 3)) ∧
  decode (word 1 0x040 0 5 1 2) 0 = .ok (.andB false (ops true false 5 1 2)) ∧
  decode (word 0 0x08C 0 3 1 2) 0 = .ok (.fma 0 (ops false false 3 1 2)) ∧
  decode (word 0 0x0D4 0 7 2 3) 0 = .ok (.dot4 0 (ops false false 7 2 3)) ∧
  decode (word 0 0x112 0 4 1 98) 0 = .ok (.wrln (ops false false 4 1 98)) ∧
  decode (BitVec.ofNat 32 (0x103 * 2 ^ 22 + 32)) 0 = .ok (.call 32) ∧
  decode (word 0 0x105 0 0 94 0) 0 = .ok (.ret (ops false false 0 94 0)) ∧
  decode (word 0 0x108 0 0 0 0) 0 = .ok (.exit (ops false false 0 0 0)) ∧
  decode (word 0 0x144 0 1 100 2) 0 = .ok (.ld 4 (ops false false 1 100 2)) ∧
  decode (word 0 0x198 0 0 0 0) 0 = .ok (.crit (ops false false 0 0 0)) ∧
  decode (word 0 0x1C9 0 0 0 0) 0x60000000 =
    .ok (.commit (ops false false 0 0 0) { scope := 3, order := 0, sub := 0, type := 0, spec := 0 }) ∧
  decode (word 1 0x1D0 0 6 4 0) 0 = .ok (.launch (ops true false 6 4 0)) ∧
  decode (word 1 0x108 0 0 0 0) 0 = .error .firstWord ∧
  decode (word 0 0x13F 0 0 0 0) 0 = .error .firstWord ∧
  (∀ w ∈ ([word 0 0x0DB 0 5 1 2, word 0 0x0DF 0 5 1 2, word 0 0x0EE 0 5 1 2, word 1 0x0FF 0 5 1 2, word 1 0x0E0 0 5 1 2] : List Word),
    decode w 0 = .error .firstWord) ∧
  decode (word 0 0x108 1 0 0 0) 0 = .error .firstWord ∧
  decode (word 0 0x1C9 0 0 0 0) 0xC0000000 = .error .secondWord
end

