-- ==== Sys2Proof/Laws/Tbl.lean ====
section
/-! SUPPORT. What the tables of the state answer after each of their changes, and that changes keep the canonical form. -/
namespace Sys2Proof.Machine

variable {α : Type}

/-! ## Look-up after a change -/

/-- An entry that is found is one of the table's. -/
theorem Tbl.mem_of_find {t : Tbl α} {k : Nat} {v : α} (h : Tbl.find? k t = some v) : (k, v) ∈ t := by
  induction t with
  | nil => simp [Tbl.find?] at h
  | cons p t ih =>
    simp only [Tbl.find?] at h
    split at h
    · rename_i e; simp_all [Prod.ext_iff]
    · exact List.mem_cons_of_mem _ (ih h)

@[simp] theorem Tbl.find_nil (k : Nat) : Tbl.find? k ([] : Tbl α) = none := rfl

theorem Tbl.find_cons (k : Nat) (p : Nat × α) (t : Tbl α) :
    Tbl.find? k (p :: t) = if p.1 = k then some p.2 else Tbl.find? k t := rfl

theorem Tbl.find_put (t : Tbl α) (k j : Nat) (v : α) :
    Tbl.find? j (Tbl.put k v t) = if k = j then some v else Tbl.find? j t := by
  induction t with
  | nil => simp [Tbl.put, Tbl.find_cons]
  | cons p t ih =>
    obtain ⟨k', v'⟩ := p
    simp only [Tbl.put]
    split
    · simp [Tbl.find_cons]
    · split
      · subst_vars; simp only [Tbl.find_cons]; split <;> simp_all
      · simp only [Tbl.find_cons, ih]; split <;> split <;> simp_all

theorem Tbl.find_del (t : Tbl α) (k j : Nat) :
    Tbl.find? j (Tbl.del k t) = if k = j then none else Tbl.find? j t := by
  induction t with
  | nil => simp [Tbl.del]
  | cons p t ih =>
    obtain ⟨k', v'⟩ := p
    have ih' : Tbl.find? j (t.filter fun p => p.1 != k) = if k = j then none else Tbl.find? j t := ih
    simp only [Tbl.del, List.filter_cons]
    by_cases h : k' = k
    · subst h; simp only [bne_self_eq_false, Bool.false_eq_true, ↓reduceIte, ih', Tbl.find_cons]
      split <;> simp_all
    · simp only [bne_iff_ne, ne_eq, h, not_false_eq_true, ↓reduceIte, Tbl.find_cons, ih']
      split <;> split <;> simp_all

theorem Tbl.find_mod (t : Tbl α) (k j : Nat) (f : α → α) :
    Tbl.find? j (Tbl.mod t k f) = if k = j then (Tbl.find? j t).map f else Tbl.find? j t := by
  induction t with
  | nil => simp [Tbl.mod]
  | cons p t ih =>
    obtain ⟨k', v'⟩ := p
    have ih' : Tbl.find? j (t.map fun p => if p.1 = k then (p.1, f p.2) else p) =
        if k = j then (Tbl.find? j t).map f else Tbl.find? j t := ih
    simp only [Tbl.mod, List.map_cons]
    by_cases h : k' = k
    · subst h; simp only [↓reduceIte, Tbl.find_cons, ih']; split <;> simp_all
    · simp only [h, ↓reduceIte, Tbl.find_cons, ih']; split <;> split <;> simp_all

theorem Tbl.find_mapAll (t : Tbl α) (j : Nat) (f : Nat → α → α) :
    Tbl.find? j (Tbl.mapAll t f) = (Tbl.find? j t).map (f j) := by
  induction t with
  | nil => simp [Tbl.mapAll]
  | cons p t ih =>
    have ih' : Tbl.find? j (t.map fun p => (p.1, f p.1 p.2)) = (Tbl.find? j t).map (f j) := ih
    simp only [Tbl.mapAll, List.map_cons, Tbl.find_cons, ih']
    split <;> simp_all

theorem Tbl.find_sift (t : Tbl α) (j : Nat) (f : Nat → α → Option α) :
    Tbl.find? j (Tbl.sift f t) = (Tbl.find? j t).bind (f j) := by
  induction t with
  | nil => simp [Tbl.sift]
  | cons p t ih =>
    obtain ⟨k, v⟩ := p
    simp only [Tbl.sift]
    split <;> simp only [Tbl.find_cons, Tbl.find_del, ih] <;> split <;> simp_all

theorem Tbl.find_set [DecidableEq α] (d : α) (t : Tbl α) (k j : Nat) (v : α) :
    Tbl.find? j (Tbl.set d t k v) = if k = j then (if v = d then none else some v) else Tbl.find? j t := by
  simp only [Tbl.set]
  split
  · rw [Tbl.find_del]
  · rw [Tbl.find_put]

theorem Tbl.get_set [DecidableEq α] (d : α) (t : Tbl α) (k j : Nat) (v : α) :
    Tbl.get (Tbl.set d t k v) j d = if k = j then v else Tbl.get t j d := by
  simp only [Tbl.get, Tbl.find_set]
  split
  · split <;> simp_all
  · rfl

theorem Tbl.get_put (t : Tbl α) (k j : Nat) (v d : α) : Tbl.get (Tbl.put k v t) j d = if k = j then v else Tbl.get t j d := by
  simp only [Tbl.get, Tbl.find_put]; split <;> rfl

theorem Tbl.get_mod (t : Tbl α) (k j : Nat) (f : α → α) (d : α) :
    Tbl.get (Tbl.mod t k f) j d = if k = j ∧ (Tbl.find? j t).isSome then f (Tbl.get t j d) else Tbl.get t j d := by
  simp only [Tbl.get, Tbl.find_mod]
  cases Tbl.find? j t <;> by_cases h : k = j <;> simp [h]

theorem Tbl.get_mapAll (t : Tbl α) (j : Nat) (f : Nat → α → α) (d : α) :
    Tbl.get (Tbl.mapAll t f) j d = if (Tbl.find? j t).isSome then f j (Tbl.get t j d) else Tbl.get t j d := by
  simp only [Tbl.get, Tbl.find_mapAll]
  cases Tbl.find? j t <;> simp

/-! ## The canonical form -/

theorem Tbl.rising_mono {lo lo' : Nat} {t : Tbl α} (h : Tbl.risingFrom lo t = true) (hl : lo' ≤ lo) :
    Tbl.risingFrom lo' t = true := by
  cases t with
  | nil => rfl
  | cons p t => simp only [Tbl.risingFrom, Bool.and_eq_true, decide_eq_true_eq] at h ⊢; exact ⟨by omega, h.2⟩

theorem Tbl.rising_put {lo k : Nat} {v : α} {t : Tbl α} (h : Tbl.risingFrom lo t = true) (hk : lo ≤ k) :
    Tbl.risingFrom lo (Tbl.put k v t) = true := by
  induction t generalizing lo with
  | nil => simp [Tbl.put, Tbl.risingFrom, hk]
  | cons p t ih =>
    obtain ⟨k', v'⟩ := p
    simp only [Tbl.risingFrom, Bool.and_eq_true, decide_eq_true_eq] at h
    simp only [Tbl.put]
    split
    · simp only [Tbl.risingFrom, Bool.and_eq_true, decide_eq_true_eq]; exact ⟨hk, by omega, h.2⟩
    · split
      · subst_vars; simp only [Tbl.risingFrom, Bool.and_eq_true, decide_eq_true_eq]; exact ⟨hk, h.2⟩
      · simp only [Tbl.risingFrom, Bool.and_eq_true, decide_eq_true_eq]; exact ⟨h.1, ih h.2 (by omega)⟩

theorem Tbl.rising_filter {lo : Nat} {t : Tbl α} (p : Nat × α → Bool) (h : Tbl.risingFrom lo t = true) :
    Tbl.risingFrom lo (t.filter p) = true := by
  induction t generalizing lo with
  | nil => rfl
  | cons x t ih =>
    simp only [Tbl.risingFrom, Bool.and_eq_true, decide_eq_true_eq] at h
    simp only [List.filter_cons]
    split
    · simp only [Tbl.risingFrom, Bool.and_eq_true, decide_eq_true_eq]; exact ⟨h.1, ih h.2⟩
    · exact ih (Tbl.rising_mono h.2 (by omega))

theorem Tbl.all_put {k : Nat} {v : α} {t : Tbl α} {p : Nat × α → Bool} (h : t.all p = true) (hv : p (k, v) = true) :
    (Tbl.put k v t).all p = true := by
  induction t with
  | nil => simp [Tbl.put, hv]
  | cons x t ih =>
    obtain ⟨k', v'⟩ := x
    simp only [List.all_cons, Bool.and_eq_true] at h
    simp only [Tbl.put]
    split
    · simp [hv, h.1, h.2]
    · split
      · simp [hv, h.2]
      · simp [h.1, ih h.2]

/-- A write keeps the canonical form. -/
theorem Tbl.canon_set [DecidableEq α] {d : α} {t : Tbl α} (k : Nat) (v : α) (h : Tbl.canon d t = true) :
    Tbl.canon d (Tbl.set d t k v) = true := by
  simp only [Tbl.canon, Bool.and_eq_true] at h ⊢
  simp only [Tbl.set]
  split
  · refine ⟨Tbl.rising_filter _ h.1, ?_⟩
    rw [List.all_eq_true] at h ⊢
    intro x hx
    exact h.2 x (List.mem_filter.1 hx).1
  · rename_i hv
    exact ⟨Tbl.rising_put h.1 (Nat.zero_le _), Tbl.all_put h.2 (by simp [hv])⟩

end Sys2Proof.Machine
end

