-- ==== Sys2Proof/Laws/Check.lean ====
section
/-! SUPPORT. Checks that compute: that a concrete state meets the premises of a statement about the executing group. -/
namespace Sys2Proof.Machine

/-- What holds of every lane of a mask's list holds of every lane of the mask. -/
theorem forall_mask {m : BitVec 32} {p : Nat → Prop} (h : ∀ l ∈ lanesOf m, p l) : ∀ l, m.getLsbD l = true → p l :=
  fun l hl => h l (by
    have : l < 32 := BitVec.lt_of_getLsbD hl
    simp [lanesOf, hl, this])

/-- The executing group is one of Ready lanes, as a computation. -/
def State.groupCheck (s : State) : Bool :=
  !s.tm.away && (s.waves.find? s.cur.wave).isSome && (lanesOf s.mask).all (fun l => (s.w.lanes.find? l).isSome && decide ((s.w.lane l).life = .ready)) &&
    decide (s.mask ≠ 0) && s.cur.frozen.isEmpty && decide (s.cur.frozenLanes = 0) && s.cur.frozenLines.isEmpty

theorem State.Group.of_check {s : State} (h : s.groupCheck = true) : s.Group := by
  simp only [groupCheck, Bool.and_eq_true, List.all_eq_true, decide_eq_true_eq, List.isEmpty_iff, Bool.not_eq_true'] at h
  obtain ⟨⟨⟨⟨⟨⟨z, a⟩, b⟩, c⟩, d⟩, e⟩, f⟩ := h
  exact ⟨z, a, forall_mask fun l hl => (b l hl).1, forall_mask fun l hl => (b l hl).2, c, d, e, f⟩

/-- Shadow lines fit, as a computation. -/
def State.fitsCheck (s : State) (lines : List Nat) : Bool :=
  decide (s.shadowBytes s.coreNo + (lines.map fun l => 2 * lineBytes l).sum ≤ cacheBytes) &&
    decide (s.w.shadow.length + lines.length ≤ maxShadows)

/-- The checks of R137 pass, as a computation. -/
def State.clearCheck (s : State) (i : Instr) (sp : Spans) : Bool :=
  s.groupCheck && (!isPrivileged i || decide (s.ctxNo = 0)) && (s.illegalUse i (usesOf i sp)).isNone &&
    ((s.staleUse i (usesOf i sp)).isNone || !wstatLtrap s.pre.wstat) && (!isForbidden i || decide (s.members = 0)) &&
    (featureOf i).all (fun b => (s.ctx s.ctxNo).featmask.getLsbD b) &&
    (linesUsed s.pre (scalarOf i) (nwOf i) (usesOf i sp)).all (fun x => !s.w.absent.contains x) &&
    (decide (s.members = 0) || (decide (s.newShadows i (usesOf i sp) (scalarOf i) (nwOf i) = []) ||
      s.fitsCheck (s.newShadows i (usesOf i sp) (scalarOf i) (nwOf i))))

theorem State.Clear.of_check {s : State} {i : Instr} {sp : Spans} (h : s.clearCheck i sp = true) : s.Clear i sp := by
  simp only [clearCheck, fitsCheck, Bool.and_eq_true, Bool.or_eq_true, Bool.not_eq_true', decide_eq_true_eq, Option.isNone_iff_eq_none,
    List.all_eq_true] at h
  obtain ⟨⟨⟨⟨⟨⟨⟨g, pr⟩, il⟩, st⟩, re⟩, fe⟩, pe⟩, sh⟩ := h
  refine { toGroup := .of_check g, privileged := ?_, legal := il, latches := st, region := ?_, feature := ?_, present := pe, shadow := sh }
  · exact fun h => pr.resolve_left (by simp [h])
  · exact fun h => re.resolve_left (by simp [h])
  · intro b hb
    simpa [hb] using fe

/-- No access of the executing wave is early or late, as a computation. -/
def State.orderlyCheck (s : State) : Bool := s.w.stores.isEmpty && s.w.lanes.all fun p => p.2.early.isEmpty

theorem State.Orderly.of_check {s : State} (h : s.orderlyCheck = true) : s.Orderly := by
  simp only [orderlyCheck, Bool.and_eq_true, List.isEmpty_iff, List.all_eq_true] at h
  refine ⟨h.1, fun l => ?_⟩
  simp only [Wave.lane, Tbl.get]
  cases e : s.w.lanes.find? l with
  | none => rfl
  | some x => exact h.2 _ (Tbl.mem_of_find e)

/-- Nor is one of this pick, as a computation. -/
def State.directCheck (s : State) : Bool := s.orderlyCheck && !s.cur.lazy

theorem State.Direct.of_check {s : State} (h : s.directCheck = true) : s.Direct := by
  simp only [directCheck, Bool.and_eq_true, Bool.not_eq_true'] at h
  exact { toOrderly := .of_check h.1, now := h.2 }

/-- The places that the acts' addresses have, as a computation. -/
def State.placedCheck (s : State) (o : Ops) (space : Nat) (k : Kind) (n : Nat) (addr : Nat → DWord) (p : Nat → Place) : Bool :=
  (s.acts o).all fun l =>
    match s.place space k n (addr l) 0 with
    | (t, .ok q) => decide (t = s) && decide (q = p l)
    | _ => false

theorem State.Placed.of_check {s : State} {o : Ops} {space : Nat} {k : Kind} {n : Nat} {addr : Nat → DWord} {p : Nat → Place}
    (h : s.placedCheck o space k n addr p = true) : s.Placed o space k n addr p := by
  intro l hl
  have h := (List.all_eq_true.mp h) l hl
  split at h
  · next e => simp only [Bool.and_eq_true, decide_eq_true_eq] at h; rw [e, h.1, h.2]
  · cases h

/-- A result that is an ok value, as a computation. -/
def isOk {ε α : Type} [DecidableEq α] (r : Except ε α) (a : α) : Bool :=
  match r with
  | .ok b => decide (b = a)
  | .error _ => false

theorem eq_ok {ε α : Type} [DecidableEq α] {r : Except ε α} {a : α} (h : isOk r a = true) : r = .ok a := by
  cases r <;> simp_all [isOk]

/-- The objects that the acts of a barrier instruction name, as a computation. -/
theorem State.Names.of_check {s : State} {o : Ops} {c : Ctl} {k : Kind} {low : Bool} {obj : Nat → ObjRef}
    (h : ((s.acts o).all fun l => isOk (s.object (objSpace c) k low (offsetA (reader s.pre o l))) (obj l)) = true) :
    s.Names o c k low obj :=
  fun l hl => eq_ok ((List.all_eq_true.mp h) l hl)

/-- A translation or read that leaves the state alone and gives a value, as a computation. -/
def givesOk {ε α : Type} [DecidableEq α] (s : State) (r : State × Except ε α) (a : α) : Bool :=
  decide (r.1 = s) && isOk r.2 a

theorem eq_gives {ε α : Type} [DecidableEq α] {s : State} {r : State × Except ε α} {a : α} (h : givesOk s r a = true) : r = (s, .ok a) := by
  obtain ⟨x, y⟩ := r
  simp only [givesOk, Bool.and_eq_true, decide_eq_true_eq] at h
  rw [h.1, eq_ok h.2]

/-- A translation that leaves the state alone and fails, as a computation. -/
def givesError {ε α : Type} (s : State) (r : State × Except ε α) : Bool :=
  decide (r.1 = s) && (match r.2 with
    | .ok _ => false
    | .error _ => true)

theorem eq_error {ε α : Type} {s : State} {r : State × Except ε α} (h : givesError s r = true) : ∃ e, r = (s, .error e) := by
  obtain ⟨x, y⟩ := r
  simp only [givesError, Bool.and_eq_true, decide_eq_true_eq] at h
  cases y
  · exact ⟨_, by rw [h.1]⟩
  · simp at h

/-- A stop that leaves the state alone, as a computation. -/
def givesStop (s : State) (r : State × Except Stop Place) (x : Stop) : Bool :=
  decide (r.1 = s) && (match r.2 with
    | .ok _ => false
    | .error y => decide (y = x))

theorem eq_stop {s : State} {r : State × Except Stop Place} {x : Stop} (h : givesStop s r x = true) : r = (s, .error x) := by
  obtain ⟨t, e | p⟩ := r <;> simp_all [givesStop]

/-- The group can trap, as a computation. -/
def State.canTrapCheck (s : State) : Bool :=
  decide (s.w.trapvec ≠ 0) && (lanesOf s.mask).all fun l => decide ((s.w.lane l).depth = 0) && !(s.w.lane l).handler

theorem State.CanTrap.of_check {s : State} (h : s.canTrapCheck = true) : s.CanTrap := by
  simp only [canTrapCheck, Bool.and_eq_true, decide_eq_true_eq, List.all_eq_true, Bool.not_eq_true'] at h
  exact ⟨h.1, forall_mask fun l hl => h.2 l hl⟩

/-- No lane waits at BARW on an object, as a computation. -/
def State.unwaitedCheck (s : State) (x : ObjRef) : Bool :=
  s.waves.all fun p => p.2.lanes.all fun q =>
    match q.2.life with
    | .blocked (.barw y _ _ _ _) => !decide (y = x)
    | _ => true

theorem State.Unwaited.of_check {s : State} {x : ObjRef} (h : s.unwaitedCheck x = true) : s.Unwaited x := by
  intro p hp q hq n a nx si e
  have h := (List.all_eq_true.mp ((List.all_eq_true.mp h) p hp)) q hq
  simp [e] at h

end Sys2Proof.Machine
end

