-- ==== Sys2Proof/Laws/State.lean ====
section
/-! SUPPORT. One lemma per field per update of the state, and what the accessors answer after each update. -/
namespace Sys2Proof.Machine

/-! ## Fields that an update leaves alone -/

@[simp] theorem State.modWave_mem (s : State) (k : Nat) (f : Wave → Wave) : (s.modWave k f).mem = s.mem := rfl
@[simp] theorem State.modWave_poison (s : State) (k : Nat) (f : Wave → Wave) : (s.modWave k f).poison = s.poison := rfl
@[simp] theorem State.modWave_teams (s : State) (k : Nat) (f : Wave → Wave) : (s.modWave k f).teams = s.teams := rfl
@[simp] theorem State.modWave_grids (s : State) (k : Nat) (f : Wave → Wave) : (s.modWave k f).grids = s.grids := rfl
@[simp] theorem State.modWave_cores (s : State) (k : Nat) (f : Wave → Wave) : (s.modWave k f).cores = s.cores := rfl
@[simp] theorem State.modWave_dies (s : State) (k : Nat) (f : Wave → Wave) : (s.modWave k f).dies = s.dies := rfl
@[simp] theorem State.modWave_ctxs (s : State) (k : Nat) (f : Wave → Wave) : (s.modWave k f).ctxs = s.ctxs := rfl
@[simp] theorem State.modWave_queues (s : State) (k : Nat) (f : Wave → Wave) : (s.modWave k f).queues = s.queues := rfl
@[simp] theorem State.modWave_mod (s : State) (k : Nat) (f : Wave → Wave) : (s.modWave k f).mod = s.mod := rfl
@[simp] theorem State.modWave_arms (s : State) (k : Nat) (f : Wave → Wave) : (s.modWave k f).arms = s.arms := rfl
@[simp] theorem State.modWave_cur (s : State) (k : Nat) (f : Wave → Wave) : (s.modWave k f).cur = s.cur := rfl
@[simp] theorem State.modWave_inputs (s : State) (k : Nat) (f : Wave → Wave) : (s.modWave k f).inputs = s.inputs := rfl
@[simp] theorem State.modWave_out (s : State) (k : Nat) (f : Wave → Wave) : (s.modWave k f).out = s.out := rfl
@[simp] theorem State.modWave_clk (s : State) (k : Nat) (f : Wave → Wave) : (s.modWave k f).clk = s.clk := rfl
@[simp] theorem State.modWave_free (s : State) (k : Nat) (f : Wave → Wave) : (s.modWave k f).free = s.free := rfl
@[simp] theorem State.modWave_nextTeam (s : State) (k : Nat) (f : Wave → Wave) : (s.modWave k f).nextTeam = s.nextTeam := rfl
@[simp] theorem State.modWave_nextGrid (s : State) (k : Nat) (f : Wave → Wave) : (s.modWave k f).nextGrid = s.nextGrid := rfl
@[simp] theorem State.modWave_robin (s : State) (k : Nat) (f : Wave → Wave) : (s.modWave k f).robin = s.robin := rfl
@[simp] theorem State.modWave_left (s : State) (k : Nat) (f : Wave → Wave) : (s.modWave k f).left = s.left := rfl
@[simp] theorem State.modWave_graphBars (s : State) (k : Nat) (f : Wave → Wave) : (s.modWave k f).graphBars = s.graphBars := rfl

@[simp] theorem State.modTeam_mem (s : State) (k : Nat) (f : Team → Team) : (s.modTeam k f).mem = s.mem := rfl
@[simp] theorem State.modTeam_poison (s : State) (k : Nat) (f : Team → Team) : (s.modTeam k f).poison = s.poison := rfl
@[simp] theorem State.modTeam_waves (s : State) (k : Nat) (f : Team → Team) : (s.modTeam k f).waves = s.waves := rfl
@[simp] theorem State.modTeam_grids (s : State) (k : Nat) (f : Team → Team) : (s.modTeam k f).grids = s.grids := rfl
@[simp] theorem State.modTeam_cores (s : State) (k : Nat) (f : Team → Team) : (s.modTeam k f).cores = s.cores := rfl
@[simp] theorem State.modTeam_dies (s : State) (k : Nat) (f : Team → Team) : (s.modTeam k f).dies = s.dies := rfl
@[simp] theorem State.modTeam_ctxs (s : State) (k : Nat) (f : Team → Team) : (s.modTeam k f).ctxs = s.ctxs := rfl
@[simp] theorem State.modTeam_queues (s : State) (k : Nat) (f : Team → Team) : (s.modTeam k f).queues = s.queues := rfl
@[simp] theorem State.modTeam_mod (s : State) (k : Nat) (f : Team → Team) : (s.modTeam k f).mod = s.mod := rfl
@[simp] theorem State.modTeam_arms (s : State) (k : Nat) (f : Team → Team) : (s.modTeam k f).arms = s.arms := rfl
@[simp] theorem State.modTeam_cur (s : State) (k : Nat) (f : Team → Team) : (s.modTeam k f).cur = s.cur := rfl
@[simp] theorem State.modTeam_inputs (s : State) (k : Nat) (f : Team → Team) : (s.modTeam k f).inputs = s.inputs := rfl
@[simp] theorem State.modTeam_out (s : State) (k : Nat) (f : Team → Team) : (s.modTeam k f).out = s.out := rfl
@[simp] theorem State.modTeam_clk (s : State) (k : Nat) (f : Team → Team) : (s.modTeam k f).clk = s.clk := rfl
@[simp] theorem State.modTeam_free (s : State) (k : Nat) (f : Team → Team) : (s.modTeam k f).free = s.free := rfl
@[simp] theorem State.modTeam_nextTeam (s : State) (k : Nat) (f : Team → Team) : (s.modTeam k f).nextTeam = s.nextTeam := rfl
@[simp] theorem State.modTeam_nextGrid (s : State) (k : Nat) (f : Team → Team) : (s.modTeam k f).nextGrid = s.nextGrid := rfl
@[simp] theorem State.modTeam_robin (s : State) (k : Nat) (f : Team → Team) : (s.modTeam k f).robin = s.robin := rfl
@[simp] theorem State.modTeam_left (s : State) (k : Nat) (f : Team → Team) : (s.modTeam k f).left = s.left := rfl
@[simp] theorem State.modTeam_graphBars (s : State) (k : Nat) (f : Team → Team) : (s.modTeam k f).graphBars = s.graphBars := rfl

@[simp] theorem State.modCore_mem (s : State) (k : Nat) (f : Core → Core) : (s.modCore k f).mem = s.mem := rfl
@[simp] theorem State.modCore_poison (s : State) (k : Nat) (f : Core → Core) : (s.modCore k f).poison = s.poison := rfl
@[simp] theorem State.modCore_waves (s : State) (k : Nat) (f : Core → Core) : (s.modCore k f).waves = s.waves := rfl
@[simp] theorem State.modCore_teams (s : State) (k : Nat) (f : Core → Core) : (s.modCore k f).teams = s.teams := rfl
@[simp] theorem State.modCore_grids (s : State) (k : Nat) (f : Core → Core) : (s.modCore k f).grids = s.grids := rfl
@[simp] theorem State.modCore_dies (s : State) (k : Nat) (f : Core → Core) : (s.modCore k f).dies = s.dies := rfl
@[simp] theorem State.modCore_ctxs (s : State) (k : Nat) (f : Core → Core) : (s.modCore k f).ctxs = s.ctxs := rfl
@[simp] theorem State.modCore_queues (s : State) (k : Nat) (f : Core → Core) : (s.modCore k f).queues = s.queues := rfl
@[simp] theorem State.modCore_mod (s : State) (k : Nat) (f : Core → Core) : (s.modCore k f).mod = s.mod := rfl
@[simp] theorem State.modCore_arms (s : State) (k : Nat) (f : Core → Core) : (s.modCore k f).arms = s.arms := rfl
@[simp] theorem State.modCore_cur (s : State) (k : Nat) (f : Core → Core) : (s.modCore k f).cur = s.cur := rfl
@[simp] theorem State.modCore_inputs (s : State) (k : Nat) (f : Core → Core) : (s.modCore k f).inputs = s.inputs := rfl
@[simp] theorem State.modCore_out (s : State) (k : Nat) (f : Core → Core) : (s.modCore k f).out = s.out := rfl
@[simp] theorem State.modCore_clk (s : State) (k : Nat) (f : Core → Core) : (s.modCore k f).clk = s.clk := rfl
@[simp] theorem State.modCore_free (s : State) (k : Nat) (f : Core → Core) : (s.modCore k f).free = s.free := rfl
@[simp] theorem State.modCore_nextTeam (s : State) (k : Nat) (f : Core → Core) : (s.modCore k f).nextTeam = s.nextTeam := rfl
@[simp] theorem State.modCore_nextGrid (s : State) (k : Nat) (f : Core → Core) : (s.modCore k f).nextGrid = s.nextGrid := rfl
@[simp] theorem State.modCore_robin (s : State) (k : Nat) (f : Core → Core) : (s.modCore k f).robin = s.robin := rfl
@[simp] theorem State.modCore_left (s : State) (k : Nat) (f : Core → Core) : (s.modCore k f).left = s.left := rfl
@[simp] theorem State.modCore_graphBars (s : State) (k : Nat) (f : Core → Core) : (s.modCore k f).graphBars = s.graphBars := rfl

@[simp] theorem State.modDie_mem (s : State) (k : Nat) (f : Die → Die) : (s.modDie k f).mem = s.mem := rfl
@[simp] theorem State.modDie_poison (s : State) (k : Nat) (f : Die → Die) : (s.modDie k f).poison = s.poison := rfl
@[simp] theorem State.modDie_waves (s : State) (k : Nat) (f : Die → Die) : (s.modDie k f).waves = s.waves := rfl
@[simp] theorem State.modDie_teams (s : State) (k : Nat) (f : Die → Die) : (s.modDie k f).teams = s.teams := rfl
@[simp] theorem State.modDie_grids (s : State) (k : Nat) (f : Die → Die) : (s.modDie k f).grids = s.grids := rfl
@[simp] theorem State.modDie_cores (s : State) (k : Nat) (f : Die → Die) : (s.modDie k f).cores = s.cores := rfl
@[simp] theorem State.modDie_ctxs (s : State) (k : Nat) (f : Die → Die) : (s.modDie k f).ctxs = s.ctxs := rfl
@[simp] theorem State.modDie_queues (s : State) (k : Nat) (f : Die → Die) : (s.modDie k f).queues = s.queues := rfl
@[simp] theorem State.modDie_mod (s : State) (k : Nat) (f : Die → Die) : (s.modDie k f).mod = s.mod := rfl
@[simp] theorem State.modDie_arms (s : State) (k : Nat) (f : Die → Die) : (s.modDie k f).arms = s.arms := rfl
@[simp] theorem State.modDie_cur (s : State) (k : Nat) (f : Die → Die) : (s.modDie k f).cur = s.cur := rfl
@[simp] theorem State.modDie_inputs (s : State) (k : Nat) (f : Die → Die) : (s.modDie k f).inputs = s.inputs := rfl
@[simp] theorem State.modDie_out (s : State) (k : Nat) (f : Die → Die) : (s.modDie k f).out = s.out := rfl
@[simp] theorem State.modDie_clk (s : State) (k : Nat) (f : Die → Die) : (s.modDie k f).clk = s.clk := rfl
@[simp] theorem State.modDie_free (s : State) (k : Nat) (f : Die → Die) : (s.modDie k f).free = s.free := rfl
@[simp] theorem State.modDie_nextTeam (s : State) (k : Nat) (f : Die → Die) : (s.modDie k f).nextTeam = s.nextTeam := rfl
@[simp] theorem State.modDie_nextGrid (s : State) (k : Nat) (f : Die → Die) : (s.modDie k f).nextGrid = s.nextGrid := rfl
@[simp] theorem State.modDie_robin (s : State) (k : Nat) (f : Die → Die) : (s.modDie k f).robin = s.robin := rfl
@[simp] theorem State.modDie_left (s : State) (k : Nat) (f : Die → Die) : (s.modDie k f).left = s.left := rfl
@[simp] theorem State.modDie_graphBars (s : State) (k : Nat) (f : Die → Die) : (s.modDie k f).graphBars = s.graphBars := rfl

@[simp] theorem State.modCtx_mem (s : State) (k : Nat) (f : Ctx → Ctx) : (s.modCtx k f).mem = s.mem := rfl
@[simp] theorem State.modCtx_poison (s : State) (k : Nat) (f : Ctx → Ctx) : (s.modCtx k f).poison = s.poison := rfl
@[simp] theorem State.modCtx_waves (s : State) (k : Nat) (f : Ctx → Ctx) : (s.modCtx k f).waves = s.waves := rfl
@[simp] theorem State.modCtx_teams (s : State) (k : Nat) (f : Ctx → Ctx) : (s.modCtx k f).teams = s.teams := rfl
@[simp] theorem State.modCtx_grids (s : State) (k : Nat) (f : Ctx → Ctx) : (s.modCtx k f).grids = s.grids := rfl
@[simp] theorem State.modCtx_cores (s : State) (k : Nat) (f : Ctx → Ctx) : (s.modCtx k f).cores = s.cores := rfl
@[simp] theorem State.modCtx_dies (s : State) (k : Nat) (f : Ctx → Ctx) : (s.modCtx k f).dies = s.dies := rfl
@[simp] theorem State.modCtx_queues (s : State) (k : Nat) (f : Ctx → Ctx) : (s.modCtx k f).queues = s.queues := rfl
@[simp] theorem State.modCtx_mod (s : State) (k : Nat) (f : Ctx → Ctx) : (s.modCtx k f).mod = s.mod := rfl
@[simp] theorem State.modCtx_arms (s : State) (k : Nat) (f : Ctx → Ctx) : (s.modCtx k f).arms = s.arms := rfl
@[simp] theorem State.modCtx_cur (s : State) (k : Nat) (f : Ctx → Ctx) : (s.modCtx k f).cur = s.cur := rfl
@[simp] theorem State.modCtx_inputs (s : State) (k : Nat) (f : Ctx → Ctx) : (s.modCtx k f).inputs = s.inputs := rfl
@[simp] theorem State.modCtx_out (s : State) (k : Nat) (f : Ctx → Ctx) : (s.modCtx k f).out = s.out := rfl
@[simp] theorem State.modCtx_clk (s : State) (k : Nat) (f : Ctx → Ctx) : (s.modCtx k f).clk = s.clk := rfl
@[simp] theorem State.modCtx_free (s : State) (k : Nat) (f : Ctx → Ctx) : (s.modCtx k f).free = s.free := rfl
@[simp] theorem State.modCtx_nextTeam (s : State) (k : Nat) (f : Ctx → Ctx) : (s.modCtx k f).nextTeam = s.nextTeam := rfl
@[simp] theorem State.modCtx_nextGrid (s : State) (k : Nat) (f : Ctx → Ctx) : (s.modCtx k f).nextGrid = s.nextGrid := rfl
@[simp] theorem State.modCtx_robin (s : State) (k : Nat) (f : Ctx → Ctx) : (s.modCtx k f).robin = s.robin := rfl
@[simp] theorem State.modCtx_left (s : State) (k : Nat) (f : Ctx → Ctx) : (s.modCtx k f).left = s.left := rfl
@[simp] theorem State.modCtx_graphBars (s : State) (k : Nat) (f : Ctx → Ctx) : (s.modCtx k f).graphBars = s.graphBars := rfl

@[simp] theorem State.modQueue_mem (s : State) (k : Nat) (f : Queue → Queue) : (s.modQueue k f).mem = s.mem := rfl
@[simp] theorem State.modQueue_poison (s : State) (k : Nat) (f : Queue → Queue) : (s.modQueue k f).poison = s.poison := rfl
@[simp] theorem State.modQueue_waves (s : State) (k : Nat) (f : Queue → Queue) : (s.modQueue k f).waves = s.waves := rfl
@[simp] theorem State.modQueue_teams (s : State) (k : Nat) (f : Queue → Queue) : (s.modQueue k f).teams = s.teams := rfl
@[simp] theorem State.modQueue_grids (s : State) (k : Nat) (f : Queue → Queue) : (s.modQueue k f).grids = s.grids := rfl
@[simp] theorem State.modQueue_cores (s : State) (k : Nat) (f : Queue → Queue) : (s.modQueue k f).cores = s.cores := rfl
@[simp] theorem State.modQueue_dies (s : State) (k : Nat) (f : Queue → Queue) : (s.modQueue k f).dies = s.dies := rfl
@[simp] theorem State.modQueue_ctxs (s : State) (k : Nat) (f : Queue → Queue) : (s.modQueue k f).ctxs = s.ctxs := rfl
@[simp] theorem State.modQueue_mod (s : State) (k : Nat) (f : Queue → Queue) : (s.modQueue k f).mod = s.mod := rfl
@[simp] theorem State.modQueue_arms (s : State) (k : Nat) (f : Queue → Queue) : (s.modQueue k f).arms = s.arms := rfl
@[simp] theorem State.modQueue_cur (s : State) (k : Nat) (f : Queue → Queue) : (s.modQueue k f).cur = s.cur := rfl
@[simp] theorem State.modQueue_inputs (s : State) (k : Nat) (f : Queue → Queue) : (s.modQueue k f).inputs = s.inputs := rfl
@[simp] theorem State.modQueue_out (s : State) (k : Nat) (f : Queue → Queue) : (s.modQueue k f).out = s.out := rfl
@[simp] theorem State.modQueue_clk (s : State) (k : Nat) (f : Queue → Queue) : (s.modQueue k f).clk = s.clk := rfl
@[simp] theorem State.modQueue_free (s : State) (k : Nat) (f : Queue → Queue) : (s.modQueue k f).free = s.free := rfl
@[simp] theorem State.modQueue_nextTeam (s : State) (k : Nat) (f : Queue → Queue) : (s.modQueue k f).nextTeam = s.nextTeam := rfl
@[simp] theorem State.modQueue_nextGrid (s : State) (k : Nat) (f : Queue → Queue) : (s.modQueue k f).nextGrid = s.nextGrid := rfl
@[simp] theorem State.modQueue_robin (s : State) (k : Nat) (f : Queue → Queue) : (s.modQueue k f).robin = s.robin := rfl
@[simp] theorem State.modQueue_left (s : State) (k : Nat) (f : Queue → Queue) : (s.modQueue k f).left = s.left := rfl
@[simp] theorem State.modQueue_graphBars (s : State) (k : Nat) (f : Queue → Queue) : (s.modQueue k f).graphBars = s.graphBars := rfl

@[simp] theorem State.modMod_mem (s : State) (f : Mod → Mod) : (s.modMod f).mem = s.mem := rfl
@[simp] theorem State.modMod_poison (s : State) (f : Mod → Mod) : (s.modMod f).poison = s.poison := rfl
@[simp] theorem State.modMod_waves (s : State) (f : Mod → Mod) : (s.modMod f).waves = s.waves := rfl
@[simp] theorem State.modMod_teams (s : State) (f : Mod → Mod) : (s.modMod f).teams = s.teams := rfl
@[simp] theorem State.modMod_grids (s : State) (f : Mod → Mod) : (s.modMod f).grids = s.grids := rfl
@[simp] theorem State.modMod_cores (s : State) (f : Mod → Mod) : (s.modMod f).cores = s.cores := rfl
@[simp] theorem State.modMod_dies (s : State) (f : Mod → Mod) : (s.modMod f).dies = s.dies := rfl
@[simp] theorem State.modMod_ctxs (s : State) (f : Mod → Mod) : (s.modMod f).ctxs = s.ctxs := rfl
@[simp] theorem State.modMod_queues (s : State) (f : Mod → Mod) : (s.modMod f).queues = s.queues := rfl
@[simp] theorem State.modMod_arms (s : State) (f : Mod → Mod) : (s.modMod f).arms = s.arms := rfl
@[simp] theorem State.modMod_cur (s : State) (f : Mod → Mod) : (s.modMod f).cur = s.cur := rfl
@[simp] theorem State.modMod_inputs (s : State) (f : Mod → Mod) : (s.modMod f).inputs = s.inputs := rfl
@[simp] theorem State.modMod_out (s : State) (f : Mod → Mod) : (s.modMod f).out = s.out := rfl
@[simp] theorem State.modMod_clk (s : State) (f : Mod → Mod) : (s.modMod f).clk = s.clk := rfl
@[simp] theorem State.modMod_free (s : State) (f : Mod → Mod) : (s.modMod f).free = s.free := rfl
@[simp] theorem State.modMod_nextTeam (s : State) (f : Mod → Mod) : (s.modMod f).nextTeam = s.nextTeam := rfl
@[simp] theorem State.modMod_nextGrid (s : State) (f : Mod → Mod) : (s.modMod f).nextGrid = s.nextGrid := rfl
@[simp] theorem State.modMod_robin (s : State) (f : Mod → Mod) : (s.modMod f).robin = s.robin := rfl
@[simp] theorem State.modMod_left (s : State) (f : Mod → Mod) : (s.modMod f).left = s.left := rfl
@[simp] theorem State.modMod_graphBars (s : State) (f : Mod → Mod) : (s.modMod f).graphBars = s.graphBars := rfl

@[simp] theorem State.emit_mem (s : State) (o : Out) : (s.emit o).mem = s.mem := rfl
@[simp] theorem State.emit_poison (s : State) (o : Out) : (s.emit o).poison = s.poison := rfl
@[simp] theorem State.emit_waves (s : State) (o : Out) : (s.emit o).waves = s.waves := rfl
@[simp] theorem State.emit_teams (s : State) (o : Out) : (s.emit o).teams = s.teams := rfl
@[simp] theorem State.emit_grids (s : State) (o : Out) : (s.emit o).grids = s.grids := rfl
@[simp] theorem State.emit_cores (s : State) (o : Out) : (s.emit o).cores = s.cores := rfl
@[simp] theorem State.emit_dies (s : State) (o : Out) : (s.emit o).dies = s.dies := rfl
@[simp] theorem State.emit_ctxs (s : State) (o : Out) : (s.emit o).ctxs = s.ctxs := rfl
@[simp] theorem State.emit_queues (s : State) (o : Out) : (s.emit o).queues = s.queues := rfl
@[simp] theorem State.emit_mod (s : State) (o : Out) : (s.emit o).mod = s.mod := rfl
@[simp] theorem State.emit_arms (s : State) (o : Out) : (s.emit o).arms = s.arms := rfl
@[simp] theorem State.emit_cur (s : State) (o : Out) : (s.emit o).cur = s.cur := rfl
@[simp] theorem State.emit_inputs (s : State) (o : Out) : (s.emit o).inputs = s.inputs := rfl
@[simp] theorem State.emit_clk (s : State) (o : Out) : (s.emit o).clk = s.clk := rfl
@[simp] theorem State.emit_free (s : State) (o : Out) : (s.emit o).free = s.free := rfl
@[simp] theorem State.emit_nextTeam (s : State) (o : Out) : (s.emit o).nextTeam = s.nextTeam := rfl
@[simp] theorem State.emit_nextGrid (s : State) (o : Out) : (s.emit o).nextGrid = s.nextGrid := rfl
@[simp] theorem State.emit_robin (s : State) (o : Out) : (s.emit o).robin = s.robin := rfl
@[simp] theorem State.emit_left (s : State) (o : Out) : (s.emit o).left = s.left := rfl
@[simp] theorem State.emit_graphBars (s : State) (o : Out) : (s.emit o).graphBars = s.graphBars := rfl

@[simp] theorem State.modLane_mem (s : State) (k l : Nat) (f : Lane → Lane) : (s.modLane k l f).mem = s.mem := rfl
@[simp] theorem State.modLane_poison (s : State) (k l : Nat) (f : Lane → Lane) : (s.modLane k l f).poison = s.poison := rfl
@[simp] theorem State.modLane_teams (s : State) (k l : Nat) (f : Lane → Lane) : (s.modLane k l f).teams = s.teams := rfl
@[simp] theorem State.modLane_grids (s : State) (k l : Nat) (f : Lane → Lane) : (s.modLane k l f).grids = s.grids := rfl
@[simp] theorem State.modLane_cores (s : State) (k l : Nat) (f : Lane → Lane) : (s.modLane k l f).cores = s.cores := rfl
@[simp] theorem State.modLane_dies (s : State) (k l : Nat) (f : Lane → Lane) : (s.modLane k l f).dies = s.dies := rfl
@[simp] theorem State.modLane_ctxs (s : State) (k l : Nat) (f : Lane → Lane) : (s.modLane k l f).ctxs = s.ctxs := rfl
@[simp] theorem State.modLane_queues (s : State) (k l : Nat) (f : Lane → Lane) : (s.modLane k l f).queues = s.queues := rfl
@[simp] theorem State.modLane_mod (s : State) (k l : Nat) (f : Lane → Lane) : (s.modLane k l f).mod = s.mod := rfl
@[simp] theorem State.modLane_arms (s : State) (k l : Nat) (f : Lane → Lane) : (s.modLane k l f).arms = s.arms := rfl
@[simp] theorem State.modLane_cur (s : State) (k l : Nat) (f : Lane → Lane) : (s.modLane k l f).cur = s.cur := rfl
@[simp] theorem State.modLane_inputs (s : State) (k l : Nat) (f : Lane → Lane) : (s.modLane k l f).inputs = s.inputs := rfl
@[simp] theorem State.modLane_out (s : State) (k l : Nat) (f : Lane → Lane) : (s.modLane k l f).out = s.out := rfl
@[simp] theorem State.modLane_clk (s : State) (k l : Nat) (f : Lane → Lane) : (s.modLane k l f).clk = s.clk := rfl
@[simp] theorem State.modLane_free (s : State) (k l : Nat) (f : Lane → Lane) : (s.modLane k l f).free = s.free := rfl
@[simp] theorem State.modLane_nextTeam (s : State) (k l : Nat) (f : Lane → Lane) : (s.modLane k l f).nextTeam = s.nextTeam := rfl
@[simp] theorem State.modLane_nextGrid (s : State) (k l : Nat) (f : Lane → Lane) : (s.modLane k l f).nextGrid = s.nextGrid := rfl
@[simp] theorem State.modLane_robin (s : State) (k l : Nat) (f : Lane → Lane) : (s.modLane k l f).robin = s.robin := rfl
@[simp] theorem State.modLane_left (s : State) (k l : Nat) (f : Lane → Lane) : (s.modLane k l f).left = s.left := rfl
@[simp] theorem State.modLane_graphBars (s : State) (k l : Nat) (f : Lane → Lane) : (s.modLane k l f).graphBars = s.graphBars := rfl

@[simp] theorem State.modLanes_mem (s : State) (k : Nat) (m : BitVec 32) (f : Nat → Lane → Lane) : (s.modLanes k m f).mem = s.mem := rfl
@[simp] theorem State.modLanes_poison (s : State) (k : Nat) (m : BitVec 32) (f : Nat → Lane → Lane) : (s.modLanes k m f).poison = s.poison := rfl
@[simp] theorem State.modLanes_teams (s : State) (k : Nat) (m : BitVec 32) (f : Nat → Lane → Lane) : (s.modLanes k m f).teams = s.teams := rfl
@[simp] theorem State.modLanes_grids (s : State) (k : Nat) (m : BitVec 32) (f : Nat → Lane → Lane) : (s.modLanes k m f).grids = s.grids := rfl
@[simp] theorem State.modLanes_cores (s : State) (k : Nat) (m : BitVec 32) (f : Nat → Lane → Lane) : (s.modLanes k m f).cores = s.cores := rfl
@[simp] theorem State.modLanes_dies (s : State) (k : Nat) (m : BitVec 32) (f : Nat → Lane → Lane) : (s.modLanes k m f).dies = s.dies := rfl
@[simp] theorem State.modLanes_ctxs (s : State) (k : Nat) (m : BitVec 32) (f : Nat → Lane → Lane) : (s.modLanes k m f).ctxs = s.ctxs := rfl
@[simp] theorem State.modLanes_queues (s : State) (k : Nat) (m : BitVec 32) (f : Nat → Lane → Lane) : (s.modLanes k m f).queues = s.queues := rfl
@[simp] theorem State.modLanes_mod (s : State) (k : Nat) (m : BitVec 32) (f : Nat → Lane → Lane) : (s.modLanes k m f).mod = s.mod := rfl
@[simp] theorem State.modLanes_arms (s : State) (k : Nat) (m : BitVec 32) (f : Nat → Lane → Lane) : (s.modLanes k m f).arms = s.arms := rfl
@[simp] theorem State.modLanes_cur (s : State) (k : Nat) (m : BitVec 32) (f : Nat → Lane → Lane) : (s.modLanes k m f).cur = s.cur := rfl
@[simp] theorem State.modLanes_inputs (s : State) (k : Nat) (m : BitVec 32) (f : Nat → Lane → Lane) : (s.modLanes k m f).inputs = s.inputs := rfl
@[simp] theorem State.modLanes_out (s : State) (k : Nat) (m : BitVec 32) (f : Nat → Lane → Lane) : (s.modLanes k m f).out = s.out := rfl
@[simp] theorem State.modLanes_clk (s : State) (k : Nat) (m : BitVec 32) (f : Nat → Lane → Lane) : (s.modLanes k m f).clk = s.clk := rfl
@[simp] theorem State.modLanes_free (s : State) (k : Nat) (m : BitVec 32) (f : Nat → Lane → Lane) : (s.modLanes k m f).free = s.free := rfl
@[simp] theorem State.modLanes_nextTeam (s : State) (k : Nat) (m : BitVec 32) (f : Nat → Lane → Lane) : (s.modLanes k m f).nextTeam = s.nextTeam := rfl
@[simp] theorem State.modLanes_nextGrid (s : State) (k : Nat) (m : BitVec 32) (f : Nat → Lane → Lane) : (s.modLanes k m f).nextGrid = s.nextGrid := rfl
@[simp] theorem State.modLanes_robin (s : State) (k : Nat) (m : BitVec 32) (f : Nat → Lane → Lane) : (s.modLanes k m f).robin = s.robin := rfl
@[simp] theorem State.modLanes_left (s : State) (k : Nat) (m : BitVec 32) (f : Nat → Lane → Lane) : (s.modLanes k m f).left = s.left := rfl
@[simp] theorem State.modLanes_graphBars (s : State) (k : Nat) (m : BitVec 32) (f : Nat → Lane → Lane) : (s.modLanes k m f).graphBars = s.graphBars := rfl

/-! ## What an update changes -/

@[simp] theorem State.modMod_mod (s : State) (f : Mod → Mod) : (s.modMod f).mod = f s.mod := rfl
@[simp] theorem State.emit_out (s : State) (o : Out) : (s.emit o).out = s.out ++ [o] := rfl

/-- The entry of a changed wave. -/
theorem State.find_modWave (s : State) (k j : Nat) (f : Wave → Wave) :
    (s.modWave k f).waves.find? j = if k = j then (s.waves.find? j).map f else s.waves.find? j := Tbl.find_mod _ _ _ _

/-- Another wave is as it was. -/
theorem State.wave_modWave_ne (s : State) {k j : Nat} (f : Wave → Wave) (h : k ≠ j) : (s.modWave k f).wave j = s.wave j := by
  simp [State.wave, Tbl.get, State.find_modWave, h]

/-- A wave that is there is changed. -/
theorem State.wave_modWave (s : State) {k : Nat} (f : Wave → Wave) (h : (s.waves.find? k).isSome) :
    (s.modWave k f).wave k = f (s.wave k) := by
  obtain ⟨w, hw⟩ := Option.isSome_iff_exists.1 h
  simp [State.wave, Tbl.get, State.find_modWave, hw]

theorem State.there_modWave (s : State) (k j : Nat) (f : Wave → Wave) :
    ((s.modWave k f).waves.find? j).isSome = (s.waves.find? j).isSome := by
  rw [State.find_modWave]; split <;> simp

/-- The lane of a wave after a change of its lanes. -/
theorem Wave.lane_modLane (w : Wave) (l j : Nat) (f : Lane → Lane) :
    (w.modLane l f).lane j = if l = j ∧ (w.lanes.find? j).isSome then f (w.lane j) else w.lane j := Tbl.get_mod _ _ _ _ _

theorem Wave.lane_modLanes (w : Wave) (m : BitVec 32) (f : Nat → Lane → Lane) (j : Nat) :
    (w.modLanes m f).lane j = if m.getLsbD j ∧ (w.lanes.find? j).isSome then f j (w.lane j) else w.lane j := by
  simp only [Wave.lane, Wave.modLanes, Tbl.get_mapAll]
  cases h : w.lanes.find? j <;> cases h' : m.getLsbD j <;> simp [h]

theorem State.core_modCore (s : State) (k j : Nat) (f : Core → Core) : (s.modCore k f).core j = if k = j then f (s.core k) else s.core j := by
  simp only [State.core, State.modCore, Tbl.get_put]

theorem State.die_modDie (s : State) (k j : Nat) (f : Die → Die) : (s.modDie k f).die j = if k = j then f (s.die k) else s.die j := by
  simp only [State.die, State.modDie, Tbl.get_put]

theorem State.ctx_modCtx (s : State) (k j : Nat) (f : Ctx → Ctx) : (s.modCtx k f).ctx j = if k = j then f (s.ctx k) else s.ctx j := by
  simp only [State.ctx, State.modCtx, Tbl.get_put]

theorem State.queue_modQueue (s : State) (k j : Nat) (f : Queue → Queue) : (s.modQueue k f).queue j = if k = j then f (s.queue k) else s.queue j := by
  simp only [State.queue, State.modQueue, Tbl.get_put]

@[simp] theorem State.team_of_modWave (s : State) (k : Nat) (f : Wave → Wave) (j : Nat) : (s.modWave k f).team j = s.team j := rfl
@[simp] theorem State.core_of_modWave (s : State) (k : Nat) (f : Wave → Wave) (j : Nat) : (s.modWave k f).core j = s.core j := rfl
@[simp] theorem State.die_of_modWave (s : State) (k : Nat) (f : Wave → Wave) (j : Nat) : (s.modWave k f).die j = s.die j := rfl
@[simp] theorem State.ctx_of_modWave (s : State) (k : Nat) (f : Wave → Wave) (j : Nat) : (s.modWave k f).ctx j = s.ctx j := rfl
@[simp] theorem State.queue_of_modWave (s : State) (k : Nat) (f : Wave → Wave) (j : Nat) : (s.modWave k f).queue j = s.queue j := rfl
@[simp] theorem State.wave_of_modTeam (s : State) (k : Nat) (f : Team → Team) (j : Nat) : (s.modTeam k f).wave j = s.wave j := rfl
@[simp] theorem State.core_of_modTeam (s : State) (k : Nat) (f : Team → Team) (j : Nat) : (s.modTeam k f).core j = s.core j := rfl
@[simp] theorem State.die_of_modTeam (s : State) (k : Nat) (f : Team → Team) (j : Nat) : (s.modTeam k f).die j = s.die j := rfl
@[simp] theorem State.ctx_of_modTeam (s : State) (k : Nat) (f : Team → Team) (j : Nat) : (s.modTeam k f).ctx j = s.ctx j := rfl
@[simp] theorem State.queue_of_modTeam (s : State) (k : Nat) (f : Team → Team) (j : Nat) : (s.modTeam k f).queue j = s.queue j := rfl
@[simp] theorem State.wave_of_modCore (s : State) (k : Nat) (f : Core → Core) (j : Nat) : (s.modCore k f).wave j = s.wave j := rfl
@[simp] theorem State.team_of_modCore (s : State) (k : Nat) (f : Core → Core) (j : Nat) : (s.modCore k f).team j = s.team j := rfl
@[simp] theorem State.die_of_modCore (s : State) (k : Nat) (f : Core → Core) (j : Nat) : (s.modCore k f).die j = s.die j := rfl
@[simp] theorem State.ctx_of_modCore (s : State) (k : Nat) (f : Core → Core) (j : Nat) : (s.modCore k f).ctx j = s.ctx j := rfl
@[simp] theorem State.queue_of_modCore (s : State) (k : Nat) (f : Core → Core) (j : Nat) : (s.modCore k f).queue j = s.queue j := rfl
@[simp] theorem State.wave_of_modDie (s : State) (k : Nat) (f : Die → Die) (j : Nat) : (s.modDie k f).wave j = s.wave j := rfl
@[simp] theorem State.team_of_modDie (s : State) (k : Nat) (f : Die → Die) (j : Nat) : (s.modDie k f).team j = s.team j := rfl
@[simp] theorem State.core_of_modDie (s : State) (k : Nat) (f : Die → Die) (j : Nat) : (s.modDie k f).core j = s.core j := rfl
@[simp] theorem State.ctx_of_modDie (s : State) (k : Nat) (f : Die → Die) (j : Nat) : (s.modDie k f).ctx j = s.ctx j := rfl
@[simp] theorem State.queue_of_modDie (s : State) (k : Nat) (f : Die → Die) (j : Nat) : (s.modDie k f).queue j = s.queue j := rfl
@[simp] theorem State.wave_of_modCtx (s : State) (k : Nat) (f : Ctx → Ctx) (j : Nat) : (s.modCtx k f).wave j = s.wave j := rfl
@[simp] theorem State.team_of_modCtx (s : State) (k : Nat) (f : Ctx → Ctx) (j : Nat) : (s.modCtx k f).team j = s.team j := rfl
@[simp] theorem State.core_of_modCtx (s : State) (k : Nat) (f : Ctx → Ctx) (j : Nat) : (s.modCtx k f).core j = s.core j := rfl
@[simp] theorem State.die_of_modCtx (s : State) (k : Nat) (f : Ctx → Ctx) (j : Nat) : (s.modCtx k f).die j = s.die j := rfl
@[simp] theorem State.queue_of_modCtx (s : State) (k : Nat) (f : Ctx → Ctx) (j : Nat) : (s.modCtx k f).queue j = s.queue j := rfl
@[simp] theorem State.wave_of_modQueue (s : State) (k : Nat) (f : Queue → Queue) (j : Nat) : (s.modQueue k f).wave j = s.wave j := rfl
@[simp] theorem State.team_of_modQueue (s : State) (k : Nat) (f : Queue → Queue) (j : Nat) : (s.modQueue k f).team j = s.team j := rfl
@[simp] theorem State.core_of_modQueue (s : State) (k : Nat) (f : Queue → Queue) (j : Nat) : (s.modQueue k f).core j = s.core j := rfl
@[simp] theorem State.die_of_modQueue (s : State) (k : Nat) (f : Queue → Queue) (j : Nat) : (s.modQueue k f).die j = s.die j := rfl
@[simp] theorem State.ctx_of_modQueue (s : State) (k : Nat) (f : Queue → Queue) (j : Nat) : (s.modQueue k f).ctx j = s.ctx j := rfl
@[simp] theorem State.wave_of_modMod (s : State) (f : Mod → Mod) (j : Nat) : (s.modMod f).wave j = s.wave j := rfl
@[simp] theorem State.team_of_modMod (s : State) (f : Mod → Mod) (j : Nat) : (s.modMod f).team j = s.team j := rfl
@[simp] theorem State.core_of_modMod (s : State) (f : Mod → Mod) (j : Nat) : (s.modMod f).core j = s.core j := rfl
@[simp] theorem State.die_of_modMod (s : State) (f : Mod → Mod) (j : Nat) : (s.modMod f).die j = s.die j := rfl
@[simp] theorem State.ctx_of_modMod (s : State) (f : Mod → Mod) (j : Nat) : (s.modMod f).ctx j = s.ctx j := rfl
@[simp] theorem State.queue_of_modMod (s : State) (f : Mod → Mod) (j : Nat) : (s.modMod f).queue j = s.queue j := rfl
@[simp] theorem State.wave_of_emit (s : State) (o : Out) (j : Nat) : (s.emit o).wave j = s.wave j := rfl
@[simp] theorem State.team_of_emit (s : State) (o : Out) (j : Nat) : (s.emit o).team j = s.team j := rfl
@[simp] theorem State.core_of_emit (s : State) (o : Out) (j : Nat) : (s.emit o).core j = s.core j := rfl
@[simp] theorem State.die_of_emit (s : State) (o : Out) (j : Nat) : (s.emit o).die j = s.die j := rfl
@[simp] theorem State.ctx_of_emit (s : State) (o : Out) (j : Nat) : (s.emit o).ctx j = s.ctx j := rfl
@[simp] theorem State.queue_of_emit (s : State) (o : Out) (j : Nat) : (s.emit o).queue j = s.queue j := rfl
@[simp] theorem State.team_of_modLane (s : State) (k l : Nat) (f : Lane → Lane) (j : Nat) : (s.modLane k l f).team j = s.team j := rfl
@[simp] theorem State.core_of_modLane (s : State) (k l : Nat) (f : Lane → Lane) (j : Nat) : (s.modLane k l f).core j = s.core j := rfl
@[simp] theorem State.die_of_modLane (s : State) (k l : Nat) (f : Lane → Lane) (j : Nat) : (s.modLane k l f).die j = s.die j := rfl
@[simp] theorem State.ctx_of_modLane (s : State) (k l : Nat) (f : Lane → Lane) (j : Nat) : (s.modLane k l f).ctx j = s.ctx j := rfl
@[simp] theorem State.queue_of_modLane (s : State) (k l : Nat) (f : Lane → Lane) (j : Nat) : (s.modLane k l f).queue j = s.queue j := rfl
@[simp] theorem State.team_of_modLanes (s : State) (k : Nat) (m : BitVec 32) (f : Nat → Lane → Lane) (j : Nat) : (s.modLanes k m f).team j = s.team j := rfl
@[simp] theorem State.core_of_modLanes (s : State) (k : Nat) (m : BitVec 32) (f : Nat → Lane → Lane) (j : Nat) : (s.modLanes k m f).core j = s.core j := rfl
@[simp] theorem State.die_of_modLanes (s : State) (k : Nat) (m : BitVec 32) (f : Nat → Lane → Lane) (j : Nat) : (s.modLanes k m f).die j = s.die j := rfl
@[simp] theorem State.ctx_of_modLanes (s : State) (k : Nat) (m : BitVec 32) (f : Nat → Lane → Lane) (j : Nat) : (s.modLanes k m f).ctx j = s.ctx j := rfl
@[simp] theorem State.queue_of_modLanes (s : State) (k : Nat) (m : BitVec 32) (f : Nat → Lane → Lane) (j : Nat) : (s.modLanes k m f).queue j = s.queue j := rfl

/-- A team that is there is changed. -/
theorem State.team_modTeam (s : State) {k : Nat} (f : Team → Team) (h : (s.teams.find? k).isSome) :
    (s.modTeam k f).team k = f (s.team k) := by
  obtain ⟨w, hw⟩ := Option.isSome_iff_exists.1 h
  simp [State.team, Tbl.get, State.modTeam, Tbl.find_mod, hw]

theorem State.team_modTeam_ne (s : State) {k j : Nat} (f : Team → Team) (h : k ≠ j) : (s.modTeam k f).team j = s.team j := by
  simp [State.team, Tbl.get, State.modTeam, Tbl.find_mod, h]

end Sys2Proof.Machine
end

