-- ==== Sys2Proof/Laws/Run.lean ====
section
/-! SUPPORT. What the checks of R137 leave of a state whose executing group passes them: `run_clear` says that an instruction's effect
then acts on `State.begun`, and `begun_soft` how little that differs from the state before. -/
namespace Sys2Proof.Machine

theorem Wave.Kept.refl (w : Wave) : w.Kept w := rfl
theorem Lane.Kept.refl (x : Lane) : x.Kept x := rfl

theorem Wave.Kept.trans {a b c : Wave} (h : a.Kept b) (h' : b.Kept c) : a.Kept c :=
  Eq.trans (congrArg (fun x : Wave => { x with
    lanes := a.lanes, s := a.s, slatch := a.slatch, run := a.run, shadow := a.shadow, dirty := a.dirty, used := a.used,
    fcsr := a.fcsr, wstat := a.wstat }) h') h

theorem Lane.Kept.trans {a b c : Lane} (h : a.Kept b) (h' : b.Kept c) : a.Kept c :=
  Eq.trans (congrArg (fun x : Lane => { x with pc := a.pc, life := a.life, v := a.v, latch := a.latch }) h') h

theorem State.Elsewhere.refl (s : State) : s.Elsewhere s := ⟨rfl, fun _ _ => rfl⟩

theorem State.Elsewhere.trans {a b c : State} (h : a.Elsewhere b) (hw : b.cur.wave = a.cur.wave) (h' : b.Elsewhere c) :
    a.Elsewhere c :=
  ⟨Eq.trans (congrArg (fun x : State => { x with waves := a.waves, cur := a.cur }) h'.1) h.1,
   fun k hk => (h'.2 k (by rwa [hw])).trans (h.2 k hk)⟩

/-- A state that differs from another only in latches, shadow lines, the run and LSTALE of the executing wave, and in the record of the
clk outside what names the group. -/
structure State.SoftFrom (s b : State) : Prop where
  elsewhere : s.Elsewhere b
  wave : b.cur.wave = s.cur.wave
  there : (b.waves.find? b.cur.wave).isSome = (s.waves.find? s.cur.wave).isSome
  kept : s.w.Kept b.w
  sregs : b.w.s = s.w.s
  fcsr : b.w.fcsr = s.w.fcsr
  lane : ∀ l, (b.w.lanes.find? l).isSome = (s.w.lanes.find? l).isSome ∧ (s.w.lane l).Kept (b.w.lane l) ∧
    (b.w.lane l).v = (s.w.lane l).v ∧ (b.w.lane l).pc = (s.w.lane l).pc ∧ (b.w.lane l).life = (s.w.lane l).life
  pre : b.cur.pre.isSome = true → b.pre = s.pre
  mask : b.cur.mask = s.cur.mask
  pc : b.cur.pc = s.cur.pc
  len : b.cur.len = s.cur.len
  frozen : b.cur.frozen = s.cur.frozen
  frozenLanes : b.cur.frozenLanes = s.cur.frozenLanes
  frozenLines : b.cur.frozenLines = s.cur.frozenLines

@[simp] theorem State.snapshot_pre (s : State) : s.snapshot.pre = s.pre := rfl
@[simp] theorem State.snapshot_ctxNo (s : State) : s.snapshot.ctxNo = s.ctxNo := rfl
@[simp] theorem State.snapshot_staleUse (s : State) (i : Instr) (us : List OpUse) :
    s.snapshot.staleUse i us = s.staleUse i us := rfl

theorem State.SoftFrom.refl (s : State) : s.SoftFrom s :=
  ⟨.refl s, rfl, rfl, rfl, rfl, rfl, fun _ => ⟨rfl, rfl, rfl, rfl, rfl⟩, fun _ => rfl, rfl, rfl, rfl, rfl, rfl, rfl⟩

theorem State.SoftFrom.trans {a b c : State} (h : a.SoftFrom b) (h' : b.SoftFrom c) (hp : c.cur.pre = b.cur.pre) : a.SoftFrom c where
  elsewhere := h.elsewhere.trans h.wave h'.elsewhere
  wave := h'.wave.trans h.wave
  there := h'.there.trans h.there
  kept := h.kept.trans h'.kept
  sregs := h'.sregs.trans h.sregs
  fcsr := h'.fcsr.trans h.fcsr
  lane l := ⟨(h'.lane l).1.trans (h.lane l).1, (h.lane l).2.1.trans (h'.lane l).2.1, (h'.lane l).2.2.1.trans (h.lane l).2.2.1,
    (h'.lane l).2.2.2.1.trans (h.lane l).2.2.2.1, (h'.lane l).2.2.2.2.trans (h.lane l).2.2.2.2⟩
  pre hc := (h'.pre hc).trans (h.pre (hp ▸ hc))
  mask := h'.mask.trans h.mask
  pc := h'.pc.trans h.pc
  len := h'.len.trans h.len
  frozen := h'.frozen.trans h.frozen
  frozenLanes := h'.frozenLanes.trans h.frozenLanes
  frozenLines := h'.frozenLines.trans h.frozenLines

/-- A change of the executing wave alone is soft where it is so on the wave. -/
theorem State.softFrom_modWave (s : State) (g : Wave → Wave) (hw : (s.waves.find? s.cur.wave).isSome) (hk : s.w.Kept (g s.w))
    (hs : (g s.w).s = s.w.s) (hf : (g s.w).fcsr = s.w.fcsr) (hp : s.cur.pre.isSome)
    (hl : ∀ l, ((g s.w).lanes.find? l).isSome = (s.w.lanes.find? l).isSome ∧ (s.w.lane l).Kept ((g s.w).lane l) ∧
      ((g s.w).lane l).v = (s.w.lane l).v ∧ ((g s.w).lane l).pc = (s.w.lane l).pc ∧ ((g s.w).lane l).life = (s.w.lane l).life) :
    s.SoftFrom (s.modWave s.cur.wave g) := by
  have hwave : (s.modWave s.cur.wave g).w = g s.w := State.wave_modWave s g hw
  refine ⟨⟨rfl, fun k hk => ?_⟩, rfl, State.there_modWave _ _ _ _, ?_, ?_, ?_, ?_, fun _ => ?_, rfl, rfl, rfl, rfl, rfl, rfl⟩
  · rw [State.find_modWave]; simp [Ne.symm hk]
  · rw [hwave]; exact hk
  · rw [hwave]; exact hs
  · rw [hwave]; exact hf
  · intro l; rw [hwave]; exact hl l
  · obtain ⟨p, hp⟩ := Option.isSome_iff_exists.1 hp
    simp [State.pre, hp]

/-! ## What a soft change leaves of the terms of the checks -/

namespace State.SoftFrom
variable {s b : State} (h : s.SoftFrom b)
include h

theorem w_absent : b.w.absent = s.w.absent := by have := congrArg Wave.absent h.kept; exact this
theorem teams : b.teams = s.teams := by have := congrArg State.teams h.elsewhere.1; exact this
theorem cores : b.cores = s.cores := by have := congrArg State.cores h.elsewhere.1; exact this
theorem ctxs : b.ctxs = s.ctxs := by have := congrArg State.ctxs h.elsewhere.1; exact this
theorem tid : b.tid = s.tid := by simp only [State.tid, h.wave]
theorem tm : b.tm = s.tm := by simp only [State.tm, State.team, h.teams, h.tid]
theorem coreNo : b.coreNo = s.coreNo := by simp only [State.coreNo, h.tm]
theorem ctxNo : b.ctxNo = s.ctxNo := by simp only [State.ctxNo, h.tm]
theorem ctx (c : Nat) : b.ctx c = s.ctx c := by simp only [State.ctx, h.ctxs]
theorem nextPc : b.nextPc = s.nextPc := by simp only [State.nextPc, h.pc, h.len]
theorem depth (l : Nat) : (b.w.lane l).depth = (s.w.lane l).depth := by
  have := congrArg Lane.depth (h.lane l).2.1; exact this

theorem members : b.members = s.members := by
  simp only [State.members, State.mask, h.mask, Wave.which, Lane.member, Lane.live, h.depth, (h.lane _).2.2.2.2]

theorem group (hg : s.Group) : b.Group where
  home := by rw [h.tm]; exact hg.home
  wave := by rw [h.there]; exact hg.wave
  lanes l hl := by rw [(h.lane l).1]; exact hg.lanes l (by simpa only [State.mask, h.mask] using hl)
  ready l hl := by rw [(h.lane l).2.2.2.2]; exact hg.ready l (by simpa only [State.mask, h.mask] using hl)
  some := by simpa only [State.mask, h.mask] using hg.some
  frozen := by rw [h.frozen]; exact hg.frozen
  frozenLanes := by rw [h.frozenLanes]; exact hg.frozenLanes
  frozenLines := by rw [h.frozenLines]; exact hg.frozenLines

end State.SoftFrom

/-! ## Steps of the checks are soft -/

theorem State.snapshot_soft (s : State) : s.SoftFrom s.snapshot :=
  ⟨⟨rfl, fun _ _ => rfl⟩, rfl, rfl, rfl, rfl, rfl, fun _ => ⟨rfl, rfl, rfl, rfl, rfl⟩, fun _ => rfl, rfl, rfl, rfl, rfl, rfl, rfl⟩

/-- Marking a stale read is soft. -/
theorem State.setStale_soft (s : State) (hw : (s.waves.find? s.cur.wave).isSome) (hp : s.cur.pre.isSome) :
    s.SoftFrom (s.modWave s.cur.wave Wave.setStale) :=
  s.softFrom_modWave _ hw rfl rfl rfl hp fun _ => ⟨rfl, rfl, rfl, rfl, rfl⟩

/-- Clearing latches keeps each lane but its latches. -/
theorem Wave.clearLatches_lane (w : Wave) (m : BitVec 32) (b : Bool) (l : Nat) :
    ((w.clearLatches m b).lanes.find? l).isSome = (w.lanes.find? l).isSome ∧ (w.lane l).Kept ((w.clearLatches m b).lane l) ∧
      ((w.clearLatches m b).lane l).v = (w.lane l).v ∧ ((w.clearLatches m b).lane l).pc = (w.lane l).pc ∧
      ((w.clearLatches m b).lane l).life = (w.lane l).life := by
  simp only [Wave.clearLatches, Wave.lane, Tbl.get_mapAll, Tbl.find_mapAll, Option.isSome_map, Lane.Kept]
  split <;> simp

/-- A switch point is soft. -/
theorem State.switchPoint_soft (s : State) (hw : (s.waves.find? s.cur.wave).isSome) (hp : s.cur.pre.isSome) :
    s.SoftFrom (s.switchPoint s.cur.wave) := by
  simp only [State.switchPoint, ↓reduceIte]
  split
  · exact s.softFrom_modWave (fun w => { w with run := 0 }) hw rfl rfl rfl hp fun _ => ⟨rfl, rfl, rfl, rfl, rfl⟩
  · have h := s.softFrom_modWave (fun w => w.clearLatches s.cur.shifted s.cur.shiftedS) hw rfl rfl rfl hp
      (fun l => Wave.clearLatches_lane _ _ _ l)
    exact ⟨h.elsewhere, rfl, h.there, h.kept, h.sregs, h.fcsr, h.lane, h.pre, rfl, rfl, rfl, rfl, rfl, rfl⟩

theorem State.switchPoint_pre (s : State) (k : Nat) : (s.switchPoint k).cur.pre = s.cur.pre := by
  simp only [State.switchPoint]; split
  · split <;> rfl
  · rfl

theorem Wave.addShadow_kept (w : Wave) (x : Nat) : w.Kept (w.addShadow x) ∧ (w.addShadow x).lanes = w.lanes ∧
    (w.addShadow x).s = w.s ∧ (w.addShadow x).fcsr = w.fcsr ∧ (w.addShadow x).slatch = w.slatch ∧ (w.addShadow x).wstat = w.wstat := by
  exact ⟨rfl, rfl, rfl, rfl, rfl, rfl⟩

theorem Wave.addShadows_kept (xs : List Nat) (w : Wave) : w.Kept (xs.foldl Wave.addShadow w) ∧
    (xs.foldl Wave.addShadow w).lanes = w.lanes ∧ (xs.foldl Wave.addShadow w).s = w.s ∧
    (xs.foldl Wave.addShadow w).fcsr = w.fcsr ∧ (xs.foldl Wave.addShadow w).slatch = w.slatch ∧
    (xs.foldl Wave.addShadow w).wstat = w.wstat := by
  induction xs generalizing w with
  | nil => exact ⟨rfl, rfl, rfl, rfl, rfl, rfl⟩
  | cons x xs ih =>
    obtain ⟨a, b, c, d, e, f⟩ := w.addShadow_kept x
    obtain ⟨a', b', c', d', e', f'⟩ := ih (w.addShadow x)
    exact ⟨a.trans a', b'.trans b, c'.trans c, d'.trans d, e'.trans e, f'.trans f⟩

/-- Shadowing lines is soft where they have room. -/
theorem State.shadowFor_eq (s : State) (i : Instr) (us : List OpUse) (sc nw : Bool)
    (hn : s.members = 0 ∨ s.newShadows i us sc nw = [] ∨ s.shadowsFit (s.newShadows i us sc nw)) :
    ∃ xs : List Nat, s.shadowFor i us sc nw = if s.members = 0 then s else s.modWave s.cur.wave fun w => xs.foldl Wave.addShadow w := by
  refine ⟨s.newShadows i us sc nw, ?_⟩
  simp only [State.shadowFor]
  split
  · rfl
  · rename_i hm
    rcases hn with h | h | ⟨h1, h2⟩
    · exact absurd h hm
    · simp [h]
    · have a := Nat.not_lt.2 h1
      have b := Nat.not_lt.2 h2
      rw [if_neg]
      simp [a, b]

theorem State.shadowFor_soft (s : State) (i : Instr) (us : List OpUse) (sc nw : Bool) (hw : (s.waves.find? s.cur.wave).isSome)
    (hp : s.cur.pre.isSome) (hn : s.members = 0 ∨ s.newShadows i us sc nw = [] ∨ s.shadowsFit (s.newShadows i us sc nw)) :
    s.SoftFrom (s.shadowFor i us sc nw) ∧ (s.shadowFor i us sc nw).cur = s.cur ∧
      (s.shadowFor i us sc nw).w.wstat = s.w.wstat ∧ (s.shadowFor i us sc nw).w.slatch = s.w.slatch ∧
      ∀ l, (s.shadowFor i us sc nw).w.lane l = s.w.lane l := by
  obtain ⟨xs, hxs⟩ := s.shadowFor_eq i us sc nw hn
  rw [hxs]
  split
  · exact ⟨.refl s, rfl, rfl, rfl, fun _ => rfl⟩
  · obtain ⟨a, b, c, d, e, f⟩ := Wave.addShadows_kept xs s.w
    have hwv : (s.modWave s.cur.wave fun w => xs.foldl Wave.addShadow w).w = xs.foldl Wave.addShadow s.w := State.wave_modWave s _ hw
    refine ⟨s.softFrom_modWave _ hw a c d hp fun l => ?_, rfl, by rw [hwv]; exact f, by rw [hwv]; exact e, fun l => ?_⟩
    · simp only [b, Wave.lane, Lane.Kept, and_self]
    · rw [hwv]; simp only [Wave.lane, b]

/-- Noting what an instruction uses is soft. -/
theorem State.noteUse_soft (s : State) (i : Instr) (us : List OpUse) (hw : (s.waves.find? s.cur.wave).isSome) (hp : s.cur.pre.isSome) :
    s.SoftFrom (s.noteUse i us) ∧ (s.noteUse i us).cur.pre = s.cur.pre ∧ (s.noteUse i us).w.wstat = s.w.wstat ∧
      (s.noteUse i us).w.slatch = s.w.slatch ∧ ∀ l, (s.noteUse i us).w.lane l = s.w.lane l := by
  simp only [State.noteUse]
  generalize hg : (fun w : Wave => ({ w with
    used := (linesUsed s.pre (scalarOf i) (nwOf i) us).foldl (fun t l => t.put l s.clk) w.used
    run := if (!isSwitch i) = true then w.run + 1 else w.run } : Wave)) = g
  have hk : ∀ w, w.Kept (g w) ∧ (g w).lanes = w.lanes ∧ (g w).s = w.s ∧ (g w).fcsr = w.fcsr ∧ (g w).slatch = w.slatch ∧
      (g w).wstat = w.wstat := by subst hg; exact fun _ => ⟨rfl, rfl, rfl, rfl, rfl, rfl⟩
  obtain ⟨a, b, c, d, e, f⟩ := hk s.w
  have hwv : (s.modWave s.cur.wave g).w = g s.w := State.wave_modWave s _ hw
  have h := s.softFrom_modWave g hw a c d hp fun l => by simp only [b, Wave.lane, Lane.Kept, and_self]
  refine ⟨⟨h.elsewhere, rfl, h.there, h.kept, h.sregs, h.fcsr, h.lane, h.pre, rfl, rfl, rfl, rfl, rfl, rfl⟩, rfl, ?_, ?_, fun l => ?_⟩
  · exact (congrArg Wave.wstat hwv).trans f
  · exact (congrArg Wave.slatch hwv).trans e
  · exact (congrArg (Wave.lane · l) hwv).trans (by simp only [Wave.lane, b])

/-! ## Shadow lines are counted as before -/

theorem State.shadowBytes_modWave (s : State) (k c : Nat) (g : Wave → Wave) (hg : ∀ w, (g w).shadow = w.shadow) :
    (s.modWave k g).shadowBytes c = s.shadowBytes c := by
  simp only [State.shadowBytes, State.modWave, Tbl.mod, List.map_map]
  congr 1
  refine List.map_congr_left fun p _ => ?_
  by_cases hp : p.1 = k
  · simp only [Function.comp, hp, ↓reduceIte, hg]; rfl
  · simp only [Function.comp, hp, ↓reduceIte]; rfl

theorem State.shadowBytes_switchPoint (s : State) (k c : Nat) : (s.switchPoint k).shadowBytes c = s.shadowBytes c := by
  simp only [State.switchPoint]
  split
  · split
    · exact State.shadowBytes_modWave s k c (fun w => { w with run := 0 }) fun _ => rfl
    · exact State.shadowBytes_modWave s k c (fun w => w.clearLatches s.cur.shifted s.cur.shiftedS) fun _ => rfl
  · exact State.shadowBytes_modWave s k c _ fun _ => rfl

theorem State.w_shadow_switchPoint (s : State) (hw : (s.waves.find? s.cur.wave).isSome) :
    (s.switchPoint s.cur.wave).w.shadow = s.w.shadow := by
  simp only [State.switchPoint, ↓reduceIte]
  split
  · have h := congrArg Wave.shadow (State.wave_modWave s (fun w => { w with run := 0 }) hw)
    exact h
  · have h := congrArg Wave.shadow (State.wave_modWave s (fun w => w.clearLatches s.cur.shifted s.cur.shiftedS) hw)
    exact h

/-! ## The checks, passed -/

/-- The state once a stale read has been noted. -/
def State.noted (s : State) (i : Instr) (sp : Spans) : State := s.snapshot.noteStale i (usesOf i sp)

/-- The state once an instruction's shadow lines are there. -/
def State.covered (s : State) (i : Instr) (sp : Spans) : State :=
  ((s.noted i sp).switchFor i).shadowFor i (usesOf i sp) (scalarOf i) (nwOf i)

/-- The state after the checks, on which the effect acts. -/
def State.begun (s : State) (i : Instr) (sp : Spans) : State := (s.covered i sp).noteUse i (usesOf i sp)

theorem State.noted_soft (s : State) (i : Instr) (sp : Spans) (hw : (s.waves.find? s.cur.wave).isSome) :
    s.SoftFrom (s.noted i sp) ∧ (s.noted i sp).cur.pre = some s.pre ∧
      (∀ c, (s.noted i sp).shadowBytes c = s.shadowBytes c) ∧ (s.noted i sp).w.shadow = s.w.shadow := by
  have h1 := s.snapshot_soft
  simp only [State.noted, State.noteStale]
  split
  · refine ⟨h1.trans (s.snapshot.setStale_soft hw rfl) rfl, rfl, fun c => State.shadowBytes_modWave _ _ _ _ fun _ => rfl, ?_⟩
    have h := congrArg Wave.shadow (State.wave_modWave s.snapshot Wave.setStale hw)
    exact h
  · exact ⟨h1, rfl, fun _ => rfl, rfl⟩

theorem State.checked_soft (s : State) (i : Instr) (sp : Spans) (hw : (s.waves.find? s.cur.wave).isSome) :
    s.SoftFrom ((s.noted i sp).switchFor i) ∧ ((s.noted i sp).switchFor i).cur.pre = some s.pre ∧
      (∀ c, ((s.noted i sp).switchFor i).shadowBytes c = s.shadowBytes c) ∧
      ((s.noted i sp).switchFor i).w.shadow = s.w.shadow := by
  obtain ⟨h, hp, hb, hs⟩ := s.noted_soft i sp hw
  have hw2 : ((s.noted i sp).waves.find? (s.noted i sp).cur.wave).isSome := by rw [h.there]; exact hw
  simp only [State.switchFor]
  split
  · have h3 := (s.noted i sp).switchPoint_soft hw2 (by rw [hp]; rfl)
    have hp3 := (s.noted i sp).switchPoint_pre (s.noted i sp).cur.wave
    refine ⟨h.trans h3 hp3, by rw [hp3, hp], fun c => ?_, ?_⟩
    · rw [State.shadowBytes_switchPoint, hb]
    · rw [State.w_shadow_switchPoint _ hw2, hs]
  · exact ⟨h, hp, hb, hs⟩

/-- The shadow lines of a cleared instruction fit after its checks. -/
theorem State.checked_room {s : State} {i : Instr} {sp : Spans} (h : s.Clear i sp) :
    ((s.noted i sp).switchFor i).members = 0 ∨
      ((s.noted i sp).switchFor i).newShadows i (usesOf i sp) (scalarOf i) (nwOf i) = [] ∨
      ((s.noted i sp).switchFor i).shadowsFit (((s.noted i sp).switchFor i).newShadows i (usesOf i sp) (scalarOf i) (nwOf i)) := by
  obtain ⟨hs, hp, hb, hsh⟩ := s.checked_soft i sp h.wave
  have hpre : ((s.noted i sp).switchFor i).pre = s.pre := by simp only [State.pre, hp, Option.getD_some]
  have hc : ((s.noted i sp).switchFor i).w.covered = s.w.covered := by have := congrArg Wave.covered hs.kept; exact this
  rw [hs.members]
  simp only [State.newShadows, State.shadowsFit, hpre, hsh, hc, hs.coreNo, hb]
  exact h.shadow

/-- The shadow lines of a cleared instruction are added softly. -/
theorem State.covered_soft {s : State} {i : Instr} {sp : Spans} (h : s.Clear i sp) :
    s.SoftFrom (s.covered i sp) ∧ (s.covered i sp).cur.pre = some s.pre := by
  obtain ⟨hs, hp, _, _⟩ := s.checked_soft i sp h.wave
  obtain ⟨a, b, -⟩ := ((s.noted i sp).switchFor i).shadowFor_soft i (usesOf i sp) (scalarOf i) (nwOf i)
    (by rw [hs.there]; exact h.wave) (by rw [hp]; rfl) (State.checked_room h)
  exact ⟨hs.trans a (by rw [State.covered, b]), by rw [State.covered, b]; exact hp⟩

/-- The state on which the effect acts differs softly from the state before. -/
theorem State.begun_soft {s : State} {i : Instr} {sp : Spans} (h : s.Clear i sp) :
    s.SoftFrom (s.begun i sp) ∧ (s.begun i sp).cur.pre = some s.pre := by
  obtain ⟨hs, hp⟩ := State.covered_soft h
  obtain ⟨a, b, -⟩ := (s.covered i sp).noteUse_soft i (usesOf i sp) (by rw [hs.there]; exact h.wave) (by rw [hp]; rfl)
  exact ⟨hs.trans a b, b.trans hp⟩

/-- LSTALE after the checks, and the latches of an instruction that is no switch point. -/
theorem State.begun_marks {s : State} {i : Instr} {sp : Spans} (h : s.Clear i sp) :
    (s.begun i sp).w.wstat = s.staleAfter i sp ∧
      (isSwitch i = false → (s.begun i sp).w.slatch = s.w.slatch ∧ ∀ l, (s.begun i sp).w.lane l = s.w.lane l) := by
  obtain ⟨hs, hp, _, _⟩ := s.checked_soft i sp h.wave
  obtain ⟨-, -, hw', hl', hx'⟩ := ((s.noted i sp).switchFor i).shadowFor_soft i (usesOf i sp) (scalarOf i) (nwOf i)
    (by rw [hs.there]; exact h.wave) (by rw [hp]; rfl) (State.checked_room h)
  obtain ⟨-, -, hw2, hl2, hx2⟩ := (s.covered i sp).noteUse_soft i (usesOf i sp) (by rw [(State.covered_soft h).1.there]; exact h.wave)
    (by rw [(State.covered_soft h).2]; rfl)
  have hw := hw2.trans hw'
  have hl := hl2.trans hl'
  have hx := fun l => (hx2 l).trans (hx' l)
  have hn : (s.noted i sp).w.wstat = s.staleAfter i sp ∧ (s.noted i sp).w.slatch = s.w.slatch ∧
      ∀ l, (s.noted i sp).w.lane l = s.w.lane l := by
    simp only [State.noted, State.noteStale, State.staleAfter, State.snapshot_staleUse]
    by_cases hst : (s.staleUse i (usesOf i sp)).isSome = true <;> simp only [hst, ↓reduceIte, Bool.false_eq_true]
    · have e := State.wave_modWave s.snapshot Wave.setStale h.wave
      have e1 := congrArg Wave.wstat e
      have e2 := congrArg Wave.slatch e
      exact ⟨e1, e2, fun l => by have e3 := congrArg (Wave.lane · l) e; exact e3⟩
    · exact ⟨rfl, rfl, fun _ => rfl⟩
  have hnoted := (s.noted_soft i sp h.wave).1
  have hsw : ((s.noted i sp).switchFor i).w.wstat = (s.noted i sp).w.wstat := by
    simp only [State.switchFor, State.switchPoint]
    split
    · simp only [↓reduceIte]; split
      · have e := congrArg Wave.wstat (State.wave_modWave (s.noted i sp) (fun w => { w with run := 0 })
          (by rw [hnoted.there]; exact h.wave))
        exact e
      · have e := congrArg Wave.wstat (State.wave_modWave (s.noted i sp) (fun w => w.clearLatches (s.noted i sp).cur.shifted
          (s.noted i sp).cur.shiftedS) (by rw [hnoted.there]; exact h.wave))
        exact e
    · rfl
  refine ⟨hw.trans (hsw.trans hn.1), fun hi => ?_⟩
  have e : (s.noted i sp).switchFor i = s.noted i sp := by simp only [State.switchFor, hi, Bool.false_eq_true, ↓reduceIte]
  rw [e] at hl hx
  simp only [State.begun, e]
  exact ⟨hl.trans hn.2.1, fun l => (hx l).trans (hn.2.2 l)⟩

/-- An instruction whose checks pass acts on `State.begun`. -/
theorem State.start_clear {s : State} {i : Instr} {sp : Spans} (h : s.Clear i sp) :
    s.start i sp false none = .ok (s.begun i sp) := by
  have hn := s.snapshot_soft
  have hpriv : (isPrivileged i && s.snapshot.ctxNo != 0) = false := by
    cases hp : isPrivileged i
    · rfl
    · have := h.privileged hp; simp [this]
  have hbar : s.snapshot.barMembers i = s.snapshot := by
    simp only [State.barMembers, hn.members]
    split <;> rename_i hf <;> simp_all [h.region]
  have hadm : s.snapshot.checkOps i (usesOf i sp) = .ok (s.begun i sp) := by
    have e1 : s.snapshot.featureRefused i = false := by
      simp only [State.featureRefused, hn.ctxNo, hn.ctx]
      split
      · rename_i b hb; rw [h.feature b hb]; rfl
      · rfl
    have e2 : s.snapshot.missingLines i (usesOf i sp) = [] := by
      simp only [State.missingLines, State.snapshot_pre, hn.w_absent]
      rw [List.filter_eq_nil_iff]; intro x hx; rw [h.present x hx]; decide
    have e3 : s.snapshot.mask ≠ 0 := by rw [show s.snapshot.mask = s.mask from hn.mask]; exact h.some
    have e4 : (s.covered i sp).mask ≠ 0 := by
      rw [show (s.covered i sp).mask = s.mask from (State.covered_soft h).1.mask]; exact h.some
    simp only [State.checkOps, if_neg e3, e1, e2, Bool.false_eq_true, ↓reduceIte, List.isEmpty_nil, Bool.not_true]
    exact if_neg e4
  have e0 : s.snapshot.illegalUse i (usesOf i sp) = none := h.legal
  simp only [State.start, Bool.or_false, hpriv, Bool.false_eq_true, ↓reduceIte, e0, hbar, hadm]
  split
  · rename_i u hu
    rcases h.latches with h' | h'
    · simp_all
    · rw [if_neg]; simp only [State.snapshot_pre, h']; decide
  · rfl

/-- An instruction whose checks pass has its effect on `State.begun`. -/
theorem State.run_clear {s : State} {i : Instr} {sp : Spans} (h : s.Clear i sp) (f : State → State) :
    s.run i sp f = f (s.begun i sp) := by
  simp only [State.run, State.start_clear h]

/-- Every constructor has a meaning that goes on: what the spec calls a trap, a park or an abort is a next state. -/
theorem exec_next (i : Instr) (s : State) : ∃ t, exec i s = .next t := by
  cases i <;> exact ⟨_, rfl⟩

end Sys2Proof.Machine
end

