-- ==== Sys2Proof/Laws/Compute.lean ====
section
/-! SUPPORT. What writing results does (R42, R74 to R76), and with it the spec lemmas of the register-to-register instructions:
`alu_computes` and `cross_computes`. -/
namespace Sys2Proof.Machine

/-! ## Registers of one lane -/

/-- Writing n registers of a lane of a wave. -/
def putRegs (w : Wave) (l base n v : Nat) : Wave := (List.range n).foldl (fun w j => w.putV l (base + j) (wordAt v j)) w

theorem Wave.touch_kept (w : Wave) (x : Nat) : w.Kept (w.touch x) ∧ (w.touch x).lanes = w.lanes ∧ (w.touch x).s = w.s ∧
    (w.touch x).slatch = w.slatch ∧ (w.touch x).fcsr = w.fcsr ∧ (w.touch x).wstat = w.wstat := by
  simp only [Wave.touch]; split <;> exact ⟨rfl, rfl, rfl, rfl, rfl, rfl⟩

theorem Wave.putV_kept (w : Wave) (l r : Nat) (v : Word) : w.Kept (w.putV l r v) ∧
    (w.putV l r v).lanes = w.lanes.mod l (fun x => { x with v := x.v.set 0 r v }) ∧ (w.putV l r v).s = w.s ∧
    (w.putV l r v).slatch = w.slatch ∧ (w.putV l r v).fcsr = w.fcsr ∧ (w.putV l r v).wstat = w.wstat := by
  obtain ⟨a, b, c, d, e, f⟩ := (w.modLane l fun x => { x with v := x.v.set 0 r v }).touch_kept (vline r)
  refine ⟨Wave.Kept.trans (b := w.modLane l fun x => { x with v := x.v.set 0 r v }) rfl a, b, c, d, e, f⟩

/-- What writing registers of a lane leaves: everything but those registers. -/
structure WroteRegs (w w' : Wave) (l base n v : Nat) : Prop where
  kept : w.Kept w'
  s : w'.s = w.s
  slatch : w'.slatch = w.slatch
  fcsr : w'.fcsr = w.fcsr
  wstat : w'.wstat = w.wstat
  find : ∀ j, (w'.lanes.find? j).isSome = (w.lanes.find? j).isSome
  other : ∀ j, j ≠ l → w'.lane j = w.lane j
  lane : { w'.lane l with v := (w.lane l).v } = w.lane l
  reg : (w.lanes.find? l).isSome → ∀ r, (w'.lane l).reg r =
    if base ≤ r ∧ r < base + n then wordAt v (r - base) else (w.lane l).reg r

theorem putRegs_wrote (w : Wave) (l base n v : Nat) : WroteRegs w (putRegs w l base n v) l base n v := by
  induction n with
  | zero =>
    refine ⟨rfl, rfl, rfl, rfl, rfl, fun _ => rfl, fun _ _ => rfl, rfl, fun _ r => ?_⟩
    rw [if_neg (by omega)]; rfl
  | succ n ih =>
    have e : putRegs w l base (n + 1) v = (putRegs w l base n v).putV l (base + n) (wordAt v n) := by
      simp [putRegs, List.range_succ]
    obtain ⟨a, b, c, d, f, g⟩ := (putRegs w l base n v).putV_kept l (base + n) (wordAt v n)
    rw [e]
    refine ⟨ih.kept.trans a, c.trans ih.s, d.trans ih.slatch, f.trans ih.fcsr, g.trans ih.wstat, fun j => ?_, fun j hj => ?_, ?_, ?_⟩
    · rw [b, Tbl.find_mod, ← ih.find j]; split <;> simp
    · rw [← ih.other j hj]; simp only [Wave.lane, b, Tbl.get_mod, Ne.symm hj, false_and, ↓reduceIte]
    · have h := ih.lane
      simp only [Wave.lane, b, Tbl.get_mod] at h ⊢
      split
      · exact h
      · exact h
    · intro hl r
      have hl' : ((putRegs w l base n v).lanes.find? l).isSome := by rw [ih.find]; exact hl
      have h := ih.reg hl r
      simp only [Wave.lane, b, Tbl.get_mod, hl', and_self, ↓reduceIte, Lane.reg, Tbl.get_set] at h ⊢
      split
      · subst_vars; rw [if_pos (by omega)]; congr 1; omega
      · rw [h]; split <;> split <;> first | rfl | omega

/-! ## Results of lanes -/

/-- What writing the results of some lanes leaves of a state: only their result registers and their latches, and the record of what
this clk has shifted. -/
structure State.WroteLanes (s t : State) (ls : List Nat) (nw sw : Bool) (base n : Nat) (val : Nat → Nat) : Prop where
  elsewhere : s.Elsewhere t
  there : (t.waves.find? t.cur.wave).isSome = (s.waves.find? s.cur.wave).isSome
  cur : { t.cur with shifted := s.cur.shifted } = s.cur
  kept : s.w.Kept t.w
  sregs : t.w.s = s.w.s
  slatch : t.w.slatch = s.w.slatch
  fcsr : t.w.fcsr = s.w.fcsr
  wstat : t.w.wstat = s.w.wstat
  find : ∀ j, (t.w.lanes.find? j).isSome = (s.w.lanes.find? j).isSome
  lane : ∀ j, { t.w.lane j with v := (s.w.lane j).v, latch := (s.w.lane j).latch } = s.w.lane j
  reg : ∀ l r, (t.w.lane l).reg r =
    if l ∈ ls ∧ nw = false ∧ base ≤ r ∧ r < base + n then wordAt (val l) (r - base) else (s.w.lane l).reg r
  latch : ∀ l, (t.w.lane l).latch =
    if l ∈ ls ∧ sw = false then shiftLatch (s.w.lane l).latch (BitVec.ofNat 64 (val l)) else (s.w.lane l).latch

theorem State.WroteLanes.wave {s t : State} {ls nw sw base n val} (h : s.WroteLanes t ls nw sw base n val) :
    t.cur.wave = s.cur.wave := by have := congrArg Cur.wave h.cur; exact this

theorem State.WroteLanes.nil (s : State) (nw sw : Bool) (base n : Nat) (val : Nat → Nat) : s.WroteLanes s [] nw sw base n val :=
  ⟨.refl s, rfl, rfl, rfl, rfl, rfl, rfl, rfl, fun _ => rfl, fun _ => rfl, fun _ _ => by simp, fun _ => by simp⟩

theorem State.WroteLanes.trans {a b c : State} {ls ms : List Nat} {nw sw : Bool} {base n : Nat} {val : Nat → Nat}
    (h : a.WroteLanes b ls nw sw base n val) (h' : b.WroteLanes c ms nw sw base n val) (hd : ∀ l ∈ ms, l ∉ ls) :
    a.WroteLanes c (ls ++ ms) nw sw base n val where
  elsewhere := h.elsewhere.trans h.wave h'.elsewhere
  there := h'.there.trans h.there
  cur := Eq.trans (congrArg (fun x : Cur => { x with shifted := a.cur.shifted }) h'.cur) h.cur
  kept := h.kept.trans h'.kept
  sregs := h'.sregs.trans h.sregs
  slatch := h'.slatch.trans h.slatch
  fcsr := h'.fcsr.trans h.fcsr
  wstat := h'.wstat.trans h.wstat
  find j := (h'.find j).trans (h.find j)
  lane j := Eq.trans (congrArg (fun x : Lane => { x with v := (a.w.lane j).v, latch := (a.w.lane j).latch }) (h'.lane j)) (h.lane j)
  reg l r := by
    rw [h'.reg, h.reg]
    by_cases h1 : l ∈ ms <;> by_cases h2 : l ∈ ls <;> simp [h1, h2]
    exact absurd h2 (hd l h1)
  latch l := by
    rw [h'.latch, h.latch]
    by_cases h1 : l ∈ ms <;> by_cases h2 : l ∈ ls <;> simp [h1, h2]
    exact absurd h2 (hd l h1)

theorem noLane (l : Nat) : (0 : BitVec 32).getLsbD l = false := by simp

/-- In a clk that has frozen nothing, a lane's registers are simply written. -/
theorem State.writeLane_eq (s : State) (vb l : Nat) (d : Code) (n v : Nat) (hf : s.cur.frozen = []) (hl : s.cur.frozenLanes = 0) :
    s.writeLane vb l d n v = s.modWave s.cur.wave fun w => putRegs w l (vb + d.toNat) n v := by
  simp only [State.writeLane, hl, hf, noLane, Bool.false_eq_true, ↓reduceIte, List.contains_nil, putRegs]

/-- Writing the registers of one lane. -/
theorem State.writeLane_wrote (s : State) (vb l : Nat) (d : Code) (n v : Nat) (hw : (s.waves.find? s.cur.wave).isSome)
    (hl : (s.w.lanes.find? l).isSome) (hf : s.cur.frozen = []) (hfl : s.cur.frozenLanes = 0) (val : Nat → Nat) (hv : val l = v) :
    s.WroteLanes (s.writeLane vb l d n v) [l] false true (vb + d.toNat) n val := by
  rw [s.writeLane_eq vb l d n v hf hfl]
  have hwv : (s.modWave s.cur.wave fun w => putRegs w l (vb + d.toNat) n v).w = putRegs s.w l (vb + d.toNat) n v :=
    State.wave_modWave s _ hw
  have h := putRegs_wrote s.w l (vb + d.toNat) n v
  refine ⟨⟨rfl, fun k hk => ?_⟩, State.there_modWave _ _ _ _, rfl, ?_, ?_, ?_, ?_, ?_, fun j => ?_, fun j => ?_, fun j r => ?_, fun j => ?_⟩
  · rw [State.find_modWave, if_neg (Ne.symm hk)]
  · rw [hwv]; exact h.kept
  · rw [hwv]; exact h.s
  · rw [hwv]; exact h.slatch
  · rw [hwv]; exact h.fcsr
  · rw [hwv]; exact h.wstat
  · rw [hwv]; exact h.find j
  · rw [hwv]
    by_cases hj : j = l
    · subst hj
      have := congrArg (fun x : Lane => { x with latch := (s.w.lane j).latch }) h.lane
      exact this
    · rw [h.other j hj]
  · rw [hwv]
    by_cases hj : j = l
    · subst hj; rw [h.reg hl r, hv]; simp
    · rw [h.other j hj]; simp [hj]
  · rw [hwv]
    simp only [Bool.true_eq_false, and_false, ↓reduceIte]
    by_cases hj : j = l
    · subst hj; have := congrArg Lane.latch h.lane; exact this
    · rw [h.other j hj]

/-- Shifting a result into the latches of one lane. -/
theorem State.shiftLane_wrote (s : State) (l v base n : Nat) (hw : (s.waves.find? s.cur.wave).isSome)
    (hl : (s.w.lanes.find? l).isSome) (hfl : s.cur.frozenLanes = 0) (val : Nat → Nat) (hv : val l = v) :
    s.WroteLanes (s.shiftLane l v) [l] true false base n val := by
  have e : s.shiftLane l v = { s.modLane s.cur.wave l fun x => { x with latch := shiftLatch x.latch (BitVec.ofNat 64 v) } with
      cur := { s.cur with shifted := s.cur.shifted ||| (1#32 <<< l) } } := by
    unfold State.shiftLane; rw [if_neg (by rw [hfl, noLane]; decide)]
    rfl
  rw [e]
  have hwv : ({ s.modLane s.cur.wave l fun x => { x with latch := shiftLatch x.latch (BitVec.ofNat 64 v) } with
      cur := { s.cur with shifted := s.cur.shifted ||| (1#32 <<< l) } } : State).w =
      s.w.modLane l fun x => { x with latch := shiftLatch x.latch (BitVec.ofNat 64 v) } :=
    State.wave_modWave s (fun w => w.modLane l fun x => { x with latch := shiftLatch x.latch (BitVec.ofNat 64 v) }) hw
  have ht := State.there_modWave s s.cur.wave s.cur.wave fun w => w.modLane l fun x => { x with latch := shiftLatch x.latch (BitVec.ofNat 64 v) }
  refine ⟨⟨rfl, fun k hk => ?_⟩, ht, rfl, ?_, ?_, ?_, ?_, ?_, fun j => ?_, fun j => ?_, fun j r => ?_, fun j => ?_⟩
  · have := State.find_modWave s s.cur.wave k fun w => w.modLane l fun x => { x with latch := shiftLatch x.latch (BitVec.ofNat 64 v) }
    rw [if_neg (Ne.symm hk)] at this; exact this
  · rw [hwv]; rfl
  · rw [hwv]; rfl
  · rw [hwv]; rfl
  · rw [hwv]; rfl
  · rw [hwv]; rfl
  · rw [hwv]; simp only [Wave.modLane, Tbl.find_mod]; split <;> simp
  · rw [hwv, Wave.lane_modLane]; split <;> rfl
  · rw [hwv, Wave.lane_modLane]; simp only [Bool.true_eq_false, false_and, and_false, ↓reduceIte]; split <;> rfl
  · rw [hwv, Wave.lane_modLane]
    by_cases hj : j = l
    · subst hj; simp [hl, hv]
    · simp [hj, Ne.symm hj]

/-! ## Results of a group -/

theorem State.WroteLanes.frozen {s t : State} {ls nw sw base n val} (h : s.WroteLanes t ls nw sw base n val) :
    t.cur.frozen = s.cur.frozen ∧ t.cur.frozenLanes = s.cur.frozenLanes ∧ t.cur.pre = s.cur.pre := by
  have h1 := congrArg Cur.frozen h.cur
  have h2 := congrArg Cur.frozenLanes h.cur
  have h3 := congrArg Cur.pre h.cur
  exact ⟨h1, h2, h3⟩

/-- One lane's dst_write (R139). -/
theorem State.dstLane_wrote (s : State) (i : Instr) (o : Ops) (l n : Nat) (hw : (s.waves.find? s.cur.wave).isSome)
    (hl : (s.w.lanes.find? l).isSome) (hf : s.cur.frozen = []) (hfl : s.cur.frozenLanes = 0) (hp : s.cur.pre.isSome)
    (val : Nat → Nat) :
    s.WroteLanes (s.dstLane i o l n (val l)) [l] (nwOf i) (isSwitch i) (s.pre.vb + o.d.toNat) n val := by
  let base := s.pre.vb + o.d.toNat
  let a := if nwOf i then s else s.writeLane s.pre.vb l o.d n (val l)
  have e : s.dstLane i o l n (val l) = if isSwitch i then a else a.shiftLane l (val l) := rfl
  have ha : s.WroteLanes a [l] (nwOf i) true base n val := by
    simp only [a]; split
    · rename_i h; rw [h]
      exact ⟨.refl s, rfl, rfl, rfl, rfl, rfl, rfl, rfl, fun _ => rfl, fun _ => rfl, fun _ _ => by simp, fun _ => by simp⟩
    · rename_i h; rw [eq_false_of_ne_true h]
      exact s.writeLane_wrote s.pre.vb l o.d n (val l) hw hl hf hfl val rfl
  rw [e]
  split
  · rename_i h; rw [h]; exact ha
  · rename_i h; rw [eq_false_of_ne_true h]
    have hb := a.shiftLane_wrote l (val l) base n (by rw [ha.there]; exact hw) (by rw [ha.find]; exact hl)
      (by rw [ha.frozen.2.1]; exact hfl) val rfl
    exact { elsewhere := ha.elsewhere.trans ha.wave hb.elsewhere
            there := hb.there.trans ha.there
            cur := Eq.trans (congrArg (fun x : Cur => { x with shifted := s.cur.shifted }) hb.cur) ha.cur
            kept := ha.kept.trans hb.kept
            sregs := hb.sregs.trans ha.sregs
            slatch := hb.slatch.trans ha.slatch
            fcsr := hb.fcsr.trans ha.fcsr
            wstat := hb.wstat.trans ha.wstat
            find := fun j => (hb.find j).trans (ha.find j)
            lane := fun j => Eq.trans (congrArg (fun x : Lane => { x with v := (s.w.lane j).v, latch := (s.w.lane j).latch })
              (hb.lane j)) (ha.lane j)
            reg := fun j r => by rw [hb.reg, ha.reg]; simp; rfl
            latch := fun j => by rw [hb.latch, ha.latch]; simp }

/-- The group's dst_writes, in ascending lane order. -/
theorem State.dstLanes_wrote (i : Instr) (o : Ops) (n : Nat) (val : Nat → Nat) (ls : List Nat) (s : State)
    (hw : (s.waves.find? s.cur.wave).isSome) (hl : ∀ l ∈ ls, (s.w.lanes.find? l).isSome) (hf : s.cur.frozen = [])
    (hfl : s.cur.frozenLanes = 0) (hp : s.cur.pre.isSome) (hd : ls.Nodup) :
    s.WroteLanes (ls.foldl (fun s l => s.dstLane i o l n (val l)) s) ls (nwOf i) (isSwitch i) (s.pre.vb + o.d.toNat) n val := by
  induction ls generalizing s with
  | nil => exact .nil s _ _ _ _ _
  | cons l ls ih =>
    have h1 := s.dstLane_wrote i o l n hw (hl l (by simp)) hf hfl hp val
    have hd' := List.nodup_cons.1 hd
    have h2 := ih (s.dstLane i o l n (val l)) (by rw [h1.there]; exact hw)
      (fun j hj => by rw [h1.find]; exact hl j (by simp [hj])) (by rw [h1.frozen.1]; exact hf)
      (by rw [h1.frozen.2.1]; exact hfl) (by rw [h1.frozen.2.2]; exact hp) hd'.2
    have hpre : (s.dstLane i o l n (val l)).pre = s.pre := by
      obtain ⟨p, hp⟩ := Option.isSome_iff_exists.1 hp
      simp only [State.pre, h1.frozen.2.2, hp, Option.getD_some]
    rw [hpre] at h2
    exact h1.trans h2 fun j hj hj' => by
      simp only [List.mem_singleton] at hj'; subst hj'; exact hd'.1 hj

theorem lanesOf_nodup (m : BitVec 32) : (lanesOf m).Nodup := List.Pairwise.filter _ List.nodup_range

theorem mem_lanesOf (m : BitVec 32) (l : Nat) : l ∈ lanesOf m ↔ m.getLsbD l = true := by
  simp only [lanesOf, List.mem_filter, List.mem_range, and_iff_right_iff_imp]
  intro h
  exact Decidable.byContradiction fun hl => by rw [BitVec.getLsbD_of_ge _ _ (by omega)] at h; cases h

theorem maskOf_lanesOf_bit (ls : List Nat) (l : Nat) : (maskOf ls).getLsbD l = (decide (l < 32) && ls.contains l) := by
  have key : ∀ (ls : List Nat) (m : BitVec 32), (ls.foldl (fun m l => m ||| (1#32 <<< l)) m).getLsbD l =
      (m.getLsbD l || (decide (l < 32) && ls.contains l)) := by
    intro ls
    induction ls with
    | nil => intro m; simp
    | cons x xs ih =>
      intro m
      rw [List.foldl_cons, ih]
      simp only [BitVec.getLsbD_or, BitVec.getLsbD_shiftLeft, List.contains_cons, BitVec.getLsbD_one]
      by_cases h : l < 32
      · by_cases hx : l = x
        · subst hx; simp [h]
        · have hne : (l == x) = false := by simp [hx]
          by_cases h2 : l < x
          · simp [h, hne, h2]
          · have : l - x ≠ 0 := by omega
            simp [h, hne, this]
      · simp [h]
  rw [maskOf, key]; simp

theorem maskOf_lanesOf (m : BitVec 32) : maskOf (lanesOf m) = m := by
  apply BitVec.eq_of_getLsbD_eq
  intro l hl
  rw [maskOf_lanesOf_bit]
  have := mem_lanesOf m l
  cases h : m.getLsbD l <;> simp_all

/-! ## The wave's results, and going on -/

/-- Writing n scalar registers of a wave. -/
def putScalars (w : Wave) (base n v : Nat) : Wave := (List.range n).foldl (fun w j => w.putS (base + j) (wordAt v j)) w

theorem putScalars_wrote (w : Wave) (base n v : Nat) : w.Kept (putScalars w base n v) ∧ (putScalars w base n v).lanes = w.lanes ∧
    (putScalars w base n v).slatch = w.slatch ∧ (putScalars w base n v).fcsr = w.fcsr ∧
    (putScalars w base n v).wstat = w.wstat ∧
    ∀ m, (putScalars w base n v).sreg m = if base ≤ m ∧ m < base + n then wordAt v (m - base) else w.sreg m := by
  induction n with
  | zero => exact ⟨rfl, rfl, rfl, rfl, rfl, fun m => (if_neg (by omega)).symm⟩
  | succ n ih =>
    obtain ⟨a, b, c, d, e, f⟩ := ih
    have eq : putScalars w base (n + 1) v = (putScalars w base n v).putS (base + n) (wordAt v n) := by
      simp [putScalars, List.range_succ]
    obtain ⟨a', b', c', d', e', f'⟩ := ({ putScalars w base n v with
      s := (putScalars w base n v).s.set 0 (base + n) (wordAt v n) } : Wave).touch_kept (sline (base + n))
    have hk : (putScalars w base n v).Kept { putScalars w base n v with s := (putScalars w base n v).s.set 0 (base + n) (wordAt v n) } := rfl
    rw [eq]
    refine ⟨a.trans (hk.trans a'), b'.trans b, d'.trans c, e'.trans d, f'.trans e, fun m => ?_⟩
    have hm : ((putScalars w base n v).putS (base + n) (wordAt v n)).sreg m =
        if base + n = m then wordAt v n else (putScalars w base n v).sreg m := by
      simp only [Wave.sreg, Wave.putS, c', Tbl.get_set]
    rw [hm, f]
    split
    · subst_vars; rw [if_pos (by omega)]; congr 1; omega
    · split <;> split <;> first | rfl | omega

/-- In a clk that has frozen no line, scalar registers are simply written. -/
theorem State.writeWave_eq (s : State) (sb : Nat) (d : Code) (n v : Nat) (hf : s.cur.frozenLines = []) :
    s.writeWave sb d n v = s.modWave s.cur.wave fun w => putScalars w (sb + d.toNat) n v := by
  simp only [State.writeWave, hf, List.contains_nil, Bool.false_eq_true, ↓reduceIte, putScalars]

/-- In a clk that has frozen nothing, lanes go on past the instruction. -/
theorem State.advance_eq (s : State) (m : BitVec 32) (hfl : s.cur.frozenLanes = 0) :
    s.advance m = s.modLanes s.cur.wave m fun _ l => { l with pc := s.nextPc, life := .ready } := by
  have : m &&& ~~~(0 : BitVec 32) = m := BitVec.and_allOnes
  simp only [State.advance, State.jump, State.thawed, hfl, this]

/-- Going on past an instruction changes the PC and the life of the group's lanes. -/
theorem State.advance_spec (s : State) (hfl : s.cur.frozenLanes = 0) (hw : (s.waves.find? s.cur.wave).isSome) :
    s.Elsewhere (s.advance s.mask) ∧ (s.advance s.mask).cur = s.cur ∧
      { (s.advance s.mask).w with lanes := s.w.lanes } = s.w ∧
      ∀ l, (s.advance s.mask).w.lane l =
        if s.mask.getLsbD l = true ∧ (s.w.lanes.find? l).isSome = true then { s.w.lane l with pc := s.nextPc, life := .ready } else s.w.lane l := by
  rw [s.advance_eq s.mask hfl]
  have hwv : (s.modLanes s.cur.wave s.mask fun _ l => { l with pc := s.nextPc, life := .ready }).w =
      s.w.modLanes s.mask fun _ l => { l with pc := s.nextPc, life := .ready } :=
    State.wave_modWave s (fun w => w.modLanes s.mask fun _ l => { l with pc := s.nextPc, life := .ready }) hw
  refine ⟨⟨rfl, fun k hk => ?_⟩, rfl, by rw [hwv]; rfl, fun l => by rw [hwv, Wave.lane_modLanes]⟩
  have := State.find_modWave s s.cur.wave k fun w => w.modLanes s.mask fun _ l => { l with pc := s.nextPc, life := .ready }
  rw [if_neg (Ne.symm hk)] at this; exact this

/-! ## The effect of a register-to-register instruction -/

/-- Raising flags changes FCSR and what the clk records of it. -/
theorem State.raiseFlags_spec (s : State) (fl : Flags) (hw : (s.waves.find? s.cur.wave).isSome) :
    s.Elsewhere (s.raiseFlags s.cur.wave fl) ∧ { (s.raiseFlags s.cur.wave fl).cur with raised := s.cur.raised } = s.cur ∧
      ((s.raiseFlags s.cur.wave fl).waves.find? s.cur.wave).isSome ∧
      (s.raiseFlags s.cur.wave fl).w = { s.w with fcsr := s.w.fcsr ||| fl.zeroExtend 32 } := by
  have hwv := State.wave_modWave s (fun w => { w with fcsr := w.fcsr ||| fl.zeroExtend 32 }) hw
  have ht := State.there_modWave s s.cur.wave s.cur.wave fun w => { w with fcsr := w.fcsr ||| fl.zeroExtend 32 }
  simp only [State.raiseFlags, State.modWave_cur, ↓reduceIte]
  refine ⟨⟨rfl, fun k hk => ?_⟩, trivial, by rw [← hw]; exact ht, hwv⟩
  have := State.find_modWave s s.cur.wave k fun w => { w with fcsr := w.fcsr ||| fl.zeroExtend 32 }
  rw [if_neg (Ne.symm hk)] at this; exact this

/-- Where no lane raises an enabled flag, a vector instruction writes and goes on in every lane. -/
theorem State.compute_vector (s : State) (i : Instr) (o : Ops) (n : Nat) (f : Nat → FRes) (ho : o.s = false)
    (hno : ∀ l ∈ lanesOf s.mask, (f l).flags &&& fcsrEn s.pre.fcsr = 0) :
    s.compute i o n f = ((lanesOf s.mask).foldl (fun s l => s.dstLane i o l n (f l).bits)
      (s.raiseFlags s.cur.wave (flagsOf (lanesOf s.mask) f))).advance s.mask := by
  have h1 : (((lanesOf s.mask).map fun l => (l, f l)).filter fun r => r.2.flags &&& fcsrEn s.pre.fcsr == 0) =
      (lanesOf s.mask).map fun l => (l, f l) := by
    rw [List.filter_eq_self]
    intro r hr
    obtain ⟨l, hl, rfl⟩ := List.mem_map.1 hr
    simp [hno l hl]
  have h2 : (((lanesOf s.mask).map fun l => (l, f l)).filter fun r => r.2.flags &&& fcsrEn s.pre.fcsr != 0) = [] := by
    rw [List.filter_eq_nil_iff]
    intro r hr
    obtain ⟨l, hl, rfl⟩ := List.mem_map.1 hr
    simp [hno l hl]
  simp only [State.compute, ho, Bool.false_eq_true, ↓reduceIte, h1, h2, List.isEmpty_nil, List.map_map, List.foldl_map]
  simp only [Function.comp_def, List.map_id', maskOf_lanesOf, flagsOf]

/-- The result of a vector instruction. -/
theorem State.compute_vector_result {s : State} {i : Instr} {o : Ops} {sp : Spans} (h : s.Clear i sp) (f : Nat → FRes)
    (ho : o.s = false) (hno : ∀ l ∈ lanesOf s.mask, (f l).flags &&& fcsrEn s.pre.fcsr = 0) :
    s.Result ((s.begun i sp).compute i o sp.d f) i o sp (fun l => (f l).bits) (flagsOf (lanesOf s.mask) f) := by
  obtain ⟨hb, hp⟩ := State.begun_soft h
  obtain ⟨hwst, hmark⟩ := State.begun_marks h
  have hg := hb.group h.toGroup
  have hmask : (s.begun i sp).mask = s.mask := hb.mask
  have hpre : (s.begun i sp).pre = s.pre := by simp only [State.pre, hp, Option.getD_some]
  rw [State.compute_vector _ i o sp.d f ho (by rw [hmask, hpre]; exact hno), hmask]
  generalize hfl : flagsOf (lanesOf s.mask) f = fl
  obtain ⟨e1, e2, e3, e4⟩ := (s.begun i sp).raiseFlags_spec fl hg.wave
  generalize hr : (s.begun i sp).raiseFlags (s.begun i sp).cur.wave fl = r at e1 e2 e3 e4
  have rw1 : r.cur.wave = s.cur.wave := by have := congrArg Cur.wave e2; exact Eq.trans this hb.wave
  have rfz : r.cur.frozen = [] := by have := congrArg Cur.frozen e2; exact Eq.trans this hg.frozen
  have rfl' : r.cur.frozenLanes = 0 := by have := congrArg Cur.frozenLanes e2; exact Eq.trans this hg.frozenLanes
  have rpre : r.cur.pre = some s.pre := by have := congrArg Cur.pre e2; exact Eq.trans this hp
  have rmask : r.mask = s.mask := by have := congrArg Cur.mask e2; exact Eq.trans this hb.mask
  have rnext : r.nextPc = s.nextPc := by
    have a := congrArg Cur.pc e2; have b := congrArg Cur.len e2
    have a' : r.cur.pc = s.cur.pc := Eq.trans a hb.pc
    have b' : r.cur.len = s.cur.len := Eq.trans b hb.len
    simp only [State.nextPc, a', b']
  have rw2 : r.pre = s.pre := by simp only [State.pre, rpre, Option.getD_some]
  have hwr := State.dstLanes_wrote i o sp.d (fun l => (f l).bits) (lanesOf s.mask) r (by rw [rw1, ← hb.wave]; exact e3)
    (fun l hl => by
      have := hg.lanes l (by rw [hmask]; exact (mem_lanesOf _ _).1 hl)
      rw [e4]; exact this) rfz rfl' (by rw [rpre]; rfl) (lanesOf_nodup _)
  generalize hd : (lanesOf s.mask).foldl (fun s l => s.dstLane i o l sp.d (f l).bits) r = d at hwr
  rw [rw2] at hwr
  have dfl : d.cur.frozenLanes = 0 := by rw [hwr.frozen.2.1]; exact rfl'
  have dmask : d.mask = s.mask := by have := congrArg Cur.mask hwr.cur; exact Eq.trans this rmask
  have dwave : d.cur.wave = s.cur.wave := hwr.wave.trans rw1
  have dnext : d.nextPc = s.nextPc := by
    have a := congrArg Cur.pc hwr.cur; have b := congrArg Cur.len hwr.cur
    have a' : d.cur.pc = r.cur.pc := a
    have b' : d.cur.len = r.cur.len := b
    rw [← rnext]; simp only [State.nextPc, a', b']
  obtain ⟨a1, a2, a3, a4⟩ := d.advance_spec dfl (by rw [hwr.there, rw1, ← hb.wave]; exact e3)
  rw [dmask] at a1 a2 a3 a4
  have hw' : ∀ l, (r.w.lane l) = (s.begun i sp).w.lane l := fun l => by rw [e4]; rfl
  have hfind : ∀ l, s.mask.getLsbD l = true → (d.w.lanes.find? l).isSome = true := fun l hl => by
    rw [hwr.find, e4]; exact hg.lanes l (by rw [hmask]; exact hl)
  have tlane : ∀ l, (d.advance s.mask).w.lane l =
      if s.mask.getLsbD l = true then { d.w.lane l with pc := s.nextPc, life := .ready } else d.w.lane l := fun l => by
    rw [a4 l, dnext]
    by_cases hl : s.mask.getLsbD l = true
    · simp [hl, hfind l hl]
    · simp [hl]
  have w3 : ∀ {α : Type} (g : Wave → α), g { (d.advance s.mask).w with lanes := d.w.lanes } = g d.w := fun g => congrArg g a3
  have dl : ∀ {α : Type} (g : Lane → α) (l : Nat), g { d.w.lane l with v := (r.w.lane l).v, latch := (r.w.lane l).latch } =
      g (r.w.lane l) := fun g l => congrArg g (hwr.lane l)
  refine ⟨?_, ?_, fun l => ?_, fun l x => ?_, fun m => ?_, fun l hl => ?_, fun l hl => ?_, fun hsw l => ?_, fun hsw => ?_, ?_, ?_⟩
  · exact ((hb.elsewhere.trans hb.wave e1).trans rw1 hwr.elsewhere).trans dwave a1
  · have k1 : (s.begun i sp).w.Kept r.w := by rw [e4]; rfl
    have k2 : d.w.Kept (d.advance s.mask).w := by
      have := congrArg (fun x : Wave => { x with
        s := d.w.s, slatch := d.w.slatch, run := d.w.run, shadow := d.w.shadow, dirty := d.w.dirty, used := d.w.used, fcsr := d.w.fcsr,
        wstat := d.w.wstat }) a3
      exact this
    exact ((hb.kept.trans k1).trans hwr.kept).trans k2
  · have k1 : (r.w.lane l).Kept (d.w.lane l) := by
      have := congrArg (fun x : Lane => { x with pc := (r.w.lane l).pc, life := (r.w.lane l).life }) (hwr.lane l)
      exact this
    have k2 : (d.w.lane l).Kept ((d.advance s.mask).w.lane l) := by rw [tlane]; split <;> rfl
    have k0 := (hb.lane l).2.1
    rw [← hw' l] at k0
    exact (k0.trans k1).trans k2
  · have hv : ((d.advance s.mask).w.lane l).reg x = (d.w.lane l).reg x := by rw [tlane]; split <;> rfl
    rw [hv, hwr.reg, hw' l]
    have hreg : ((s.begun i sp).w.lane l).reg x = (s.w.lane l).reg x := by simp only [Lane.reg, (hb.lane l).2.2.1]
    simp only [hreg, mem_lanesOf]
    cases s.mask.getLsbD l <;> cases nwOf i <;> simp [ho, inSpan]
  · have hs1 : (d.advance s.mask).w.s = s.w.s := by
      have c1 := w3 Wave.s; have c2 : r.w.s = (s.begun i sp).w.s := by rw [e4]
      exact ((Eq.trans c1 hwr.sregs).trans c2).trans hb.sregs
    simp only [Wave.sreg, hs1, ho, Bool.false_and, Bool.false_eq_true, ↓reduceIte]
  · rw [tlane, if_pos hl]; exact ⟨rfl, rfl⟩
  · rw [tlane, if_neg (by rw [hl]; decide)]
    have p1 := dl Lane.pc l; have p2 := dl Lane.life l
    have q1 : (d.w.lane l).pc = (r.w.lane l).pc := p1
    have q2 : (d.w.lane l).life = (r.w.lane l).life := p2
    rw [q1, q2, hw']; exact ⟨(hb.lane l).2.2.2.1, (hb.lane l).2.2.2.2⟩
  · have hv : ((d.advance s.mask).w.lane l).latch = (d.w.lane l).latch := by rw [tlane]; split <;> rfl
    rw [hv, hwr.latch, hw' l, (hmark hsw).2 l]
    simp only [mem_lanesOf]
    cases s.mask.getLsbD l <;> simp [hsw, ho, latchesAfter]
  · have c1 := w3 Wave.slatch; have c2 : r.w.slatch = (s.begun i sp).w.slatch := by rw [e4]
    have := ((Eq.trans c1 hwr.slatch).trans c2).trans (hmark hsw).1
    simp only [ho, latchesAfter, Bool.false_eq_true, ↓reduceIte]; exact this
  · have c1 := w3 Wave.fcsr; have c2 : r.w.fcsr = (s.begun i sp).w.fcsr ||| fl.zeroExtend 32 := by rw [e4]
    rw [hb.fcsr] at c2
    exact (Eq.trans c1 hwr.fcsr).trans c2
  · have c1 := w3 Wave.wstat; have c2 : r.w.wstat = (s.begun i sp).w.wstat := by rw [e4]
    exact ((Eq.trans c1 hwr.wstat).trans c2).trans hwst

/-- Writing the wave's result changes its scalar registers and their latches, and the record of the clk. -/
theorem State.dstWave_wrote (s : State) (i : Instr) (o : Ops) (n v : Nat) (hw : (s.waves.find? s.cur.wave).isSome)
    (hf : s.cur.frozenLines = []) :
    s.Elsewhere (s.dstWave i o n v) ∧ { (s.dstWave i o n v).cur with shiftedS := s.cur.shiftedS } = s.cur ∧
      ((s.dstWave i o n v).waves.find? s.cur.wave).isSome ∧ s.w.Kept (s.dstWave i o n v).w ∧
      (s.dstWave i o n v).w.lanes = s.w.lanes ∧ (s.dstWave i o n v).w.fcsr = s.w.fcsr ∧
      (s.dstWave i o n v).w.wstat = s.w.wstat ∧
      (s.dstWave i o n v).w.slatch = (if isSwitch i then s.w.slatch else shiftLatch s.w.slatch (BitVec.ofNat 64 v)) ∧
      ∀ m, (s.dstWave i o n v).w.sreg m =
        if nwOf i = false ∧ s.pre.sb + o.d.toNat ≤ m ∧ m < s.pre.sb + o.d.toNat + n then wordAt v (m - (s.pre.sb + o.d.toNat))
        else s.w.sreg m := by
  obtain ⟨p1, p2, p3, p4, p5, p6⟩ := putScalars_wrote s.w (s.pre.sb + o.d.toNat) n v
  let g : Wave → Wave := fun w => if nwOf i then w else putScalars w (s.pre.sb + o.d.toNat) n v
  let h : Wave → Wave := fun w => if isSwitch i then w else { w with slatch := shiftLatch w.slatch (BitVec.ofNat 64 v) }
  have hg : s.w.Kept (g s.w) ∧ (g s.w).lanes = s.w.lanes ∧ (g s.w).slatch = s.w.slatch ∧ (g s.w).fcsr = s.w.fcsr ∧
      (g s.w).wstat = s.w.wstat ∧ ∀ m, (g s.w).sreg m =
        if nwOf i = false ∧ s.pre.sb + o.d.toNat ≤ m ∧ m < s.pre.sb + o.d.toNat + n then wordAt v (m - (s.pre.sb + o.d.toNat))
        else s.w.sreg m := by
    simp only [g]; split
    · rename_i hn; exact ⟨rfl, rfl, rfl, rfl, rfl, fun m => by simp [hn]⟩
    · rename_i hn; exact ⟨p1, p2, p3, p4, p5, fun m => by simp [p6 m, hn]⟩
  have a0 : (if nwOf i then s else s.writeWave s.pre.sb o.d n v) = if nwOf i then s else s.modWave s.cur.wave g := by
    split
    · rfl
    · rename_i hn; rw [s.writeWave_eq s.pre.sb o.d n v hf]; simp only [g, if_neg hn]
  obtain ⟨a, ha⟩ : ∃ a, a = if nwOf i then s else s.modWave s.cur.wave g := ⟨_, rfl⟩
  have e : s.dstWave i o n v = if isSwitch i then a else a.shiftWave v := by
    simp only [State.dstWave, a0, ha]
  have hgid : nwOf i = true → g s.w = s.w := fun hn => by simp only [g, if_pos hn]
  have acur : a.cur = s.cur := by rw [ha]; split <;> rfl
  have aw : a.w = g s.w := by
    rw [ha]; split
    · rename_i hn; exact (hgid hn).symm
    · exact State.wave_modWave s g hw
  have aels : s.Elsewhere a := by
    rw [ha]; split
    · exact .refl s
    · exact ⟨rfl, fun k hk => by rw [State.find_modWave, if_neg (Ne.symm hk)]⟩
  have athere : (a.waves.find? s.cur.wave).isSome := by
    rw [ha]; split
    · exact hw
    · rw [← hw]; exact State.there_modWave _ _ _ _
  have step : s.Elsewhere (s.dstWave i o n v) ∧ { (s.dstWave i o n v).cur with shiftedS := s.cur.shiftedS } = s.cur ∧
      ((s.dstWave i o n v).waves.find? s.cur.wave).isSome ∧ (s.dstWave i o n v).w = h a.w := by
    rw [e]; split
    · rename_i hn; exact ⟨aels, by rw [acur], athere, by simp only [h, if_pos hn]⟩
    · rename_i hn
      have hwv := State.wave_modWave (k := a.cur.wave) a (fun w => { w with slatch := shiftLatch w.slatch (BitVec.ofNat 64 v) })
        (by rw [acur]; exact athere)
      have ht := State.there_modWave a a.cur.wave s.cur.wave fun w => { w with slatch := shiftLatch w.slatch (BitVec.ofNat 64 v) }
      refine ⟨aels.trans (by rw [acur]) ⟨rfl, fun k hk => ?_⟩, ?_, by rw [← athere]; exact ht, ?_⟩
      · have := State.find_modWave a a.cur.wave k fun w => { w with slatch := shiftLatch w.slatch (BitVec.ofNat 64 v) }
        rw [if_neg (Ne.symm hk)] at this; exact this
      · rw [← acur]; rfl
      · simp only [h, if_neg hn]; exact hwv
  obtain ⟨s1, s2, s3, s4⟩ := step
  have hh : ∀ w : Wave, w.Kept (h w) ∧ (h w).lanes = w.lanes ∧ (h w).fcsr = w.fcsr ∧ (h w).wstat = w.wstat ∧
      (h w).slatch = (if isSwitch i then w.slatch else shiftLatch w.slatch (BitVec.ofNat 64 v)) ∧ (h w).s = w.s := fun w => by
    simp only [h]; split <;> exact ⟨rfl, rfl, rfl, rfl, rfl, rfl⟩
  obtain ⟨h1, h2, h3, h4, h5, h6⟩ := hh (g s.w)
  rw [aw] at s4
  refine ⟨s1, s2, s3, ?_, ?_, ?_, ?_, ?_, fun m => ?_⟩
  · rw [s4]; exact hg.1.trans h1
  · rw [s4]; exact h2.trans hg.2.1
  · rw [s4]; exact h3.trans hg.2.2.2.1
  · rw [s4]; exact h4.trans hg.2.2.2.2.1
  · rw [s4, h5, hg.2.2.1]
  · rw [s4]; simp only [Wave.sreg, h6]; exact hg.2.2.2.2.2 m

/-- The result of a scalar instruction. -/
theorem State.compute_scalar_result {s : State} {i : Instr} {o : Ops} {sp : Spans} (h : s.Clear i sp) (f : Nat → FRes)
    (ho : o.s = true) (hno : (f 0).flags &&& fcsrEn s.pre.fcsr = 0) :
    s.Result ((s.begun i sp).compute i o sp.d f) i o sp (fun l => (f l).bits) (f 0).flags := by
  obtain ⟨hb, hp⟩ := State.begun_soft h
  obtain ⟨hwst, hmark⟩ := State.begun_marks h
  have hg := hb.group h.toGroup
  have hmask : (s.begun i sp).mask = s.mask := hb.mask
  have hpre : (s.begun i sp).pre = s.pre := by simp only [State.pre, hp, Option.getD_some]
  have ec : (s.begun i sp).compute i o sp.d f =
      (((s.begun i sp).raiseFlags (s.begun i sp).cur.wave (f 0).flags).dstWave i o sp.d (f 0).bits).advance
        (((s.begun i sp).raiseFlags (s.begun i sp).cur.wave (f 0).flags).dstWave i o sp.d (f 0).bits).mask := by
    simp only [State.compute, ho, ↓reduceIte, hpre, hno, ne_eq, not_true_eq_false]
    rw [show ((s.begun i sp).raiseFlags (s.begun i sp).cur.wave (f 0).flags).mask =
      (((s.begun i sp).raiseFlags (s.begun i sp).cur.wave (f 0).flags).dstWave i o sp.d (f 0).bits).mask from ?_]
    have hw : (((s.begun i sp).raiseFlags (s.begun i sp).cur.wave (f 0).flags).waves.find?
      ((s.begun i sp).raiseFlags (s.begun i sp).cur.wave (f 0).flags).cur.wave).isSome := by
      obtain ⟨-, e2, e3, -⟩ := (s.begun i sp).raiseFlags_spec (f 0).flags hg.wave
      have := congrArg Cur.wave e2
      have e : ((s.begun i sp).raiseFlags (s.begun i sp).cur.wave (f 0).flags).cur.wave = (s.begun i sp).cur.wave := this
      rw [e]; exact e3
    have hfz : ((s.begun i sp).raiseFlags (s.begun i sp).cur.wave (f 0).flags).cur.frozenLines = [] := by
      obtain ⟨-, e2, -, -⟩ := (s.begun i sp).raiseFlags_spec (f 0).flags hg.wave
      have := congrArg Cur.frozenLines e2; exact Eq.trans this hg.frozenLines
    have := congrArg Cur.mask (State.dstWave_wrote _ i o sp.d (f 0).bits hw hfz).2.1
    exact this.symm
  rw [ec]
  generalize (f 0).flags = fl at hno ⊢
  obtain ⟨e1, e2, e3, e4⟩ := (s.begun i sp).raiseFlags_spec fl hg.wave
  generalize hr : (s.begun i sp).raiseFlags (s.begun i sp).cur.wave fl = r at e1 e2 e3 e4
  have rw1 : r.cur.wave = s.cur.wave := by have := congrArg Cur.wave e2; exact Eq.trans this hb.wave
  have rfz : r.cur.frozenLines = [] := by have := congrArg Cur.frozenLines e2; exact Eq.trans this hg.frozenLines
  have rfl' : r.cur.frozenLanes = 0 := by have := congrArg Cur.frozenLanes e2; exact Eq.trans this hg.frozenLanes
  have rpre : r.pre = s.pre := by
    have : r.cur.pre = some s.pre := by have := congrArg Cur.pre e2; exact Eq.trans this hp
    simp only [State.pre, this, Option.getD_some]
  have rmask : r.mask = s.mask := by have := congrArg Cur.mask e2; exact Eq.trans this hb.mask
  have rnext : r.nextPc = s.nextPc := by
    have a := congrArg Cur.pc e2; have b := congrArg Cur.len e2
    have a' : r.cur.pc = s.cur.pc := Eq.trans a hb.pc
    have b' : r.cur.len = s.cur.len := Eq.trans b hb.len
    simp only [State.nextPc, a', b']
  have rthere : (r.waves.find? r.cur.wave).isSome := by rw [rw1, ← hb.wave]; exact e3
  obtain ⟨w1, w2, w3, w4, w5, w6, w7, w8, w9⟩ := r.dstWave_wrote i o sp.d (f 0).bits rthere rfz
  rw [rpre] at w9
  generalize r.dstWave i o sp.d (f 0).bits = d at *
  have dwave : d.cur.wave = r.cur.wave := by have := congrArg Cur.wave w2; exact this
  have dfl : d.cur.frozenLanes = 0 := by have := congrArg Cur.frozenLanes w2; exact Eq.trans this rfl'
  have dmask : d.mask = s.mask := by have := congrArg Cur.mask w2; exact Eq.trans this rmask
  have dnext : d.nextPc = s.nextPc := by
    have a := congrArg Cur.pc w2; have b := congrArg Cur.len w2
    have a' : d.cur.pc = r.cur.pc := a
    have b' : d.cur.len = r.cur.len := b
    rw [← rnext]; simp only [State.nextPc, a', b']
  obtain ⟨a1, a2, a3, a4⟩ := d.advance_spec dfl (by rw [dwave]; exact w3)
  rw [dmask] at a1 a2 a3 a4
  rw [dmask]
  have hdl : ∀ l, d.w.lane l = (s.begun i sp).w.lane l := fun l => by simp only [Wave.lane, w5, e4]
  have hfind : ∀ l, s.mask.getLsbD l = true → (d.w.lanes.find? l).isSome = true := fun l hl => by
    rw [w5, e4]; exact hg.lanes l (by rw [hmask]; exact hl)
  have tlane : ∀ l, (d.advance s.mask).w.lane l =
      if s.mask.getLsbD l = true then { (s.begun i sp).w.lane l with pc := s.nextPc, life := .ready }
      else (s.begun i sp).w.lane l := fun l => by
    rw [a4 l, dnext, hdl]
    by_cases hl : s.mask.getLsbD l = true
    · simp [hl, hfind l hl]
    · simp [hl]
  have w3' : ∀ {α : Type} (g : Wave → α), g { (d.advance s.mask).w with lanes := d.w.lanes } = g d.w := fun g => congrArg g a3
  refine ⟨?_, ?_, fun l => ?_, fun l x => ?_, fun m => ?_, fun l hl => ?_, fun l hl => ?_, fun hsw l => ?_, fun hsw => ?_, ?_, ?_⟩
  · exact ((hb.elsewhere.trans hb.wave e1).trans rw1 w1).trans (dwave.trans rw1) a1
  · have k1 : (s.begun i sp).w.Kept r.w := by rw [e4]; rfl
    have k2 : d.w.Kept (d.advance s.mask).w := by
      have := congrArg (fun x : Wave => { x with
        s := d.w.s, slatch := d.w.slatch, run := d.w.run, shadow := d.w.shadow, dirty := d.w.dirty, used := d.w.used, fcsr := d.w.fcsr,
        wstat := d.w.wstat }) a3
      exact this
    exact ((hb.kept.trans k1).trans w4).trans k2
  · have k0 := (hb.lane l).2.1
    rw [tlane]; split
    · exact k0.trans rfl
    · exact k0
  · have hv : ((d.advance s.mask).w.lane l).reg x = ((s.begun i sp).w.lane l).reg x := by rw [tlane]; split <;> rfl
    rw [hv]; simp only [Lane.reg, (hb.lane l).2.2.1, ho, Bool.not_true, Bool.false_and, Bool.false_eq_true, ↓reduceIte]
  · have c1 := w3' fun w => w.sreg m
    have c1' : (d.advance s.mask).w.sreg m = d.w.sreg m := c1
    have c2 : r.w.sreg m = s.w.sreg m := by simp only [Wave.sreg, e4, hb.sregs]
    rw [c1', w9, c2]
    cases nwOf i <;> simp [ho, inSpan]
  · rw [tlane, if_pos hl]; exact ⟨rfl, rfl⟩
  · rw [tlane, if_neg (by rw [hl]; decide)]; exact ⟨(hb.lane l).2.2.2.1, (hb.lane l).2.2.2.2⟩
  · have hv : ((d.advance s.mask).w.lane l).latch = ((s.begun i sp).w.lane l).latch := by rw [tlane]; split <;> rfl
    rw [hv, (hmark hsw).2 l]
    simp only [ho, latchesAfter, Bool.not_true, Bool.false_and, Bool.false_eq_true, ↓reduceIte]
  · have c1 := w3' Wave.slatch
    have c1' : (d.advance s.mask).w.slatch = d.w.slatch := c1
    have c2 : r.w.slatch = s.w.slatch := by rw [e4]; exact (hmark hsw).1
    rw [c1', w8, c2]
    simp only [hsw, ho, latchesAfter, Bool.false_eq_true, ↓reduceIte]
  · have c1 := w3' Wave.fcsr
    have c1' : (d.advance s.mask).w.fcsr = d.w.fcsr := c1
    rw [c1', w6, e4]
    simp only [hb.fcsr]
  · have c1 := w3' Wave.wstat
    have c1' : (d.advance s.mask).w.wstat = d.w.wstat := c1
    rw [c1', w7, e4]
    exact hwst

/-- The result of an instruction that computes. -/
theorem State.compute_result {s : State} {i : Instr} {o : Ops} {sp : Spans} (h : s.Clear i sp) (f : Nat → FRes)
    (hno : ∀ l ∈ s.acts o, (f l).flags &&& fcsrEn s.pre.fcsr = 0) :
    s.Result ((s.begun i sp).compute i o sp.d f) i o sp (fun l => (f l).bits) (flagsOf (s.acts o) f) := by
  cases ho : o.s
  · simp only [State.acts, ho, Bool.false_eq_true, ↓reduceIte] at hno ⊢
    exact State.compute_vector_result h f ho hno
  · simp only [State.acts, ho, ↓reduceIte, List.mem_singleton, forall_eq] at hno ⊢
    have := State.compute_scalar_result h f ho hno
    simp only [flagsOf, List.foldl_cons, List.foldl_nil]
    rw [show (0 : Flags) ||| (f 0).flags = (f 0).flags from BitVec.zero_or]
    exact this

/-- What a register-to-register instruction answers. -/
theorem alu_computes {i : Instr} {o : Ops} {sp : Spans} {f : Reader → FRes} (he : ∀ s, exec i s = alu i o sp f s) :
    Computes i o sp fun s l => f (reader s.pre o l) := by
  intro s h hno
  refine ⟨_, he s, ?_⟩
  have hp : (s.begun i sp).pre = s.pre := by simp only [State.pre, (State.begun_soft h).2, Option.getD_some]
  rw [State.run_clear h, hp]
  exact State.compute_result h _ hno

/-- What a lane-crossing instruction answers. -/
theorem cross_computes {i : Instr} {o : Ops} {sp : Spans} {f : Wave → BitVec 32 → Nat → FRes} (he : ∀ s, exec i s = cross i o sp f s) :
    Computes i o sp fun s l => f s.pre s.mask l := by
  intro s h hno
  refine ⟨_, he s, ?_⟩
  have hb := State.begun_soft h
  have hp : (s.begun i sp).pre = s.pre := by simp only [State.pre, hb.2, Option.getD_some]
  rw [State.run_clear h, hp, show (s.begun i sp).mask = s.mask from hb.1.mask]
  exact State.compute_result h _ hno

/-- A result is one by any values that agree in the acts. -/
theorem State.Result.congr {s t : State} {i : Instr} {o : Ops} {sp : Spans} {v v' : Nat → Nat} {fl : Flags}
    (h : s.Result t i o sp v fl) (hv : ∀ l ∈ s.acts o, v l = v' l) : s.Result t i o sp v' fl := by
  have h0 : o.s = true → v 0 = v' 0 := fun ho => hv 0 (by simp [State.acts, ho])
  have h1 : o.s = false → ∀ l, s.mask.getLsbD l = true → v l = v' l := fun ho l hl =>
    hv l (by simp only [State.acts, ho, Bool.false_eq_true, ↓reduceIte]; exact (mem_lanesOf _ _).2 hl)
  refine ⟨h.elsewhere, h.kept, h.lanes, fun l r => ?_, fun m => ?_, h.next, h.others, fun hs l => ?_, fun hs => ?_, h.fcsr, h.wstat⟩
  · rw [h.regs]
    cases ho : o.s <;> cases hl : s.mask.getLsbD l <;> simp only [Bool.not_true, Bool.not_false, Bool.and_false, Bool.false_and,
      Bool.true_and, Bool.and_true, Bool.false_eq_true, ↓reduceIte]
    rw [h1 ho l hl]
  · rw [h.sregs]
    cases ho : o.s
    · simp only [Bool.false_and, Bool.false_eq_true, ↓reduceIte]
    · rw [h0 ho]
  · rw [h.latch hs]
    cases ho : o.s <;> cases hl : s.mask.getLsbD l <;> simp only [Bool.not_true, Bool.not_false, Bool.and_false, Bool.and_self,
      Bool.and_true, Bool.false_eq_true, ↓reduceIte]
    rw [h1 ho l hl]
  · rw [h.slatch hs]
    cases ho : o.s
    · rfl
    · simp only [↓reduceIte, h0 ho]

theorem flagsOf_congr {ls : List Nat} {f g : Nat → FRes} (h : ∀ l ∈ ls, f l = g l) : flagsOf ls f = flagsOf ls g := by
  have : ∀ a : Flags, ls.foldl (fun a l => a ||| (f l).flags) a = ls.foldl (fun a l => a ||| (g l).flags) a := by
    induction ls with
    | nil => intro a; rfl
    | cons x xs ih =>
      intro a
      rw [List.foldl_cons, List.foldl_cons, h x (by simp), ih fun l hl => h l (by simp [hl])]
  exact this 0

/-- An instruction computes any function that agrees with its own in the acts. -/
theorem Computes.congr {i : Instr} {o : Ops} {sp : Spans} {f g : State → Nat → FRes} (h : Computes i o sp f)
    (hv : ∀ s l, l ∈ s.acts o → f s l = g s l) : Computes i o sp g := by
  intro s hc hno
  obtain ⟨t, ht, hr⟩ := h s hc fun l hl => by rw [hv s l hl]; exact hno l hl
  refine ⟨t, ht, ?_⟩
  rw [← flagsOf_congr fun l hl => hv s l hl]
  exact hr.congr fun l hl => by rw [hv s l hl]

end Sys2Proof.Machine
end

