-- ==== Sys2Proof/Laws/Memory.lean ====
section
/-! SUPPORT. What the operations on memory do: a read after a write, the bytes a write leaves alone, and that every operation keeps the
canonical form. -/
namespace Sys2Proof.Machine

/-! ## Bytes -/

theorem Memory.read_write (m : List Host.Cell) (a x : Nat) (b : Byte) :
    Memory.read (Memory.write m a b) x = if a = x then b else Memory.read m x := Tbl.get_set 0 m a x b

theorem Memory.write_wf {m : List Host.Cell} (a : Nat) (b : Byte) (h : Memory.wf m = true) : Memory.wf (Memory.write m a b) = true :=
  Tbl.canon_set a b h

theorem Memory.writeBytes_wf (bs : List Byte) {m : List Host.Cell} (a : Nat) (h : Memory.wf m = true) :
    Memory.wf (Memory.writeBytes m a bs) = true := by
  induction bs generalizing m a with
  | nil => exact h
  | cons b bs ih => exact ih (a + 1) (Memory.write_wf a b h)

/-- A read after a write of bytes: the byte written where the address lies among them, else what was there. -/
theorem Memory.read_writeBytes (bs : List Byte) (m : List Host.Cell) (a x : Nat) :
    Memory.read (Memory.writeBytes m a bs) x = if a ≤ x ∧ x < a + bs.length then bs.getD (x - a) 0 else Memory.read m x := by
  induction bs generalizing m a with
  | nil =>
    have h : ¬ (a ≤ x ∧ x < a + ([] : List Byte).length) := by simp only [List.length_nil]; omega
    rw [if_neg h]
    rfl
  | cons b bs ih =>
    simp only [Memory.writeBytes, ih, Memory.read_write, List.length_cons]
    by_cases h : a = x
    · subst h
      have h1 : ¬ (a + 1 ≤ a ∧ a < a + 1 + bs.length) := by omega
      have h2 : a ≤ a ∧ a < a + (bs.length + 1) := by omega
      rw [if_neg h1, if_pos h2]
      simp
    · by_cases h1 : a + 1 ≤ x ∧ x < a + 1 + bs.length
      · have h2 : a ≤ x ∧ x < a + (bs.length + 1) := by omega
        rw [if_pos h1, if_pos h2]
        obtain ⟨n, hn⟩ : ∃ n, x - a = n + 1 := ⟨x - a - 1, by omega⟩
        have h3 : x - (a + 1) = n := by omega
        rw [hn, h3]
        rfl
      · have h2 : ¬ (a ≤ x ∧ x < a + (bs.length + 1)) := by omega
        rw [if_neg h1, if_neg h2, if_neg h]

theorem Memory.length_readBytes (m : List Host.Cell) (a n : Nat) : (Memory.readBytes m a n).length = n := by simp [Memory.readBytes]

/-- Reading back the bytes of a write. -/
theorem Memory.readBytes_writeBytes (bs : List Byte) (m : List Host.Cell) (a : Nat) :
    Memory.readBytes (Memory.writeBytes m a bs) a bs.length = bs := by
  apply List.ext_getElem
  · simp [Memory.readBytes]
  · intro i h1 h2
    have h : a ≤ a + i ∧ a + i < a + bs.length := by omega
    simp [Memory.readBytes, Memory.read_writeBytes, h2]

/-- A write elsewhere leaves the bytes of a range alone. -/
theorem Memory.readBytes_writeBytes_of_disjoint (bs : List Byte) (m : List Host.Cell) (a x n : Nat) (h : x + n ≤ a ∨ a + bs.length ≤ x) :
    Memory.readBytes (Memory.writeBytes m a bs) x n = Memory.readBytes m x n := by
  apply List.map_congr_left
  intro i hi
  have hi' := List.mem_range.1 hi
  have h1 : ¬ (a ≤ x + i ∧ x + i < a + bs.length) := by omega
  rw [Memory.read_writeBytes, if_neg h1]

/-! ## Conflicts touch no memory -/

@[simp] theorem State.conflict_mem (s : State) (space who line : Nat) : (s.conflict space who line).mem = s.mem := rfl
@[simp] theorem State.conflict_mod (s : State) (space who line : Nat) : (s.conflict space who line).mod = s.mod := rfl
@[simp] theorem State.conflict_cores (s : State) (space who line : Nat) : (s.conflict space who line).cores = s.cores := rfl
@[simp] theorem State.conflict_teams (s : State) (space who line : Nat) : (s.conflict space who line).teams = s.teams := rfl

/-- What a fold of changes that leave a field alone leaves it. -/
theorem foldl_field {α β : Type} (g : State → β) (f : State → α → State) (h : ∀ s x, g (f s x) = g s) (xs : List α) (s : State) :
    g (xs.foldl f s) = g s := by
  induction xs generalizing s with
  | nil => rfl
  | cons x xs ih => rw [List.foldl_cons, ih, h]

/-- Conflicts change nothing but the waves. -/
theorem State.conflicts_waves (s : State) (space who a n : Nat) : { s.conflicts space who a n with waves := s.waves } = s := by
  unfold State.conflicts
  split
  · rfl
  · have h := foldl_field (fun t : State => ({ t with waves := s.waves } : State)) (fun t l => t.conflict space who l)
      (fun _ _ => rfl) (linesOf a n) s
    exact h

@[simp] theorem State.conflicts_mem (s : State) (space who a n : Nat) : (s.conflicts space who a n).mem = s.mem :=
  have h := congrArg State.mem (s.conflicts_waves space who a n); h
@[simp] theorem State.conflicts_mod (s : State) (space who a n : Nat) : (s.conflicts space who a n).mod = s.mod :=
  have h := congrArg State.mod (s.conflicts_waves space who a n); h
@[simp] theorem State.conflicts_cores (s : State) (space who a n : Nat) : (s.conflicts space who a n).cores = s.cores :=
  have h := congrArg State.cores (s.conflicts_waves space who a n); h
@[simp] theorem State.conflicts_teams (s : State) (space who a n : Nat) : (s.conflicts space who a n).teams = s.teams :=
  have h := congrArg State.teams (s.conflicts_waves space who a n); h

/-- Conflicts reach no lane but those that watch one of the lines: of any lane they change its conflict flag alone. -/
theorem State.conflict_lane (s : State) (space who line k l : Nat) :
    { ((s.conflict space who line).wave k).lane l with conflict := ((s.wave k).lane l).conflict } = (s.wave k).lane l := by
  simp only [State.wave, State.conflict, Wave.lane, Tbl.get, Tbl.find_mapAll]
  cases Tbl.find? k s.waves with
  | none => rfl
  | some w =>
    simp only [Option.map_some, Option.getD_some]
    split
    · simp only [Tbl.find_mapAll]
      cases Tbl.find? l w.lanes with
      | none => rfl
      | some x => simp only [Option.map_some, Option.getD_some]; split <;> rfl
    · rfl

/-! ## The coherence point -/

theorem State.l2Write_mem (s : State) (pa : Nat) (bs : List Byte) : (s.l2Write pa bs).mem = Memory.writeBytes s.mem pa bs := by
  simp [State.l2Write]

@[simp] theorem State.l2Write_mod (s : State) (pa : Nat) (bs : List Byte) : (s.l2Write pa bs).mod = s.mod := by simp [State.l2Write]
@[simp] theorem State.l2Write_cores (s : State) (pa : Nat) (bs : List Byte) : (s.l2Write pa bs).cores = s.cores := by simp [State.l2Write]
@[simp] theorem State.l2Write_teams (s : State) (pa : Nat) (bs : List Byte) : (s.l2Write pa bs).teams = s.teams := by simp [State.l2Write]

theorem State.l2Write_wf (s : State) (pa : Nat) (bs : List Byte) (h : Memory.wf s.mem = true) : Memory.wf (s.l2Write pa bs).mem = true := by
  rw [State.l2Write_mem]; exact Memory.writeBytes_wf bs pa h

/-! ## The L1 -/

/-- Writing a line's dirty bytes back, one by one. -/
theorem Memory.foldl_write_wf (f : Nat → Byte) (base : Nat) (is : List Nat) {m : List Host.Cell} (h : Memory.wf m = true) :
    Memory.wf (is.foldl (fun m i => Memory.write m (base + i) (f i)) m) = true := by
  induction is generalizing m with
  | nil => exact h
  | cons i is ih => exact ih (Memory.write_wf _ _ h)

theorem State.l1Clean_wf (s : State) (c line : Nat) (h : Memory.wf s.mem = true) : Memory.wf (s.l1Clean c line).mem = true := by
  unfold State.l1Clean
  split
  · exact h
  · split
    · exact h
    · exact Memory.foldl_write_wf _ _ _ h

@[simp] theorem State.l1Clean_mod (s : State) (c line : Nat) : (s.l1Clean c line).mod = s.mod := by
  unfold State.l1Clean
  split
  · rfl
  · split <;> rfl

theorem State.l1WriteBack_wf (s : State) (c : Nat) (h : Memory.wf s.mem = true) : Memory.wf (s.l1WriteBack c).mem = true := by
  unfold State.l1WriteBack
  generalize (s.core c).l1 = t
  induction t generalizing s with
  | nil => exact h
  | cons p t ih => exact ih (s.l1Clean c p.1) (s.l1Clean_wf c p.1 h)

@[simp] theorem State.l1WriteBack_mod (s : State) (c : Nat) : (s.l1WriteBack c).mod = s.mod :=
  foldl_field State.mod (fun (s : State) (p : Nat × L1Line) => s.l1Clean c p.1) (fun s p => s.l1Clean_mod c p.1) (s.core c).l1 s

theorem State.release_wf (s : State) (c scope : Nat) (h : Memory.wf s.mem = true) : Memory.wf (s.release c scope).mem = true := by
  unfold State.release
  split
  · exact s.l1WriteBack_wf c h
  · exact h

@[simp] theorem State.release_mod (s : State) (c scope : Nat) : (s.release c scope).mod = s.mod := by
  unfold State.release
  split <;> simp

@[simp] theorem State.acquire_mem (s : State) (c scope : Nat) : (s.acquire c scope).mem = s.mem := by
  unfold State.acquire
  split <;> rfl

@[simp] theorem State.acquire_mod (s : State) (c scope : Nat) : (s.acquire c scope).mod = s.mod := by
  unfold State.acquire
  split <;> rfl

@[simp] theorem State.l1Fill_mem (s : State) (c line : Nat) : (s.l1Fill c line).mem = s.mem := by
  unfold State.l1Fill
  split <;> rfl

theorem State.l1Evict_wf (s : State) (c line : Nat) (h : Memory.wf s.mem = true) : Memory.wf (s.l1Evict c line).mem = true :=
  s.l1Clean_wf c line h

/-- A plain load leaves memory alone. -/
@[simp] theorem State.l1Read_mem (s : State) (c pa n : Nat) : (s.l1Read c pa n).1.mem = s.mem := by
  unfold State.l1Read
  dsimp only
  split <;> exact State.l1Fill_mem s c (pa / 128)

/-- A plain store keeps the canonical form: it lands in the L1, or at the coherence point. -/
theorem State.l1Write_wf (s : State) (c pa : Nat) (bs : List Byte) (h : Memory.wf s.mem = true) :
    Memory.wf (s.l1Write c pa bs).mem = true := by
  have hf : Memory.wf (s.l1Fill c (pa / 128)).mem = true := by rw [State.l1Fill_mem]; exact h
  unfold State.l1Write
  dsimp only
  split
  · exact hf
  · exact State.l2Write_wf _ _ _ hf

/-! ## Scratchpads -/

theorem State.tmemWrite_wf (s : State) (t off : Nat) (bs : List Byte) (h : Memory.wf s.mem = true) :
    Memory.wf (s.tmemWrite t off bs).mem = true := by
  unfold State.tmemWrite
  dsimp only
  split
  · exact s.l2Write_wf _ _ h
  · rw [State.conflicts_mem]; exact h

theorem State.dspWrite_mem (s : State) (d off : Nat) (bs : List Byte) : (s.dspWrite d off bs).mem = s.mem := by
  simp [State.dspWrite, State.modDie]

/-! ## The memory after reset -/

theorem State.reset_memory_wf : Memory.wf State.reset.mem = true := by decide

/-! ## Translation and places -/

/-- An address outside the heap window whose page the core's TLB holds, with the permission and backed, gives its physical address, and the
state stays as it is (R141). -/
theorem State.translate_hit {s : State} {c ctx : Nat} {va : DWord} {k : Kind} {e : TlbEntry} {pa : Nat} (hc : canonical va = true)
    (hw : s.heapWindow ctx va k = none) (ht : tlbHit (s.core c).tlb ctx (va.toNat % 2 ^ 57) = some e)
    (ha : s.applyLeaf ctx (va.toNat % 2 ^ 57) k e = .ok pa) : s.translate c ctx va k = (s, .ok pa) := by
  simp only [translate, hc, hw, lookup, ht, ha, Bool.not_true, Bool.false_eq_true, ↓reduceIte]

/-- An address of the heap window gives the physical address of the window (R176). -/
theorem State.translate_window {s : State} {c ctx : Nat} {va : DWord} {k : Kind} {r : Except TErr Nat} (hc : canonical va = true)
    (hw : s.heapWindow ctx va k = some r) : s.translate c ctx va k = (s, r) := by
  simp [translate, hc, hw]

/-- A place in global memory is the physical address, where the address is aligned, its bytes are backed and no poison is read (R140, R141,
R174, R241). -/
theorem State.place_mem {s : State} {k n : Nat} {va : DWord} {data : BitVec 128} {pa : Nat} (hn : va.toNat % n = 0)
    (ht : s.translate s.coreNo s.ctxNo va k = (s, .ok pa)) (hb : s.backedAll pa n = true) (hp : k = 1 ∨ s.poisonAt pa n = none) :
    s.place 0 k n va data = (s, .ok (.mem pa)) := by
  rcases hp with rfl | hp
  · simp [place, hn, ht, hb]
  · simp [place, hn, ht, hb, hp]

/-! ## Reading and writing at a place -/

theorem State.writeOn_wf (s : State) (c : Nat) (p : Place) (bs : List Byte) (b : Bool) (h : Memory.wf s.mem = true) :
    Memory.wf (s.writeOn c p bs b).mem = true := by
  unfold State.writeOn
  cases p with
  | mem pa => dsimp only; split
              · exact State.l2Write_wf _ _ _ (State.l1Evict_wf _ _ _ h)
              · exact State.l1Write_wf _ _ _ _ h
  | team t off => exact State.tmemWrite_wf _ _ _ _ h
  | die d off => dsimp only; rw [State.dspWrite_mem]; exact h

theorem State.readOn_wf (s : State) (c : Nat) (p : Place) (n : Nat) (b : Bool) (h : Memory.wf s.mem = true) :
    Memory.wf (s.readOn c p n b).1.mem = true := by
  unfold State.readOn
  cases p with
  | mem pa =>
    dsimp only; split
    · unfold State.l1Renew
      split
      · rw [State.l1Fill_mem]; exact State.l1Evict_wf _ _ _ h
      · exact h
    · rw [State.l1Read_mem]; exact h
  | team t off => exact h
  | die d off => exact h

theorem State.evictEverywhere_wf (s : State) (line : Nat) (h : Memory.wf s.mem = true) : Memory.wf (s.evictEverywhere line).mem = true := by
  unfold State.evictEverywhere
  generalize s.cores = cs
  induction cs generalizing s with
  | nil => exact h
  | cons c cs ih => exact ih _ (s.l1Evict_wf _ _ h)

theorem State.reduceOn_wf (s : State) (c : Nat) (p : Place) (sub type scope b : Nat) (h : Memory.wf s.mem = true) :
    Memory.wf (s.reduceOn c p sub type scope b).mem = true := by
  unfold State.reduceOn
  refine State.writeOn_wf _ _ _ _ _ (State.readOn_wf _ _ _ _ _ ?_)
  unfold State.dropCopies
  cases p with
  | mem pa => dsimp only; split
              · exact State.evictEverywhere_wf _ _ h
              · exact State.l1Evict_wf _ _ _ h
  | team t off => exact h
  | die d off => exact h

/-- Performing a waiting access keeps the canonical form. -/
theorem State.apply_wf (s : State) (c : Nat) (p : Place) (e : Effect) (h : Memory.wf s.mem = true) :
    Memory.wf (s.apply c p e).mem = true := by
  cases e with
  | store data bypass => exact s.writeOn_wf _ _ _ _ h
  | reduce sub type scope bs =>
    show Memory.wf (bs.foldl (fun s b => s.reduceOn c p sub type scope b) s).mem = true
    induction bs generalizing s with
    | nil => exact h
    | cons b bs ih => exact ih _ (s.reduceOn_wf _ _ _ _ _ _ h)

theorem State.land_wf (s : State) (k : Nat) (x : Pend) (h : Memory.wf s.mem = true) : Memory.wf (s.land k x).mem = true := by
  unfold State.land
  dsimp only
  split
  · exact s.apply_wf _ _ _ h
  · exact s.apply_wf _ _ _ h

/-- Performing waiting accesses keeps the canonical form. -/
theorem State.lands_wf (k : Nat) (xs : List Pend) (s : State) (h : Memory.wf s.mem = true) :
    Memory.wf (xs.foldl (fun s x => s.land k x) s).mem = true := by
  induction xs generalizing s with
  | nil => exact h
  | cons x xs ih => exact ih _ (s.land_wf _ _ h)

/-- Performing what waits keeps the canonical form. -/
theorem State.drain_wf (s : State) (k : Nat) (h : Memory.wf s.mem = true) : Memory.wf (s.drain k).mem = true := by
  unfold State.drain
  split
  · exact h
  · dsimp only [State.modWave]
    exact State.lands_wf k _ s h

/-- With nothing waiting, and nothing loaded early, an access meets nothing. -/
theorem State.meet_of_direct {s : State} {k : Nat} {m : BitVec 32} {p : Place} {n : Nat} (hs : (s.wave k).stores = [])
    (he : ∀ l, ((s.wave k).lane l).early = []) : s.meet k m p n = s := by
  simp [State.meet, State.performWanted, firstWanted, State.dropEarly, hs, he]

end Sys2Proof.Machine
end

