-- ==== Sys2Proof/Laws/PerInstr.lean ====
section
/-! SUPPORT. The family "Encodes", one lemma per constructor: a well-formed instruction that has words is what the decoder reads from
them. -/
namespace Sys2Proof.Laws.Encodes

open Sys2Proof.Encoding

/-- Decoding the words of an instruction gives it back. -/
def Statement (i : Instr) : Prop := i.wf = true → encode i ≠ [] → decodeWords (encode i) = .ok i

/-! ## Fields -/

theorem first_pack (s : Bool) (op : BitVec 9) (low : BitVec 22) (w1 lit : Word) :
    Decode.first (packWord s op low) w1 lit = Decode.build s op low w1 lit := by
  have h1 : (packWord s op low).getLsbD 31 = s := by
    simp only [packWord, BitVec.getLsbD_append, BitVec.getLsbD_ofBool]; simp
  have h2 : (packWord s op low).extractLsb' 22 9 = op := by
    apply BitVec.eq_of_getLsbD_eq; intro i hi
    simp only [packWord, BitVec.getLsbD_extractLsb', BitVec.getLsbD_append]
    rw [if_neg (by omega), if_pos (by omega)]; simp [hi, show 22 + i - 22 = i by omega]
  have h3 : (packWord s op low).extractLsb' 0 22 = low := by
    apply BitVec.eq_of_getLsbD_eq; intro i hi
    simp only [packWord, BitVec.getLsbD_extractLsb', BitVec.getLsbD_append]
    rw [if_pos (by omega)]; simp [hi]
  simp only [Decode.first, h1, h2, h3]

theorem unpack_pack (o : Ops) (lit : Word) : unpackOps o.s (packLow o) lit = { o with lit := lit } := by
  have h1 : (packLow o).getLsbD 21 = o.nw := by
    simp only [packLow, BitVec.getLsbD_append, BitVec.getLsbD_ofBool]; simp
  have h2 : (packLow o).extractLsb' 14 7 = o.d := by
    apply BitVec.eq_of_getLsbD_eq; intro i hi
    simp only [packLow, BitVec.getLsbD_extractLsb', BitVec.getLsbD_append]
    rw [if_neg (by omega), if_neg (by omega), if_pos (by omega)]; simp [hi, show 14 + i - 7 - 7 = i by omega]
  have h3 : (packLow o).extractLsb' 7 7 = o.a := by
    apply BitVec.eq_of_getLsbD_eq; intro i hi
    simp only [packLow, BitVec.getLsbD_extractLsb', BitVec.getLsbD_append]
    rw [if_neg (by omega), if_pos (by omega)]; simp [hi, show 7 + i - 7 = i by omega]
  have h4 : (packLow o).extractLsb' 0 7 = o.b := by
    apply BitVec.eq_of_getLsbD_eq; intro i hi
    simp only [packLow, BitVec.getLsbD_extractLsb', BitVec.getLsbD_append]
    rw [if_pos (by omega)]; simp [hi]
  simp only [unpackOps, h1, h2, h3, h4]

theorem unpack_ctl (c : Ctl) : unpackCtl (packCtl c) = c := by
  have h1 : (packCtl c).extractLsb' 29 3 = c.scope := by
    apply BitVec.eq_of_getLsbD_eq; intro i hi
    simp only [packCtl, BitVec.getLsbD_extractLsb', BitVec.getLsbD_append]
    rw [if_neg (by omega), if_neg (by omega), if_neg (by omega), if_neg (by omega)]
    simp [hi, show 29 + i - 19 - 4 - 4 - 2 = i by omega]
  have h2 : (packCtl c).extractLsb' 27 2 = c.order := by
    apply BitVec.eq_of_getLsbD_eq; intro i hi
    simp only [packCtl, BitVec.getLsbD_extractLsb', BitVec.getLsbD_append]
    rw [if_neg (by omega), if_neg (by omega), if_neg (by omega), if_pos (by omega)]
    simp [hi, show 27 + i - 19 - 4 - 4 = i by omega]
  have h3 : (packCtl c).extractLsb' 23 4 = c.sub := by
    apply BitVec.eq_of_getLsbD_eq; intro i hi
    simp only [packCtl, BitVec.getLsbD_extractLsb', BitVec.getLsbD_append]
    rw [if_neg (by omega), if_neg (by omega), if_pos (by omega)]; simp [hi, show 23 + i - 19 - 4 = i by omega]
  have h4 : (packCtl c).extractLsb' 19 4 = c.type := by
    apply BitVec.eq_of_getLsbD_eq; intro i hi
    simp only [packCtl, BitVec.getLsbD_extractLsb', BitVec.getLsbD_append]
    rw [if_neg (by omega), if_pos (by omega)]; simp [hi, show 19 + i - 19 = i by omega]
  have h5 : (packCtl c).extractLsb' 0 19 = c.spec := by
    apply BitVec.eq_of_getLsbD_eq; intro i hi
    simp only [packCtl, BitVec.getLsbD_extractLsb', BitVec.getLsbD_append]
    rw [if_pos (by omega)]; simp [hi]
  simp only [unpackCtl, h1, h2, h3, h4, h5]

/-! ## The shapes of instructions -/

/-- The encoding of an instruction without a control word. -/
structure Plain (mk : Ops → Instr) (r : Row) : Prop where
  row : ∀ o, row (mk o) = some r
  ops : ∀ o, ops (mk o) = some o
  ctl : ∀ o, ctl (mk o) = none
  lut : ∀ o o', isLut3 (mk o) = isLut3 (mk o')
  first : ∀ o, encodeFirst (mk o) = some (packWord o.s r.op (packLow o))
  build : ∀ s low w1 lit, Decode.build s r.op low w1 lit = some (mk (unpackOps s low lit))

/-- The encoding of an instruction with a control word. -/
structure Ordered (mk : Ops → Ctl → Instr) (r : Row) : Prop where
  row : ∀ o c, row (mk o c) = some r
  ops : ∀ o c, ops (mk o c) = some o
  ctl : ∀ o c, ctl (mk o c) = some c
  lut : ∀ o c, isLut3 (mk o c) = false
  first : ∀ o c, encodeFirst (mk o c) = some (packWord o.s r.op (packLow o))
  second : ∀ o c, secondOk (mk o c) = (ctlOk (mk o c) && o.lit == 0#32)
  build : ∀ s low w1 lit, Decode.build s r.op low w1 lit = some (mk (unpackOps s low lit) (unpackCtl w1))

theorem wf_ok {i : Instr} (h : i.wf = true) : firstOk i = true ∧ secondOk i = true := by
  simp only [Instr.wf, Bool.and_eq_true] at h; exact h.1

theorem Plain.literal {mk : Ops → Instr} {r : Row} (h : Plain mk r) (o : Ops) (l : Word) :
    hasLiteral (mk { o with lit := l }) = hasLiteral (mk o) := by
  simp only [hasLiteral, h.row, h.ops, h.ctl, h.lut { o with lit := l } o]

theorem Plain.round {mk : Ops → Instr} {r : Row} (h : Plain mk r) (o : Ops)
    (hz : hasLiteral (mk o) = false → secondOk (mk o) = true → o.lit = 0#32) : Statement (mk o) := by
  intro hwf _
  obtain ⟨h1, h2⟩ := wf_ok hwf
  have hf : ∀ w1 lit, Decode.first (packWord o.s r.op (packLow o)) w1 lit = some (mk { o with lit := lit }) := fun w1 lit => by
    rw [first_pack, h.build, unpack_pack]
  have hn : Decode.needsSecond (packWord o.s r.op (packLow o)) = hasLiteral (mk o) := by
    simp only [Decode.needsSecond, hf, twoWords, h.ctl, h.literal, Option.isSome_none, Bool.false_or]
  cases hl : hasLiteral (mk o)
  · have ez : ({ o with lit := 0#32 } : Ops) = o := by rw [← hz hl h2]
    simp only [encode, h.first, encodeSecond, h.ctl, hl, Bool.false_eq_true, ↓reduceIte, Option.toList_none, decodeWords, hn, decode,
      hf, h.literal]
    simp only [show (0 : Word) = 0#32 from rfl, ez, h1, h2, Bool.not_true, Bool.false_eq_true, ↓reduceIte]
  · simp only [encode, h.first, encodeSecond, h.ctl, hl, ↓reduceIte, h.ops, Option.map_some, Option.toList_some, decodeWords, hn,
      decode, hf, h.literal, Option.getD_some]
    simp only [show ({ o with lit := o.lit } : Ops) = o from rfl, h1, h2, Bool.not_true, Bool.false_eq_true, ↓reduceIte]

theorem Ordered.literal {mk : Ops → Ctl → Instr} {r : Row} (h : Ordered mk r) (o : Ops) (c : Ctl) : hasLiteral (mk o c) = false := by
  simp only [hasLiteral, h.row, h.ops, h.ctl, h.lut, Option.isNone_some, Bool.false_and, Bool.or_self]

theorem Ordered.round {mk : Ops → Ctl → Instr} {r : Row} (h : Ordered mk r) (o : Ops) (c : Ctl) : Statement (mk o c) := by
  intro hwf _
  obtain ⟨h1, h2⟩ := wf_ok hwf
  have hf : ∀ w1 lit, Decode.first (packWord o.s r.op (packLow o)) w1 lit = some (mk { o with lit := lit } (unpackCtl w1)) :=
    fun w1 lit => by rw [first_pack, h.build, unpack_pack]
  have hz : o.lit = 0#32 := by
    have := h2; rw [h.second] at this; simp only [Bool.and_eq_true, beq_iff_eq] at this; exact this.2
  have ez : ({ o with lit := 0#32 } : Ops) = o := by rw [← hz]
  have hn : Decode.needsSecond (packWord o.s r.op (packLow o)) = true := by
    simp only [Decode.needsSecond, hf, twoWords, h.ctl, Option.isSome_some, Bool.true_or]
  simp only [encode, h.first, encodeSecond, h.ctl, Option.toList_some, decodeWords, hn, ↓reduceIte, decode, hf, h.literal,
    Bool.false_eq_true, unpack_ctl]
  simp only [show (0 : Word) = 0#32 from rfl, ez, h1, h2, Bool.not_true, Bool.false_eq_true, ↓reduceIte]

/-- An instruction that is not LUT3 and takes no literal holds 0 in its literal. -/
theorem no_literal {i : Instr} {o : Ops} (ho : ops i = some o) (hc : ctl i = none) (hl : isLut3 i = false)
    (h : hasLiteral i = false) (h2 : secondOk i = true) : o.lit = 0#32 := by
  have e : secondOk i = match ctl i, ops i with
      | some _, some o => ctlOk i && o.lit == 0#32
      | none, some o => hasLiteral i || o.lit == 0#32
      | _, _ => true := by
    cases i <;> first | rfl | (simp only [isLut3, Bool.true_eq_false] at hl)
  rw [e, hc, ho, h] at h2
  simpa using h2

theorem two_bits (t : BitVec 2) : t = 0#2 ∨ t = 1#2 ∨ t = 2#2 ∨ t = 3#2 := by revert t; decide
theorem three_bits (t : BitVec 3) : t = 0#3 ∨ t = 1#3 ∨ t = 2#3 ∨ t = 3#3 ∨ t = 4#3 ∨ t = 5#3 ∨ t = 6#3 ∨ t = 7#3 := by
  revert t; decide
theorem four_bits (t : BitVec 4) : t = 0#4 ∨ t = 1#4 ∨ t = 2#4 ∨ t = 3#4 ∨ t = 4#4 ∨ t = 5#4 ∨ t = 6#4 ∨ t = 7#4 ∨ t = 8#4 ∨
    t = 9#4 ∨ t = 10#4 ∨ t = 11#4 ∨ t = 12#4 ∨ t = 13#4 ∨ t = 14#4 ∨ t = 15#4 := by revert t; decide

/-- A jump's word holds nothing but its opcode and bits [21:0]. -/
theorem jump_round {i : Instr} {op : BitVec 9} {low : BitVec 22} (hf : encodeFirst i = some (packWord false op low))
    (hs : encodeSecond i = none) (hb : ∀ w1 lit, Decode.build false op low w1 lit = some i) (ht : twoWords i = false)
    (hl : hasLiteral i = false) : Statement i := by
  intro hwf _
  obtain ⟨h1, h2⟩ := wf_ok hwf
  simp only [encode, hf, hs, Option.toList_none, decodeWords, Decode.needsSecond, first_pack, hb, ht, Bool.false_eq_true, ↓reduceIte,
    decode, hl, h1, h2, Bool.not_true]

/-- A step of the part has no words. -/
theorem step_round {i : Instr} (h : encode i = []) : Statement i := fun _ hn => absurd h hn

/-! ## The lemmas -/

theorem add (t : BitVec 2) (o : Ops) : Statement (.add t o) := by
  rcases two_bits t with rfl | rfl | rfl | rfl <;>
    exact Plain.round (mk := .add _) (r := _)
      ⟨fun _ => rfl, fun _ => rfl, fun _ => rfl, fun _ _ => rfl, fun _ => rfl, fun s _ _ _ => rfl⟩ o (fun h h2 => no_literal rfl rfl rfl h h2)
theorem sub (t : BitVec 2) (o : Ops) : Statement (.sub t o) := by
  rcases two_bits t with rfl | rfl | rfl | rfl <;>
    exact Plain.round (mk := .sub _) (r := _)
      ⟨fun _ => rfl, fun _ => rfl, fun _ => rfl, fun _ _ => rfl, fun _ => rfl, fun s _ _ _ => rfl⟩ o (fun h h2 => no_literal rfl rfl rfl h h2)
theorem addx (t : BitVec 2) (o : Ops) : Statement (.addx t o) := by
  rcases two_bits t with rfl | rfl | rfl | rfl <;>
    exact Plain.round (mk := .addx _) (r := _)
      ⟨fun _ => rfl, fun _ => rfl, fun _ => rfl, fun _ _ => rfl, fun _ => rfl, fun s _ _ _ => rfl⟩ o (fun h h2 => no_literal rfl rfl rfl h h2)
theorem subx (t : BitVec 2) (o : Ops) : Statement (.subx t o) := by
  rcases two_bits t with rfl | rfl | rfl | rfl <;>
    exact Plain.round (mk := .subx _) (r := _)
      ⟨fun _ => rfl, fun _ => rfl, fun _ => rfl, fun _ _ => rfl, fun _ => rfl, fun s _ _ _ => rfl⟩ o (fun h h2 => no_literal rfl rfl rfl h h2)
theorem adds (t : BitVec 2) (o : Ops) : Statement (.adds t o) := by
  rcases two_bits t with rfl | rfl | rfl | rfl <;>
    exact Plain.round (mk := .adds _) (r := _)
      ⟨fun _ => rfl, fun _ => rfl, fun _ => rfl, fun _ _ => rfl, fun _ => rfl, fun s _ _ _ => rfl⟩ o (fun h h2 => no_literal rfl rfl rfl h h2)
theorem subs (t : BitVec 2) (o : Ops) : Statement (.subs t o) := by
  rcases two_bits t with rfl | rfl | rfl | rfl <;>
    exact Plain.round (mk := .subs _) (r := _)
      ⟨fun _ => rfl, fun _ => rfl, fun _ => rfl, fun _ _ => rfl, fun _ => rfl, fun s _ _ _ => rfl⟩ o (fun h h2 => no_literal rfl rfl rfl h h2)
theorem mul (t : BitVec 2) (o : Ops) : Statement (.mul t o) := by
  rcases two_bits t with rfl | rfl | rfl | rfl <;>
    exact Plain.round (mk := .mul _) (r := _)
      ⟨fun _ => rfl, fun _ => rfl, fun _ => rfl, fun _ _ => rfl, fun _ => rfl, fun s _ _ _ => rfl⟩ o (fun h h2 => no_literal rfl rfl rfl h h2)
theorem mulh (t : BitVec 2) (o : Ops) : Statement (.mulh t o) := by
  rcases two_bits t with rfl | rfl | rfl | rfl <;>
    exact Plain.round (mk := .mulh _) (r := _)
      ⟨fun _ => rfl, fun _ => rfl, fun _ => rfl, fun _ _ => rfl, fun _ => rfl, fun s _ _ _ => rfl⟩ o (fun h h2 => no_literal rfl rfl rfl h h2)
theorem mad (t : BitVec 2) (o : Ops) : Statement (.mad t o) := by
  rcases two_bits t with rfl | rfl | rfl | rfl <;>
    exact Plain.round (mk := .mad _) (r := _)
      ⟨fun _ => rfl, fun _ => rfl, fun _ => rfl, fun _ _ => rfl, fun _ => rfl, fun s _ _ _ => rfl⟩ o (fun h h2 => no_literal rfl rfl rfl h h2)
theorem div (t : BitVec 2) (o : Ops) : Statement (.div t o) := by
  rcases two_bits t with rfl | rfl | rfl | rfl <;>
    exact Plain.round (mk := .div _) (r := _)
      ⟨fun _ => rfl, fun _ => rfl, fun _ => rfl, fun _ _ => rfl, fun _ => rfl, fun s _ _ _ => rfl⟩ o (fun h h2 => no_literal rfl rfl rfl h h2)
theorem rem (t : BitVec 2) (o : Ops) : Statement (.rem t o) := by
  rcases two_bits t with rfl | rfl | rfl | rfl <;>
    exact Plain.round (mk := .rem _) (r := _)
      ⟨fun _ => rfl, fun _ => rfl, fun _ => rfl, fun _ _ => rfl, fun _ => rfl, fun s _ _ _ => rfl⟩ o (fun h h2 => no_literal rfl rfl rfl h h2)
theorem min (t : BitVec 2) (o : Ops) : Statement (.min t o) := by
  rcases two_bits t with rfl | rfl | rfl | rfl <;>
    exact Plain.round (mk := .min _) (r := _)
      ⟨fun _ => rfl, fun _ => rfl, fun _ => rfl, fun _ _ => rfl, fun _ => rfl, fun s _ _ _ => rfl⟩ o (fun h h2 => no_literal rfl rfl rfl h h2)
theorem max (t : BitVec 2) (o : Ops) : Statement (.max t o) := by
  rcases two_bits t with rfl | rfl | rfl | rfl <;>
    exact Plain.round (mk := .max _) (r := _)
      ⟨fun _ => rfl, fun _ => rfl, fun _ => rfl, fun _ _ => rfl, fun _ => rfl, fun s _ _ _ => rfl⟩ o (fun h h2 => no_literal rfl rfl rfl h h2)
theorem clamp (t : BitVec 2) (o : Ops) : Statement (.clamp t o) := by
  rcases two_bits t with rfl | rfl | rfl | rfl <;>
    exact Plain.round (mk := .clamp _) (r := _)
      ⟨fun _ => rfl, fun _ => rfl, fun _ => rfl, fun _ _ => rfl, fun _ => rfl, fun s _ _ _ => rfl⟩ o (fun h h2 => no_literal rfl rfl rfl h h2)
theorem lea (t : BitVec 2) (o : Ops) : Statement (.lea t o) := by
  rcases two_bits t with rfl | rfl | rfl | rfl <;>
    exact Plain.round (mk := .lea _) (r := _)
      ⟨fun _ => rfl, fun _ => rfl, fun _ => rfl, fun _ _ => rfl, fun _ => rfl, fun s _ _ _ => rfl⟩ o (fun h h2 => no_literal rfl rfl rfl h h2)
theorem absd (t : BitVec 2) (o : Ops) : Statement (.absd t o) := by
  rcases two_bits t with rfl | rfl | rfl | rfl <;>
    exact Plain.round (mk := .absd _) (r := _)
      ⟨fun _ => rfl, fun _ => rfl, fun _ => rfl, fun _ _ => rfl, fun _ => rfl, fun s _ _ _ => rfl⟩ o (fun h h2 => no_literal rfl rfl rfl h h2)
theorem andB (w : Bool) (o : Ops) : Statement (.andB w o) := by
  cases w <;>
    exact Plain.round (mk := .andB _) (r := _)
      ⟨fun _ => rfl, fun _ => rfl, fun _ => rfl, fun _ _ => rfl, fun _ => rfl, fun s _ _ _ => rfl⟩ o (fun h h2 => no_literal rfl rfl rfl h h2)
theorem orB (w : Bool) (o : Ops) : Statement (.orB w o) := by
  cases w <;>
    exact Plain.round (mk := .orB _) (r := _)
      ⟨fun _ => rfl, fun _ => rfl, fun _ => rfl, fun _ _ => rfl, fun _ => rfl, fun s _ _ _ => rfl⟩ o (fun h h2 => no_literal rfl rfl rfl h h2)
theorem xorB (w : Bool) (o : Ops) : Statement (.xorB w o) := by
  cases w <;>
    exact Plain.round (mk := .xorB _) (r := _)
      ⟨fun _ => rfl, fun _ => rfl, fun _ => rfl, fun _ _ => rfl, fun _ => rfl, fun s _ _ _ => rfl⟩ o (fun h h2 => no_literal rfl rfl rfl h h2)
theorem andn (w : Bool) (o : Ops) : Statement (.andn w o) := by
  cases w <;>
    exact Plain.round (mk := .andn _) (r := _)
      ⟨fun _ => rfl, fun _ => rfl, fun _ => rfl, fun _ _ => rfl, fun _ => rfl, fun s _ _ _ => rfl⟩ o (fun h h2 => no_literal rfl rfl rfl h h2)
theorem notB (w : Bool) (o : Ops) : Statement (.notB w o) := by
  cases w <;>
    exact Plain.round (mk := .notB _) (r := _)
      ⟨fun _ => rfl, fun _ => rfl, fun _ => rfl, fun _ _ => rfl, fun _ => rfl, fun s _ _ _ => rfl⟩ o (fun h h2 => no_literal rfl rfl rfl h h2)
theorem lut3 (w : Bool) (o : Ops) : Statement (.lut3 w o) := by
  cases w <;>
    exact Plain.round (mk := .lut3 _) (r := _)
      ⟨fun _ => rfl, fun _ => rfl, fun _ => rfl, fun _ _ => rfl, fun _ => rfl, fun s _ _ _ => rfl⟩ o (fun h _ => absurd h (by simp [hasLiteral, Encoding.row, Encoding.ops, isLut3]))
theorem shl (w : Bool) (o : Ops) : Statement (.shl w o) := by
  cases w <;>
    exact Plain.round (mk := .shl _) (r := _)
      ⟨fun _ => rfl, fun _ => rfl, fun _ => rfl, fun _ _ => rfl, fun _ => rfl, fun s _ _ _ => rfl⟩ o (fun h h2 => no_literal rfl rfl rfl h h2)
theorem shr (w : Bool) (o : Ops) : Statement (.shr w o) := by
  cases w <;>
    exact Plain.round (mk := .shr _) (r := _)
      ⟨fun _ => rfl, fun _ => rfl, fun _ => rfl, fun _ _ => rfl, fun _ => rfl, fun s _ _ _ => rfl⟩ o (fun h h2 => no_literal rfl rfl rfl h h2)
theorem sar (w : Bool) (o : Ops) : Statement (.sar w o) := by
  cases w <;>
    exact Plain.round (mk := .sar _) (r := _)
      ⟨fun _ => rfl, fun _ => rfl, fun _ => rfl, fun _ _ => rfl, fun _ => rfl, fun s _ _ _ => rfl⟩ o (fun h h2 => no_literal rfl rfl rfl h h2)
theorem rol (w : Bool) (o : Ops) : Statement (.rol w o) := by
  cases w <;>
    exact Plain.round (mk := .rol _) (r := _)
      ⟨fun _ => rfl, fun _ => rfl, fun _ => rfl, fun _ _ => rfl, fun _ => rfl, fun s _ _ _ => rfl⟩ o (fun h h2 => no_literal rfl rfl rfl h h2)
theorem bfx (w : Bool) (o : Ops) : Statement (.bfx w o) := by
  cases w <;>
    exact Plain.round (mk := .bfx _) (r := _)
      ⟨fun _ => rfl, fun _ => rfl, fun _ => rfl, fun _ _ => rfl, fun _ => rfl, fun s _ _ _ => rfl⟩ o (fun h h2 => no_literal rfl rfl rfl h h2)
theorem bfxs (w : Bool) (o : Ops) : Statement (.bfxs w o) := by
  cases w <;>
    exact Plain.round (mk := .bfxs _) (r := _)
      ⟨fun _ => rfl, fun _ => rfl, fun _ => rfl, fun _ _ => rfl, fun _ => rfl, fun s _ _ _ => rfl⟩ o (fun h h2 => no_literal rfl rfl rfl h h2)
theorem bfi (w : Bool) (o : Ops) : Statement (.bfi w o) := by
  cases w <;>
    exact Plain.round (mk := .bfi _) (r := _)
      ⟨fun _ => rfl, fun _ => rfl, fun _ => rfl, fun _ _ => rfl, fun _ => rfl, fun s _ _ _ => rfl⟩ o (fun h h2 => no_literal rfl rfl rfl h h2)
theorem popc (w : Bool) (o : Ops) : Statement (.popc w o) := by
  cases w <;>
    exact Plain.round (mk := .popc _) (r := _)
      ⟨fun _ => rfl, fun _ => rfl, fun _ => rfl, fun _ _ => rfl, fun _ => rfl, fun s _ _ _ => rfl⟩ o (fun h h2 => no_literal rfl rfl rfl h h2)
theorem clz (w : Bool) (o : Ops) : Statement (.clz w o) := by
  cases w <;>
    exact Plain.round (mk := .clz _) (r := _)
      ⟨fun _ => rfl, fun _ => rfl, fun _ => rfl, fun _ _ => rfl, fun _ => rfl, fun s _ _ _ => rfl⟩ o (fun h h2 => no_literal rfl rfl rfl h h2)
theorem ctz (w : Bool) (o : Ops) : Statement (.ctz w o) := by
  cases w <;>
    exact Plain.round (mk := .ctz _) (r := _)
      ⟨fun _ => rfl, fun _ => rfl, fun _ => rfl, fun _ _ => rfl, fun _ => rfl, fun s _ _ _ => rfl⟩ o (fun h h2 => no_literal rfl rfl rfl h h2)
theorem brev (w : Bool) (o : Ops) : Statement (.brev w o) := by
  cases w <;>
    exact Plain.round (mk := .brev _) (r := _)
      ⟨fun _ => rfl, fun _ => rfl, fun _ => rfl, fun _ _ => rfl, fun _ => rfl, fun s _ _ _ => rfl⟩ o (fun h h2 => no_literal rfl rfl rfl h h2)
theorem prmb (w : Bool) (o : Ops) : Statement (.prmb w o) := by
  cases w <;>
    exact Plain.round (mk := .prmb _) (r := _)
      ⟨fun _ => rfl, fun _ => rfl, fun _ => rfl, fun _ _ => rfl, fun _ => rfl, fun s _ _ _ => rfl⟩ o (fun h h2 => no_literal rfl rfl rfl h h2)
theorem sel (w : Bool) (o : Ops) : Statement (.sel w o) := by
  cases w <;>
    exact Plain.round (mk := .sel _) (r := _)
      ⟨fun _ => rfl, fun _ => rfl, fun _ => rfl, fun _ _ => rfl, fun _ => rfl, fun s _ _ _ => rfl⟩ o (fun h h2 => no_literal rfl rfl rfl h h2)
theorem mov (w : Bool) (o : Ops) : Statement (.mov w o) := by
  cases w <;>
    exact Plain.round (mk := .mov _) (r := _)
      ⟨fun _ => rfl, fun _ => rfl, fun _ => rfl, fun _ _ => rfl, fun _ => rfl, fun s _ _ _ => rfl⟩ o (fun h h2 => no_literal rfl rfl rfl h h2)
theorem cmpEq (w : Bool) (o : Ops) : Statement (.cmpEq w o) := by
  cases w <;>
    exact Plain.round (mk := .cmpEq _) (r := _)
      ⟨fun _ => rfl, fun _ => rfl, fun _ => rfl, fun _ _ => rfl, fun _ => rfl, fun s _ _ _ => rfl⟩ o (fun h h2 => no_literal rfl rfl rfl h h2)
theorem cmpNe (w : Bool) (o : Ops) : Statement (.cmpNe w o) := by
  cases w <;>
    exact Plain.round (mk := .cmpNe _) (r := _)
      ⟨fun _ => rfl, fun _ => rfl, fun _ => rfl, fun _ _ => rfl, fun _ => rfl, fun s _ _ _ => rfl⟩ o (fun h h2 => no_literal rfl rfl rfl h h2)
theorem cmpLt (w : Bool) (o : Ops) : Statement (.cmpLt w o) := by
  cases w <;>
    exact Plain.round (mk := .cmpLt _) (r := _)
      ⟨fun _ => rfl, fun _ => rfl, fun _ => rfl, fun _ _ => rfl, fun _ => rfl, fun s _ _ _ => rfl⟩ o (fun h h2 => no_literal rfl rfl rfl h h2)
theorem cmpLe (w : Bool) (o : Ops) : Statement (.cmpLe w o) := by
  cases w <;>
    exact Plain.round (mk := .cmpLe _) (r := _)
      ⟨fun _ => rfl, fun _ => rfl, fun _ => rfl, fun _ _ => rfl, fun _ => rfl, fun s _ _ _ => rfl⟩ o (fun h h2 => no_literal rfl rfl rfl h h2)
theorem cmpLtn (w : Bool) (o : Ops) : Statement (.cmpLtn w o) := by
  cases w <;>
    exact Plain.round (mk := .cmpLtn _) (r := _)
      ⟨fun _ => rfl, fun _ => rfl, fun _ => rfl, fun _ _ => rfl, fun _ => rfl, fun s _ _ _ => rfl⟩ o (fun h h2 => no_literal rfl rfl rfl h h2)
theorem cmpLen (w : Bool) (o : Ops) : Statement (.cmpLen w o) := by
  cases w <;>
    exact Plain.round (mk := .cmpLen _) (r := _)
      ⟨fun _ => rfl, fun _ => rfl, fun _ => rfl, fun _ _ => rfl, fun _ => rfl, fun s _ _ _ => rfl⟩ o (fun h h2 => no_literal rfl rfl rfl h h2)
theorem testZ (w : Bool) (o : Ops) : Statement (.testZ w o) := by
  cases w <;>
    exact Plain.round (mk := .testZ _) (r := _)
      ⟨fun _ => rfl, fun _ => rfl, fun _ => rfl, fun _ _ => rfl, fun _ => rfl, fun s _ _ _ => rfl⟩ o (fun h h2 => no_literal rfl rfl rfl h h2)
theorem testNz (w : Bool) (o : Ops) : Statement (.testNz w o) := by
  cases w <;>
    exact Plain.round (mk := .testNz _) (r := _)
      ⟨fun _ => rfl, fun _ => rfl, fun _ => rfl, fun _ _ => rfl, fun _ => rfl, fun s _ _ _ => rfl⟩ o (fun h h2 => no_literal rfl rfl rfl h h2)
theorem fadd (f : BitVec 2) (o : Ops) : Statement (.fadd f o) := by
  rcases two_bits f with rfl | rfl | rfl | rfl <;>
    exact Plain.round (mk := .fadd _) (r := _)
      ⟨fun _ => rfl, fun _ => rfl, fun _ => rfl, fun _ _ => rfl, fun _ => rfl, fun s _ _ _ => rfl⟩ o (fun h h2 => no_literal rfl rfl rfl h h2)
theorem fsub (f : BitVec 2) (o : Ops) : Statement (.fsub f o) := by
  rcases two_bits f with rfl | rfl | rfl | rfl <;>
    exact Plain.round (mk := .fsub _) (r := _)
      ⟨fun _ => rfl, fun _ => rfl, fun _ => rfl, fun _ _ => rfl, fun _ => rfl, fun s _ _ _ => rfl⟩ o (fun h h2 => no_literal rfl rfl rfl h h2)
theorem fmul (f : BitVec 2) (o : Ops) : Statement (.fmul f o) := by
  rcases two_bits f with rfl | rfl | rfl | rfl <;>
    exact Plain.round (mk := .fmul _) (r := _)
      ⟨fun _ => rfl, fun _ => rfl, fun _ => rfl, fun _ _ => rfl, fun _ => rfl, fun s _ _ _ => rfl⟩ o (fun h h2 => no_literal rfl rfl rfl h h2)
theorem fma (f : BitVec 2) (o : Ops) : Statement (.fma f o) := by
  rcases two_bits f with rfl | rfl | rfl | rfl <;>
    exact Plain.round (mk := .fma _) (r := _)
      ⟨fun _ => rfl, fun _ => rfl, fun _ => rfl, fun _ _ => rfl, fun _ => rfl, fun s _ _ _ => rfl⟩ o (fun h h2 => no_literal rfl rfl rfl h h2)
theorem fmin (f : BitVec 2) (o : Ops) : Statement (.fmin f o) := by
  rcases two_bits f with rfl | rfl | rfl | rfl <;>
    exact Plain.round (mk := .fmin _) (r := _)
      ⟨fun _ => rfl, fun _ => rfl, fun _ => rfl, fun _ _ => rfl, fun _ => rfl, fun s _ _ _ => rfl⟩ o (fun h h2 => no_literal rfl rfl rfl h h2)
theorem fmax (f : BitVec 2) (o : Ops) : Statement (.fmax f o) := by
  rcases two_bits f with rfl | rfl | rfl | rfl <;>
    exact Plain.round (mk := .fmax _) (r := _)
      ⟨fun _ => rfl, fun _ => rfl, fun _ => rfl, fun _ _ => rfl, fun _ => rfl, fun s _ _ _ => rfl⟩ o (fun h h2 => no_literal rfl rfl rfl h h2)
theorem fdiv (f : BitVec 2) (o : Ops) : Statement (.fdiv f o) := by
  rcases two_bits f with rfl | rfl | rfl | rfl <;>
    exact Plain.round (mk := .fdiv _) (r := _)
      ⟨fun _ => rfl, fun _ => rfl, fun _ => rfl, fun _ _ => rfl, fun _ => rfl, fun s _ _ _ => rfl⟩ o (fun h h2 => no_literal rfl rfl rfl h h2)
theorem fsqrt (f : BitVec 2) (o : Ops) : Statement (.fsqrt f o) := by
  rcases two_bits f with rfl | rfl | rfl | rfl <;>
    exact Plain.round (mk := .fsqrt _) (r := _)
      ⟨fun _ => rfl, fun _ => rfl, fun _ => rfl, fun _ _ => rfl, fun _ => rfl, fun s _ _ _ => rfl⟩ o (fun h h2 => no_literal rfl rfl rfl h h2)
theorem frcp (f : BitVec 2) (o : Ops) : Statement (.frcp f o) := by
  rcases two_bits f with rfl | rfl | rfl | rfl <;>
    exact Plain.round (mk := .frcp _) (r := _)
      ⟨fun _ => rfl, fun _ => rfl, fun _ => rfl, fun _ _ => rfl, fun _ => rfl, fun s _ _ _ => rfl⟩ o (fun h h2 => no_literal rfl rfl rfl h h2)
theorem frsq (f : BitVec 2) (o : Ops) : Statement (.frsq f o) := by
  rcases two_bits f with rfl | rfl | rfl | rfl <;>
    exact Plain.round (mk := .frsq _) (r := _)
      ⟨fun _ => rfl, fun _ => rfl, fun _ => rfl, fun _ _ => rfl, fun _ => rfl, fun s _ _ _ => rfl⟩ o (fun h h2 => no_literal rfl rfl rfl h h2)
theorem fexp2 (f : BitVec 2) (o : Ops) : Statement (.fexp2 f o) := by
  rcases two_bits f with rfl | rfl | rfl | rfl <;>
    exact Plain.round (mk := .fexp2 _) (r := _)
      ⟨fun _ => rfl, fun _ => rfl, fun _ => rfl, fun _ _ => rfl, fun _ => rfl, fun s _ _ _ => rfl⟩ o (fun h h2 => no_literal rfl rfl rfl h h2)
theorem flog2 (f : BitVec 2) (o : Ops) : Statement (.flog2 f o) := by
  rcases two_bits f with rfl | rfl | rfl | rfl <;>
    exact Plain.round (mk := .flog2 _) (r := _)
      ⟨fun _ => rfl, fun _ => rfl, fun _ => rfl, fun _ _ => rfl, fun _ => rfl, fun s _ _ _ => rfl⟩ o (fun h h2 => no_literal rfl rfl rfl h h2)
theorem fcmp (c : BitVec 2) (f : BitVec 2) (o : Ops) : Statement (.fcmp c f o) := by
  rcases two_bits c with rfl | rfl | rfl | rfl <;> rcases two_bits f with rfl | rfl | rfl | rfl <;>
    exact Plain.round (mk := .fcmp _ _) (r := _)
      ⟨fun _ => rfl, fun _ => rfl, fun _ => rfl, fun _ _ => rfl, fun _ => rfl, fun s _ _ _ => rfl⟩ o (fun h h2 => no_literal rfl rfl rfl h h2)
theorem cvt (src : BitVec 4) (o : Ops) : Statement (.cvt src o) := by
  rcases four_bits src with rfl | rfl | rfl | rfl | rfl | rfl | rfl | rfl | rfl | rfl | rfl | rfl | rfl | rfl | rfl | rfl <;>
    exact Plain.round (mk := .cvt _) (r := _)
      ⟨fun _ => rfl, fun _ => rfl, fun _ => rfl, fun _ _ => rfl, fun _ => rfl, fun s _ _ _ => rfl⟩ o (fun h h2 => no_literal rfl rfl rfl h h2)
theorem frnd (o : Ops) : Statement (.frnd o) :=
  Plain.round (mk := .frnd) (r := ⟨3#3 ++ 0x10#6, .both, true, .dst, .code, .imm⟩)
    ⟨fun _ => rfl, fun _ => rfl, fun _ => rfl, fun _ _ => rfl, fun _ => rfl, fun s _ _ _ => rfl⟩ o (fun h h2 => no_literal rfl rfl rfl h h2)
theorem fclass (o : Ops) : Statement (.fclass o) :=
  Plain.round (mk := .fclass) (r := ⟨3#3 ++ 0x11#6, .both, true, .dst, .code, .imm⟩)
    ⟨fun _ => rfl, fun _ => rfl, fun _ => rfl, fun _ _ => rfl, fun _ => rfl, fun s _ _ _ => rfl⟩ o (fun h h2 => no_literal rfl rfl rfl h h2)
theorem pack (o : Ops) : Statement (.pack o) :=
  Plain.round (mk := .pack) (r := ⟨3#3 ++ 0x12#6, .both, true, .dst, .code, .code⟩)
    ⟨fun _ => rfl, fun _ => rfl, fun _ => rfl, fun _ _ => rfl, fun _ => rfl, fun s _ _ _ => rfl⟩ o (fun h h2 => no_literal rfl rfl rfl h h2)
theorem unpk (o : Ops) : Statement (.unpk o) :=
  Plain.round (mk := .unpk) (r := ⟨3#3 ++ 0x13#6, .both, true, .dst, .code, .imm⟩)
    ⟨fun _ => rfl, fun _ => rfl, fun _ => rfl, fun _ _ => rfl, fun _ => rfl, fun s _ _ _ => rfl⟩ o (fun h h2 => no_literal rfl rfl rfl h h2)
theorem dot4 (k : BitVec 2) (o : Ops) : Statement (.dot4 k o) := by
  rcases two_bits k with rfl | rfl | rfl | rfl <;>
    exact Plain.round (mk := .dot4 _) (r := _)
      ⟨fun _ => rfl, fun _ => rfl, fun _ => rfl, fun _ _ => rfl, fun _ => rfl, fun s _ _ _ => rfl⟩ o (fun h h2 => no_literal rfl rfl rfl h h2)
theorem dot2 (k : Bool) (o : Ops) : Statement (.dot2 k o) := by
  cases k <;>
    exact Plain.round (mk := .dot2 _) (r := _)
      ⟨fun _ => rfl, fun _ => rfl, fun _ => rfl, fun _ _ => rfl, fun _ => rfl, fun s _ _ _ => rfl⟩ o (fun h h2 => no_literal rfl rfl rfl h h2)
theorem dot8 (o : Ops) : Statement (.dot8 o) :=
  Plain.round (mk := .dot8) (r := ⟨3#3 ++ 0x1A#6, .both, true, .both, .code, .code⟩)
    ⟨fun _ => rfl, fun _ => rfl, fun _ => rfl, fun _ _ => rfl, fun _ => rfl, fun s _ _ _ => rfl⟩ o (fun h h2 => no_literal rfl rfl rfl h h2)
theorem qnt (k : BitVec 2) (o : Ops) : Statement (.qnt k o) := by
  rcases two_bits k with rfl | rfl | rfl | rfl <;>
    exact Plain.round (mk := .qnt _) (r := _)
      ⟨fun _ => rfl, fun _ => rfl, fun _ => rfl, fun _ _ => rfl, fun _ => rfl, fun s _ _ _ => rfl⟩ o (fun h h2 => no_literal rfl rfl rfl h h2)
theorem dqnt (k : BitVec 2) (o : Ops) : Statement (.dqnt k o) := by
  rcases two_bits k with rfl | rfl | rfl | rfl <;>
    exact Plain.round (mk := .dqnt _) (r := _)
      ⟨fun _ => rfl, fun _ => rfl, fun _ => rfl, fun _ _ => rfl, fun _ => rfl, fun s _ _ _ => rfl⟩ o (fun h h2 => no_literal rfl rfl rfl h h2)
theorem bxenc (k : BitVec 2) (o : Ops) : Statement (.bxenc k o) := by
  rcases two_bits k with rfl | rfl | rfl | rfl <;> first
    | exact Plain.round (mk := .bxenc _) (r := _)
        ⟨fun _ => rfl, fun _ => rfl, fun _ => rfl, fun _ _ => rfl, fun _ => rfl, fun s _ _ _ => rfl⟩ o (fun h h2 => no_literal rfl rfl rfl h h2)
    | exact fun h => absurd (wf_ok h).1 (by simp [firstOk, Encoding.row, Encoding.ops, immOk])
theorem bxdecBx3 (o : Ops) : Statement (.bxdecBx3 o) :=
  Plain.round (mk := .bxdecBx3) (r := ⟨3#3 ++ 0x2B#6, .vector, true, .dst, .code, .rsv⟩)
    ⟨fun _ => rfl, fun _ => rfl, fun _ => rfl, fun _ _ => rfl, fun _ => rfl, fun s _ _ _ => rfl⟩ o (fun h h2 => no_literal rfl rfl rfl h h2)
theorem bxdecBx5 (o : Ops) : Statement (.bxdecBx5 o) :=
  Plain.round (mk := .bxdecBx5) (r := ⟨3#3 ++ 0x2C#6, .vector, true, .dst, .code, .rsv⟩)
    ⟨fun _ => rfl, fun _ => rfl, fun _ => rfl, fun _ _ => rfl, fun _ => rfl, fun s _ _ _ => rfl⟩ o (fun h h2 => no_literal rfl rfl rfl h h2)
theorem bxdecBx8 (o : Ops) : Statement (.bxdecBx8 o) :=
  Plain.round (mk := .bxdecBx8) (r := ⟨3#3 ++ 0x2D#6, .vector, true, .dst, .code, .rsv⟩)
    ⟨fun _ => rfl, fun _ => rfl, fun _ => rfl, fun _ _ => rfl, fun _ => rfl, fun s _ _ _ => rfl⟩ o (fun h h2 => no_literal rfl rfl rfl h h2)
theorem br (off : BitVec 22) : Statement (.br off) := jump_round rfl rfl (fun _ _ => rfl) rfl rfl
theorem brc (cond : Code) (off : BitVec 15) : Statement (.brc cond off) := by
  refine jump_round rfl rfl (fun _ _ => ?_) rfl rfl
  have h1 : (cond ++ off : BitVec 22).extractLsb' 15 7 = cond := by
    apply BitVec.eq_of_getLsbD_eq; intro i hi
    simp only [BitVec.getLsbD_extractLsb', BitVec.getLsbD_append]
    rw [if_neg (by omega)]; simp [hi, show 15 + i - 15 = i by omega]
  have h2 : (cond ++ off : BitVec 22).extractLsb' 0 15 = off := by
    apply BitVec.eq_of_getLsbD_eq; intro i hi
    simp only [BitVec.getLsbD_extractLsb', BitVec.getLsbD_append]
    rw [if_pos (by omega)]; simp [hi]
  show some (Instr.brc ((cond ++ off : BitVec 22).extractLsb' 15 7) ((cond ++ off : BitVec 22).extractLsb' 0 15)) = _
  rw [h1, h2]
theorem brx (o : Ops) (c : Ctl) : Statement (.brx o c) :=
  Ordered.round (mk := .brx) (r := ⟨4#3 ++ 0x02#6, .vector, false, .rsv, .code, .code⟩)
    ⟨fun _ _ => rfl, fun _ _ => rfl, fun _ _ => rfl, fun _ _ => rfl, fun _ _ => rfl, fun _ _ => rfl, fun s _ _ _ => by cases s <;> rfl⟩ o c
theorem call (off : BitVec 22) : Statement (.call off) := jump_round rfl rfl (fun _ _ => rfl) rfl rfl
theorem callx (o : Ops) : Statement (.callx o) :=
  Plain.round (mk := .callx) (r := ⟨4#3 ++ 0x04#6, .vector, false, .dst, .code, .rsv⟩)
    ⟨fun _ => rfl, fun _ => rfl, fun _ => rfl, fun _ _ => rfl, fun _ => rfl, fun s _ _ _ => by cases s <;> rfl⟩ o (fun h h2 => no_literal rfl rfl rfl h h2)
theorem ret (o : Ops) : Statement (.ret o) :=
  Plain.round (mk := .ret) (r := ⟨4#3 ++ 0x05#6, .vector, false, .rsv, .code, .rsv⟩)
    ⟨fun _ => rfl, fun _ => rfl, fun _ => rfl, fun _ _ => rfl, fun _ => rfl, fun s _ _ _ => by cases s <;> rfl⟩ o (fun h h2 => no_literal rfl rfl rfl h h2)
theorem jenr (o : Ops) : Statement (.jenr o) :=
  Plain.round (mk := .jenr) (r := ⟨4#3 ++ 0x06#6, .vector, false, .rsv, .imm, .rsv⟩)
    ⟨fun _ => rfl, fun _ => rfl, fun _ => rfl, fun _ _ => rfl, fun _ => rfl, fun s _ _ _ => by cases s <;> rfl⟩ o (fun h h2 => no_literal rfl rfl rfl h h2)
theorem jwait (o : Ops) : Statement (.jwait o) :=
  Plain.round (mk := .jwait) (r := ⟨4#3 ++ 0x07#6, .vector, false, .rsv, .imm, .rsv⟩)
    ⟨fun _ => rfl, fun _ => rfl, fun _ => rfl, fun _ _ => rfl, fun _ => rfl, fun s _ _ _ => by cases s <;> rfl⟩ o (fun h h2 => no_literal rfl rfl rfl h h2)
theorem exit (o : Ops) : Statement (.exit o) :=
  Plain.round (mk := .exit) (r := ⟨4#3 ++ 0x08#6, .vector, false, .rsv, .rsv, .rsv⟩)
    ⟨fun _ => rfl, fun _ => rfl, fun _ => rfl, fun _ _ => rfl, fun _ => rfl, fun s _ _ _ => by cases s <;> rfl⟩ o (fun h h2 => no_literal rfl rfl rfl h h2)
theorem wbase (o : Ops) : Statement (.wbase o) :=
  Plain.round (mk := .wbase) (r := ⟨4#3 ++ 0x09#6, .scalar, false, .dst, .code, .code⟩)
    ⟨fun _ => rfl, fun _ => rfl, fun _ => rfl, fun _ _ => rfl, fun _ => rfl, fun s _ _ _ => by cases s <;> rfl⟩ o (fun h h2 => no_literal rfl rfl rfl h h2)
theorem nop (o : Ops) : Statement (.nop o) :=
  Plain.round (mk := .nop) (r := ⟨4#3 ++ 0x0A#6, .both, false, .rsv, .rsv, .rsv⟩)
    ⟨fun _ => rfl, fun _ => rfl, fun _ => rfl, fun _ _ => rfl, fun _ => rfl, fun s _ _ _ => by cases s <;> rfl⟩ o (fun h h2 => no_literal rfl rfl rfl h h2)
theorem yield (o : Ops) : Statement (.yield o) :=
  Plain.round (mk := .yield) (r := ⟨4#3 ++ 0x0B#6, .vector, false, .rsv, .rsv, .rsv⟩)
    ⟨fun _ => rfl, fun _ => rfl, fun _ => rfl, fun _ _ => rfl, fun _ => rfl, fun s _ _ _ => by cases s <;> rfl⟩ o (fun h h2 => no_literal rfl rfl rfl h h2)
theorem ballot (o : Ops) : Statement (.ballot o) :=
  Plain.round (mk := .ballot) (r := ⟨4#3 ++ 0x0C#6, .vector, true, .dst, .code, .rsv⟩)
    ⟨fun _ => rfl, fun _ => rfl, fun _ => rfl, fun _ _ => rfl, fun _ => rfl, fun s _ _ _ => by cases s <;> rfl⟩ o (fun h h2 => no_literal rfl rfl rfl h h2)
theorem vany (o : Ops) : Statement (.vany o) :=
  Plain.round (mk := .vany) (r := ⟨4#3 ++ 0x0D#6, .vector, true, .dst, .code, .rsv⟩)
    ⟨fun _ => rfl, fun _ => rfl, fun _ => rfl, fun _ _ => rfl, fun _ => rfl, fun s _ _ _ => by cases s <;> rfl⟩ o (fun h h2 => no_literal rfl rfl rfl h h2)
theorem vall (o : Ops) : Statement (.vall o) :=
  Plain.round (mk := .vall) (r := ⟨4#3 ++ 0x0E#6, .vector, true, .dst, .code, .rsv⟩)
    ⟨fun _ => rfl, fun _ => rfl, fun _ => rfl, fun _ _ => rfl, fun _ => rfl, fun s _ _ _ => by cases s <;> rfl⟩ o (fun h h2 => no_literal rfl rfl rfl h h2)
theorem rankl (o : Ops) : Statement (.rankl o) :=
  Plain.round (mk := .rankl) (r := ⟨4#3 ++ 0x0F#6, .vector, true, .dst, .code, .rsv⟩)
    ⟨fun _ => rfl, fun _ => rfl, fun _ => rfl, fun _ _ => rfl, fun _ => rfl, fun s _ _ _ => by cases s <;> rfl⟩ o (fun h h2 => no_literal rfl rfl rfl h h2)
theorem elect (o : Ops) : Statement (.elect o) :=
  Plain.round (mk := .elect) (r := ⟨4#3 ++ 0x10#6, .vector, true, .dst, .rsv, .rsv⟩)
    ⟨fun _ => rfl, fun _ => rfl, fun _ => rfl, fun _ _ => rfl, fun _ => rfl, fun s _ _ _ => by cases s <;> rfl⟩ o (fun h h2 => no_literal rfl rfl rfl h h2)
theorem rdln (o : Ops) : Statement (.rdln o) :=
  Plain.round (mk := .rdln) (r := ⟨4#3 ++ 0x11#6, .vector, true, .dst, .code, .code⟩)
    ⟨fun _ => rfl, fun _ => rfl, fun _ => rfl, fun _ _ => rfl, fun _ => rfl, fun s _ _ _ => by cases s <;> rfl⟩ o (fun h h2 => no_literal rfl rfl rfl h h2)
theorem wrln (o : Ops) : Statement (.wrln o) :=
  Plain.round (mk := .wrln) (r := ⟨4#3 ++ 0x12#6, .vector, false, .dst, .code, .code⟩)
    ⟨fun _ => rfl, fun _ => rfl, fun _ => rfl, fun _ _ => rfl, fun _ => rfl, fun s _ _ _ => by cases s <;> rfl⟩ o (fun h h2 => no_literal rfl rfl rfl h h2)
theorem shfl (o : Ops) : Statement (.shfl o) :=
  Plain.round (mk := .shfl) (r := ⟨4#3 ++ 0x13#6, .vector, true, .dst, .code, .code⟩)
    ⟨fun _ => rfl, fun _ => rfl, fun _ => rfl, fun _ _ => rfl, fun _ => rfl, fun s _ _ _ => by cases s <;> rfl⟩ o (fun h h2 => no_literal rfl rfl rfl h h2)
theorem shflx (o : Ops) : Statement (.shflx o) :=
  Plain.round (mk := .shflx) (r := ⟨4#3 ++ 0x14#6, .vector, true, .dst, .code, .code⟩)
    ⟨fun _ => rfl, fun _ => rfl, fun _ => rfl, fun _ _ => rfl, fun _ => rfl, fun s _ _ _ => by cases s <;> rfl⟩ o (fun h h2 => no_literal rfl rfl rfl h h2)
theorem shflu (o : Ops) : Statement (.shflu o) :=
  Plain.round (mk := .shflu) (r := ⟨4#3 ++ 0x15#6, .vector, true, .dst, .code, .code⟩)
    ⟨fun _ => rfl, fun _ => rfl, fun _ => rfl, fun _ _ => rfl, fun _ => rfl, fun s _ _ _ => by cases s <;> rfl⟩ o (fun h h2 => no_literal rfl rfl rfl h h2)
theorem shfld (o : Ops) : Statement (.shfld o) :=
  Plain.round (mk := .shfld) (r := ⟨4#3 ++ 0x16#6, .vector, true, .dst, .code, .code⟩)
    ⟨fun _ => rfl, fun _ => rfl, fun _ => rfl, fun _ _ => rfl, fun _ => rfl, fun s _ _ _ => by cases s <;> rfl⟩ o (fun h h2 => no_literal rfl rfl rfl h h2)
theorem scana (o : Ops) : Statement (.scana o) :=
  Plain.round (mk := .scana) (r := ⟨4#3 ++ 0x17#6, .vector, true, .dst, .code, .imm⟩)
    ⟨fun _ => rfl, fun _ => rfl, fun _ => rfl, fun _ _ => rfl, fun _ => rfl, fun s _ _ _ => by cases s <;> rfl⟩ o (fun h h2 => no_literal rfl rfl rfl h h2)
theorem reda (o : Ops) : Statement (.reda o) :=
  Plain.round (mk := .reda) (r := ⟨4#3 ++ 0x18#6, .vector, true, .dst, .code, .imm⟩)
    ⟨fun _ => rfl, fun _ => rfl, fun _ => rfl, fun _ _ => rfl, fun _ => rfl, fun s _ _ _ => by cases s <;> rfl⟩ o (fun h h2 => no_literal rfl rfl rfl h h2)
theorem redm (o : Ops) : Statement (.redm o) :=
  Plain.round (mk := .redm) (r := ⟨4#3 ++ 0x19#6, .vector, true, .dst, .code, .imm⟩)
    ⟨fun _ => rfl, fun _ => rfl, fun _ => rfl, fun _ _ => rfl, fun _ => rfl, fun s _ _ _ => by cases s <;> rfl⟩ o (fun h h2 => no_literal rfl rfl rfl h h2)
theorem syncw (o : Ops) (c : Ctl) : Statement (.syncw o c) :=
  Ordered.round (mk := .syncw) (r := ⟨4#3 ++ 0x1A#6, .vector, false, .rsv, .code, .rsv⟩)
    ⟨fun _ _ => rfl, fun _ _ => rfl, fun _ _ => rfl, fun _ _ => rfl, fun _ _ => rfl, fun _ _ => rfl, fun s _ _ _ => by cases s <;> rfl⟩ o c
theorem actm (o : Ops) : Statement (.actm o) :=
  Plain.round (mk := .actm) (r := ⟨4#3 ++ 0x1B#6, .vector, true, .dst, .code, .rsv⟩)
    ⟨fun _ => rfl, fun _ => rfl, fun _ => rfl, fun _ _ => rfl, fun _ => rfl, fun s _ _ _ => by cases s <;> rfl⟩ o (fun h h2 => no_literal rfl rfl rfl h h2)
theorem sleep (o : Ops) : Statement (.sleep o) :=
  Plain.round (mk := .sleep) (r := ⟨4#3 ++ 0x1C#6, .vector, false, .rsv, .code, .rsv⟩)
    ⟨fun _ => rfl, fun _ => rfl, fun _ => rfl, fun _ _ => rfl, fun _ => rfl, fun s _ _ _ => by cases s <;> rfl⟩ o (fun h h2 => no_literal rfl rfl rfl h h2)
theorem ld (k : BitVec 3) (o : Ops) : Statement (.ld k o) := by
  rcases three_bits k with rfl | rfl | rfl | rfl | rfl | rfl | rfl | rfl <;> first
    | exact Plain.round (mk := .ld _) (r := _)
        ⟨fun _ => rfl, fun _ => rfl, fun _ => rfl, fun _ _ => rfl, fun _ => rfl, fun s _ _ _ => rfl⟩ o (fun h h2 => no_literal rfl rfl rfl h h2)
    | exact fun h => absurd (wf_ok h).1 (by simp [firstOk, Encoding.row, Encoding.ops, immOk])
theorem ldt (k : BitVec 3) (o : Ops) : Statement (.ldt k o) := by
  rcases three_bits k with rfl | rfl | rfl | rfl | rfl | rfl | rfl | rfl <;> first
    | exact Plain.round (mk := .ldt _) (r := _)
        ⟨fun _ => rfl, fun _ => rfl, fun _ => rfl, fun _ _ => rfl, fun _ => rfl, fun s _ _ _ => rfl⟩ o (fun h h2 => no_literal rfl rfl rfl h h2)
    | exact fun h => absurd (wf_ok h).1 (by simp [firstOk, Encoding.row, Encoding.ops, immOk])
theorem ldp (k : BitVec 3) (o : Ops) : Statement (.ldp k o) := by
  rcases three_bits k with rfl | rfl | rfl | rfl | rfl | rfl | rfl | rfl <;> first
    | exact Plain.round (mk := .ldp _) (r := _)
        ⟨fun _ => rfl, fun _ => rfl, fun _ => rfl, fun _ _ => rfl, fun _ => rfl, fun s _ _ _ => rfl⟩ o (fun h h2 => no_literal rfl rfl rfl h h2)
    | exact fun h => absurd (wf_ok h).1 (by simp [firstOk, Encoding.row, Encoding.ops, immOk])
theorem pf (o : Ops) : Statement (.pf o) :=
  Plain.round (mk := .pf) (r := ⟨5#3 ++ 0x07#6, .both, false, .rsv, .code, .code⟩)
    ⟨fun _ => rfl, fun _ => rfl, fun _ => rfl, fun _ _ => rfl, fun _ => rfl, fun s _ _ _ => rfl⟩ o (fun h h2 => no_literal rfl rfl rfl h h2)
theorem st (k : BitVec 3) (o : Ops) : Statement (.st k o) := by
  rcases three_bits k with rfl | rfl | rfl | rfl | rfl | rfl | rfl | rfl <;> first
    | exact Plain.round (mk := .st _) (r := _)
        ⟨fun _ => rfl, fun _ => rfl, fun _ => rfl, fun _ _ => rfl, fun _ => rfl, fun s _ _ _ => rfl⟩ o (fun h h2 => no_literal rfl rfl rfl h h2)
    | exact fun h => absurd (wf_ok h).1 (by simp [firstOk, Encoding.row, Encoding.ops, immOk])
theorem stt (k : BitVec 3) (o : Ops) : Statement (.stt k o) := by
  rcases three_bits k with rfl | rfl | rfl | rfl | rfl | rfl | rfl | rfl <;> first
    | exact Plain.round (mk := .stt _) (r := _)
        ⟨fun _ => rfl, fun _ => rfl, fun _ => rfl, fun _ _ => rfl, fun _ => rfl, fun s _ _ _ => rfl⟩ o (fun h h2 => no_literal rfl rfl rfl h h2)
    | exact fun h => absurd (wf_ok h).1 (by simp [firstOk, Encoding.row, Encoding.ops, immOk])
theorem stp (k : BitVec 3) (o : Ops) : Statement (.stp k o) := by
  rcases three_bits k with rfl | rfl | rfl | rfl | rfl | rfl | rfl | rfl <;> first
    | exact Plain.round (mk := .stp _) (r := _)
        ⟨fun _ => rfl, fun _ => rfl, fun _ => rfl, fun _ _ => rfl, fun _ => rfl, fun s _ _ _ => rfl⟩ o (fun h h2 => no_literal rfl rfl rfl h h2)
    | exact fun h => absurd (wf_ok h).1 (by simp [firstOk, Encoding.row, Encoding.ops, immOk])
theorem stc (o : Ops) : Statement (.stc o) :=
  Plain.round (mk := .stc) (r := ⟨5#3 ++ 0x0D#6, .vector, false, .both, .code, .code⟩)
    ⟨fun _ => rfl, fun _ => rfl, fun _ => rfl, fun _ _ => rfl, fun _ => rfl, fun s _ _ _ => rfl⟩ o (fun h h2 => no_literal rfl rfl rfl h h2)
theorem lde (o : Ops) : Statement (.lde o) :=
  Plain.round (mk := .lde) (r := ⟨5#3 ++ 0x0E#6, .vector, true, .dst, .code, .code⟩)
    ⟨fun _ => rfl, fun _ => rfl, fun _ => rfl, fun _ _ => rfl, fun _ => rfl, fun s _ _ _ => rfl⟩ o (fun h h2 => no_literal rfl rfl rfl h h2)
theorem pushv (o : Ops) : Statement (.pushv o) :=
  Plain.round (mk := .pushv) (r := ⟨5#3 ++ 0x30#6, .vector, false, .both, .rsv, .rsv⟩)
    ⟨fun _ => rfl, fun _ => rfl, fun _ => rfl, fun _ _ => rfl, fun _ => rfl, fun s _ _ _ => rfl⟩ o (fun h h2 => no_literal rfl rfl rfl h h2)
theorem popv (o : Ops) : Statement (.popv o) :=
  Plain.round (mk := .popv) (r := ⟨5#3 ++ 0x31#6, .vector, false, .dst, .rsv, .rsv⟩)
    ⟨fun _ => rfl, fun _ => rfl, fun _ => rfl, fun _ _ => rfl, fun _ => rfl, fun s _ _ _ => rfl⟩ o (fun h h2 => no_literal rfl rfl rfl h h2)
theorem atom (o : Ops) (c : Ctl) : Statement (.atom o c) :=
  Ordered.round (mk := .atom) (r := ⟨5#3 ++ 0x32#6, .both, false, .dst, .code, .code⟩)
    ⟨fun _ _ => rfl, fun _ _ => rfl, fun _ _ => rfl, fun _ _ => rfl, fun _ _ => rfl, fun _ _ => rfl, fun s _ _ _ => rfl⟩ o c
theorem cas (o : Ops) (c : Ctl) : Statement (.cas o c) :=
  Ordered.round (mk := .cas) (r := ⟨5#3 ++ 0x33#6, .both, false, .both, .code, .code⟩)
    ⟨fun _ _ => rfl, fun _ _ => rfl, fun _ _ => rfl, fun _ _ => rfl, fun _ _ => rfl, fun _ _ => rfl, fun s _ _ _ => rfl⟩ o c
theorem red (o : Ops) (c : Ctl) : Statement (.red o c) :=
  Ordered.round (mk := .red) (r := ⟨5#3 ++ 0x34#6, .both, false, .rsv, .code, .code⟩)
    ⟨fun _ _ => rfl, fun _ _ => rfl, fun _ _ => rfl, fun _ _ => rfl, fun _ _ => rfl, fun _ _ => rfl, fun s _ _ _ => rfl⟩ o c
theorem lda (o : Ops) (c : Ctl) : Statement (.lda o c) :=
  Ordered.round (mk := .lda) (r := ⟨5#3 ++ 0x35#6, .both, false, .dst, .code, .code⟩)
    ⟨fun _ _ => rfl, fun _ _ => rfl, fun _ _ => rfl, fun _ _ => rfl, fun _ _ => rfl, fun _ _ => rfl, fun s _ _ _ => rfl⟩ o c
theorem stl (o : Ops) (c : Ctl) : Statement (.stl o c) :=
  Ordered.round (mk := .stl) (r := ⟨5#3 ++ 0x36#6, .both, false, .both, .code, .code⟩)
    ⟨fun _ _ => rfl, fun _ _ => rfl, fun _ _ => rfl, fun _ _ => rfl, fun _ _ => rfl, fun _ _ => rfl, fun s _ _ _ => rfl⟩ o c
theorem fence (o : Ops) (c : Ctl) : Statement (.fence o c) :=
  Ordered.round (mk := .fence) (r := ⟨5#3 ++ 0x37#6, .both, false, .rsv, .rsv, .rsv⟩)
    ⟨fun _ _ => rfl, fun _ _ => rfl, fun _ _ => rfl, fun _ _ => rfl, fun _ _ => rfl, fun _ _ => rfl, fun s _ _ _ => rfl⟩ o c
theorem cinv (o : Ops) : Statement (.cinv o) :=
  Plain.round (mk := .cinv) (r := ⟨5#3 ++ 0x38#6, .both, false, .rsv, .code, .code⟩)
    ⟨fun _ => rfl, fun _ => rfl, fun _ => rfl, fun _ _ => rfl, fun _ => rfl, fun s _ _ _ => rfl⟩ o (fun h h2 => no_literal rfl rfl rfl h h2)
theorem cwb (o : Ops) : Statement (.cwb o) :=
  Plain.round (mk := .cwb) (r := ⟨5#3 ++ 0x39#6, .both, false, .rsv, .code, .code⟩)
    ⟨fun _ => rfl, fun _ => rfl, fun _ => rfl, fun _ _ => rfl, fun _ => rfl, fun s _ _ _ => rfl⟩ o (fun h h2 => no_literal rfl rfl rfl h h2)
theorem cpy (o : Ops) (c : Ctl) : Statement (.cpy o c) :=
  Ordered.round (mk := .cpy) (r := ⟨6#3 ++ 0x00#6, .both, false, .dst, .code, .code⟩)
    ⟨fun _ _ => rfl, fun _ _ => rfl, fun _ _ => rfl, fun _ _ => rfl, fun _ _ => rfl, fun _ _ => rfl, fun s _ _ _ => rfl⟩ o c
theorem cpyg (o : Ops) (c : Ctl) : Statement (.cpyg o c) :=
  Ordered.round (mk := .cpyg) (r := ⟨6#3 ++ 0x01#6, .both, false, .dst, .code, .code⟩)
    ⟨fun _ _ => rfl, fun _ _ => rfl, fun _ _ => rfl, fun _ _ => rfl, fun _ _ => rfl, fun _ _ => rfl, fun s _ _ _ => rfl⟩ o c
theorem cpys (o : Ops) (c : Ctl) : Statement (.cpys o c) :=
  Ordered.round (mk := .cpys) (r := ⟨6#3 ++ 0x02#6, .both, false, .dst, .code, .code⟩)
    ⟨fun _ _ => rfl, fun _ _ => rfl, fun _ _ => rfl, fun _ _ => rfl, fun _ _ => rfl, fun _ _ => rfl, fun s _ _ _ => rfl⟩ o c
theorem cpyr (o : Ops) (c : Ctl) : Statement (.cpyr o c) :=
  Ordered.round (mk := .cpyr) (r := ⟨6#3 ++ 0x03#6, .both, false, .dst, .code, .code⟩)
    ⟨fun _ _ => rfl, fun _ _ => rfl, fun _ _ => rfl, fun _ _ => rfl, fun _ _ => rfl, fun _ _ => rfl, fun s _ _ _ => rfl⟩ o c
theorem coll (o : Ops) (c : Ctl) : Statement (.coll o c) :=
  Ordered.round (mk := .coll) (r := ⟨6#3 ++ 0x04#6, .both, false, .dst, .code, .rsv⟩)
    ⟨fun _ _ => rfl, fun _ _ => rfl, fun _ _ => rfl, fun _ _ => rfl, fun _ _ => rfl, fun _ _ => rfl, fun s _ _ _ => rfl⟩ o c
theorem tlrd (o : Ops) : Statement (.tlrd o) :=
  Plain.round (mk := .tlrd) (r := ⟨6#3 ++ 0x05#6, .both, false, .dst, .code, .rsv⟩)
    ⟨fun _ => rfl, fun _ => rfl, fun _ => rfl, fun _ _ => rfl, fun _ => rfl, fun s _ _ _ => rfl⟩ o (fun h h2 => no_literal rfl rfl rfl h h2)
theorem tlarm (o : Ops) (c : Ctl) : Statement (.tlarm o c) :=
  Ordered.round (mk := .tlarm) (r := ⟨6#3 ++ 0x06#6, .both, false, .rsv, .code, .code⟩)
    ⟨fun _ _ => rfl, fun _ _ => rfl, fun _ _ => rfl, fun _ _ => rfl, fun _ _ => rfl, fun _ _ => rfl, fun s _ _ _ => rfl⟩ o c
theorem mxw (o : Ops) (c : Ctl) : Statement (.mxw o c) :=
  Ordered.round (mk := .mxw) (r := ⟨6#3 ++ 0x08#6, .both, false, .dst, .code, .code⟩)
    ⟨fun _ _ => rfl, fun _ _ => rfl, fun _ _ => rfl, fun _ _ => rfl, fun _ _ => rfl, fun _ _ => rfl, fun s _ _ _ => rfl⟩ o c
theorem mxs (o : Ops) (c : Ctl) : Statement (.mxs o c) :=
  Ordered.round (mk := .mxs) (r := ⟨6#3 ++ 0x09#6, .both, false, .dst, .code, .code⟩)
    ⟨fun _ _ => rfl, fun _ _ => rfl, fun _ _ => rfl, fun _ _ => rfl, fun _ _ => rfl, fun _ _ => rfl, fun s _ _ _ => rfl⟩ o c
theorem mxd (o : Ops) (c : Ctl) : Statement (.mxd o c) :=
  Ordered.round (mk := .mxd) (r := ⟨6#3 ++ 0x0A#6, .both, false, .dst, .code, .code⟩)
    ⟨fun _ _ => rfl, fun _ _ => rfl, fun _ _ => rfl, fun _ _ => rfl, fun _ _ => rfl, fun _ _ => rfl, fun s _ _ _ => rfl⟩ o c
theorem mxz (o : Ops) (c : Ctl) : Statement (.mxz o c) :=
  Ordered.round (mk := .mxz) (r := ⟨6#3 ++ 0x0B#6, .both, false, .dst, .rsv, .rsv⟩)
    ⟨fun _ _ => rfl, fun _ _ => rfl, fun _ _ => rfl, fun _ _ => rfl, fun _ _ => rfl, fun _ _ => rfl, fun s _ _ _ => rfl⟩ o c
theorem bari (o : Ops) (c : Ctl) : Statement (.bari o c) :=
  Ordered.round (mk := .bari) (r := ⟨6#3 ++ 0x10#6, .both, false, .rsv, .code, .code⟩)
    ⟨fun _ _ => rfl, fun _ _ => rfl, fun _ _ => rfl, fun _ _ => rfl, fun _ _ => rfl, fun _ _ => rfl, fun s _ _ _ => rfl⟩ o c
theorem bara (o : Ops) (c : Ctl) : Statement (.bara o c) :=
  Ordered.round (mk := .bara) (r := ⟨6#3 ++ 0x11#6, .both, false, .rsv, .code, .rsv⟩)
    ⟨fun _ _ => rfl, fun _ _ => rfl, fun _ _ => rfl, fun _ _ => rfl, fun _ _ => rfl, fun _ _ => rfl, fun s _ _ _ => rfl⟩ o c
theorem barx (o : Ops) (c : Ctl) : Statement (.barx o c) :=
  Ordered.round (mk := .barx) (r := ⟨6#3 ++ 0x12#6, .both, false, .rsv, .code, .code⟩)
    ⟨fun _ _ => rfl, fun _ _ => rfl, fun _ _ => rfl, fun _ _ => rfl, fun _ _ => rfl, fun _ _ => rfl, fun s _ _ _ => rfl⟩ o c
theorem barw (o : Ops) (c : Ctl) : Statement (.barw o c) :=
  Ordered.round (mk := .barw) (r := ⟨6#3 ++ 0x13#6, .both, false, .rsv, .code, .code⟩)
    ⟨fun _ _ => rfl, fun _ _ => rfl, fun _ _ => rfl, fun _ _ => rfl, fun _ _ => rfl, fun _ _ => rfl, fun s _ _ _ => rfl⟩ o c
theorem bart (o : Ops) (c : Ctl) : Statement (.bart o c) :=
  Ordered.round (mk := .bart) (r := ⟨6#3 ++ 0x14#6, .both, false, .dst, .code, .code⟩)
    ⟨fun _ _ => rfl, fun _ _ => rfl, fun _ _ => rfl, fun _ _ => rfl, fun _ _ => rfl, fun _ _ => rfl, fun s _ _ _ => rfl⟩ o c
theorem bard (o : Ops) (c : Ctl) : Statement (.bard o c) :=
  Ordered.round (mk := .bard) (r := ⟨6#3 ++ 0x15#6, .both, false, .rsv, .code, .rsv⟩)
    ⟨fun _ _ => rfl, fun _ _ => rfl, fun _ _ => rfl, fun _ _ => rfl, fun _ _ => rfl, fun _ _ => rfl, fun s _ _ _ => rfl⟩ o c
theorem crit (o : Ops) : Statement (.crit o) :=
  Plain.round (mk := .crit) (r := ⟨6#3 ++ 0x18#6, .both, false, .rsv, .rsv, .rsv⟩)
    ⟨fun _ => rfl, fun _ => rfl, fun _ => rfl, fun _ _ => rfl, fun _ => rfl, fun s _ _ _ => rfl⟩ o (fun h h2 => no_literal rfl rfl rfl h h2)
theorem uncrit (o : Ops) : Statement (.uncrit o) :=
  Plain.round (mk := .uncrit) (r := ⟨6#3 ++ 0x19#6, .both, false, .rsv, .rsv, .rsv⟩)
    ⟨fun _ => rfl, fun _ => rfl, fun _ => rfl, fun _ _ => rfl, fun _ => rfl, fun s _ _ _ => rfl⟩ o (fun h h2 => no_literal rfl rfl rfl h h2)
theorem publish (o : Ops) (c : Ctl) : Statement (.publish o c) :=
  Ordered.round (mk := .publish) (r := ⟨7#3 ++ 0x00#6, .both, false, .dst, .code, .rsv⟩)
    ⟨fun _ _ => rfl, fun _ _ => rfl, fun _ _ => rfl, fun _ _ => rfl, fun _ _ => rfl, fun _ _ => rfl, fun s _ _ _ => rfl⟩ o c
theorem adopt (o : Ops) (c : Ctl) : Statement (.adopt o c) :=
  Ordered.round (mk := .adopt) (r := ⟨7#3 ++ 0x01#6, .both, false, .dst, .code, .code⟩)
    ⟨fun _ _ => rfl, fun _ _ => rfl, fun _ _ => rfl, fun _ _ => rfl, fun _ _ => rfl, fun _ _ => rfl, fun s _ _ _ => rfl⟩ o c
theorem retract (o : Ops) (c : Ctl) : Statement (.retract o c) :=
  Ordered.round (mk := .retract) (r := ⟨7#3 ++ 0x02#6, .both, false, .dst, .code, .rsv⟩)
    ⟨fun _ _ => rfl, fun _ _ => rfl, fun _ _ => rfl, fun _ _ => rfl, fun _ _ => rfl, fun _ _ => rfl, fun s _ _ _ => rfl⟩ o c
theorem icinv (o : Ops) (c : Ctl) : Statement (.icinv o c) :=
  Ordered.round (mk := .icinv) (r := ⟨7#3 ++ 0x03#6, .both, false, .rsv, .code, .code⟩)
    ⟨fun _ _ => rfl, fun _ _ => rfl, fun _ _ => rfl, fun _ _ => rfl, fun _ _ => rfl, fun _ _ => rfl, fun s _ _ _ => rfl⟩ o c
theorem tryR (o : Ops) (c : Ctl) : Statement (.tryR o c) :=
  Ordered.round (mk := .tryR) (r := ⟨7#3 ++ 0x08#6, .vector, false, .rsv, .rsv, .rsv⟩)
    ⟨fun _ _ => rfl, fun _ _ => rfl, fun _ _ => rfl, fun _ _ => rfl, fun _ _ => rfl, fun _ _ => rfl, fun s _ _ _ => rfl⟩ o c
theorem commit (o : Ops) (c : Ctl) : Statement (.commit o c) :=
  Ordered.round (mk := .commit) (r := ⟨7#3 ++ 0x09#6, .vector, false, .rsv, .rsv, .rsv⟩)
    ⟨fun _ _ => rfl, fun _ _ => rfl, fun _ _ => rfl, fun _ _ => rfl, fun _ _ => rfl, fun _ _ => rfl, fun s _ _ _ => rfl⟩ o c
theorem abort (o : Ops) (c : Ctl) : Statement (.abort o c) :=
  Ordered.round (mk := .abort) (r := ⟨7#3 ++ 0x0A#6, .vector, false, .rsv, .rsv, .rsv⟩)
    ⟨fun _ _ => rfl, fun _ _ => rfl, fun _ _ => rfl, fun _ _ => rfl, fun _ _ => rfl, fun _ _ => rfl, fun s _ _ _ => rfl⟩ o c
theorem tstat (o : Ops) : Statement (.tstat o) :=
  Plain.round (mk := .tstat) (r := ⟨7#3 ++ 0x0B#6, .vector, false, .dst, .rsv, .rsv⟩)
    ⟨fun _ => rfl, fun _ => rfl, fun _ => rfl, fun _ _ => rfl, fun _ => rfl, fun s _ _ _ => rfl⟩ o (fun h h2 => no_literal rfl rfl rfl h h2)
theorem launch (o : Ops) : Statement (.launch o) :=
  Plain.round (mk := .launch) (r := ⟨7#3 ++ 0x10#6, .both, false, .dst, .code, .rsv⟩)
    ⟨fun _ => rfl, fun _ => rfl, fun _ => rfl, fun _ _ => rfl, fun _ => rfl, fun s _ _ _ => rfl⟩ o (fun h h2 => no_literal rfl rfl rfl h h2)
theorem tsub (o : Ops) : Statement (.tsub o) :=
  Plain.round (mk := .tsub) (r := ⟨7#3 ++ 0x11#6, .both, false, .dst, .code, .rsv⟩)
    ⟨fun _ => rfl, fun _ => rfl, fun _ => rfl, fun _ _ => rfl, fun _ => rfl, fun s _ _ _ => rfl⟩ o (fun h h2 => no_literal rfl rfl rfl h h2)
theorem tdone (o : Ops) : Statement (.tdone o) :=
  Plain.round (mk := .tdone) (r := ⟨7#3 ++ 0x12#6, .both, false, .rsv, .rsv, .rsv⟩)
    ⟨fun _ => rfl, fun _ => rfl, fun _ => rfl, fun _ _ => rfl, fun _ => rfl, fun s _ _ _ => rfl⟩ o (fun h h2 => no_literal rfl rfl rfl h h2)
theorem spawn (o : Ops) : Statement (.spawn o) :=
  Plain.round (mk := .spawn) (r := ⟨7#3 ++ 0x13#6, .vector, false, .rsv, .code, .code⟩)
    ⟨fun _ => rfl, fun _ => rfl, fun _ => rfl, fun _ _ => rfl, fun _ => rfl, fun s _ _ _ => rfl⟩ o (fun h h2 => no_literal rfl rfl rfl h h2)
theorem erarm (o : Ops) : Statement (.erarm o) :=
  Plain.round (mk := .erarm) (r := ⟨7#3 ++ 0x14#6, .both, false, .dst, .code, .rsv⟩)
    ⟨fun _ => rfl, fun _ => rfl, fun _ => rfl, fun _ _ => rfl, fun _ => rfl, fun s _ _ _ => rfl⟩ o (fun h h2 => no_literal rfl rfl rfl h h2)
theorem erpass (o : Ops) : Statement (.erpass o) :=
  Plain.round (mk := .erpass) (r := ⟨7#3 ++ 0x15#6, .both, false, .dst, .code, .code⟩)
    ⟨fun _ => rfl, fun _ => rfl, fun _ => rfl, fun _ _ => rfl, fun _ => rfl, fun s _ _ _ => rfl⟩ o (fun h h2 => no_literal rfl rfl rfl h h2)
theorem trap (o : Ops) : Statement (.trap o) :=
  Plain.round (mk := .trap) (r := ⟨7#3 ++ 0x20#6, .vector, false, .rsv, .code, .rsv⟩)
    ⟨fun _ => rfl, fun _ => rfl, fun _ => rfl, fun _ _ => rfl, fun _ => rfl, fun s _ _ _ => rfl⟩ o (fun h h2 => no_literal rfl rfl rfl h h2)
theorem rte (o : Ops) : Statement (.rte o) :=
  Plain.round (mk := .rte) (r := ⟨7#3 ++ 0x21#6, .vector, false, .rsv, .rsv, .rsv⟩)
    ⟨fun _ => rfl, fun _ => rfl, fun _ => rfl, fun _ _ => rfl, fun _ => rfl, fun s _ _ _ => rfl⟩ o (fun h h2 => no_literal rfl rfl rfl h h2)
theorem rdsr (o : Ops) : Statement (.rdsr o) :=
  Plain.round (mk := .rdsr) (r := ⟨7#3 ++ 0x22#6, .both, false, .dst, .rsv, .code⟩)
    ⟨fun _ => rfl, fun _ => rfl, fun _ => rfl, fun _ _ => rfl, fun _ => rfl, fun s _ _ _ => rfl⟩ o (fun h h2 => no_literal rfl rfl rfl h h2)
theorem wrsr (o : Ops) : Statement (.wrsr o) :=
  Plain.round (mk := .wrsr) (r := ⟨7#3 ++ 0x23#6, .both, false, .rsv, .code, .code⟩)
    ⟨fun _ => rfl, fun _ => rfl, fun _ => rfl, fun _ _ => rfl, fun _ => rfl, fun s _ _ _ => rfl⟩ o (fun h h2 => no_literal rfl rfl rfl h h2)
theorem bkpt (o : Ops) : Statement (.bkpt o) :=
  Plain.round (mk := .bkpt) (r := ⟨7#3 ++ 0x24#6, .vector, false, .rsv, .rsv, .rsv⟩)
    ⟨fun _ => rfl, fun _ => rfl, fun _ => rfl, fun _ _ => rfl, fun _ => rfl, fun s _ _ _ => rfl⟩ o (fun h h2 => no_literal rfl rfl rfl h h2)
theorem sysc (o : Ops) : Statement (.sysc o) :=
  Plain.round (mk := .sysc) (r := ⟨7#3 ++ 0x25#6, .vector, false, .rsv, .code, .imm⟩)
    ⟨fun _ => rfl, fun _ => rfl, fun _ => rfl, fun _ _ => rfl, fun _ => rfl, fun s _ _ _ => rfl⟩ o (fun h h2 => no_literal rfl rfl rfl h h2)
theorem halt (o : Ops) : Statement (.halt o) :=
  Plain.round (mk := .halt) (r := ⟨7#3 ++ 0x26#6, .scalar, false, .rsv, .rsv, .rsv⟩)
    ⟨fun _ => rfl, fun _ => rfl, fun _ => rfl, fun _ _ => rfl, fun _ => rfl, fun s _ _ _ => rfl⟩ o (fun h h2 => no_literal rfl rfl rfl h h2)
theorem tlbi (o : Ops) (c : Ctl) : Statement (.tlbi o c) :=
  Ordered.round (mk := .tlbi) (r := ⟨7#3 ++ 0x27#6, .scalar, false, .rsv, .code, .code⟩)
    ⟨fun _ _ => rfl, fun _ _ => rfl, fun _ _ => rfl, fun _ _ => rfl, fun _ _ => rfl, fun _ _ => rfl, fun s _ _ _ => rfl⟩ o c
theorem ctxsw (o : Ops) : Statement (.ctxsw o) :=
  Plain.round (mk := .ctxsw) (r := ⟨7#3 ++ 0x28#6, .scalar, false, .dst, .code, .code⟩)
    ⟨fun _ => rfl, fun _ => rfl, fun _ => rfl, fun _ _ => rfl, fun _ => rfl, fun s _ _ _ => rfl⟩ o (fun h h2 => no_literal rfl rfl rfl h h2)
theorem registerWrite (wave : Nat) (num : Nat) (val : Word) : Statement (.registerWrite wave num val) := step_round rfl
theorem dspszWrite (die : Nat) (size : Nat) : Statement (.dspszWrite die size) := step_round rfl
theorem dspszChangeComplete (die : Nat) : Statement (.dspszChangeComplete die) := step_round rfl
theorem ctxctlCreate (ctx : Nat) : Statement (.ctxctlCreate ctx) := step_round rfl
theorem contextCreateComplete (ctx : Nat) : Statement (.contextCreateComplete ctx) := step_round rfl
theorem ctxctlDestroy (ctx : Nat) : Statement (.ctxctlDestroy ctx) := step_round rfl
theorem contextDestroyComplete (ctx : Nat) : Statement (.contextDestroyComplete ctx) := step_round rfl
theorem fqresRetry (ctx : Nat) (tag : Nat) : Statement (.fqresRetry ctx tag) := step_round rfl
theorem fqresFail (ctx : Nat) (tag : Nat) : Statement (.fqresFail ctx tag) := step_round rfl
theorem lqtailWrite (queue : Nat) (val : Word) : Statement (.lqtailWrite queue val) := step_round rfl
theorem faultRecordWrite (ctx : Nat) : Statement (.faultRecordWrite ctx) := step_round rfl
theorem dispatcherTakeRecord (queue : Nat) : Statement (.dispatcherTakeRecord queue) := step_round rfl
theorem pendingLaunchTake (team : Nat) : Statement (.pendingLaunchTake team) := step_round rfl
theorem teamPlacement (grid : Nat) : Statement (.teamPlacement grid) := step_round rfl
theorem placementReserveTimeout (grid : Nat) : Statement (.placementReserveTimeout grid) := step_round rfl
theorem taskLaunch (die : Nat) (ctx : Nat) : Statement (.taskLaunch die ctx) := step_round rfl
theorem erTaskPick (die : Nat) (ctx : Nat) (gid : Nat) : Statement (.erTaskPick die ctx gid) := step_round rfl
theorem erTaskPass (die : Nat) (ctx : Nat) (gid : Nat) : Statement (.erTaskPass die ctx gid) := step_round rfl
theorem teamRetire (team : Nat) : Statement (.teamRetire team) := step_round rfl
theorem swapOut (team : Nat) : Statement (.swapOut team) := step_round rfl
theorem preemption (team : Nat) : Statement (.preemption team) := step_round rfl
theorem teamRestore (saved : Nat) : Statement (.teamRestore saved) := step_round rfl
theorem forcedSwitch (wave : Nat) : Statement (.forcedSwitch wave) := step_round rfl
theorem registerLineFill (wave : Nat) (line : Nat) (victimWave : Nat) (victimLine : Nat) : Statement (.registerLineFill wave line victimWave victimLine) := step_round rfl
theorem blockedLaneWake (wave : Nat) (lane : Nat) : Statement (.blockedLaneWake wave lane) := step_round rfl
theorem sleepExpire (wave : Nat) (lane : Nat) : Statement (.sleepExpire wave lane) := step_round rfl
theorem spawnTimerExpire (core : Nat) (bin : Nat) : Statement (.spawnTimerExpire core bin) := step_round rfl
theorem spawnBatchStart (core : Nat) (bin : Nat) : Statement (.spawnBatchStart core bin) := step_round rfl
theorem asyncFaultDelivery (wave : Nat) (lane : Nat) : Statement (.asyncFaultDelivery wave lane) := step_round rfl
theorem tryConflictAbort (core : Nat) (space : Nat) (line : Nat) : Statement (.tryConflictAbort core space line) := step_round rfl
theorem tlbiComplete (ctx : Nat) (scope : Nat) (core : Nat) (page : Option DWord) : Statement (.tlbiComplete ctx scope core page) := step_round rfl
theorem retractionComplete (ctx : Nat) (region : Nat) : Statement (.retractionComplete ctx region) := step_round rfl
theorem matrixCommandStart (core : Nat) : Statement (.matrixCommandStart core) := step_round rfl
theorem mxwLoad (core : Nat) : Statement (.mxwLoad core) := step_round rfl
theorem mxsStream (core : Nat) : Statement (.mxsStream core) := step_round rfl
theorem mxdDrain (core : Nat) : Statement (.mxdDrain core) := step_round rfl
theorem mxzClear (core : Nat) : Statement (.mxzClear core) := step_round rfl
theorem copySegmentLand (core : Nat) (ctx : Nat) (pos : Nat) : Statement (.copySegmentLand core ctx pos) := step_round rfl
theorem copyCommandComplete (core : Nat) (engine : Option Nat) : Statement (.copyCommandComplete core engine) := step_round rfl
theorem collComplete (die : Nat) : Statement (.collComplete die) := step_round rfl
theorem slotBoundary (core : Nat) : Statement (.slotBoundary core) := step_round rfl
theorem bwWindow (die : Nat) : Statement (.bwWindow die) := step_round rfl
theorem watchdogExpire (ctx : Nat) : Statement (.watchdogExpire ctx) := step_round rfl
theorem critLimitExpire (team : Nat) : Statement (.critLimitExpire team) := step_round rfl
theorem thermalHot (core : Nat) (celsius : Nat) : Statement (.thermalHot core celsius) := step_round rfl
theorem thermalMigrationTick (core : Nat) : Statement (.thermalMigrationTick core) := step_round rfl
theorem thermalCool (core : Nat) (celsius : Nat) : Statement (.thermalCool core celsius) := step_round rfl
theorem corePowerGate (core : Nat) : Statement (.corePowerGate core) := step_round rfl
theorem wakeMessage (core : Nat) : Statement (.wakeMessage core) := step_round rfl
theorem powerCapStep (watts : Nat) : Statement (.powerCapStep watts) := step_round rfl
theorem counterSweep (core : Nat) (ctx : Nat) (bank : Nat) (idx : Nat) : Statement (.counterSweep core ctx bank idx) := step_round rfl
theorem sampleRecordWrite (ctx : Nat) (times : List Byte) : Statement (.sampleRecordWrite ctx times) := step_round rfl
theorem eccCorrected (core : Nat) : Statement (.eccCorrected core) := step_round rfl
theorem uncorrectableError (place : ErrorPlace) : Statement (.uncorrectableError place) := step_round rfl
theorem hostWindowAccess (write : Bool) (num : Nat) (val : Word) : Statement (.hostWindowAccess write num val) := step_round rfl
theorem fabstatHaltSet : Statement .fabstatHaltSet := step_round rfl
theorem fabstatHaltClear : Statement .fabstatHaltClear := step_round rfl
theorem peerAccess (op : PeerOp) (addr : Nat) (len : Nat) (data : List Byte) : Statement (.peerAccess op addr len data) := step_round rfl
theorem launchWindowWrite (window : Nat) (data : List Byte) : Statement (.launchWindowWrite window data) := step_round rfl
theorem rdmaAtomic (qp : Nat) : Statement (.rdmaAtomic qp) := step_round rfl
theorem rdmaWrite (qp : Nat) (addr : Nat) (data : RdmaData) : Statement (.rdmaWrite qp addr data) := step_round rfl
theorem rdmaRead (qp : Nat) (addr : Nat) (len : Nat) : Statement (.rdmaRead qp addr len) := step_round rfl
theorem sendMsg (qp : Nat) (data : List Byte) : Statement (.sendMsg qp data) := step_round rfl
theorem powerOnBoot (failedLinks : BitVec 4) (sigOk : Bool) (version : Word) (measures : Measures) (set : BootSet) : Statement (.powerOnBoot failedLinks sigOk version measures set) := step_round rfl
theorem warmReset : Statement .warmReset := step_round rfl
theorem attestationRequest (nonce : List Byte) : Statement (.attestationRequest nonce) := step_round rfl
theorem unassignedOpcode (second : Bool) : Statement (.unassignedOpcode second) := step_round rfl
theorem hostMemoryAccess (write : Bool) (addr : Nat) (len : Nat) (data : List Byte) : Statement (.hostMemoryAccess write addr len data) := step_round rfl
theorem fabricStatusUpdate (module : Nat) (status : PeerReport) : Statement (.fabricStatusUpdate module status) := step_round rfl
theorem collectiveStep (die : Nat) (tag : Word) (from_ : CollStep) : Statement (.collectiveStep die tag from_) := step_round rfl
theorem sidebandMailboxRequest (req : SidebandReq) : Statement (.sidebandMailboxRequest req) := step_round rfl
theorem priorityFlowControl (port : Nat) (prio : Nat) (pause : Bool) : Statement (.priorityFlowControl port prio pause) := step_round rfl
theorem dcqcnRateControl (qp : Nat) : Statement (.dcqcnRateControl qp) := step_round rfl
theorem coreDump (team : Nat) : Statement (.coreDump team) := step_round rfl

end Sys2Proof.Laws.Encodes
end

