-- ==== Sys2Proof/Laws/Trap.lean ====
section
/-! SUPPORT. Everything that taking a trap can do to lanes outside try regions whose wave has a handler (R142, R220): the trap registers
and the handler's address in the lanes that report, the switch point's latches, and nothing else. -/
namespace Sys2Proof.Machine

/-- The lane after its own report, if it has one: the last that names it. -/
def trapped (rs : List Report) (tpc : DWord) (tparent tsibs : Word) (vec : DWord) (l : Nat) (x : Lane) : Lane :=
  match rs.reverse.find? fun r => r.lane == l with
  | some r => x.enterTrap r tpc tparent tsibs vec
  | none => x

theorem trapped_cons (r : Report) (rs : List Report) (tpc : DWord) (tp ts : Word) (vec : DWord) (l : Nat) (x : Lane) :
    trapped (r :: rs) tpc tp ts vec l x =
      trapped rs tpc tp ts vec l (if r.lane = l then x.enterTrap r tpc tp ts vec else x) := by
  simp only [trapped, List.reverse_cons, List.find?_append]
  cases h : rs.reverse.find? fun r => r.lane == l with
  | some q => simp only [Option.some_or]; split <;> rfl
  | none =>
    by_cases hr : r.lane = l
    · simp [hr]
    · have : (r.lane == l) = false := by simp [hr]
      simp [this, hr]

/-- A lane that is live is there. -/
theorem Wave.there_of_live {w : Wave} {l : Nat} (h : (w.lane l).live = true) : (w.lanes.find? l).isSome = true := by
  cases e : w.lanes.find? l with
  | some x => rfl
  | none => simp [Wave.lane, Tbl.get, e, Lane.live, Lane.gone] at h

/-- Entering the handler in lanes that are there. -/
theorem State.enterTraps_spec (rs : List Report) (s : State) (k : Nat) (tpc : DWord) (ts : Word) (vec : DWord)
    (hw : (s.waves.find? k).isSome) (hl : ∀ r ∈ rs, ((s.wave k).lanes.find? r.lane).isSome = true) :
    let t := rs.foldl (fun s r => s.modLane k r.lane fun l => l.enterTrap r tpc (s.tparent k) ts vec) s
    { t with waves := s.waves } = s ∧ (∀ j, j ≠ k → t.waves.find? j = s.waves.find? j) ∧ (t.waves.find? k).isSome = true ∧
      { t.wave k with lanes := (s.wave k).lanes } = s.wave k ∧
      ∀ l, (t.wave k).lane l = trapped rs tpc (s.tparent k) ts vec l ((s.wave k).lane l) := by
  induction rs generalizing s with
  | nil => exact ⟨rfl, fun _ _ => rfl, hw, rfl, fun _ => rfl⟩
  | cons r rs ih =>
    have hr := hl r (by simp)
    let s1 := s.modLane k r.lane fun l => l.enterTrap r tpc (s.tparent k) ts vec
    have e1 : s1.wave k = (s.wave k).modLane r.lane fun l => l.enterTrap r tpc (s.tparent k) ts vec :=
      s.wave_modWave (fun w => w.modLane r.lane fun l => l.enterTrap r tpc (s.tparent k) ts vec) hw
    have hw1 : (s1.waves.find? k).isSome = true := by
      show ((s.modWave k _).waves.find? k).isSome = true
      rw [State.find_modWave]; simpa using hw
    have hl1 : ∀ q ∈ rs, ((s1.wave k).lanes.find? q.lane).isSome = true := by
      intro q hq
      rw [e1, Wave.modLane, Tbl.find_mod]
      have := hl q (by simp [hq])
      split <;> simpa using this
    obtain ⟨a, b, c, d, e⟩ := ih s1 hw1 hl1
    refine ⟨?_, fun j hj => ?_, c, ?_, fun l => ?_⟩
    · have h := congrArg (fun t : State => { t with waves := s.waves }) a
      exact h
    · rw [List.foldl_cons, b j hj]
      show (s.modWave k _).waves.find? j = _
      rw [State.find_modWave, if_neg (Ne.symm hj)]
    · have h := congrArg (fun w : Wave => { w with lanes := (s.wave k).lanes }) d
      rw [e1] at h
      exact h
    · rw [List.foldl_cons, e l, e1, trapped_cons]
      have hp : s1.tparent k = s.tparent k := rfl
      rw [hp, Wave.lane_modLane]
      congr 1
      by_cases h : r.lane = l
      · subst h; simp [hr]
      · simp [h]

/-- Everything that raising causes can do where the lanes can take a trap. -/
theorem State.raise_traps (s : State) (k : Nat) (group : BitVec 32) (tpc : DWord) (rs : List Report)
    (hw : (s.waves.find? k).isSome) (hf : s.cur.frozenLanes = 0) (hne : rs ≠ []) (hv : (s.wave k).trapvec ≠ 0)
    (hl : ∀ r ∈ rs, ((s.wave k).lane r.lane).depth = 0 ∧ ((s.wave k).lane r.lane).live = true ∧ ((s.wave k).lane r.lane).handler = false) :
    ∃ u : State, s.raise k group tpc rs = u.switchPoint k ∧ { u with waves := s.waves } = s ∧
      (∀ j, j ≠ k → u.waves.find? j = s.waves.find? j) ∧ (u.waves.find? k).isSome = true ∧
      { u.wave k with lanes := (s.wave k).lanes } = s.wave k ∧
      ∀ l, (u.wave k).lane l =
        trapped rs tpc (s.tparent k) ((s.wave k).live &&& ~~~ (group &&& maskOf (rs.map (·.lane)))) (s.wave k).trapvec l ((s.wave k).lane l) := by
  have hm : (rs.filter fun r => ((s.wave k).lane r.lane).member) = [] := by
    refine List.filter_eq_nil_iff.2 fun r hr => ?_
    simp [Lane.member, (hl r hr).1]
  have ho : (rs.filter fun r => !((s.wave k).lane r.lane).member && ((s.wave k).lane r.lane).live) = rs := by
    refine List.filter_eq_self.2 fun r hr => ?_
    simp [Lane.member, (hl r hr).1, (hl r hr).2.1]
  have ht : (rs.filter fun r => ((s.wave k).lane r.lane).handler) = [] := by
    refine List.filter_eq_nil_iff.2 fun r hr => ?_
    simp [(hl r hr).2.2]
  have hthere : ∀ r ∈ rs, ((s.wave k).lanes.find? r.lane).isSome = true := fun r hr => Wave.there_of_live (hl r hr).2.1
  obtain ⟨a, b, c, d, e⟩ := State.enterTraps_spec rs s k tpc ((s.wave k).live &&& ~~~ (group &&& maskOf (rs.map (·.lane)))) (s.wave k).trapvec hw hthere
  refine ⟨_, ?_, a, b, c, d, e⟩
  obtain ⟨r, rs', rfl⟩ := List.exists_cons_of_ne_nil hne
  have hr : (if (s.cur.wave == k) = true then (r :: rs').filter fun r => !s.cur.frozenLanes.getLsbD r.lane else r :: rs') = r :: rs' := by
    split
    · refine List.filter_eq_self.2 fun r _ => ?_
      simp [hf]
    · rfl
  simp only [State.raise, hr, hm, ho, ht, List.foldl_nil, hv, ↓reduceIte]

/-- A switch point changes the latches and the run of its wave, and the record of the clk. -/
theorem State.switchPoint_spec (s : State) (k : Nat) :
    { s.switchPoint k with waves := s.waves, cur := s.cur } = s ∧
      (∀ j, j ≠ k → (s.switchPoint k).waves.find? j = s.waves.find? j) ∧
      { (s.switchPoint k).wave k with lanes := (s.wave k).lanes, slatch := (s.wave k).slatch, run := (s.wave k).run } = s.wave k ∧
      ∀ l, { ((s.switchPoint k).wave k).lane l with latch := ((s.wave k).lane l).latch } = (s.wave k).lane l := by
  have still :
      let t := s.modWave k fun w => { w with run := 0 }
      (∀ j, j ≠ k → t.waves.find? j = s.waves.find? j) ∧
      { t.wave k with lanes := (s.wave k).lanes, slatch := (s.wave k).slatch, run := (s.wave k).run } = s.wave k ∧
      ∀ l, { (t.wave k).lane l with latch := ((s.wave k).lane l).latch } = (s.wave k).lane l := by
    refine ⟨fun j hj => by simp [State.find_modWave, Ne.symm hj], ?_⟩
    cases h : s.waves.find? k with
    | none =>
      have e : (s.modWave k fun w => { w with run := 0 }).wave k = s.wave k := by
        simp [State.wave, Tbl.get, State.find_modWave, h]
      simp only [e, and_self, implies_true]
    | some w =>
      have e : (s.modWave k fun w => { w with run := 0 }).wave k = { w with run := 0 } := by
        simp [State.wave, Tbl.get, State.find_modWave, h]
      have e' : s.wave k = w := by simp [State.wave, Tbl.get, h]
      rw [e, e']
      exact ⟨rfl, fun _ => rfl⟩
  have key : ∀ (m : BitVec 32) (b : Bool),
      let t := s.modWave k fun w => w.clearLatches m b
      (∀ j, j ≠ k → t.waves.find? j = s.waves.find? j) ∧
      { t.wave k with lanes := (s.wave k).lanes, slatch := (s.wave k).slatch, run := (s.wave k).run } = s.wave k ∧
      ∀ l, { (t.wave k).lane l with latch := ((s.wave k).lane l).latch } = (s.wave k).lane l := by
    intro m b
    refine ⟨fun j hj => by simp [State.find_modWave, Ne.symm hj], ?_⟩
    cases h : s.waves.find? k with
    | none =>
      have e : (s.modWave k fun w => w.clearLatches m b).wave k = s.wave k := by
        simp [State.wave, Tbl.get, State.find_modWave, h]
      simp only [e, and_self, implies_true]
    | some w =>
      have e : (s.modWave k fun w => w.clearLatches m b).wave k = w.clearLatches m b := by
        simp [State.wave, Tbl.get, State.find_modWave, h]
      have e' : s.wave k = w := by simp [State.wave, Tbl.get, h]
      simp only [e, e']
      refine ⟨rfl, fun l => ?_⟩
      simp only [Wave.clearLatches, Wave.lane, Tbl.get_mapAll]
      split <;> rfl
  unfold State.switchPoint
  split
  · split
    · exact ⟨rfl, still⟩
    · exact ⟨rfl, key s.cur.shifted s.cur.shiftedS⟩
  · exact ⟨rfl, key 0 false⟩

theorem trapped_lanes (ls : List Nat) (cause : Nat) (info : Nat → Word) (addr : Nat → DWord) (tpc : DWord) (tp ts : Word) (vec : DWord)
    (l : Nat) (x : Lane) :
    trapped (ls.map fun l => { lane := l, cause := cause, info := info l, addr := addr l }) tpc tp ts vec l x =
      if l ∈ ls then x.enterTrap { lane := l, cause := cause, info := info l, addr := addr l } tpc tp ts vec else x := by
  induction ls generalizing x with
  | nil => rfl
  | cons a ls ih =>
    rw [List.map_cons, trapped_cons, ih]
    by_cases h : a = l
    · subst h; simp only [↓reduceIte, List.mem_cons, true_or]; split <;> rfl
    · have h' : l ∈ a :: ls ↔ l ∈ ls := by simp [Ne.symm h]
      simp only [h, ↓reduceIte, h']

/-- Every lane of a group that can take a trap takes it: the trap registers and the handler, and nothing else but latches. -/
theorem State.raise_took (s : State) (hg : s.Group) (hc : s.CanTrap) (cause : Nat) (info : Nat → Word) (addr : Nat → DWord) :
    let t := s.raise s.cur.wave s.mask s.cur.pc ((lanesOf s.mask).map fun l => { lane := l, cause := cause, info := info l, addr := addr l })
    s.Outside t ∧ s.Took t s.mask cause info addr ∧ (∀ m, t.w.sreg m = s.w.sreg m) ∧
      (∀ j, j ≠ s.cur.wave → t.waves.find? j = s.waves.find? j) ∧
      ∀ l, s.mask.getLsbD l = false → { t.w.lane l with latch := (s.w.lane l).latch } = s.w.lane l := by
  intro t
  have hmem : ∀ l, l ∈ lanesOf s.mask ↔ s.mask.getLsbD l = true := by
    intro l
    simp only [lanesOf, List.mem_filter, List.mem_range, and_iff_right_iff_imp]
    exact fun h => BitVec.lt_of_getLsbD h
  have hne : (lanesOf s.mask).map (fun l => ({ lane := l, cause := cause, info := info l, addr := addr l } : Report)) ≠ [] := by
    intro h
    rw [List.map_eq_nil_iff] at h
    refine hg.some (BitVec.eq_of_getLsbD_eq fun l _ => ?_)
    rw [show BitVec.getLsbD (0 : BitVec 32) l = false by simp]
    refine eq_false_of_ne_true fun hl => ?_
    have := (hmem l).2 hl
    rw [h] at this
    exact absurd this List.not_mem_nil
  have hl : ∀ r ∈ (lanesOf s.mask).map (fun l => ({ lane := l, cause := cause, info := info l, addr := addr l } : Report)),
      ((s.wave s.cur.wave).lane r.lane).depth = 0 ∧ ((s.wave s.cur.wave).lane r.lane).live = true ∧
        ((s.wave s.cur.wave).lane r.lane).handler = false := by
    intro r hr
    obtain ⟨l, hlm, rfl⟩ := List.mem_map.1 hr
    have hb := (hmem l).1 hlm
    have h1 := hc.2 l hb
    have h2 : (s.w.lane l).life = .ready := hg.ready l hb
    exact ⟨h1.1, by show (s.w.lane l).live = true; simp [Lane.live, h2], h1.2⟩
  obtain ⟨u, e, a, b, c, d, f⟩ := s.raise_traps s.cur.wave s.mask s.cur.pc _ hg.wave hg.frozenLanes hne hc.1 hl
  obtain ⟨sa, sb, sd, sf⟩ := u.switchPoint_spec s.cur.wave
  have ht : t = u.switchPoint s.cur.wave := e
  have hcur : u.cur = s.cur := by have := congrArg State.cur a; exact this
  have hwt : t.w = (u.switchPoint s.cur.wave).wave s.cur.wave := by
    rw [ht]
    show State.wave _ (State.cur _).wave = _
    have : (u.switchPoint s.cur.wave).cur.wave = s.cur.wave := by
      unfold State.switchPoint
      split
      · split
        · show u.cur.wave = _
          rw [hcur]
        · show u.cur.wave = _
          rw [hcur]
      · show u.cur.wave = _
        rw [hcur]
    rw [this]
  refine ⟨?_, fun l hlm => ?_, fun m => ?_, fun j hj => ?_, fun l hlm => ?_⟩
  · have h1 := congrArg (fun x : State => { x with waves := s.waves, cur := s.cur }) sa
    have h2 := congrArg (fun x : State => { x with waves := s.waves, cur := s.cur }) a
    show { t with waves := s.waves, cur := s.cur } = s
    rw [ht]
    exact h1.trans h2
  · have h := f l
    have hm : s.mask &&& maskOf (((lanesOf s.mask).map fun l => ({ lane := l, cause := cause, info := info l, addr := addr l } : Report)).map (·.lane)) = s.mask := by
      simp only [List.map_map, Function.comp_def, List.map_id', maskOf_lanesOf, BitVec.and_self]
    rw [trapped_lanes, if_pos ((hmem l).2 hlm), hm] at h
    have h2 := sf l
    rw [hwt]
    have h3 := congrArg (fun x : Lane => { x with latch := (((u.switchPoint s.cur.wave).wave s.cur.wave).lane l).latch }) h2
    rw [h] at h3
    exact h3
  · rw [hwt]
    have h1 : ((u.switchPoint s.cur.wave).wave s.cur.wave).s = (u.wave s.cur.wave).s := by have := congrArg Wave.s sd; exact this
    have h2 : (u.wave s.cur.wave).s = s.w.s := by have := congrArg Wave.s d; exact this
    simp only [Wave.sreg, h1, h2]
  · rw [ht, sb j hj, b j hj]
  · have h := f l
    rw [trapped_lanes, if_neg (by rw [hmem]; simp [hlm])] at h
    have h2 := sf l
    rw [hwt]
    have h3 := congrArg (fun x : Lane => { x with latch := (s.w.lane l).latch }) h2
    rw [h] at h3
    exact h3

/-- `fault` raises one cause for every lane of the group. -/
theorem State.fault_took (s : State) (hg : s.Group) (hc : s.CanTrap) (cause : Nat) (info : Word) (addr : DWord) :
    s.Outside (s.fault s.mask cause info addr) ∧ s.Took (s.fault s.mask cause info addr) s.mask cause (fun _ => info) (fun _ => addr) :=
  have h := s.raise_took hg hc cause (fun _ => info) (fun _ => addr)
  ⟨h.1, h.2.1⟩

end Sys2Proof.Machine
end

