-- ==== Sys2Proof/Machine/Loader.lean ====
section
/-! DEFINITION. Which native image of a fat code object the loader takes for a context (R254, R255). No instruction reads
it: the loader is software, and its choice decides only what bytes it places. -/
namespace Sys2Proof.Machine

/-- An image (the features it requires, its fit rank) matches a FEATMASK that has every bit it requires (R255 step 1). -/
def imageMatches (featmask : DWord) (image : DWord × Nat) : Bool := image.1 &&& ~~~featmask == 0

/-- Select an image, by its place in the object: of those that match, the first of the highest fit rank; `none` where no
image matches (R255 steps 2 to 4). -/
def selectImage (featmask : DWord) (images : List (DWord × Nat)) : Option Nat :=
  let fit := images.filter (imageMatches featmask)
  match fit.map (·.2) |>.max? with
  | none => none
  | some top => images.findIdx? fun x => imageMatches featmask x && x.2 == top

end Sys2Proof.Machine
end

