-- ==== Sys2Proof/Machine/SkasText.lean ====
section
/-! DEFINITION. The assembly language skas, its characters and expressions: lines and comments (R86, R89), identifiers (R87), numbers
(R88), the grammar of expressions and their values (R90 to R93). What breaks a rule is answered by the number of that rule (R107). -/
namespace Sys2Proof.Skas
open Sys2Proof.Machine

/-- What skas answers: a value, or the number of the rule that the source breaks (R107). -/
abbrev M (α : Type) := Except Nat α

/-! ## Characters (R86, R87) -/

def isLetter (c : Char) : Bool := ('a' ≤ c && c ≤ 'z') || ('A' ≤ c && c ≤ 'Z')
def isDigit (c : Char) : Bool := '0' ≤ c && c ≤ '9'
def identStart (c : Char) : Bool := isLetter c || c == '_'
def identChar (c : Char) : Bool := identStart c || isDigit c
def isBlank (c : Char) : Bool := c == ' ' || c == '\t'

/-- A letter in lower case. -/
def lower (c : Char) : Char := if 'A' ≤ c && c ≤ 'Z' then Char.ofNat (c.toNat + 32) else c

/-- A text in lower case, as names that are matched without regard to case are compared (R86). -/
def lowered (s : String) : String := String.ofList (s.toList.map lower)

/-- Text without blanks at its ends. -/
def trim (cs : List Char) : List Char := ((cs.dropWhile isBlank).reverse.dropWhile isBlank).reverse

/-- Whether a text has the form of an identifier (R87). -/
def identForm (s : String) : Bool :=
  match s.toList with
  | c :: cs => identStart c && cs.all identChar && cs.length < 255
  | [] => false

/-- A line without its comment (R86, R89): only printable ASCII, blank and tab outside strings. -/
def strip : (inString : Bool) → List Char → M (List Char)
  | true, '\\' :: c :: cs => (strip true cs).map fun r => '\\' :: c :: r
  | true, c :: cs => (strip (c != '"') cs).map (c :: ·)
  | true, [] => .error 89
  | false, [] => .ok []
  | false, ';' :: _ => .ok []
  | false, '/' :: '/' :: _ => .ok []
  | false, c :: cs => if c == '\t' || (' ' ≤ c && c ≤ '~') then (strip (c == '"') cs).map (c :: ·) else .error 86

/-- The code of a hexadecimal digit. -/
def hexVal (c : Char) : Option Nat :=
  if isDigit c then some (c.toNat - 48)
  else if 'a' ≤ lower c && lower c ≤ 'f' then some ((lower c).toNat - 87) else none

/-- The text of a string between its quotes, with the escapes of R89: a quote stands there as an escape alone. -/
def unescape : List Char → M (List Char)
  | '\\' :: 'n' :: cs => (unescape cs).map ('\n' :: ·)
  | '\\' :: 't' :: cs => (unescape cs).map ('\t' :: ·)
  | '\\' :: '"' :: cs => (unescape cs).map ('"' :: ·)
  | '\\' :: '\\' :: cs => (unescape cs).map ('\\' :: ·)
  | '\\' :: 'x' :: h :: l :: cs =>
    match hexVal h, hexVal l with
    | some h, some l => (unescape cs).map (Char.ofNat (16 * h + l) :: ·)
    | _, _ => .error 89
  | '\\' :: _ => .error 89
  | '"' :: _ => .error 89
  | c :: cs => (unescape cs).map (c :: ·)
  | [] => .ok []

/-! ## Tokens (R88) -/

/-- A token of an expression: an integer, a floating constant m 10^e, a name, or an operator. -/
inductive Tok where
  | int (v : Nat)
  | flt (m : Nat) (e : Int)
  | name (s : String)
  | op (s : String)
  deriving DecidableEq, Repr

/-- The digits of a run in which an underscore may stand between two digits; none where one stands elsewhere. -/
def digitsOf (cs : List Char) : Option (List Char) :=
  let ok := cs.head? != some '_' && cs.getLast? != some '_' &&
    (cs.zip (cs.drop 1)).all fun p => !(p.1 == '_' && p.2 == '_')
  if ok && !cs.isEmpty then some (cs.filter (· != '_')) else none

/-- The value of digits in a base, none where one is no digit of it. -/
def valueOf (base : Nat) (cs : List Char) : Option Nat :=
  cs.foldl (fun acc c => match acc, hexVal c with
    | some v, some d => if d < base then some (v * base + d) else none
    | _, _ => none) (some 0)

/-- An integer that fits in 64 bits (R88). -/
def fits64 (v : Option Nat) : M Nat :=
  match v with
  | some v => if v < 2 ^ 64 then .ok v else .error 88
  | none => .error 88

/-- The exponent part of a floating constant at the head of a text: e, a sign or none, digits. -/
def exponentOf (cs : List Char) : Option (Int × List Char) :=
  match cs with
  | c :: r =>
    if c != 'e' then none
    else
      let (neg, r) := match r with
        | '-' :: q => (true, q)
        | '+' :: q => (false, q)
        | q => (false, q)
      let ds := r.takeWhile fun c => isDigit c || c == '_'
      match (digitsOf ds).bind (valueOf 10) with
      | some v => some (if neg then -(v : Int) else v, r.drop ds.length)
      | none => none
  | [] => none

/-- A decimal number at the head of a text: an integer or a floating constant (R88). The rule does not say whether a side of the point
may be empty: digits must stand before it, and need not after it (DESIGN CHOICE, log entry 61). -/
def decimalOf (cs : List Char) : M (Tok × List Char) :=
  let run := fun (q : List Char) => q.takeWhile fun c => isDigit c || c == '_'
  let whole := run cs
  let rest := cs.drop whole.length
  let (frac, rest, dot) := match rest with
    | '.' :: q => (run q, q.drop (run q).length, true)
    | q => ([], q, false)
  let ex := exponentOf rest
  let after := match ex with
    | some p => p.2
    | none => rest
  if after.head?.any (fun c => identChar c || c == '.') then .error 88
  else
    match digitsOf whole, (if frac.isEmpty then some [] else digitsOf frac) with
    | some w, some f =>
      if dot || ex.isSome then
        match valueOf 10 (w ++ f) with
        | some v => .ok (.flt v ((ex.map (·.1)).getD 0 - f.length), after)
        | none => .error 88
      else (fits64 (valueOf 10 w)).map fun v => (.int v, after)
    | _, _ => .error 88

/-- The operators, the longer before those that begin them (R91). -/
def operators : List (List Char) :=
  ["<<", ">>", "<=", ">=", "==", "!=", "&&", "||", "(", ")", "-", "~", "!", "*", "/", "%", "+", "<", ">", "&", "^", "|"].map (·.toList)

/-- The tokens of an expression. -/
def lex : (fuel : Nat) → List Char → M (List Tok)
  | 0, _ => .error 91
  | _, [] => .ok []
  | n + 1, c :: cs =>
    if isBlank c then lex n cs
    else if isDigit c then do
      let based := fun (base : Nat) (q : List Char) => do
        let run := q.takeWhile identChar
        let v ← fits64 ((digitsOf run).bind (valueOf base))
        return (Tok.int v, q.drop run.length)
      let (t, r) ← match c, cs with
        | '0', 'x' :: q => based 16 q
        | '0', 'b' :: q => based 2 q
        | _, _ => decimalOf (c :: cs)
      (lex n r).map (t :: ·)
    else if identStart c then
      let run := (c :: cs).takeWhile identChar
      (lex n ((c :: cs).drop run.length)).map (.name (String.ofList run) :: ·)
    else if c == '$' then (lex n cs).map (.name "$" :: ·)
    else
      match List.find? (fun (o : List Char) => o.isPrefixOf (c :: cs)) operators with
      | some o => (lex n ((c :: cs).drop o.length)).map (.op (String.ofList o) :: ·)
      | none => .error 91

/-! ## Expressions (R90, R91) -/

/-- An expression. -/
inductive Expr where
  | int (v : Nat)
  | flt (m : Nat) (e : Int)
  | name (s : String)
  | un (op : String) (x : Expr)
  | bin (op : String) (x y : Expr)
  | call (f : String) (x : Expr)
  deriving DecidableEq, Repr

/-- The level of a binary operator, 1 binding closest (R91 counts it as 3). -/
def level (o : String) : Option Nat :=
  if ["*", "/", "%"].contains o then some 1
  else if ["+", "-"].contains o then some 2
  else if ["<<", ">>"].contains o then some 3
  else if ["<", "<=", ">", ">="].contains o then some 4
  else if ["==", "!="].contains o then some 5
  else if o == "&" then some 6
  else if o == "^" then some 7
  else if o == "|" then some 8
  else if o == "&&" then some 9
  else if o == "||" then some 10
  else none

/-- Parse at a level: from its start, or on from a left operand; level 0 is unary operators and what they apply to. -/
def parse : (fuel : Nat) → (lvl : Nat) → (left : Option Expr) → List Tok → M (Expr × List Tok)
  | 0, _, _, _ => .error 91
  | n + 1, lvl, some x, ts =>
    match ts with
    | .op o :: r =>
      if level o == some lvl then do
        let (y, r) ← parse n (lvl - 1) none r
        parse n lvl (some (.bin o x y)) r
      else .ok (x, ts)
    | _ => .ok (x, ts)
  | n + 1, 0, none, ts =>
    let close := fun (p : Expr × List Tok) (f : Expr → Expr) =>
      match p.2 with
      | .op ")" :: r => (.ok (f p.1, r) : M (Expr × List Tok))
      | _ => .error 91
    match ts with
    | .int v :: r => .ok (.int v, r)
    | .flt m e :: r => .ok (.flt m e, r)
    | .name f :: .op "(" :: r => do close (← parse n 10 none r) (.call f)
    | .name s :: r => .ok (.name s, r)
    | .op "(" :: r => do close (← parse n 10 none r) id
    | .op o :: r =>
      if ["-", "~", "!"].contains o then do
        let (x, r) ← parse n 0 none r
        return (.un o x, r)
      else .error 91
    | [] => .error 91
  | n + 1, lvl + 1, none, ts => do
    let (x, r) ← parse n lvl none ts
    parse n (lvl + 1) (some x) r

/-- The expression that a text writes. -/
def parseExpr (cs : List Char) : M Expr := do
  let ts ← lex (cs.length + 1) cs
  let (x, r) ← parse (32 * (ts.length + 2)) 10 none ts
  if r.isEmpty then return x else throw 91

/-! ## Values (R91 to R93) -/

/-- A value: a number, a relocatable address, or the high or low half of one. -/
inductive Val where
  | num (v : Int)
  | rel (section_ : String) (off : Int)
  | half (hi : Bool) (section_ : String) (off : Int)
  deriving DecidableEq, Repr

/-- What a symbol stands for: a label, the value of an expression written at a place, or a plain number. -/
inductive Sym where
  | label (section_ : String) (off : Nat)
  | equ (x : Expr) (section_ : String) (off : Nat)
  | plain (v : Int)
  deriving DecidableEq, Repr

/-- What an expression may name: symbols, and the sizes that names declare. -/
structure Env where
  sym : String → Option Sym
  size : String → Option Nat

/-- A 64-bit value read as signed: results wrap (R91). -/
def wrap (v : Int) : Int := (v + 2 ^ 63) % 2 ^ 64 - 2 ^ 63

/-- 1 or 0. -/
def truth (b : Bool) : Int := if b then 1 else 0

/-- Bitwise operations on signed 64-bit values. -/
def bits (f : BitVec 64 → BitVec 64 → BitVec 64) (x y : Int) : Int := (f (BitVec.ofInt 64 x) (BitVec.ofInt 64 y)).toInt

/-- A binary operator on numbers (R91). -/
def binary (o : String) (x y : Int) : M Int :=
  match o with
  | "*" => .ok (wrap (x * y))
  | "/" => if y = 0 then .error 91 else .ok (wrap (x.tdiv y))
  | "%" => if y = 0 then .error 91 else .ok (wrap (x.tmod y))
  | "+" => .ok (wrap (x + y))
  | "-" => .ok (wrap (x - y))
  | "<<" => if 0 ≤ y ∧ y ≤ 63 then .ok (wrap (x * 2 ^ y.toNat)) else .error 91
  | ">>" => if 0 ≤ y ∧ y ≤ 63 then .ok (x / 2 ^ y.toNat) else .error 91
  | "<" => .ok (truth (x < y))
  | "<=" => .ok (truth (x ≤ y))
  | ">" => .ok (truth (y < x))
  | ">=" => .ok (truth (y ≤ x))
  | "==" => .ok (truth (x = y))
  | "!=" => .ok (truth (x ≠ y))
  | "&" => .ok (bits (· &&& ·) x y)
  | "^" => .ok (bits (· ^^^ ·) x y)
  | "|" => .ok (bits (· ||| ·) x y)
  | "&&" => .ok (truth (x ≠ 0 && y ≠ 0))
  | "||" => .ok (truth (x ≠ 0 || y ≠ 0))
  | _ => .error 90

/-- A binary operator on values: a relocatable value only as label + c, label - c, or label - label of one section (R93). That c + label
is the form label + c is the model's reading (DEDUCED, log entry 61). -/
def combine (o : String) (x y : Val) : M Val :=
  match o, x, y with
  | _, .num x, .num y => (binary o x y).map .num
  | "+", .rel s a, .num c => .ok (.rel s (wrap (a + c)))
  | "+", .num c, .rel s a => .ok (.rel s (wrap (a + c)))
  | "-", .rel s a, .num c => .ok (.rel s (wrap (a - c)))
  | "-", .rel s a, .rel t b => if s = t then .ok (.num (wrap (a - b))) else .error 93
  | _, _, _ => .error 93

/-- The value of an expression at a place of a section. A symbol that is not there, or that depends on itself,
breaks R93; a size that is not declared breaks R92. -/
def eval : (fuel : Nat) → Env → (section_ : String) → (off : Nat) → Expr → M Val
  | 0, _, _, _, _ => .error 93
  | n + 1, env, sec, off, x =>
    match x with
    | .int v => .ok (.num (wrap v))
    | .flt _ _ => .error 91
    | .name "$" => .ok (.rel sec off)
    | .name s =>
      match env.sym s with
      | some (.label t a) => .ok (.rel t a)
      | some (.equ y t a) => eval n env t a y
      | some (.plain v) => .ok (.num v)
      | none => .error 93
    | .un o y => do
      match o, ← eval n env sec off y with
      | "-", .num v => return .num (wrap (-v))
      | "~", .num v => return .num (-v - 1)
      | "!", .num v => return .num (truth (v = 0))
      | _, _ => throw 93
    | .bin o y z => do combine o (← eval n env sec off y) (← eval n env sec off z)
    | .call "sizeof" (.name s) =>
      match env.size s with
      | some v => .ok (.num v)
      | none => .error 92
    | .call f y => do
      if f == "hi32" || f == "lo32" then
        match ← eval n env sec off y with
        | .num v => return .num (if f == "hi32" then v / 2 ^ 32 % 2 ^ 32 else v % 2 ^ 32)
        | .rel t a => return .half (f == "hi32") t a
        | .half _ _ _ => throw 93
      else throw 92

/-- What an expression comes to, whatever its numbers: a plain number, a relocatable address, or a half of one (R93). -/
inductive Shape where
  | num | rel | half
  deriving DecidableEq, Repr

/-- The shape of an expression; none where a symbol is not there or values are combined in no form of R93. -/
def shape : (fuel : Nat) → Env → Expr → Option Shape
  | 0, _, _ => none
  | n + 1, env, x =>
    match x with
    | .int _ => some .num
    | .flt _ _ => none
    | .name "$" => some .rel
    | .name s =>
      match env.sym s with
      | some (.label _ _) => some .rel
      | some (.equ y _ _) => shape n env y
      | some (.plain _) => some .num
      | none => none
    | .un _ y => if shape n env y = some .num then some .num else none
    | .bin o y z =>
      match o, shape n env y, shape n env z with
      | _, some .num, some .num => some .num
      | "+", some .rel, some .num => some .rel
      | "+", some .num, some .rel => some .rel
      | "-", some .rel, some .num => some .rel
      | "-", some .rel, some .rel => some .num
      | _, _, _ => none
    | .call "sizeof" _ => some .num
    | .call _ y =>
      match shape n env y with
      | some .rel => some .half
      | some .num => some .num
      | _ => none

/-- Steps that an evaluation is given: an expression stands on one line of at most 4,096 characters (R86), and a chain of definitions that
does not come back to itself passes each of n symbols once. -/
def evalFuel (n : Nat) : Nat := (n + 1) * 4097

/-! ## Floating constants (R88, R96) -/

/-- A floating constant of an operand or a directive, with a sign before it or none. R91 asks for a whole operand or argument, and does not say whether
one in parentheses or with a sign before it is that: here it is, for parentheses leave no trace in an expression (DESIGN CHOICE, log entry 61). -/
def floatOf : Expr → Option (Bool × Nat × Int)
  | .flt m e => some (false, m, e)
  | .un "-" (.flt m e) => some (true, m, e)
  | _ => none

/-- The exact value m 10^e, cut far below any format's last place with the rest kept as one low bit. -/
def decimalXV (neg : Bool) (m : Nat) (e : Int) : XV :=
  if m = 0 then .zero neg
  else if 0 ≤ e then .fin neg (m * 10 ^ e.toNat) 0
  else
    let d := 10 ^ (-e).toNat
    let k := bitLen d + 1200
    let q := m * 2 ^ k / d
    .fin neg (if m * 2 ^ k % d = 0 then q else q ||| 1) (-(k : Int))

/-- The code of a value in a format, rounded RNE. -/
def floatCode (f : Fmt) (x : XV) : Nat := (roundXV f 0 false false x).bits

end Sys2Proof.Skas
end

