-- ==== Sys2Proof/Machine/SkasForms.lean ====
section
/-! DEFINITION. The assembly language skas, its instructions: the mnemonics with the modifiers (R90, R97) and the written operands of each
reference entry, what an operand's text writes (R94, R95, R98), and the code and the literal it is given (R96, R246). -/
namespace Sys2Proof.Skas
open Sys2Proof.Machine

/-! ## Forms -/

/-- How an operand is read, as far as skas cares: 32 bits or fewer, s64, n64 or b64, f32, f64, a packed pair, four registers. -/
inductive OTy where
  | w | s64 | n64 | f32 | f64 | pk | q
  deriving DecidableEq, Repr

/-- Registers of an operand. -/
def OTy.regs : OTy → Nat
  | .s64 => 2 | .n64 => 2 | .f64 => 2 | .q => 4 | _ => 1

/-- Where a written operand goes: a field of the first word, a memory operand to A and B, or a place of its own. -/
inductive Slot where
  | d (t : OTy) | a (t : OTy) | b (t : OTy)
  | mem (base : OTy) | base (t : OTy)
  | join | cond | call | table
  | target (bits : Nat)
  | count | imm8 | bar
  deriving DecidableEq, Repr

/-- An instruction still without its operands: its constructor, of the operand fields, the control word and the word offset of a
target; the control word it has; and its written operands in order. -/
structure Form where
  make : Ops → Ctl → Int → Instr
  ctl : Ctl := ⟨0, 0, 0, 0, 0⟩
  slots : List Slot
  load : Bool := false

/-- Modifiers are taken one group after another; what is left over is no modifier of the entry (R90). The rules broken so far stand beside them, for
each is reported (R107). -/
abbrev Mods := StateT (List String × List Nat) M

/-- Note a broken rule. -/
def note (rule : Nat) : Mods Unit := fun (ms, es) => .ok ((), (ms, es ++ [rule]))

/-- The modifier of a group, if one is written; two of one group are an error. -/
def opt {α : Type} (g : List (String × α)) : Mods (Option α) := fun (ms, es) =>
  let rest := ms.filter fun m => (g.lookup m).isNone
  match ms.filter fun m => (g.lookup m).isSome with
  | [] => .ok (none, (ms, es))
  | [m] => .ok (g.lookup m, (rest, es))
  | m :: _ => .ok (g.lookup m, (rest, es ++ [90]))

/-- The modifier of a group that must be written; where it is not, the rule is noted, and the first of the group stands in. -/
def need {α : Type} (rule : Nat) (g : List (String × α)) : Mods α := do
  match ← opt g, g with
  | some x, _ => return x
  | none, (_, x) :: _ => do note rule; return x
  | none, [] => throw rule

/-- Whether a modifier is written. -/
def flag (m : String) : Mods Bool := do return (← opt [(m, ())]).isSome

/-! ## Groups of modifiers -/

/-- The integer types T (R121). -/
def intTypes : List (String × BitVec 2 × OTy) := [("s32", 0, .w), ("n32", 1, .w), ("s64", 2, .s64), ("n64", 3, .n64)]

/-- Widths of bits (R122). -/
def widths : List (String × Bool) := [("b32", false), ("b64", true)]
def widthTy (w : Bool) : OTy := if w then .n64 else .w

/-- Float formats F (R123). -/
def floats : List (String × BitVec 2 × OTy) := [("f32", 0, .f32), ("f64", 1, .f64), ("f16", 2, .pk), ("bf16", 3, .pk)]

/-- Types by code (R118). -/
def types : List (String × BitVec 4) :=
  [("s8", 0), ("n8", 1), ("s16", 2), ("n16", 3), ("s32", 4), ("n32", 5), ("s64", 6), ("n64", 7), ("f16", 8), ("bf16", 9), ("f32", 10),
   ("f64", 11), ("e4m3", 12), ("e5m2", 13), ("e2m1", 14), ("b32", 15)]

/-- How an operand of a type code is read. -/
def typeTy (t : BitVec 4) : OTy :=
  match t.toNat with
  | 6 => .s64 | 7 => .n64 | 8 => .pk | 9 => .pk | 10 => .f32 | 11 => .f64 | _ => .w

/-- An operand of an atomic: the type's width, as raw bits. -/
def rawTy (t : BitVec 4) : OTy := if [6, 7, 11].contains t.toNat then .n64 else .w

def scopes : List (String × BitVec 3) := [("wave", 0), ("team", 1), ("core", 2), ("die", 3), ("dev", 4), ("fab", 5)]
def orders : List (String × BitVec 2) := [("rlx", 0), ("acq", 1), ("rel", 2), ("sc", 3)]
def spaces : List (String × Nat) := [("tmem", 1), ("dsp", 2)]
def tiles : List (String × BitVec 4) := [("t0", 0), ("t1", 1), ("t2", 2), ("t3", 3)]
def roundings : List (String × BitVec 7) := [("rne", 1), ("rtz", 2), ("rup", 3)]
def atomics : List (String × BitVec 4) :=
  [("add", 0), ("min", 1), ("max", 2), ("and", 3), ("or", 4), ("xor", 5), ("exch", 6), ("inc", 7), ("dec", 8)]

/-- Matrix formats (R119). -/
def matrixFormats : List (String × BitVec 4) :=
  [("bf16", 0), ("f16", 1), ("e4m3", 2), ("e5m2", 3), ("e2m1", 4), ("bx3", 5), ("bx5", 6), ("bx8", 7), ("s8", 8)]

/-- The barrier that an engine command names, with a last operand where one of the modifiers is written (R292, R335). -/
def barrier : Mods (BitVec 19 × List Slot) := do
  match ← opt [("bt", 1), ("bd", 2)] with
  | some (n : Nat) => return (BitVec.ofNat 19 (n * 2 ^ 16), [.bar])
  | none => return (0, [])

/-- Scope and order where the entry gives no default (R97). -/
def scope : Mods (BitVec 3) := need 97 scopes
def order : Mods (BitVec 2) := need 97 orders

/-- The order of an engine command: .rlx by default, or .rel (R292). R335 gives COLL's form no order and names no default, while R134 gives it the
orders of the others: COLL takes the same here (DESIGN CHOICE, log entry 61). -/
def engineOrder : Mods (BitVec 2) := do return (← opt [("rlx", 0#2), ("rel", 2#2)]).getD 0

/-! ## The mnemonics -/

/-- A form of operand fields alone. -/
def plain (f : Ops → Instr) (slots : List Slot) : Form := { make := fun o _ _ => f o, slots := slots }

/-- A form with a control word. -/
def ruled (f : Ops → Ctl → Instr) (c : Ctl) (slots : List Slot) : Form := { make := fun o c _ => f o c, ctl := c, slots := slots }

/-- Class 0 but LEA: three operands of the type. -/
def class0 : List (String × (BitVec 2 → Ops → Instr)) :=
  [("ADD", .add), ("SUB", .sub), ("ADDX", .addx), ("SUBX", .subx), ("ADDS", .adds), ("SUBS", .subs), ("MUL", .mul), ("MULH", .mulh),
   ("MAD", .mad), ("DIV", .div), ("REM", .rem), ("MIN", .min), ("MAX", .max), ("CLAMP", .clamp), ("ABSD", .absd)]

/-- Class 1 of three operands of the width; whether the width may be left out. -/
def bits3 : List (String × (Bool → Ops → Instr) × Bool) :=
  [("AND", .andB, true), ("ANDN", .andn, true), ("OR", .orB, true), ("XOR", .xorB, true), ("SEL", .sel, true)]

/-- Class 1 of two operands of the width and a 32-bit one (R360, R425, R440, R443). -/
def fields3 : List (String × (Bool → Ops → Instr)) :=
  [("SHL", .shl), ("SHR", .shr), ("SAR", .sar), ("ROL", .rol), ("BFX", .bfx), ("BFXS", .bfxs), ("BFI", .bfi), ("PRMB", .prmb)]

/-- Class 1 of one operand; whether D too has the width, and whether the width may be left out. -/
def unary : List (String × (Bool → Ops → Instr) × Bool × Bool) :=
  [("NOT", .notB, true, true), ("MOV", .mov, true, true), ("BREV", .brev, true, false), ("POPC", .popc, false, false),
   ("CLZ", .clz, false, false), ("CTZ", .ctz, false, false)]

/-- Class 2 of three and of two operands. -/
def float3 : List (String × (BitVec 2 → Ops → Instr)) :=
  [("FADD", .fadd), ("FSUB", .fsub), ("FMUL", .fmul), ("FMA", .fma), ("FMIN", .fmin), ("FMAX", .fmax), ("FDIV", .fdiv)]
def approximate : List (String × (BitVec 2 → Ops → Instr)) := [("FRCP", .frcp), ("FRSQ", .frsq), ("FEXP2", .fexp2), ("FLOG2", .flog2)]

/-- Instructions of fixed operands and no modifier. -/
def fixed : List (String × (Ops → Instr) × List Slot) :=
  [("PACK", .pack, [.d .w, .a .w, .b .w]), ("CALLX", .callx, [.d .n64, .a .n64]), ("EXIT", .exit, []), ("NOP", .nop, []),
   ("YIELD", .yield, []), ("WBASE", .wbase, [.d .w, .a .w, .b .w]), ("JENR", .jenr, [.join]), ("JWAIT", .jwait, [.join]),
   ("BALLOT", .ballot, [.d .w, .a .w]), ("VANY", .vany, [.d .w, .a .w]), ("VALL", .vall, [.d .w, .a .w]),
   ("RANKL", .rankl, [.d .w, .a .w]), ("ACTM", .actm, [.d .w, .a .w]), ("ELECT", .elect, [.d .w]),
   ("RDLN", .rdln, [.d .w, .a .w, .b .w]), ("WRLN", .wrln, [.d .w, .a .w, .b .w]), ("SHFL", .shfl, [.d .w, .a .w, .b .w]),
   ("SHFLX", .shflx, [.d .w, .a .w, .b .w]), ("SHFLU", .shflu, [.d .w, .a .w, .b .w]), ("SHFLD", .shfld, [.d .w, .a .w, .b .w]),
   ("SLEEP", .sleep, [.a .w]), ("PF", .pf, [.mem .n64]), ("STC", .stc, [.d .w, .mem .n64]), ("PUSHV", .pushv, [.d .w]),
   ("POPV", .popv, [.d .w]), ("CINV", .cinv, [.mem .n64]), ("CWB", .cwb, [.mem .n64]), ("TLRD", .tlrd, [.d .n64, .a .w]),
   ("CRIT", .crit, []), ("UNCRIT", .uncrit, []), ("TSTAT", .tstat, [.d .w]), ("LAUNCH", .launch, [.d .w, .a .n64]),
   ("TSUB", .tsub, [.d .w, .a .n64]), ("TDONE", .tdone, []), ("SPAWN", .spawn, [.a .n64, .b .w]), ("ERARM", .erarm, [.d .w, .a .n64]),
   ("ERPASS", .erpass, [.d .w, .a .w, .b .w]), ("TRAP", .trap, [.a .w]), ("RTE", .rte, []), ("RDSR", .rdsr, [.d .w, .b .w]),
   ("WRSR", .wrsr, [.a .w, .b .w]), ("BKPT", .bkpt, []), ("SYSC", .sysc, [.call, .a .n64]), ("HALT", .halt, []),
   ("CTXSW", .ctxsw, [.d .w, .a .w, .b .w])]

/-- The loads and stores by space: whether global, the load, the store. -/
def accesses : List (String × Bool × (BitVec 3 → Ops → Instr)) :=
  [("LD", true, .ld), ("LDT", false, .ldt), ("LDP", false, .ldp), ("ST", true, .st), ("STT", false, .stt), ("STP", false, .stp)]

/-- The other mnemonics, whose forms stand in `special`. -/
def others : List String :=
  ["LEA", "LUT3", "CMP", "TEST", "FSQRT", "FCMP", "CVT", "FRND", "FCLASS", "UNPK", "DOT4", "DOT2", "DOT8", "QNT", "DQNT", "BXENC", "BXDEC",
   "BR", "BRC", "BRX", "CALL", "RET", "SCANA", "REDA", "REDM", "SYNCW", "LDE", "ATOM", "CAS", "RED", "LDA", "STL", "FENCE", "CPY", "CPYG",
   "CPYS", "CPYR", "COLL", "TLARM", "MXW", "MXS", "MXD", "MXZ", "BARI", "BARA", "BARX", "BARW", "BART", "BARD", "PUBLISH", "ADOPT",
   "RETRACT", "ICINV", "TRY", "COMMIT", "ABORT", "TLBI"]

/-- Every mnemonic. -/
def mnemonics : List String :=
  class0.map (·.1) ++ bits3.map (·.1) ++ fields3.map (·.1) ++ unary.map (·.1) ++ float3.map (·.1) ++ approximate.map (·.1) ++
    fixed.map (·.1) ++ accesses.map (·.1) ++ others

/-- An instruction whose B field is an immediate. -/
def withB (f : Ops → Instr) (b : BitVec 7) : Ops → Instr := fun o => f { o with b := b }

/-- The types of a reduction (R435). -/
def reduceTypes : List (String × BitVec 4) := types.filter fun p => [4, 5, 6, 7, 8, 9, 10].contains p.2.toNat

/-- An ordered memory instruction (R131, R352): the type and the space its control word names. -/
def ordered (f : Ops → Ctl → Instr) (ops : Bool) (slots : OTy → OTy → List Slot) : Mods Form := do
  let sub ← if ops then need 90 atomics else pure 0
  let o ← order
  let s ← scope
  let t ← need 90 types
  let sp := (← opt spaces).getD 0
  return ruled f ⟨s, o, sub, t, BitVec.ofNat 19 (sp * 2 ^ 17)⟩ (slots (rawTy t) (if sp = 0 then .n64 else .w))

/-- A barrier instruction (R356). -/
def barred (f : Ops → Ctl → Instr) (ord sc : Bool) (slots : List Slot) : Mods Form := do
  let sp ← need 90 spaces
  let o ← if ord then order else pure 0
  let s ← if sc then scope else pure 0
  return ruled f ⟨s, o, BitVec.ofNat 4 sp, 0, 0⟩ slots

/-- The format of an instruction of class 3. -/
def narrow (names : List String) : Mods (BitVec 2) := do
  return BitVec.ofNat 2 (← need 90 names.zipIdx)

/-- The forms that have a shape of their own. TEST takes .b32 where no width is written: R462 brackets the width and names no default (DESIGN CHOICE,
log entry 61). -/
def special (mn : String) : Mods Form :=
  match mn with
  | "LEA" => do return plain (.lea (BitVec.ofNat 2 (← need 90 ["x1", "x2", "x4", "x8"].zipIdx))) [.d .n64, .a .n64, .b .w]
  | "LUT3" => do let w ← need 90 widths; return plain (.lut3 w) [.d (widthTy w), .a (widthTy w), .b (widthTy w), .table]
  | "CMP" => do
    let (f, signed) ← need 90 [("eq", (Instr.cmpEq, true)), ("ne", (.cmpNe, true)), ("lt", (.cmpLt, true)), ("le", (.cmpLe, true)),
      ("ltn", (.cmpLtn, false)), ("len", (.cmpLen, false))]
    let w := (← opt widths).getD false
    let t := if w && signed then .s64 else widthTy w
    return plain (f w) [.d .w, .a t, .b t]
  | "TEST" => do
    let f ← need 90 [("z", Instr.testZ), ("nz", .testNz)]
    let w := (← opt widths).getD false
    return plain (f w) [.d .w, .a (widthTy w), .b (widthTy w)]
  | "FSQRT" => do let (f, t) ← need 90 floats; return plain (.fsqrt f) [.d t, .a t]
  | "FCMP" => do
    let c ← need 90 ["eq", "lt", "le", "un"].zipIdx
    let (f, t) ← need 90 floats
    return plain (.fcmp (BitVec.ofNat 2 c) f) [.d .w, .a t, .b t]
  | "CVT" => do
    let src ← need 90 types
    let dst ← need 90 (types.map fun p => ("to_" ++ p.1, p.2))
    let sat ← flag "sat"
    let r := (← opt roundings).getD 0
    let b : BitVec 7 := dst ++ BitVec.ofBool sat ++ r.setWidth 2
    return plain (withB (.cvt src) b) [.d (typeTy dst), .a (typeTy src)]
  | "FRND" => do
    let t ← need 90 (types.filter fun p => [8, 9, 10, 11].contains p.2.toNat)
    let r := (← opt roundings).getD 0
    return plain (withB .frnd (t ++ 0#1 ++ r.setWidth 2)) [.d (typeTy t), .a (typeTy t)]
  | "FCLASS" => do
    let t ← need 90 (types.filter fun p => [8, 9, 10, 11, 12, 13, 14].contains p.2.toNat)
    return plain (withB .fclass (t ++ 0#3)) [.d .w, .a (typeTy t)]
  | "UNPK" => do
    let e ← need 90 [("e0", 0#7), ("e1", 1#7)]
    let sx ← flag "sx"
    return plain (withB .unpk (e + if sx then 2 else 0)) [.d .w, .a .w]
  | "DOT4" => do return plain (.dot4 (← narrow ["s8", "n8", "e4m3", "e5m2"])) [.d .w, .a .w, .b .w]
  | "DOT2" => do return plain (.dot2 (← need 90 [("bf16", false), ("f16", true)])) [.d .f32, .a .pk, .b .pk]
  | "DOT8" => do let _ ← need 90 [("e2m1", ())]; return plain .dot8 [.d .f32, .a .w, .b .w]
  | "QNT" => do return plain (.qnt (← narrow ["e4m3", "e5m2", "e2m1", "s8"])) [.d .w, .a .f32]
  | "DQNT" => do return plain (.dqnt (← narrow ["e4m3", "e5m2", "e2m1", "s8"])) [.d .w, .a .w, .b .w]
  | "BXENC" => do return plain (.bxenc (← narrow ["bx3", "bx5", "bx8"])) [.d .w, .a .f32]
  | "BXDEC" => do return plain (← need 90 [("bx3", Instr.bxdecBx3), ("bx5", .bxdecBx5), ("bx8", .bxdecBx8)]) [.d .w, .a .w]
  | "BR" => return { make := fun _ _ t => .br (BitVec.ofInt 22 t), slots := [.target 22] }
  | "CALL" => return { make := fun _ _ t => .call (BitVec.ofInt 22 t), slots := [.target 22] }
  | "BRC" => return { make := fun o _ t => .brc o.d (BitVec.ofInt 15 t), slots := [.cond, .target 15] }
  | "BRX" => do return ruled .brx ⟨0, 0, ← need 90 [("rel", 0), ("abs", 1)], 0, 0⟩ [.a .w, .b .n64, .count]
  | "RET" => return plain .ret [.base .n64]
  | "SCANA" => do let t ← need 90 reduceTypes; return plain (withB .scana (t.setWidth 7)) [.d (typeTy t), .a (typeTy t)]
  | "REDA" => do let t ← need 90 reduceTypes; return plain (withB .reda (t.setWidth 7)) [.d (typeTy t), .a (typeTy t)]
  | "REDM" => do
    let m ← need 90 [("min", 0#7), ("max", 0x10#7)]
    let t ← need 90 reduceTypes
    return plain (withB .redm (m + t.setWidth 7)) [.d (typeTy t), .a (typeTy t)]
  | "SYNCW" => do return ruled .syncw ⟨0, ← order, 0, 0, 0⟩ [.a .w]
  | "LDE" => return { plain .lde [.d .w, .mem .n64] with load := true }
  | "ATOM" => ordered .atom true fun t a => [.d t, .base a, .b t]
  | "CAS" => ordered .cas false fun t a => [.d t, .base a, .b t]
  | "RED" => ordered .red true fun t a => [.base a, .b t]
  | "LDA" => ordered .lda false fun t a => [.d t, .mem a]
  | "STL" => ordered .stl false fun t a => [.d t, .mem a]
  | "FENCE" => do let o ← order; return ruled .fence ⟨← scope, o, 0, 0, 0⟩ []
  | "CPY" => do
    let s ← scope; let sp ← need 90 spaces; let o ← engineOrder; let (b, l) ← barrier
    return ruled .cpy ⟨s, o, BitVec.ofNat 4 (sp - 1), 0, b⟩ ([.d .w, .a .w, .b .w] ++ l)
  | "CPYG" => do
    let s ← scope; let sp ← need 90 spaces; let t ← need 90 [("n32", 5), ("n64", 7)]; let o ← engineOrder; let (b, l) ← barrier
    return ruled .cpyg ⟨s, o, BitVec.ofNat 4 (sp - 1), t, b⟩ ([.d .w, .a .w, .b .w] ++ l)
  | "CPYS" => do
    let s ← scope; let sp ← need 90 spaces; let o ← engineOrder; let (b, l) ← barrier
    return ruled .cpys ⟨s, o, BitVec.ofNat 4 (sp - 1), 0, b⟩ ([.d .w, .a .w, .b .w] ++ l)
  | "CPYR" => do
    let s ← scope; let k ← need 90 [("add", 0#4), ("min", 1), ("max", 2)]; let t ← need 90 types; let sp ← need 90 spaces
    let o ← engineOrder; let (b, l) ← barrier
    return ruled .cpyr ⟨s, o, k + BitVec.ofNat 4 (8 * (sp - 1)), t, b⟩ ([.d .w, .a .w, .b .w] ++ l)
  | "COLL" => do
    let s ← scope; let k ← need 90 [("ar", 0), ("rs", 1), ("ag", 2), ("a2a", 3)]; let t ← need 90 types
    let o ← engineOrder; let (b, l) ← barrier
    return ruled .coll ⟨s, o, k, t, b⟩ ([.d .w, .a .w] ++ l)
  | "TLARM" => do
    let s ← scope; let b ← need 90 [("bt", 1), ("bd", 2)]
    return ruled .tlarm ⟨s, 0, 0, 7, BitVec.ofNat 19 (b * 2 ^ 16)⟩ [.a .w, .b .n64, .bar]
  | "MXW" => do
    let f ← need 90 matrixFormats; let act ← flag "act"; let fold ← flag "fold"; let o ← engineOrder; let (b, l) ← barrier
    return ruled .mxw ⟨2, o, (if act then 1 else 0) + (if fold then 2 else 0), f, b⟩ ([.d .w, .a .w, .b .w] ++ l)
  | "MXS" => do
    let f ← need 90 matrixFormats; let t ← need 90 tiles; let clr ← flag "clr"; let swap ← flag "swap"; let o ← engineOrder
    let (b, l) ← barrier
    return ruled .mxs ⟨2, o, t + (if clr then 4 else 0) + (if swap then 8 else 0), f, b⟩ ([.d .w, .a .w, .b .w] ++ l)
  | "MXD" => do
    let s ← scope; let ty ← need 90 types; let t ← need 90 tiles; let sp ← need 90 [("tmem", 0), ("dsp", 1), ("glob", 2)]
    let add ← flag "add"; let o ← engineOrder; let (b, l) ← barrier
    return ruled .mxd ⟨s, o, t + BitVec.ofNat 4 (4 * sp), ty, b + if add then 0x40000 else 0⟩
      ([.d .w, .a (if sp = 2 then .n64 else .w), .b .w] ++ l)
  | "MXZ" => do
    let t ← need 90 tiles; let o ← engineOrder; let (b, l) ← barrier
    return ruled .mxz ⟨2, o, t, 0, b⟩ ([.d .w] ++ l)
  | "BARI" => barred .bari false false [.a .w, .b .n64]
  | "BARA" => barred .bara true true [.a .w]
  | "BARX" => barred .barx true true [.a .w, .b .w]
  | "BARW" => barred .barw true true [.a .w, .b .w]
  | "BART" => barred .bart true true [.d .w, .a .w, .b .w]
  | "BARD" => barred .bard false true [.a .w]
  | "PUBLISH" => do return ruled .publish ⟨← scope, 0, 0, 0, 0⟩ [.d .w, .a .n64]
  | "ADOPT" => do return ruled .adopt ⟨← scope, 0, 0, 0, 0⟩ [.d .w, .a .n64, .b .w]
  | "RETRACT" => do return ruled .retract ⟨0, 0, 0, 0, BitVec.ofNat 19 ((← need 90 spaces) * 2 ^ 16)⟩ [.d .w, .a .n64, .bar]
  | "ICINV" => do return ruled .icinv ⟨← scope, 0, 0, 0, 0⟩ [.a .n64, .b .w]
  | "TRY" => do
    let m ← need 90 [("lane", 0#4), ("wave", 1)]
    return { make := fun o c t => .tryR o { c with spec := BitVec.ofInt 19 t }, ctl := ⟨0, 0, m, 0, 0⟩, slots := [.target 19] }
  | "COMMIT" => do return ruled .commit ⟨← scope, 0, 0, 0, 0⟩ []
  | "ABORT" => return ruled .abort ⟨0, 0, 0, 0, 0⟩ [.imm8]
  | "TLBI" => do
    let s ← scope; let page ← need 90 [("ctx", false), ("page", true)]
    return ruled .tlbi ⟨s, 0, if page then 1 else 0, 0, 0⟩ (if page then [.a .n64, .b .w] else [.a .w])
  | _ => throw 90

/-- The form of a mnemonic with its modifiers, all in one case (R86, R90). -/
def formOf (mn : String) : Mods Form := do
  match class0.lookup mn with
  | some f => let (t, y) ← need 90 intTypes; return plain (f t) [.d y, .a y, .b y]
  | none =>
  match bits3.lookup mn with
  | some (f, _) => let w := (← opt widths).getD false; return plain (f w) [.d (widthTy w), .a (widthTy w), .b (widthTy w)]
  | none =>
  match fields3.lookup mn with
  | some f => let w ← need 90 widths; return plain (f w) [.d (widthTy w), .a (widthTy w), .b .w]
  | none =>
  match unary.lookup mn with
  | some (f, wide, dflt) =>
    let w ← if dflt then do pure ((← opt widths).getD false) else need 90 widths
    return plain (f w) [.d (if wide then widthTy w else .w), .a (widthTy w)]
  | none =>
  match float3.lookup mn with
  | some f => let (t, y) ← need 90 floats; return plain (f t) [.d y, .a y, .b y]
  | none =>
  match approximate.lookup mn with
  | some f => let (t, y) ← need 90 (floats.filter fun p => p.2.1 == 0 || p.2.1 == 2); return plain (f t) [.d y, .a y]
  | none =>
  match fixed.lookup mn with
  | some (f, slots) => return plain f slots
  | none =>
  match accesses.lookup mn with
  | some (glob, f) =>
    let isLoad := mn.toList.head? == some 'L'
    let k ← need 90 ((if isLoad then ["n8", "s8", "n16", "s16", "b32", "b64", "b128"] else ["b8", "b16", "b32", "b64", "b128"]).zipIdx)
    let bytes := if isLoad then [1, 1, 2, 2, 4, 8, 16].getD k 4 else 2 ^ k
    let t : OTy := if bytes = 8 then .n64 else if bytes = 16 then .q else .w
    return { plain (f (BitVec.ofNat 3 k)) [.d t, .mem (if glob then .n64 else .w)] with load := isLoad }
  | none => special mn

/-- The form of an instruction, with bit 21 as .nw or .h sets it (R97), or every rule that its modifiers break. -/
def form (mn : String) (mods : List String) : Except (List Nat) (Form × Bool) :=
  let go : Mods (Form × Bool) := do
    let f ← formOf mn
    let h ← if f.load then flag "h" else pure false
    let nw ← flag "nw"
    let takes := (Encoding.row (f.make ⟨false, false, 0, 0, 0, 0⟩ f.ctl 0)).any (·.nw)
    if nw && (f.load || !takes) then note 97
    return (f, h || nw)
  match go (mods, []) with
  | .ok (r, (left, es)) => if left.isEmpty && es.isEmpty then .ok r else .error (es ++ left.map fun _ => 90)
  | .error e => .error [e]

/-! ## Written operands (R90, R95, R98) -/

/-- A register, a latch, a join register, a named constant, or an expression. -/
inductive Opd where
  | v (n : Nat) | s (n : Nat) | latch (n : Nat) | join (n : Nat)
  | zero | lane | wave | ones
  | expr (x : Expr)
  deriving DecidableEq, Repr

/-- A written operand: one part, or a memory operand with its base and offset. -/
inductive Written where
  | one (x : Opd)
  | mem (base : Opd) (off : Option Opd)
  deriving DecidableEq, Repr

/-- A name of R87: a register below 96, a latch below 8, a join register below 4, or a named constant. A number with a leading zero
names no register, and named constants are matched without regard to case as registers are (DESIGN CHOICE, log entry 61). -/
def namedOpd (s : String) : Option Opd :=
  let t := lowered s
  match t.toList with
  | c :: ds =>
    let n := if !ds.isEmpty && ds.all isDigit && (ds.length = 1 || ds.head? != some '0') then valueOf 10 ds else none
    match c, n with
    | 'v', some n => if n < 96 then some (.v n) else none
    | 's', some n => if n < 96 then some (.s n) else none
    | 'b', some n => if n < 8 then some (.latch n) else none
    | 'j', some n => if n < 4 then some (.join n) else none
    | _, _ => if t == "zero" then some .zero else if t == "lane" then some .lane else if t == "wave" then some .wave
              else if t == "ones" then some .ones else none
  | [] => none

/-- Names that cannot be defined (R87); symbols are case-sensitive, so only what R86 matches without regard to case is so here. -/
def reserved (s : String) : Bool :=
  (namedOpd s).isSome || (mnemonics.map lowered).contains (lowered s) || ["hi32", "lo32", "sizeof"].contains s

/-- One part of an operand. -/
def opdOf (cs : List Char) : M Opd :=
  match namedOpd (String.ofList (trim cs)) with
  | some x => .ok x
  | none => (parseExpr cs).map .expr

/-- Split at the first + or - outside parentheses that stands after a part (R98). `prev` says that an operand stands before. A + at the very start
does not split, and as R91 has no unary + it begins no expression: [+4] is refused there (DESIGN CHOICE, log entry 61). -/
def splitMem : (depth : Nat) → (prev : Bool) → (done : List Char) → List Char → List Char × Option (Bool × List Char)
  | _, _, acc, [] => (acc.reverse, none)
  | depth, prev, acc, c :: cs =>
    if (c == '+' || c == '-') && depth = 0 && prev then (acc.reverse, some (c == '-', cs))
    else
      let depth := if c == '(' then depth + 1 else if c == ')' then depth - 1 else depth
      splitMem depth (if isBlank c then prev else identChar c || c == ')' || c == '$') (c :: acc) cs

/-- The operand that a text writes (R98). -/
def writtenOf (cs : List Char) : M Written :=
  match cs with
  | '[' :: r =>
    match r.reverse with
    | ']' :: q => do
      let (base, off) := splitMem 0 false [] q.reverse
      let a ← opdOf base
      match off with
      | none => return .mem a none
      | some (neg, t) =>
        match ← opdOf t with
        | .expr x => return .mem a (some (.expr (if neg then .un "-" x else x)))
        | b => if neg then throw 98 else return .mem a (some b)
    | _ => .error 90
  | _ => (opdOf cs).map .one

/-! ## Codes and literals (R94 to R96, R246) -/

/-- The registers that an operand writes: vector, scalar. -/
def Opd.isV : Opd → Bool
  | .v _ => true
  | _ => false
def Opd.isS : Opd → Bool
  | .s _ => true
  | _ => false

def Written.parts : Written → List Opd
  | .one x => [x]
  | .mem a b => a :: b.toList

/-- Whether an instruction is scalar (R94): as its destination is written, else as its other registers are, and where no register is
written as its entry marks it. SYSC, which is vector only, takes scalar registers as they stand (R459). -/
def scalarOf (mode : Encoding.SMode) (ws : List (Slot × Written)) : M Bool :=
  let dest := ws.findSome? fun p => match p.1, p.2 with
    | .d _, .one x => some x
    | _, _ => none
  let all := ws.flatMap fun p => p.2.parts
  let written := match dest with
    | some (.v _) => some false
    | some (.s _) => some true
    | _ => if all.any Opd.isV then some false else if all.any Opd.isS then some true else none
  let vectorOnly := ws.any fun p => p.1 == .call
  match mode with
  | .vector => if written == some true && !vectorOnly then .error 94 else .ok false
  | .scalar => if written == some false then .error 94 else .ok true
  | .both => .ok (written.getD false)

/-- What an expression operand comes to: a value known now, or a half of an address that the loader fills (R246). -/
inductive Imm where
  | bits (x : Int)
  | flt (neg : Bool) (m : Nat) (e : Int)
  | reloc (hi : Bool) (section_ : String) (off : Int)
  deriving DecidableEq, Repr

/-- The code of a value, and its literal word where the code is 127 (R96). Two points are the model's choice (DESIGN CHOICE, log entry 61): a half of
an address stands for an operand of a format narrower than 16 bits as well, which neither list of R93 names; and all ones of an operand narrower than 32
bits is -1 or 32 ones, as the rule writes it of 32-bit types, so that 0xFF of an n8 is a literal. -/
def immCode (scalar : Bool) (t : OTy) (x : Imm) : M (Code × Option Word) :=
  let lit := fun (w : Int) => (.ok (127, some (BitVec.ofInt 32 w)) : M (Code × Option Word))
  match x with
  | .reloc _ _ _ => if t == .w || t == .n64 then lit 0 else .error 93
  | .flt neg m e =>
    match t with
    | .f32 => pattern scalar false (floatCode Fmt.f32 (decimalXV neg m e)) lit
    | .f64 => pattern scalar true (floatCode Fmt.f64 (decimalXV neg m e)) lit
    | .pk => .error 96
    | _ => .error 91
  | .bits v =>
    match t with
    | .f32 => pattern scalar false (v % 2 ^ 32).toNat lit
    | .f64 => pattern scalar true (v % 2 ^ 64).toNat lit
    | _ =>
      let wide := t == .s64 || t == .n64
      if v = 0 then .ok (120, none)
      else if v = -1 || (!wide && v = 2 ^ 32 - 1) then .ok (122, none)
      else if scalar && 1 ≤ v && v ≤ 15 then .ok (BitVec.ofInt 7 (96 + v), none)
      else
        let ok := match t with
          | .s64 => -(2 ^ 31) ≤ v && v < 2 ^ 31
          | .n64 => 0 ≤ v && v < 2 ^ 32
          | _ => -(2 ^ 31) ≤ v && v < 2 ^ 32
        if ok then lit v else .error 96
where
  /-- A float pattern: +0, all ones, a small constant of a scalar instruction, or a literal, the high word of an f64 (R96). -/
  pattern (scalar wide : Bool) (p : Nat) (lit : Int → M (Code × Option Word)) : M (Code × Option Word) :=
    if p = 0 then .ok (120, none)
    else if p = (if wide then 2 ^ 64 - 1 else 2 ^ 32 - 1) then .ok (122, none)
    else if scalar && p ≤ 15 then .ok (BitVec.ofNat 7 (96 + p), none)
    else if !wide then lit p
    else if p % 2 ^ 32 = 0 then lit (p / 2 ^ 32 : Nat)
    else .error 96

/-- The code of a part that is no expression (R95). A 64-bit operand takes an even register; b128 one that is a multiple of 4. -/
def nameCode (scalar : Bool) (t : OTy) (x : Opd) : M (Option Code) :=
  let even := fun (n : Nat) (c : Nat) => if n % t.regs = 0 then (.ok (some (BitVec.ofNat 7 c)) : M (Option Code)) else .error 95
  match x with
  | .v n => if scalar then .error 94 else even n n
  | .s n => if scalar then even n n else if n < 16 then even n (96 + n) else .error 94
  | .latch n => .ok (some (BitVec.ofNat 7 (112 + n)))
  | .zero => .ok (some 120)
  | .lane => if scalar then .error 94 else .ok (some 121)
  | .wave => if scalar then .ok (some 121) else .error 94
  | .ones => .ok (some 122)
  | .join _ => .error 90
  | .expr _ => .ok none

/-- What an instruction comes to before its targets are known: its codes, the literal, the expressions that the loader fills. -/
structure Coded where
  ops : Ops
  ctl : Ctl
  lit : Option Word
  reloc : Option Imm
  target : Option Expr
  deriving DecidableEq, Repr

/-- Give one written operand its place. `value` is what an expression of an operand field comes to, `num` a number outside them. -/
def place (value : Expr → M Imm) (num : Expr → M Int) (scalar : Bool) (c : Coded) (p : Slot × Written) : M Coded :=
  let code := place.step value scalar c
  let number := fun (x : Opd) => match x with
    | .expr e => num e
    | _ => (.error 90 : M Int)
  match p with
  | (.d t, .one x) =>
    match x with
    | .v _ => code t x fun o k => { o with d := k }
    | .s _ => code t x fun o k => { o with d := k }
    | _ => .error 95
  | (.a t, .one x) => code t x fun o k => { o with a := k }
  | (.b t, .one x) => code t x fun o k => { o with b := k }
  | (.cond, .one x) => code .w x fun o k => { o with d := k }
  | (.base t, .mem x none) => code t x fun o k => { o with a := k }
  | (.base _, .mem _ (some _)) => .error 98
  | (.mem t, .mem x y) => do
    let c ← place.step value scalar c t x fun o k => { o with a := k }
    place.step value scalar c .w (y.getD .zero) fun o k => { o with b := k }
  | (.join, .one (.join n)) => .ok { c with ops := { c.ops with a := BitVec.ofNat 7 n } }
  | (.call, .one x) => do
    let v ← number x
    if 0 ≤ v ∧ v < 128 then return { c with ops := { c.ops with b := BitVec.ofInt 7 v } } else throw 96
  | (.table, .one x) => do
    let v ← number x
    if !(0 ≤ v && v < 256) || c.lit.isSome then throw 96
    else return { c with ops := { c.ops with lit := BitVec.ofInt 32 v }, lit := some (BitVec.ofInt 32 v) }
  | (.count, .one x) => do
    let v ← number x
    if 1 ≤ v ∧ v ≤ 65535 then return { c with ctl := { c.ctl with spec := c.ctl.spec + BitVec.ofInt 19 v } } else throw 96
  | (.imm8, .one x) => do
    let v ← number x
    if 0 ≤ v ∧ v < 256 then return { c with ctl := { c.ctl with spec := BitVec.ofInt 19 v } } else throw 96
  | (.bar, .one x) => do
    let v ← number x
    if v % 32 = 0 ∧ 0 ≤ v ∧ v / 32 ≤ 65535 then return { c with ctl := { c.ctl with spec := c.ctl.spec + BitVec.ofInt 19 (v / 32) } }
    else throw 96
  | (.target _, .one (.expr e)) => .ok { c with target := some e }
  | _ => .error 90
where
  /-- One part of a memory operand. -/
  step (value : Expr → M Imm) (scalar : Bool) (c : Coded) (t : OTy) (x : Opd) (set : Ops → Code → Ops) : M Coded := do
    match ← nameCode scalar t x with
    | some k => return { c with ops := set c.ops k }
    | none =>
      match x with
      | .expr e =>
        let v ← value e
        let (k, w) ← immCode scalar t v
        match w with
        | none => return { c with ops := set c.ops k }
        | some l =>
          if c.lit.isSome then throw 96
          else return { c with ops := { set c.ops k with lit := l }, lit := some l,
                               reloc := match v with | .reloc _ _ _ => some v | _ => none }
      | _ => throw 90

end Sys2Proof.Skas
end

