-- ==== Sys2Proof/Machine/Skas.lean ====
section
/-! DEFINITION. The assembly language skas: source lines, files and stored lines (R86, R100, R102), statements and directives (R90, R99 to
R106), the object it writes or the problems it reports (R107), and the placing of an object by the loader (R93, R104, R105, R330). No
instruction reads any of it: skas and the loader are software, and what they decide is which words a program holds. -/
namespace Sys2Proof.Skas
open Sys2Proof.Machine

/-! ## The object -/

/-- An error: the file, the line and the rule broken (R107). -/
structure Problem where
  file : String
  line : Nat
  rule : Nat
  deriving DecidableEq, Repr

/-- What a section holds (R100). -/
inductive Kind where
  | code | data | const
  deriving DecidableEq, Repr

/-- A section: its alignment, the bytes emitted so far, the last first, and how many they are. -/
structure Section where
  name : String
  kind : Kind
  align : Nat
  rev : List Byte
  len : Nat
  deriving DecidableEq, Repr

/-- What the loader fills: the low or the high half of an address as a word (R246), or all of it as 8 bytes (R93, R330). -/
inductive Fill where
  | lo | hi | dword
  deriving DecidableEq, Repr

/-- A place that the loader fills: where it lies, and the section and offset whose address it takes. -/
structure Reloc where
  section_ : String
  off : Nat
  fill : Fill
  target : String
  addend : Int
  deriving DecidableEq, Repr

/-- A team description (R103). -/
structure Team where
  waves : Nat
  vregs : Nat
  sregs : Nat
  tmem : Nat
  spill : Nat
  deriving DecidableEq, Repr

/-- An object: sections, symbols, exported names, launch entries with their teams, regions with their lengths, barriers with their offsets
(whether of a team), the number of die barriers, and what the loader fills. -/
structure Object where
  sections : List Section
  symbols : List (String × Val)
  exports : List String
  entries : List (String × Team)
  regions : List (String × Nat)
  barriers : List (String × Bool × Nat)
  dieBarriers : Nat
  relocs : List Reloc
  deriving DecidableEq, Repr

/-- The bytes of a section. -/
def Section.bytes (x : Section) : List Byte := x.rev.reverse

/-! ## Source lines (R86, R100, R102) -/

/-- A statement at its place: a label or none, and the text after it. -/
structure Item where
  file : String
  line : Nat
  label : Option String
  text : List Char
  deriving DecidableEq, Repr

/-- A stored definition (R102): its name, its parameters, its lines. -/
structure Stored where
  name : String
  params : List String
  lines : List (List Char)
  deriving DecidableEq, Repr

/-- What reading the source has gathered: the definitions, the one that is open, the statements and problems, the last first. -/
structure Gathered where
  defs : List Stored
  open_ : Option Stored
  items : List Item
  problems : List Problem
  deriving DecidableEq, Repr

/-- Where a line stands: its file and number, and how deep it lies in included files and in expansions. -/
structure Place where
  file : String
  line : Nat
  files : Nat
  uses : Nat
  deriving DecidableEq, Repr

/-- The lines of a text: separated by LF, optionally preceded by CR (R86). A CR that ends a last line without LF is dropped like the others
(DESIGN CHOICE, log entry 61). -/
def linesOf (cs : List Char) : List (List Char) :=
  let (last, done) := cs.foldr (fun c (cur, done) => if c == '\n' then ([], cur :: done) else (c :: cur, done)) ([], [])
  (last :: done).map fun l => if l.getLast? == some '\r' then l.dropLast else l

/-- The label at the head of a line and what follows it (R90). -/
def labelOf (cs : List Char) : Option String × List Char :=
  let t := trim cs
  let name := if (t.head?.map identStart).getD false then t.takeWhile identChar else []
  match (t.drop name.length).dropWhile isBlank with
  | ':' :: r => if name.isEmpty then (none, t) else (some (String.ofList name), trim r)
  | _ => (none, t)

/-- The first word of a statement, with its dots, and the text after it. -/
def headOf (cs : List Char) : String × List Char :=
  let h := cs.takeWhile fun c => identChar c || c == '.'
  (String.ofList h, trim (cs.drop h.length))

/-- Split a text at its commas outside brackets, parentheses and strings. -/
def splitArgs : (depth : Nat) → (inString : Bool) → (cur : List Char) → List Char → List (List Char)
  | _, _, cur, [] => [cur.reverse]
  | d, true, cur, '\\' :: c :: cs => splitArgs d true (c :: '\\' :: cur) cs
  | d, true, cur, c :: cs => splitArgs d (c != '"') (c :: cur) cs
  | d, false, cur, c :: cs =>
    if c == ',' && d = 0 then cur.reverse :: splitArgs d false [] cs
    else
      let d' := if c == '(' || c == '[' then d + 1 else if c == ')' || c == ']' then d - 1 else d
      splitArgs d' (c == '"') (c :: cur) cs

/-- The arguments or operands of a statement; an empty one is none (R90). -/
def argsOf (cs : List Char) : M (List (List Char)) :=
  let xs := (splitArgs 0 false [] cs).map trim
  if xs == [[]] then .ok []
  else if xs.any (·.isEmpty) then .error 90
  else .ok xs

/-- The text between the quotes of a string (R89). -/
def stringOf (cs : List Char) : M String :=
  match cs with
  | '"' :: r =>
    match r.reverse with
    | '"' :: q => (unescape q.reverse).map String.ofList
    | _ => .error 89
  | _ => .error 89

/-- Whether a text is an argument of a use of stored lines: an expression, an identifier or a string (R90). -/
def argument (cs : List Char) : Bool := (stringOf cs).toBool || (parseExpr cs).toBool

/-- Put the text of each argument in the place of its parameter's name after a percent sign (R102). -/
def substitute (sub : List (String × List Char)) : (fuel : Nat) → List Char → List Char
  | 0, cs => cs
  | _, [] => []
  | n + 1, '%' :: cs =>
    let name := if (cs.head?.map identStart).getD false then cs.takeWhile identChar else []
    match sub.lookup (String.ofList name) with
    | some t => t ++ substitute sub n (cs.drop name.length)
    | none => '%' :: substitute sub n cs
  | n + 1, c :: cs => c :: substitute sub n cs

/-- Note a problem at a place. -/
def Gathered.problem (g : Gathered) (p : Place) (rule : Nat) : Gathered :=
  { g with problems := ⟨p.file, p.line, rule⟩ :: g.problems }

/-- Note a statement at a place. -/
def Gathered.item (g : Gathered) (p : Place) (label : Option String) (text : List Char) : Gathered :=
  if label.isNone && text.isEmpty then g else { g with items := ⟨p.file, p.line, label, text⟩ :: g.items }

/-- Open a definition (R102). A name is defined once, and is none of those of R87. -/
def Gathered.define (g : Gathered) (args : List (List Char)) : M Gathered :=
  match args.map String.ofList with
  | [] => .error 102
  | name :: params =>
    if !(name :: params).all identForm || reserved name then .error 87
    else if g.defs.any (·.name == name) then .error 93
    else .ok { g with open_ := some ⟨name, params, []⟩ }

/-- Read a line without its comment. `fuel` bounds the nesting, which R100 and R102 bound at 16 each. R102 does not say whether stored
lines may be used before they are defined: here a use reads the definitions above it alone, so an earlier use is an instruction that
does not exist (DESIGN CHOICE, log entry 61). A label on the line of .endm stands where the definition closes. -/
def readLine (files : List (String × String)) : (fuel : Nat) → Place → Gathered → List Char → Gathered
  | 0, p, g, _ => g.problem p 102
  | n + 1, p, g, cs =>
    let (label, text) := labelOf cs
    let (head, rest) := headOf text
    let word := lowered head
    let answer := fun (x : M Gathered) => match x with
      | .ok g' => g'
      | .error r => g.problem p r
    match g.open_ with
    | some d =>
      if word == ".endm" then
        { g with open_ := none, defs := { d with lines := d.lines.reverse } :: g.defs }.item p label []
      else if word == ".macro" then g.problem p 102
      else { g with open_ := some { d with lines := cs :: d.lines } }
    | none =>
      if word == ".macro" then
        answer do
          let args ← argsOf rest
          (g.item p label []).define args
      else if word == ".endm" then g.problem p 102
      else if word == ".include" then
        answer do
          let args ← argsOf rest
          match args with
          | [a] =>
            let name ← stringOf a
            match files.lookup name with
            | some t =>
              if p.files ≥ 16 then throw 100
              else
                return (linesOf t.toList).zipIdx.foldl (fun (g : Gathered) (l, i) =>
                  let q : Place := { p with file := name, line := i + 1, files := p.files + 1 }
                  if l.length > 4096 then g.problem q 86
                  else match strip false l with
                    | .ok l => readLine files n q g l
                    | .error r => g.problem q r) (g.item p label [])
            | none => throw 100
          | _ => throw 100
      else
        match g.defs.find? (·.name == head) with
        | none => g.item p label text
        | some d =>
          answer do
            let args ← argsOf rest
            if args.length ≠ d.params.length || p.uses ≥ 16 then throw 102
            if !args.all argument then throw 90
            return d.lines.foldl (fun (g : Gathered) l =>
              readLine files n { p with uses := p.uses + 1 } g (substitute (d.params.zip args) l.length l)) (g.item p label [])

/-- Read a source file, its included files and its stored lines: the statements in order, or the problems. -/
def gather (files : List (String × String)) (name text : String) : Gathered :=
  let g := (linesOf text.toList).zipIdx.foldl (fun (g : Gathered) (l, i) =>
    let p : Place := ⟨name, i + 1, 0, 0⟩
    if l.length > 4096 then g.problem p 86
    else match strip false l with
      | .ok l => readLine files 64 p g l
      | .error r => g.problem p r) ⟨[], none, [], []⟩
  match g.open_ with
  | some _ => g.problem ⟨name, (linesOf text.toList).length, 0, 0⟩ 102
  | none => g

/-! ## Symbols (R92, R93) -/

/-- The symbols, the sizes that names declare, the labels in order (section, name, offset), the ends of sections where known. -/
structure Table where
  syms : List (String × Sym)
  sizes : List (String × Nat)
  labels : List (String × String × Nat)
  ends : List (String × Nat)
  deriving DecidableEq, Repr

/-- The size of a label: to the next label of its section, or to the section's end (R92). -/
def Table.labelSize (t : Table) (name : String) : Option Nat :=
  match t.labels.dropWhile (·.2.1 != name) with
  | (sec, _, off) :: later =>
    match later.find? (·.1 == sec) with
    | some (_, _, next) => some (next - off)
    | none => (t.ends.lookup sec).map (· - off)
  | [] => none

/-- What an expression may name, by a table. -/
def Table.env (t : Table) : Env :=
  { sym := fun s => t.syms.lookup s, size := fun s => (t.sizes.lookup s).or (t.labelSize s) }

/-! ## Assembling statements -/

/-- A line of a source file. -/
structure At where
  file : String
  line : Nat
  deriving DecidableEq, Repr

/-- The entry that is open: its name and line, its team, the lines of its team barriers, the last first. -/
structure Open where
  name : String
  at_ : At
  team : Option Team
  barriers : List At
  deriving DecidableEq, Repr

/-- What the whole source must bear out: a symbol has a value, an exported name is defined, an entry is a label (R93, R100, R103). -/
inductive Due where
  | value (name : String)
  | defined (name : String)
  | label (name : String)
  deriving DecidableEq, Repr

/-- What assembling has come to. `uses` are the registers that each operand needs (vector, scalar) and where it stands, the last first; `marks` how many
uses stand before each label. -/
structure Asm where
  at_ : At
  problems : List Problem
  due : List (At × Due)
  secs : List Section
  cur : String
  table : Table
  exports : List String
  entries : List (String × Team)
  entry : Option Open
  uses : List (At × Nat × Nat)
  marks : List (String × Nat)
  barriers : List (String × Bool × Nat)
  die : Nat
  regions : List (String × Nat)
  relocs : List Reloc
  deriving DecidableEq, Repr

/-- Nothing yet: statements before the first .section go to section code (R100). The rule does not say whether that section exists before
any statement: here it does, so .section code of another kind is an error as a first line too (DESIGN CHOICE, log entry 61). -/
def Asm.start : Asm := ⟨⟨"", 0⟩, [], [], [⟨"code", .code, 4, [], 0⟩], "code", ⟨[], [], [], []⟩, [], [], none, [], [], [], 0, [], []⟩

/-- Note a problem at a line. -/
def Asm.problem (m : Asm) (a : At) (rule : Nat) : Asm := { m with problems := ⟨a.file, a.line, rule⟩ :: m.problems }

/-- Note at the current line each rule of a list. -/
def Asm.problemsAt (m : Asm) (rules : List Nat) : Asm := rules.foldl (fun m r => m.problem m.at_ r) m

/-- Note at the current line what the end of the source must bear out. -/
def Asm.owe (m : Asm) (d : Due) : Asm := { m with due := (m.at_, d) :: m.due }

/-- The current section. -/
def Asm.sec (m : Asm) : Section := (m.secs.find? (·.name == m.cur)).getD ⟨m.cur, .code, 4, [], 0⟩

/-- Replace the current section. -/
def Asm.setSec (m : Asm) (x : Section) : Asm := { m with secs := m.secs.map fun y => if y.name == m.cur then x else y }

/-- Emit bytes. -/
def Asm.emit (m : Asm) (bs : List Byte) : Asm :=
  m.setSec { m.sec with rev := bs.reverse ++ m.sec.rev, len := m.sec.len + bs.length }

/-- Go on with what a part of a statement answers; where it breaks a rule, that is noted and n bytes of zero stand in for it (R107). -/
def Asm.orNote (m : Asm) (n : Nat) (x : M Asm) : Asm :=
  match x with
  | .ok m => m
  | .error r => (m.problem m.at_ r).emit (List.replicate n 0)

/-- A number as little-endian bytes (R4). -/
def leBytes (n : Nat) (v : Int) : List Byte := (List.range n).map fun i => BitVec.ofInt 8 (v / 2 ^ (8 * i))

/-- Pad to a multiple: NOP words in a code section, zero bytes elsewhere (R100). -/
def Asm.pad (m : Asm) (n : Nat) : Asm :=
  let k := (n - m.sec.len % n) % n
  let m := m.setSec { m.sec with align := max m.sec.align n }
  if m.sec.kind == .code then m.emit ((List.replicate (k / 4) (leBytes 4 0x42800000)).flatten) else m.emit (List.replicate k 0)

/-- Define a symbol (R87, R93). -/
def Asm.define (m : Asm) (name : String) (x : Sym) : M Asm :=
  if !identForm name || reserved name then .error 87
  else if (m.table.syms.lookup name).isSome then .error 93
  else .ok { m with table := { m.table with syms := (name, x) :: m.table.syms } }

/-- Define a label here. -/
def Asm.label (m : Asm) (name : String) : M Asm := do
  let m ← m.define name (.label m.cur m.sec.len)
  return { m with marks := (name, m.uses.length) :: m.marks,
                  table := { m.table with labels := m.table.labels ++ [(m.cur, name, m.sec.len)] } }

/-- The value of an expression by a table. -/
def Table.value (t : Table) (sec : String) (off : Nat) (x : Expr) : M Val := eval (evalFuel t.syms.length) t.env sec off x

/-- The value of an expression from earlier definitions only (R93). -/
def Asm.early (m : Asm) (off : Nat) (x : Expr) : M Val := m.table.value m.cur off x

/-- The value of an expression that decides no size, from all definitions. -/
def Asm.later (m : Asm) (all : Table) (off : Nat) (x : Expr) : M Val := all.value m.cur off x

/-- A plain number. -/
def number (v : M Val) : M Int := do
  match ← v with
  | .num v => return v
  | _ => throw 93

/-- A number that decides how many bytes a statement emits: from earlier definitions only (R93). -/
def Asm.known (m : Asm) (all : Table) (off : Nat) (x : Expr) : M Int := do
  let _ ← number (m.later all off x)
  match m.early off x with
  | .ok (.num v) => return v
  | _ => throw 93

/-- An expression operand: a float, a number, or a half of an address, which may be defined later: that it is one, and so a literal whatever its value
(R246), is read from all definitions (R93). So is a number where the statement has its size whatever it is (`fixed`), else it comes from earlier
definitions only. -/
def Asm.operand (m : Asm) (all : Table) (fixed : Bool) (off : Nat) (x : Expr) : M Imm :=
  match floatOf x with
  | some (neg, k, e) => .ok (.flt neg k e)
  | none => do
    match ← m.later all off x with
    | .half hi s a => return .reloc hi s a
    | v => if fixed then return Imm.bits (← number (.ok v)) else return Imm.bits (← m.known all off x)

/-- Whether an operand that broke a rule is a half of an address all the same, so that its statement has a literal word (R246). -/
def Table.isHalf (t : Table) (x : Expr) : Bool := shape (evalFuel t.syms.length) t.env x == some .half

/-- The word offset of a branch or call target of the same section (R99, R112, R113). A plain number is no place in the section and is refused: the
rule says only that a target is normally a label (DESIGN CHOICE, log entry 61). -/
def Asm.target (m : Asm) (all : Table) (bits : Nat) (x : Expr) : M Int := do
  match ← m.later all m.sec.len x with
  | .rel s a =>
    let d := a - m.sec.len
    if s ≠ m.cur || d % 4 ≠ 0 then throw 99
    else if -(2 ^ (bits - 1) : Int) ≤ d / 4 ∧ d / 4 < 2 ^ (bits - 1) then return d / 4
    else throw 99
  | _ => throw 99

/-- Registers that a written operand of a slot needs: vector, scalar (R70). -/
def needs (p : Slot × Written) : Nat × Nat :=
  let t := match p.1 with
    | .d t => [t] | .a t => [t] | .b t => [t] | .base t => [t] | .mem t => [t, .w]
    | _ => [.w]
  (p.2.parts.zip t).foldl (fun acc (x, t) =>
    match x with
    | .v n => (max acc.1 (n + t.regs), acc.2)
    | .s n => (acc.1, max acc.2 (n + t.regs))
    | _ => acc) (0, 0)

/-- An assembled instruction: its words, what the loader fills in its literal, the registers that each operand needs, and the rules it breaks. -/
structure Built where
  words : List Word
  reloc : Option Imm
  regs : List (Nat × Nat)
  broken : List Nat
  deriving DecidableEq, Repr

/-- The rule that refuses a word as step 2 of R137 does: of the types of CVT R381, of a control word its table. -/
def ruleOf (i : Instr) (second : Bool) : Nat :=
  match i with
  | .cvt _ _ => 381
  | .brx _ _ => 133
  | .syncw _ _ => 133
  | .atom _ _ => 132
  | .red _ _ => 132
  | .cas _ _ => 131
  | .lda _ _ => 131
  | .stl _ _ => 131
  | .fence _ _ => 131
  | .tlarm _ _ => 135
  | .bari _ _ => 135
  | .bara _ _ => 135
  | .barx _ _ => 135
  | .barw _ _ => 135
  | .bart _ _ => 135
  | .bard _ _ => 135
  | i => if !second then 120 else if (Encoding.row i).any fun r => r.op.extractLsb' 6 3 == 6#3 then 134 else 136

/-- Give a written operand its place, and note the rule that it breaks (R107); a half of an address that breaks one has its literal word all the
same. -/
def placeOr (m : Asm) (all : Table) (fixed scalar : Bool) (acc : Coded × List Nat) (p : Slot × Written) : Coded × List Nat :=
  let off := m.sec.len
  let put := fun (value : Expr → M Imm) => place value (fun x => number (m.later all off x)) scalar acc.1 p
  match put (m.operand all fixed off) with
  | .ok c => (c, acc.2)
  | .error r =>
    let stand := put fun x => if all.isHalf x then .ok (.reloc false "" 0) else .error r
    (stand.toOption.getD acc.1, acc.2 ++ [r])

/-- Assemble the operands of an instruction of a known form (R94 to R99). -/
def Asm.build (m : Asm) (all : Table) (bare call : Bool) (f : Form) (bit21 : Bool) (ws : List Written) : Built :=
  let ps := f.slots.zip ws
  let i0 := f.make ⟨false, false, 0, 0, 0, 0⟩ f.ctl 0
  let row := Encoding.row i0
  let fixed := (Encoding.ctl i0).isSome || Encoding.isLut3 i0 || row.isNone
  let mode := match row with
    | some r => scalarOf r.s ps
    | none => .ok false
  let (scalar, es) := match mode with
    | .ok b => (b, [])
    | .error r => (false, [r])
  let start : Coded := ⟨⟨scalar, bit21, 0, if bare then 94 else 0, 0, 0⟩, f.ctl, none, none, none⟩
  let (c, more) := ps.foldl (placeOr m all fixed scalar) (start, [])
  let es := es ++ (if es.isEmpty then more else more.filter (· != 94))
  let bits := (f.slots.findSome? fun p => match p with | .target n => some n | _ => none).getD 22
  let (t, es) := match c.target.map (m.target all bits) with
    | some (.ok t) => (t, es)
    | some (.error r) => (0, es ++ [r])
    | none => (0, es)
  let i := f.make c.ops c.ctl t
  let es := if c.lit.isSome && ((Encoding.ctl i).isSome || row.isNone) then es ++ [96] else es
  let ws := encode i
  let es := if !es.isEmpty then es
    else match decodeWords ws with
      | .ok _ => es
      | .error .secondWord => [ruleOf i true]
      | .error _ => [ruleOf i false]
  ⟨ws, c.reloc, (if bare || call then [(96, 0)] else []) ++ ps.map needs, es⟩

/-- Assemble an instruction (R90, R94 to R99). -/
def Asm.instr (m : Asm) (all : Table) (head : String) (rest : List Char) : Built :=
  let failed := fun (es : List Nat) => Built.mk [] none [] es
  match head.toList.splitBy (fun _ c => c != '.') with
  | [] => failed [90]
  | mn :: mods =>
    if mods.any (·.length ≤ 1) then failed [90]
    else
      let upper := String.ofList (mn.map fun c => if 'a' ≤ c && c ≤ 'z' then Char.ofNat (c.toNat - 32) else c)
      let written := match argsOf rest with
        | .ok xs => xs.map writtenOf
        | .error r => [.error r]
      let wrong := written.filterMap fun x => match x with
        | .ok _ => none
        | .error r => some r
      match form upper (mods.map fun t => String.ofList ((t.drop 1).map lower)) with
      | .error es => failed (es ++ wrong)
      | .ok (f, bit21) =>
        let bare := upper == "RET" && written.isEmpty
        if !wrong.isEmpty then failed wrong
        else if written.length ≠ f.slots.length && !bare then failed [90]
        else m.build all bare (upper == "CALL") f bit21 (written.filterMap Except.toOption)

/-- Assemble an instruction in place (R99, R100, R103, R246). -/
def Asm.statement (m : Asm) (all : Table) (head : String) (rest : List Char) : Asm :=
  let x := m.instr all head rest
  let fill := match x.reloc with
    | some (.reloc hi t a) => [Reloc.mk m.cur (m.sec.len + 4) (if hi then .hi else .lo) t a]
    | _ => []
  let m := m.problemsAt ((if m.sec.kind = .code then [] else [100]) ++ x.broken)
  let m := { m with relocs := fill ++ m.relocs, uses := (x.regs.map fun r => (m.at_, r)).reverse ++ m.uses }
  m.emit (x.words.flatMap fun (w : Word) => leBytes 4 w.toNat)

/-! ## Directives (R100 to R106) -/

/-- The kind that a name writes. -/
def kindOf (s : String) : Option Kind :=
  if s == "code" then some .code else if s == "data" then some .data else if s == "const" then some .const else none

/-- Select or open a section (R100). -/
def Asm.open_ (m : Asm) (name : String) (k : Kind) : M Asm :=
  match m.secs.find? (·.name == name) with
  | some x => if x.kind = k then .ok { m with cur := name } else .error 100
  | none => .ok { m with cur := name, secs := m.secs ++ [⟨name, k, if k = .code then 4 else 1, [], 0⟩] }

/-- End the open entry. Without a team it is a problem at its own line, a register operand over the team's counts one at the operand's, of the code from
its label on (R103), a barrier past the team's memory one at the barrier's (R105). A label that stands before its .entry has its code between the two
checked as well: the rule counts from the name (DEDUCED; log entry 61). -/
def Asm.close (m : Asm) : Asm :=
  match m.entry with
  | none => m
  | some e =>
    match e.team with
    | none => { m with entry := none }.problem e.at_ 103
    | some t =>
      let from_ := (m.marks.lookup e.name).getD m.uses.length
      let past := ((m.uses.reverse.drop from_).filter fun u => t.vregs < u.2.1 || t.sregs < u.2.2).map fun u => (u.1, 103)
      let out := (e.barriers.reverse.drop (t.tmem / 32)).map fun a => (a, 105)
      (past ++ out).foldl (fun m (a, r) => m.problem a r) { m with entry := none, entries := m.entries ++ [(e.name, t)] }

/-- Emit n bytes for each argument (R101). A relocatable value stands bare in 8 bytes, as a half in 4 (R93). -/
def Asm.data (m : Asm) (all : Table) (n : Nat) (here : Nat) (a : List Char) : M Asm := do
  match ← m.later all here (← parseExpr a) with
  | .num v =>
    if n < 8 && !(-(2 ^ (8 * n - 1) : Int) ≤ v && v < 2 ^ (8 * n)) then throw 101
    else return m.emit (leBytes n v)
  | .rel t a =>
    if n = 8 then return { m with relocs := ⟨m.cur, m.sec.len, .dword, t, a⟩ :: m.relocs }.emit (leBytes 8 0) else throw 93
  | .half hi t a =>
    if n = 4 then return { m with relocs := ⟨m.cur, m.sec.len, if hi then .hi else .lo, t, a⟩ :: m.relocs }.emit (leBytes 4 0)
    else throw 93

/-- A floating or integer constant as an exact value (R101). -/
def Asm.constant (m : Asm) (all : Table) (here : Nat) (a : List Char) : M XV := do
  let x ← parseExpr a
  match floatOf x with
  | some (neg, k, e) => return decimalXV neg k e
  | none => return XV.ofInteger (← number (m.later all here x))

/-- One field of a record: 8 bytes may be relocatable (R106, R330). A negative value has no place in a narrower one: the rule speaks of values too wide
(DESIGN CHOICE, log entry 61). -/
def Asm.field (m : Asm) (all : Table) (here : Nat) (n : Nat) (a : List Char) : M Asm := do
  if n = 8 then m.data all 8 here a
  else
    match ← m.later all here (← parseExpr a) with
    | .num v => if 0 ≤ v && v < 2 ^ (8 * n) then return m.emit (leBytes n v) else throw 106
    | _ => throw 93

/-- The widths of a task record's fields in order (R315). -/
def taskFields : List Nat := [8, 8, 2, 2, 2, 8, 8, 4, 4, 1, 2]

/-- The fields of a record, each at its width. -/
def Asm.fields (m : Asm) (all : Table) (here : Nat) (xs : List (Nat × List Char)) : Asm :=
  xs.foldl (fun m (n, a) => m.orNote n (m.field all here n a)) m

/-- A task record: two bytes of zero stand after z and 13 at the end (R315). -/
def Asm.task (m : Asm) (all : Table) (args : List (List Char)) : Asm :=
  let here := m.sec.len
  let m := m.fields all here ((taskFields.zip args).take 5)
  ((m.emit [0, 0]).fields all here ((taskFields.zip args).drop 5)).emit (List.replicate 13 0)

/-- A rope record: its orientation is 0 toward a, 1 toward b (R106, R317). -/
def Asm.rope (m : Asm) (all : Table) (a b tile toward : List Char) : Asm :=
  let here := m.sec.len
  let value := fun (t : List Char) => do number (m.later all here (← parseExpr t))
  let (way, es) := match value a, value b, value toward with
    | .ok x, .ok y, .ok z => if z = x then (0, []) else (1, if z = y then [] else [106])
    | _, _, .error r => (0, [r])
    | _, _, _ => (0, [])
  let m := m.fields all here [(2, a), (2, b)]
  ((m.problemsAt es).emit (leBytes 4 way)).fields all here [(8, tile)]

/-- A data directive stands in a data or const section (R100). -/
def Asm.dataSec (m : Asm) : Asm := if m.sec.kind = .code then m.problem m.at_ 100 else m

/-- A data directive of n bytes for each argument (R100, R101). -/
def Asm.list (m : Asm) (all : Table) (n : Nat) (here : Nat) (args : List (List Char)) : Asm :=
  args.foldl (fun m a => m.orNote n (m.data all n here a)) m.dataSec

/-- The values of some arguments, and the rule that each of the others breaks. -/
def valuesOf {α : Type} (f : List Char → M α) (args : List (List Char)) : List α × List Nat :=
  (args.filterMap fun a => (f a).toOption, args.filterMap fun a => match f a with
    | .ok _ => none
    | .error r => some r)

/-- A record stands in a data or const section aligned to its size (R106). -/
def Asm.recordAt (m : Asm) (n : Nat) : Asm :=
  if m.sec.kind = .code ∨ m.sec.len % n ≠ 0 ∨ m.sec.align < n then m.problem m.at_ 106 else m

/-- Assemble a directive. What pads a code section up to a .region is NOP words, as .align's is: R104 does not say (DESIGN CHOICE, log entry 61). -/
def Asm.directive (m : Asm) (all : Table) (name : String) (rest : List Char) : M Asm := do
  let args ← argsOf rest
  let here := m.sec.len
  let words := args.map String.ofList
  let known := fun (t : List Char) => do m.known all here (← parseExpr t)
  match name with
  | ".section" =>
    match words with
    | [n, k] =>
      match kindOf k with
      | some k => if identForm n then m.open_ n k else throw 100
      | none => throw 100
    | _ => throw 100
  | ".data" => if args.isEmpty then m.open_ "data" .data else throw 100
  | ".global" =>
    match words with
    | [n] =>
      if identForm n then return { m with exports := if m.exports.contains n then m.exports else m.exports ++ [n] }.owe (.defined n)
      else throw 87
    | _ => throw 100
  | ".align" =>
    match args with
    | [a] =>
      let n ← known a
      if !([1, 2, 4, 8, 16, 32, 64, 128, 256, 512, 1024, 2048, 4096] : List Int).contains n then throw 100
      else if m.sec.kind = .code ∧ n < 4 then throw 100
      else return m.pad n.toNat
    | _ => throw 100
  | ".equ" =>
    match args with
    | [n, a] =>
      let name := String.ofList n
      match parseExpr a with
      | .ok x => return (← m.define name (.equ x m.cur here)).owe (.value name)
      | .error r => return (m.orNote 0 (m.define name (.plain 0))).problem m.at_ r
    | _ => throw 100
  | ".byte" => return m.list all 1 here args
  | ".half" => return m.list all 2 here args
  | ".word" => return m.list all 4 here args
  | ".dword" => return m.list all 8 here args
  | ".float32" =>
    return args.foldl (fun m a => m.orNote 4 ((m.constant all here a).map fun x => m.emit (leBytes 4 (floatCode Fmt.f32 x : Nat)))) m.dataSec
  | ".bx8" =>
    let (xs, es) := valuesOf (m.constant all here) args
    return (m.dataSec.problemsAt ((if args.length ≠ 32 then [101] else []) ++ es)).emit (leBytes 34 (bxEncode 2 xs : Nat))
  | ".entry" =>
    match words with
    | [n] => if identForm n then return { m.close.owe (.label n) with entry := some ⟨n, m.at_, none, []⟩ } else throw 87
    | _ => throw 103
  | ".team" =>
    match m.entry with
    | none => throw 103
    | some e =>
      if e.team.isSome || args.length ≠ 5 then throw 103
      match valuesOf (fun t => (do number (m.later all here (← parseExpr t)) : M Int)) args with
      | ([w, v, s, t, p], _) =>
        let right := [1 ≤ w && w ≤ 32, 1 ≤ v && v ≤ 512, 1 ≤ s && s ≤ 256, 0 ≤ t && t ≤ 1048544, 0 ≤ p && p ≤ 2 ^ 20 && p % 128 = 0]
        return { m with entry := some { e with team := some ⟨w.toNat, v.toNat, s.toNat, t.toNat, p.toNat⟩ } }.problemsAt
          ((right.filter (!·)).map fun _ => 103)
      | (_, es) => return { m with entry := some { e with team := some ⟨1, 512, 256, 1048544, 0⟩ } }.problemsAt es
  | ".region" =>
    match args with
    | [n, a] =>
      let len ← known a
      if len % 256 ≠ 0 ∨ len < 256 ∨ 16 * 2 ^ 20 < len ∨ m.sec.kind ≠ .code then throw 104
      let name := String.ofList n
      let m ← (m.pad 256).label name
      let m := { m with regions := m.regions ++ [(name, len.toNat)], table := { m.table with sizes := (name, len.toNat) :: m.table.sizes } }
      return m.emit (List.replicate len.toNat 0)
    | _ => throw 104
  | ".barrier" =>
    match words with
    | [n, sp] =>
      if sp == "team" then
        match m.entry with
        | none => throw 105
        | some e =>
          let off := 32 + 32 * e.barriers.length
          let m ← { m with entry := some { e with barriers := m.at_ :: e.barriers } }.define n (.plain off)
          return { m with barriers := m.barriers ++ [(n, true, off)], table := { m.table with sizes := (n, 32) :: m.table.sizes } }
      else if sp == "die" then
        let off := 32 * m.die
        let m ← { m with die := m.die + 1 }.define n (.plain off)
        return { m with barriers := m.barriers ++ [(n, false, off)], table := { m.table with sizes := (n, 32) :: m.table.sizes } }
      else throw 105
    | _ => throw 105
  | ".task" =>
    if args.length ≠ 11 then throw 106
    return (m.recordAt 64).task all args
  | ".rope" =>
    match args with
    | [a, b, t, w] => return (m.recordAt 16).rope all a b t w
    | _ => throw 106
  | _ => throw 100

/-! ## The passes (R93, R107) -/

/-- Assemble one statement: its label, then its text. What breaks a rule is reported at its line. -/
def Asm.item (all : Table) (m : Asm) (i : Item) : Asm :=
  let m := { m with at_ := ⟨i.file, i.line⟩ }
  let m := match i.label with
    | some n => m.orNote 0 (m.label n)
    | none => m
  if i.text.isEmpty then m
  else
    let (head, rest) := headOf i.text
    if head.toList.head? == some '.' then m.orNote 0 (m.directive all (lowered head) rest) else m.statement all head rest

/-- A pass over the statements, where `all` holds the definitions of the whole source. -/
def pass (all : Table) (items : List Item) : Asm := (items.foldl (Asm.item all) Asm.start).close

/-- The definitions that a pass ends with. -/
def Asm.whole (m : Asm) : Table := { m.table with ends := m.secs.map fun x => (x.name, x.len) }

/-- Pass over the statements until the definitions that a pass starts from are those it ends with: a statement that names a later symbol
has its size then. No size depends on a later definition's value (R93, R246), so this ends; otherwise R93 is broken. -/
def passes (items : List Item) : (fuel : Nat) → Table → Asm × Table
  | 0, t => ((pass t items).problem (pass t items).at_ 93, t)
  | n + 1, t =>
    let m := pass t items
    if m.whole = t then (m, t) else passes items n m.whole

/-- Whether the definitions bear out what a statement owes: the rule broken where they do not (R93, R100, R103). -/
def Due.broken (t : Table) : Due → Option Nat
  | .value n => match t.value "" 0 (.name n) with
    | .error r => some r
    | .ok _ => none
  | .defined n => if (t.syms.lookup n).isNone then some 93 else none
  | .label n => match t.syms.lookup n with
    | some (.label _ _) => none
    | _ => some 103

/-- Assemble the source file `name`, with the files that it may include: an object, or every problem found at its line (R107). -/
def assemble (files : List (String × String)) (name text : String) : Except (List Problem) Object :=
  let g := gather files name text
  let items := g.items.reverse
  let (m, t) := passes items (items.length + 4) ⟨[], [], [], []⟩
  let due := m.due.reverse.filterMap fun (a, d) => (d.broken t).map fun r => Problem.mk a.file a.line r
  let all := g.problems.reverse ++ m.problems.reverse ++ due
  if all.isEmpty then
    let symbols := t.syms.reverse.filterMap fun (n, _) => match t.value "" 0 (.name n) with
      | .ok v => some (n, v)
      | .error _ => none
    .ok ⟨m.secs, symbols, m.exports, m.entries, m.regions, m.barriers, m.die, m.relocs.reverse⟩
  else .error all

/-! ## The loader (R93, R104, R105, R330) -/

/-- A section's bytes with the loader's words filled in, where each section is placed at its address. -/
def Object.filled (o : Object) (base : String → Nat) (x : Section) : List Byte :=
  (o.relocs.filter (·.section_ == x.name)).foldl (fun bs r =>
    let v : Int := base r.target + r.addend
    let new := match r.fill with
      | .lo => leBytes 4 v
      | .hi => leBytes 4 (v / 2 ^ 32)
      | .dword => leBytes 8 v
    bs.take r.off ++ new ++ bs.drop (r.off + new.length)) x.bytes

/-- What the loader places: (address, byte) pairs. A section's address must be a multiple of its alignment. -/
def Object.place (o : Object) (base : String → Nat) : Option (List (Nat × Byte)) :=
  if o.sections.all fun x => base x.name % x.align = 0 then
    some (o.sections.flatMap fun x => (o.filled base x).zipIdx.map fun (b, i) => (base x.name + i, b))
  else none

/-- The address of a name once sections are placed. -/
def Object.address (o : Object) (base : String → Nat) (name : String) : Option Int :=
  match o.symbols.lookup name with
  | some (.num v) => some v
  | some (.rel s a) => some (base s + a)
  | some (.half hi s a) => some (if hi then (base s + a) / 2 ^ 32 % 2 ^ 32 else (base s + a) % 2 ^ 32)
  | none => none

/-- The regions that the loader enters as open with generation 0: address and length (R104, R259). -/
def Object.openRegions (o : Object) (base : String → Nat) : List (Int × Nat) :=
  o.regions.filterMap fun (n, len) => (o.address base n).map (·, len)

/-- The extent of the die barriers of an object, in bytes (R105). -/
def Object.extent (o : Object) : Nat := 32 * o.dieBarriers

/-- What the loader writes to the context's windows, whose lengths in bytes are given die by die, 0 for none, before an entry's first
launch: (die, offset, byte), zero over the extent of the die barriers (R105). -/
def Object.cleared (o : Object) (windows : List Nat) : List (Nat × Nat × Byte) :=
  windows.zipIdx.flatMap fun (w, die) => if w = 0 then [] else (List.range o.extent).map fun i => (die, i, 0)

/-- Whether a context's windows, one length in bytes for each die and 0 for none, hold the die barriers (R105). -/
def Object.fits (o : Object) (windows : List Nat) : Bool :=
  o.dieBarriers = 0 || windows.all fun w => w = 0 || o.extent ≤ w

end Sys2Proof.Skas
end

