-- ==== Sys2Proof/Tests/Slice0.lean ====
section
/-! SUPPORT. Tests: words written out from the spec's encoding tables, ill-formed instructions that the checks refuse, single steps whose
results come from the spec, and for every statement with premises a state and operands that meet them. -/
namespace Sys2Proof.Tests
open Sys2Proof.Machine

/-! ## Small states -/

def lane0 : Lane := { Lane.gone with life := .ready, pc := 0x1000 }

/-- A wave of three lanes, of which 0 and 1 stand at 0x1000. -/
def wave0 : Wave :=
  { Wave.gone with
    team := 1, trapvec := 0x8000, sslim := 256
    lanes := [(0, lane0), (1, lane0), (2, { lane0 with pc := 0x2000 })] }

def team0 : Team := { Team.gone with vcount := 512, scount := 256, nWaves := 1, alloc := 65536, pool := 1 }

def tlb0 : TlbEntry :=
  { ctx := 0, va := 0, pa := 0x40000000, size := 4096, usr := true, ex := true, wr := true, rd := true, mig := false }

/-- A running module in which lanes 0 and 1 of the one wave, in context 0, execute at 0x1000. -/
def base : State :=
  { State.reset with
    waves := [(64, wave0)], teams := [(1, team0)], nextTeam := 2, mod := { Mod.reset with boot := .running }
    dies := [(0, { Die.reset with dspcfg := 1, dspwin := [(0, 0x10)] })]
    cores := [(0, { Core.reset with tlb := [tlb0] })], cur := { Cur.none with wave := 64, mask := 3, pc := 0x1000 } }

def o0 : Ops := { s := false, nw := false, d := 8, a := 16, b := 24, lit := 0 }
def o1 : Ops := { o0 with s := true }
def c0 : Ctl := { scope := 0, order := 0, sub := 0, type := 0, spec := 0 }

/-- `base` with a vector register set in lanes 0 and 1, a scalar register set, the wave, the team, the core, the die or the context
changed. -/
def vset (s : State) (r : Nat) (v : Word) : State := s.modLanes 64 3 fun _ l => { l with v := l.v.set 0 r v }
def sset (s : State) (r : Nat) (v : Word) : State := s.modWave 64 fun w => { w with s := w.s.set 0 r v }
def withWave (f : Wave → Wave) : State := base.modWave 64 f
def withLanes (f : Lane → Lane) : State := base.modLanes 64 3 fun _ => f
def withTeam (f : Team → Team) : State := base.modTeam 1 f
def withCore (f : Core → Core) : State := base.modCore 0 f
def withDie (f : Die → Die) : State := base.modDie 0 f
def withCtx (f : Ctx → Ctx) : State := base.modCtx 0 f

/-- A team of context 1. -/
def user : State := withTeam fun t => { t with ctx := 1 }

/-- A state in which every instruction of a list passes the checks of R137. -/
def allClear (s : State) (is : List (Instr × Spans)) : Bool := is.all fun p => s.clearCheck p.1 p.2

theorem allClear_spec {s : State} {is : List (Instr × Spans)} (h : allClear s is = true) : ∀ p ∈ is, s.Clear p.1 p.2 :=
  fun p hp => .of_check ((List.all_eq_true.mp h) p hp)

/-! ## Premises of the statements about computation -/

def computing : List (Instr × Spans) :=
  [(.add 0 o0, intSpans 0), (.addx 2 o0, intSpans 2), (.adds 1 o1, intSpans 1), (.absd 3 o0, intSpans 3), (.sub 0 o0, intSpans 0),
   (.subx 0 o0, intSpans 0), (.subs 0 o0, intSpans 0), (.mul 0 o0, intSpans 0), (.mulh 2 o1, intSpans 2), (.mad 0 o0, intSpans 0),
   (.div 0 o0, intSpans 0), (.rem 0 o0, intSpans 0), (.min 0 o0, intSpans 0), (.max 0 o0, intSpans 0), (.clamp 0 o0, intSpans 0),
   (.lea 3 o0, ⟨2, 2, 1⟩), (.andB true o0, bitSpans true), (.orB false o0, bitSpans false), (.xorB false o0, bitSpans false),
   (.andn false o0, bitSpans false), (.notB false o0, bitSpans false), (.sel false o0, bitSpans false), (.mov true o1, bitSpans true),
   (.brev false o0, bitSpans false), (.lut3 false o0, bitSpans false), (.shl true o0, fieldSpans true), (.shr false o0, fieldSpans false),
   (.sar false o0, fieldSpans false), (.rol false o0, fieldSpans false), (.bfx false o0, fieldSpans false), (.bfxs false o0, fieldSpans false),
   (.bfi false o0, fieldSpans false), (.prmb true o0, fieldSpans true), (.popc true o0, ⟨1, 2, 1⟩), (.clz false o0, ⟨1, 1, 1⟩),
   (.ctz false o0, ⟨1, 1, 1⟩), (.cmpEq true o0, ⟨1, 2, 2⟩), (.cmpNe false o0, spans1), (.cmpLt false o0, spans1),
   (.cmpLe false o0, spans1), (.cmpLtn false o0, spans1), (.cmpLen false o0, spans1), (.testZ false o0, spans1), (.testNz false o0, spans1)]

def floating : List (Instr × Spans) :=
  [(.fadd 0 o0, floatSpans 0), (.fsub 1 o0, floatSpans 1), (.fmul 2 o0, floatSpans 2), (.fma 3 o0, floatSpans 3), (.fmin 0 o0, floatSpans 0),
   (.fmax 0 o0, floatSpans 0), (.fdiv 1 o1, floatSpans 1), (.fsqrt 0 o0, floatSpans 0), (.frcp 0 o0, floatSpans 0),
   (.frsq 0 o0, floatSpans 0), (.fexp2 0 o0, floatSpans 0), (.flog2 0 o0, floatSpans 0), (.fcmp 1 0 o0, spans1),
   (.cvt 10 { o0 with b := 0x5C }, ⟨2, 1, 1⟩), (.frnd { o0 with b := 0x50 }, spans1), (.fclass { o0 with b := 0x50 }, spans1),
   (.pack o0, spans1), (.unpk { o0 with b := 3 }, spans1), (.dot4 2 o0, spans1), (.dot2 true o0, spans1), (.dot8 o0, spans1),
   (.qnt 0 o0, spans1), (.dqnt 3 o0, spans1), (.bxenc 1 o0, spans1), (.bxdecBx3 o0, spans1), (.bxdecBx5 o0, spans1), (.bxdecBx8 o0, spans1),
   (.reda { o0 with b := 4 }, spans1), (.scana { o0 with b := 7 }, ⟨2, 2, 1⟩), (.redm { o0 with b := 22 }, ⟨2, 2, 1⟩),
   (.reda { o0 with b := 10 }, spans1), (.scana { o0 with b := 10 }, spans1), (.redm { o0 with b := 26 }, spans1),
   (.reda { o0 with b := 8 }, spans1), (.scana { o0 with b := 9 }, spans1), (.redm { o0 with b := 24 }, spans1)]

def crossing : List (Instr × Spans) :=
  [(.ballot o0, spans1), (.actm o0, spans1), (.vany o0, spans1), (.vall o0, spans1), (.rankl o0, spans1), (.elect o0, spans1),
   (.rdln o0, spans1), (.shfl o0, spans1), (.shflx o0, spans1), (.shflu o0, spans1), (.shfld o0, spans1), (.wrln o0, spans1)]

/-- IntegerSumsAndProducts, IntegerDivisionAndOrder, BitwiseLogicAndSelect, ShiftsFieldsAndCounts, ComparesAndTests. -/
theorem test_witness_integer_and_bits : ∀ p ∈ computing, base.Clear p.1 p.2 := allClear_spec (by decide)

/-- FloatArithmeticCompletes, ConversionsAndDots, BlockQuantisation, ReductionsAndScans. -/
theorem test_witness_floats : (∀ p ∈ floating, base.Clear p.1 p.2) ∧ ∀ x : Flags, x &&& fcsrEn base.pre.fcsr = 0 :=
  ⟨allClear_spec (by decide), by
    intro x
    have h : fcsrEn base.pre.fcsr = 0 := by decide
    rw [h]; exact BitVec.and_zero⟩

theorem test_witness_lane_crossing : ∀ p ∈ crossing, base.Clear p.1 p.2 := allClear_spec (by decide)

theorem test_witness_nan : (decodeF .f32 0x7FA00000).isNan = true ∧ (decodeF .f64 0x7FF4000000000000).isNan = true ∧
    (decodeF .f16 0x7D00).isNan = true ∧ (decodeF .bf16 0x7FA0).isNan = true := by decide

/-- A value 2^e times a positive m is not zero, and of its sign. -/
theorem XV.rat_fin (neg : Bool) (m : Nat) (e : Int) (h : 0 < m) :
    (XV.fin neg m e).isFinite = true ∧ if neg then (XV.fin neg m e).rat < 0 else 0 < (XV.fin neg m e).rat := by
  have hm : (0 : ℚ) < m := by exact_mod_cast h
  have he : (0 : ℚ) < 2 ^ e := by positivity
  cases neg <;> simp [XV.rat, XV.isFinite, hm, he]

/-- FloatResultsAreRounded and ConversionsAndDots: f32 codes of each kind that their clauses speak of. -/
theorem test_witness_float_values :
    let r := (⟨0, false⟩ : FEnv).read .f32
    (r 0x3F800000).isFinite = true ∧ 0 < (r 0x3F800000).rat ∧ (r 0xBF800000).isFinite = true ∧ (r 0xBF800000).rat < 0 ∧ r 0 = .zero false ∧
    r 0x7F800000 = .inf false ∧ r 0xFF800000 = .inf true ∧ (decodeF .f32 0x7FA00000).isSnan = true ∧ (decodeF .f32 0x7FC00000).isNan = true := by
  have h1 : (⟨0, false⟩ : FEnv).read .f32 0x3F800000 = .fin false 0x800000 (-23) := by decide
  have h2 : (⟨0, false⟩ : FEnv).read .f32 0xBF800000 = .fin true 0x800000 (-23) := by decide
  have v1 := XV.rat_fin false 0x800000 (-23) (by decide)
  have v2 := XV.rat_fin true 0x800000 (-23) (by decide)
  refine ⟨?_, ?_, ?_, ?_, by decide⟩ <;> simp_all

/-- ConversionsAndDots: e5m2 elements 1, 0, infinite and NaN; the first two sum to something and to nothing. -/
theorem test_witness_dot_values :
    let el := fun (x i : Nat) => decodeF Fmt.e5m2 (x / 2 ^ (8 * i) % 2 ^ 8)
    (∀ i ∈ List.range 4, (el 0x3C i).isFinite = true) ∧ (el 0x3C 0).rat ≠ 0 ∧ el 0x3C 1 = .zero false ∧ el 0x7C 0 = .inf false ∧ (el 0x7F 0).isNan = true ∧
    (Fmt.e5m2, 8, 4) ∈ [(Fmt.e4m3, 8, 4), (Fmt.e5m2, 8, 4), (Fmt.f16, 16, 2), (Fmt.bf16, 16, 2), (Fmt.e2m1, 4, 8)] := by
  have h : decodeF Fmt.e5m2 (0x3C / 2 ^ (8 * 0) % 2 ^ 8) = .fin false 4 (-2) := by decide
  refine ⟨by decide, ?_, by decide⟩
  have v := XV.rat_fin false 4 (-2) (by decide)
  simp only [h]
  exact (by simpa using v.2 : (0 : ℚ) < _).ne'

/-- BlockQuantisation: blocks with and without a NaN, and an element of each kind. -/
theorem test_witness_blocks :
    (∃ x ∈ List.replicate 32 (XV.nan false), x.isNan = true) ∧ (∀ x ∈ List.replicate 32 (XV.zero false), x.isNan = false) ∧
    (List.replicate 32 (XV.zero false)).length = 32 ∧ (decodeF Fmt.e4m3 0x38).isFinite = true ∧ decodeF Fmt.e5m2 0x7C = .inf false := by
  decide
/-- Division by zero with that flag enabled. -/
def trapping : State := (withWave fun w => { w with fcsr := 0x100 }).modLane 64 0 fun l => { l with v := [(16, 0x3F800000)] }

theorem test_witness_enabled_flag : trapping.Clear (.fdiv 0 o0) (floatSpans 0) ∧ trapping.w.trapvec ≠ 0 ∧
    (∀ l, trapping.mask.getLsbD l = true → (trapping.w.lane l).depth = 0 ∧ (trapping.w.lane l).handler = false) ∧
    trapping.mask.getLsbD 0 = true ∧
    (fDiv (arithEnv trapping.pre.fcsr) Fmt.f32 (reader trapping.pre o0 0 .w .a).toNat (reader trapping.pre o0 0 .w .b).toNat).flags &&&
      fcsrEn trapping.pre.fcsr ≠ 0 :=
  ⟨.of_check (by decide), by decide, forall_mask (by decide), by decide, by decide⟩

/-- The same in the scalar form. -/
theorem test_witness_enabled_flag_scalar : let s := sset (withWave fun w => { w with fcsr := 0x100 }) 16 0x3F800000
    s.Clear (.fdiv 0 o1) (floatSpans 0) ∧ s.CanTrap ∧ s.mask.getLsbD 0 = true ∧
    (fDiv (arithEnv s.pre.fcsr) Fmt.f32 (reader s.pre o1 0 .w .a).toNat (reader s.pre o1 0 .w .b).toNat).flags &&& fcsrEn s.pre.fcsr ≠ 0 :=
  ⟨.of_check (by decide), .of_check (by decide), by decide, by decide⟩

/-- EnabledFlagTraps: the other instructions it names, where the group can trap. -/
theorem test_witness_flagging : trapping.CanTrap ∧ ∀ p ∈ [(Instr.fadd 2 o0, floatSpans 2), (.fma 1 o1, floatSpans 1), (.fsqrt 0 o0, floatSpans 0), (.flog2 0 o0, floatSpans 0),
    (.fcmp 1 0 o0, spans1), (.cvt 10 { o0 with b := 0x5C }, ⟨2, 1, 1⟩), (.frnd { o0 with b := 0x50 }, spans1), (.dot2 true o0, spans1), (.dot4 2 o1, spans1), (.dot8 o0, spans1),
    (.reda { o0 with b := 10 }, spans1), (.redm { o0 with b := 26 }, spans1), (.scana { o0 with b := 10 }, spans1)], trapping.Clear p.1 p.2 :=
  ⟨.of_check (by decide), allClear_spec (by decide)⟩

/-! ## Premises of the statements about control -/

def controlling : List (Instr × Spans) :=
  [(.br 5, spans1), (.brc 8 5, spans1), (.call 32, spans1), (.callx o0, ⟨2, 2, 1⟩), (.ret o0, ⟨1, 2, 1⟩), (.brx o0 c0, ⟨1, 1, 2⟩), (.jenr o0, spans1),
   (.jwait { o0 with a := 0 }, spans1), (.syncw o0 c0, spans1), (.exit o0, spans1), (.wbase o1, spans1), (.nop o0, spans1), (.yield o0, spans1),
   (.sleep o0, spans1)]

theorem test_witness_control : (∀ p ∈ controlling, base.Clear p.1 p.2) ∧ base.CanTrap ∧
    ∀ l, base.mask.getLsbD l = true → (reader base.pre o0 l .n .a).toNat % 4 = 0 :=
  ⟨allClear_spec (by decide), State.CanTrap.of_check (by decide), forall_mask (by decide)⟩

/-- A bound of 1, which index 0 keeps and index 1 breaks; in the 64-bit form too. -/
def bound1 : Ctl := { c0 with spec := 1 }

theorem test_witness_indexed_branch :
    base.Clear (.brx o0 bound1) ⟨1, 1, 2⟩ ∧ base.Direct ∧ base.members = 0 ∧
    base.Placed o0 0 0 4 (fun l => reader base.pre o0 l .n .b + BitVec.ofNat 64 (4 * (reader base.pre o0 l .w .a).toNat)) (fun _ => .mem 0x40000000) ∧
    (∀ l, base.mask.getLsbD l = true → (reader base.pre o0 l .w .a).toNat < 1) ∧
    (Place.mem 0x40000000).value 4 (base.byteBy (base.seen base.coreNo)) = 0 ∧
    (base.Clear (.brx o0 { bound1 with sub := 1 }) ⟨1, 1, 2⟩ ∧
      base.Placed o0 0 0 8 (fun l => reader base.pre o0 l .n .b + BitVec.ofNat 64 (8 * (reader base.pre o0 l .w .a).toNat)) (fun _ => .mem 0x40000000)) ∧
    (vset base 16 1).Clear (.brx o0 bound1) ⟨1, 1, 2⟩ ∧ (vset base 16 1).CanTrap ∧
      ∀ l, (vset base 16 1).mask.getLsbD l = true → 1 ≤ (reader (vset base 16 1).pre o0 l .w .a).toNat :=
  ⟨.of_check (by decide), .of_check (by decide), by decide, .of_check (by decide), forall_mask (by decide), by decide,
    ⟨.of_check (by decide), .of_check (by decide)⟩, .of_check (by decide), State.CanTrap.of_check (by decide), forall_mask (by decide)⟩

/-- Lanes 0 to 2 enrolled in register 0: lane 2 Held on it, or Ready. -/
def joining (held : Bool) : State := withWave fun w => { w with
  joins := [(0, { enrolled := 7, arrived := if held then 4 else 0 })]
  lanes := if held then w.lanes.mod 2 fun l => { l with life := .held 0 0x2004 } else w.lanes }

theorem test_witness_joins :
    (base.Clear (.jwait { o0 with a := 0 }) spans1 ∧ base.mask &&& (base.w.join 0).enrolled = 0) ∧
    ((joining true).Clear (.jwait { o0 with a := 0 }) spans1 ∧
      (let s := joining true
       let j := s.w.join 0
       let m := s.mask &&& j.enrolled
       m ≠ 0 ∧ j.arrived ||| m = j.enrolled ∧ j.enrolled &&& s.w.holdOpen 0 m = 0)) ∧
    (joining false).Clear (.jwait { o0 with a := 0 }) spans1 ∧
      (let s := joining false
       let j := s.w.join 0
       let m := s.mask &&& j.enrolled
       m ≠ 0 ∧ ¬ (j.arrived ||| m = j.enrolled ∧ j.enrolled &&& s.w.holdOpen 0 m = 0) ∧ m.getLsbD 2 = false ∧ (s.w.lane 2).life = .ready) :=
  ⟨⟨.of_check (by decide), by decide⟩, ⟨.of_check (by decide), by decide⟩, .of_check (by decide), by decide⟩

/-- Lane 2 Held at a sync of lanes 0 to 2; and a sync of them that nobody has reached. -/
def syncing (held : Bool) : State := (vset base 16 7).modWave 64 fun w => if held then
    { w with sync := { pending := some (7, 0), arrived := 4 }, lanes := w.lanes.mod 2 fun l => { l with life := .held 4 0x2004 } } else w

theorem test_witness_wave_sync : ∀ held : Bool,
    (syncing held).Clear (.syncw o0 c0) spans1 ∧
    (∀ l, (syncing held).mask.getLsbD l = true → lo32 (reader (syncing held).pre o0 l .w .a) = 7 ∧ (7#32).getLsbD l = true) ∧
    (let s := syncing held
     let arrived := (if s.w.sync.pending.isSome then s.w.sync.arrived else 0) ||| s.mask
     if held then s.w.sync.pending = some (7, 0) ∧ s.w.sync.arrived &&& s.mask = 0 ∧ arrived = 7 ∧ 7 &&& s.w.holdOpen 4 s.mask = 0
     else s.w.sync.pending = none ∧ arrived ≠ 7 ∧ 7 &&& ~~~ s.w.live = 0 ∧ (s.w.lane 2).life = .ready ∧ s.mask.getLsbD 2 = false) := by
  intro held
  cases held
  · exact ⟨.of_check (by decide), forall_mask (by decide), by decide⟩
  · exact ⟨.of_check (by decide), forall_mask (by decide), by decide⟩

/-- No other lane is live; without and with another wave of the team. -/
def lastLanes : State := { withWave fun w => { w with lanes := w.lanes.take 2 } with
  waves := [(64, { wave0 with lanes := wave0.lanes.take 2 }), (65, { wave0 with waveId := 1 })] }

theorem test_witness_exit :
    (base.Clear (.exit o0) spans1 ∧ base.w.joins = [] ∧ base.w.sync.pending = none ∧
      (∀ l, base.mask.getLsbD l = true → (base.w.lane l).resid = none ∧ (base.w.lane l).hresid = none) ∧
      (base.w.lane 2).life = .ready ∧ base.mask.getLsbD 2 = false) ∧
    lastLanes.Clear (.exit o0) spans1 ∧ lastLanes.w.stores = [] ∧ lastLanes.w.joins = [] ∧ lastLanes.w.sync.pending = none ∧
      (∀ l ∈ List.range 32, lastLanes.mask.getLsbD l = false → (lastLanes.w.lane l).life = .exited) ∧
      65 / 64 = lastLanes.tid ∧ (lastLanes.waves.find? 65).isSome :=
  ⟨⟨.of_check (by decide), by decide, by decide, forall_mask (by decide), by decide, by decide⟩, .of_check (by decide), by decide⟩

/-- The largest bases, and one past the largest. -/
theorem test_witness_window :
    (let s := sset (sset base 16 416) 24 160
     s.Clear (.wbase o1) spans1 ∧ lo32 (readS s.pre 0 .w 16) = 416 ∧ lo32 (readS s.pre 0 .w 24) = 160) ∧
    (let s := sset base 16 432
     s.Clear (.wbase o1) spans1 ∧ s.CanTrap ∧ lo32 (readS s.pre 0 .w 16) = 432) :=
  ⟨⟨.of_check (by decide), by decide⟩, .of_check (by decide), .of_check (by decide), by decide⟩

/-! ## Premises of the statements about memory -/

def accessing : List (Instr × Spans) :=
  [(.ld 4 o0, loadSpans 4 0), (.ld 0 o0, loadSpans 1 0), (.ld 6 o0, loadSpans 16 0), (.ldt 4 o1, loadSpans 4 1), (.ldp 4 o0, loadSpans 4 2),
   (.lde o0, loadSpans 4 0), (.st 2 o0, loadSpans 4 0), (.st 0 o0, loadSpans 1 0), (.st 4 o1, loadSpans 16 0), (.stt 2 o0, loadSpans 4 1),
   (.stp 2 o0, loadSpans 4 2), (.stc o0, loadSpans 4 0)]

theorem test_forms : (loadForm 4) = (4, false) ∧ (loadForm 0).1 = 1 ∧ (loadForm 6).1 = 16 ∧ typeBytes 4 = 4 := by decide

/-- Offset 32 of team memory is the lowest that is not the launch barrier's. -/
def low : State := vset (sset base 16 32) 16 32

/-- LoadsReadWhatTheCoreSees and StoresWriteTheirBytes, at the lowest places of each space. -/
theorem test_witness_loads_and_stores : (∀ p ∈ accessing, base.Clear p.1 p.2) ∧ base.Direct ∧ base.members = 0 ∧ base.poison = [] ∧ (base.core base.coreNo).l1.length + 32 ≤ l1Lines ∧ low.Direct ∧
    base.Placed o0 0 0 4 (fun l => addrAB 0 (reader base.pre o0 l)) (fun _ => .mem 0x40000000) ∧
    base.Placed o0 0 1 16 (fun l => addrAB 0 (reader base.pre o0 l)) (fun _ => .mem 0x40000000) ∧
    low.Placed o1 1 0 4 (fun l => addrAB 1 (reader low.pre o1 l)) (fun _ => .team 1 32) ∧
    low.Placed o0 1 1 4 (fun l => addrAB 1 (reader low.pre o0 l)) (fun _ => .team 1 32) ∧
    base.Placed o0 2 0 4 (fun l => addrAB 2 (reader base.pre o0 l)) (fun _ => .die 0 0) ∧
    base.Placed o0 0 1 4 (fun l => addrAB 0 (reader base.pre o0 l) + BitVec.ofNat 64 (4 * ((lanesOf base.mask).filter (· < l)).length))
      (fun l => .mem (0x40000000 + 4 * l)) :=
  ⟨allClear_spec (by decide), .of_check (by decide), by decide, by decide, by decide, .of_check (by decide), .of_check (by decide), .of_check (by decide),
    .of_check (by decide), .of_check (by decide), .of_check (by decide), .of_check (by decide)⟩

/-- A control word of 32-bit type at a scope, with an order, a sub and special bits. -/
def ctl (scope : BitVec 3) (order : BitVec 2) (sub : BitVec 4) (spec : BitVec 19) : Ctl := { scope, order, sub, type := 4, spec }

/-- OrderedLoadsAndStores and AtomicsReadModifyWrite, below die scope and at device scope. -/
theorem test_witness_ordered_and_atomic :
    (∀ p ∈ [(Instr.lda o0 (ctl 1 1 0 0), loadSpans 4 0), (.lda o0 (ctl 4 3 0 0), loadSpans 4 0), (.stl o0 (ctl 1 2 0 0), loadSpans 4 0), (.stl o0 (ctl 4 2 0 0), loadSpans 4 0),
        (.atom o0 (ctl 4 0 0 0), atomSpans 4 0), (.red o0 (ctl 4 0 0 0), atomSpans 4 0), (.cas o0 (ctl 4 0 0 0), atomSpans 4 0)],
      base.Clear p.1 p.2) ∧
    Encoding.ctlOk (.atom o0 (ctl 4 0 0 0)) ∧ Encoding.ctlOk (.red o0 (ctl 4 0 0 0)) ∧ Encoding.ctlOk (.cas o0 (ctl 4 0 0 0)) ∧
    base.Placed o0 0 2 4 (fun l => addrA 0 (reader base.pre o0 l)) (fun _ => .mem 0x40000000) ∧
    ∀ d, d ≠ base.coreNo → ∀ x, (base.core d).l1.find? (0x40000000 / 128) = some x → x.dirty = 0 :=
  ⟨allClear_spec (by decide), by decide, by decide, by decide, .of_check (by decide), by
    intro d hd x hx
    have : base.core d = Core.reset := by simp [State.core, base, Tbl.get, Tbl.find?, Ne.symm (show d ≠ 0 from hd)]
    rw [this] at hx; cases hx⟩

/-- An address that no table translates. -/
def unmapped : State := vset base 17 0x01800000

theorem test_witness_fences :
    (∀ p ∈ [(Instr.fence o0 (ctl 2 3 0 0), spans1), (.fence o0 (ctl 3 2 0 0), spans1), (.fence o0 (ctl 4 1 0 0), spans1),
        (.pf o0, ⟨1, 2, 1⟩), (.cwb o0, ⟨1, 2, 1⟩), (.cinv o0, ⟨1, 2, 1⟩)], base.Clear p.1 p.2) ∧
    (∀ l ∈ base.acts o0, base.translate base.coreNo base.ctxNo (addrAB 0 (reader base.pre o0 l)) 0 = (base, .ok 0x40000000)) ∧
    unmapped.Clear (.pf o0) ⟨1, 2, 1⟩ ∧
    ∀ l ∈ unmapped.acts o0, ∃ e, unmapped.translate unmapped.coreNo unmapped.ctxNo (addrAB 0 (reader unmapped.pre o0 l)) 0 = (unmapped, .error e) :=
  ⟨allClear_spec (by decide), fun l hl => eq_gives ((by decide : ∀ l ∈ base.acts o0,
      givesOk base (base.translate base.coreNo base.ctxNo (addrAB 0 (reader base.pre o0 l)) 0) 0x40000000 = true) l hl),
    .of_check (by decide), fun l hl => eq_error ((by decide : ∀ l ∈ unmapped.acts o0,
      givesError unmapped (unmapped.translate unmapped.coreNo unmapped.ctxNo (addrAB 0 (reader unmapped.pre o0 l)) 0) = true) l hl)⟩

/-- A spill stack of 256 bytes: 128 leaves room for one more and 129 does not; 128 can be popped and 127 cannot. -/
def spilling (n : Nat) : State := withWave fun w => { w with ssp := n }

theorem test_witness_spill :
    (spilling 128).Clear (.pushv o0) spans1 ∧ (spilling 128).pre.ssp + 128 ≤ (spilling 128).pre.sslim ∧
    (spilling 129).Clear (.pushv o0) spans1 ∧ (spilling 129).CanTrap ∧ (spilling 129).pre.sslim < (spilling 129).pre.ssp + 128 ∧
    (spilling 128).Clear (.popv o0) spans1 ∧ 128 ≤ (spilling 128).pre.ssp ∧
    (spilling 127).Clear (.popv o0) spans1 ∧ (spilling 127).CanTrap ∧ (spilling 127).pre.ssp < 128 :=
  ⟨.of_check (by decide), by decide, .of_check (by decide), .of_check (by decide), by decide, .of_check (by decide), by decide, .of_check (by decide),
    .of_check (by decide), by decide⟩

/-- SpillStackPushAndPop: both spilled words are poisoned. -/
theorem test_witness_poisoned_spill : let s := { spilling 128 with poison := [0] }
    s.Clear (.popv o0) spans1 ∧ s.CanTrap ∧ s.pre.spillAt.toNat % 4 = 0 ∧ s.pre.ssp % 4 = 0 ∧ 128 ≤ s.pre.ssp ∧
    (∀ l, s.mask.getLsbD l = true → s.poisonAt (s.pre.spillAt.toNat + (s.pre.ssp - 128) + 4 * l) 4 = some 2) ∧
    ∀ l, (spilling 128).mask.getLsbD l = true → (spilling 128).poisonAt ((spilling 128).pre.spillAt.toNat + ((spilling 128).pre.ssp - 128) + 4 * l) 4 = none :=
  ⟨.of_check (by decide), .of_check (by decide), by decide, by decide, by decide, forall_mask (by decide), forall_mask (by decide)⟩

theorem test_witness_misaligned : let s := vset base 16 1
    (∀ p ∈ [(Instr.ld 4 o0, loadSpans 4 0), (.ldt 2 o0, loadSpans 2 1), (.ldp 6 o0, loadSpans 16 2), (.st 1 o0, loadSpans 2 0), (.stt 2 o0, loadSpans 4 1), (.stp 4 o0, loadSpans 16 2),
        (.lde o0, loadSpans 4 0), (.stc o0, loadSpans 4 0), (.lda o0 (ctl 4 3 0 0), loadSpans 4 0), (.stl o0 (ctl 4 0 0 0), loadSpans 4 0), (.atom o0 (ctl 4 0 0 0), atomSpans 4 0),
        (.red o0 (ctl 4 0 0 0), atomSpans 4 0), (.cas o0 (ctl 4 0 0 0), atomSpans 4 0)],
      s.Clear p.1 p.2) ∧ s.CanTrap ∧ (∀ l, s.mask.getLsbD l = true → (addrA 0 (reader s.pre o0 l)).toNat % 4 ≠ 0 ∧
      (addrAB 0 (reader s.pre o0 l) + BitVec.ofNat 64 (4 * ((lanesOf s.mask).filter (· < l)).length)).toNat % 4 ≠ 0) ∧ ∀ n ∈ [2, 4, 16], ∀ space ∈ [0, 1, 2], ∀ l, s.mask.getLsbD l = true → (addrAB space (reader s.pre o0 l)).toNat % n ≠ 0 :=
  ⟨allClear_spec (by decide), .of_check (by decide), forall_mask (by decide), fun n hn sp hs => forall_mask fun l hl =>
    (by decide : ∀ n ∈ [2, 4, 16], ∀ space ∈ [0, 1, 2], ∀ l ∈ lanesOf (vset base 16 1).mask,
      (addrAB space (reader (vset base 16 1).pre o0 l)).toNat % n ≠ 0) n hn sp hs l hl⟩

/-- AccessesOutOfOrder: stores that wait, of which the second touches bytes of the first or does not; a lane's load that has been performed. -/
def lazily : State := { base with cur := { base.cur with lazy := true } }
def pend (a : Nat) : Pend := { lanes := 1, place := .mem a, effect := .store [1, 2, 3, 4] false, clk := 0, group := 3 }
def stored (a : Nat) : State := { withWave fun w => { w with stores := [pend 0x40000000, pend a] } with cur := Cur.none, inputs := [.perform 64 1] }
def early0 : Early := { place := .mem 0x40000000, data := [1, 2, 3, 4], bypass := false }

theorem test_witness_out_of_order :
    (lazily.Clear (.st 2 o0) (loadSpans 4 0) ∧ lazily.members = 0 ∧ lazily.cur.lazy = true ∧
      lazily.Placed o0 0 1 4 (fun l => addrAB 0 (reader lazily.pre o0 l)) (fun _ => .mem 0x40000000)) ∧
    (∀ a ∈ [0x40000002, 0x40000004], let s := stored a
      s.cur.second = none ∧ s.inputs = [.perform 64 1] ∧ s.mod.boot = .running ∧ (s.waves.find? 64).isSome ∧ (s.wave 64).stores[1]? = some (pend a) ∧
      (((s.wave 64).stores.take 1).any fun y => y.place.meets 4 (.mem a) 4) = decide (a = 0x40000002) ∧ a % 128 + 4 ≤ 128) ∧
    (let s := { base with cur := Cur.none, inputs := [.loadEarly 64 0 (.mem 0x40000000) 4 false] }
     s.cur.second = none ∧ s.mod.boot = .running ∧ s.residentWave 64 = true ∧ (s.wave 64).stores = [] ∧ ((s.wave 64).lanes.find? 0).isSome ∧
     ((s.wave 64).lane 0).life = .ready ∧ ((s.wave 64).lane 0).depth = 0 ∧ ((s.wave 64).lane 0).early = [] ∧ s.poison = [] ∧ 0x40000000 % 128 + 4 ≤ 128) ∧
    (let s := withLanes fun l => { l with early := [early0] }
     s.Clear (.ld 4 o0) (loadSpans 4 0) ∧ s.members = 0 ∧ s.w.stores = [] ∧
     s.Placed o0 0 0 4 (fun l => addrAB 0 (reader s.pre o0 l)) (fun _ => .mem 0x40000000) ∧ ∀ l, s.mask.getLsbD l = true → (s.w.lane l).early = [early0]) :=
  ⟨⟨.of_check (by decide), by decide, by decide, .of_check (by decide)⟩, by decide, by decide,
    .of_check (by decide), by decide, by decide, .of_check (by decide), forall_mask (by decide)⟩

theorem test_witness_nothing_early : ∀ l, (lazily.w.lane l).early = [] :=
  (State.Direct.of_check (s := base) (by decide)).early

/-- A reduction that is performed late: its lanes at one address, and at two. -/
def lazilyApart : State := lazily.modLane 64 1 fun l => { l with v := [(16, 4)] }

theorem test_witness_lazy_reduction : let i := Instr.red o0 (ctl 4 0 0 0)
    Encoding.ctlOk i ∧ (lazily.Clear i (atomSpans 4 0) ∧ lazily.Orderly ∧ lazily.cur.lazy = true ∧
      lazily.Placed o0 0 2 4 (fun l => addrA 0 (reader lazily.pre o0 l)) (fun _ => .mem 0x40000000)) ∧
    lazilyApart.Clear i (atomSpans 4 0) ∧ lazilyApart.Orderly ∧ lazilyApart.cur.lazy = true ∧
      lazilyApart.Placed o0 0 2 4 (fun l => addrA 0 (reader lazilyApart.pre o0 l)) (fun l => .mem (0x40000000 + 4 * l)) :=
  ⟨by decide, ⟨.of_check (by decide), .of_check (by decide), by decide, .of_check (by decide)⟩, .of_check (by decide), .of_check (by decide), by decide,
    .of_check (by decide)⟩

/-- One that waits to be performed, at device scope. -/
def reducing : State := { (withWave fun w => { w with stores := [{ pend 0x40000000 with effect := .reduce 0 4 4 [5, 7] }] }) with
  cur := Cur.none, inputs := [.perform 64 0] }

theorem test_witness_reduction_performed : reducing.cur.second = none ∧ reducing.mod.boot = .running ∧
    (reducing.wave 64).stores[0]? = some { pend 0x40000000 with effect := .reduce 0 4 4 [5, 7] } ∧ 0x40000000 % 128 + (Effect.reduce 0 4 4 [5, 7]).size ≤ 128 := by
  decide

/-- R132, R434: it adds both operands. -/
theorem test_reduction_performed : (match step reducing with
    | .next t => Memory.read t.mem 0x40000000 == 12 && (t.wave 64).stores.isEmpty
    | _ => false) = true := by decide +kernel

/-- The wave of each state that the statements about fences, line operations, spills and barriers name has nothing early or late. -/
theorem test_witness_orderly : base.Direct ∧ unmapped.Direct ∧ (spilling 128).Direct ∧ (spilling 129).Direct ∧ (spilling 127).Direct ∧
    ({ spilling 128 with poison := [0] } : State).Direct ∧ (vset base 16 1).Direct :=
  ⟨.of_check (by decide), .of_check (by decide), .of_check (by decide), .of_check (by decide), .of_check (by decide), .of_check (by decide), .of_check (by decide)⟩

/-- Members of a try region with nothing buffered, that watch the bytes they address, one of which fills the store buffer. -/
def trying : State := withLanes fun l => { l with depth := 1, target := 0x3000 }
def watchful : State := withLanes fun l => { l with depth := 1, target := 0x3000, watch := [⟨0, 0x40000000⟩] }
def brimming : State := { withLanes fun l => { l with depth := 1, target := 0x3000, belay := (List.range 64).map fun j => (⟨1, 64 + 32 * j⟩, 0) } with
  cur := { Cur.none with wave := 64, mask := 1, pc := 0x1000 } }

theorem test_witness_try_memory :
    (∀ p ∈ [(Instr.st 2 o0, loadSpans 4 0), (.stt 2 o0, loadSpans 4 1), (.stp 2 o0, loadSpans 4 2), (.ld 4 o0, loadSpans 4 0), (.ld 4 { o0 with nw := true }, loadSpans 4 0),
      (.ldt 4 o0, loadSpans 4 1), (.ldp 4 o0, loadSpans 4 2)], trying.Clear p.1 p.2) ∧
    (trying.InTry ∧ trying.Direct ∧ trying.poison = [] ∧ trying.w.belayCount + 32 ≤ 128 ∧ trying.belayCount trying.coreNo + 32 ≤ 2048 ∧ trying.w.watchLines.length + 32 ≤ 64 ∧
      (∀ l, trying.mask.getLsbD l = true → (trying.w.lane l).watch = []) ∧ (Place.mem 0x40000000).foreign = false ∧
      trying.Placed o0 0 1 4 (fun l => addrAB 0 (reader trying.pre o0 l)) (fun _ => .mem 0x40000000) ∧
      trying.Placed o0 0 0 4 (fun l => addrAB 0 (reader trying.pre o0 l)) (fun _ => .mem 0x40000000)) ∧
    (watchful.Clear (.st 2 o0) (loadSpans 4 0) ∧ watchful.InTry ∧ watchful.Placed o0 0 1 4 (fun l => addrAB 0 (reader watchful.pre o0 l)) (fun _ => .mem 0x40000000) ∧
      ∀ l, watchful.mask.getLsbD l = true → (Place.mem 0x40000000).loc 0 ∈ (watchful.w.lane l).watch) ∧
    brimming.Clear (.st 2 o0) (loadSpans 4 0) ∧ brimming.InTry ∧ brimming.Placed o0 0 1 4 (fun l => addrAB 0 (reader brimming.pre o0 l)) (fun _ => .mem 0x40000000) ∧
      brimming.mask = 1#32 <<< 0 ∧ 128 ≤ brimming.w.belayCount ∧ (brimming.w.lane 0).watch = [] ∧ ∀ b ∈ (brimming.w.lane 0).belay, b.1.space = 1 :=
  ⟨allClear_spec (by decide), ⟨⟨by decide, forall_mask (by decide)⟩, .of_check (by decide), by decide, by decide, by decide, by decide, forall_mask (by decide), by decide,
      .of_check (by decide), .of_check (by decide)⟩,
    ⟨.of_check (by decide), ⟨by decide, forall_mask (by decide)⟩, .of_check (by decide), forall_mask (by decide)⟩,
    .of_check (by decide), ⟨by decide, forall_mask (by decide)⟩, .of_check (by decide), by decide, by decide +kernel, by decide, by decide +kernel⟩

theorem test_witness_try_misuse :
    (let s := vset trying 16 1
     s.Clear (.st 1 o0) (loadSpans 2 0) ∧ s.InTry ∧ ∀ l, s.mask.getLsbD l = true → (addrAB 0 (reader s.pre o0 l)).toNat % 2 ≠ 0) ∧
    trying.Group ∧ ∀ p ∈ [(Instr.fence o0 (ctl 4 0 0 0), spans1), (.cwb o0, ⟨1, 2, 1⟩), (.cinv o0, ⟨1, 2, 1⟩), (.atom o0 (ctl 4 0 0 0), atomSpans 4 0),
        (.red o0 (ctl 4 0 0 0), atomSpans 4 0), (.cas o0 (ctl 4 0 0 0), atomSpans 4 0)],
      trying.illegalUse p.1 (usesOf p.1 p.2) = none ∧ trying.staleUse p.1 (usesOf p.1 p.2) = none :=
  ⟨⟨.of_check (by decide), ⟨by decide, forall_mask (by decide)⟩, forall_mask (by decide)⟩, .of_check (by decide), by decide⟩

/-- AbsentPagesParkAndReplay: address 0x2000 lies in a page that no table maps. -/
def absentPage : State := vset base 16 0x2000
def parkCtl : Ctl := ctl 4 0 0 0
def parkTag (page : DWord) : Tag := { page := page, sysc := false, resolved := none }
def parkSlot (i : Instr) : Slot :=
  { pc := 0x1000, w0 := 0, w1 := 0, instr := i, vb := 0, sb := 0, lanes := [(0, { addr := 0, data := 0, tag := some 4 })] }
def parked4 (i : Instr) : State := (withWave fun w => { w with slots := [(0, parkSlot i)] }).modCtx 0 fun c => { c with tags := [(4, parkTag 0)] }

theorem test_witness_absent_page : let s := absentPage
    (∀ p ∈ [(Instr.ld 4 o0, loadSpans 4 0), (.st 2 o0, loadSpans 4 0), (.atom o0 parkCtl, atomSpans 4 0), (.red o0 parkCtl, atomSpans 4 0), (.cas o0 parkCtl, atomSpans 4 0)],
      s.Clear p.1 p.2) ∧ s.members = 0 ∧ s.Direct ∧
    (∀ k ∈ [0, 1], ∀ l ∈ s.acts o0, s.place 0 k 4 (addrAB 0 (reader s.pre o0 l)) 0 = (s, .error (.park 0x2000 0 k false))) ∧
    (∀ l ∈ s.acts o0, s.place 0 2 4 (addrA 0 (reader s.pre o0 l)) 0 = (s, .error (.park 0x2000 0 2 false)) ∧
      addrAB 0 (reader s.pre o0 l) = 0x2000 ∧ addrA 0 (reader s.pre o0 l) = 0x2000 ∧ pageOf 0x2000 = 0x2000 ∧ readRegs s.pre o0 l 1 = 0) ∧
    s.slotFree s.cur.wave = true ∧ (s.ctx 0).tagOf 0x2000 = none ∧ (s.ctx 0).waiting = [] ∧
      (s.ctx 0).fqhead - (s.ctx 0).fqtail < (s.ctx 0).fqsize ∧ (s.ctx 0).fqbar.getLsbD 31 = false ∧ (s.ctx 0).tags.find? 0 = none :=
  ⟨allClear_spec (by decide), by decide, .of_check (by decide),
    fun k hk l hl => eq_stop ((by decide +kernel : ∀ k ∈ [0, 1], ∀ l ∈ absentPage.acts o0,
      givesStop absentPage (absentPage.place 0 k 4 (addrAB 0 (reader absentPage.pre o0 l)) 0) (.park 0x2000 0 k false) = true) k hk l hl),
    fun l hl => ⟨eq_stop ((by decide +kernel : ∀ l ∈ absentPage.acts o0,
      givesStop absentPage (absentPage.place 0 2 4 (addrA 0 (reader absentPage.pre o0 l)) 0) (.park 0x2000 0 2 false) = true) l hl),
      (by decide : ∀ l ∈ absentPage.acts o0, addrAB 0 (reader absentPage.pre o0 l) = 0x2000 ∧ addrA 0 (reader absentPage.pre o0 l) = 0x2000 ∧
        pageOf 0x2000 = 0x2000 ∧ readRegs absentPage.pre o0 l 1 = 0) l hl⟩, by decide⟩

theorem test_witness_parked :
    (∀ i ∈ [Instr.ld 4 o0, .st 2 o0, .atom o0 parkCtl, .red o0 parkCtl, .cas o0 parkCtl], let s := parked4 i
      (s.ctx 0).tags.find? 4 = some (parkTag 0) ∧ s.waiters 0 4 = [(64, 0, 1)] ∧ s.ctxOf 64 = 0 ∧ s.residentWave 64 = true ∧
      (s.wave 64).slots.find? 0 = some (parkSlot i) ∧ (s.wave 64).stores = [] ∧ (s.waves.map (·.1)).Nodup ∧ ((s.wave 64).slots.map (·.1)).Nodup ∧
      (∀ p ∈ s.waves, ∀ q ∈ p.2.slots, ∀ r ∈ q.2.lanes, r.1 < 32) ∧ ((s.wave 64).lanes.find? 0).isSome ∧ ((s.wave 64).lane 0).member = false ∧
      ((s.wave 64).lane 0).early = [] ∧ (∀ p ∈ s.cores, (∀ z ∈ p.2.mq, z.tag = none) ∧ ∀ q ∈ p.2.copy, ∀ z ∈ q.2.queue, z.tag = none) ∧
      (∀ p ∈ s.dies, ∀ z ∈ p.2.colls, z.page = none) ∧ (s.wave 64).trapvec ≠ 0 ∧ ((s.wave 64).lane 0).depth = 0 ∧ ((s.wave 64).lane 0).handler = false ∧
      (s.ctx 0).sampcfg.extractLsb' 0 16 = 0 ∧ (s.wave 64).absent = [] ∧ s.coreOf 64 = 0 ∧ s.backedAll 0x40000000 4 = true ∧ s.poisonAt 0x40000000 4 = none ∧ canonical 0 = true ∧ (s.heapWindow 0 0 2).isNone ∧
      tlbHit (s.core 0).tlb 0 0 = some tlb0 ∧ ∀ k ∈ [0, 1, 2], isOk (s.applyLeaf 0 0 k tlb0) 0x40000000 = true) ∧
    (let s := absentPage.modCtx 0 fun c => { c with tags := [(7, parkTag 0x2000)] }
     (s.ctx 0).tagOf 0x2000 = some 7 ∧ s.slotFree s.cur.wave = true) ∧
    (absentPage.modWave 64 fun w => { w with slots := (List.range 4).map fun j => (j, parkSlot (.ld 4 o0)) }).slotFree 64 = false := by
  decide
/-! ## Premises of the statements about barriers and counters -/

/-- A control word that names barrier 1 of the team's memory. -/
def barred : Ctl := ctl 5 0 0 0x10001

/-- Barriers in team memory, named by A = 32; the object expects two arrivals. -/
def inTeam : Ctl := ctl 4 2 1 0
def armable : State := (vset (vset (sset base 16 32) 16 32) 24 1).modTeam 1 fun t => { t with tmem := [(36, 2)] }
def obj0 : Nat → ObjRef := fun _ => .team 1 32
def bariSpans : Spans := { d := 1, a := 1, b := 2 }

def barring : List (Instr × Spans) :=
  [(.bari o0 inTeam, bariSpans), (.bara o0 inTeam, spans1), (.barx o0 inTeam, spans1), (.barw o0 inTeam, spans1), (.bart o0 inTeam, spans1),
   (.bard o0 inTeam, spans1), (.bara o1 inTeam, spans1)]

/-- BarrierUpdates, BarrierWaitsAndTests and the wakes of BarrierWakesAndCauses. -/
theorem test_witness_barriers : (∀ p ∈ barring, armable.Clear p.1 p.2) ∧ armable.tm.state = .resident ∧ armable.Names o0 inTeam 2 false obj0 ∧
    armable.Names o0 inTeam 0 true obj0 ∧ armable.Names o0 inTeam 0 false obj0 ∧ armable.Names o1 inTeam 2 false obj0 ∧ armable.acts o1 = [0] ∧ armable.Unwaited (.team 1 32) ∧
    (∀ l ∈ armable.acts o0, (reader armable.pre o0 l .n .b).toNat % 65536 ≠ 0) ∧
    ∀ l ∈ armable.acts o0, ((armable.acts o0).filter fun m => obj0 m = obj0 l).length ≤ (armable.bar (obj0 l)).expArr :=
  ⟨allClear_spec (by decide), by decide, .of_check (by decide), .of_check (by decide), .of_check (by decide), .of_check (by decide), by decide,
    .of_check (by decide), by decide, by decide⟩

theorem test_witness_orderly_barriers : armable.Orderly ∧ low.Orderly ∧ (vset base 16 16).Orderly ∧
    isOk (base.unpoisoned (.team 1 32) (BitVec.ofNat 64 (barred.barIndex * 32))) (.team 1 32) = true :=
  ⟨.of_check (by decide), .of_check (by decide), .of_check (by decide), by decide⟩

theorem test_witness_barrier_causes :
    ((∀ p ∈ barring, (vset base 16 16).Clear p.1 p.2) ∧ (vset base 16 16).CanTrap ∧
      ∀ l ∈ (vset base 16 16).acts o0, (offsetA (reader (vset base 16 16).pre o0 l)).toNat % 32 ≠ 0) ∧
    low.Clear (.bari o0 inTeam) bariSpans ∧ low.Clear (.bard o0 inTeam) spans1 ∧ low.CanTrap ∧ low.Names o0 inTeam 2 false obj0 ∧
    (∀ l ∈ low.acts o0, (reader low.pre o0 l .n .b).toNat % 65536 = 0 ∧ (hi32 (reader low.pre o0 l .n .b)).toNat = 0) ∧
    ∀ l ∈ low.acts o0, (low.bar (obj0 l)).expArr = 0 :=
  ⟨⟨fun p hp => allClear_spec (is := barring) (by decide) p hp, .of_check (by decide), by decide⟩, .of_check (by decide), .of_check (by decide),
    .of_check (by decide), .of_check (by decide), by decide, by decide⟩

theorem test_witness_timelines :
    (∀ p ∈ [(Instr.tlrd o0, (⟨2, 1, 1⟩ : Spans)), (.tlarm o0 barred, bariSpans), (.crit o0, spans1), (.uncrit o0, spans1)], base.Clear p.1 p.2) ∧
    (∀ l ∈ base.acts o0, idOk (lo32 (reader base.pre o0 l .w .a)) base.ctxNo) ∧ base.engineBar barred = .ok (some (.team 1 32)) ∧
    base.tm.state = .resident ∧ base.Unwaited (.team 1 32) ∧
    (let s := vset base 16 1
     s.Clear (.tlrd o0) ⟨2, 1, 1⟩ ∧ s.Clear (.tlarm o0 barred) bariSpans ∧ s.CanTrap ∧
       ∀ l ∈ s.acts o0, idOk (lo32 (reader s.pre o0 l .w .a)) s.ctxNo = false) :=
  ⟨allClear_spec (by decide), by decide, eq_ok (by decide), by decide, .of_check (by decide), .of_check (by decide), .of_check (by decide),
    .of_check (by decide), by decide⟩

/-! ## Premises of the statements about engines -/

/-- Team memory with a descriptor of rank 2 and 4-byte elements at 128, a box record at 512 and a gather record at 640. -/
def records : Tbl Byte :=
  [(136, 2), (137, 2), (138, 0xFF), (144, 16)] ++ (List.range 8).map (fun d => (148 + 4 * d, 1)) ++
  (List.range 9).map (fun d => (548 + 4 * d, 1)) ++ [(585, 4), (641, 3), (644, 2), (649, 4)]

def copying (b : Word) : State := (vset (vset base 16 128) 24 b).modTeam 1 fun t => { t with tmem := records }
def f32Ctl : Ctl := { c0 with type := 10 }
def desc0 : Desc := { base := 0, rank := 2, esize := 4, sizes := 16 :: List.replicate 8 1, strides := List.replicate 8 0 }

theorem test_witness_copies : (let s := copying 512
    (∀ p ∈ [(Instr.cpy o0 c0, spans1), (.cpys o0 c0, spans1), (.cpyr o0 f32Ctl, spans1)], s.Clear p.1 p.2) ∧ s.engineOpen false false = true ∧
    s.engineBar c0 = .ok none ∧ queued (s.copyCtx s.coreNo s.ctxNo).queue + (s.acts o0).length ≤ 16 ∧
    ∃ rec box : List Byte, (∀ l ∈ s.acts o0, (offsetA (reader s.pre o0 l)).toNat = 128 ∧ (lo32 (reader s.pre o0 l .w .b)).toNat = 512) ∧
      s.recordAt 128 128 = some rec ∧ s.recordAt 512 80 = some box ∧ parseDesc rec = some desc0 ∧
      parseBox box 2 = some (List.replicate 9 0, List.replicate 9 1, 1024) ∧
      s.range 1 1024 (boxBytes desc0 (List.replicate 9 1)) = some 1024 ∧ desc0.esize = typeBytes 10) :=
  ⟨allClear_spec (by decide), by decide, eq_ok (by decide), by decide, ((copying 512).recordAt 128 128).getD [], ((copying 512).recordAt 512 80).getD [],
    by decide, by decide, by decide, by decide, by decide, by decide, by decide⟩

theorem test_witness_gathers : (let s := copying 640
    s.Clear (.cpyg o0 c0) spans1 ∧ s.engineOpen false false = true ∧ s.engineBar c0 = .ok none ∧
    queued (s.copyCtx s.coreNo s.ctxNo).queue + (s.acts o0).length ≤ 16 ∧
    ∃ rec gat : List Byte, (∀ l ∈ s.acts o0, (offsetA (reader s.pre o0 l)).toNat = 128 ∧ (lo32 (reader s.pre o0 l .w .b)).toNat = 640) ∧
      s.recordAt 128 128 = some rec ∧ s.recordAt 640 16 = some gat ∧ parseDesc rec = some desc0 ∧ fld gat 0 4 = 768 ∧ fld gat 4 4 = 2 ∧
      fld gat 12 4 = 0 ∧ s.range 1 768 (2 * 4) = some 768 ∧ s.range 1 (fld gat 8 4) (2 * 16 * 4) = some 1024) :=
  ⟨.of_check (by decide), by decide, eq_ok (by decide), by decide, ((copying 640).recordAt 128 128).getD [], ((copying 640).recordAt 640 16).getD [],
    by decide, by decide, by decide, by decide, by decide, by decide, by decide, by decide, by decide⟩

/-- A at 128 and B as each command takes it: no scale vector or one at 512, one row of 16 columns or of 32. -/
theorem test_witness_matrix :
    (∀ p ∈ [(Instr.mxw o0 c0, spans1), (.mxw o0 { c0 with sub := 2 }, spans1), (.mxs o0 c0, spans1), (.mxs o0 { c0 with type := 5 }, spans1), (.mxd o0 f32Ctl, spans1), (.mxz o0 c0, spans1)],
      (copying 0).Clear p.1 p.2) ∧
    (∀ four : Bool, (copying 0).engineOpen true four = true) ∧ (copying 0).engineBar c0 = .ok none ∧ (copying 0).engineBar f32Ctl = .ok none ∧
    queued ((copying 0).core 0).mq + ((copying 0).acts o0).length ≤ 16 ∧
    (∀ l ∈ (copying 0).acts o0, (lo32 (reader (copying 0).pre o0 l .w .a)).toNat = 128 ∧ (reader (copying 0).pre o0 l .w .b).toNat = 0) ∧
    ((copying 0).range 1 128 (tileBytes 0)).isSome ∧ ((copying 512).range 1 512 512).isSome ∧ ((copying 0).range 1 128 (1 * rowBytes 0 16)).isSome ∧
    ((copying 65536).range 1 128 (1 * rowBytes 5 32)).isSome ∧ 65536 < 2 ^ 19 ∧ (65536 / 65536 % 8 + 1) * 16 = 32 ∧
    drainSpace f32Ctl = 1 ∧ (copying 0).range 1 128 (0 * 512 + 128 * drainBytes 10) = some 128 ∧ drainSpace { f32Ctl with sub := 8 } = 0 ∧
    (copying 0).Clear (.mxd o0 { f32Ctl with sub := 8 }) ⟨1, 2, 1⟩ ∧ (addrA 0 (reader (copying 0).pre o0 0)).toNat % 128 = 0 :=
  ⟨allClear_spec (by decide), by decide, eq_ok (by decide), eq_ok (by decide), by decide, by decide, by decide, by decide, by decide, by decide, by decide, by decide, by decide,
    by decide, by decide, .of_check (by decide), by decide⟩

/-- A collective of modules 0 and 1, of one element from virtual address 0, the member list at 64. -/
def contributing (p : Byte) : State := { (sset base 16 128).modTeam 1 fun t => { t with tmem := [(144, 1), (148, p), (152, 64)] } with
  mem := [(0x40000042, 1)] }
def collCtl : Ctl := { c0 with scope := 5, type := 4 }

theorem test_witness_collectives :
    (let s := contributing 2
     s.Clear (.coll o1 collCtl) spans1 ∧ s.acts o1 = [0] ∧ s.engineBar collCtl = .ok none ∧ (offsetA (reader s.pre o1 0)).toNat = 128 ∧
     (∃ r, s.recordAt 128 64 = some r ∧ fld r 16 4 = 1 ∧ fld r 20 2 = 2 ∧ fld r 22 2 = 0 ∧ fld r 36 28 = 0 ∧ fld r 24 8 = 64 ∧ fld r 0 8 = 0) ∧
     s.readGlobal 128 4 64 4 = (s, .ok [0, 0, 1, 0]) ∧
     (∃ send, s.readGlobal 128 (sendBlocks 0 2 * 1 * collBytes 4 / 4096 + 2) 0 (sendBlocks 0 2 * 1 * collBytes 4) = (s, .ok send)) ∧
     (s.die s.dieNo).collSteps = [] ∧ s.mod.modnum = 0) ∧
    (let s := contributing 1
     s.Clear (.coll o1 collCtl) spans1 ∧ s.acts o1 = [0] ∧ s.CanTrap ∧ s.engineBar collCtl = .ok none ∧
     ∃ r, s.recordAt 128 64 = some r ∧ fld r 20 2 < 2) :=
  ⟨⟨.of_check (by decide), by decide, eq_ok (by decide), by decide, ⟨((contributing 2).recordAt 128 64).getD [], by decide⟩, eq_gives (by decide),
    ⟨[0, 0, 0, 0], eq_gives (by decide)⟩, by decide⟩,
   .of_check (by decide), by decide, .of_check (by decide), eq_ok (by decide), ⟨((contributing 1).recordAt 128 64).getD [], by decide⟩⟩

/-! ## Premises of the statements about generated code, try regions and work -/

/-- Region 0 at 0x10000 of 256 bytes in a state at a generation, named by A = 0x10000. -/
def regional (state gen : Byte) : State := { (sset base 16 0x10000).modCtx 0 fun c => { c with rgtbase := 0x40001000 } with
  mem := [(0x40001002, 1), (0x40001009, 1), (0x4000100C, state), (0x40001010, gen)] }

theorem test_witness_publication :
    (∀ st ∈ [1, 2, 3], (regional st 5).clearCheck (.publish o1 (ctl 4 0 0 0)) baseSpans = true ∧
      (regional st 5).clearCheck (.retract o1 barred) baseSpans = true ∧ (regional st 5).clearCheck (.adopt o1 (ctl 4 0 0 0)) baseSpans = true ∧
      (regional st 5).canTrapCheck = true ∧ (regional st 5).acts o1 = [0] ∧ reader (regional st 5).pre o1 0 .n .a = 0x10000 ∧
      (regional st 5).regionAt 0 0x10000 = some 0 ∧ (regional st 5).region 0 0 =
        { base := 0x10000, len := 256, state := st.toNat, scope := 0, pending := false, gen := 5, pgen := 0, bar := 0 } ∧
      ((regional st 5).region 0 0).bad = false) ∧
    (regional 2 5).engineBar barred = .ok (some (.team 1 32)) ∧ lo32 (reader (regional 2 5).pre o1 0 .w .b) = 0 ∧
    base.Clear (.publish o1 (ctl 4 0 0 0)) baseSpans ∧ base.CanTrap ∧ base.regionAt base.ctxNo (reader base.pre o1 0 .n .a) = none ∧
    base.Clear (.icinv o0 (ctl 4 0 0 0)) baseSpans :=
  ⟨by decide, eq_ok (by decide), by decide, .of_check (by decide), .of_check (by decide), by decide, .of_check (by decide)⟩

/-- The generation that B names where ADOPT succeeds. -/
theorem test_witness_adoption : (let s := sset (regional 2 5) 24 5
    s.Clear (.adopt o1 (ctl 4 0 0 0)) baseSpans ∧ (lo32 (reader s.pre o1 0 .w .b)).toNat = (s.region s.ctxNo 0).gen ∧ (s.region s.ctxNo 0).state = 2) :=
  ⟨.of_check (by decide), by decide, by decide⟩

/-- A group of members at a depth. -/
def tried (n : Nat) : State := withLanes fun l => { l with depth := n, target := 0x3000, belay := [(⟨1, 64⟩, 7)] }

theorem test_witness_try :
    base.Clear (.tryR o0 c0) spans1 ∧ (base.ctx base.ctxNo).featmask.getLsbD 3 = true ∧ base.members = 0 ∧
    (∀ n ∈ [1, 3], (tried n).clearCheck (.tryR o0 c0) spans1 = true ∧ ∀ l ∈ lanesOf (tried n).mask, 1 ≤ ((tried n).w.lane l).depth ∧ ((tried n).w.lane l).depth ≤ 3) ∧
    (∀ n ∈ [2, 4], (tried n).clearCheck (.commit o0 c0) spans1 = true ∧ ∀ l ∈ lanesOf (tried n).mask, 2 ≤ ((tried n).w.lane l).depth) ∧
    (tried 1).Clear (.commit o0 c0) spans1 ∧
    (∀ l ∈ lanesOf (tried 1).mask, ((tried 1).w.lane l).depth = 1 ∧ ((tried 1).w.lane l).waveMode = false ∧ ((tried 1).w.lane l).conflict = false ∧
      (∀ p ∈ ((tried 1).w.lane l).watch, p.space ≠ 0) ∧ ∀ p ∈ ((tried 1).w.lane l).belay, p.1.space ≤ 2) ∧
    ((tried 1).teams.find? (tried 1).tid).isSome ∧ (tried 1).tm.state = .resident ∧
    (tried 1).Clear (.abort o0 c0) spans1 ∧ base.Clear (.abort o0 c0) spans1 ∧ base.CanTrap ∧ base.Clear (.tstat o0) spans1 :=
  ⟨.of_check (by decide), by decide, by decide, by decide, by decide, .of_check (by decide), by decide, by decide, by decide, .of_check (by decide),
    .of_check (by decide), .of_check (by decide), .of_check (by decide)⟩

/-- Members of .wave mode at a depth, with a third outside the group or none, the first of which a conflict has reached or not. -/
def waveTried (n : Nat) (third conflict : Bool) : State := withWave fun w => { w with
  lanes := w.lanes.mapAll fun l x => if l < 2 || third then { x with depth := n, target := 0x3000, waveMode := true, conflict := conflict && l == 0 } else x }
def shadowed : State := withWave fun w => { w with shadow := [(0, List.replicate 256 5), (64, List.replicate 32 6)] }

theorem test_witness_try_wave :
    (∀ s ∈ [waveTried 1 false false, waveTried 1 false true, waveTried 1 true false], s.clearCheck (.commit o0 c0) spans1 = true ∧
      s.clearCheck (.abort o0 c0) spans1 = true ∧ (∀ l ∈ lanesOf s.mask, (s.w.lane l).depth = 1 ∧ (s.w.lane l).waveMode = true ∧ (s.w.lane l).member = true ∧
        (s.w.lane l).belay = [] ∧ (s.w.lane l).watch = [])) ∧
    (∀ l ∈ List.range 32, ((waveTried 1 false false).w.lane l).member = true → (waveTried 1 false false).mask.getLsbD l = true) ∧
    ((waveTried 1 false true).w.lane 0).conflict = true ∧
    ((waveTried 1 true false).w.lane 2).member = true ∧ ((waveTried 1 true false).w.lane 2).live = true ∧ (waveTried 1 true false).mask.getLsbD 2 = false ∧
    ((waveTried 4 false false).clearCheck (.tryR o0 c0) spans1 = true ∧ ∀ l ∈ lanesOf (waveTried 4 false false).mask, ((waveTried 4 false false).w.lane l).depth = 4) ∧
    shadowed.clearCheck (.tryR o0 c0) spans1 = true ∧ shadowed.members = 0 ∧
      (∀ p ∈ shadowed.w.shadow, p.2.length = if p.1 < 64 then 256 else 32) ∧
    base.clearCheck (.commit o0 c0) spans1 = true := by decide +kernel

/-- Bytes from virtual address 0 on. -/
def inMem (s : State) (bs : List (Nat × Byte)) : State := { s with mem := bs.map fun p => (0x40000000 + p.1, p.2) }

/-- A launch record of one team of one wave, 16 vector and 2 scalar registers. -/
def launchRecord : List (Nat × Byte) := [(16, 1), (20, 1), (24, 1), (28, 1), (30, 16), (32, 2)]
def launchable : State := inMem base launchRecord
def fullList : State := withTeam fun t => { t with pending := List.replicate 4 { num := 1, record := parseLaunch [], bar := none } }
def deep : State := withTeam fun t => { t with depth := 10 }

theorem test_witness_launch :
    (∀ s ∈ [launchable, base, fullList, deep], s.clearCheck (.launch o1) baseSpans = true ∧ s.acts o1 = [0] ∧ (s.teams.find? s.tid).isSome = true ∧
      (reader s.pre o1 0 .n .a).toNat % 64 = 0) ∧
    4 ≤ fullList.tm.pending.length ∧ deep.tm.depth = 10 ∧ deep.CanTrap ∧ launchable.tm.depth ≠ 10 ∧ launchable.tm.pending.length < 4 ∧
    launchable.settle.place 0 0 64 0 0 = (launchable.settle, .ok (.mem 0x40000000)) ∧ base.settle.place 0 0 64 0 0 = (base.settle, .ok (.mem 0x40000000)) ∧
    launchable.launchOk 0 (.child 1) (parseLaunch (launchable.settledBytes 0x40000000 64)) = true ∧
    base.launchOk 0 (.child 1) (parseLaunch (base.settledBytes 0x40000000 64)) = false :=
  ⟨by decide, by decide, by decide, .of_check (by decide), by decide, by decide, eq_gives (by decide), eq_gives (by decide), by decide, by decide⟩

/-- A task record of one wave. -/
def taskable : State := inMem base [(48, 1)]
def taskUnits (pool : List (Nat × TaskRec)) : State := taskable.modDie 0 fun d => { d with units := [(0, { pool := pool, issued := 5, outstanding := [] })] }

theorem test_witness_task_submission (pool : List (Nat × TaskRec)) (h : pool = [] ∨ pool = List.replicate 16384 (1, parseTask [])) :
    let s := taskUnits pool
    s.Clear (.tsub o1) baseSpans ∧ s.acts o1 = [0] ∧ (reader s.pre o1 0 .n .a).toNat % 64 = 0 ∧
    s.settle.place 0 0 64 0 0 = (s.settle, .ok (.mem 0x40000000)) ∧
    (parseTask (s.settledBytes 0x40000000 64)).breach = none ∧ (parseTask (s.settledBytes 0x40000000 64)).er = false ∧
    (16384 ≤ ((s.die s.dieNo).units.map fun p => p.2.pool.length).sum ↔ pool ≠ []) := by
  have h1 : (taskUnits pool).clearCheck (.tsub o1) baseSpans = true := by obtain rfl | rfl := h <;> decide
  have h2 : (taskUnits pool).settle.place 0 0 64 0 0 = ((taskUnits pool).settle, .ok (.mem 0x40000000)) := by
    obtain rfl | rfl := h <;>
      exact State.place_mem (by decide) (State.translate_hit (e := tlb0) (by decide) (by decide) (by decide) (eq_ok (by decide))) (by decide) (.inr (by decide))
  refine ⟨.of_check h1, ?_, ?_, h2, ?_, ?_, ?_⟩
  · obtain rfl | rfl := h <;> decide
  · obtain rfl | rfl := h <;> decide
  · obtain rfl | rfl := h <;> decide
  · obtain rfl | rfl := h <;> decide
  · have h4 : (taskUnits pool).die 0 = { taskable.die 0 with units := [(0, { pool := pool, issued := 5, outstanding := [] })] } := by
      simp [taskUnits, State.modDie, State.die, Tbl.get_put]
    have h5 : (taskUnits pool).dieNo = 0 := by obtain rfl | rfl := h <;> decide
    rw [h5, h4]
    simp only [List.map_cons, List.map_nil]
    obtain rfl | rfl := h
    · decide
    · simp only [List.length_replicate, List.sum_cons, List.sum_nil]; decide

def taskRef : TaskRef := { die := 0, num := 3, task := parseTask [], graph := false, idx := 0 }
def gtask (turns : Nat) (mark : Bool) : GTask := { task := { parseTask [] with gid := 7 }, ropes := [], turns := turns, mark := mark, running := false }
def graph0 (t : GTask) : Graph := { ctx := 0, gid := 7, rounds := 2, tasks := [t], ropes := [], ropeBase := 0, bar := .team 1 32 }
def armed (t : GTask) : State := (sset base 16 7).modDie 0 fun d => { d with graphs := [graph0 t] }

theorem test_witness_task_end :
    (let s := withTeam fun t => { t with task := some taskRef }
     s.Clear (.tdone o0) spans1 ∧ (s.teams.find? s.tid).isSome ∧ s.tm.task = some taskRef ∧ s.tm.tdone = false ∧ taskRef.graph = false ∧ taskRef.task.succ = 0 ∧ s.arms = []) ∧
    (base.Clear (.tdone o0) spans1 ∧ base.CanTrap ∧ base.tm.task = none) ∧
    (let s := withTeam fun t => { t with task := some taskRef, tdone := true }
     s.Clear (.tdone o0) spans1 ∧ s.CanTrap ∧ s.tm.tdone = true) :=
  ⟨⟨.of_check (by decide), by decide⟩, ⟨.of_check (by decide), .of_check (by decide), by decide⟩, .of_check (by decide), .of_check (by decide), by decide⟩

/-- A task with a turn to take, one that is Done, an index past the tasks, and no graph. -/
theorem test_witness_pass :
    (∀ turns ∈ [1, 2], (armed (gtask turns false)).clearCheck (.erpass o1) spans1 = true ∧ (armed (gtask turns false)).acts o1 = [0] ∧
      ((armed (gtask turns false)).die 0).graph 7 = some (graph0 (gtask turns false)) ∧
      (graph0 (gtask turns false)).task 0 = some (gtask turns false) ∧ (reader (armed (gtask turns false)).pre o1 0 .w .a).toNat = 7) ∧
    (gtask 1 false).turns < 2 ∧ 2 ≤ (gtask 2 false).turns ∧
    (let s := sset (armed (gtask 1 false)) 24 1
     s.Clear (.erpass o1) spans1 ∧ (graph0 (gtask 1 false)).tasks.length ≤ (reader s.pre o1 0 .w .b).toNat) ∧
    base.Clear (.erpass o1) spans1 ∧ (base.die base.dieNo).graph (reader base.pre o1 0 .w .a).toNat = none :=
  ⟨by decide, by decide, by decide, ⟨.of_check (by decide), by decide⟩, .of_check (by decide), by decide⟩

/-- A task in the team whose successor's counter stands at 64 and record at 128; a graph task with a rope. -/
def succRef : TaskRef := { taskRef with task := { parseTask [] with succ := 64 } }
def graphRef : TaskRef := { taskRef with task := { parseTask [] with gid := 7 }, graph := true }
def ending (r : TaskRef) (d : Die → Die) (bs : List (Nat × Byte)) : State :=
  inMem (((withTeam fun t => { t with task := some r }).modDie 0 fun x => { x with tlb := [tlb0] }).modDie 0 d) bs
def succeeding (count : Byte) : State := ending succRef id [(64, count), (72, 128), (176, 1)]
def roped (turns : Nat) : GTask := { gtask turns false with ropes := [0] }
def turning (turns : Nat) : State :=
  ending graphRef (fun d => { d with graphs := [{ graph0 (roped turns) with ropes := [{ a := 0, b := 1, towardB := false }] }] }) []

theorem test_witness_task_successor :
    (∀ n ∈ [1, 2], let s := succeeding n
      s.clearCheck (.tdone o0) spans1 = true ∧ (s.teams.find? s.tid).isSome ∧ s.tm.task = some succRef ∧ s.tm.tdone = false ∧ s.arms = [] ∧
      fromBytes (s.settledBytes 0x40000040 4) = n.toNat ∧ fromBytes (s.settledBytes 0x40000048 8) = 128 ∧
      (parseTask (s.settledBytes 0x40000080 64)).breach = none ∧ (parseTask (s.settledBytes 0x40000080 64)).er = false ∧
      ((s.die 0).units.map fun p => p.2.pool.length).sum < 16384 ∧ tlbHit (s.die 0).tlb 0 64 = some tlb0 ∧ (s.heapWindow 0 64 2).isNone ∧
      isOk (s.applyLeaf 0 64 2 tlb0) 0x40000040 = true ∧ isOk (s.applyLeaf 0 72 0 tlb0) 0x40000048 = true ∧ isOk (s.applyLeaf 0 128 0 tlb0) 0x40000080 = true) ∧
    (∀ turns ∈ [0, 1], let s := turning turns
      s.clearCheck (.tdone o0) spans1 = true ∧ s.tm.task = some graphRef ∧ s.arms = [] ∧ ((s.die 0).graph 7).isSome ∧
      (((s.die 0).graph 7).bind fun g => g.task 0) = some (roped turns) ∧ tlbHit (s.die 0).tlb 0 4 = some tlb0 ∧ isOk (s.applyLeaf 0 4 1 tlb0) 0x40000004 = true ∧
      s.objThere (.team 1 32) = true ∧ (s.team 1).away = false ∧ (2 ≤ (roped turns).turns + 1 ↔ turns = 1)) ∧
    (let s := (sset base 16 7).modDie 0 fun d => { d with graphs := [{ graph0 (gtask 0 false) with ctx := 1 }] }
     s.clearCheck (.erpass o1) spans1 = true ∧ ((s.die 0).graph 7).any (fun g => g.ctx != s.ctxNo) = true) := by decide +kernel
/-- One lane with a bin of its key that holds n requests. -/
def spawning (n : Nat) : State := { withCore fun c => { c with bins := if n = 0 then [] else
  [(3, { team := 1, entry := 0, args := List.replicate n 9, seq := 0, due := 9, fired := false })] } with
    cur := { base.cur with mask := 1 } }

theorem test_witness_spawn :
    (∀ n ∈ [0, 1, 30], (spawning n).clearCheck (.spawn o0) ⟨1, 2, 1⟩ = true ∧ (spawning n).mask = 1#32 <<< 0 ∧ ((spawning n).ctx 0).featmask.getLsbD 7 = true ∧
      (spawning n).tm.pool ≠ 0 ∧ (reader (spawning n).pre o0 0 .n .a).toNat % 4 = 0 ∧ (∀ p ∈ ((spawning n).core 0).bins, p.2.args ≠ []) ∧
      ((spawning n).core 0).binOf (spawning n).tid 0 = if n = 0 then none else some 3) ∧
    ((spawning 0).core 0).emptyBin = some 0 ∧ (List.replicate 30 (9 : Word)).length < 31 := by decide

/-- Two tasks and a rope between them; with a second rope the other way they make a cycle. -/
def graphMem (cyc : Bool) : List (Nat × Byte) :=
  [(1, 1), (8, 2), (12, if cyc then 2 else 1), (17, 2), (24, 1), (32, 32), (39, 0x40), (288, 0xC0), (289, 1), (296, 7), (300, 1), (304, 1),
   (352, 0xC0), (353, 1), (360, 7), (364, 1), (368, 1), (448, if cyc then 2 else 1), (456, if cyc then 1 else 0), (514, 1), (516, 1), (530, if cyc then 1 else 0)]

def arming (cyc : Bool) (n : Nat) : State := inMem (base.modDie 0 fun d => { d with graphs := List.replicate n { graph0 (gtask 0 false) with gid := 9 } }) (graphMem cyc)

/-- The graph as it is read. -/
def parts (cyc : Bool) : GraphParts :=
  { desc := { tasks := 256, count := 2, ropeCount := if cyc then 2 else 1, ropes := 512, rounds := 1, completion := 0x4000000000000020, rsv := false, rsv2 := false },
    tasks := List.replicate 2 { entry := 0, arg := 0, tile := 0, succ := 0, ropes := 448, gid := 7, flags := 1, waves := 1, kib := 0, rsv := false },
    lists := List.replicate 2 (if cyc then [0, 1] else [0]),
    ropes := { a := 0, b := 1, towardB := true, rsv := false } :: if cyc then [{ a := 0, b := 1, towardB := false, rsv := false }] else [] }

theorem test_witness_graph : ∀ p ∈ [(false, 0), (false, 15), (false, 16), (true, 0)],
    (let s := arming p.1 p.2
     s.Clear (.erarm o1) baseSpans ∧ s.acts o1 = [0] ∧ (s.ctx s.ctxNo).featmask.getLsbD 4 = true ∧ reader s.pre o1 0 .n .a = 0 ∧
     s.settle.readGraph 0 = (s.settle, .ok (parts p.1)) ∧ (parts p.1).breach 0 (((s.die s.dieNo).graph 7).isSome) = none ∧
     s.graphBar (parts p.1).desc.completion = some (.team 1 32) ∧ (s.die s.dieNo).graphs.length = p.2 ∧ s.CanTrap ∧
     (parts p.1).cycle = if p.1 then some 0 else none) := by
  intro p hp
  simp only [List.mem_cons, List.not_mem_nil, or_false] at hp
  obtain rfl | rfl | rfl | rfl := hp <;>
    exact ⟨.of_check (by decide), by decide, by decide, by decide, eq_gives (by decide), by decide, by decide, by decide, .of_check (by decide), by decide⟩

/-! ## Premises of the statements about the system -/

/-- The operands of RDSR and WRSR of a number. -/
def sr (n : Nat) : Ops := { o0 with b := 127, lit := BitVec.ofNat 32 n }

/-- Fifteen records in a ring of 16, and tags 0 to 2 in use. -/
def calling : State := withCtx fun c => { c with fqhead := 15, tags := (List.range 3).map fun j => (j, { page := 0, sysc := true, resolved := none }) }

theorem test_witness_traps :
    base.Clear (.trap o0) spans1 ∧ base.Clear (.bkpt o0) spans1 ∧ base.Clear (.rte o0) spans1 ∧ base.CanTrap ∧ (base.pre.lane 0).handler = false ∧
    (let s := withLanes fun l => { l with handler := true }
     s.Clear (.rte o0) spans1 ∧ (s.pre.lane (lowest s.mask)).handler = true ∧ s.w.joins = [] ∧ s.w.sync.pending = none) ∧
    calling.Clear (.sysc o0) ⟨1, 2, 1⟩ ∧ (calling.ctx 0).tags.find? 3 = none ∧ (∀ j, j < 3 → ((calling.ctx 0).tags.find? j).isSome) ∧
    calling.slotFree calling.cur.wave = true ∧ (calling.ctx 0).waiting = [] ∧
    ((calling.ctx 0).fqhead - (calling.ctx 0).fqtail).toNat < (calling.ctx 0).fqsize.toNat ∧ (calling.ctx 0).fqbar.getLsbD 31 = false :=
  ⟨.of_check (by decide), .of_check (by decide), .of_check (by decide), .of_check (by decide), by decide, ⟨.of_check (by decide), by decide⟩,
    .of_check (by decide), by decide, by decide, by decide, by decide, by decide, by decide⟩

def readable : List Nat := [0x000, 0x001, 0x002, 0x003, 0x006, 0x007, 0x008, 0x009, 0x00A, 0x00B, 0x010, 0x011, 0x012, 0x013, 0x014, 0x015, 0x016, 0x020, 0x021, 0x022, 0x023,
  0x024, 0x025, 0x026, 0x027, 0x100, 0x120, 0x13F, 0x028, 0x029, 0x040, 0x041, 0x042, 0x043, 0x200, 0x205, 0x210, 0x220, 0x233, 0x254, 0x263, 0x272, 0x273, 0x274]
def writable : List Nat := [0x010, 0x011, 0x028, 0x201, 0x202, 0x203, 0x015, 0x205, 0x224, 0x232, 0x234, 0x236, 0x237, 0x23A, 0x259, 0x26C, 0x26E]
def halves : State := withWave fun w => { w with srHigh := [(0x028 * 64 + 32, 9)], srLow := [(0x022 * 64, 4), (0x022 * 64 + 1, 8), (0x028 * 64 + 32, 9)] }

theorem test_witness_special_registers :
    (∀ n ∈ readable, base.clearCheck (.rdsr (sr n)) spans1 = true ∧ base.srNumber (sr n) = n) ∧
    halves.Clear (.rdsr (sr 0x029)) spans1 ∧ halves.w.srHigh.find? (0x028 * 64 + 32) = some 9 ∧ base.w.srHigh = [] ∧
    (∀ p ∈ base.w.lanes, p.2.depth ≤ 0) ∧
    (∀ n ∈ writable, base.clearCheck (.wrsr (sr n)) spans1 = true ∧ base.srNumber (sr n) = n) ∧ base.cur.raised = 0 ∧ base.ctxNo = 0 ∧
    halves.Clear (.wrsr (sr 0x029)) spans1 ∧ halves.w.srLow.find? (0x028 * 64 + 32) = some 9 ∧ halves.Clear (.wrsr (sr 0x023)) spans1 ∧
    ∀ l, halves.mask.getLsbD l = true → halves.w.srLow.find? (0x022 * 64 + l) = some (if l = 0 then 4 else 8) :=
  ⟨by decide, .of_check (by decide), by decide, by decide, by decide, by decide, by decide, by decide, .of_check (by decide), by decide, .of_check (by decide),
    forall_mask (by decide)⟩

/-- The highest context, and one above it. -/
theorem test_witness_privileged :
    base.Clear (.halt o0) spans1 ∧
    (sset base 16 15).Clear (.tlbi o1 (ctl 4 0 0 0)) spans1 ∧ (reader (sset base 16 15).pre o1 0 .w .a).toNat = 15 ∧ (∀ p ∈ base.waves, p.2.slots = [] ∧ p.2.stores = []) ∧
    (base.cores.map (·.1)).Nodup ∧ (base.dies.map (·.1)).Nodup ∧ base.Clear (.tlbi o1 (ctl 4 0 1 0)) ⟨1, 2, 1⟩ ∧ (sset base 16 16).Clear (.tlbi o1 (ctl 4 0 0 0)) spans1 ∧ (sset base 16 16).CanTrap ∧
    (reader (sset base 16 16).pre o1 0 .w .a).toNat = 16 ∧
    (∀ p ∈ [(0x202#32, 1#32), (0x102, 15)], (sset (sset base 16 p.2) 24 p.1).clearCheck (.ctxsw o1) spans1 = true ∧
      lo32 (reader (sset (sset base 16 p.2) 24 p.1).pre o1 0 .w .a) = p.2 ∧ lo32 (reader (sset (sset base 16 p.2) 24 p.1).pre o1 0 .w .b) = p.1) ∧
    (∀ p ∈ base.teams, p.2.ctx = 0) ∧ ∀ p ∈ base.waves, base.ctxOf p.1 = 0 :=
  ⟨.of_check (by decide), .of_check (by decide), by decide, by decide, by decide, by decide, .of_check (by decide), .of_check (by decide),
    .of_check (by decide), by decide,
    fun p hp => by
      rcases List.mem_cons.mp hp with rfl | hp
      · exact ⟨by decide, by decide, by decide⟩
      · rcases List.mem_singleton.mp hp with rfl
        exact ⟨by decide, by decide, by decide⟩,
    by decide, by decide⟩

/-- An operand code that no file has. -/
def bad : Ops := { o0 with a := 125 }

theorem test_witness_refused_operands :
    user.Group ∧ user.CanTrap ∧ user.ctxNo ≠ 0 ∧ user.srNumber (sr 0x200) = 0x200 ∧ user.srNumber (sr 0x3FF) = 0x3FF ∧
    (∀ n ∈ [0x003F, 0x1FF], user.illegalUse (.rdsr (sr n)) (usesOf (.rdsr (sr n)) spans1) = none ∧ user.srNumber (sr n) = n ∧ srAssigned n = false ∧
      user.illegalUse (.wrsr (sr n)) (usesOf (.wrsr (sr n)) spans1) = none) ∧
    (∀ p ∈ [(Instr.add 0 bad, intSpans 0), (.andB true bad, bitSpans true), (.fadd 0 bad, floatSpans 0), (.ld 4 bad, loadSpans 4 0), (.st 2 bad, loadSpans 4 0),
      (.pack bad, spans1), (.ballot bad, spans1), (.jenr { bad with a := 127 }, spans1), (.pushv { bad with d := 125 }, spans1), (.erpass bad, spans1), (.lda bad (ctl 4 0 0 0), loadSpans 4 0),
      (.atom bad (ctl 4 0 0 0), atomSpans 4 0), (.bara bad inTeam, spans1), (.cpy bad c0, spans1), (.mxs bad c0, spans1), (.publish bad (ctl 4 0 0 0), baseSpans),
      (.launch bad, baseSpans), (.spawn bad, ⟨1, 2, 1⟩), (.tlrd bad, ⟨2, 1, 1⟩), (.brx bad c0, ⟨1, 1, 2⟩)], (user.illegalUse p.1 (usesOf p.1 p.2)).isSome) ∧
    (let i := Instr.add 0 { o0 with a := 119 }
     let s := withWave fun w => { w with wstat := 2 }
     s.Group ∧ s.CanTrap ∧ s.illegalUse i (usesOf i (intSpans 0)) = none ∧ (s.staleUse i (usesOf i (intSpans 0))).isSome ∧ wstatLtrap s.pre.wstat = true) ∧
    (∀ n ∈ [0, 7], latchAt (base.pre.lane 0).latch n = none) :=
  ⟨.of_check (by decide), .of_check (by decide), by decide, by decide, by decide, by decide, by decide,
    ⟨.of_check (by decide), .of_check (by decide), by decide⟩, by decide⟩

theorem test_witness_unhandled :
    (let s := withWave fun w => { w with trapvec := 0 }
     s.Clear (.bkpt o0) spans1 ∧ (s.teams.find? s.tid).isSome ∧ s.tm.state ≠ .killed ∧ s.w.trapvec = 0) ∧
    (let s := withLanes fun l => { l with handler := true }
     s.Clear (.bkpt o0) spans1 ∧ (s.teams.find? s.tid).isSome ∧ s.tm.state ≠ .killed ∧ s.mask.getLsbD 0 = true ∧ (s.w.lane 0).handler = true) ∧
    ∀ l, base.mask.getLsbD l = true → (base.w.lane l).depth = 0 :=
  ⟨⟨.of_check (by decide), by decide⟩, ⟨.of_check (by decide), by decide⟩, forall_mask (by decide)⟩

/-! ## Premises of the statements about the steps of the part -/

def busy (creating live : Bool) : State := base.modCtx 15 fun c => { c with busy := true, creating := creating, live := live }

theorem test_witness_contexts :
    (base.waves.find? 64).isSome ∧ base.ctxOf 64 = 0 ∧ user.ctxOf 64 ≠ 0 ∧
    ((base.die 3).dspNext = none ∧ 11 ≠ ((base.die 3).dspcfg.extractLsb' 0 4).toNat) ∧
    ((base.modDie 3 fun d => { d with dspNext := some 11 }).die 3).dspNext = some 11 ∧
    ((busy true false).ctx 15).busy = true ∧ ((busy true false).ctx 15).creating = true ∧ ((busy false true).ctx 15).creating = false ∧
    (∀ p ∈ (busy false true).teams, p.2.ctx ≠ 15) ∧
    ((base.ctx 1).busy = false ∧ (base.ctx 1).live = false) ∧
    ((base.modCtx 15 fun c => { c with live := true }).ctx 15).busy = false ∧ ((base.modCtx 15 fun c => { c with live := true }).ctx 15).live = true := by
  decide

/-- A module that exports 4 KiB and has a window on an enabled queue of 16 records. -/
def linked : State :=
  { base with
    mod := { base.mod with expbase := 0x40000000, explen := 4096, lwcfg := [(0, 0x80000000)] }
    queues := [(0, { Queue.reset with cfg := 0x80000004 })] }

theorem test_witness_outside :
    localBacked 0x40000000 = true ∧ localBacked (0x40000000 + 4096 - 1) = true ∧ localBacked (2 ^ 40) = false ∧
    (linked.mod.expbase.toNat ≤ 0x40000000 ∧ 0x40000000 + 4096 ≤ linked.mod.expbase.toNat + linked.mod.explen.toNat) ∧
    ¬ (0x40000001 + 4096 ≤ linked.mod.expbase.toNat + linked.mod.explen.toNat) ∧ linked.mod.fabstat.getLsbD 1 = false ∧
    (linked.mod.lwcfg.get 0 0).getLsbD 31 = true ∧ (linked.queue 0).cfg.getLsbD 31 = true ∧ (base.mod.lwcfg.get 0 0).getLsbD 31 = false ∧
    ((linked.queue 0).tail - (linked.queue 0).head).toNat + 16 ≤ 2 ^ ((linked.queue 0).cfg &&& 0x1F).toNat ∧
    2 ^ ((linked.queue 0).cfg &&& 0x1F).toNat < ((linked.queue 0).tail - (linked.queue 0).head).toNat + 17 ∧
    (let s := withLanes fun l => { l with life := .blocked (.halt 0x1004) }
     ((s.wave 64).lane 0).life = .blocked (.halt 0x1004)) ∧ ((base.wave 64).lane 0).life = .ready := by
  decide

theorem test_witness_boot_and_errors :
    State.reset.mod.boot ≠ .running ∧ State.reset.inputs = [] ∧ State.reset.cur.second = none ∧ base.mod.boot = .running ∧
    (base.mod.pwrcap.toNat < 2501 ∧ 25 < base.mod.mhz) ∧ (base.ctx 0).sampcfg.extractLsb' 0 16 = 0 ∧
    ((withCtx fun c => { c with sampcfg := 1 }).ctx 0).sampcfg.extractLsb' 0 16 ≠ 0 ∧ (List.replicate 32 (0 : Byte)).length = 32 ∧ base.poisonAt 0 8 = none ∧
    (base.teams.find? 1).isSome ∧ (base.team 1).state ≠ .killed ∧
    (let s : State := { base with mod := { base.mod with haltedAt := some 0 } }
     s.mod.haltedAt.isSome = true ∧ (s.waves.find? 64).isSome) := by
  decide

/-! ### Engines -/

def cmd0 (op : CmdOp) : Cmd :=
  { num := 1, team := 1, ctx := 0, wave := 64, lanes := 3, scope := 1, bar := none, op := op, pc := 0x1000, started := true, finished := false, pos := 0, tag := none, va := 0, ended := false }
def running (c : Cmd) : State := withCore fun x => { x with mq := [c], tileTag := [(0, 1)], active := { x.active with owner := some 1 }, shadow := { x.shadow with owner := some 1 } }

/-- The command is the one that runs. -/
def theOne (s : State) (c : Cmd) : Bool :=
  (s.core 0).mq == [c] && c.started && !c.finished && decide ((s.team c.team).state ≠ .killed)

/-- Commands that have not started: MXZ, and an MXS that swaps. -/
def waiting (op : CmdOp) : Cmd := { cmd0 op with started := false }
def swapOp : CmdOp := .mxs 0 0 false true 128 0 1 16

theorem test_witness_matrix_start : ∀ op ∈ [CmdOp.mxz 0, swapOp],
    (let s := running (waiting op)
     (s.core 0).mq.find? (fun y => !y.started) = some (waiting op) ∧ (∀ y ∈ (s.core 0).mq, y.started = false) ∧ (s.core 0).slotNow = s.clk / 2048 ∧
     ((s.core 0).slottab.get (s.clk / 2048 % 64) 0x10).getLsbD 4 = true ∧ (s.core 0).shadow.owner = some 1 ∧ (s.core 0).tileTag.find? 0 = some 1 ∧
     op.bound (s.core 0).shadow.fmt ≤ 2048 - s.clk % 2048 ∧ op.bound (s.core 0).active.fmt ≤ 2048 - s.clk % 2048) := by
  decide

/-- A tile of 4-bit elements whose first row is all escapes. -/
def escaping : Cmd := cmd0 (.mxw true false 4 128 0)
def escaped : State := (running escaping).modTeam 1 fun t => { t with tmem := (List.range 64).map fun j => (128 + j, 0x88) }

theorem test_witness_matrix_runs :
    (∀ op ∈ [CmdOp.mxw true false 0 128 0, .mxs 0 0 true false 128 255 1 16, .mxz 0, .mxd 10 0 1 false 128 0 2 512, .mxd 10 0 2 false 0 0 1 512],
      theOne (running (cmd0 op)) (cmd0 op) = true) ∧
    theOne (running { cmd0 (.mxs 0 0 true false 128 255 1 16) with pos := 1 }) { cmd0 (.mxs 0 0 true false 128 255 1 16) with pos := 1 } = true ∧
    theOne escaped escaping = true ∧ 128 + tileBytes 4 + 128 ≤ (escaped.team 1).alloc ∧
    (base.teams.find? 1).isSome ∧ 64 / 64 = 1 ∧ 3 &&& (base.wave 64).live ≠ 0 ∧ (base.team 1).state = .resident ∧
    128 * drainBytes 10 ≤ 512 ∧ ((running escaping).core 0).tileTag.find? 0 = some 1 := by
  decide

set_option maxRecDepth 4000 in
theorem test_witness_escapes : 64 < (escapesOf 4 (escaped.tileRows escaping 128 (rowBytes 4 128) 128)).length := by
  have h : ∀ rows : List (List Byte), ((List.range 128).filter fun n => e2m1Code (rows.getD 0 []) n == 8).length ≤ (escapesOf 4 rows).length := by
    intro rows
    unfold escapesOf
    rw [if_neg (by decide), show List.range 128 = 0 :: (List.range 127).map Nat.succ from List.range_succ_eq_map, List.flatMap_cons,
      List.length_append, List.length_map]
    exact Nat.le_add_right _ _
  refine Nat.lt_of_lt_of_le ?_ (h _)
  have e : (escaped.tileRows escaping 128 (rowBytes 4 128) 128).getD 0 [] = List.replicate 64 0x88 ++ List.replicate 4 0 := by decide
  rw [e]; decide

/-! ### Copies, collectives and slots -/

def copyCmd (kind : Nat) (bar : Option ObjRef) : Cmd := { cmd0 (.box kind 0 10 1 desc0 (List.replicate 9 0) (List.replicate 9 1) 1024) with bar := bar }
def copyRun (kind : Nat) (bar : Option ObjRef) : State := withCore fun x => { x with copy := [(0, { queue := [copyCmd kind bar], issued := 1, done := 0 })] }

/-- The first four bytes of a copy, into memory or out of it. -/
theorem test_witness_copy_segments : ∀ p ∈ [(0, none), (0, some (ObjRef.die 0 0)), (2, none), (3, none)],
    (let s := copyRun p.1 p.2
     let c := copyCmd p.1 p.2
     let s1 := s.modCopy 0 0 fun q => { q with queue := q.queue.map fun y => if [1].contains y.num then { y with started := true } else y }
     (s.copyCtx 0 0).running[0]? = some c ∧ ((s.copyCtx 0 0).running.take 1).map (·.num) = [1] ∧ c.tag = none ∧ (s.copyCtx 0 0).queue = [c] ∧ (s.team c.team).state = .resident ∧ (s.team c.team).away = false ∧ 1 ≤ desc0.esize ∧
     (s.teams.find? c.team).isSome ∧ c.op.copyKind = p.1 ∧ c.op.scratch = (1, 1024) ∧ min (128 - 1024 % 128) (c.op.total - c.pos) = 4 ∧
     s1.translateAll 0 0 (if p.1 = 2 then 1 else if p.1 = 3 then 2 else 0) ((List.range 4).filterMap fun i => c.op.addrOf (c.pos + i)) =
       (s1, .ok [0x40000000, 0x40000001, 0x40000002, 0x40000003]) ∧ (∀ i ∈ List.range 4, (c.op.addrOf (c.pos + i)).isSome) ∧ s.objThere (.die 0 0) = true) := by
  decide

/-- A collective of two members; its steps are those of the ranks named. -/
def coll0 (failed : Bool) (ranks : List Nat) : Coll :=
  { num := 1, team := 1, ctx := 0, wave := 64, lanes := 3, scope := 4, bar := none, recv := 64, kind := 0, type := 4, n := 1, p := 2, rank := 0, tag := 5,
    members := [0, 1], steps := ranks.map fun r => { inst := 1, rank := r, ctx := 0, kind := 0, type := 4, n := 1, p := 2, send := [1, 0, 0, 0] : CollStep },
    failed := failed, pc := 0, page := none, va := 0, ended := false, inst := 1, core := 0, loc := 0, teamId := 0 }
def collecting (x : Coll) : State := withDie fun d => { d with colls := [x], tlb := [tlb0] }

theorem test_witness_collective_steps :
    (let s := collecting (coll0 false [0, 1])
     (s.die 0).colls.find? Coll.ready = some (coll0 false [0, 1]) ∧ s.arms = [] ∧ (coll0 false [0, 1]).received = [2, 0, 0, 0] ∧ 64 % 4096 + 4 ≤ 4096 ∧
     givesOk s (s.translateDie 0 0 64 1) 0x40000040 = true ∧ s.backedAll 0x40000040 4 = true) ∧
    (let s := collecting (coll0 true [0])
     (s.die 0).colls.find? Coll.ready = some (coll0 true [0]) ∧ (s.teams.find? (64 / 64)).isSome ∧ (s.team (64 / 64)).state ≠ .killed ∧ 3 &&& (s.wave 64).live ≠ 0) ∧
    (let s : State := { collecting { coll0 true [0] with members := [0, 1024] } with
       dies := [(0, { (collecting (coll0 true [0])).die 0 with colls := [{ coll0 true [0] with members := [0, 1024] }] }), (1, { Die.reset with colls := [coll0 false [1]] })] }
     s.collPeers [0, 1024] 0 = [(1, 1)] ∧
       (s.die 1).colls.find? (fun z => z.tag == 5 && z.ctx == 0 && z.inst == 1 && !z.failed) = some (coll0 false [1])) ∧
    (let wants := fun (x : Coll) => x.tag == 5 && x.ctx == 0 && x.inst == 1 && x.steps.all fun y => y.rank != 1
     ((collecting (coll0 false [0])).die 0).colls.find? wants = some (coll0 false [0]) ∧ ∀ x ∈ (base.die 0).colls, wants x = false) := by
  decide

theorem test_witness_slots :
    (let c := { copyCmd 0 none with finished := true }
     (withCore fun x => { x with mq := [{ cmd0 (.mxz 0) with finished := true }] }).arms = [] ∧
     ((withCore fun x => { x with copy := [(0, { queue := [c], issued := 1, done := 0 })] }).copyCtx 0 0).queue = [c]) ∧
    (let s := withCore fun x => { x with slotNow := 1, slotPending := [(0, 3), (63, 4)] }
     (s.core 0).slotNow ≠ s.clk / 2048 ∧ ((s.core 0).slotPending.map (·.1)).Nodup) ∧
    (let s := withDie fun d => { d with bwNow := 1, bwPending := [(0, 3)] }
     (s.die 0).bwNow ≠ s.clk / s.mod.mhz ∧ ((s.die 0).bwPending.map (·.1)).Nodup) := by
  decide

/-! ### The dispatcher -/

def goodRecord : LaunchRec :=
  { entry := 0x1000, arg := 5, gx := 1, gy := 1, gz := 1, waves := 1, prio := 3, vregs := 16, sregs := 2, flags := 0, tmem := 0, spill := 0, pool := 0, completion := 0, rsv := 0 }

/-- A queue of context 0 at a record: the good one, or zeros with a completion field that names no space. -/
def taking (good : Bool) : State :=
  inMem { base with queues := [(0, { Queue.reset with cfg := 0x80000004, base := 0x40000000, tail := 1 })] }
    (if good then [(1, 0x10), (8, 5), (16, 1), (20, 1), (24, 1), (28, 1), (29, 3), (30, 16), (32, 2)] else [(55, 0xC0)])

theorem test_witness_take : ∀ good : Bool, (taking good).canTake 0 = true ∧ ((taking good).queue 0).recordAt = 0x40000000 ∧
    (taking good).backed ((taking good).selfAddressed 0x40000000) = true ∧ (taking good).poisonAt 0x40000000 64 = none ∧
    (let r := parseLaunch ((taking good).l2Read ((taking good).selfAddressed 0x40000000) 64)
     if good then r = goodRecord ∧ (taking good).launchOk 0 (.queue 0) r = true
     else (taking good).launchOk 0 (.queue 0) r = false ∧ (taking good).completionOk 0 (.queue 0) r.completion = false ∧ r.external = false) := by
  intro good
  cases good <;> decide

theorem test_witness_pending : (let s := withTeam fun t => { t with pending := [{ num := 1, record := goodRecord, bar := none }], alloc := 32 }
    (s.teams.find? 1).isSome ∧ (s.team 1).pending = [{ num := 1, record := goodRecord, bar := none }] ∧ s.headOpen (.child 1) (s.team 1).ctx = false ∧ (s.team 1).state = .resident ∧
    32 ≤ (s.team 1).alloc ∧ s.unwaitedCheck (.team 1 0) = true) := by decide

/-- Only core 0 of the module is open to placement; it may be closed too. -/
def grid0 (since : Option Nat) : Grid :=
  { ctx := 0, record := goodRecord, num := 1, depth := 1, prio := 3, source := .queue 0, next := 0, retired := 0, lost := false, task := none, waitSince := since, reserved := false, redo := [], root := 3, bar := none }
def placing (closed : Bool) (since : Option Nat) : State :=
  { (withCtx fun c => { c with imgb := 0x50000000, imgl := 0x10000000 }) with
    clk := 2000000, grids := [(0, grid0 since)], queues := [(0, { Queue.reset with cfg := 0x80000000 })]
    dies := (List.range 4).map fun d => (d, { Die.reset with plcmask := if d = 0 ∧ !closed then 0xFFFFFFFFFFFFFFFE else 0xFFFFFFFFFFFFFFFF }) }

theorem test_witness_placement :
    (let s := placing false none
     s.grids.find? 0 = some (grid0 none) ∧ (grid0 none).pendingTeam = some 0 ∧ s.target 0 (grid0 none) = some 0 ∧ s.mayPlace 0 (grid0 none) = true) ∧
    (let s := placing true (some 250000)
     s.grids.find? 0 = some (grid0 (some 250000)) ∧ 250000 + s.mod.mhz * 1000 ≤ s.clk ∧ s.target 0 (grid0 (some 250000)) = none) := by decide +kernel

/-- A grid whose queue is disabled; a queue of a higher priority that has a record to give. -/
theorem test_witness_not_placed : ((placing false none).grids.find? 0 = some (grid0 none) ∧
      ({ placing false none with queues := [] } : State).queue 0 = Queue.reset ∧ Queue.reset.enabled = false) ∧
    (let s := (placing false none).modQueue 1 fun _ => { Queue.reset with cfg := 0x80000704, tail := 1 }
     s.canTake 1 = true ∧ (grid0 none).prio < ((s.queue 1).cfg.extractLsb' 8 3).toNat) := by decide

theorem test_witness_tasks :
    (let s := taskUnits [(5, parseTask [])]
     (s.unit 0 0).pool = [(5, parseTask [])] ∧ s.headOpen (.task 0) 0 = false) ∧
    (∀ mark : Bool, (let s := armed (gtask 0 mark)
     (s.die 0).graph 7 = some (graph0 (gtask 0 mark)) ∧ (graph0 (gtask 0 mark)).pick = some 0 ∧ (graph0 (gtask 0 mark)).task 0 = some (gtask 0 mark) ∧ 0 + 1 < (graph0 (gtask 0 mark)).rounds ∧
     s.headOpen (.task 0) 0 = false)) := by decide

/-- A team without waves, with and without children. -/
theorem test_witness_retire : ∀ n ∈ [0, 1], (let s : State := { (withTeam fun t => { t with children := n }) with waves := [] }
    s.teams.find? 1 = some { team0 with children := n } ∧ s.waves = [] ∧ s.hasCommands 1 = false ∧ (s.core 0).bins = [] ∧ team0.state = .resident ∧ team0.task = none ∧
    s.grids.find? 0 = none) := by decide

/-! ### Teams that leave and return -/

def asked : State := withTeam fun t => { t with preempt := some 0 }

/-- Every lane waits at BARW for a child's completion, longer than the threshold. -/
def swapping : State :=
  { base with
    clk := 1026, ctxs := [(0, { base.ctx 0 with swapthr := 1 })]
    waves := [(64, { wave0 with lanes := wave0.lanes.map fun p => (p.1, { p.2 with life := .blocked (.barw (.team 1 32) 0 0 0x1004 1) }) })]
    grids := [(0, { grid0 none with source := .child 1, bar := some (.team 1 32), record := { goodRecord with completion := 0x4000000000000020 } })] }

def saved : State := { placing false none with grids := [], teams := [(1, { team0 with state := .queued, vcount := 16, scount := 32 })] }

/-- A critical wave and a limit that has passed. -/
def overdue : State := { asked with
  clk := 1024, cores := [(0, { base.core 0 with crit := [64] })], ctxs := [(0, { base.ctx 0 with critmax := 1 })] }

def watched : State :=
  { base with
    clk := 1024, ctxs := [(0, { base.ctx 0 with wdtime := 1, wdSince := some 0 })]
    waves := [(64, { wave0 with lanes := wave0.lanes.map fun p => (p.1, { p.2 with life := .held 0 0x1004 }) })] }

theorem test_witness_teams :
    ((asked.team 1).preempt.isSome = true ∧ (asked.team 1).swapping = false ∧ asked.quiet 1 = true) ∧
    (swapping.quiet 1 = true ∧ swapping.swapMet 1 = true ∧ (swapping.team 1).preempt = none) ∧
    (let s : State := { swapping with cores := [(0, { base.core 0 with crit := [64] })], ctxs := [(0, { swapping.ctx 0 with critmax := 1 })] }
     s.teams.find? 1 = some team0 ∧ team0.state = .resident ∧ team0.preempt = none ∧ s.deferred 1 = true ∧ s.swapMet 1 = true) ∧
    (overdue.team 1).swapping = false ∧
    ((overdue.team 1).preempt = some 0 ∧ overdue.deferred 1 = true ∧ 0 + (overdue.ctx (overdue.team 1).ctx).critmax.toNat * 1024 ≤ overdue.clk ∧
      (overdue.team 1).state = .resident ∧ (overdue.teams.find? 1).isSome ∧ overdue.hasCommands 1 = false ∧ overdue.inCtxsw 1 = false) ∧
    watched.watchdogOut 0 = true := by decide

theorem test_witness_restore : saved.restoreTarget 1 = some 0 ∧ saved.placeable = [] ∧ (saved.teams.find? 1).isSome ∧
    ∀ p ∈ saved.waves, p.2.slots = [] := by decide +kernel

/-- A team that has been resident for 500 us on a hot core, and one that has not. -/
def heated (clk : Nat) : State := { (withCore fun c => { c with hot := true }) with clk := clk }

theorem test_witness_heat :
    (∀ clk ∈ [874999, 875000], ((heated clk).core 0).hot = true ∧ ((heated clk).core 0).hotSince + 100 * (heated clk).mod.mhz ≤ (heated clk).clk ∧
      (heated clk).teams = [(1, team0)]) ∧
    team0.state = .resident ∧ team0.core = 0 ∧ 0 + 500 * base.mod.mhz = 875000 ∧ (∀ p ∈ base.teams, p.2.core = 5 → p.2.state ≠ .resident) := by decide

/-! ### Waves and faults -/

def paused (w : Wait) : State := withLanes fun l => { l with life := .blocked w }
def latecomer : State := base.modLane 64 0 fun l => { l with late := [{ cause := 5, info := 3, addr := 0 }] }
def binned (fired : Bool) : State := { (withCore fun c => { c with bins := [(3, { team := 1, entry := 0x1000, args := [7], seq := 0, due := 9, fired := fired })] }) with clk := 9 }
def watching : State := withLanes fun l => { l with depth := 1, watch := [⟨0, 0x40000000⟩] }

theorem test_witness_wave_steps :
    ({ (withWave fun w => { w with run := 17 }) with cur := Cur.none }.cur = Cur.none ∧ 16 < ((withWave fun w => { w with run := 17 }).wave 64).run) ∧
    (∀ dirty ∈ [[], [1]], (let s := withWave fun w => { w with absent := [0], dirty := dirty }
     (s.wave 64).absent.contains 0 = true ∧ (s.wave 64).absent.contains 1 = false ∧ (s.waves.find? 64).isSome ∧
     (backedLines (s.team 1).vcount (s.team 1).scount).contains 1 = true ∧ (s.wave 64).dirty.contains 1 = !dirty.isEmpty)) ∧
    (((paused (.queue none)).wave 64).lane 0).life = .blocked (.queue none) ∧ (paused (.queue none)).waitOver 64 (.queue none) = true ∧
    (∀ l ∈ List.range 32, ((base.wave 64).lane l).conflict = false) ∧ (((paused (.sleep 0 0x1004)).wave 64).lane 0).life = .blocked (.sleep 0 0x1004) ∧
    (((latecomer.wave 64).lane 0).life = .ready ∧ ((latecomer.wave 64).lane 0).late = [{ cause := 5, info := 3, addr := 0 }] ∧ latecomer.residentWave 64 = true ∧
      (latecomer.wave 64).trapvec ≠ 0 ∧ ((latecomer.wave 64).lane 0).depth = 0 ∧ ((latecomer.wave 64).lane 0).handler = false) ∧
    (∀ fired : Bool, ((binned fired).core 0).bins.find? 3 = some { team := 1, entry := 0x1000, args := [7], seq := 0, due := 9, fired := fired } ∧
      ((binned fired).team 1).state = .resident ∧ (binned fired).spawnedWaves 1 < ((binned fired).team 1).pool ∧ (binned fired).waves.find? (1 * 64 + 1) = none ∧
      (∀ j ∈ List.range 1, ((binned fired).waves.find? (1 * 64 + j)).isSome)) ∧
    (watching.coreOf 64 = 0 ∧ ((watching.wave 64).lane 0).member = true ∧ ((watching.wave 64).lane 0).live = true ∧ ((watching.wave 64).lane 0).waveMode = false ∧
      ((watching.wave 64).lane 0).watches 0 (0x40000000 / 128) = true) := by decide

/-- A retracting region whose generation no die holds, with its barrier in team 1. -/
def retracting : State := { (regional 3 5) with
  mem := [(0x40001002, 1), (0x40001009, 1), (0x4000100C, 3), (0x4000100E, 1), (0x40001010, 5), (0x40001014, 5), (0x40001018, 1), (0x4000101A, 1)]
  ctxs := [(0, { (regional 3 5).ctx 0 with retracts := [(0, (1, 0))] })] }

/-- A SYSC that lanes 0 and 1 have parked on, with tag 4. -/
def syscSlot : Slot :=
  { pc := 0x1000, w0 := 0, w1 := 0, instr := .sysc o0, vb := 0, sb := 0,
    lanes := [(0, { addr := 0, data := 0, tag := some 4 }), (1, { addr := 0, data := 0, tag := some 4 })] }
def parkedCall : State := (withWave fun w => { w with slots := [(0, syscSlot)] }).modCtx 0 fun c => { c with tags := [(4, { page := 0, sysc := true, resolved := none })] }
def record0 : FaultRec := { addr := 0, kind := 0x82, access := 0, tag := 4, ctx := 0, loc := 0, mask := 3, teamId := 0, pc := 0x1000 }

theorem test_witness_fault_steps :
    ((retracting.region 0 0).pending = true ∧ (retracting.region 0 0).state = 3 ∧ (∀ p ∈ retracting.dies, p.2.resid = []) ∧
      retracting.retractBar 0 0 (retracting.region 0 0).bar = some (.team 1 32) ∧ (retracting.team 1).state = .resident) ∧
    (((parkedCall.ctx 0).tags.find? 4).isSome ∧ parkedCall.waiters 0 4 = [(64, 0, 3)] ∧ parkedCall.residentWave 64 = true ∧
      (parkedCall.wave 64).slots.find? 0 = some syscSlot ∧ syscSlot.instr = .sysc o0 ∧ (∀ l ∈ lanesOf 3, ((parkedCall.wave 64).lanes.find? l).isSome) ∧
      (∀ p ∈ parkedCall.cores, p.2.mq = [] ∧ p.2.copy = []) ∧ (∀ p ∈ parkedCall.dies, p.2.colls = []) ∧ (parkedCall.wave 64).trapvec ≠ 0 ∧
      ∀ l ∈ lanesOf 3, ((parkedCall.wave 64).lane l).depth = 0 ∧ ((parkedCall.wave 64).lane l).handler = false) ∧
    (let s := withCtx fun c => { c with waiting := [record0], fqhead := 15 }
     (s.ctx 0).waiting = [record0] ∧ (s.ctx 0).fqhead - (s.ctx 0).fqtail < (s.ctx 0).fqsize ∧ (s.ctx 0).fqbar.getLsbD 31 = false) ∧
    (∀ p ∈ base.waves, p.2.slots = []) ∧ base.groupCheck = true ∧ base.canTrapCheck = true := by decide

theorem test_witness_outside_more :
    (base.mod.brsel.extractLsb' 8 6).toNat < 48 ∧ 0x40000000 % typeBytes 4 = 0 ∧ (linked.cores.all fun p => p.2.l1.isEmpty) = true ∧ 0 ∉ base.mod.qps ∧
    base.mod.qps.length < 16384 := by decide

/-- The queue pairs of a module that has 16384 of them, none of which is number 0. -/
theorem test_witness_queue_pairs (n : Nat) : 0 ∉ List.replicate n 1 ∧ n ≤ (List.replicate n 1).length := by simp

/-- A module that failed to boot with an event to come; a sample; a team whose command runs. -/
theorem test_witness_held_in_reset : let s := { State.reset with mod := { State.reset.mod with boot := .linkFailure }, inputs := [.event .warmReset] }
    s.mod.boot = .linkFailure ∧ s.cur.second = none ∧ s.inputs = [.event .warmReset] := by decide

/-- A halted module whose one team has no command, or a CPYS that waits on tag 4. -/
def halted (s : State) : State := { s with mod := { s.mod with haltedAt := some 0 } }
def stuckCopy : Cmd := { copyCmd 2 none with tag := some 4 }
def stuck : State := halted (withCore fun x => { x with copy := [(0, { queue := [stuckCopy], issued := 1, done := 0 })] })

theorem test_witness_dumps : (∀ s ∈ [halted base, stuck], s.mod.haltedAt.isSome = true ∧ (s.teams.find? 1).isSome ∧ (∀ p ∈ s.waves, p.2.stores = []) ∧
      ∀ p ∈ s.dies, p.2.colls = []) ∧
    (halted base).hasCommands 1 = false ∧ (stuck.core 0).mq = [] ∧ (stuck.core 0).copy = [(0, { queue := [stuckCopy], issued := 1, done := 0 })] ∧
    stuckCopy.op.copyKind = 2 ∧ (stuck.team 1).away = false ∧ stuckCopy.op.total = 4 ∧ stuckCopy.op.addrOf 0 = some 0 := by decide

/-- R239: what a CPYS has yet to store stands in the dump with its data, and the command ends. -/
theorem test_dump_lists_copy : (match exec (.coreDump 1) (stuck.modTeam 1 fun t => { t with tmem := [(1024, 7)] }) with
    | .next t => t.out == [.dump 1 [{ die := 0, core := 0, wave := 0, lane := 0, addr := 0, data := [7, 0, 0, 0] }]] && (t.copyCtx 0 0).queue.isEmpty
    | _ => false) = true := by decide +kernel

theorem test_witness_samples_and_dumps :
    ((withCtx fun c => { c with samples := [{ pc := 0x1000, addr := 0, loc := 0 }] }).ctx 0).samples = [{ pc := 0x1000, addr := 0, loc := 0 }] ∧
    (base.ctx 0).samples = [] ∧ (List.replicate 12 (0 : Byte)).length = 12 ∧ (∀ p ∈ base.waves, p.2.stores = []) ∧
    (∀ p ∈ (running (cmd0 (.mxz 0))).cores, cmd0 (.mxz 0) ∈ p.2.mq) ∧ (cmd0 (.mxz 0)).team = 1 ∧ (cmd0 (.mxz 0)).started = true ∧ (cmd0 (.mxz 0)).finished = false := by decide

/-- A swap that is barred: the shadow buffer is no team's. -/
theorem test_witness_barred_swap : let s := (running (waiting swapOp)).modCore 0 fun x => { x with shadow := { x.shadow with owner := none } }
    (s.core 0).mq.find? (fun y => !y.started) = some (waiting swapOp) ∧ (s.core 0).shadow.owner ≠ some (waiting swapOp).team := by decide

/-- A drain to global memory at 0, whose bytes one translation covers; a drain of a tile of no team. -/
def globalDrain : Cmd := cmd0 (.mxd 10 0 0 true 0 0 1 512)
theorem test_witness_drains :
    (theOne (running globalDrain) globalDrain = true ∧ ((running globalDrain).core 0).tileTag.find? 0 = some 1 ∧
      (∀ x ∈ List.range 512, let s := running globalDrain
        canonical (BitVec.ofNat 64 x) = true ∧ (∀ k ∈ [0, 1], (s.heapWindow 0 (BitVec.ofNat 64 x) k).isNone ∧ isOk (s.applyLeaf 0 x k tlb0) (0x40000000 + x) = true) ∧
        tlbHit (s.core 0).tlb 0 x = some tlb0)) ∧
    (let c := cmd0 (.mxd 10 1 1 false 128 0 2 512)
     theOne (running c) c = true ∧ ((running c).core 0).tileTag.find? 1 ≠ some 1 ∧ ((running c).team 1).away = false ∧ (running c).objThere (.die 0 0) = true) := by decide +kernel

/-- Twelve waves whose lines fill the register cache but for none, wave 64 with twelve lines absent. -/
def crowded : State := { base with
  waves := (List.range 12).map fun j => (64 + j, { wave0 with lanes := [], absent := if j = 0 then (List.range 12).map (· + 52) else [], dirty := if j = 1 then [0] else [] }) }

theorem test_witness_line_fill :
    (let s := withWave fun w => { w with absent := [0] }
     (s.wave 64).absent.contains 0 = true ∧ s.residentWave 64 = true ∧ s.cacheRoom 0 (lineBytes 0) = true) ∧
    (crowded.wave 64).absent.contains 52 = true ∧ crowded.residentWave 64 = true ∧ crowded.cacheRoom 0 (lineBytes 52) = false ∧
    ((65, 0) ∈ crowded.victims 0 ∧ (crowded.evictLine 65 0).cacheRoom 0 (lineBytes 52) = true) ∧ (64, 52) ∉ crowded.victims 0 ∧ (crowded.waves.map (·.1)).Nodup := by
  decide +kernel

/-- A grid that no image area holds; a core that a grid wants and no core is open. -/
theorem test_witness_reserve :
    (placing true (some 250000)).wantsCore 0 (grid0 (some 250000)) = true ∧ base.imagePlaces 0 ((grid0 none).team 0 0).imageSize = [] := by decide +kernel

/-- The save record of one wave whose lanes are all Ready. -/
theorem test_witness_save_record : let s := { saved with mem := [(8, 1)] }
    s.restoreTarget 1 = some 0 ∧ s.mayRestore 1 = true ∧ (s.teams.find? 1).isSome ∧ (s.team 1).core = 0 ∧ (s.team 1).image = 0 ∧
    (∀ p ∈ s.waves, p.1 = 64) ∧ (fromBytes (Memory.readBytes s.mem 8 8)).testBit 0 = true ∧ (s.team 1).alloc = 65536 ∧
    fromBytes (Memory.readBytes s.mem (4096 + 65536 + 0x158) 4) % 16 = 0 ∧ ∀ p ∈ asked.waves, p.2.stores = [] := by decide +kernel

theorem test_witness_tags :
    (parkedCall.ctx 0).tags.find? 4 = some { page := 0, sysc := true, resolved := none } ∧ (parkedCall.waves.map (·.1)).Nodup ∧
    ((parkedCall.wave 64).slots.map (·.1)).Nodup ∧ ∀ p ∈ parkedCall.waves, ∀ q ∈ p.2.slots, ∀ r ∈ q.2.lanes, r.1 < 32 := by decide
/-! ### The machine -/

/-- ADDS.s32 v6, v2, v3 as the first instruction after reset. -/
def first : State := State.reset.withFetchWord 32 0x04018103

theorem test_witness_step : ∀ long : Bool, let s : State := { first with inputs := [if long then .issueLong 0 else .issue 0] }
    let s0 : State := { s with cur := { Cur.none with linger := long }, inputs := [] }
    let s1 := s0.openClk 0 false (some 0xFFFFFFFF) none
    s.cur.second = none ∧ s.mod.boot.failed = false ∧ (s0.freeHalves 0).length = 2 ∧ 0 ∈ ({ s0 with cur := Cur.none } : State).issues ∧ s0.abortConflicts 0 = s0 ∧ s0.firstPick 0 = some 0xFFFFFFFF ∧
    s0.secondPick 0 0xFFFFFFFF = none ∧ (s1.wave 0).lateLanes 0xFFFFFFFF = 0 ∧
    (match ((s1.select { wave := 0, mask := 0xFFFFFFFF }).fetch 0 0xFFFFFFFF).2 with
     | .ok f => f.w0 == 0x04018103
     | .error _ => false) = true ∧ s.inv = true := by decide +kernel

/-- A property of the next state. -/
def next (a : Answer) (p : State → Bool) : Bool :=
  match a with
  | .next t => p t
  | _ => false

theorem test_first_step : next (step first) (fun t =>
    ((t.wave 0).lane 0).pc == ((first.wave 0).lane 0).pc + 4 && t.inv) = true := by decide +kernel

/-- FENCE.sc.dev as the first instruction, with a wait for its completion: its lanes are Blocked past it, and a wake makes them Ready. -/
theorem test_fence_waits : next (step { State.reset.withFetchWord 64 0x980000005DC00000 with inputs := [.issueLong 0] }) (fun t =>
    ((t.wave 0).lane 0).life == .blocked .completion && ((t.wave 0).lane 0).pc == 0x40000008 &&
    next (step { t with inputs := [.event (.blockedLaneWake 0 0)] }) fun u => ((u.wave 0).lane 31).life == .ready) = true := by decide +kernel

/-- A running CPYS reads a word of team memory ahead; the word that it stores is that one, though a store has replaced it since. -/
def ahead : State := { (copyRun 2 none).modTeam 1 fun t => { t with tmem := [(1024, 7)] } with cur := Cur.none, inputs := [.engineRead 0 (.team 1 1024)] }

theorem test_engine_reads_ahead : ahead.cur.second = none ∧ ahead.mod.boot.failed = false ∧ copyCmd 2 none ∈ (ahead.copyCtx 0 0).running ∧
    next (step ahead) (fun t => next (exec (.copySegmentLand 0 0 0) (t.modTeam 1 fun x => { x with tmem := [(1024, 9)] })) fun u =>
      Memory.read u.mem 0x40000000 == 7) = true := by decide +kernel

/-- A PC of static code that the TLB translates and no cache holds. -/
theorem test_witness_fetch : base.residentHere 64 0 = none ∧ (withLanes fun l => { l with pc := 0 }).regionAt 0 0 = none ∧ base.poisonAt 0x40000000 128 = none ∧
    base.translate 0 0 0 3 = (base, .ok 0x40000000) ∧ (base.core 0).icache = [] ∧ (base.core 0).l1 = [] ∧ (base.wave 64).fresh = false ∧
    ∀ p ∈ (base.wave 64).lanes, p.2.resid = none ∧ p.2.hresid = none :=
  ⟨by decide, by decide, by decide, eq_gives (by decide), by decide⟩

/-! ## Words of each family, with the fields of the spec's encoding tables (R109 to R136) -/

/-- What a first and a second word decode to. -/
def reads (w0 w1 : Word) (i : Instr) : Bool := isOk (decode w0 w1) i
def refuses (w0 w1 : Word) : Bool :=
  match decode w0 w1 with
  | .ok _ => false
  | .error _ => true

def rr (d a b : Nat) : Ops := { s := false, nw := false, d := BitVec.ofNat 7 d, a := BitVec.ofNat 7 a, b := BitVec.ofNat 7 b, lit := 0 }
def ss (d a b : Nat) : Ops := { rr d a b with s := true }

/-- Class 0 and 1: S, nine opcode bits, NW, D, A, B. -/
theorem test_decode_integer_and_bits :
    reads 0x04018103 0 (.adds 0 (rr 6 2 3)) = true ∧ reads 0x0900C082 0 (.div 0 (rr 3 1 2)) = true ∧ reads 0x90014082 0 (.andB false (ss 5 1 2)) = true ∧
    reads 0x04018883 0xFFFF0000 (.adds 0 { rr 6 17 3 with lit := 0 }) = true := by decide

/-- A literal operand takes the second word. -/
theorem test_decode_literal : reads 0x0001817F 0xFFFF0000 (.add 0 { rr 6 2 127 with lit := 0xFFFF0000 }) = true := by decide

/-- Class 2 and 3. -/
theorem test_decode_floats : reads 0x2300C082 0 (.fma 0 (rr 3 1 2)) = true ∧ reads 0x3501C103 0 (.dot4 0 (rr 7 2 3)) = true := by decide

/-- Class 4: control, and lane crossing. -/
theorem test_decode_control :
    reads 0x40C00020 0 (.call 32) = true ∧ reads 0x41402F00 0 (.ret (rr 0 94 0)) = true ∧ reads 0x42000000 0 (.exit (rr 0 0 0)) = true ∧
    reads 0x448100E2 0 (.wrln (rr 4 1 98)) = true ∧ reads 0x47000180 0 (.sleep (rr 0 3 0)) = true ∧ reads 0xC242817A 0 (.wbase (ss 10 2 122)) = true := by decide

/-- Class 5. -/
theorem test_decode_memory :
    reads 0x51007202 0 (.ld 4 (rr 1 100 2)) = true ∧ reads 0x52807202 0 (.st 2 (rr 1 100 2)) = true ∧ reads 0xD64081E4 0 (.stt 1 (ss 2 3 100)) = true := by decide

/-- Classes 6 and 7. -/
theorem test_decode_engines_and_system :
    reads 0x66000000 0 (.crit (rr 0 0 0)) = true ∧ reads 0xE1420200 0 (.tlrd (ss 8 4 0)) = true ∧
    reads 0xE1800206 0x80390002 (.tlarm (ss 0 4 6) { scope := 4, order := 0, sub := 0, type := 7, spec := 0x10002 }) = true ∧
    reads 0x72400000 0x60000000 (.commit (rr 0 0 0) { scope := 3, order := 0, sub := 0, type := 0, spec := 0 }) = true ∧
    reads 0xF4018200 0 (.launch (ss 6 4 0)) = true ∧ reads 0xF4418200 0 (.tsub (ss 6 4 0)) = true ∧ reads 0x74C00206 0 (.spawn (rr 0 4 6)) = true := by decide

/-- Refused: an opcode without the S it has, an unassigned index, NW where R76 forbids it, a reserved bit, a control-word value. -/
theorem test_decode_refuses :
    refuses 0xC2000000 0 = true ∧ refuses 0x4FC00000 0 = true ∧ refuses 0x42200000 0 = true ∧ refuses 0x42000001 0 = true ∧
    refuses 0x72400000 0xC0000000 = true ∧ refuses 0x36C14082 0 = true := by decide

theorem test_encode : (Instr.adds 0 (rr 6 2 3)).wf = true ∧ encode (.adds 0 (rr 6 2 3)) = [0x04018103] ∧ encode (.add 0 { rr 6 2 127 with lit := 0xFFFF0000 }) = [0x0001817F, 0xFFFF0000] ∧
    encode (.call 32) = [0x40C00020] := by decide

/-! ## Ill-formed instructions that the checks refuse -/

/-- An operand in a field that the instruction has not, S in an instruction without a scalar form, NW without a result. -/
theorem test_ill_formed_first : (Instr.exit { rr 0 0 0 with d := 3 }).wf = false ∧ (Instr.call 32).wf = true ∧ (Instr.exit (ss 0 0 0)).wf = false ∧
    (Instr.st 2 { rr 1 2 3 with nw := true }).wf = false := by decide

/-- A literal that no operand names, and control words out of their tables. -/
theorem test_ill_formed_second : (Instr.add 0 { rr 1 2 3 with lit := 5 }).wf = false ∧
    (Instr.commit (rr 0 0 0) { scope := 6, order := 0, sub := 0, type := 0, spec := 0 }).wf = false ∧
    (Instr.fence (rr 0 0 0) { scope := 1, order := 0, sub := 5, type := 0, spec := 0 }).wf = false := by decide

/-- Steps of the part that name what it does not have. -/
theorem test_ill_formed_step : (Instr.dspszWrite 4 0).wf = false ∧ (Instr.watchdogExpire 16).wf = false ∧ (Instr.corePowerGate 192).wf = false ∧
    (Instr.spawnBatchStart 0 16).wf = false ∧ (Instr.lqtailWrite 64 0).wf = false ∧ (Instr.corePowerGate 191).wf = true := by decide

/-! ## Single steps -/

/-- Register 8 of lane 0 after an instruction. -/
def gives (s : State) (i : Instr) (v : Word) : Bool := next (exec i s) fun t => (t.w.lane 0).reg 8 == v && (t.w.lane 0).pc == 0x1004

/-- A in register 16, B in register 24. -/
def ab (a b : Word) : State := vset (vset base 16 a) 24 b

/-- R348, R147, R384, R437: a wrap, a saturation, a quotient toward zero, the corners of DIV and REM. -/
theorem test_add_wraps : gives (ab 0xFFFFFFFF 1) (.add 0 o0) 0 = true := by decide
theorem test_adds_saturates : gives (ab 0x7FFFFFFF 1) (.adds 0 o0) 0x7FFFFFFF = true := by decide
theorem test_div_toward_zero : gives (ab 0xFFFFFFF9 2) (.div 0 o0) 0xFFFFFFFD = true := by decide
theorem test_div_by_zero : gives (ab 7 0) (.div 0 o0) 0xFFFFFFFF = true ∧ gives (ab 7 0) (.rem 0 o0) 7 = true := by decide
theorem test_rem_sign : gives (ab 0xFFFFFFF9 2) (.rem 0 o0) 0xFFFFFFFF = true := by decide
/-- R443: a count of 32. -/
theorem test_shl_full : gives (ab 1 32) (.shl false o0) 0 = true ∧ gives (ab 0x80000000 32) (.sar false o0) 0xFFFFFFFF = true := by decide
/-- R392: 1.0 + 2.0, and 0 times infinity raises invalid and gives the default NaN. -/
theorem test_fadd : gives (ab 0x3F800000 0x40000000) (.fadd 0 o0) 0x40400000 = true := by decide
theorem test_fmul_invalid : next (exec (.fmul 0 o0) (ab 0 0x7F800000)) (fun t => (t.w.lane 0).reg 8 == 0x7FC00000 && t.w.fcsr == 1) = true := by decide
/-- R250: the mask of lanes whose A is not zero. -/
theorem test_ballot : gives (base.modLane 64 1 fun l => { l with v := [(16, 5)] }) (.ballot o0) 2 = true := by decide
/-- R362: the target is 4 times the offset from the branch. -/
theorem test_br_backward : next (exec (.br 0x3FFFFF) base) (fun t => (t.w.lane 0).pc == 0xFFC && (t.w.lane 2).pc == 0x2000) = true := by decide
/-- R405, R451: a store and the load that follows it. -/
theorem test_store_load : next (exec (.st 2 o0) (vset base 8 0x11223344)) (fun t => next (exec (.ld 0 o0) t) fun u => (u.w.lane 0).reg 8 == 0x44) = true := by decide +kernel
/-- R405: a narrow signed load extends the sign. -/
theorem test_load_signed : gives (inMem base [(0, 0x80)]) (.ld 1 o0) 0xFFFFFF80 = true := by decide +kernel
/-- R433: atomic addition, lane after lane. -/
theorem test_atom_add : next (exec (.atom o0 (ctl 4 0 0 0)) (vset base 24 5)) (fun t =>
    (t.w.lane 0).reg 8 == 0 && (t.w.lane 1).reg 8 == 5 && Memory.read t.mem 0x40000000 == 10) = true := by decide +kernel
/-- R357, R212: two arrivals complete a phase. -/
theorem test_bara : next (exec (.bara o0 inTeam) armable) (fun t => (t.bar (.team 1 32)).phase == 1 && (t.bar (.team 1 32)).arrived == 0) = true := by decide
/-- R467, R220: TRAP. -/
theorem test_trap : next (exec (.trap o0) (vset base 16 9)) (fun t => let l := t.w.lane 0
    l.tcause == 0x14 && l.tinfo == 9 && l.tpc == 0x1004 && l.handler && l.pc == 0x8000) = true := by decide
/-- R441: the return clears bits [1:0]. -/
theorem test_rte : next (exec (.rte o0) (withLanes fun l => { l with handler := true, tpc := 0x3002 })) (fun t =>
    (t.w.lane 0).pc == 0x3000 && !(t.w.lane 0).handler) = true := by decide
/-- R129: HALT outside context 0. -/
theorem test_halt_privilege : next (exec (.halt o0) user) (fun t => (t.w.lane 0).tcause == 3) = true := by decide
/-- R281, R347: ABORT gives its code to the lane's status. -/
theorem test_abort : next (exec (.abort o0 (ctl 0 0 0 0x7F)) (tried 1)) (fun t => (t.w.lane 0).status == 0x7F01 && (t.w.lane 0).pc == 0x3000) = true := by decide
/-- R431, R82: LANEID of lane 1. -/
theorem test_laneid : next (exec (.rdsr (sr 0)) base) (fun t => (t.w.lane 1).reg 8 == 1) = true := by decide
/-- R255: among the images that match, the first of the highest rank; none where none matches. -/
theorem test_select_image : selectImage 0x05 [(0x02, 9), (0x01, 3), (0x05, 4), (0x04, 4)] = some 2 ∧ selectImage 0 [(1, 2)] = none := by decide

/-! ## skas -/

set_option maxRecDepth 20000 in
/-- The kernel of the chapter on skas, with the bytes that its table of words gives. -/
theorem test_skas_kernel :
    (Skas.assemble [] "main" ".entry scale3\n.team 1, 8, 8, 0, 0\nscale3: ADD.s32 v4, lane, 100 // 100\nMUL.s32 v5, b0, 3\nADD.s32 s2, wave, 15\nEXIT").toOption.map
      (fun o => o.sections.map Skas.Section.bytes) =
    some [[0xFF, 0x3C, 0x01, 0x00, 0x64, 0, 0, 0, 0x7F, 0x78, 0x01, 0x06, 3, 0, 0, 0, 0xEF, 0xBC, 0x00, 0x80, 0, 0, 0, 0x42]] := by decide +kernel
theorem test_skas_literal : Skas.immCode true .w (.bits 15) = .ok (111, none) ∧ Skas.immCode false .s64 (.bits (2 ^ 31)) = .error 96 := by decide
/-- R93: a name defined twice; R99: a target that is not a multiple of 4. -/
theorem test_skas_problems :
    (match Skas.assemble [] "main" "a: NOP\na: BR a + 2" with | .error ps => ps.map (fun p => (p.line, p.rule)) | .ok _ => []) = [(2, 93), (2, 99)] := by decide +kernel

end Sys2Proof.Tests
end

/-! # The state after reset

The invariant written out, what the accessors of the state read right after reset, and the obligation on the reset values. -/

namespace Sys2Proof.Machine

/-- The parts of the invariant, as propositions. -/
theorem State.inv_iff (s : State) :
    s.inv = true ↔ Memory.wf s.mem = true ∧ 600 ≤ s.mod.pwrcap.toNat ∧ s.mod.pwrcap.toNat ≤ 2500 ∧ s.mod.modnum.toNat < 1024 := by
  simp only [State.inv, Bool.and_eq_true, decide_eq_true_eq, and_assoc]

@[simp] theorem State.reset_die (d : Nat) : State.reset.die d = Die.reset := rfl
@[simp] theorem State.reset_queue (q : Nat) : State.reset.queue q = Queue.reset := rfl

/-- Every context has its reset values, and context 0 alone is LIVE (R28). -/
theorem State.reset_ctx (c : Nat) : State.reset.ctx c = { Ctx.reset with live := decide (c = 0) } := by
  by_cases hc : c = 0
  · subst hc
    rfl
  · have absent : State.reset.ctxs.find? c = none := by simp [State.reset, Tbl.find?, Ne.symm hc]
    simp [State.ctx, Tbl.get, absent, hc, Ctx.reset]

theorem State.reset_ctx_live (c : Nat) : (State.reset.ctx c).live = true ↔ c = 0 := by
  rw [State.reset_ctx]
  exact decide_eq_true_iff

/-- The power cap and the module number after reset lie in their ranges (R332, R345). -/
theorem State.reset_inv : State.reset.inv = true :=
  (State.inv_iff _).2 ⟨State.reset_memory_wf, by decide, by decide, by decide⟩

/-- Settles O55: the module, the dies and the queues are their own reset records; a context differs from its own in LIVE alone, by
`State.reset_ctx`. -/
theorem resetMeetsInvariant : Obligations.ResetMeetsInvariant := by
  refine ⟨State.reset_inv, rfl, rfl, rfl, rfl, rfl, rfl, rfl, fun c => ?_⟩
  refine ⟨State.reset_ctx_live c, ?_⟩
  rw [State.reset_ctx, State.reset_die, State.reset_queue]
  exact ⟨rfl, rfl, rfl, rfl, rfl, rfl, rfl⟩

end Sys2Proof.Machine

/-! # Issue

What one turn does with a pick that is fetched and decoded, what the first word of static code is, and the obligation on the issue of
an instruction. -/

namespace Sys2Proof.Machine

/-! ## A turn that takes an issue -/

/-- Changes of an answer compose. -/
theorem Answer.map_map (f g : State → State) (a : Answer) : Answer.map f (Answer.map g a) = Answer.map (fun s => f (g s)) a := by
  cases a <;> rfl

/-- A turn with an input waiting takes it, where the module is not held in reset by a failed boot. -/
theorem step_of_input {s : State} {x : Input} {xs : List Input} (hsecond : s.cur.second = none) (hin : s.inputs = x :: xs)
    (hboot : x.reaches s.mod.boot = true) : step s = ({ s with cur := Cur.none, inputs := xs } : State).accept x := by
  simp only [step, State.turn, hsecond, hin, State.take, hboot, ↓reduceIte]

/-- An issue of a wave that its slot chooses, with or without a wait for the completion of what it executes. -/
theorem State.accept_issue {s : State} {k : Nat} (long : Bool) (hk : k ∈ s.issues) (hl : s.cur.linger = false) :
    s.accept (if long then .issueLong k else .issue k) = ({ s with cur := { s.cur with linger := long } } : State).issue k false := by
  have hk' : s.issues.contains k = true := List.contains_iff_mem.2 hk
  cases long with
  | true => simp only [State.accept, ↓reduceIte, hk']
  | false =>
    have same : ({ s with cur := { s.cur with linger := false } } : State) = s := by rw [← hl]
    simp only [State.accept, Bool.false_eq_true, ↓reduceIte, hk', same]

/-- A clk in which one group alone is picked (R37, R41): its pick, and then the clk passes. -/
theorem State.issue_single {s : State} {k : Nat} {m : BitVec 32} (lazy : Bool) (hconf : s.abortConflicts k = s)
    (hfirst : s.firstPick k = some m) (hsecond : (s.freeHalves k).length = 2 → s.secondPick k m = none) :
    s.issue k lazy = Answer.map State.tick
      ((s.openClk k lazy (some m) none).execPick ((s.freeHalves k).headD 0) { wave := k, mask := m }) := by
  have noSecond : (if (s.freeHalves k).length = 2 then s.secondPick k m else none) = none := by
    split
    · exact hsecond ‹_›
    · rfl
  simp only [State.issue, hconf, hfirst, noSecond]

/-- With no late failure waiting, a pick executes its group (R222). -/
theorem State.execPick_of_no_late {s : State} {p : Pick} (half : Nat) (hlate : (s.wave p.wave).lateLanes p.mask = 0) :
    s.execPick half p = s.execGroup half p := by
  have noLate : s.thawed 0 = 0 := BitVec.zero_and
  simp only [State.execPick, hlate, noLate, ↓reduceIte]

/-- What is fetched carries the instruction that its words decode to (R117, R137). -/
theorem State.fetch_instr {s t : State} {k : Nat} {m : BitVec 32} {f : Fetched} (h : s.fetch k m = (t, .ok f)) :
    f.instr = instrOf f.w0 f.w1 := by
  unfold State.fetch at h
  split at h
  · cases h
  · split at h
    · split at h
      · cases h
      · cases h; rfl
    · cases h; rfl

/-- A group whose words are fetched and decode to i runs exec of i; then its requests are counted and its half is held (R41, R245). -/
theorem State.execGroup_of_fetch {s v : State} {half : Nat} {p : Pick} {f : Fetched} {i : Instr}
    (hf : (s.select p).fetch p.wave p.mask = (v, .ok f)) (hi : decode f.w0 f.w1 = .ok i) :
    s.execGroup half p = Answer.map (fun u =>
      let u := (u.noteRequests ((v.withWords f).orderAccesses i) i).holdHalf (s.coreOf p.wave) (halfOf (s.wave p.wave).islot half) i
      if s.cur.linger then u.lingerOn ((v.withWords f).orderAccesses i) i else u) (exec i ((v.withWords f).orderAccesses i)) := by
  have instr : f.instr = i := by rw [State.fetch_instr hf, instrOf, hi]
  simp only [State.execGroup, hf, instr]

/-! ## Waiting for completion -/

/-- The lane of a wave after a change of its lanes that leaves an Exited lane as it is. -/
theorem State.lane_modLanes (s : State) (k : Nat) (m : BitVec 32) (f : Nat → Lane → Lane) (l : Nat) (hgone : f l Lane.gone = Lane.gone) :
    ((s.modLanes k m f).wave k).lane l = if m.getLsbD l = true then f l ((s.wave k).lane l) else (s.wave k).lane l := by
  cases hk : s.waves.find? k with
  | none =>
    have absent : (s.modLanes k m f).wave k = Wave.gone ∧ s.wave k = Wave.gone := by
      constructor <;> simp [State.modLanes, State.wave, Tbl.get, State.find_modWave, hk]
    rw [absent.1, absent.2]
    show Lane.gone = if _ then f l Lane.gone else Lane.gone
    rw [hgone, ite_self]
  | some x =>
    rw [State.modLanes, State.wave_modWave s _ (by rw [hk]; rfl), Wave.lane_modLanes]
    cases hl : (s.wave k).lanes.find? l with
    | some y => simp
    | none =>
      have gone : (s.wave k).lane l = Lane.gone := by simp [Wave.lane, Tbl.get, hl]
      simp [gone, hgone]

/-- The lanes that wait for the completion of an instruction past it (R32; log entry 10). -/
theorem State.lane_lingerOn (s before : State) (i : Instr) (l : Nat) :
    let x := (s.wave before.cur.wave).lane l
    ((s.lingerOn before i).wave before.cur.wave).lane l =
      if waitsFor i = true ∧ before.mask.getLsbD l = true ∧ x.life = .ready ∧ x.pc = before.nextPc ∧
        x.handler = ((before.wave before.cur.wave).lane l).handler then { x with life := .blocked .completion } else x := by
  intro x
  cases hw : waitsFor i with
  | false => simp [State.lingerOn, hw, x]
  | true =>
    simp only [State.lingerOn, hw, ↓reduceIte, true_and]
    rw [State.lane_modLanes _ _ _ _ _ (by simp [Lane.gone])]
    simp only [Bool.and_eq_true, beq_iff_eq, x]
    split <;> simp_all [and_assoc]

/-! ## The first word of static code -/

theorem fromBytes_lt (bs : List Byte) : fromBytes bs < 256 ^ bs.length := by
  induction bs with
  | nil => exact Nat.one_pos
  | cons b bs ih =>
    have := b.isLt
    simp only [fromBytes, List.length_cons, Nat.pow_succ]
    omega

theorem fromBytes_append (as bs : List Byte) : fromBytes (as ++ bs) = fromBytes as + 256 ^ as.length * fromBytes bs := by
  induction as with
  | nil => simp [fromBytes]
  | cons a as ih => simp only [List.cons_append, fromBytes, ih, List.length_cons, Nat.pow_succ]; ring

/-- Dropping low bytes divides by a power of 256. -/
theorem fromBytes_drop (bs : List Byte) {n : Nat} (h : n ≤ bs.length) : fromBytes (bs.drop n) = fromBytes bs / 256 ^ n := by
  have split := fromBytes_append (bs.take n) (bs.drop n)
  rw [List.take_append_drop, List.length_take_of_le h] at split
  have low := fromBytes_lt (bs.take n)
  rw [List.length_take_of_le h] at low
  rw [split, Nat.add_mul_div_left _ _ (by positivity), Nat.div_eq_of_lt low, Nat.zero_add]

/-- Keeping low bytes is the remainder by a power of 256. -/
theorem fromBytes_take (bs : List Byte) {n : Nat} (h : n ≤ bs.length) : fromBytes (bs.take n) = fromBytes bs % 256 ^ n := by
  have split := fromBytes_append (bs.take n) (bs.drop n)
  rw [List.take_append_drop, List.length_take_of_le h] at split
  have low := fromBytes_lt (bs.take n)
  rw [List.length_take_of_le h] at low
  rw [split, Nat.add_mul_mod_self_left, Nat.mod_eq_of_lt low]

theorem pow_256 (n : Nat) : 256 ^ n = 2 ^ (n * 8) := by rw [Nat.mul_comm, Nat.pow_mul]

/-- The word at byte i of n bytes, little-endian (R4). -/
theorem word_of_bytes {bs : List Byte} {n i : Nat} (hlen : bs.length = n) (hi : i + 4 ≤ n) :
    (BitVec.ofNat (n * 8) (fromBytes bs)).extractLsb' (i * 8) 32 = BitVec.ofNat 32 (fromBytes ((bs.drop i).take 4)) := by
  have fits : fromBytes bs < 2 ^ (n * 8) := by
    rw [← pow_256, ← hlen]
    exact fromBytes_lt bs
  apply BitVec.eq_of_toNat_eq
  rw [fromBytes_take _ (by rw [List.length_drop]; omega), fromBytes_drop _ (by omega)]
  rw [BitVec.extractLsb'_toNat, BitVec.toNat_ofNat, BitVec.toNat_ofNat, Nat.mod_eq_of_lt fits, Nat.shiftRight_eq_div_pow, ← pow_256]
  norm_num

/-- Bytes within a range that is read. -/
theorem Memory.readBytes_slice (m : List Host.Cell) (a : Nat) {n i c : Nat} (h : i + c ≤ n) :
    ((Memory.readBytes m a n).drop i).take c = Memory.readBytes m (a + i) c := by
  apply List.ext_getElem
  · simp only [List.length_take, List.length_drop, Memory.length_readBytes]; omega
  · intro j _ _
    simp only [Memory.readBytes, List.getElem_take, List.getElem_drop, List.getElem_map, List.getElem_range, Nat.add_assoc]

/-- A core fetches a line that it holds no dirty byte of from memory (R195, R269). -/
theorem State.fetchLine_of_clean {s : State} {c line : Nat} (h : ∀ x, (s.core c).l1.find? line = some x → x.dirty = 0) :
    s.fetchLine c line = Memory.readBytes s.mem (line * 128) 128 := by
  unfold State.fetchLine
  split
  · rfl
  · next x hx =>
    apply List.ext_getElem
    · simp [Memory.length_readBytes]
    · intro i h1 h2
      simp [h x hx, State.l2Read, List.getD_eq_getElem?_getD, List.getElem?_eq_getElem h2]

/-- A word that misses the instruction cache is the line's word in memory. -/
theorem State.icRead_of_miss {s : State} {c ctx pa : Nat} {va : DWord} {gen : Word} (halign : va.toNat % 4 = 0)
    (hoff : pa % 128 = va.toNat % 128) (hclean : ∀ x, (s.core c).l1.find? (pa / 128) = some x → x.dirty = 0)
    (hmiss : ∀ x ∈ (s.core c).icache, ¬ (x.ctx = ctx ∧ x.line = va.toNat / 128 ∧ x.gen = gen)) :
    (s.icRead c ctx va pa gen).2 = BitVec.ofNat 32 (fromBytes (Memory.readBytes s.mem pa 4)) := by
  have miss : ((s.core c).icache.find? fun x => x.ctx == ctx && x.line == va.toNat / 128 && x.gen == gen) = none := by
    refine List.find?_eq_none.2 fun x hx => ?_
    simpa only [Bool.and_eq_true, beq_iff_eq, and_assoc] using hmiss x hx
  have inLine : va.toNat % 128 + 4 ≤ 128 := by omega
  have place : pa / 128 * 128 + va.toNat % 128 = pa := by omega
  simp only [State.icRead, miss, State.fetchLine_of_clean hclean]
  rw [word_of_bytes (n := 128) (Memory.length_readBytes _ _ _) inLine, Memory.readBytes_slice _ _ inLine, place]

/-- Lanes that are resident nowhere leave nothing when they fetch (R262). -/
theorem State.settleGroup_of_no_residents {s : State} {k : Nat} (m : BitVec 32)
    (h : ∀ l, ((s.wave k).lane l).resid = none ∧ ((s.wave k).lane l).hresid = none) : s.settleGroup k m = s :=
  List.foldl_fixed' (fun l => by simp [h l]) _

/-- A lane that is resident nowhere executes under no residency. -/
theorem State.residentAt_of_no_residents {s : State} {k l : Nat} (pc : DWord)
    (h : ((s.wave k).lane l).resid = none ∧ ((s.wave k).lane l).hresid = none) : s.residentAt k l pc = none := by
  simp [State.residentAt, h]

/-- Outside every region, lanes that are resident nowhere fetch static code, at generation 0 (R117). -/
theorem State.fetchFirst_static {s : State} {k : Nat} {m : BitVec 32} (hfresh : (s.wave k).fresh = false)
    (hres : ∀ l, ((s.wave k).lane l).resid = none ∧ ((s.wave k).lane l).hresid = none)
    (hregion : s.regionAt (s.ctxOf k) (s.groupPc k m) = none) :
    s.fetchFirst k m = s.fetchWord (s.coreOf k) (s.ctxOf k) (s.groupPc k m) 0 := by
  simp only [State.fetchFirst, hfresh, Bool.false_eq_true, ↓reduceIte, s.settleGroup_of_no_residents _ hres,
    State.residentAt_of_no_residents _ (hres _), hregion]

/-- Fetching a word that is aligned, translated and unpoisoned reads the instruction cache. -/
theorem State.fetchWord_of_translated {s : State} {c ctx pa : Nat} {pc : DWord} (gen : Word) (halign : pc.toNat % 4 = 0)
    (htr : s.translate c ctx pc 3 = (s, .ok pa)) (hpoison : s.poisonAt pa 4 = none) :
    s.fetchWord c ctx pc gen = ((s.icRead c ctx pc pa gen).1, .ok (s.icRead c ctx pc pa gen).2) := by
  simp only [State.fetchWord, halign, ne_eq, not_true_eq_false, ↓reduceIte, htr, hpoison]

/-- Settles O57: the turn takes the issue, the clk has the one pick, and that pick runs exec of what it fetched. -/
theorem stepRunsTheDecodedInstruction : Obligations.StepRunsTheDecodedInstruction := by
  refine ⟨?_, fun s before i l => s.lane_lingerOn before i l, ?_⟩
  · intro s long k xs m v f i s0 half s1 u w hsecond hin hboot hk hconf hfirst hpick2 hlate hfetch hdec
    have reaches : (if long then Input.issueLong k else .issue k).reaches s.mod.boot = true := by
      cases long <;> simp [Input.reaches, hboot]
    have accepted : step s = s0.issue k false := by
      rw [step_of_input hsecond hin reaches]
      exact State.accept_issue long hk rfl
    have linger : s1.cur.linger = long := rfl
    rw [accepted, State.issue_single false hconf hfirst hpick2, State.execPick_of_no_late (s := s1) half hlate,
      State.execGroup_of_fetch (s := s1) hfetch hdec, Answer.map_map, linger]
    rfl
  · intro s k m pa pc hfresh hres hregion halign htr hoff _ hpoison hclean hmiss
    rw [State.fetchFirst_static hfresh hres hregion, State.fetchWord_of_translated 0 halign htr hpoison]
    exact congrArg Except.ok (State.icRead_of_miss halign hoff hclean hmiss)

end Sys2Proof.Machine

/-! # The effect of an instruction on its wave

Reasoning rules for effects that change the executing wave alone, on the state that the checks of R137 leave: each operation says what
becomes of the wave, and `State.Becomes.frame` turns that into the frame of an obligation. -/

namespace Sys2Proof.Machine

/-! ## What the checks leave of the latches -/

/-- Noting a stale read leaves registers, latches and what the clk has shifted. -/
theorem State.noted_files (s : State) (i : Instr) (sp : Spans) (hw : (s.waves.find? s.cur.wave).isSome) :
    (s.noted i sp).cur = { s.cur with pre := some s.pre } ∧ (s.noted i sp).w.slatch = s.w.slatch ∧
      (s.noted i sp).w.lanes = s.w.lanes := by
  simp only [State.noted, State.noteStale]
  split
  · have stale : (s.snapshot.modWave s.snapshot.cur.wave Wave.setStale).w = s.w.setStale :=
      State.wave_modWave s.snapshot Wave.setStale hw
    rw [stale]
    exact ⟨rfl, rfl, rfl⟩
  · exact ⟨rfl, rfl, rfl⟩

/-- A switch point invalidates the latches once in a clk; another instruction leaves them (R77). -/
theorem State.switchFor_latches (s : State) (i : Instr) (hw : (s.waves.find? s.cur.wave).isSome) :
    (s.switchFor i).w.slatch = s.latchesLeft i s.cur.shiftedS s.w.slatch ∧
      ∀ l, ((s.switchFor i).w.lane l).latch = s.latchesLeft i (s.cur.shifted.getLsbD l) (s.w.lane l).latch := by
  cases hi : isSwitch i with
  | false => simp [State.switchFor, State.latchesLeft, hi]
  | true =>
    cases hk : s.cur.keepLatches with
    | true =>
      have kept : (s.switchFor i).w = { s.w with run := 0 } := by
        simp only [State.switchFor, hi, State.switchPoint, hk, ↓reduceIte]
        exact State.wave_modWave s (fun w => { w with run := 0 }) hw
      simp only [kept, State.latchesLeft, hi, hk, Bool.not_true, Bool.and_false, Bool.false_eq_true, ↓reduceIte]
      exact ⟨trivial, fun _ => rfl⟩
    | false =>
      have cleared : (s.switchFor i).w = s.w.clearLatches s.cur.shifted s.cur.shiftedS := by
        simp only [State.switchFor, hi, State.switchPoint, hk, ↓reduceIte, Bool.false_eq_true]
        exact State.wave_modWave s (fun w => w.clearLatches s.cur.shifted s.cur.shiftedS) hw
      simp only [cleared, State.latchesLeft, hi, hk, Bool.not_false, Bool.and_self, ↓reduceIte]
      refine ⟨rfl, fun l => ?_⟩
      simp only [Wave.clearLatches, Wave.lane, Tbl.get_mapAll]
      cases hl : s.w.lanes.find? l with
      | none => simp [Tbl.get, hl, Lane.gone]
      | some x => simp [Tbl.get, hl]

/-- The latches that the checks leave. -/
theorem State.begun_latches {s : State} {i : Instr} {sp : Spans} (h : s.Clear i sp) :
    (s.begun i sp).w.slatch = s.latchesLeft i s.cur.shiftedS s.w.slatch ∧
      ∀ l, ((s.begun i sp).w.lane l).latch = s.latchesLeft i (s.cur.shifted.getLsbD l) (s.w.lane l).latch := by
  obtain ⟨soft, hpre, -, -⟩ := s.checked_soft i sp h.wave
  obtain ⟨-, -, -, slatch₁, lane₁⟩ := ((s.noted i sp).switchFor i).shadowFor_soft i (usesOf i sp) (scalarOf i) (nwOf i)
    (by rw [soft.there]; exact h.wave) (by rw [hpre]; rfl) (State.checked_room h)
  obtain ⟨-, -, -, slatch₂, lane₂⟩ := (s.covered i sp).noteUse_soft i (usesOf i sp)
    (by rw [(State.covered_soft h).1.there]; exact h.wave) (by rw [(State.covered_soft h).2]; rfl)
  obtain ⟨cur, slatch, lanes⟩ := s.noted_files i sp h.wave
  obtain ⟨slatch', lane'⟩ := (s.noted i sp).switchFor_latches i (by rw [(s.noted_soft i sp h.wave).1.there]; exact h.wave)
  simp only [State.latchesLeft, cur, slatch, Wave.lane, lanes] at slatch' lane'
  exact ⟨(slatch₂.trans slatch₁).trans slatch', fun l => (congrArg Lane.latch ((lane₂ l).trans (lane₁ l))).trans (lane' l)⟩

/-! ## What the checks leave of joins, syncs and lives -/

namespace State.SoftFrom
variable {s b : State} (h : s.SoftFrom b)
include h

theorem w_joins : b.w.joins = s.w.joins := by have := congrArg Wave.joins h.kept; exact this
theorem w_sync : b.w.sync = s.w.sync := by have := congrArg Wave.sync h.kept; exact this
theorem join (n : Nat) : b.w.join n = s.w.join n := by simp only [Wave.join, h.w_joins]
theorem life (l : Nat) : (b.w.lane l).life = (s.w.lane l).life := (h.lane l).2.2.2.2
theorem lanePc (l : Nat) : (b.w.lane l).pc = (s.w.lane l).pc := (h.lane l).2.2.2.1
theorem handler (l : Nat) : (b.w.lane l).handler = (s.w.lane l).handler := by
  have := congrArg Lane.handler (h.lane l).2.1; exact this
theorem heldOn (l n : Nat) : (b.w.lane l).heldOn n = (s.w.lane l).heldOn n := by simp only [Lane.heldOn, h.life]
theorem w_live : b.w.live = s.w.live := by simp only [Wave.live, Lane.live, h.life]
theorem mask_eq : b.mask = s.mask := h.mask
theorem holdOpen (n : Nat) (m : BitVec 32) : b.w.holdOpen n m = s.w.holdOpen n m := by
  simp only [Wave.holdOpen, Wave.which, Lane.live, Lane.away, h.life, h.handler, h.heldOn]

end State.SoftFrom

/-! ## A state that differs in its executing wave alone -/

/-- t is b but for its executing wave, which has become x. -/
structure State.Becomes (b t : State) (x : Wave) : Prop where
  outside : { t with waves := b.waves } = b
  others : ∀ k, k ≠ b.cur.wave → t.waves.find? k = b.waves.find? k
  wave : t.waves.find? b.cur.wave = some x

namespace State.Becomes

theorem refl {b : State} (hw : (b.waves.find? b.cur.wave).isSome) : b.Becomes b b.w := by
  obtain ⟨x, hx⟩ := Option.isSome_iff_exists.1 hw
  exact ⟨rfl, fun _ _ => rfl, by simp [State.w, State.wave, Tbl.get, hx]⟩

variable {b t : State} {x : Wave} (h : b.Becomes t x)
include h

theorem cur : t.cur = b.cur := by have := congrArg State.cur h.outside; exact this
theorem nextPc : t.nextPc = b.nextPc := by simp only [State.nextPc, h.cur]
theorem wave_eq : t.wave b.cur.wave = x := by simp only [State.wave, Tbl.get, h.wave, Option.getD_some]
theorem w_eq : t.w = x := by simp only [State.w, h.cur, h.wave_eq]

/-- A change of the executing wave. -/
theorem modWave (f : Wave → Wave) : b.Becomes (t.modWave t.cur.wave f) (f x) where
  outside := h.outside
  others k hk := by rw [State.find_modWave, h.cur, if_neg (Ne.symm hk), h.others k hk]
  wave := by rw [State.find_modWave, h.cur, if_pos rfl, h.wave]; rfl

theorem modWave_eq {f : Wave → Wave} {y : Wave} (hf : f x = y) : b.Becomes (t.modWave t.cur.wave f) y := hf ▸ h.modWave f

/-- A change of lanes of the executing wave. -/
theorem modLanes (m : BitVec 32) (f : Nat → Lane → Lane) : b.Becomes (t.modLanes t.cur.wave m f) (x.modLanes m f) :=
  h.modWave fun w => w.modLanes m f

/-- A change of one lane of the executing wave. -/
theorem modLane (l : Nat) (f : Lane → Lane) : b.Becomes (t.modLane t.cur.wave l f) (x.modLane l f) :=
  h.modWave fun w => w.modLane l f

end State.Becomes

/-! ## Lanes that go on, and lanes that are Held -/

/-- Lanes of a wave go on at an address. -/
def Wave.sendTo (w : Wave) (m : BitVec 32) (pc : DWord) : Wave := w.modLanes m fun _ l => { l with pc := pc, life := .ready }

/-- Lanes of a wave are Held, to go on at an address. -/
def Wave.hold (w : Wave) (m : BitVec 32) (on : Nat) (next : DWord) : Wave := w.modLanes m fun _ l => { l with life := .held on next }

/-- In a clk that has frozen nothing, `advance` sends lanes past the instruction. -/
theorem State.Becomes.advance {b t : State} {x : Wave} (h : b.Becomes t x) (hf : b.cur.frozenLanes = 0) (m : BitVec 32) :
    b.Becomes (t.advance m) (x.sendTo m b.nextPc) := by
  rw [t.advance_eq m (by rw [h.cur, hf]), ← h.nextPc]
  exact h.modLanes m _

/-- The lanes of a mask are there. -/
def Wave.Has (w : Wave) (m : BitVec 32) : Prop := ∀ l, m.getLsbD l = true → (w.lanes.find? l).isSome = true

theorem Wave.lane_modLanes_of_has {w : Wave} {m : BitVec 32} (h : w.Has m) (f : Nat → Lane → Lane) (l : Nat) :
    (w.modLanes m f).lane l = if m.getLsbD l = true then f l (w.lane l) else w.lane l := by
  rw [Wave.lane_modLanes]
  by_cases hl : m.getLsbD l = true
  · simp [hl, h l hl]
  · simp [hl]

theorem Wave.lane_sendTo {w : Wave} {m : BitVec 32} (h : w.Has m) (pc : DWord) (l : Nat) :
    (w.sendTo m pc).lane l = if m.getLsbD l = true then { w.lane l with pc := pc, life := .ready } else w.lane l :=
  Wave.lane_modLanes_of_has h _ l

theorem Wave.lane_hold {w : Wave} {m : BitVec 32} (h : w.Has m) (on : Nat) (next : DWord) (l : Nat) :
    (w.hold m on next).lane l = if m.getLsbD l = true then { w.lane l with life := .held on next } else w.lane l :=
  Wave.lane_modLanes_of_has h _ l

/-- A wave that differs from another in its lanes alone. -/
def Wave.OnlyLanes (w x : Wave) : Prop := { x with lanes := w.lanes } = w

namespace Wave.OnlyLanes
variable {w x : Wave} (h : w.OnlyLanes x)

theorem refl (w : Wave) : w.OnlyLanes w := rfl

include h

theorem modLanes (m : BitVec 32) (f : Nat → Lane → Lane) : w.OnlyLanes (x.modLanes m f) := h
theorem sendTo (m : BitVec 32) (pc : DWord) : w.OnlyLanes (x.sendTo m pc) := h.modLanes m _
theorem hold (m : BitVec 32) (on : Nat) (next : DWord) : w.OnlyLanes (x.hold m on next) := h.modLanes m _

end Wave.OnlyLanes

/-- A wave that differs from another only in its lanes, of these in nothing but PC and life, and there only in those that may move. -/
structure Wave.Moves (w x : Wave) (may : Nat → Bool) : Prop where
  rest : w.OnlyLanes x
  lanes : ∀ l, { x.lane l with pc := (w.lane l).pc, life := (w.lane l).life } = w.lane l
  others : ∀ l, may l = false → (x.lane l).pc = (w.lane l).pc ∧ (x.lane l).life = (w.lane l).life

namespace Wave.Moves
variable {w x : Wave} {may : Nat → Bool} (h : w.Moves x may)
include h

theorem kept : w.Kept x := by
  have := congrArg (fun y : Wave => { y with
    s := w.s, slatch := w.slatch, run := w.run, shadow := w.shadow, dirty := w.dirty, used := w.used, fcsr := w.fcsr, wstat := w.wstat }) h.rest
  exact this

theorem laneKept (l : Nat) : (w.lane l).Kept (x.lane l) := by
  have := congrArg (fun y : Lane => { y with v := (w.lane l).v, latch := (w.lane l).latch }) (h.lanes l)
  exact this

theorem s_eq : x.s = w.s := by have := congrArg Wave.s h.rest; exact this
theorem slatch_eq : x.slatch = w.slatch := by have := congrArg Wave.slatch h.rest; exact this
theorem fcsr_eq : x.fcsr = w.fcsr := by have := congrArg Wave.fcsr h.rest; exact this
theorem wstat_eq : x.wstat = w.wstat := by have := congrArg Wave.wstat h.rest; exact this
theorem v_eq (l : Nat) : (x.lane l).v = (w.lane l).v := by have := congrArg Lane.v (h.lanes l); exact this
theorem latch_eq (l : Nat) : (x.lane l).latch = (w.lane l).latch := by have := congrArg Lane.latch (h.lanes l); exact this

end Wave.Moves

/-- A change of a wave's own fields: not of its lanes, registers and latches, nor of FCSR and WSTAT. -/
structure OwnChange (g : Wave → Wave) : Prop where
  kept : ∀ w w' : Wave, w.Kept w' → (g w).Kept (g w')
  lanes : ∀ w, (g w).lanes = w.lanes
  s : ∀ w, (g w).s = w.s
  slatch : ∀ w, (g w).slatch = w.slatch
  fcsr : ∀ w, (g w).fcsr = w.fcsr
  wstat : ∀ w, (g w).wstat = w.wstat

theorem OwnChange.none : OwnChange id :=
  ⟨fun _ _ h => h, fun _ => rfl, fun _ => rfl, fun _ => rfl, fun _ => rfl, fun _ => rfl⟩

theorem OwnChange.joins (f : Tbl Join → Tbl Join) : OwnChange fun w => { w with joins := f w.joins } where
  kept w w' h := by
    have := congrArg (fun y : Wave => { y with joins := f y.joins }) h
    exact this
  lanes _ := rfl
  s _ := rfl
  slatch _ := rfl
  fcsr _ := rfl
  wstat _ := rfl

theorem OwnChange.sync (y : Sync) : OwnChange fun w => { w with sync := y } where
  kept w w' h := by
    have := congrArg (fun x : Wave => { x with sync := y }) h
    exact this
  lanes _ := rfl
  s _ := rfl
  slatch _ := rfl
  fcsr _ := rfl
  wstat _ := rfl

/-- An effect that, after the checks, changes fields of the wave and moves lanes leaves everything else as it was. -/
theorem State.Becomes.frame {s t : State} {i : Instr} {sp : Spans} {g : Wave → Wave} {x : Wave} {moved : Nat → Bool}
    (ht : (s.begun i sp).Becomes t x) (h : s.Clear i sp) (hg : OwnChange g)
    (hx : (g (s.begun i sp).w).Moves x fun l => s.mask.getLsbD l || moved l) :
    s.Outside t ∧ s.Frame t i sp { wave := g, moved := moved } := by
  obtain ⟨soft, -⟩ := State.begun_soft h
  obtain ⟨wstat, -⟩ := State.begun_marks h
  obtain ⟨slatch, latch⟩ := State.begun_latches h
  generalize s.begun i sp = b at *
  have lane : ∀ l, (g b.w).lane l = b.w.lane l := fun l => by simp only [Wave.lane, hg.lanes]
  refine ⟨?_, ?_⟩
  · have := congrArg (fun u : State => { u with waves := s.waves, cur := s.cur }) ht.outside
    exact Eq.trans this soft.elsewhere.1
  · have wave := ht.w_eq
    constructor
    case waves => exact fun k hk => (ht.others k (by rwa [soft.wave])).trans (soft.elsewhere.2 k hk)
    case kept => rw [wave]; exact (hg.kept _ _ soft.kept).trans hx.kept
    case lanes =>
      intro l
      have k := hx.laneKept l
      rw [lane] at k
      rw [wave]
      exact (soft.lane l).2.1.trans k
    case regs =>
      intro l r
      have v : (x.lane l).v = (s.w.lane l).v := by rw [hx.v_eq, lane, (soft.lane l).2.2.1]
      simp only [wave, Lane.reg, v, Option.getD_none]
    case sregs =>
      intro m
      simp only [wave, Wave.sreg, hx.s_eq, hg.s, soft.sregs, Option.getD_none]
    case others =>
      intro l hl hm
      obtain ⟨pc, life⟩ := hx.others l (Bool.or_eq_false_iff.2 ⟨hl, hm⟩)
      rw [wave, pc, life, lane]
      exact ⟨soft.lanePc l, soft.life l⟩
    case latch => intro l; rw [wave, hx.latch_eq, lane, latch]
    case slatch => rw [wave, hx.slatch_eq, hg.slatch, slatch]
    case fcsr => rw [wave, hx.fcsr_eq, hg.fcsr, soft.fcsr]
    case wstat => rw [wave, hx.wstat_eq, hg.wstat, wstat]

/-- An instruction whose checks pass answers what its effect makes of the state that they leave. -/
theorem State.run_answers {s : State} {i : Instr} {sp : Spans} (h : s.Clear i sp) {f : State → State} {P : State → Prop}
    (hf : P (f (s.begun i sp))) : ∃ t, (Host.Outcome.next (s.run i sp f) : Answer) = .next t ∧ P t :=
  ⟨_, rfl, by rwa [State.run_clear h f]⟩

end Sys2Proof.Machine

/-! # Joins and syncs

What becomes of the executing wave at JENR, JWAIT and SYNCW (R46, R47, R403, R456, R457), and the obligation on them. -/

namespace Sys2Proof.Machine

/-! ## Masks -/

theorem getLsbD_bit {l : Nat} (hl : l < 32) (j : Nat) : (1#32 <<< l).getLsbD j = decide (j = l) := by
  have one := maskOf_lanesOf_bit [l] j
  simp only [maskOf, List.foldl_cons, List.foldl_nil, List.contains_cons, List.contains_nil, Bool.or_false] at one
  rw [show (0 : BitVec 32) ||| 1#32 <<< l = 1#32 <<< l from BitVec.zero_or] at one
  rw [one]
  by_cases h : j = l <;> simp [h, hl]

theorem exists_lane {m : BitVec 32} (h : m ≠ 0) : ∃ l, m.getLsbD l = true := by
  by_contra empty
  push Not at empty
  exact h (BitVec.eq_of_getLsbD_eq fun l _ => by rw [Bool.eq_false_iff.2 (empty l), noLane])

theorem getLsbD_and_not (a m : BitVec 32) (l : Nat) : (a &&& ~~~ m).getLsbD l = (a.getLsbD l && !m.getLsbD l) := by
  rw [BitVec.getLsbD_and, BitVec.getLsbD_not]
  by_cases hl : l < 32
  · simp only [hl, decide_true, Bool.true_and]
  · simp only [BitVec.getLsbD_of_ge a l (by omega), Bool.false_and]

theorem Wave.getLsbD_which (w : Wave) (p : Lane → Bool) (l : Nat) : (w.which p).getLsbD l = (decide (l < 32) && p (w.lane l)) := by
  simp only [Wave.which, maskOf_lanesOf_bit]
  by_cases h : l < 32 <;> simp [h]

theorem Wave.getLsbD_live (w : Wave) (l : Nat) : w.live.getLsbD l = (decide (l < 32) && (w.lane l).live) :=
  w.getLsbD_which Lane.live l

/-! ## Releasing Held lanes -/

theorem Lane.heldOn_of_life {x : Lane} {n : Nat} {next : DWord} (h : x.life = .held n next) : x.heldOn n = true := by
  simp [Lane.heldOn, h]

theorem Lane.heldOn_of_ready {x : Lane} (h : x.life = .ready) (n : Nat) : x.heldOn n = false := by simp [Lane.heldOn, h]

/-- A lane that is released is Ready at the address that it was Held with. -/
theorem Lane.release_of_life {x : Lane} {n : Nat} {next : DWord} (h : x.life = .held n next) :
    x.release = { x with pc := next, life := .ready } := by
  simp only [Lane.release, h]

/-- A release changes nothing of a lane but its PC and its life. -/
theorem Lane.release_moves (x : Lane) : ∃ pc life, x.release = { x with pc := pc, life := life } := by
  unfold Lane.release
  split
  · exact ⟨_, _, rfl⟩
  · exact ⟨x.pc, x.life, rfl⟩

/-- Every lane Held on a join register, or at SYNCW (4), is released. -/
def Wave.releaseHeld (w : Wave) (n : Nat) : Wave := { w with lanes := w.lanes.mapAll fun _ l => if l.heldOn n then l.release else l }

theorem Wave.lane_releaseHeld (w : Wave) (n l : Nat) :
    (w.releaseHeld n).lane l = if (w.lane l).heldOn n then (w.lane l).release else w.lane l := by
  simp only [Wave.releaseHeld, Wave.lane, Tbl.get_mapAll]
  cases h : w.lanes.find? l with
  | some x => exact if_pos rfl
  | none => simp [Tbl.get, h, Lane.heldOn, Lane.gone]

theorem Wave.OnlyLanes.releaseHeld {w x : Wave} (h : w.OnlyLanes x) (n : Nat) : w.OnlyLanes (x.releaseHeld n) := h

theorem Wave.Has.releaseHeld {w : Wave} {m : BitVec 32} (h : w.Has m) (n : Nat) : (w.releaseHeld n).Has m := fun l hl => by
  simp only [Wave.releaseHeld, Tbl.find_mapAll, Option.isSome_map]
  exact h l hl

/-! ## Lives that end an arrival -/

/-- A wave whose lanes differ from another's in PC and life alone, and only where they may move. -/
theorem Wave.Moves.of_lanes {w x : Wave} {may : Nat → Bool} (rest : w.OnlyLanes x)
    (lanes : ∀ l, x.lane l = w.lane l ∨ may l = true ∧ ∃ pc life, x.lane l = { w.lane l with pc := pc, life := life }) : w.Moves x may where
  rest := rest
  lanes l := by
    rcases lanes l with same | ⟨-, pc, life, moved⟩
    · rw [same]
    · rw [moved]
  others l hl := by
    rcases lanes l with same | ⟨may', -⟩
    · rw [same]; exact ⟨rfl, rfl⟩
    · rw [hl] at may'; cases may'

/-- The lanes of a group go on at an address, and with them those Held on a register (or at SYNCW, 4). -/
def Wave.Released (w x : Wave) (mask : BitVec 32) (n : Nat) (next : DWord) : Prop :=
  ∀ l, x.lane l = if mask.getLsbD l = true then { w.lane l with pc := next, life := .ready }
    else if (w.lane l).heldOn n = true then (w.lane l).release else w.lane l

/-- Some lanes of a group are Held, and its others go on at an address. -/
def Wave.Waits (w x : Wave) (mask m : BitVec 32) (n : Nat) (next : DWord) : Prop :=
  ∀ l, x.lane l = if m.getLsbD l = true then { w.lane l with life := .held n next }
    else if mask.getLsbD l = true then { w.lane l with pc := next, life := .ready } else w.lane l

section
variable {w v : Wave} {mask m : BitVec 32} (same : v.lanes = w.lanes) (has : w.Has mask)
include same

theorem Wave.lane_congr (l : Nat) : v.lane l = w.lane l := by simp only [Wave.lane, same]

include has

theorem Wave.Has.congr : v.Has mask := fun l hl => by rw [same]; exact has l hl

/-- Releasing a register's lanes and sending the group, which is Ready, past its instruction. -/
theorem Wave.released_of_sendTo (ready : ∀ l, mask.getLsbD l = true → (w.lane l).life = .ready) (n : Nat) (next : DWord) :
    w.Released ((v.releaseHeld n).sendTo mask next) mask n next := fun l => by
  rw [Wave.lane_sendTo ((has.congr same).releaseHeld n), Wave.lane_releaseHeld, Wave.lane_congr same]
  by_cases hl : mask.getLsbD l = true
  · simp only [hl, ↓reduceIte, Lane.heldOn_of_ready (ready l hl), Bool.false_eq_true]
  · simp only [if_neg hl]

/-- Holding the group on a register and then releasing the register's lanes. -/
theorem Wave.released_of_hold (n : Nat) (next : DWord) : w.Released ((v.hold mask n next).releaseHeld n) mask n next := fun l => by
  rw [Wave.lane_releaseHeld, Wave.lane_hold (has.congr same), Wave.lane_congr same]
  by_cases hl : mask.getLsbD l = true
  · rw [if_pos hl, if_pos hl, if_pos (Lane.heldOn_of_life rfl), Lane.release_of_life rfl]
  · rw [if_neg hl, if_neg hl]

/-- Sending some lanes of the group on and holding the others. -/
theorem Wave.waits_of_hold (sub : ∀ l, m.getLsbD l = true → mask.getLsbD l = true) (n : Nat) (next : DWord) :
    w.Waits ((v.sendTo (mask &&& ~~~ m) next).hold m n next) mask m n next := fun l => by
  have others : v.Has (mask &&& ~~~ m) := fun j hj => has.congr same j (by
    rw [getLsbD_and_not, Bool.and_eq_true] at hj
    exact hj.1)
  have held : (v.sendTo (mask &&& ~~~ m) next).Has m := fun j hj => by
    simp only [Wave.sendTo, Wave.modLanes, Tbl.find_mapAll, Option.isSome_map]
    exact has.congr same j (sub j hj)
  rw [Wave.lane_hold held, Wave.lane_sendTo others, Wave.lane_congr same]
  simp only [getLsbD_and_not]
  by_cases hl : m.getLsbD l = true
  · simp only [hl, ↓reduceIte, Bool.not_true, Bool.and_false, Bool.false_eq_true]
  · simp only [hl, ↓reduceIte, Bool.not_false, Bool.and_true, Bool.false_eq_true]

/-- Holding the whole group. -/
theorem Wave.waits_of_hold_all (n : Nat) (next : DWord) : w.Waits (v.hold mask n next) mask mask n next := fun l => by
  rw [Wave.lane_hold (has.congr same), Wave.lane_congr same]
  by_cases hl : mask.getLsbD l = true
  · rw [if_pos hl, if_pos hl]
  · rw [if_neg hl, if_neg hl, if_neg hl]

end

/-- Where the group is live, as many lanes are live as before. -/
theorem Wave.Waits.live {w x : Wave} {mask m : BitVec 32} {n : Nat} {next : DWord} (h : w.Waits x mask m n next)
    (alive : ∀ l, mask.getLsbD l = true → (w.lane l).live = true) (sub : ∀ l, m.getLsbD l = true → mask.getLsbD l = true) :
    x.live = w.live := by
  apply BitVec.eq_of_getLsbD_eq
  intro l _
  rw [Wave.getLsbD_live, Wave.getLsbD_live, h l]
  split
  · rw [alive l (sub l ‹_›)]
    rfl
  · split
    · rw [alive l ‹_›]
      rfl
    · rfl

/-- A live lane outside the Held ones of a waiting group that was not Held is not Held then either. -/
theorem Wave.Waits.free {w x : Wave} {mask m : BitVec 32} {n l : Nat} {next : DWord} (h : w.Waits x mask m n next)
    (live : (w.lane l).live = true) (hm : m.getLsbD l = false) (free : ∀ on next, (w.lane l).life ≠ .held on next) :
    (x.lane l).live = true ∧ ∀ on next, (x.lane l).life ≠ .held on next := by
  rw [h l, hm, if_neg Bool.false_ne_true]
  split
  · exact ⟨rfl, fun _ _ held => by cases held⟩
  · exact ⟨live, free⟩

section
variable {s t : State} {i : Instr} {sp : Spans} {g : Wave → Wave} {x : Wave} {m : BitVec 32} {n : Nat}
  (ht : (s.begun i sp).Becomes t x) (h : s.Clear i sp) (hg : OwnChange g)
  (rest : (g (s.begun i sp).w).OnlyLanes x)
include ht h hg rest

/-- What an arrival that completes a join or a sync answers. -/
theorem State.Becomes.released (lanes : (s.begun i sp).w.Released x s.mask n s.nextPc) :
    s.Outside t ∧ s.Frame t i sp { wave := g, moved := fun l => (s.w.lane l).heldOn n } ∧ (t.At s.mask fun _ => s.nextPc) ∧
      ∀ l next, s.mask.getLsbD l = false → (s.w.lane l).life = .held n next → (t.w.lane l).pc = next ∧ (t.w.lane l).life = .ready := by
  obtain ⟨soft, -⟩ := State.begun_soft h
  have own : ∀ l, (g (s.begun i sp).w).lane l = (s.begun i sp).w.lane l := fun l => by simp only [Wave.lane, hg.lanes]
  have moves : (g (s.begun i sp).w).Moves x fun l => s.mask.getLsbD l || (s.w.lane l).heldOn n := by
    refine .of_lanes rest fun l => ?_
    rw [own, lanes l, soft.heldOn]
    by_cases hl : s.mask.getLsbD l = true
    · exact .inr ⟨by rw [hl]; rfl, _, _, if_pos hl⟩
    · rw [if_neg hl]
      by_cases held : (s.w.lane l).heldOn n = true
      · rw [if_pos held]
        exact .inr ⟨by rw [held, Bool.or_true], Lane.release_moves _⟩
      · exact .inl (if_neg held)
  obtain ⟨outside, frame⟩ := ht.frame h hg moves
  refine ⟨outside, frame, fun l hl => ?_, fun l next hl life => ?_⟩
  · rw [ht.w_eq, lanes l, if_pos hl]
    exact ⟨rfl, rfl⟩
  · rw [← soft.life] at life
    rw [ht.w_eq, lanes l, hl, if_neg Bool.false_ne_true, if_pos (Lane.heldOn_of_life life), Lane.release_of_life life]
    exact ⟨rfl, rfl⟩

/-- What an arrival that completes nothing answers. -/
theorem State.Becomes.waits (sub : ∀ l, m.getLsbD l = true → s.mask.getLsbD l = true)
    (lanes : (s.begun i sp).w.Waits x s.mask m n s.nextPc) :
    s.Outside t ∧ s.Frame t i sp { wave := g } ∧ (t.At (s.mask &&& ~~~ m) fun _ => s.nextPc) ∧
      ∀ l, m.getLsbD l = true → (t.w.lane l).life = .held n s.nextPc ∧ (t.w.lane l).pc = (s.w.lane l).pc := by
  obtain ⟨soft, -⟩ := State.begun_soft h
  have own : ∀ l, (g (s.begun i sp).w).lane l = (s.begun i sp).w.lane l := fun l => by simp only [Wave.lane, hg.lanes]
  have moves : (g (s.begun i sp).w).Moves x fun l => s.mask.getLsbD l || false := by
    refine .of_lanes rest fun l => ?_
    rw [own, lanes l, Bool.or_false]
    by_cases hm : m.getLsbD l = true
    · rw [if_pos hm]
      exact .inr ⟨sub l hm, _, _, rfl⟩
    · rw [if_neg hm]
      by_cases hl : s.mask.getLsbD l = true
      · exact .inr ⟨hl, _, _, if_pos hl⟩
      · exact .inl (if_neg hl)
  obtain ⟨outside, frame⟩ := ht.frame h hg moves
  refine ⟨outside, frame, fun l hl => ?_, fun l hm => ?_⟩
  · rw [getLsbD_and_not, Bool.and_eq_true, Bool.not_eq_true'] at hl
    obtain ⟨hl, hm⟩ := hl
    rw [ht.w_eq, lanes l, hm, if_neg Bool.false_ne_true, if_pos hl]
    exact ⟨rfl, rfl⟩
  · rw [ht.w_eq, lanes l, if_pos hm]
    exact ⟨rfl, soft.lanePc l⟩

/-- What an instruction answers that changes fields of the wave and goes on. -/
theorem State.Becomes.goesOn (lanes : ∀ l, x.lane l =
      if s.mask.getLsbD l = true then { (s.begun i sp).w.lane l with pc := s.nextPc, life := .ready } else (s.begun i sp).w.lane l) :
    s.Outside t ∧ s.Frame t i sp { wave := g } ∧ t.At s.mask fun _ => s.nextPc := by
  have noneHeld : (s.begun i sp).w.Waits x s.mask 0 0 s.nextPc := fun l => by
    simp only [lanes l, noLane, Bool.false_eq_true, ↓reduceIte]
  obtain ⟨outside, frame, at_, -⟩ := ht.waits h hg rest (fun l hl => by rw [noLane] at hl; cases hl) noneHeld
  rw [show s.mask &&& ~~~ (0 : BitVec 32) = s.mask from BitVec.and_allOnes] at at_
  exact ⟨outside, frame, at_⟩

end

/-! ## Waves that go on as they are -/

/-- With a live lane that is not Held, a wave is in no deadlock (R48). -/
theorem State.Becomes.no_deadlock {b t : State} {x : Wave} (ht : b.Becomes t x) {l : Nat} (hl : l < 32) (live : (x.lane l).live = true)
    (free : ∀ on next, (x.lane l).life ≠ .held on next) : t.deadlock b.cur.wave = t := by
  simp only [State.deadlock, ht.wave_eq]
  refine if_pos (.inr fun same => ?_)
  have bit := congrArg (fun m : BitVec 32 => m.getLsbD l) same
  simp only [Wave.getLsbD_which, Wave.getLsbD_live, hl, live, decide_true, Bool.true_and] at bit
  cases life : (x.lane l).life with
  | held on next => exact free on next life
  | _ => cases bit

/-- Where every lane that a pending sync waits for is live, no sync is broken (R457). -/
theorem State.Becomes.no_brokenSync {b t : State} {x : Wave} (ht : b.Becomes t x)
    (h : ∀ p, x.sync.pending = some p → p.1 &&& ~~~ x.live = 0) : t.brokenSync b.cur.wave = t := by
  simp only [State.brokenSync, ht.wave_eq]
  split
  · next hp => rw [if_pos (h _ hp)]
  · rfl

/-- The lanes of the executing group are there in the wave that the checks leave. -/
theorem State.Clear.has {s : State} {i : Instr} {sp : Spans} (h : s.Clear i sp) : (s.begun i sp).w.Has s.mask := fun l hl => by
  rw [((State.begun_soft h).1.lane l).1]
  exact h.lanes l hl

/-! ## Joins -/

/-- Removing a key undoes a change at it. -/
theorem Tbl.del_put {α : Type} (t : Tbl α) (k : Nat) (v : α) : Tbl.del k (Tbl.put k v t) = Tbl.del k t := by
  induction t with
  | nil => simp [Tbl.put, Tbl.del]
  | cons p t ih =>
    obtain ⟨j, y⟩ := p
    simp only [Tbl.del] at ih
    simp only [Tbl.put]
    split
    · simp [Tbl.del]
    · split
      · simp [Tbl.del, *]
      · simp [Tbl.del, List.filter_cons, ih]

/-- Lanes arrive at join register n, which holds j. -/
def Wave.arriveJoin (w : Wave) (n : Nat) (j : Join) (m : BitVec 32) : Wave :=
  { w with joins := w.joins.put n { j with arrived := j.arrived ||| m } }

/-- A join completes where the arrivals make up the enrolled mask and no lane holds it open (R46, R47). -/
theorem Wave.completeJoin_arriveJoin (w : Wave) (n : Nat) {j : Join} (m : BitVec 32) (enrolled : j.enrolled ≠ 0) :
    (w.arriveJoin n j m).completeJoin n m =
      if j.arrived ||| m = j.enrolled ∧ j.enrolled &&& w.holdOpen n m = 0 then ({ w with joins := w.joins.del n } : Wave).releaseHeld n
      else w.arriveJoin n j m := by
  have join : (w.arriveJoin n j m).join n = { j with arrived := j.arrived ||| m } := by
    simp [Wave.arriveJoin, Wave.join, Tbl.get_put]
  have holdOpen : (w.arriveJoin n j m).holdOpen n m = w.holdOpen n m := rfl
  have del : (w.arriveJoin n j m).joins.del n = w.joins.del n := Tbl.del_put _ _ _
  simp only [Wave.completeJoin, join, holdOpen, enrolled, ne_eq, not_false_eq_true, true_and, del]
  rfl

/-- A join register that enrols lanes: the arrivals of an empty one are stale (R403). -/
def Join.enrol (j : Join) (m : BitVec 32) : Join :=
  { enrolled := j.enrolled ||| m, arrived := if j.enrolled = 0 then 0 else j.arrived }

/-- JENR enrols the group (R46, R403). -/
theorem jenr_enrols {o : Ops} {s : State} (h : s.Clear (.jenr o) spans1) :
    ∃ t, exec (.jenr o) s = .next t ∧ s.Outside t ∧
      s.Frame t (.jenr o) spans1 { wave := fun w => { w with joins := w.joins.put o.a.toNat ((s.w.join o.a.toNat).enrol s.mask) } } ∧
      t.At s.mask fun _ => s.nextPc := by
  obtain ⟨soft, -⟩ := State.begun_soft h
  have group := soft.group h.toGroup
  have effect := ((State.Becomes.refl group.wave).modWave fun w => { w with
    joins := w.joins.put o.a.toNat (((s.begun (.jenr o) spans1).w.join o.a.toNat).enrol (s.begun (.jenr o) spans1).mask) }).advance
      group.frozenLanes (s.begun (.jenr o) spans1).mask
  have answer := effect.goesOn h (OwnChange.joins fun t => t.put o.a.toNat
      (((s.begun (.jenr o) spans1).w.join o.a.toNat).enrol (s.begun (.jenr o) spans1).mask)) ((Wave.OnlyLanes.refl _).sendTo _ _) fun l => by
    rw [soft.mask_eq, soft.nextPc]
    exact Wave.lane_sendTo (h.has.congr rfl) _ l
  rw [← soft.join, ← soft.mask_eq]
  rw [← soft.mask_eq] at answer
  exact State.run_answers h answer

/-- The lanes m of a group arrive at register n, which holds j, if any lane does; what that completes completes. -/
def Wave.meetJoin (n : Nat) (j : Join) (m : BitVec 32) (w : Wave) : Wave :=
  if m = 0 then w else (w.arriveJoin n j m).completeJoin n m

/-- The effect of JWAIT past its checks. -/
def jwaitEffect (n : Nat) (s : State) : State :=
  let m := s.mask &&& (s.w.join n).enrolled
  let t := s.modWave s.cur.wave (Wave.meetJoin n (s.w.join n) m)
  if m ≠ 0 ∧ (t.w.joins.find? n).isSome then
    let u := t.advance (s.mask &&& ~~~ m)
    (u.modLanes u.cur.wave m fun _ l => { l with life := .held n u.nextPc }).deadlock s.cur.wave
  else t.advance s.mask

theorem exec_jwait (o : Ops) (s : State) : exec (.jwait o) s = .next (s.run (.jwait o) spans1 (jwaitEffect o.a.toNat)) := rfl

section
variable {b : State} {n : Nat} {j : Join} {m : BitVec 32} {x : Wave} (there : (b.waves.find? b.cur.wave).isSome)
  (hf : b.cur.frozenLanes = 0) (hj : b.w.join n = j) (hm : b.mask &&& j.enrolled = m) (meet : b.w.meetJoin n j m = x)
include there hf hj hm meet

/-- Where no lane of the group is enrolled, or the register has been emptied, the group goes on. -/
theorem jwaitEffect_goes (h : m = 0 ∨ x.joins.find? n = none) : b.Becomes (jwaitEffect n b) (x.sendTo b.mask b.nextPc) := by
  subst hj hm
  have arrived := (State.Becomes.refl there).modWave_eq meet
  have goes : ¬ (b.mask &&& (b.w.join n).enrolled ≠ 0 ∧ (x.joins.find? n).isSome = true) := by
    rintro ⟨arriving, stands⟩
    rcases h with h | h
    · exact arriving h
    · rw [h] at stands
      cases stands
  simp only [jwaitEffect, arrived.w_eq, if_neg goes]
  exact arrived.advance hf _

/-- Where the register stands, its lanes are Held and the others of the group go on, while some live lane is not Held. -/
theorem jwaitEffect_holds {y : Wave} (hy : (x.sendTo (b.mask &&& ~~~ m) b.nextPc).hold m n b.nextPc = y)
    (arriving : m ≠ 0) (stands : (x.joins.find? n).isSome = true) {l : Nat} (hl : l < 32) (live : (y.lane l).live = true)
    (free : ∀ on next, (y.lane l).life ≠ .held on next) : b.Becomes (jwaitEffect n b) y := by
  subst hj hm hy
  have arrived := (State.Becomes.refl there).modWave_eq meet
  have gone := arrived.advance hf (b.mask &&& ~~~ (b.mask &&& (b.w.join n).enrolled))
  have held := gone.modLanes (b.mask &&& (b.w.join n).enrolled) fun _ l => { l with life := .held n b.nextPc }
  simp only [jwaitEffect, arrived.w_eq, if_pos (And.intro arriving stands), gone.nextPc]
  rw [held.no_deadlock hl live free]
  exact held

end

section
variable {o : Ops} {s : State} (h : s.Clear (.jwait o) spans1)
include h

/-- JWAIT on a register that enrols none of the group (R46). -/
theorem jwait_passes (hm : s.mask &&& (s.w.join o.a.toNat).enrolled = 0) :
    ∃ t, exec (.jwait o) s = .next t ∧ s.Outside t ∧ s.Frame t (.jwait o) spans1 {} ∧ t.At s.mask fun _ => s.nextPc := by
  obtain ⟨soft, -⟩ := State.begun_soft h
  have group := soft.group h.toGroup
  have goes := jwaitEffect_goes group.wave group.frozenLanes (soft.join _) (by rw [soft.mask_eq]; exact hm)
    (if_pos rfl) (.inl rfl)
  rw [exec_jwait]
  refine State.run_answers h (goes.goesOn h .none ((Wave.OnlyLanes.refl _).sendTo _ _) fun l => ?_)
  rw [soft.nextPc, soft.mask_eq]
  exact Wave.lane_sendTo h.has _ l

/-- JWAIT of the last lanes that a join waits for (R46, R47). -/
theorem jwait_completes {n : Nat} {j : Join} {m : BitVec 32} (hn : o.a.toNat = n) (hj : s.w.join n = j) (hm : s.mask &&& j.enrolled = m)
    (arriving : m ≠ 0) (whole : j.arrived ||| m = j.enrolled) (shut : j.enrolled &&& s.w.holdOpen n m = 0) :
    ∃ t, exec (.jwait o) s = .next t ∧ s.Outside t ∧
      s.Frame t (.jwait o) spans1 { wave := fun w => { w with joins := w.joins.del n }, moved := fun l => (s.w.lane l).heldOn n } ∧
      (t.At s.mask fun _ => s.nextPc) ∧
      ∀ l next, s.mask.getLsbD l = false → (s.w.lane l).life = .held n next → (t.w.lane l).pc = next ∧ (t.w.lane l).life = .ready := by
  obtain ⟨soft, -⟩ := State.begun_soft h
  have group := soft.group h.toGroup
  have mask := soft.mask_eq
  have enrolled : j.enrolled ≠ 0 := fun he => arriving (by rw [← hm, he]; exact BitVec.and_zero)
  have meet : (s.begun (.jwait o) spans1).w.meetJoin n j m =
      ({ (s.begun (.jwait o) spans1).w with joins := (s.begun (.jwait o) spans1).w.joins.del n } : Wave).releaseHeld n := by
    rw [Wave.meetJoin, if_neg arriving, Wave.completeJoin_arriveJoin _ _ _ enrolled, if_pos ⟨whole, by rw [soft.holdOpen]; exact shut⟩]
  have goes := jwaitEffect_goes group.wave group.frozenLanes ((soft.join n).trans hj) (by rw [mask, hm]) meet
    (.inr (by simp [Wave.releaseHeld, Tbl.find_del]))
  rw [exec_jwait, hn]
  refine State.run_answers h (goes.released h (OwnChange.joins fun t => t.del n)
    (((Wave.OnlyLanes.refl _).releaseHeld n).sendTo _ _) ?_)
  rw [soft.nextPc, mask]
  exact Wave.released_of_sendTo rfl h.has (fun l hl => by rw [soft.life]; exact h.ready l hl) n s.nextPc

/-- JWAIT of lanes that a join goes on waiting with (R46, R48). -/
theorem jwait_holds {n : Nat} {j : Join} {m : BitVec 32} (hn : o.a.toNat = n) (hj : s.w.join n = j) (hm : s.mask &&& j.enrolled = m)
    (arriving : m ≠ 0) (part : ¬ (j.arrived ||| m = j.enrolled ∧ j.enrolled &&& s.w.holdOpen n m = 0))
    (other : ∃ l, l < 32 ∧ (s.w.lane l).live = true ∧ m.getLsbD l = false ∧ ∀ x next, (s.w.lane l).life ≠ .held x next) :
    ∃ t, exec (.jwait o) s = .next t ∧ s.Outside t ∧
      s.Frame t (.jwait o) spans1 { wave := fun w => { w with joins := w.joins.put n { j with arrived := j.arrived ||| m } } } ∧
      (t.At (s.mask &&& ~~~ m) fun _ => s.nextPc) ∧
      ∀ l, m.getLsbD l = true → (t.w.lane l).life = .held n s.nextPc ∧ (t.w.lane l).pc = (s.w.lane l).pc := by
  obtain ⟨soft, -⟩ := State.begun_soft h
  have group := soft.group h.toGroup
  have mask := soft.mask_eq
  have enrolled : j.enrolled ≠ 0 := fun he => arriving (by rw [← hm, he]; exact BitVec.and_zero)
  have meet : (s.begun (.jwait o) spans1).w.meetJoin n j m = (s.begun (.jwait o) spans1).w.arriveJoin n j m := by
    rw [Wave.meetJoin, if_neg arriving, Wave.completeJoin_arriveJoin _ _ _ enrolled, if_neg (by rw [soft.holdOpen]; exact part)]
  have sub : ∀ l, m.getLsbD l = true → s.mask.getLsbD l = true := fun l hl => by
    rw [← hm, BitVec.getLsbD_and, Bool.and_eq_true] at hl
    exact hl.1
  have waits := Wave.waits_of_hold (v := (s.begun (.jwait o) spans1).w.arriveJoin n j m) rfl h.has sub n s.nextPc
  obtain ⟨l, hl, live, outside, free⟩ := other
  simp only [Lane.live, ← soft.life l] at live free
  obtain ⟨live', free'⟩ := waits.free live outside free
  have holds := jwaitEffect_holds group.wave group.frozenLanes ((soft.join n).trans hj) (by rw [mask, hm]) meet
    (by rw [soft.nextPc, mask]) arriving (by simp [Wave.arriveJoin, Tbl.find_put]) hl live' free'
  rw [exec_jwait, hn]
  exact State.run_answers h (holds.waits h (OwnChange.joins fun t => t.put n { j with arrived := j.arrived ||| m })
    (((Wave.OnlyLanes.refl _).sendTo _ _).hold _ _ _) sub waits)

end

/-! ## Acts that all complete -/

/-- The act of the next lane, after those that have acted and the stops so far. -/
def actNext (f : State → Nat → Acted) (acc : State × List (Nat × Stop)) (l : Nat) : State × List (Nat × Stop) :=
  if acc.1.cur.frozenLanes.getLsbD l then acc
  else
    ((f acc.1 l).1, match (f acc.1 l).2 with
      | some e => acc.2 ++ [(l, e)]
      | none => acc.2)

theorem State.actAll_vector (s : State) (f : State → Nat → Acted) : s.actAll false f = (lanesOf s.mask).foldl (actNext f) (s, []) := rfl

theorem actNext_of_done {f : State → Nat → Acted} {t u : State} {l : Nat} (thawed : t.cur.frozenLanes.getLsbD l = false)
    (acts : f t l = done u) (stops : List (Nat × Stop)) : actNext f (t, stops) l = (u, stops) := by
  simp only [actNext, thawed, Bool.false_eq_true, ↓reduceIte, acts, done]

/-- Lanes that act one after another and all complete: what holds before the first and is kept by each holds after the last. -/
theorem foldl_actNext_induction {f : State → Nat → Acted} (I : List Nat → State → Prop) {ls : List Nat} (nodup : ls.Nodup)
    (next : ∀ acted l t, acted ⊆ ls → l ∈ ls → l ∉ acted → I acted t →
      t.cur.frozenLanes.getLsbD l = false ∧ ∃ u, f t l = done u ∧ I (acted ++ [l]) u)
    (rest acted : List Nat) (t : State) (all : acted ++ rest = ls) (h : I acted t) :
    ∃ u, rest.foldl (actNext f) (t, []) = (u, []) ∧ I ls u := by
  induction rest generalizing acted t with
  | nil =>
    rw [List.append_nil] at all
    exact ⟨t, rfl, all ▸ h⟩
  | cons l rest ih =>
    subst all
    have fresh : l ∉ acted := fun hl => (List.nodup_append.1 nodup).2.2 l hl l List.mem_cons_self rfl
    obtain ⟨thawed, u, acts, hu⟩ := next acted l t (List.subset_append_left _ _) (by simp) fresh h
    rw [List.foldl_cons, actNext_of_done thawed acts]
    exact ih (acted ++ [l]) u (by simp) hu

/-- The lanes of a group act in ascending order and all complete. -/
theorem State.actAll_induction {s : State} {f : State → Nat → Acted} (I : List Nat → State → Prop) (start : I [] s)
    (next : ∀ acted l t, (∀ j ∈ acted, s.mask.getLsbD j = true) → s.mask.getLsbD l = true → l ∉ acted → I acted t →
      t.cur.frozenLanes.getLsbD l = false ∧ ∃ u, f t l = done u ∧ I (acted ++ [l]) u) :
    ∃ u, s.actAll false f = (u, []) ∧ I (lanesOf s.mask) u := by
  rw [State.actAll_vector]
  exact foldl_actNext_induction I (lanesOf_nodup _)
    (fun acted l t group hl => next acted l t (fun j hj => (mem_lanesOf _ _).1 (group hj)) ((mem_lanesOf _ _).1 hl)) _ [] s rfl start

theorem State.settleStops_nil (s : State) (i : Instr) : s.settleStops i [] = s := by simp [State.settleStops, State.park]

/-- Acts that set the PC themselves and all complete are all that an instruction does. -/
theorem State.lanewise_of_completed {s u : State} {f : State → Nat → Acted} (i : Instr) (h : s.actAll false f = (u, [])) :
    s.lanewise i false true f = u := by
  simp only [State.lanewise, h, ↓reduceIte, State.settleStops_nil]

/-! ## Arrivals at SYNCW -/

/-- The arrivals of a wave's pending sync; none where none is pending (R456). -/
def Wave.syncArrived (w : Wave) : BitVec 32 := if w.sync.pending.isSome then w.sync.arrived else 0

/-- Lanes of a wave arrive at a SYNCW of mask and order p: they are Held. -/
def Wave.arriveSync (w : Wave) (p : BitVec 32 × BitVec 2) (next : DWord) (m : BitVec 32) : Wave :=
  ({ w with sync := { pending := some p, arrived := w.syncArrived ||| m } } : Wave).hold m 4 next

/-- Lanes of a wave arrive at a SYNCW that may now complete (R457). -/
def Wave.meetSync (w : Wave) (p : BitVec 32 × BitVec 2) (next : DWord) (m : BitVec 32) : Wave := (w.arriveSync p next m).completeSync m

/-- A sync completes with the arrival of lanes: they and the lanes Held at it go on (R457). -/
def Wave.finishSync (w : Wave) (next : DWord) (m : BitVec 32) : Wave :=
  (({ w with sync := { pending := none, arrived := 0 } } : Wave).hold m 4 next).releaseHeld 4

/-- Holding lanes and then others is holding both. -/
theorem Wave.hold_hold (w : Wave) (m m' : BitVec 32) (n : Nat) (next : DWord) :
    (w.hold m n next).hold m' n next = w.hold (m ||| m') n next := by
  simp only [Wave.hold, Wave.modLanes, Tbl.mapAll, List.map_map]
  congr 1
  refine List.map_congr_left fun q _ => ?_
  simp only [Function.comp, BitVec.getLsbD_or, Bool.or_eq_true]
  by_cases hm : m.getLsbD q.1 = true <;> by_cases hm' : m'.getLsbD q.1 = true <;> simp [hm, hm']

/-- Holding the lanes of a mask of one lane is holding that lane. -/
theorem Wave.hold_bit (w : Wave) {l : Nat} (hl : l < 32) (n : Nat) (next : DWord) :
    w.hold (1#32 <<< l) n next = w.modLane l fun x => { x with life := .held n next } := by
  simp only [Wave.hold, Wave.modLanes, Wave.modLane, Tbl.mapAll, Tbl.mod]
  congr 1
  refine List.map_congr_left fun q _ => ?_
  simp only [getLsbD_bit hl, decide_eq_true_eq]
  split <;> rfl

theorem Wave.arriveSync_arriveSync (w : Wave) (p : BitVec 32 × BitVec 2) (next : DWord) (m m' : BitVec 32) :
    (w.arriveSync p next m).arriveSync p next m' = w.arriveSync p next (m ||| m') := by
  have arrived : (w.arriveSync p next m).syncArrived = w.syncArrived ||| m := rfl
  have both := ({ w with sync := { pending := some p, arrived := w.syncArrived ||| (m ||| m') } } : Wave).hold_hold m m' 4 next
  rw [Wave.arriveSync, arrived, BitVec.or_assoc]
  exact both

/-- Lanes at their SYNCW do not hold it open, whichever of them arrives now. -/
theorem Wave.holdOpen_arriveSync {w : Wave} {p : BitVec 32 × BitVec 2} {next : DWord} {m a : BitVec 32} (has : w.Has m)
    (sub : ∀ l, a.getLsbD l = true → m.getLsbD l = true) : (w.arriveSync p next m).holdOpen 4 a = w.holdOpen 4 m := by
  apply BitVec.eq_of_getLsbD_eq
  intro l _
  have lane := Wave.lane_hold (w := ({ w with sync := { pending := some p, arrived := w.syncArrived ||| m } } : Wave)) has 4 next l
  simp only [Wave.holdOpen, getLsbD_and_not, Wave.getLsbD_which]
  by_cases hm : m.getLsbD l = true
  · rw [if_pos hm] at lane
    have held : ((w.arriveSync p next m).lane l).heldOn 4 = true := by
      rw [Wave.arriveSync, lane]
      exact Lane.heldOn_of_life rfl
    simp only [held, hm, Bool.not_true, Bool.and_false, Bool.false_and]
  · rw [if_neg hm] at lane
    have same : (w.arriveSync p next m).lane l = w.lane l := lane
    have still : a.getLsbD l = false := Bool.eq_false_iff.2 fun ha => hm (sub l ha)
    simp only [same, still, hm]

/-- A sync completes where the arrivals make up its mask and no lane holds it open (R457). -/
theorem Wave.completeSync_arriveSync {w : Wave} {p : BitVec 32 × BitVec 2} {next : DWord} {m a : BitVec 32} (has : w.Has m)
    (sub : ∀ l, a.getLsbD l = true → m.getLsbD l = true) :
    (w.arriveSync p next m).completeSync a =
      if w.syncArrived ||| m = p.1 ∧ p.1 &&& w.holdOpen 4 m = 0 then w.finishSync next m else w.arriveSync p next m := by
  have pending : (w.arriveSync p next m).sync = { pending := some p, arrived := w.syncArrived ||| m } := rfl
  simp only [Wave.completeSync, pending, Wave.holdOpen_arriveSync has sub]
  rfl

theorem Wave.meetSync_eq {w : Wave} {p : BitVec 32 × BitVec 2} {next : DWord} {m : BitVec 32} (has : w.Has m) :
    w.meetSync p next m =
      if w.syncArrived ||| m = p.1 ∧ p.1 &&& w.holdOpen 4 m = 0 then w.finishSync next m else w.arriveSync p next m :=
  Wave.completeSync_arriveSync has fun _ h => h

/-- One lane more arrives at a sync that still waits for it. -/
theorem Wave.meetSync_step {w : Wave} {p : BitVec 32 × BitVec 2} {next : DWord} {m : BitVec 32} {l : Nat}
    (has : w.Has (m ||| 1#32 <<< l)) :
    ((w.arriveSync p next m).arriveSync p next (1#32 <<< l)).completeSync (1#32 <<< l) = w.meetSync p next (m ||| 1#32 <<< l) := by
  rw [Wave.arriveSync_arriveSync, Wave.meetSync_eq has, Wave.completeSync_arriveSync has fun j hj => by
    rw [BitVec.getLsbD_or, hj, Bool.or_true]]

/-- The act of one lane at SYNCW, whose mask names it and agrees with the pending sync (R457). -/
theorem State.Becomes.syncLane {b t : State} {x : Wave} (ht : b.Becomes t x) {M : BitVec 32} {order : BitVec 2} {l : Nat}
    (bit : M.getLsbD l = true) (agrees : x.sync.pending = none ∨ x.sync.pending = some (M, order)) :
    ∃ u, t.syncLane M order l = done u ∧
      b.Becomes u ((x.arriveSync (M, order) b.nextPc (1#32 <<< l)).completeSync (1#32 <<< l)) := by
  have hl : l < 32 := BitVec.lt_of_getLsbD bit
  have arrived := ht.modWave fun w => { w with
    sync := { pending := some (M, order), arrived := (if w.sync.pending.isSome then w.sync.arrived else 0) ||| (1#32 <<< l) } }
  have held := arrived.modLane l fun x => { x with life := .held 4 t.nextPc }
  have met := held.modWave fun w => w.completeSync (1#32 <<< l)
  rw [← Wave.hold_bit _ hl, ht.nextPc] at met
  refine ⟨_, ?_, met⟩
  rcases agrees with noSync | same
  · simp only [State.syncLane, bit, Bool.true_eq_false, ↓reduceIte, ht.w_eq, noSync, Bool.false_eq_true, ht.nextPc]
  · simp only [State.syncLane, bit, Bool.true_eq_false, ↓reduceIte, ht.w_eq, same, bne_self_eq_false, Bool.false_eq_true, ht.nextPc]

/-- What has become of the wave when some lanes of a group have acted at SYNCW. -/
def State.SyncActed (b : State) (p : BitVec 32 × BitVec 2) (acted : List Nat) (t : State) : Prop :=
  b.Becomes t (if acted = [] then b.w else b.w.meetSync p b.nextPc (maskOf acted))

section
variable {b : State} {M : BitVec 32} {order : BitVec 2} (has : b.w.Has b.mask) (named : ∀ l, b.mask.getLsbD l = true → M.getLsbD l = true)
  (agrees : b.w.sync.pending = none ∨ b.w.sync.pending = some (M, order))
  (outstanding : ∀ l, b.mask.getLsbD l = true → b.w.syncArrived.getLsbD l = false)
include has named agrees outstanding

/-- The next lane of the group acts at SYNCW. -/
theorem State.SyncActed.next {acted : List Nat} {t : State} {l : Nat} (group : ∀ j ∈ acted, b.mask.getLsbD j = true)
    (hl : b.mask.getLsbD l = true) (fresh : l ∉ acted) (h : b.SyncActed (M, order) acted t) :
    ∃ u, t.syncLane M order l = done u ∧ b.SyncActed (M, order) (acted ++ [l]) u := by
  have mask : maskOf (acted ++ [l]) = maskOf acted ||| 1#32 <<< l := by simp [maskOf]
  have inGroup : ∀ j, (maskOf (acted ++ [l])).getLsbD j = true → b.mask.getLsbD j = true := fun j hj => by
    simp only [maskOf_lanesOf_bit, List.contains_append, Bool.and_eq_true, Bool.or_eq_true, List.contains_iff_mem, List.mem_singleton] at hj
    rcases hj.2 with hj | rfl
    · exact group j hj
    · exact hl
  have hasBoth : b.w.Has (maskOf acted ||| 1#32 <<< l) := fun j hj => has j (inGroup j (mask ▸ hj))
  simp only [State.SyncActed, List.append_eq_nil_iff, List.cons_ne_nil, and_false, ↓reduceIte, mask] at h ⊢
  by_cases first : acted = []
  · rw [if_pos first] at h
    obtain ⟨u, acts, hu⟩ := h.syncLane (named l hl) agrees
    rw [first, show maskOf [] ||| 1#32 <<< l = 1#32 <<< l from BitVec.zero_or]
    exact ⟨u, acts, hu⟩
  · have waiting : b.w.meetSync (M, order) b.nextPc (maskOf acted) = b.w.arriveSync (M, order) b.nextPc (maskOf acted) := by
      have hasActed : b.w.Has (maskOf acted) := fun j hj => hasBoth j (by rw [BitVec.getLsbD_or, hj, Bool.true_or])
      rw [Wave.meetSync_eq hasActed, if_neg]
      rintro ⟨whole, -⟩
      have missing : (b.w.syncArrived ||| maskOf acted).getLsbD l = false := by
        rw [BitVec.getLsbD_or, outstanding l hl, maskOf_lanesOf_bit]
        simp [fresh]
      rw [whole, named l hl] at missing
      cases missing
    rw [if_neg first, waiting] at h
    obtain ⟨u, acts, hu⟩ := h.syncLane (named l hl) (.inr rfl)
    rw [Wave.meetSync_step hasBoth] at hu
    exact ⟨u, acts, hu⟩

/-- The group acts at SYNCW (R457). -/
theorem State.syncw_acts {f : State → Nat → Acted} (there : (b.waves.find? b.cur.wave).isSome) (hf : b.cur.frozenLanes = 0)
    (hne : b.mask ≠ 0) (act : ∀ t l, b.mask.getLsbD l = true → f t l = t.syncLane M order l) :
    ∃ u, b.actAll false f = (u, []) ∧ b.Becomes u (b.w.meetSync (M, order) b.nextPc b.mask) := by
  obtain ⟨u, acts, hu⟩ := State.actAll_induction (s := b) (f := f) (b.SyncActed (M, order)) (.refl there) fun acted l t group hl fresh h => by
    refine ⟨?_, ?_⟩
    · rw [State.Becomes.cur h, hf]
      exact noLane l
    · rw [act t l hl]
      exact State.SyncActed.next has named agrees outstanding group hl fresh h
  have nonempty : lanesOf b.mask ≠ [] := fun empty => hne <| by rw [← maskOf_lanesOf b.mask, empty]; rfl
  rw [State.SyncActed, if_neg nonempty, maskOf_lanesOf] at hu
  exact ⟨u, acts, hu⟩

end

/-! ## SYNCW -/

/-- The effect of SYNCW past its checks. -/
def syncwEffect (o : Ops) (c : Ctl) (s : State) : State :=
  let u := s.lanewise (.syncw o c) false true fun t l => t.syncLane (lo32 (readV s.pre l o.lit .w o.a)) c.order l
  (u.brokenSync u.cur.wave).deadlock u.cur.wave

theorem exec_syncw (o : Ops) (c : Ctl) (s : State) : exec (.syncw o c) s = .next (s.run (.syncw o c) spans1 (syncwEffect o c)) := rfl

theorem State.SoftFrom.syncArrived {s b : State} (h : s.SoftFrom b) : b.w.syncArrived = s.w.syncArrived := by
  simp only [Wave.syncArrived, h.w_sync]

section
variable {o : Ops} {c : Ctl} {s : State} {M : BitVec 32} (h : s.Clear (.syncw o c) spans1) (ho : o.s = false)
  (named : ∀ l, s.mask.getLsbD l = true → lo32 (reader s.pre o l .w .a) = M ∧ M.getLsbD l = true)
  (pending : s.w.sync.pending = none ∨ (s.w.sync.pending = some (M, c.order) ∧ s.w.sync.arrived &&& s.mask = 0))
include h ho named pending

/-- SYNCW brings the group to its sync; nothing else happens where no lane of the mask has ended and some live lane is not Held. -/
theorem syncwEffect_becomes {x : Wave} (hx : (s.begun (.syncw o c) spans1).w.meetSync (M, c.order) s.nextPc s.mask = x)
    (unbroken : ∀ p, x.sync.pending = some p → p.1 &&& ~~~ x.live = 0)
    (other : ∃ l, l < 32 ∧ (x.lane l).live = true ∧ ∀ on next, (x.lane l).life ≠ .held on next) :
    (s.begun (.syncw o c) spans1).Becomes (syncwEffect o c (s.begun (.syncw o c) spans1)) x := by
  obtain ⟨soft, hpre⟩ := State.begun_soft h
  have group := soft.group h.toGroup
  have mask := soft.mask_eq
  have pre : (s.begun (.syncw o c) spans1).pre = s.pre := by simp only [State.pre, hpre, Option.getD_some]
  have has := h.has
  have read : ∀ l, s.mask.getLsbD l = true → lo32 (readV s.pre l o.lit .w o.a) = M := fun l hl => by
    have := (named l hl).1
    rw [reader, ho] at this
    exact this
  have outstanding : ∀ l, s.mask.getLsbD l = true → (s.begun (.syncw o c) spans1).w.syncArrived.getLsbD l = false := fun l hl => by
    rw [soft.syncArrived, Wave.syncArrived]
    rcases pending with noSync | ⟨same, apart⟩
    · rw [noSync]
      exact noLane l
    · rw [same]
      have bit := congrArg (fun m : BitVec 32 => m.getLsbD l) apart
      simpa [hl] using bit
  generalize s.begun (.syncw o c) spans1 = b at *
  obtain ⟨u, acts, hu⟩ := State.syncw_acts (order := c.order) (mask ▸ has) (mask ▸ fun l hl => (named l hl).2)
    (soft.w_sync ▸ pending.imp id And.left) (mask ▸ outstanding) group.wave group.frozenLanes group.some
    (f := fun t l => t.syncLane (lo32 (readV b.pre l o.lit .w o.a)) c.order l)
    (fun t l hl => by rw [pre, read l (mask ▸ hl)])
  rw [mask, soft.nextPc, hx] at hu
  obtain ⟨l, hl, live, free⟩ := other
  simp only [syncwEffect, State.lanewise_of_completed _ acts, hu.cur]
  rw [hu.no_brokenSync unbroken, hu.no_deadlock hl live free]
  exact hu

/-- SYNCW of the last lanes that a sync waits for (R457). -/
theorem syncw_completes (whole : s.w.syncArrived ||| s.mask = M) (shut : M &&& s.w.holdOpen 4 s.mask = 0) :
    ∃ t, exec (.syncw o c) s = .next t ∧ s.Outside t ∧
      s.Frame t (.syncw o c) spans1 { wave := fun w => { w with sync := { pending := none, arrived := 0 } },
                                      moved := fun l => (s.w.lane l).heldOn 4 } ∧
      (t.At s.mask fun _ => s.nextPc) ∧
      ∀ l next, s.mask.getLsbD l = false → (s.w.lane l).life = .held 4 next → (t.w.lane l).pc = next ∧ (t.w.lane l).life = .ready := by
  obtain ⟨soft, -⟩ := State.begun_soft h
  have released : (s.begun (.syncw o c) spans1).w.Released ((s.begun (.syncw o c) spans1).w.finishSync s.nextPc s.mask) s.mask 4 s.nextPc :=
    Wave.released_of_hold rfl h.has 4 s.nextPc
  have meets : (s.begun (.syncw o c) spans1).w.meetSync (M, c.order) s.nextPc s.mask =
      (s.begun (.syncw o c) spans1).w.finishSync s.nextPc s.mask := by
    rw [Wave.meetSync_eq h.has, soft.holdOpen, soft.syncArrived, if_pos ⟨whole, shut⟩]
  obtain ⟨l, hl⟩ := exists_lane h.some
  have lane := released l
  rw [if_pos hl] at lane
  have effect := syncwEffect_becomes h ho named pending meets (fun p hp => by cases hp)
    ⟨l, BitVec.lt_of_getLsbD hl, by rw [lane]; rfl, fun on next held => by rw [lane] at held; cases held⟩
  rw [exec_syncw]
  exact State.run_answers h (effect.released h (OwnChange.sync _) (((Wave.OnlyLanes.refl _).hold _ _ _).releaseHeld _) released)

/-- SYNCW of lanes that a sync goes on waiting with (R457, R48). -/
theorem syncw_holds {arrived : BitVec 32} (arrivals : s.w.syncArrived ||| s.mask = arrived)
    (part : ¬ (arrived = M ∧ M &&& s.w.holdOpen 4 s.mask = 0)) (live : M &&& ~~~ s.w.live = 0)
    (other : ∃ l, l < 32 ∧ (s.w.lane l).live = true ∧ s.mask.getLsbD l = false ∧ ∀ x next, (s.w.lane l).life ≠ .held x next) :
    ∃ t, exec (.syncw o c) s = .next t ∧ s.Outside t ∧
      s.Frame t (.syncw o c) spans1 { wave := fun w => { w with sync := { pending := some (M, c.order), arrived := arrived } } } ∧
      ∀ l, s.mask.getLsbD l = true → (t.w.lane l).life = .held 4 s.nextPc ∧ (t.w.lane l).pc = (s.w.lane l).pc := by
  obtain ⟨soft, -⟩ := State.begun_soft h
  have waits := Wave.waits_of_hold_all (w := (s.begun (.syncw o c) spans1).w) (v := ({ (s.begun (.syncw o c) spans1).w with
    sync := { pending := some (M, c.order), arrived := arrived } } : Wave)) rfl h.has 4 s.nextPc
  have meets : (s.begun (.syncw o c) spans1).w.meetSync (M, c.order) s.nextPc s.mask =
      ({ (s.begun (.syncw o c) spans1).w with sync := { pending := some (M, c.order), arrived := arrived } } : Wave).hold s.mask 4 s.nextPc := by
    rw [Wave.meetSync_eq h.has, soft.holdOpen, soft.syncArrived, arrivals, if_neg part, Wave.arriveSync, soft.syncArrived, arrivals]
  have alive : ∀ l, s.mask.getLsbD l = true → ((s.begun (.syncw o c) spans1).w.lane l).live = true := fun l hl => by
    rw [Lane.live, soft.life, h.ready l hl]
    rfl
  obtain ⟨l, hl, liveLane, outside, free⟩ := other
  simp only [Lane.live, ← soft.life l] at liveLane free
  have effect := syncwEffect_becomes h ho named pending meets
    (fun p hp => by
      cases hp
      rw [waits.live alive (fun _ h => h), soft.w_live]
      exact live)
    ⟨l, hl, waits.free liveLane outside free⟩
  rw [exec_syncw]
  refine State.run_answers h ?_
  obtain ⟨outside, frame, -, held⟩ := effect.waits h (OwnChange.sync _) ((Wave.OnlyLanes.refl _).hold _ _ _) (fun _ h => h) waits
  exact ⟨outside, frame, held⟩

end

/-! ## The obligation -/

/-- Settles O15: JENR changes its register and goes on; JWAIT and SYNCW either complete, which releases the Held lanes with the group, or hold
the group, where a live lane that is not Held rules out the deadlock of R48. -/
theorem joinsAndSyncs : Obligations.JoinsAndSyncs := by
  refine ⟨fun o s h => jenr_enrols h, fun o s h => ⟨jwait_passes h, jwait_completes h rfl rfl rfl, jwait_holds h rfl rfl rfl⟩,
    fun o c s M h ho named pending => ⟨syncw_completes h ho named pending, syncw_holds h ho named pending rfl⟩⟩

end Sys2Proof.Machine

/-! # The steps of waves and faults -/

namespace Sys2Proof.Machine

/-- A Ready lane with a late failure to come, in a resident team whose wave has a handler; the clk's record still says that an abort of
this clk has frozen the lane. -/
def frozenLate : State :=
  { State.reset with
    waves := [(64, { Wave.gone with
      team := 1, trapvec := 0x8000
      lanes := [(0, { Lane.gone with life := .ready, late := [{ cause := 5, info := 3, addr := 0 }] })] })]
    teams := [(1, Team.gone)]
    cur := { Cur.none with wave := 64, frozenLanes := 1 } }

/-- ASYNC_FAULT_DELIVERY takes the failure off the lane's list, but a lane that an abort of the clk has frozen takes no trap (R281). -/
theorem asyncFault_frozen_not_handled :
    ∃ t, exec (.asyncFaultDelivery 64 0) frozenLate = .next t ∧ ((t.wave 64).lane 0).late = [] ∧ ((t.wave 64).lane 0).handler = false :=
  ⟨_, rfl, by decide, by decide⟩

/-- Refutes O54: its clause on late failures leaves the record of the clk free, and where that record holds the lane frozen by an abort of
the clk, the step delivers no trap. -/
theorem not_waveAndFaultSteps : ¬ Obligations.WaveAndFaultSteps := by
  unfold Obligations.WaveAndFaultSteps
  rintro ⟨-, -, -, -, -, late, -⟩
  obtain ⟨t, ht, -, -, ⟨-, -, -, -, handled, -⟩, -⟩ := late 64 0 { cause := 5, info := 3, addr := 0 } [] frozenLate (by decide) rfl rfl (by decide)
    (by decide) rfl rfl
  obtain ⟨u, hu, -, unhandled⟩ := asyncFault_frozen_not_handled
  cases ht.symm.trans hu
  exact absurd (unhandled.symm.trans handled) (by decide)

end Sys2Proof.Machine

/-! # Effects, one after the other

What an effect makes of the executing wave, as the `Change` of an obligation, relative to the state that the checks of R137 leave. Effects that
follow one another make their changes one after the other; `State.Checked.frame` turns the whole into the frame of an obligation. -/

namespace Sys2Proof.Machine

/-! ## What the checks leave -/

/-- b is what the checks of an instruction leave of s: but for the run, shadow lines, the latches of a switch point and LSTALE, the waves are
as they were. -/
structure State.Checked (s b : State) (i : Instr) (sp : Spans) : Prop where
  wave : b.cur.wave = s.cur.wave
  waves : ∀ k, k ≠ s.cur.wave → b.waves.find? k = s.waves.find? k
  kept : s.w.Kept b.w
  lane : ∀ l, (s.w.lane l).Kept (b.w.lane l) ∧ (b.w.lane l).v = (s.w.lane l).v ∧ (b.w.lane l).pc = (s.w.lane l).pc ∧
    (b.w.lane l).life = (s.w.lane l).life
  sregs : b.w.s = s.w.s
  latch : ∀ l, (b.w.lane l).latch = s.latchesLeft i (s.cur.shifted.getLsbD l) (s.w.lane l).latch
  slatch : b.w.slatch = s.latchesLeft i s.cur.shiftedS s.w.slatch
  fcsr : b.w.fcsr = s.w.fcsr
  wstat : b.w.wstat = s.staleAfter i sp

theorem State.Clear.checked {s : State} {i : Instr} {sp : Spans} (h : s.Clear i sp) : s.Checked (s.begun i sp) i sp := by
  obtain ⟨soft, -⟩ := State.begun_soft h
  obtain ⟨wstat, -⟩ := State.begun_marks h
  obtain ⟨slatch, latch⟩ := State.begun_latches h
  exact ⟨soft.wave, soft.elsewhere.2, soft.kept, fun l => (soft.lane l).2, soft.sregs, latch, slatch, soft.fcsr, wstat⟩

theorem State.switchPoint_cur (s : State) : { (s.switchPoint s.cur.wave).cur with keepLatches := s.cur.keepLatches } = s.cur := by
  simp only [State.switchPoint, ↓reduceIte]
  split <;> rfl

/-- Of the record of the clk the checks change only the snapshot of the wave, and that latches are cleared and the run is counted. -/
theorem State.begun_cur {s : State} {i : Instr} {sp : Spans} (h : s.Clear i sp) :
    { (s.begun i sp).cur with pre := s.cur.pre, keepLatches := s.cur.keepLatches, counted := s.cur.counted } = s.cur := by
  obtain ⟨soft, hpre, -, -⟩ := s.checked_soft i sp h.wave
  obtain ⟨-, shadows, -⟩ := ((s.noted i sp).switchFor i).shadowFor_soft i (usesOf i sp) (scalarOf i) (nwOf i)
    (by rw [soft.there]; exact h.wave) (by rw [hpre]; rfl) (State.checked_room h)
  obtain ⟨noted, -, -⟩ := s.noted_files i sp h.wave
  have switched : { ((s.noted i sp).switchFor i).cur with keepLatches := (s.noted i sp).cur.keepLatches } = (s.noted i sp).cur := by
    simp only [State.switchFor]
    split
    · exact (s.noted i sp).switchPoint_cur
    · rfl
  have same := congrArg (fun c : Cur => { c with pre := s.cur.pre, counted := s.cur.counted, keepLatches := s.cur.keepLatches }) (switched.trans noted)
  have covered : (s.covered i sp).cur = ((s.noted i sp).switchFor i).cur := shadows
  have used : (s.begun i sp).cur = { (s.covered i sp).cur with counted := (s.covered i sp).cur.counted || !isSwitch i } := rfl
  rw [used, covered]
  exact same

theorem State.begun_outside {s : State} {i : Instr} {sp : Spans} (h : s.Clear i sp) : s.Outside (s.begun i sp) :=
  (State.begun_soft h).1.elsewhere.1

/-- An executing wave as the picks of the clk read it is as the checks of this pick read it. -/
theorem State.begun_pre {s : State} {i : Instr} {sp : Spans} (h : s.Clear i sp) : (s.begun i sp).pre = s.pre := by
  simp only [State.pre, (State.begun_soft h).2, Option.getD_some]

theorem State.Outside.trans {a b c : State} (h : a.Outside b) (h' : b.Outside c) : a.Outside c :=
  Eq.trans (congrArg (fun x : State => { x with waves := a.waves, cur := a.cur }) h') h

/-! ## Changes that keep apart what a frame keeps apart -/

/-- A change of a lane's own fields: not of its PC, its life, its registers and its latches. -/
structure OwnLane (f : Lane → Lane) : Prop where
  kept : ∀ x y : Lane, x.Kept y → (f x).Kept (f y)
  pc : ∀ x, (f x).pc = x.pc
  life : ∀ x, (f x).life = x.life
  v : ∀ x, (f x).v = x.v
  latch : ∀ x, (f x).latch = x.latch

/-- A change whose part on the wave and parts on the lanes are on their own fields alone. -/
structure Change.Own (c : Change) : Prop where
  wave : OwnChange c.wave
  lane : ∀ l, OwnLane (c.lane l)

theorem OwnLane.none : OwnLane id := ⟨fun _ _ h => h, fun _ => rfl, fun _ => rfl, fun _ => rfl, fun _ => rfl⟩

theorem OwnLane.comp {f g : Lane → Lane} (hg : OwnLane g) (hf : OwnLane f) : OwnLane fun x => g (f x) where
  kept _ _ h := hg.kept _ _ (hf.kept _ _ h)
  pc x := (hg.pc _).trans (hf.pc x)
  life x := (hg.life _).trans (hf.life x)
  v x := (hg.v _).trans (hf.v x)
  latch x := (hg.latch _).trans (hf.latch x)

theorem OwnChange.comp {f g : Wave → Wave} (hg : OwnChange g) (hf : OwnChange f) : OwnChange fun w => g (f w) where
  kept _ _ h := hg.kept _ _ (hf.kept _ _ h)
  lanes w := (hg.lanes _).trans (hf.lanes w)
  s w := (hg.s _).trans (hf.s w)
  slatch w := (hg.slatch _).trans (hf.slatch w)
  fcsr w := (hg.fcsr _).trans (hf.fcsr w)
  wstat w := (hg.wstat _).trans (hf.wstat w)

/-- One change after another. -/
def Change.andThen (c d : Change) : Change where
  put l r := (d.put l r).or (c.put l r)
  puts m := (d.puts m).or (c.puts m)
  wave w := d.wave (c.wave w)
  lane l x := d.lane l (c.lane l x)
  moved l := c.moved l || d.moved l

theorem Change.Own.andThen {c d : Change} (hc : c.Own) (hd : d.Own) : (c.andThen d).Own :=
  ⟨hd.wave.comp hc.wave, fun l => (hd.lane l).comp (hc.lane l)⟩

/-! ## Effects -/

/-- x is w with a change made: latches, FCSR and WSTAT are as they were, and only lanes that the change moves have another PC or life. -/
structure Wave.Alters (w x : Wave) (c : Change) : Prop where
  has : ∀ l, (x.lanes.find? l).isSome = (w.lanes.find? l).isSome
  kept : (c.wave w).Kept x
  lanes : ∀ l, (c.lane l (w.lane l)).Kept (x.lane l)
  regs : ∀ l r, (x.lane l).reg r = (c.put l r).getD ((w.lane l).reg r)
  sregs : ∀ m, x.sreg m = (c.puts m).getD (w.sreg m)
  still : ∀ l, c.moved l = false → (x.lane l).pc = (w.lane l).pc ∧ (x.lane l).life = (w.lane l).life
  latch : ∀ l, (x.lane l).latch = (w.lane l).latch
  slatch : x.slatch = w.slatch
  fcsr : x.fcsr = w.fcsr
  wstat : x.wstat = w.wstat

namespace Wave.Alters

theorem refl (w : Wave) : w.Alters w {} :=
  ⟨fun _ => rfl, rfl, fun _ => rfl, fun _ _ => rfl, fun _ => rfl, fun _ _ => ⟨rfl, rfl⟩, fun _ => rfl, rfl, rfl, rfl⟩

theorem trans {w x y : Wave} {c d : Change} (h : w.Alters x c) (h' : x.Alters y d) (hd : d.Own) : w.Alters y (c.andThen d) where
  has l := (h'.has l).trans (h.has l)
  kept := (hd.wave.kept _ _ h.kept).trans h'.kept
  lanes l := ((hd.lane l).kept _ _ (h.lanes l)).trans (h'.lanes l)
  regs l r := by
    rw [h'.regs, h.regs]
    show _ = ((d.put l r).or (c.put l r)).getD _
    cases d.put l r <;> rfl
  sregs m := by
    rw [h'.sregs, h.sregs]
    show _ = ((d.puts m).or (c.puts m)).getD _
    cases d.puts m <;> rfl
  still l hl := by
    obtain ⟨hc, hd'⟩ := Bool.or_eq_false_iff.1 hl
    exact ⟨(h'.still l hd').1.trans (h.still l hc).1, (h'.still l hd').2.trans (h.still l hc).2⟩
  latch l := (h'.latch l).trans (h.latch l)
  slatch := h'.slatch.trans h.slatch
  fcsr := h'.fcsr.trans h.fcsr
  wstat := h'.wstat.trans h.wstat

/-- A change that says the same of w. -/
theorem congr {w x : Wave} {c d : Change} (h : w.Alters x c) (put : ∀ l r, d.put l r = c.put l r) (puts : ∀ m, d.puts m = c.puts m)
    (wave : d.wave w = c.wave w) (lane : ∀ l, d.lane l (w.lane l) = c.lane l (w.lane l))
    (moved : ∀ l, d.moved l = false → c.moved l = false) : w.Alters x d :=
  { h with
    kept := by rw [wave]; exact h.kept
    lanes := fun l => by rw [lane]; exact h.lanes l
    regs := fun l r => by rw [put]; exact h.regs l r
    sregs := fun m => by rw [puts]; exact h.sregs m
    still := fun l hl => h.still l (moved l hl) }

/-- A change of the wave's own fields. -/
theorem own (w : Wave) {g : Wave → Wave} (hg : OwnChange g) : w.Alters (g w) { wave := g } where
  has l := by rw [hg.lanes]
  kept := rfl
  lanes l := by simp only [Wave.lane, hg.lanes]; rfl
  regs l r := by simp only [Wave.lane, hg.lanes]; rfl
  sregs m := by simp only [Wave.sreg, hg.s]; rfl
  still l _ := by simp only [Wave.lane, hg.lanes, and_self]
  latch l := by simp only [Wave.lane, hg.lanes]
  slatch := hg.slatch w
  fcsr := hg.fcsr w
  wstat := hg.wstat w

/-- Lanes of a mask get another PC and life. -/
theorem moves (w : Wave) (m : BitVec 32) (f : Nat → Lane → Lane)
    (hf : ∀ l x, f l x = { x with pc := (f l x).pc, life := (f l x).life }) : w.Alters (w.modLanes m f) { moved := fun l => m.getLsbD l } := by
  have lane : ∀ l, (w.modLanes m f).lane l =
      { w.lane l with pc := ((w.modLanes m f).lane l).pc, life := ((w.modLanes m f).lane l).life } := fun l => by
    rw [Wave.lane_modLanes]
    split
    · exact hf l _
    · rfl
  refine ⟨fun l => ?_, rfl, fun l => ?_, fun l r => ?_, fun _ => rfl, fun l hl => ?_, fun l => ?_, rfl, rfl, rfl⟩
  · simp only [Wave.modLanes, Tbl.find_mapAll, Option.isSome_map]
  · rw [lane]; rfl
  · rw [lane]; rfl
  · have hm : ¬ (m.getLsbD l = true ∧ (w.lanes.find? l).isSome = true) := fun h => by simp_all
    rw [Wave.lane_modLanes, if_neg hm]
    exact ⟨rfl, rfl⟩
  · rw [lane]

/-- Lanes of a mask go on at an address. -/
theorem sendTo (w : Wave) (m : BitVec 32) (pc : DWord) : w.Alters (w.sendTo m pc) { moved := fun l => m.getLsbD l } :=
  moves w m _ fun _ _ => rfl

/-- One lane's own fields change. -/
theorem ownLane (w : Wave) {l : Nat} (has : (w.lanes.find? l).isSome = true) {f : Lane → Lane} (hf : OwnLane f) :
    w.Alters (w.modLane l f) { lane := fun j x => if j = l then f x else x } := by
  have lane : ∀ j, (w.modLane l f).lane j = if j = l then f (w.lane j) else w.lane j := fun j => by
    rw [Wave.lane_modLane]
    by_cases h : j = l
    · subst h; simp [has]
    · simp [h, Ne.symm h]
  refine ⟨fun j => ?_, rfl, fun j => ?_, fun j r => ?_, fun _ => rfl, fun j _ => ?_, fun j => ?_, rfl, rfl, rfl⟩
  · simp only [Wave.modLane, Tbl.find_mod]; split <;> simp
  · rw [lane]; rfl
  · rw [lane]; simp only [Lane.reg, Option.getD_none]; split
    · rw [hf.v]
    · rfl
  · rw [lane]; split
    · exact ⟨hf.pc _, hf.life _⟩
    · exact ⟨rfl, rfl⟩
  · rw [lane]; split
    · exact hf.latch _
    · rfl

end Wave.Alters

/-- t is what an effect with a change makes of the waves of b, and the record of the clk is as it was. -/
structure State.Effect (b t : State) (c : Change) : Prop where
  cur : t.cur = b.cur
  waves : ∀ k, k ≠ b.cur.wave → t.waves.find? k = b.waves.find? k
  there : (t.waves.find? b.cur.wave).isSome = (b.waves.find? b.cur.wave).isSome
  w : b.w.Alters t.w c

namespace State.Effect

theorem refl (b : State) : b.Effect b {} := ⟨rfl, fun _ _ => rfl, rfl, .refl _⟩

theorem trans {a b t : State} {c d : Change} (h : a.Effect b c) (h' : b.Effect t d) (hd : d.Own) : a.Effect t (c.andThen d) where
  cur := h'.cur.trans h.cur
  waves k hk := (h'.waves k (by rwa [h.cur])).trans (h.waves k hk)
  there := by have := h'.there; rw [h.cur] at this; exact this.trans h.there
  w := h.w.trans h'.w hd

/-- An effect outside the waves. -/
theorem outside {b t : State} (waves : t.waves = b.waves) (cur : t.cur = b.cur) : b.Effect t {} := by
  have w : t.w = b.w := by simp only [State.w, State.wave, waves, cur]
  exact ⟨cur, fun _ _ => by rw [waves], by rw [waves], by rw [w]; exact .refl _⟩

/-- A change that says the same of the executing wave. -/
theorem congr {b t : State} {c d : Change} (h : b.Effect t c) (put : ∀ l r, d.put l r = c.put l r) (puts : ∀ m, d.puts m = c.puts m)
    (wave : d.wave b.w = c.wave b.w) (lane : ∀ l, d.lane l (b.w.lane l) = c.lane l (b.w.lane l))
    (moved : ∀ l, d.moved l = false → c.moved l = false) : b.Effect t d :=
  { h with w := h.w.congr put puts wave lane moved }

/-- A change of the executing wave. -/
theorem modWave {b : State} (there : (b.waves.find? b.cur.wave).isSome) {f : Wave → Wave} {c : Change} (h : b.w.Alters (f b.w) c) :
    b.Effect (b.modWave b.cur.wave f) c where
  cur := rfl
  waves k hk := by rw [State.find_modWave, if_neg (Ne.symm hk)]
  there := State.there_modWave _ _ _ _
  w := by
    have : (b.modWave b.cur.wave f).w = f b.w := State.wave_modWave b f there
    rw [this]; exact h

/-- Lanes go on past the instruction, in a clk that has frozen nothing. -/
theorem advance {b : State} (there : (b.waves.find? b.cur.wave).isSome) (thawed : b.cur.frozenLanes = 0) (m : BitVec 32) :
    b.Effect (b.advance m) { moved := fun l => m.getLsbD l } := by
  rw [b.advance_eq m thawed]
  exact modWave there (Wave.Alters.sendTo _ m _)

section
variable {b t : State} {c : Change} (h : b.Effect t c)
include h

theorem mask : t.mask = b.mask := by simp only [State.mask, h.cur]
theorem nextPc : t.nextPc = b.nextPc := by simp only [State.nextPc, h.cur]

theorem isThere (there : (b.waves.find? b.cur.wave).isSome) : (t.waves.find? t.cur.wave).isSome := by
  rw [h.cur, h.there]; exact there

end

end State.Effect

/-- An effect after the checks leaves the frame of its change, where it moves the group's lanes alone. -/
theorem State.Checked.frame {s b t : State} {i : Instr} {sp : Spans} {c : Change} (hb : s.Checked b i sp) (h : b.Effect t c) (hc : c.Own)
    {d : Change} (hput : ∀ l r, d.put l r = c.put l r) (hputs : ∀ m, d.puts m = c.puts m) (hwave : ∀ w, d.wave w = c.wave w)
    (hlane : ∀ l x, d.lane l x = c.lane l x) (moved : ∀ l, s.mask.getLsbD l = false → d.moved l = false → c.moved l = false) :
    s.Frame t i sp d where
  waves k hk := (h.waves k (by rwa [hb.wave])).trans (hb.waves k hk)
  kept := by rw [hwave]; exact (hc.wave.kept _ _ hb.kept).trans h.w.kept
  lanes l := by rw [hlane]; exact ((hc.lane l).kept _ _ (hb.lane l).1).trans (h.w.lanes l)
  regs l r := by rw [hput, h.w.regs, Lane.reg, Lane.reg, (hb.lane l).2.1]
  sregs m := by rw [hputs, h.w.sregs, Wave.sreg, Wave.sreg, hb.sregs]
  others l hl hm := by
    obtain ⟨pc, life⟩ := h.w.still l (moved l hl hm)
    exact ⟨pc.trans (hb.lane l).2.2.1, life.trans (hb.lane l).2.2.2⟩
  latch l := (h.w.latch l).trans (hb.latch l)
  slatch := h.w.slatch.trans hb.slatch
  fcsr := h.w.fcsr.trans hb.fcsr
  wstat := h.w.wstat.trans hb.wstat

end Sys2Proof.Machine

namespace Sys2Proof.Machine

/-! ## Registers that an effect writes -/

/-- A change of registers alone. -/
theorem Change.own_registers (put : Nat → Nat → Option Word) (puts : Nat → Option Word) (moved : Nat → Bool) :
    Change.Own { put := put, puts := puts, moved := moved } := ⟨.none, fun _ => .none⟩

/-- Writing scalar registers of a wave. -/
theorem Wave.Alters.putScalars (w : Wave) (base n v : Nat) : w.Alters (Machine.putScalars w base n v)
    { puts := fun m => if base ≤ m ∧ m < base + n then some (wordAt v (m - base)) else none } := by
  obtain ⟨kept, lanes, slatch, fcsr, wstat, regs⟩ := putScalars_wrote w base n v
  have lane : ∀ l, (Machine.putScalars w base n v).lane l = w.lane l := fun l => by simp only [Wave.lane, lanes]
  refine ⟨fun l => by rw [lanes], kept, fun l => by rw [lane]; rfl, fun l r => by rw [lane]; rfl, fun m => ?_, fun l _ => by simp only [lane, and_self],
    fun l => by rw [lane], slatch, fcsr, wstat⟩
  rw [regs]; dsimp only; split <;> rfl

/-- Writing registers of a lane. -/
theorem Wave.Alters.putRegs (w : Wave) {l : Nat} (has : (w.lanes.find? l).isSome = true) (base n v : Nat) :
    w.Alters (Machine.putRegs w l base n v)
      { put := fun j r => if j = l ∧ base ≤ r ∧ r < base + n then some (wordAt v (r - base)) else none } := by
  have h := putRegs_wrote w l base n v
  have lane : ∀ j, { (Machine.putRegs w l base n v).lane j with v := (w.lane j).v } = w.lane j := fun j => by
    by_cases hj : j = l
    · subst hj; exact h.lane
    · rw [h.other j hj]
  refine ⟨h.find, h.kept, fun j => ?_, fun j r => ?_, fun m => ?_, fun j _ => ?_, fun j => ?_, h.slatch, h.fcsr, h.wstat⟩
  · have := congrArg (fun x : Lane => { x with pc := (w.lane j).pc, life := (w.lane j).life, latch := (w.lane j).latch }) (lane j)
    exact this
  · by_cases hj : j = l
    · subst hj; rw [h.reg has]; simp only [true_and]; split <;> rfl
    · rw [h.other j hj]; simp [hj]
  · simp only [Wave.sreg, h.s]; rfl
  · exact ⟨by have := congrArg Lane.pc (lane j); exact this, by have := congrArg Lane.life (lane j); exact this⟩
  · have := congrArg Lane.latch (lane j); exact this

namespace State

/-- In a clk that has frozen nothing, the wave's result goes to its registers. -/
theorem Effect.writeWave {b : State} (sb : Nat) (d : Code) (n v : Nat) (there : (b.waves.find? b.cur.wave).isSome) (lines : b.cur.frozenLines = []) :
    b.Effect (b.writeWave sb d n v) { puts := fun m => if inSpan sb d n m then some (wordAt v (m - (sb + d.toNat))) else none } := by
  rw [b.writeWave_eq sb d n v lines]
  exact .modWave there ((Wave.Alters.putScalars b.w _ n v).congr (fun _ _ => rfl) (fun m => by simp [inSpan]) rfl (fun _ => rfl) fun _ _ => rfl)

/-- In a clk that has frozen nothing, a lane's result goes to its registers. -/
theorem Effect.writeLane {b : State} (vb : Nat) {l : Nat} (d : Code) (n v : Nat) (there : (b.waves.find? b.cur.wave).isSome)
    (has : (b.w.lanes.find? l).isSome = true) (frozen : b.cur.frozen = []) (lanes : b.cur.frozenLanes = 0) :
    b.Effect (b.writeLane vb l d n v)
      { put := fun j r => if decide (j = l) && inSpan vb d n r then some (wordAt v (r - (vb + d.toNat))) else none } := by
  rw [b.writeLane_eq vb l d n v frozen lanes]
  exact .modWave there ((Wave.Alters.putRegs b.w has _ n v).congr (fun j r => by simp [inSpan]) (fun _ => rfl) rfl (fun _ => rfl) fun _ _ => rfl)

/-- A switch point shifts nothing into the latches: the wave's result goes to its registers, unless NW. -/
theorem Effect.dstWave {b : State} {i : Instr} (o : Ops) (n v : Nat) (there : (b.waves.find? b.cur.wave).isSome)
    (lines : b.cur.frozenLines = []) (switch : isSwitch i = true) :
    b.Effect (b.dstWave i o n v)
      { puts := fun m => if !nwOf i && inSpan b.pre.sb o.d n m then some (wordAt v (m - (b.pre.sb + o.d.toNat))) else none } := by
  simp only [State.dstWave, switch, ↓reduceIte]
  cases nwOf i
  · exact .writeWave _ _ _ _ there lines
  · exact .refl b

/-- A switch point shifts nothing into the latches: a lane's result goes to its registers, unless NW. -/
theorem Effect.dstLane {b : State} {i : Instr} (o : Ops) {l : Nat} (n v : Nat) (there : (b.waves.find? b.cur.wave).isSome)
    (has : (b.w.lanes.find? l).isSome = true) (frozen : b.cur.frozen = []) (lanes : b.cur.frozenLanes = 0) (switch : isSwitch i = true) :
    b.Effect (b.dstLane i o l n v)
      { put := fun j r => if decide (j = l) && !nwOf i && inSpan b.pre.vb o.d n r then some (wordAt v (r - (b.pre.vb + o.d.toNat))) else none } := by
  simp only [State.dstLane, switch, ↓reduceIte]
  cases nwOf i
  · exact cast (by simp) (Effect.writeLane b.pre.vb o.d n v there has frozen lanes)
  · exact cast (by simp) (Effect.refl b)

end State

/-- What holds after each of some steps, of those made so far, holds after them all. -/
theorem foldl_induction {α : Type} {f : State → α → State} (I : List α → State → Prop) {xs : List α} (nodup : xs.Nodup) {s : State} (start : I [] s)
    (step : ∀ done t x, x ∈ xs → x ∉ done → (∀ y ∈ done, y ∈ xs) → I done t → I (done ++ [x]) (f t x)) : I xs (xs.foldl f s) := by
  suffices h : ∀ (done rest : List α) (t : State), done ++ rest = xs → I done t → I xs (rest.foldl f t) from h [] xs s rfl start
  intro done rest
  induction rest generalizing done with
  | nil => intro t e h; rw [← e, List.append_nil]; exact h
  | cons x rest ih =>
    intro t e h
    subst e
    have fresh : x ∉ done := fun hx => (List.nodup_append.1 nodup).2.2 x hx x (by simp) rfl
    exact ih (done ++ [x]) (f t x) (by simp) (step done t x (by simp) fresh (fun y hy => by simp [hy]) h)

end Sys2Proof.Machine

namespace Sys2Proof.Machine

/-! ## An instruction that faults after its checks -/

theorem State.Checked.took {s b t : State} {i : Instr} {sp : Spans} (hb : s.Checked b i sp) (soft : s.SoftFrom b) {cause : Nat} {info : Nat → Word}
    {addr : Nat → DWord} (took : b.Took t b.mask cause info addr) : s.Took t s.mask cause info addr := fun l hl => by
  have lane := took l (by rw [soft.mask_eq]; exact hl)
  have kept := congrArg (fun x : Lane => ({ x with
    tcause := BitVec.ofNat 32 cause, tinfo := info l, tpc := s.cur.pc, taddr := addr l, tparent := s.tparent s.cur.wave,
    tsibs := s.w.live &&& ~~~ s.mask, handler := true, life := .ready, pc := s.w.trapvec, latch := (t.w.lane l).latch } : Lane)) (hb.lane l).1
  have v := (hb.lane l).2.1
  have tparent : b.tparent b.cur.wave = s.tparent s.cur.wave := by
    simp only [State.tparent, State.coreOf, State.dieOf, State.team, soft.teams, soft.wave]
  have trapvec : b.w.trapvec = s.w.trapvec := by have := congrArg Wave.trapvec hb.kept; exact this
  rw [tparent, trapvec, soft.w_live, soft.mask_eq, soft.pc] at lane
  rw [lane]
  refine Eq.trans ?_ kept
  rw [lane, ← v]

theorem State.Clear.group_begun {s : State} {i : Instr} {sp : Spans} (h : s.Clear i sp) : (s.begun i sp).Group :=
  (State.begun_soft h).1.group h.toGroup

theorem State.Clear.canTrap_begun {s : State} {i : Instr} {sp : Spans} (h : s.Clear i sp) (can : s.CanTrap) : (s.begun i sp).CanTrap := by
  obtain ⟨soft, -⟩ := State.begun_soft h
  have trapvec : (s.begun i sp).w.trapvec = s.w.trapvec := by have := congrArg Wave.trapvec soft.kept; exact this
  refine ⟨by rw [trapvec]; exact can.1, fun l hl => ?_⟩
  rw [soft.depth, soft.handler]
  exact can.2 l (by rwa [soft.mask_eq] at hl)

theorem State.switchPoint_wave (s : State) (k : Nat) : (s.switchPoint k).cur.wave = s.cur.wave := by
  unfold State.switchPoint
  split
  · split <;> rfl
  · rfl

/-- Of the wave itself a trap of the group's lanes changes the latches and the run alone. -/
theorem State.raise_keeps_wave (s : State) (hg : s.Group) (hc : s.CanTrap) (cause : Nat) (info : Nat → Word) (addr : Nat → DWord) :
    let t := s.raise s.cur.wave s.mask s.cur.pc ((lanesOf s.mask).map fun l => { lane := l, cause := cause, info := info l, addr := addr l })
    { t.w with lanes := s.w.lanes, slatch := s.w.slatch, run := s.w.run } = s.w := by
  intro t
  have hne : (lanesOf s.mask).map (fun l => ({ lane := l, cause := cause, info := info l, addr := addr l } : Report)) ≠ [] := by
    obtain ⟨l, hl⟩ := exists_lane hg.some
    exact List.ne_nil_of_mem (List.mem_map_of_mem ((mem_lanesOf _ _).2 hl))
  obtain ⟨u, raised, outside, -, -, wave, -⟩ := s.raise_traps s.cur.wave s.mask s.cur.pc _ hg.wave hg.frozenLanes hne hc.1 fun r hr => by
    obtain ⟨l, hl, rfl⟩ := List.mem_map.1 hr
    have lane := (mem_lanesOf _ _).1 hl
    have ready : (s.w.lane l).life = .ready := hg.ready l lane
    exact ⟨(hc.2 l lane).1, by simp only [Lane.live]; rw [show ((s.wave s.cur.wave).lane l).life = .ready from ready]; rfl, (hc.2 l lane).2⟩
  obtain ⟨-, -, switched, -⟩ := u.switchPoint_spec s.cur.wave
  have cur : u.cur = s.cur := by have := congrArg State.cur outside; exact this
  have w : t.w = (u.switchPoint s.cur.wave).wave s.cur.wave := by
    show t.wave t.cur.wave = _
    rw [show t = u.switchPoint s.cur.wave from raised, State.switchPoint_wave, cur]
  rw [w]
  have := congrArg (fun x : Wave => { x with lanes := s.w.lanes, slatch := s.w.slatch, run := s.w.run }) (switched)
  refine Eq.trans this ?_
  have := congrArg (fun x : Wave => { x with lanes := s.w.lanes, slatch := s.w.slatch, run := s.w.run }) wave
  exact this

/-- An instruction that faults after its checks: every lane of the group takes the trap, and of the wave's own state nothing changes. -/
theorem State.Clear.faults {s : State} {i : Instr} {sp : Spans} (h : s.Clear i sp) (can : s.CanTrap) (cause : Nat) (info : Word) (addr : DWord) :
    let t := (s.begun i sp).fault (s.begun i sp).mask cause info addr
    s.Outside t ∧ s.Took t s.mask cause (fun _ => info) (fun _ => addr) ∧ s.w.Kept t.w ∧ ∀ m, t.w.sreg m = s.w.sreg m := by
  intro t
  obtain ⟨soft, -⟩ := State.begun_soft h
  obtain ⟨outside, took, sregs, -, -⟩ :=
    (s.begun i sp).raise_took h.group_begun (h.canTrap_begun can) cause (fun _ => info) (fun _ => addr)
  have wave := (s.begun i sp).raise_keeps_wave h.group_begun (h.canTrap_begun can) cause (fun _ => info) (fun _ => addr)
  have kept : (s.begun i sp).w.Kept t.w := by
    have := congrArg (fun x : Wave => { x with
      s := (s.begun i sp).w.s, shadow := (s.begun i sp).w.shadow, dirty := (s.begun i sp).w.dirty, used := (s.begun i sp).w.used,
      fcsr := (s.begun i sp).w.fcsr, wstat := (s.begun i sp).w.wstat }) wave
    exact this
  exact ⟨(State.begun_outside h).trans outside, h.checked.took soft took, soft.kept.trans kept,
    fun m => (sregs m).trans (by simp only [Wave.sreg, soft.sregs])⟩

end Sys2Proof.Machine

/-! # The window, NOP, YIELD and SLEEP -/

namespace Sys2Proof.Machine

/-! ## Going on after an effect -/

/-- After the checks an effect is made, and then the group goes on past the instruction. -/
theorem State.Clear.goesOn {s u : State} {i : Instr} {sp : Spans} {c : Change} (h : s.Clear i sp) (hu : (s.begun i sp).Effect u c) (hc : c.Own) :
    s.Frame (u.advance u.mask) i sp { c with moved := fun l => c.moved l && !s.mask.getLsbD l } ∧ (u.advance u.mask).At s.mask fun _ => s.nextPc := by
  obtain ⟨soft, -⟩ := State.begun_soft h
  have group := h.group_begun
  have mask : u.mask = s.mask := hu.mask.trans soft.mask_eq
  have there := hu.isThere group.wave
  have thawed : u.cur.frozenLanes = 0 := by rw [hu.cur]; exact group.frozenLanes
  rw [mask]
  refine ⟨h.checked.frame (hu.trans (.advance there thawed s.mask) (Change.own_registers _ _ _)) (hc.andThen (Change.own_registers _ _ _))
    (fun _ _ => rfl) (fun _ => rfl) (fun _ => rfl) (fun _ _ => rfl) fun l hl hm => ?_, fun l hl => ?_⟩
  · have hm : c.moved l = false := by simpa [hl] using hm
    simp [Change.andThen, hl, hm]
  · obtain ⟨-, -, -, lane⟩ := u.advance_spec thawed there
    rw [mask] at lane
    have has : (u.w.lanes.find? l).isSome = true := by
      rw [hu.w.has, (soft.lane l).1]; exact h.lanes l hl
    rw [lane l, if_pos ⟨hl, has⟩, hu.nextPc, soft.nextPc]
    exact ⟨rfl, rfl⟩

theorem State.Outside.advance {a b : State} (h : a.Outside b) (m : BitVec 32) : a.Outside (b.advance m) := h

/-! ## WBASE -/

/-- The bases that WBASE sets: all ones keeps one (R72). -/
def Wave.rebase (va sa : Word) (w : Wave) : Wave :=
  { w with vb := if va = -1 then w.vb else va.toNat, sb := if sa = -1 then w.sb else sa.toNat }

theorem OwnChange.rebase (va sa : Word) : OwnChange (Wave.rebase va sa) where
  kept _ _ h := congrArg (Wave.rebase va sa) h
  lanes _ := rfl
  s _ := rfl
  slatch _ := rfl
  fcsr _ := rfl
  wstat _ := rfl

/-- What WBASE changes: the bases, and D of the old window, which takes the old bases (R72). -/
def State.rebased (s : State) (o : Ops) (va sa : Word) : Change where
  puts m := if m = s.pre.sb + o.d.toNat then some (BitVec.ofNat 32 (s.pre.sb * 65536 + s.pre.vb)) else none
  wave := Wave.rebase va sa

theorem baseOk_iff (v : Word) (limit : Nat) : baseOk v limit = true ↔ v = -1 ∨ (v.toNat % 16 = 0 ∧ v.toNat ≤ limit) := by
  simp [baseOk]

theorem exec_wbase (o : Ops) (s : State) : exec (.wbase o) s = execWbase o s := rfl

section
variable {o : Ops} {s : State} (h : s.Clear (.wbase o) spans1)
include h

/-- WBASE with two bases that it accepts (R72). -/
theorem wbase_sets {va sa : Word} (hva : lo32 (readS s.pre o.lit .w o.a) = va) (hsa : lo32 (readS s.pre o.lit .w o.b) = sa)
    (ok : (baseOk va 416 && baseOk sa 160) = true) :
    ∃ t, exec (.wbase o) s = .next t ∧ s.Outside t ∧
      s.Frame t (.wbase o) spans1 (s.rebased o va sa) ∧
      t.At s.mask fun _ => s.nextPc := by
  have group := h.group_begun
  rw [exec_wbase]
  refine State.run_answers h ?_
  simp only [State.begun_pre h, hva, hsa, ok, ↓reduceIte]
  generalize hb : s.begun (.wbase o) spans1 = b at *
  have rebased : b.Effect (b.modWave b.cur.wave (Wave.rebase va sa)) { wave := Wave.rebase va sa } :=
    .modWave group.wave (.own _ (.rebase va sa))
  have both := rebased.trans (.writeWave s.pre.sb o.d 1 (s.pre.sb * 65536 + s.pre.vb) (rebased.isThere group.wave) group.frozenLines)
    (Change.own_registers _ _ _)
  subst hb
  have whole : (s.begun (.wbase o) spans1).Effect _ (s.rebased o va sa) := both.congr (fun _ _ => rfl) (fun m => ?_) rfl (fun _ => rfl) fun _ _ => rfl
  · exact ⟨(State.begun_outside h).trans rfl, h.goesOn whole ⟨.rebase va sa, fun _ => .none⟩⟩
  · simp only [State.rebased, Change.andThen, Option.or_none]
    by_cases hm : m = s.pre.sb + o.d.toNat
    · subst hm; simp [inSpan, wordAt]
    · rw [if_neg hm, if_neg (by simp only [inSpan, Bool.and_eq_true, decide_eq_true_eq]; omega)]

/-- WBASE with a base that it does not accept (R72). -/
theorem wbase_traps (can : s.CanTrap) (bad : (baseOk (lo32 (readS s.pre o.lit .w o.a)) 416 && baseOk (lo32 (readS s.pre o.lit .w o.b)) 160) = false) :
    ∃ t, exec (.wbase o) s = .next t ∧ s.Outside t ∧ s.Took t s.mask 2 (fun _ => 0) (fun _ => 0) ∧
      t.w.vb = s.w.vb ∧ t.w.sb = s.w.sb ∧ ∀ m, t.w.sreg m = s.w.sreg m := by
  rw [exec_wbase]
  refine State.run_answers h ?_
  simp only [State.begun_pre h, bad, Bool.false_eq_true, ↓reduceIte]
  obtain ⟨outside, took, kept, sregs⟩ := h.faults can 2 0 0
  exact ⟨outside, took, by have := congrArg Wave.vb kept; exact this, by have := congrArg Wave.sb kept; exact this, sregs⟩

end

/-! ## NOP and YIELD -/

theorem exec_nop (o : Ops) (s : State) : exec (.nop o) s = execNop o s := rfl

theorem nop_goesOn {o : Ops} {s : State} (h : s.Clear (.nop o) spans1) :
    ∃ t, exec (.nop o) s = .next t ∧ s.Outside t ∧ s.Frame t (.nop o) spans1 {} ∧ t.At s.mask fun _ => s.nextPc := by
  rw [exec_nop]
  exact State.run_answers h ⟨State.begun_outside h, h.goesOn (.refl _) (Change.own_registers _ _ _)⟩

theorem exec_yield (o : Ops) (s : State) : exec (.yield o) s = execYield o s := rfl

/-- A wave ordered as if placed at a clk (R321, R477). -/
def Wave.reorder (n : Nat) (w : Wave) : Wave := { w with order := n }

theorem OwnChange.reorder (n : Nat) : OwnChange (Wave.reorder n) where
  kept _ _ h := congrArg (Wave.reorder n) h
  lanes _ := rfl
  s _ := rfl
  slatch _ := rfl
  fcsr _ := rfl
  wstat _ := rfl

/-- A critical wave k goes to the end of its core's critical order (R477). -/
def Core.yielded (k : Nat) (c : Core) : Core :=
  if c.crit.contains k then { c with crit := c.crit.filter (· != k) ++ [k] } else c

/-- YIELD orders the wave as if placed at this clk, and moves a critical wave to the end (R477). -/
theorem yield_gives_up_place {o : Ops} {s : State} (h : s.Clear (.yield o) spans1) :
    ∃ t, exec (.yield o) s = .next t ∧
      { t with waves := s.waves, cur := s.cur, cores := s.cores } = s ∧
      (∀ c, t.core c = if c = s.coreNo ∧ (s.core c).crit.contains s.cur.wave then
          { s.core c with crit := (s.core c).crit.filter (· != s.cur.wave) ++ [s.cur.wave] } else s.core c) ∧
      s.Frame t (.yield o) spans1 { wave := fun w => { w with order := s.clk } } ∧ t.At s.mask fun _ => s.nextPc := by
  have group := h.group_begun
  obtain ⟨soft, -⟩ := State.begun_soft h
  have outside := State.begun_outside h
  rw [exec_yield]
  refine State.run_answers h ?_
  generalize hb : s.begun (.yield o) spans1 = b at *
  have clk : b.clk = s.clk := by have := congrArg State.clk outside; exact this
  have core : ∀ c, b.core c = s.core c := fun c => by have := congrArg (State.core · c) outside; exact this
  have ordered : b.Effect (b.modWave b.cur.wave (Wave.reorder b.clk)) { wave := Wave.reorder b.clk } :=
    .modWave group.wave (.own _ (.reorder b.clk))
  have both := ordered.trans (.outside (t := (b.modWave b.cur.wave (Wave.reorder b.clk)).modCore b.coreNo (Core.yielded b.cur.wave)) rfl rfl)
    (Change.own_registers _ _ _)
  have whole : b.Effect _ { wave := Wave.reorder s.clk } := both.congr (fun _ _ => rfl) (fun _ => rfl) (by rw [clk]; rfl) (fun _ => rfl) fun _ _ => rfl
  subst hb
  have others := congrArg (fun x : State => { x with cores := s.cores }) outside
  refine ⟨others, fun c => ?_, h.goesOn whole ⟨.reorder _, fun _ => .none⟩⟩
  show (((s.begun (.yield o) spans1).modWave _ _).modCore (s.begun (.yield o) spans1).coreNo (Core.yielded (s.begun (.yield o) spans1).cur.wave)).core c = _
  rw [State.core_modCore, soft.coreNo, soft.wave]
  show (if s.coreNo = c then Core.yielded s.cur.wave ((s.begun (.yield o) spans1).core s.coreNo) else (s.begun (.yield o) spans1).core c) = _
  rw [core, core, Core.yielded]
  by_cases hc : s.coreNo = c
  · subst hc; simp
  · rw [if_neg hc, if_neg fun h => hc h.1.symm]

/-! ## SLEEP -/

theorem exec_sleep (o : Ops) (s : State) : exec (.sleep o) s = execSleep o s := rfl

/-- Acts that leave the state as it is. -/
theorem State.actAll_still {s : State} {f : State → Nat → Acted} {g : Nat → Option Stop} (thawed : s.cur.frozenLanes = 0)
    (hf : ∀ l, f s l = (s, g l)) : s.actAll false f = (s, (lanesOf s.mask).filterMap fun l => (g l).map fun e => (l, e)) := by
  suffices hs : ∀ (ls : List Nat) acc, ls.foldl (actNext f) (s, acc) = (s, acc ++ ls.filterMap fun l => (g l).map fun e => (l, e)) from hs _ []
  intro ls
  induction ls with
  | nil => intro acc; simp
  | cons l ls ih =>
    intro acc
    have step : actNext f (s, acc) l = (s, acc ++ ((g l).map fun e => (l, e)).toList) := by
      simp only [actNext, thawed, hf]
      cases g l <;> simp
    rw [List.foldl_cons, step, ih]
    cases h : g l <;> simp [h]

/-- Stops that block lanes. -/
theorem State.settleStops_blocks (s : State) (i : Instr) (thawed : s.cur.frozenLanes = 0) (ls : List Nat) (w : Nat → Wait) :
    s.settleStops i (ls.map fun l => (l, .block (w l))) = ls.foldl (fun t l => t.block s.cur.wave (1#32 <<< l) (w l)) s := by
  have parks : (ls.map fun l => (l, Stop.block (w l))).filterMap (fun p => p.2.parking p.1) = [] := by simp [Stop.parking]
  have reports : ∀ v : Wave, (ls.map fun l => (l, Stop.block (w l))).filterMap (fun p => p.2.report p.1 (v.lane p.1).member) = [] := by
    simp [Stop.report]
  have all : (ls.map fun l => (l, Stop.block (w l))).filter (fun p => !s.cur.frozenLanes.getLsbD p.1) = ls.map fun l => (l, Stop.block (w l)) := by
    simp [thawed]
  simp only [State.settleStops, all, parks, reports, List.filter_nil, State.park, List.isEmpty_nil, ↓reduceIte, List.foldl_map]

/-- A lane of the executing wave that is blocked keeps its PC. -/
theorem State.Effect.block {b : State} (there : (b.waves.find? b.cur.wave).isSome) (m : BitVec 32) (x : Wait) :
    b.Effect (b.block b.cur.wave m x) { moved := fun l => m.getLsbD l } :=
  .modWave there (Wave.Alters.moves _ m _ fun _ _ => rfl)

theorem State.lane_block {b : State} (there : (b.waves.find? b.cur.wave).isSome) (m : BitVec 32) (x : Wait) (l : Nat) :
    (b.block b.cur.wave m x).w.lane l =
      if m.getLsbD l ∧ (b.w.lanes.find? l).isSome then { b.w.lane l with life := .blocked x } else b.w.lane l := by
  have w : (b.block b.cur.wave m x).w = b.w.modLanes m fun _ l => { l with life := .blocked x } := State.wave_modWave b _ there
  rw [w, Wave.lane_modLanes]

/-- Lanes that each block, in turn. -/
theorem State.blocks_block {b : State} (there : (b.waves.find? b.cur.wave).isSome) {ls : List Nat} (nodup : ls.Nodup) (small : ∀ l ∈ ls, l < 32)
    (has : ∀ l ∈ ls, (b.w.lanes.find? l).isSome) (x : Nat → Wait) :
    let t := ls.foldl (fun t l => t.block b.cur.wave (1#32 <<< l) (x l)) b
    b.Effect t { moved := fun l => decide (l ∈ ls) } ∧ (∀ l, (t.w.lane l).pc = (b.w.lane l).pc) ∧
      (∀ l ∈ ls, (t.w.lane l).life = .blocked (x l)) ∧ { t with waves := b.waves } = b := by
  have := foldl_induction (f := fun t l => t.block b.cur.wave (1#32 <<< l) (x l)) (s := b) (fun done t =>
    b.Effect t { moved := fun l => decide (l ∈ done) } ∧ (∀ l, (t.w.lane l).pc = (b.w.lane l).pc) ∧
      (∀ l ∈ done, (t.w.lane l).life = .blocked (x l)) ∧ { t with waves := b.waves } = b) nodup ⟨.refl b, fun _ => rfl, by simp, rfl⟩ ?_
  · exact this
  · rintro done t l hl fresh - ⟨effect, pc, life, rest⟩
    have here := effect.isThere there
    have step : t.Effect (t.block b.cur.wave (1#32 <<< l) (x l)) { moved := fun j => (1#32 <<< l).getLsbD j } := by
      rw [← effect.cur]; exact .block here _ _
    have bit := getLsbD_bit (small l hl)
    have lane := fun j => State.lane_block here (1#32 <<< l) (x l) j
    simp only [effect.cur, bit, decide_eq_true_eq] at lane
    refine ⟨(effect.trans step (Change.own_registers _ _ _)).congr (fun _ _ => rfl) (fun _ => rfl) rfl (fun _ => rfl) fun j hj => ?_,
      fun j => ?_, fun j hj => ?_, rest⟩
    · simpa [Change.andThen, bit] using hj
    · rw [lane]; split
      · exact pc j
      · exact pc j
    · rw [lane]; split
      · next at_l => rw [at_l.1]
      · next other =>
        have has' : (t.w.lanes.find? l).isSome = true := by rw [effect.w.has]; exact has l hl
        refine life j ((List.mem_append.1 hj).resolve_right fun e => other ?_)
        rw [List.mem_singleton.1 e]; exact ⟨rfl, has'⟩

/-- The lanes of the group that SLEEP makes wait: those whose count is not 0 (R448). -/
def State.sleepers (s : State) (o : Ops) : List Nat := (lanesOf s.mask).filter fun l => (readV s.pre l o.lit .w o.a).toNat != 0

theorem State.mem_sleepers (s : State) (o : Ops) (l : Nat) :
    l ∈ s.sleepers o ↔ s.mask.getLsbD l = true ∧ (readV s.pre l o.lit .w o.a).toNat ≠ 0 := by
  simp only [State.sleepers, List.mem_filter, mem_lanesOf, bne_iff_ne]

/-- The acts of SLEEP. -/
theorem sleep_acts {b : State} (o : Ops) (thawed : b.cur.frozenLanes = 0) :
    (b.actAll false fun t l => if (readV b.pre l o.lit .w o.a).toNat = 0 then done t
      else stop t (.block (.sleep (t.clk + (readV b.pre l o.lit .w o.a).toNat) t.nextPc))) =
    (b, (b.sleepers o).map fun l => (l, .block (.sleep (b.clk + (readV b.pre l o.lit .w o.a).toNat) b.nextPc))) := by
  rw [State.actAll_still (g := fun l => if (readV b.pre l o.lit .w o.a).toNat = 0 then none
    else some (.block (.sleep (b.clk + (readV b.pre l o.lit .w o.a).toNat) b.nextPc))) thawed fun l => by split <;> rfl]
  refine congrArg _ ?_
  simp only [State.sleepers]
  induction lanesOf b.mask with
  | nil => rfl
  | cons l ls ih => by_cases hl : (readV b.pre l o.lit .w o.a).toNat = 0 <;> simp [hl, ih]

theorem State.lane_advance {b : State} (there : (b.waves.find? b.cur.wave).isSome) (thawed : b.cur.frozenLanes = 0) (m : BitVec 32) (l : Nat) :
    (b.advance m).w.lane l = if m.getLsbD l = true ∧ (b.w.lanes.find? l).isSome = true then { b.w.lane l with pc := b.nextPc, life := .ready }
      else b.w.lane l := by
  have w : (b.advance m).w = b.w.sendTo m b.nextPc := by rw [b.advance_eq m thawed]; exact State.wave_modWave b _ there
  rw [w, Wave.sendTo, Wave.lane_modLanes]

/-- Acts that leave the state as it is and block some lanes of the group: the others go on. -/
theorem State.lanewise_blocks {b : State} (group : b.Group) (i : Instr) {f : State → Nat → Acted} {ls : List Nat} (nodup : ls.Nodup)
    (ours : ∀ l ∈ ls, b.mask.getLsbD l = true) (has : ∀ l, b.mask.getLsbD l = true → (b.w.lanes.find? l).isSome) {x : Nat → Wait}
    (acts : b.actAll false f = (b, ls.map fun l => (l, .block (x l)))) :
    let t := b.lanewise i false false f
    b.Effect t { moved := fun l => b.mask.getLsbD l } ∧ { t with waves := b.waves } = b ∧
      (∀ l, b.mask.getLsbD l = true → l ∉ ls → (t.w.lane l).pc = b.nextPc ∧ (t.w.lane l).life = .ready) ∧
      ∀ l ∈ ls, (t.w.lane l).pc = (b.w.lane l).pc ∧ (t.w.lane l).life = .blocked (x l) := by
  have goes : ∀ l, (b.mask &&& ~~~ maskOf ls).getLsbD l = (b.mask.getLsbD l && decide (l ∉ ls)) := fun l => by
    by_cases hl : b.mask.getLsbD l = true
    · have small : l < 32 := BitVec.lt_of_getLsbD hl
      simp only [BitVec.getLsbD_and, BitVec.getLsbD_not, maskOf_lanesOf_bit, hl, small]
      simp
    · simp [BitVec.getLsbD_and, hl]
  have effect := State.Effect.advance group.wave group.frozenLanes (b.mask &&& ~~~ maskOf ls)
  have lane := State.lane_advance group.wave group.frozenLanes (b.mask &&& ~~~ maskOf ls)
  simp only [goes, Bool.and_eq_true, decide_eq_true_eq] at effect lane
  obtain ⟨blocked, pc, life, rest⟩ := State.blocks_block (effect.isThere group.wave) nodup (fun l hl => BitVec.lt_of_getLsbD (ours l hl))
    (fun l hl => by rw [effect.w.has]; exact has l (ours l hl)) x
  have whole : b.lanewise i false false f =
      ls.foldl (fun t l => t.block (b.advance (b.mask &&& ~~~ maskOf ls)).cur.wave (1#32 <<< l) (x l)) (b.advance (b.mask &&& ~~~ maskOf ls)) := by
    have names : (ls.map fun l => (l, Stop.block (x l))).map (·.1) = ls := by simp [Function.comp_def]
    simp only [State.lanewise, acts, names, Bool.false_eq_true, ↓reduceIte]
    exact State.settleStops_blocks (b.advance _) i group.frozenLanes ls x
  rw [whole]
  refine ⟨(effect.trans blocked (Change.own_registers _ _ _)).congr (fun _ _ => rfl) (fun _ => rfl) rfl (fun _ => rfl) fun l hl => ?_,
    congrArg (fun y : State => { y with waves := b.waves }) rest, fun l hl fresh => ?_, fun l hl => ⟨?_, life l hl⟩⟩
  · have hl : b.mask.getLsbD l = false := hl
    have fresh : l ∉ ls := fun mem => by rw [ours l mem] at hl; cases hl
    simp [Change.andThen, hl, fresh]
  · have still := (blocked.w.still l (decide_eq_false fresh)).2
    rw [pc l, still, lane, if_pos ⟨⟨hl, fresh⟩, has l hl⟩]
    exact ⟨rfl, rfl⟩
  · rw [pc l, lane, if_neg fun h => h.1.2 hl]

/-- Lanes whose count is 0 go on, the others wait for theirs (R448). -/
theorem sleep_waits {o : Ops} {s : State} (h : s.Clear (.sleep o) spans1) (vector : o.s = false) :
    ∃ t, exec (.sleep o) s = .next t ∧ s.Outside t ∧ s.Frame t (.sleep o) spans1 {} ∧
      ∀ l, s.mask.getLsbD l = true →
        if (reader s.pre o l .w .a).toNat = 0 then (t.w.lane l).pc = s.nextPc ∧ (t.w.lane l).life = .ready
        else (t.w.lane l).pc = (s.w.lane l).pc ∧
          (t.w.lane l).life = .blocked (.sleep (s.clk + (reader s.pre o l .w .a).toNat) s.nextPc) := by
  have group := h.group_begun
  obtain ⟨soft, -⟩ := State.begun_soft h
  have outside := State.begun_outside h
  have clk : (s.begun (.sleep o) spans1).clk = s.clk := by have := congrArg State.clk outside; exact this
  have pre := State.begun_pre h
  have sleeper := (s.begun (.sleep o) spans1).mem_sleepers o
  obtain ⟨effect, rest, goes, waits⟩ := State.lanewise_blocks group (.sleep o) (List.Nodup.filter _ (lanesOf_nodup _))
    (fun l hl => ((sleeper l).1 hl).1) (fun l hl => by rw [(soft.lane l).1]; exact h.lanes l (by rwa [soft.mask_eq] at hl))
    (sleep_acts o group.frozenLanes)
  rw [exec_sleep]
  refine State.run_answers h ?_
  refine ⟨outside.trans ?_, h.checked.frame effect (Change.own_registers _ _ _) (fun _ _ => rfl) (fun _ => rfl) (fun _ => rfl)
    (fun _ _ => rfl) fun l hl _ => by rw [soft.mask_eq]; exact hl, fun l hl => ?_⟩
  · have := congrArg (fun y : State => { y with cur := (s.begun (.sleep o) spans1).cur }) rest
    exact this
  · have read : reader s.pre o l .w .a = readV s.pre l o.lit .w o.a := by simp only [reader, vector]; rfl
    rw [read]
    simp only [soft.mask_eq, pre] at sleeper
    split
    · next zero =>
      obtain ⟨pc, life⟩ := goes l (by rw [soft.mask_eq]; exact hl) fun mem => ((sleeper l).1 mem).2 zero
      exact ⟨pc.trans soft.nextPc, life⟩
    · next count =>
      obtain ⟨pc, life⟩ := waits l ((sleeper l).2 ⟨hl, count⟩)
      exact ⟨pc.trans (soft.lane l).2.2.2.1, life.trans (by rw [clk, soft.nextPc, pre])⟩

/-- Settles O17: each of the four instructions makes its one effect after the checks, and its lanes go on. -/
theorem windowNopYieldAndSleep : Obligations.WindowNopYieldAndSleep := by
  refine ⟨fun o s h _ => ⟨fun ok => ?_, fun bad can => ?_⟩, fun o s h => nop_goesOn h, fun o s h => yield_gives_up_place h,
    fun o s h vector => sleep_waits h vector⟩
  · exact wbase_sets h rfl rfl (by rw [Bool.and_eq_true, baseOk_iff, baseOk_iff]; exact ok)
  · exact wbase_traps h can (by rw [← Bool.not_eq_true, Bool.and_eq_true, baseOk_iff, baseOk_iff]; exact bad)

end Sys2Proof.Machine

/-! # RDSR -/

namespace Sys2Proof.Machine

/-! ## What a special register reads as, of the parts of the state that it is read from -/

/-- The high halves held for the wave are T (R432). -/
def Wave.withHigh (T : Tbl Word) (w : Wave) : Wave := { w with srHigh := T }

theorem OwnChange.withHigh (T : Tbl Word) : OwnChange (Wave.withHigh T) where
  kept _ _ h := congrArg (Wave.withHigh T) h
  lanes _ := rfl
  s _ := rfl
  slatch _ := rfl
  fcsr _ := rfl
  wstat _ := rfl

/-- t reads like s but for FCSR and WSTAT: outside the waves all is the same, and the own fields of the executing wave and of its lanes are. -/
structure State.ReadsLike (s t : State) : Prop where
  outside : s.Outside t
  cur : t.cur.wave = s.cur.wave
  mask : t.mask = s.mask
  wave : (s.w.withHigh t.w.srHigh).Kept t.w
  fcsr : t.w.fcsr = s.w.fcsr
  lane : ∀ l, (s.w.lane l).Kept (t.w.lane l)

namespace State.ReadsLike
variable {s t : State} (h : s.ReadsLike t)
include h

theorem team (k : Nat) : t.team k = s.team k := by have := congrArg (State.team · k) h.outside; exact this
theorem ctx (c : Nat) : t.ctx c = s.ctx c := by have := congrArg (State.ctx · c) h.outside; exact this
theorem core (c : Nat) : t.core c = s.core c := by have := congrArg (State.core · c) h.outside; exact this
theorem die (d : Nat) : t.die d = s.die d := by have := congrArg (State.die · d) h.outside; exact this
theorem queue (q : Nat) : t.queue q = s.queue q := by have := congrArg (State.queue · q) h.outside; exact this
theorem mod : t.mod = s.mod := by have := congrArg State.mod h.outside; exact this
theorem grids : t.grids = s.grids := by have := congrArg State.grids h.outside; exact this
theorem coord (k i : Nat) : t.coord k i = s.coord k i := by have := congrArg (State.coord · k i) h.outside; exact this
theorem peerStat (n : Nat) : t.peerStat n = s.peerStat n := by simp only [State.peerStat, h.mod]
theorem agent : t.waveAgent = s.waveAgent := by
  simp only [State.waveAgent, State.coreNo, State.ctxNo, State.tm, State.tid, h.team, h.cur, h.mask]

/-- The selectors read the same. -/
theorem sel (n : Nat) : t.sel s.waveAgent n = s.sel s.waveAgent n := by
  have wave : t.wave s.cur.wave = t.w := by rw [← h.cur]; rfl
  have same := congrArg (fun w : Wave => (w.cntsel, w.ctxsel, w.slotsel, w.bwsel, w.lqsel, w.peersel, w.lwsel)) h.wave
  simp only [Prod.mk.injEq] at same
  obtain ⟨e1, e2, e3, e4, e5, e6, e7⟩ := same
  simp only [State.sel, State.waveAgent, wave, e1, e2, e3, e4, e5, e6, e7] <;> rfl

theorem srPriv (n : Nat) : t.srPriv s.waveAgent n = s.srPriv s.waveAgent n := by
  simp only [State.srPriv, State.ctxSel, State.lqSel, State.lwSel, State.slotSel, State.shareSel, h.sel, h.ctx, h.die, h.queue, h.mod, h.core, h.peerStat] <;> rfl

theorem srUser (m : BitVec 32) {n : Nat} (hn : n ≠ 0x010) (l : Nat) : t.srUser s.cur.wave m n l = s.srUser s.cur.wave m n l := by
  have wave : t.wave s.cur.wave = t.w := by rw [← h.cur]; rfl
  have own := congrArg (fun w : Wave => (w.waveId, w.sb, w.vb, w.tstatus, w.ssp, w.sslim, w.trapvec, w.rimg)) h.wave
  have lane := congrArg (fun x : Lane => (x.tcause, x.tinfo, x.tpc, x.taddr, x.tparent, x.tsibs)) (h.lane l)
  simp only [Prod.mk.injEq] at own lane
  obtain ⟨w1, w2, w3, w4, w5, w6, w7, w8⟩ := own
  obtain ⟨l1, l2, l3, l4, l5, l6⟩ := lane
  simp only [State.srUser, wave, w1, w2, w3, w4, w5, w6, w7, w8, l1, l2, l3, l4, l5, l6, h.fcsr, h.team, h.ctx, h.coord]
  split
  case h_13 => exact absurd rfl hn
  all_goals rfl

end State.ReadsLike

theorem exec_rdsr (o : Ops) (s : State) : exec (.rdsr o) s = execRdsr o s := rfl

/-- Of a number that the group may reach the effect follows the checks (R81, R431). -/
theorem State.runSr_clear {s : State} {i : Instr} {o : Ops} {n : Nat} (h : s.Clear i spans1) (number : s.srNumber o = n) (below : n < 0x400)
    (bridge : n ≠ brsel) (assigned : srAssigned n = true) (reach : 0x200 ≤ n → s.ctxNo = 0) (f : State → Nat → State) :
    s.runSr i o f = f (s.begun i spans1) n := by
  have priv : (n == brsel || (0x200 ≤ n && n < 0x400 && s.ctxNo != 0)) = false := by
    rw [Bool.or_eq_false_iff]
    refine ⟨beq_false_of_ne bridge, ?_⟩
    by_cases hn : 0x200 ≤ n
    · simp [reach hn]
    · simp [hn]
  simp only [State.runSr, number, priv]
  simp only [below, assigned, decide_true, Bool.and_self, ↓reduceIte, State.start_clear h]

/-- What the checks leave reads like the state before them. -/
theorem State.Clear.readsLike {s : State} {i : Instr} {sp : Spans} (h : s.Clear i sp) : s.ReadsLike (s.begun i sp) := by
  obtain ⟨soft, -⟩ := State.begun_soft h
  have same := congrArg (Wave.withHigh (s.begun i sp).w.srHigh) soft.kept
  exact ⟨State.begun_outside h, soft.wave, soft.mask_eq, same, soft.fcsr, fun l => (soft.lane l).2.1⟩

/-- Writing registers and held halves changes nothing that is read. -/
theorem State.ReadsLike.effect {s b t : State} (h : s.ReadsLike b) {put : Nat → Nat → Option Word} {puts : Nat → Option Word} {T : Tbl Word}
    (effect : b.Effect t { put := put, puts := puts, wave := Wave.withHigh T }) (rest : { t with waves := b.waves } = b) : s.ReadsLike t where
  outside := h.outside.trans (by have := congrArg (fun x : State => { x with cur := b.cur }) rest; exact this)
  cur := by rw [effect.cur]; exact h.cur
  mask := effect.mask.trans h.mask
  wave := by
    have before : (s.w.withHigh t.w.srHigh).Kept (b.w.withHigh t.w.srHigh) := congrArg (Wave.withHigh t.w.srHigh) h.wave
    have after : (b.w.withHigh t.w.srHigh).Kept t.w := congrArg (Wave.withHigh t.w.srHigh) effect.w.kept
    exact before.trans after
  fcsr := effect.w.fcsr.trans h.fcsr
  lane l := (h.lane l).trans (effect.w.lanes l)

/-! ## Registers that take what is read -/

/-- Only waves differ. -/
def State.WavesOnly (b t : State) : Prop := { t with waves := b.waves } = b

theorem State.WavesOnly.trans {a b t : State} (h : a.WavesOnly b) (h' : b.WavesOnly t) : a.WavesOnly t :=
  Eq.trans (congrArg (fun x : State => { x with waves := a.waves }) h') h

theorem State.WavesOnly.outside {b t : State} (h : b.WavesOnly t) : b.Outside t := by
  have := congrArg (fun x : State => { x with cur := b.cur }) h
  exact this

theorem State.WavesOnly.dstLane (b : State) {i : Instr} (o : Ops) (l n v : Nat) (switch : isSwitch i = true) : b.WavesOnly (b.dstLane i o l n v) := by
  simp only [State.dstLane, switch, ↓reduceIte]
  cases nwOf i
  · simp only [Bool.false_eq_true, ↓reduceIte, State.writeLane]
    split <;> rfl
  · rfl

theorem State.WavesOnly.dstWave (b : State) {i : Instr} (o : Ops) (n v : Nat) (switch : isSwitch i = true) : b.WavesOnly (b.dstWave i o n v) := by
  simp only [State.dstWave, switch, ↓reduceIte]
  cases nwOf i <;> rfl

/-- A record of the clk that freezes nothing and holds the wave as the picks read it, of a wave with its lanes. -/
structure State.Writable (b : State) : Prop where
  there : (b.waves.find? b.cur.wave).isSome
  lanes : ∀ l, b.mask.getLsbD l = true → (b.w.lanes.find? l).isSome
  frozen : b.cur.frozen = []
  frozenLanes : b.cur.frozenLanes = 0
  frozenLines : b.cur.frozenLines = []
  saved : b.cur.pre.isSome

theorem State.Writable.effect {b t : State} {c : Change} (h : b.Writable) (effect : b.Effect t c) : t.Writable where
  there := effect.isThere h.there
  lanes l hl := by rw [effect.w.has]; exact h.lanes l (by rwa [effect.mask] at hl)
  frozen := by rw [effect.cur]; exact h.frozen
  frozenLanes := by rw [effect.cur]; exact h.frozenLanes
  frozenLines := by rw [effect.cur]; exact h.frozenLines
  saved := by rw [effect.cur]; exact h.saved

/-- Operands are read from the saved wave, which an effect does not change. -/
theorem State.Writable.pre {b t : State} {c : Change} (h : b.Writable) (effect : b.Effect t c) : t.pre = b.pre := by
  obtain ⟨p, hp⟩ := Option.isSome_iff_exists.1 h.saved
  simp only [State.pre, effect.cur, hp, Option.getD_some]

theorem State.Clear.writable {s : State} {i : Instr} {sp : Spans} (h : s.Clear i sp) : (s.begun i sp).Writable := by
  obtain ⟨soft, pre⟩ := State.begun_soft h
  have group := h.group_begun
  exact ⟨group.wave, group.lanes, group.frozen, group.frozenLanes, group.frozenLines, by rw [pre]; rfl⟩

/-- The one register of a value. -/
theorem wordAt_toNat (v : Word) {base r : Nat} {d : Code} (h : inSpan base d 1 r = true) : wordAt v.toNat (r - (base + d.toNat)) = v := by
  simp only [inSpan, Bool.and_eq_true, decide_eq_true_eq] at h
  rw [show r - (base + d.toNat) = 0 by omega]
  simp [wordAt]

/-- A read of one lane after another, each of which changes the wave's held halves at most, into one register of each. -/
theorem State.Writable.foldReads {b : State} (h : b.Writable) {i : Instr} (o : Ops) (switch : isSwitch i = true) {read : State → Nat → State × Word}
    {val : Nat → Word} (K : List Nat → Tbl Word → Prop) (start : K [] b.w.srHigh)
    (step : ∀ done t l put, l ∈ lanesOf b.mask → l ∉ done → b.Effect t { put := put, wave := Wave.withHigh t.w.srHigh } → b.WavesOnly t →
      K done t.w.srHigh → ∃ u T, read t l = (u, val l) ∧ t.Effect u { wave := Wave.withHigh T } ∧ t.WavesOnly u ∧ K (done ++ [l]) T) :
    let t := (lanesOf b.mask).foldl (fun s l => let r := read s l; r.1.dstLane i o l 1 r.2.toNat) b
    b.Effect t { put := fun l r => if b.mask.getLsbD l && !nwOf i && inSpan b.pre.vb o.d 1 r then some (val l) else none,
                 wave := Wave.withHigh t.w.srHigh } ∧ b.WavesOnly t ∧ K (lanesOf b.mask) t.w.srHigh := by
  have := foldl_induction (f := fun s l => let r := read s l; r.1.dstLane i o l 1 r.2.toNat) (s := b) (fun done t =>
    b.Effect t { put := fun l r => if decide (l ∈ done) && !nwOf i && inSpan b.pre.vb o.d 1 r then some (val l) else none,
                 wave := Wave.withHigh t.w.srHigh } ∧ b.WavesOnly t ∧ K done t.w.srHigh) (lanesOf_nodup b.mask)
    ⟨(Effect.refl b).congr (fun _ _ => by simp) (fun _ => rfl) rfl (fun _ => rfl) fun _ _ => rfl, rfl, start⟩ ?_
  · obtain ⟨effect, rest, held⟩ := this
    exact ⟨effect.congr (fun l r => by simp only [mem_lanesOf, Bool.decide_eq_true]) (fun _ => rfl) rfl (fun _ => rfl) fun _ _ => rfl, rest, held⟩
  · rintro done t l hl fresh - ⟨effect, rest, held⟩
    obtain ⟨u, T, hread, reads, same, holds⟩ := step done t l _ hl fresh effect rest held
    have writable := (h.effect effect).effect reads
    have mask : u.mask = b.mask := reads.mask.trans effect.mask
    have writes := Effect.dstLane (b := u) o 1 (val l).toNat writable.there (writable.lanes l (by rw [mask, ← mem_lanesOf]; exact hl)) writable.frozen
      writable.frozenLanes switch
    have pre : u.pre = b.pre := ((h.effect effect).pre reads).trans (h.pre effect)
    have whole := (effect.trans reads ⟨.withHigh T, fun _ => .none⟩).trans writes (Change.own_registers _ _ _)
    have high : (u.dstLane i o l 1 (val l).toNat).w.srHigh = T := congrArg Wave.srHigh whole.w.kept
    simp only [hread]
    refine ⟨whole.congr (fun j r => ?_) (fun _ => rfl) (by rw [high]; rfl) (fun _ => rfl) fun _ _ => rfl,
      (rest.trans same).trans (.dstLane u o l 1 _ switch), by rw [high]; exact holds⟩
    simp only [Change.andThen, pre, Option.or_none, List.mem_append, List.mem_singleton]
    by_cases hj : j = l
    · subst hj
      simp only [fresh, decide_true, decide_false, Bool.true_and, Bool.false_and, Bool.false_eq_true, ↓reduceIte, or_true]
      split
      · next written =>
        rw [wordAt_toNat _ (Bool.and_eq_true _ _ ▸ written).2]; rfl
      · rfl
    · simp [hj]

/-- One value into a register of each lane of the group, or of the wave. -/
def State.writeAll (u : State) (i : Instr) (o : Ops) (v : Word) : State :=
  if o.s then u.dst i o 0 1 v.toNat else (lanesOf u.mask).foldl (fun s l => s.dst i o l 1 v.toNat) u

theorem State.Writable.writeAll {u : State} (h : u.Writable) {i : Instr} (o : Ops) (switch : isSwitch i = true) (v : Word) :
    u.Effect (u.writeAll i o v) (u.puts i o 1 fun _ _ => v) ∧ u.WavesOnly (u.writeAll i o v) := by
  cases scalar : o.s
  · have writes := h.foldReads o switch (read := fun s _ => (s, v)) (val := fun _ => v) (fun _ T => T = u.w.srHigh) rfl
      fun done t l put _ _ effect same held => ⟨t, t.w.srHigh, rfl, (Effect.refl t).congr (fun _ _ => rfl) (fun _ => rfl) rfl (fun _ => rfl) fun _ _ => rfl, rfl, held⟩
    have same : u.writeAll i o v = (lanesOf u.mask).foldl (fun s l => s.dstLane i o l 1 v.toNat) u := by
      simp only [State.writeAll, State.dst, scalar, Bool.false_eq_true, ↓reduceIte]
    rw [same]
    obtain ⟨effect, rest, held⟩ := writes
    exact ⟨effect.congr (fun l r => by simp [State.puts, scalar]) (fun m => by simp [State.puts, scalar]) (by rw [held]; rfl) (fun _ => rfl) fun _ _ => rfl, rest⟩
  · have same : u.writeAll i o v = u.dstWave i o 1 v.toNat := by simp only [State.writeAll, State.dst, scalar, ↓reduceIte]
    rw [same]
    refine ⟨(Effect.dstWave o 1 v.toNat h.there h.frozenLines switch).congr (fun l r => by simp [State.puts, scalar]) (fun m => ?_) rfl (fun _ => rfl) fun _ _ => rfl,
      .dstWave u o 1 _ switch⟩
    simp only [State.puts, scalar, Bool.true_and]
    split
    · next written => rw [wordAt_toNat _ (Bool.and_eq_true _ _ ▸ written).2]
    · rfl

/-! ## RDSR as a read and then writes -/

theorem opcodeOf_rdsr (o : Ops) : opcodeOf (.rdsr o) = 0x1E2 := rfl

theorem isSwitch_rdsr (o : Ops) : isSwitch (.rdsr o) = true := by simp [isSwitch, classOf, opcodeOf_rdsr]

/-- The number that B names is one that the group may read (R81). -/
structure State.Reaches (s : State) (o : Ops) (n : Nat) : Prop where
  number : s.srNumber o = n
  below : n < 0x400
  bridge : n ≠ brsel
  assigned : srAssigned n = true
  reach : 0x200 ≤ n → s.ctxNo = 0

section
variable {o : Ops} {s : State} (h : s.Clear (.rdsr o) spans1) {n : Nat} (hn : s.Reaches o n)
include h hn

/-- A register that is read once, for the group or for its lowest lane: the read, and then what it reads into D. -/
theorem rdsr_once (once : o.s = true ∨ srPerLane n = false) {u : State} {v : Word} {g : Wave → Wave} (own : OwnChange g)
    (read : (s.begun (.rdsr o) spans1).readHalf s.waveAgent n (lowest s.mask) = (u, v))
    (effect : (s.begun (.rdsr o) spans1).Effect u { wave := g }) :
    ∃ t, exec (.rdsr o) s = .next t ∧ u.Outside t ∧ s.Frame t (.rdsr o) spans1 { s.puts (.rdsr o) o 1 fun _ _ => v with wave := g } ∧
      t.At s.mask fun _ => s.nextPc := by
  obtain ⟨soft, -⟩ := State.begun_soft h
  have agent := h.readsLike.agent
  have pre : u.pre = s.pre := (h.writable.pre effect).trans (State.begun_pre h)
  have mask : u.mask = s.mask := effect.mask.trans soft.mask_eq
  obtain ⟨writes, rest⟩ := (h.writable.effect effect).writeAll o (isSwitch_rdsr o) v
  have whole := effect.trans writes (Change.own_registers _ _ _)
  obtain ⟨frame, goes⟩ := h.goesOn (whole.congr (d := { s.puts (.rdsr o) o 1 fun _ _ => v with wave := g })
    (fun l r => by simp [Change.andThen, State.puts, pre, mask]) (fun m => by simp [Change.andThen, State.puts, pre]) rfl (fun _ => rfl) fun _ _ => rfl)
    ⟨own, fun _ => .none⟩
  refine ⟨(u.writeAll (.rdsr o) o v).advance (u.writeAll (.rdsr o) o v).mask, ?_, rest.outside.advance _, frame, goes⟩
  rw [exec_rdsr, execRdsr, State.runSr_clear h hn.number hn.below hn.bridge hn.assigned hn.reach]
  have lanes : (!o.s && srPerLane n) = false := by rcases once with e | e <;> simp [e]
  simp only [lanes, Bool.false_eq_true, ↓reduceIte, agent, soft.mask_eq, read]
  have wrote : (if o.s then u.dst (.rdsr o) o 0 1 v.toNat else (lanesOf s.mask).foldl (fun s l => s.dst (.rdsr o) o l 1 v.toNat) u) =
      u.writeAll (.rdsr o) o v := by rw [State.writeAll, mask]
  rw [wrote]

/-- A per-lane register in a vector form: each lane's own, one lane after another. -/
theorem rdsr_lanes (vector : o.s = false) (lanes : srPerLane n = true) {val : Nat → Word} (K : List Nat → Tbl Word → Prop) (start : K [] s.w.srHigh)
    (step : ∀ done t l, l ∉ done → s.ReadsLike t → t.Writable → K done t.w.srHigh → ∃ u T,
      t.readHalf s.waveAgent n l = (u, val l) ∧ t.Effect u { wave := Wave.withHigh T } ∧ t.WavesOnly u ∧ K (done ++ [l]) T) :
    ∃ t, exec (.rdsr o) s = .next t ∧ s.Outside t ∧ K (lanesOf s.mask) t.w.srHigh ∧
      s.Frame t (.rdsr o) spans1 { s.puts (.rdsr o) o 1 fun l _ => val l with wave := Wave.withHigh t.w.srHigh } ∧
      t.At s.mask fun _ => s.nextPc := by
  obtain ⟨soft, -⟩ := State.begun_soft h
  have agent := h.readsLike.agent
  have mask := soft.mask_eq
  have pre := State.begun_pre h
  have high : (s.begun (.rdsr o) spans1).w.srHigh = s.w.srHigh := by have := congrArg Wave.srHigh soft.kept; exact this
  obtain ⟨effect, rest, held⟩ := h.writable.foldReads o (isSwitch_rdsr o) (read := fun t l => t.readHalf s.waveAgent n l) K (by rw [high]; exact start)
    fun done t l put _ fresh effect rest held => step done t l fresh (h.readsLike.effect effect rest) (h.writable.effect effect) held
  rw [mask] at effect rest held
  generalize ht : (lanesOf s.mask).foldl (fun t l => let r := t.readHalf s.waveAgent n l; r.1.dstLane (.rdsr o) o l 1 r.2.toNat)
    (s.begun (.rdsr o) spans1) = t at *
  have after : (t.advance t.mask).w.srHigh = t.w.srHigh := by
    have := congrArg Wave.srHigh (State.Effect.advance (effect.isThere h.writable.there) (h.writable.effect effect).frozenLanes t.mask).w.kept
    exact this
  obtain ⟨frame, goes⟩ := h.goesOn (effect.congr (d := { s.puts (.rdsr o) o 1 fun l _ => val l with wave := Wave.withHigh t.w.srHigh })
    (fun l r => by simp [State.puts, vector, pre]) (fun m => by simp [State.puts, vector]) rfl (fun _ => rfl) fun _ _ => rfl)
    ⟨.withHigh _, fun _ => .none⟩
  refine ⟨t.advance t.mask, ?_, h.readsLike.outside.trans (rest.outside.advance _), by rw [after]; exact held, by rw [after]; exact frame, goes⟩
  rw [exec_rdsr, execRdsr, State.runSr_clear h hn.number hn.below hn.bridge hn.assigned hn.reach]
  simp only [vector, lanes, Bool.not_false, Bool.and_self, ↓reduceIte, agent, mask]
  simp only [State.dst, vector, Bool.false_eq_true, ↓reduceIte]
  rw [ht]

end

end Sys2Proof.Machine

namespace Sys2Proof.Machine

/-! ## The 32-bit registers -/

/-- What the register at a number reads as, of the executing wave and one of its lanes: a selector, of the user view or of the privileged one (R81). -/
def State.srValue (s : State) (n lane : Nat) : DWord :=
  if selBits n ≠ 0 then (s.sel s.waveAgent n).zeroExtend 64
  else if n < 0x200 ∨ n = 0x218 then s.srUser s.cur.wave s.mask n lane
  else s.srPriv s.waveAgent n

/-- Registers whose read changes nothing and that the checks leave as they are: not the counters, FQHEAD and WSTAT. -/
def srStill (n : Nat) : Bool := decide (n < 0x120 ∨ 0x140 ≤ n) && n != 0x233 && n != 0x010

theorem State.ReadsLike.srRead {s t : State} (h : s.ReadsLike t) {n : Nat} (still : srStill n = true) (l : Nat) :
    t.srRead s.waveAgent n l = (t, s.srValue n l) := by
  simp only [srStill, Bool.and_eq_true, decide_eq_true_eq, bne_iff_ne] at still
  obtain ⟨⟨counter, fqhead⟩, wstat⟩ := still
  have counter : ¬ (0x120 ≤ n ∧ n < 0x140) := by omega
  have fqhead : ¬ (n = 0x233 ∧ s.waveAgent.wave.isSome = true) := fun e => fqhead e.1
  simp only [State.srRead, State.srValue, counter, fqhead, ↓reduceIte, h.sel, h.srPriv]
  split
  · rfl
  · rw [← h.srUser s.mask wstat l]
    rfl

theorem State.ReadsLike.readHalf {s t : State} (h : s.ReadsLike t) {n : Nat} (still : srStill n = true) (plain : srIsPair n = false) (l : Nat) :
    t.readHalf s.waveAgent n l = (t, lo32 (s.srValue n l)) := by
  simp only [State.readHalf, plain, Bool.not_false, ↓reduceIte, h.srRead still]

/-- Only a per-lane register reads differently in two lanes (R82). -/
theorem State.srValue_lane (s : State) {n : Nat} (one : srPerLane n = false) (l l' : Nat) : s.srValue n l = s.srValue n l' := by
  simp only [State.srValue, State.srUser]
  split
  · rfl
  · split
    · split
      case h_1 | h_20 | h_21 | h_22 | h_23 | h_24 | h_25 => exact absurd one (by decide)
      all_goals rfl
    · rfl

section
variable {o : Ops} {s : State} (h : s.Clear (.rdsr o) spans1) {n : Nat} (hn : s.Reaches o n)
include h hn

/-- A 32-bit register that a read leaves as it is (R431). -/
theorem rdsr_word (still : srStill n = true) (plain : srIsPair n = false) :
    ∃ t, exec (.rdsr o) s = .next t ∧ s.Outside t ∧
      s.Frame t (.rdsr o) spans1 (s.puts (.rdsr o) o 1 fun l _ => lo32 (s.srValue n (if o.s then lowest s.mask else l))) ∧
      t.At s.mask fun _ => s.nextPc := by
  by_cases once : o.s = true ∨ srPerLane n = false
  · obtain ⟨t, ht, outside, frame, goes⟩ := rdsr_once h hn once .none (h.readsLike.readHalf still plain _) (.refl _)
    have same : ∀ l, lo32 (s.srValue n (if o.s then lowest s.mask else l)) = lo32 (s.srValue n (lowest s.mask)) := fun l => by
      rcases once with scalar | one
      · rw [if_pos scalar]
      · rw [s.srValue_lane one _ (lowest s.mask)]
    simp only [same]
    exact ⟨t, ht, h.readsLike.outside.trans outside, frame, goes⟩
  · obtain ⟨vector, lanes⟩ := not_or.1 once
    have vector : o.s = false := by simpa using vector
    obtain ⟨t, ht, outside, held, frame, goes⟩ := rdsr_lanes h hn vector (by simpa using lanes) (val := fun l => lo32 (s.srValue n l))
      (fun _ T => T = s.w.srHigh) rfl fun done t l _ like _ held => ⟨t, t.w.srHigh, like.readHalf still plain l,
        (State.Effect.refl t).congr (fun _ _ => rfl) (fun _ => rfl) rfl (fun _ => rfl) fun _ _ => rfl, rfl, held⟩
    simp only [vector, Bool.false_eq_true, ↓reduceIte]
    rw [held] at frame
    exact ⟨t, ht, outside, { frame with }, goes⟩

end

end Sys2Proof.Machine

namespace Sys2Proof.Machine

@[simp] theorem lo32_ofNat (n : Nat) : lo32 (BitVec.ofNat 64 n) = BitVec.ofNat 32 n := by
  apply BitVec.eq_of_toNat_eq
  simp [lo32]

@[simp] theorem lo32_zeroExtend (v : Word) : lo32 (v.zeroExtend 64) = v := by
  apply BitVec.eq_of_toNat_eq
  have := v.isLt
  simp [lo32]
  omega

/-- The 32-bit registers that a read leaves as they are and that the checks do, with what each is (R82, R227, R244, R307, R332). -/
def readWords : List (Nat × (State → Nat → Word)) :=
  let ctx := fun (s : State) => s.ctx s.w.ctxsel.toNat
  let queue := fun (s : State) => s.queue s.w.lqsel.toNat
  [(0x000, fun _ l => BitVec.ofNat 32 l), (0x001, fun s _ => BitVec.ofNat 32 s.w.waveId), (0x002, fun s _ => BitVec.ofNat 32 s.tm.lin),
      (0x003, fun s _ => BitVec.ofNat 32 (s.coord s.tid 0)), (0x004, fun s _ => BitVec.ofNat 32 (s.coord s.tid 1)),
      (0x005, fun s _ => BitVec.ofNat 32 (s.coord s.tid 2)),
      (0x006, fun s _ => BitVec.ofNat 32 (s.coreNo % 48)), (0x007, fun s _ => BitVec.ofNat 32 (s.coreNo / 48)),
      (0x008, fun s _ => BitVec.ofNat 32 s.ctxNo), (0x009, fun s _ => BitVec.ofNat 32 s.tm.depth), (0x00A, fun s _ => s.mask),
      (0x00B, fun s _ => BitVec.ofNat 32 (s.w.sb * 65536 + s.w.vb)), (0x011, fun s _ => s.w.fcsr), (0x012, fun s _ => s.w.tstatus),
      (0x013, fun s _ => BitVec.ofNat 32 s.w.ssp), (0x014, fun s _ => BitVec.ofNat 32 s.w.sslim), (0x015, fun s _ => (s.ctx s.ctxNo).spwndly),
      (0x020, fun s l => (s.w.lane l).tcause), (0x021, fun s l => (s.w.lane l).tinfo), (0x026, fun s l => (s.w.lane l).tparent),
      (0x027, fun s l => (s.w.lane l).tsibs), (0x100, fun s _ => s.w.cntsel),
      (0x200, fun s _ => match (s.die s.dieNo).dspNext with | some n => BitVec.ofNat 32 (0x80000000 + n) | none => (s.die s.dieNo).dspcfg),
      (0x201, fun s _ => s.w.ctxsel), (0x202, fun s _ => (ctx s).critmax), (0x203, fun s _ => (ctx s).swapthr), (0x204, fun s _ => s.w.slotsel),
      (0x205, fun s _ => (s.core s.coreNo).slotRead s.w.slotsel.toNat), (0x206, fun s _ => s.w.bwsel),
      (0x207, fun s _ => (s.die s.dieNo).shareRead s.w.bwsel.toNat), (0x224, fun s _ => (s.die s.dieNo).dspwin.get s.w.ctxsel.toNat 0),
      (0x232, fun s _ => (ctx s).fqsize), (0x234, fun s _ => (ctx s).fqtail), (0x236, fun s _ => (ctx s).fqbar),
      (0x237, fun s _ => (ctx s).wdtime), (0x23A, fun s _ => (ctx s).sampcfg), (0x23B, fun s _ => (ctx s).samphead),
      (0x250, fun s _ => s.w.lqsel), (0x251, fun s _ => (queue s).cfg), (0x254, fun s _ => (queue s).tail), (0x255, fun s _ => (queue s).head),
      (0x258, fun s _ => (s.die s.dieNo).tq s.w.ctxsel.toNat), (0x259, fun s _ => (s.die s.dieNo).therm), (0x260, fun s _ => s.mod.modnum),
      (0x261, fun s _ => s.mod.fabstat), (0x262, fun s _ => s.w.peersel), (0x263, fun s _ => s.peerStat s.w.peersel.toNat),
      (0x268, fun s _ => s.w.lwsel), (0x269, fun s _ => s.mod.lwcfg.get s.w.lwsel.toNat 0), (0x26C, fun s _ => s.mod.hcqcfg),
      (0x26D, fun s _ => s.mod.hcqhead), (0x26E, fun s _ => s.mod.pwrcap),
      (0x274, fun s _ => (if (ctx s).live then 0x80000000 else 0) ||| (if (ctx s).busy then 0x40000000 else 0))]

theorem readWords_still : ∀ n ∈ readWords.map Prod.fst,
    n < 0x400 ∧ n ≠ brsel ∧ srAssigned n = true ∧ srStill n = true ∧ srIsPair n = false := by decide

theorem readWords_value : ∀ p ∈ readWords, ∀ (s : State) (l : Nat), lo32 (s.srValue p.1 l) = p.2 s l := by
  simp only [readWords, List.forall_mem_cons, List.not_mem_nil, false_imp_iff, implies_true, and_true]
  iterate 10 refine ⟨fun _ _ => lo32_ofNat _, ?_⟩
  refine ⟨fun _ _ => lo32_zeroExtend _, fun _ _ => lo32_ofNat _, ?_⟩
  iterate 2 refine ⟨fun _ _ => lo32_zeroExtend _, ?_⟩
  iterate 2 refine ⟨fun _ _ => lo32_ofNat _, ?_⟩
  iterate 36 refine ⟨fun _ _ => lo32_zeroExtend _, ?_⟩
  have bits : ∀ a b : Bool, lo32 ((if a then 0x80000000 else 0) ||| (if b then 0x40000000 else 0)) =
      (if a then 0x80000000 else 0) ||| (if b then 0x40000000 else 0) := by decide
  exact fun s _ => bits (s.ctx s.w.ctxsel.toNat).live (s.ctx s.w.ctxsel.toNat).busy

/-- The 32-bit registers of the table. -/
theorem rdsr_readWords {n : Nat} {val : State → Nat → Word} (mem : (n, val) ∈ readWords) {o : Ops} {s : State} (h : s.Clear (.rdsr o) spans1)
    (number : s.srNumber o = n) (reach : 0x200 ≤ n → s.ctxNo = 0) :
    ∃ t, exec (.rdsr o) s = .next t ∧ s.Outside t ∧
      s.Frame t (.rdsr o) spans1 (s.puts (.rdsr o) o 1 fun l _ => val s (if o.s then lowest s.mask else l)) ∧
      t.At s.mask fun _ => s.nextPc := by
  obtain ⟨below, bridge, assigned, still, plain⟩ := readWords_still n (List.mem_map_of_mem (f := Prod.fst) mem)
  have value : ∀ l, val s l = lo32 (s.srValue n l) := fun l => (readWords_value _ mem s l).symm
  simp only [value]
  exact rdsr_word h ⟨number, below, bridge, assigned, reach⟩ still plain

/-! ## WSTAT, FQHEAD and the counters -/

theorem State.depths_switchFor (s : State) (i : Instr) (there : (s.waves.find? s.cur.wave).isSome) :
    (s.switchFor i).w.lanes.map (·.2.depth) = s.w.lanes.map (·.2.depth) := by
  obtain ⟨f, hf, depths⟩ : ∃ f : Wave → Wave, (s.switchPoint s.cur.wave).w = f s.w ∧ ∀ w, (f w).lanes.map (·.2.depth) = w.lanes.map (·.2.depth) := by
    simp only [State.switchPoint, ↓reduceIte]
    split
    · exact ⟨fun w => { w with run := 0 }, State.wave_modWave s (fun w => { w with run := 0 }) there, fun _ => rfl⟩
    · exact ⟨fun w => w.clearLatches s.cur.shifted s.cur.shiftedS, State.wave_modWave s (fun w => w.clearLatches _ _) there, fun w => by
        simp [Wave.clearLatches, Tbl.mapAll, Function.comp_def]⟩
  simp only [State.switchFor]
  split
  · rw [hf, depths]
  · rfl

/-- The checks leave the depth of every lane. -/
theorem State.Clear.depths {s : State} {i : Instr} {sp : Spans} (h : s.Clear i sp) :
    (s.begun i sp).w.lanes.map (·.2.depth) = s.w.lanes.map (·.2.depth) := by
  obtain ⟨soft, -⟩ := s.noted_soft i sp h.wave
  obtain ⟨-, -, noted⟩ := s.noted_files i sp h.wave
  obtain ⟨checked, -⟩ := s.checked_soft i sp h.wave
  obtain ⟨covered, -⟩ := State.covered_soft h
  have used : (s.begun i sp).w.lanes = (s.covered i sp).w.lanes := by
    have := State.wave_modWave (s.covered i sp) (fun w => { w with
      used := (linesUsed (s.covered i sp).pre (scalarOf i) (nwOf i) (usesOf i sp)).foldl (fun t l => t.put l (s.covered i sp).clk) w.used
      run := if !isSwitch i then w.run + 1 else w.run }) (by rw [covered.there]; exact h.wave)
    have := congrArg Wave.lanes this
    exact this
  have shadowed : (s.covered i sp).w.lanes = ((s.noted i sp).switchFor i).w.lanes := by
    obtain ⟨xs, hxs⟩ := ((s.noted i sp).switchFor i).shadowFor_eq i (usesOf i sp) (scalarOf i) (nwOf i) (State.checked_room h)
    rw [State.covered, hxs]
    split
    · rfl
    · have there : (((s.noted i sp).switchFor i).waves.find? ((s.noted i sp).switchFor i).cur.wave).isSome := by rw [checked.there]; exact h.wave
      have := State.wave_modWave ((s.noted i sp).switchFor i) (fun w => xs.foldl Wave.addShadow w) there
      have same := congrArg Wave.lanes this
      exact same.trans (Wave.addShadows_kept xs _).2.1
  rw [used, shadowed, State.depths_switchFor _ i (by rw [soft.there]; exact h.wave), noted]

theorem foldl_max_le {ys : List Nat} {d : Nat} (a : Nat) : ys.foldl max a ≤ d ↔ a ≤ d ∧ ∀ y ∈ ys, y ≤ d := by
  induction ys generalizing a with
  | nil => simp
  | cons y ys ih => rw [List.foldl_cons, ih]; simp [and_assoc]

/-- The greatest of some numbers. -/
theorem foldl_max_eq {ys : List Nat} {d : Nat} (bound : ∀ y ∈ ys, y ≤ d) (reached : d = 0 ∨ d ∈ ys) : ys.foldl max 0 = d := by
  refine Nat.le_antisymm ((foldl_max_le 0).2 ⟨Nat.zero_le d, bound⟩) ?_
  rcases reached with rfl | mem
  · exact Nat.zero_le _
  · exact ((foldl_max_le 0).1 (Nat.le_refl (ys.foldl max 0))).2 d mem

/-- WSTAT as it reads after the checks: the deepest open try, the critical mark, LTRAP and LSTALE (R83). -/
theorem State.Clear.readWstat {s : State} {i : Instr} {sp : Spans} (h : s.Clear i sp) {d : Nat} (bound : ∀ p ∈ s.w.lanes, p.2.depth ≤ d)
    (reached : d = 0 ∨ ∃ p ∈ s.w.lanes, p.2.depth = d) :
    (s.begun i sp).readWstat s.cur.wave = (s.staleAfter i sp &&& 3) ||| BitVec.ofNat 32 (d * 256) |||
      (if s.cur.wave ∈ (s.core s.coreNo).crit then 0x80 else 0) := by
  have wave : (s.begun i sp).wave s.cur.wave = (s.begun i sp).w := by rw [← h.readsLike.cur]; rfl
  have depth : (s.begun i sp).w.lanes.foldl (fun a p => max a p.2.depth) 0 = d := by
    rw [← List.foldl_map (f := fun p : Nat × Lane => p.2.depth) (g := max), h.depths]
    refine foldl_max_eq (fun y hy => ?_) (reached.imp_right fun ⟨p, hp, e⟩ => List.mem_map.2 ⟨p, hp, e⟩)
    obtain ⟨p, hp, rfl⟩ := List.mem_map.1 hy
    exact bound p hp
  have core : (s.begun i sp).coreOf s.cur.wave = s.coreNo := by simp only [State.coreOf, h.readsLike.team]; rfl
  simp only [State.readWstat, wave, depth, core, h.readsLike.core, h.checked.wstat, List.contains_iff_mem, Nat.reducePow]

end Sys2Proof.Machine

/-! # The lines of an L1 -/

namespace Sys2Proof.Machine

/-- A byte of a number that bytes stand for. -/
theorem fromBytes_byte (bs : List Byte) {i : Nat} (hi : i < bs.length) : fromBytes bs / 256 ^ i % 256 = (bs[i]).toNat := by
  rw [← fromBytes_drop bs (by omega), List.drop_eq_getElem_cons hi, fromBytes, Nat.add_mul_mod_self_left, Nat.mod_eq_of_lt bs[i].isLt]

/-- A byte of a line made of 128 bytes. -/
theorem L1Line.byte_ofBytes {bs : List Byte} (len : bs.length = 128) (dirty : BitVec 128) {i : Nat} (hi : i < 128) :
    ({ data := BitVec.ofNat 1024 (fromBytes bs), dirty := dirty } : L1Line).byte i = bs.getD i 0 := by
  have fits : fromBytes bs < 2 ^ 1024 := by
    have := fromBytes_lt bs
    rwa [len, pow_256, show 128 * 8 = 1024 from rfl] at this
  apply BitVec.eq_of_toNat_eq
  rw [List.getD_eq_getElem _ _ (by omega), ← fromBytes_byte bs (by omega)]
  simp only [L1Line.byte, BitVec.extractLsb'_toNat, BitVec.toNat_ofNat, Nat.mod_eq_of_lt fits, Nat.shiftRight_eq_div_pow, Nat.pow_mul,
    show (2 : Nat) ^ 8 = 256 from rfl]

/-- A byte of the line that memory holds. -/
theorem Memory.getD_readBytes (m : List Host.Cell) (a : Nat) {n i : Nat} (hi : i < n) : (Memory.readBytes m a n).getD i 0 = Memory.read m (a + i) := by
  simp [Memory.readBytes, hi]

theorem L1Line.refresh_byte (l : L1Line) (below : List Byte) {i : Nat} (hi : i < 128) :
    (l.refresh below).byte i = if l.dirty.getLsbD i then l.byte i else below.getD i 0 := by
  rw [L1Line.refresh, L1Line.byte_ofBytes (by simp) _ hi]
  simp [hi]

theorem L1Line.refresh_dirty (l : L1Line) (below : List Byte) : (l.refresh below).dirty = l.dirty := by simp only [L1Line.refresh]

/-! ## An acquire -/

theorem State.l1DropClean_line (s : State) (c d x : Nat) : ((s.l1DropClean c).core d).l1.find? x =
    if d = c then ((s.core c).l1.find? x).bind fun l => if l.dirty = 0 then none else some (l.refresh (s.l2Read (x * 128) 128))
    else (s.core d).l1.find? x := by
  simp only [State.l1DropClean, State.modL1, State.core_modCore]
  split
  · next e => subst e; rw [if_pos rfl, Tbl.find_sift]
  · next e => rw [if_neg (Ne.symm e)]

theorem line_of_byte (a : Nat) : a / 128 * 128 + a % 128 = a := Nat.div_add_mod' a 128

/-- The core that acquires sees each byte as it is settled (R196). -/
theorem State.l1DropClean_seen (s : State) (c a : Nat) : (s.l1DropClean c).seen c a = s.settled c a := by
  have small : a % 128 < 128 := Nat.mod_lt _ (by decide)
  simp only [State.seen, State.settled, State.l1DropClean_line, ↓reduceIte]
  cases (s.core c).l1.find? (a / 128) with
  | none => rfl
  | some l =>
    by_cases clean : l.dirty = 0
    · simp only [Option.bind_some, clean, ↓reduceIte, BitVec.ofNat_eq_ofNat, BitVec.getLsbD_zero, Bool.false_eq_true]
      rfl
    · simp only [Option.bind_some, clean, ↓reduceIte, L1Line.refresh_byte l _ small, State.l2Read, Memory.getD_readBytes _ _ small, line_of_byte]

/-- An acquire settles nothing (R196). -/
theorem State.l1DropClean_settled (s : State) (c d a : Nat) : (s.l1DropClean c).settled d a = s.settled d a := by
  have small : a % 128 < 128 := Nat.mod_lt _ (by decide)
  by_cases e : d = c
  · subst e
    simp only [State.settled, State.l1DropClean_line, ↓reduceIte]
    cases (s.core d).l1.find? (a / 128) with
    | none => rfl
    | some l =>
      by_cases clean : l.dirty = 0
      · simp only [Option.bind_some, clean, ↓reduceIte, BitVec.ofNat_eq_ofNat, BitVec.getLsbD_zero, Bool.false_eq_true]
        rfl
      · simp only [Option.bind_some, clean, ↓reduceIte, L1Line.refresh_byte l _ small]
        rw [L1Line.refresh_dirty]
        cases l.dirty.getLsbD (a % 128) <;> rfl
  · simp only [State.settled, State.l1DropClean_line, e, ↓reduceIte]
    rfl

/-- An acquire between states that are the same outside the waves. -/
theorem State.OutsideAcquire.between {s b u t : State} {acq : Bool} (h : b.OutsideAcquire u acq) (before : s.Outside b) (after : u.Outside t)
    (home : b.coreNo = s.coreNo) : s.OutsideAcquire t acq := by
  obtain ⟨same, cores, settled, still, acquired⟩ := h
  have core : ∀ c, b.core c = s.core c := fun c => by have := congrArg (State.core · c) before; exact this
  have core' : ∀ c, t.core c = u.core c := fun c => by have := congrArg (State.core · c) after; exact this
  have settles : ∀ c a, b.settled c a = s.settled c a := fun c a => by have := congrArg (State.settled · c a) before; exact this
  have settles' : ∀ c a, t.settled c a = u.settled c a := fun c a => by have := congrArg (State.settled · c a) after; exact this
  have sees' : ∀ c a, t.seen c a = u.seen c a := fun c a => by have := congrArg (State.seen · c a) after; exact this
  refine ⟨?_, fun c => by rw [core', ← core]; exact cores c, fun c a => by rw [settles', settled, settles],
    fun e c => by rw [core', still e, core], fun e => ⟨by rw [core', ← home]; exact (acquired e).1, fun a => ?_⟩⟩
  · have e1 := congrArg (fun x : State => { x with waves := s.waves, cur := s.cur, cores := s.cores }) after
    have e2 := congrArg (fun x : State => { x with waves := s.waves, cur := s.cur, cores := s.cores }) same
    have e3 := congrArg (fun x : State => { x with cores := s.cores }) before
    exact (e1.trans e2).trans e3
  · rw [sees', ← home, (acquired e).2 a, settles]

/-- An acquire drops what a core holds clean, and settles nothing (R196). -/
theorem State.l1DropClean_acquires (s : State) : s.OutsideAcquire (s.l1DropClean s.coreNo) true := by
  refine ⟨rfl, fun c => ?_, s.l1DropClean_settled s.coreNo, (fun e => absurd e (by decide)), fun _ => ⟨fun a x hx => ?_, s.l1DropClean_seen s.coreNo⟩⟩
  · simp only [State.l1DropClean, State.modL1, State.core_modCore]
    split
    · next e => subst e; rfl
    · rfl
  · rw [State.l1DropClean_line, if_pos rfl, Option.bind_eq_some_iff] at hx
    obtain ⟨l, -, hl⟩ := hx
    split at hl
    · cases hl
    · next dirty => rw [← Option.some.inj hl, L1Line.refresh_dirty]; exact dirty

end Sys2Proof.Machine

/-! # RDSR of WSTAT, of FQHEAD and of the counters -/

namespace Sys2Proof.Machine

section
variable {o : Ops} {s : State} (h : s.Clear (.rdsr o) spans1)
include h

/-- WSTAT (R83). -/
theorem rdsr_wstat {d : Nat} (number : s.srNumber o = 0x010) (bound : ∀ p ∈ s.w.lanes, p.2.depth ≤ d)
    (reached : d = 0 ∨ ∃ p ∈ s.w.lanes, p.2.depth = d) :
    ∃ t, exec (.rdsr o) s = .next t ∧ s.Outside t ∧
      s.Frame t (.rdsr o) spans1 (s.puts (.rdsr o) o 1 fun _ _ => (s.staleAfter (.rdsr o) spans1 &&& 3) ||| BitVec.ofNat 32 (d * 256) |||
        (if s.cur.wave ∈ (s.core s.coreNo).crit then 0x80 else 0)) ∧
      t.At s.mask fun _ => s.nextPc := by
  have read : (s.begun (.rdsr o) spans1).readHalf s.waveAgent 0x010 (lowest s.mask) =
      (s.begun (.rdsr o) spans1, (s.begun (.rdsr o) spans1).readWstat s.cur.wave) := Prod.ext rfl (lo32_zeroExtend _)
  obtain ⟨t, ht, outside, rest⟩ := rdsr_once h ⟨number, by decide, by decide, by decide, fun e => absurd e (by decide)⟩ (.inr (by decide)) .none read (.refl _)
  rw [h.readWstat bound reached] at rest
  exact ⟨t, ht, h.readsLike.outside.trans outside, rest⟩

/-- FQHEAD, which is an acquire (R252). -/
theorem rdsr_fqhead (number : s.srNumber o = 0x233) (here : s.ctxNo = 0) :
    ∃ t, exec (.rdsr o) s = .next t ∧ s.OutsideAcquire t true ∧
      s.Frame t (.rdsr o) spans1 (s.puts (.rdsr o) o 1 fun _ _ => (s.ctx s.w.ctxsel.toNat).fqhead) ∧ t.At s.mask fun _ => s.nextPc := by
  have like := h.readsLike
  have read : (s.begun (.rdsr o) spans1).readHalf s.waveAgent 0x233 (lowest s.mask) =
      ((s.begun (.rdsr o) spans1).l1DropClean s.coreNo, (s.ctx s.w.ctxsel.toNat).fqhead) := by
    refine Prod.ext rfl ?_
    show lo32 (((s.begun (.rdsr o) spans1).ctx ((s.begun (.rdsr o) spans1).ctxSel s.waveAgent)).fqhead.zeroExtend 64) = _
    rw [lo32_zeroExtend, State.ctxSel, like.sel, like.ctx]
    rfl
  obtain ⟨t, ht, outside, rest⟩ := rdsr_once h ⟨number, by decide, by decide, by decide, fun _ => here⟩ (.inr (by decide)) .none read
    (.outside rfl rfl)
  have home : (s.begun (.rdsr o) spans1).coreNo = s.coreNo := (State.begun_soft h).1.coreNo
  have acquires := (s.begun (.rdsr o) spans1).l1DropClean_acquires
  rw [home] at acquires
  exact ⟨t, ht, acquires.between like.outside outside home, rest⟩

/-- A counter of the selected bank counts up to this clk, by a free number of events (R244; log entry 22). -/
theorem rdsr_counter (low : 0x120 ≤ s.srNumber o) (high : s.srNumber o < 0x140) :
    let key := counterKey s.ctxNo s.w.cntsel.toNat (s.srNumber o - 0x120)
    let x := (s.core s.coreNo).counters.get key { value := 0, at_ := 0, swept := 0 }
    ∃ t e, e ≤ s.clk - x.at_ ∧ exec (.rdsr o) s = .next t ∧
      { t with waves := s.waves, cur := s.cur, cores := s.cores, free := s.free } = s ∧
      (∀ c, t.core c = if c = s.coreNo then { s.core c with
        counters := (s.core c).counters.put key { x with value := x.value + BitVec.ofNat 32 e, at_ := s.clk } } else s.core c) ∧
      s.Frame t (.rdsr o) spans1 (s.puts (.rdsr o) o 1 fun _ _ => x.value + BitVec.ofNat 32 e) ∧ t.At s.mask fun _ => s.nextPc := by
  intro key x
  have like := h.readsLike
  obtain ⟨plain, assigned, one⟩ : srIsPair (s.srNumber o) = false ∧ srAssigned (s.srNumber o) = true ∧ srPerLane (s.srNumber o) = false := by
    have all : ∀ k < 32, srIsPair (0x120 + k) = false ∧ srAssigned (0x120 + k) = true ∧ srPerLane (0x120 + k) = false := by decide
    have := all (s.srNumber o - 0x120) (by omega)
    rwa [show 0x120 + (s.srNumber o - 0x120) = s.srNumber o by omega] at this
  have clk : (s.begun (.rdsr o) spans1).clk = s.clk := by have := congrArg State.clk like.outside; exact this
  let e := Config.freeChoice (s.begun (.rdsr o) spans1).free % ((s.begun (.rdsr o) spans1).clk - x.at_ + 1)
  let y : Counter := { x with value := x.value + BitVec.ofNat 32 e, at_ := (s.begun (.rdsr o) spans1).clk }
  let u := ({ s.begun (.rdsr o) spans1 with free := (s.begun (.rdsr o) spans1).free + 1 }).modCore s.coreNo fun c => { c with counters := c.counters.put key y }
  have counted : (s.begun (.rdsr o) spans1).count s.coreNo key = (u, y) := by
    simp only [State.count, State.fresh, like.core]
    rfl
  have read : (s.begun (.rdsr o) spans1).readHalf s.waveAgent (s.srNumber o) (lowest s.mask) = (u, y.value) := by
    have value : (s.begun (.rdsr o) spans1).srRead s.waveAgent (s.srNumber o) (lowest s.mask) = (u, y.value.zeroExtend 64) := by
      rw [State.srRead, if_pos ⟨low, high⟩, like.sel]
      exact congrArg (fun r : State × Counter => (r.1, r.2.value.zeroExtend 64)) counted
    simp only [State.readHalf, plain, Bool.not_false, ↓reduceIte, value, lo32_zeroExtend]
  obtain ⟨t, ht, outside, frame, goes⟩ := rdsr_once h ⟨rfl, by omega, by rw [brsel]; omega, assigned, fun e => by omega⟩ (.inr one) .none read
    (.outside rfl rfl)
  refine ⟨t, e, by rw [← clk]; exact Nat.le_of_lt_succ (Nat.mod_lt _ (Nat.succ_pos _)), ht, ?_, fun c => ?_, frame, goes⟩
  · have e1 := congrArg (fun x : State => { x with waves := s.waves, cur := s.cur, cores := s.cores, free := s.free }) outside
    have e2 := congrArg (fun x : State => { x with cores := s.cores, free := s.free }) like.outside
    exact Eq.trans e1 e2
  · have core : t.core c = u.core c := by have := congrArg (State.core · c) outside; exact this
    rw [core, State.core_modCore]
    have base : ∀ d, State.core { s.begun (.rdsr o) spans1 with free := (s.begun (.rdsr o) spans1).free + 1 } d = s.core d := like.core
    rw [base, base]
    by_cases e : s.coreNo = c
    · subst e; simp [y, clk]
    · simp [e, Ne.symm e]

end

end Sys2Proof.Machine

/-! # RDSR of the halves of 64-bit registers -/

namespace Sys2Proof.Machine

/-- A change of the high halves held for the wave (R432). -/
def Wave.capture (f : Tbl Word → Tbl Word) (w : Wave) : Wave := { w with srHigh := f w.srHigh }

theorem OwnChange.capture (f : Tbl Word → Tbl Word) : OwnChange (Wave.capture f) where
  kept _ _ h := congrArg (Wave.capture f) h
  lanes _ := rfl
  s _ := rfl
  slatch _ := rfl
  fcsr _ := rfl
  wstat _ := rfl

/-- What reading a half makes of the held high halves: the low half captures the high one, and a captured word is given once (R432). -/
def captured (n key : Nat) (v : DWord) (T : Tbl Word) : Tbl Word :=
  if n % 2 = 0 then T.put key (hi32 v) else if (T.find? key).isSome then T.del key else T

/-- What a half reads as, where T is held. -/
def halfOfPair (n key : Nat) (v : DWord) (T : Tbl Word) : Word :=
  if n % 2 = 0 then lo32 v else (T.find? key).getD (hi32 v)

/-- Reading a half in a state that reads like s. -/
theorem State.ReadsLike.readPair {s t : State} (h : s.ReadsLike t) (there : (t.waves.find? t.cur.wave).isSome) {n : Nat}
    (still : srStill (n / 2 * 2) = true) (pair : srIsPair n = true) (l : Nat) :
    ∃ u, t.readHalf s.waveAgent n l = (u, halfOfPair n (halfKey n l) (s.srValue (n / 2 * 2) l) t.w.srHigh) ∧
      t.Effect u { wave := Wave.withHigh (captured n (halfKey n l) (s.srValue (n / 2 * 2) l) t.w.srHigh) } ∧ t.WavesOnly u := by
  have wave : t.wave s.cur.wave = t.w := by rw [← h.cur]; rfl
  have keeps : ∀ T, t.Effect (t.modWave s.cur.wave (Wave.withHigh T)) { wave := Wave.withHigh T } := fun T => by
    rw [← h.cur]; exact .modWave there (.own _ (.withHigh T))
  have read : t.readHalf s.waveAgent n l =
      if n % 2 = 0 then (t.modWave s.cur.wave (Wave.withHigh (t.w.srHigh.put (halfKey n l) (hi32 (s.srValue (n / 2 * 2) l)))), lo32 (s.srValue (n / 2 * 2) l))
      else match t.w.srHigh.find? (halfKey n l) with
        | some v => (t.modWave s.cur.wave (Wave.withHigh (t.w.srHigh.del (halfKey n l))), v)
        | none => (t, hi32 (s.srValue (n / 2 * 2) l)) := by
    simp only [State.readHalf, pair, Bool.not_true, Bool.false_eq_true, ↓reduceIte, h.srRead still, ← wave]
    rfl
  rw [read]
  by_cases low : n % 2 = 0
  · simp only [low, ↓reduceIte, halfOfPair, captured]
    exact ⟨_, rfl, keeps _, rfl⟩
  · simp only [low, ↓reduceIte, halfOfPair, captured]
    cases t.w.srHigh.find? (halfKey n l) with
    | some v => exact ⟨_, rfl, keeps _, rfl⟩
    | none => exact ⟨t, rfl, (State.Effect.refl t).congr (fun _ _ => rfl) (fun _ => rfl) rfl (fun _ => rfl) fun _ _ => rfl, rfl⟩

theorem find_captured (n key : Nat) (v : DWord) (T : Tbl Word) (j : Nat) : (captured n key v T).find? j =
    if key = j then (if n % 2 = 0 then some (hi32 v) else none) else T.find? j := by
  simp only [captured]
  split
  · rw [Tbl.find_put]
  · split
    · rw [Tbl.find_del]
    · next absent =>
      split
      · next e => rw [← e]; simpa using absent
      · rfl

/-! ## Registers of the wave and of the privileged view -/

/-- The 64-bit registers that are not per lane, by their even numbers, with what each is (R82, R227, R307, R332). -/
def readPairs : List (Nat × (State → DWord)) :=
  let ctx := fun (s : State) => s.ctx s.w.ctxsel.toNat
  let queue := fun (s : State) => s.queue s.w.lqsel.toNat
  [(0x016, fun s => (s.ctx s.ctxNo).featmask), (0x028, fun s => s.w.trapvec), (0x040, fun s => (s.ctx s.ctxNo).hwbase),
      (0x042, fun s => (s.ctx s.ctxNo).hwlim), (0x210, fun s => (ctx s).hwbase), (0x212, fun s => (ctx s).hwlim), (0x214, fun s => (ctx s).hwoff),
      (0x216, fun s => (ctx s).tvdef), (0x218, fun s => s.w.rimg), (0x220, fun s => (ctx s).ptroot), (0x230, fun s => (ctx s).fqbase),
      (0x238, fun s => (ctx s).cnttot), (0x23C, fun s => (ctx s).sampbuf), (0x240, fun s => (ctx s).rgtbase),
      (0x248, fun s => (ctx s).featmask), (0x252, fun s => (queue s).base), (0x256, fun s => (s.die s.dieNo).plcmask),
      (0x264, fun s => s.mod.expbase), (0x266, fun s => s.mod.explen), (0x26A, fun s => s.mod.hcqbase), (0x270, fun s => (ctx s).imgb),
      (0x272, fun s => (ctx s).imgl)]

theorem readPairs_still : ∀ n ∈ readPairs.map Prod.fst, srStill n = true ∧ n % 2 = 0 ∧ ∀ m ∈ [n, n + 1],
    m < 0x400 ∧ m ≠ brsel ∧ srAssigned m = true ∧ srIsPair m = true ∧ m / 2 * 2 = n ∧ srPerLane m = false ∧ (0x200 ≤ m → 0x200 ≤ n) := by decide

theorem readPairs_value : ∀ p ∈ readPairs, ∀ (s : State) (l : Nat), s.srValue p.1 l = p.2 s := by
  simp only [readPairs, List.forall_mem_cons, List.not_mem_nil, false_imp_iff, implies_true, and_true]
  iterate 21 refine ⟨fun _ _ => rfl, ?_⟩
  exact fun _ _ => rfl

section
variable {n : Nat} {val : State → DWord} (mem : (n, val) ∈ readPairs) {o : Ops} {s : State} (h : s.Clear (.rdsr o) spans1)
  (reach : 0x200 ≤ n → s.ctxNo = 0)
include mem h reach

/-- A half of a 64-bit register that is not per lane. -/
theorem rdsr_readPairs {m : Nat} (half : m ∈ [n, n + 1]) (number : s.srNumber o = m) :
    ∃ t, exec (.rdsr o) s = .next t ∧ s.Outside t ∧
      s.Frame t (.rdsr o) spans1 { s.puts (.rdsr o) o 1 fun _ _ => halfOfPair m (n * 64 + 32) (val s) s.w.srHigh with
        wave := Wave.capture (captured m (n * 64 + 32) (val s)) } ∧
      t.At s.mask fun _ => s.nextPc := by
  obtain ⟨still, -, halves⟩ := readPairs_still n (List.mem_map_of_mem (f := Prod.fst) mem)
  obtain ⟨below, bridge, assigned, pair, even, one, high⟩ := halves m half
  have value : ∀ l, s.srValue n l = val s := readPairs_value _ mem s
  have key : ∀ l, halfKey m l = n * 64 + 32 := fun l => by simp only [halfKey, even, one, Bool.false_eq_true, ↓reduceIte]
  obtain ⟨u, read, effect, rest⟩ := h.readsLike.readPair h.writable.there (by rw [even]; exact still) pair (lowest s.mask)
  have held : (s.begun (.rdsr o) spans1).w.srHigh = s.w.srHigh := by have := congrArg Wave.srHigh (State.begun_soft h).1.kept; exact this
  rw [key, even, value, held] at read
  rw [key, even, value] at effect
  obtain ⟨t, ht, outside, frame, goes⟩ := rdsr_once h ⟨number, below, bridge, assigned, fun e => reach (high e)⟩ (.inr one)
    (.capture (captured m (n * 64 + 32) (val s))) read (effect.congr (fun _ _ => rfl) (fun _ => rfl) rfl (fun _ => rfl) fun _ _ => rfl)
  exact ⟨t, ht, h.readsLike.outside.trans (rest.outside.trans outside), frame, goes⟩

end

/-! ## TPC and TADDR -/

/-- What reading a half of lane after lane makes of the held high halves (R432). -/
theorem captured_lanes {T T' : Tbl Word} {n : Nat} (m : Nat) {done : List Nat} {l : Nat} (v : Nat → DWord)
    (held : ∀ j, T'.find? j = if n * 64 ≤ j ∧ j - n * 64 ∈ done then (if m % 2 = 0 then some (hi32 (v (j - n * 64))) else none) else T.find? j) (j : Nat) :
    (captured m (n * 64 + l) (v l) T').find? j =
      if n * 64 ≤ j ∧ j - n * 64 ∈ done ++ [l] then (if m % 2 = 0 then some (hi32 (v (j - n * 64))) else none) else T.find? j := by
  rw [find_captured]
  by_cases e : n * 64 + l = j
  · have lane : j - n * 64 = l := by omega
    have inside : n * 64 ≤ j ∧ l ∈ done ++ [l] := ⟨by omega, by simp⟩
    rw [if_pos e, lane]
    exact (if_pos inside).symm
  · rw [if_neg e, held]
    have others : (n * 64 ≤ j ∧ j - n * 64 ∈ done ++ [l]) ↔ (n * 64 ≤ j ∧ j - n * 64 ∈ done) := by
      simp only [List.mem_append, List.mem_singleton]
      constructor
      · rintro ⟨le, mem | lane⟩
        · exact ⟨le, mem⟩
        · omega
      · exact fun ⟨le, mem⟩ => ⟨le, .inl mem⟩
    simp only [others]

theorem laneRegs_still : ∀ n ∈ [0x022, 0x024], srStill n = true ∧ n % 2 = 0 ∧ ∀ m ∈ [n, n + 1],
    m < 0x200 ∧ srAssigned m = true ∧ srIsPair m = true ∧ m / 2 * 2 = n ∧ srPerLane m = true := by decide

/-- A half of TPC or TADDR, lane by lane, or of the lowest lane (R82, R432). -/
theorem rdsr_laneRegs {n : Nat} (mem : n ∈ [0x022, 0x024]) {o : Ops} {s : State} (h : s.Clear (.rdsr o) spans1) {m : Nat} (half : m ∈ [n, n + 1])
    (number : s.srNumber o = m) :
    ∃ t, exec (.rdsr o) s = .next t ∧ s.Outside t ∧ (t.At s.mask fun _ => s.nextPc) ∧
      s.Frame t (.rdsr o) spans1 { s.puts (.rdsr o) o 1 fun l _ =>
          halfOfPair m (n * 64 + if o.s then lowest s.mask else l) (s.srValue n (if o.s then lowest s.mask else l)) s.w.srHigh with
        wave := fun w => { w with srHigh := t.w.srHigh } } ∧
      ∀ j, t.w.srHigh.find? j = if n * 64 ≤ j ∧ j - n * 64 ∈ (if o.s then [lowest s.mask] else lanesOf s.mask) then
        (if m % 2 = 0 then some (hi32 (s.srValue n (j - n * 64))) else none) else s.w.srHigh.find? j := by
  obtain ⟨still, -, halves⟩ := laneRegs_still n mem
  obtain ⟨below, assigned, pair, even, lanes⟩ := halves m half
  have key : ∀ l, halfKey m l = n * 64 + l := fun l => by simp only [halfKey, even, lanes, ↓reduceIte]
  have reaches : s.Reaches o m := ⟨number, by omega, by rw [brsel]; omega, assigned, fun e => by omega⟩
  cases scalar : o.s
  · obtain ⟨t, ht, outside, held, frame, goes⟩ := rdsr_lanes h reaches scalar lanes
      (val := fun l => halfOfPair m (n * 64 + l) (s.srValue n l) s.w.srHigh)
      (fun done T => ∀ j, T.find? j = if n * 64 ≤ j ∧ j - n * 64 ∈ done then (if m % 2 = 0 then some (hi32 (s.srValue n (j - n * 64))) else none)
        else s.w.srHigh.find? j) (fun j => by simp) fun done t l fresh like writable held => by
      obtain ⟨u, read, effect, rest⟩ := like.readPair writable.there (by rw [even]; exact still) pair l
      rw [key, even] at read effect
      refine ⟨u, _, ?_, effect, rest, captured_lanes m (s.srValue n) held⟩
      have own : t.w.srHigh.find? (n * 64 + l) = s.w.srHigh.find? (n * 64 + l) := by
        rw [held, if_neg fun e => fresh (by simpa using e.2)]
      rw [read]
      simp only [halfOfPair, own]
    exact ⟨t, ht, outside, goes, frame, held⟩
  · obtain ⟨u, read, effect, rest⟩ := h.readsLike.readPair h.writable.there (by rw [even]; exact still) pair (lowest s.mask)
    have held : (s.begun (.rdsr o) spans1).w.srHigh = s.w.srHigh := by have := congrArg Wave.srHigh (State.begun_soft h).1.kept; exact this
    rw [key, even, held] at read effect
    obtain ⟨t, ht, outside, frame, goes⟩ := rdsr_once h reaches (.inl scalar) (.withHigh _) read effect
    have high : t.w.srHigh = captured m (n * 64 + lowest s.mask) (s.srValue n (lowest s.mask)) s.w.srHigh := by
      have := congrArg Wave.srHigh frame.kept
      exact this
    refine ⟨t, ht, h.readsLike.outside.trans (rest.outside.trans outside), goes, by rw [high]; exact frame, ?_⟩
    rw [high]
    exact captured_lanes (done := []) m (s.srValue n) (fun j => by simp)

/-- Settles O42: a read of the number, and then what it reads into D. -/
theorem specialRegisterReads : Obligations.SpecialRegisterReads := by
  refine ⟨fun n val mem o s h number reach => rdsr_readWords mem h number reach, fun o s d h number bound reached => rdsr_wstat h number bound reached,
    fun o s h number here => rdsr_fqhead h number here, fun o s h low high => rdsr_counter h low high,
    fun n val mem o s h reach => ?_, fun n val mem o s h => ?_⟩
  · obtain ⟨-, even, -⟩ := readPairs_still n (List.mem_map_of_mem (f := Prod.fst) mem)
    have odd : ¬ (n + 1) % 2 = 0 := by omega
    refine ⟨fun number => ?_, fun v number held => ?_, fun number held => ?_⟩
    · obtain ⟨t, ht, outside, frame, goes⟩ := rdsr_readPairs mem h reach (.head _) number
      simp only [halfOfPair, even, ↓reduceIte] at frame
      have kept := frame.kept
      simp only [Wave.capture, captured, even, ↓reduceIte] at kept
      exact ⟨t, ht, outside, { frame with kept := kept }, goes⟩
    · obtain ⟨t, ht, outside, frame, goes⟩ := rdsr_readPairs mem h reach (.tail _ (.head _)) number
      simp only [halfOfPair, odd, ↓reduceIte, held, Option.getD_some] at frame
      have kept := frame.kept
      simp only [Wave.capture, captured, odd, ↓reduceIte, held, Option.isSome_some] at kept
      exact ⟨t, ht, outside, { frame with kept := kept }, goes⟩
    · obtain ⟨t, ht, outside, frame, goes⟩ := rdsr_readPairs mem h reach (.tail _ (.head _)) number
      simp only [halfOfPair, odd, ↓reduceIte, held, Option.getD_none] at frame
      have kept := frame.kept
      simp only [Wave.capture, captured, odd, ↓reduceIte, held, Option.isSome_none, Bool.false_eq_true] at kept
      exact ⟨t, ht, outside, { frame with kept := kept }, goes⟩
  · have value : n ∈ [0x022, 0x024] ∧ ∀ l, s.srValue n l = val s l := by
      rcases mem with _ | ⟨_, _ | ⟨_, mem⟩⟩
      · exact ⟨by decide, fun _ => rfl⟩
      · exact ⟨by decide, fun _ => rfl⟩
      · cases mem
    obtain ⟨named, value⟩ := value
    obtain ⟨-, even, -⟩ := laneRegs_still n named
    have odd : ¬ (n + 1) % 2 = 0 := by omega
    refine ⟨fun number => ?_, fun number => ?_⟩
    · obtain ⟨t, ht, outside, goes, frame, held⟩ := rdsr_laneRegs named h (.head _) number
      simp only [halfOfPair, even, ↓reduceIte, value] at frame held
      exact ⟨t, ht, outside, goes, frame, held⟩
    · obtain ⟨t, ht, outside, goes, frame, held⟩ := rdsr_laneRegs named h (.tail _ (.head _)) number
      simp only [halfOfPair, odd, ↓reduceIte, value] at frame held
      exact ⟨t, ht, outside, goes, frame, held⟩

end Sys2Proof.Machine

/-! # WRSR -/

namespace Sys2Proof.Machine

/-! ## The state once the group has gone on -/

/-- The state once the checks have passed and the group has gone on. -/
def State.passed (s : State) (i : Instr) (sp : Spans) : State := (s.begun i sp).advance s.mask

section
variable {s : State} {i : Instr} {sp : Spans} (h : s.Clear i sp)
include h

theorem State.Clear.passed_effect : (s.begun i sp).Effect (s.passed i sp) { moved := fun l => s.mask.getLsbD l } :=
  .advance h.writable.there h.writable.frozenLanes _

theorem State.Clear.passed_there : ((s.passed i sp).waves.find? (s.passed i sp).cur.wave).isSome :=
  h.passed_effect.isThere h.writable.there

theorem State.Clear.passed_outside : s.Outside (s.passed i sp) := (State.begun_outside h).advance _

theorem State.Clear.passed_wave : (s.passed i sp).cur.wave = s.cur.wave := (State.begun_soft h).1.wave

theorem State.Clear.passed_kept : s.w.Kept (s.passed i sp).w := (State.begun_soft h).1.kept.trans h.passed_effect.w.kept

/-- Of the effects that follow once the group has gone on, the frame is that of their change. -/
theorem State.Clear.after {t : State} {c : Change} (ht : (s.passed i sp).Effect t c) (own : c.Own) (still : ∀ l, c.moved l = false) :
    s.Frame t i sp c ∧ t.At s.mask fun _ => s.nextPc := by
  obtain ⟨soft, -⟩ := State.begun_soft h
  refine ⟨h.checked.frame (h.passed_effect.trans ht own) ((Change.own_registers _ _ _).andThen own) (fun l r => ?_) (fun m => ?_) (fun _ => rfl) (fun _ _ => rfl)
    fun l hl hm => ?_, fun l hl => ?_⟩
  · exact (Option.or_none).symm
  · exact (Option.or_none).symm
  · simp only [Change.andThen, hl, hm, Bool.or_self]
  · obtain ⟨pc, life⟩ := ht.w.still l (still l)
    have lane := State.lane_advance h.writable.there h.writable.frozenLanes s.mask l
    rw [if_pos ⟨hl, by rw [(soft.lane l).1]; exact h.lanes l hl⟩] at lane
    rw [pc, life, State.passed, lane, soft.nextPc]
    exact ⟨rfl, rfl⟩

end

/-! ## WRSR of a number that the group may reach -/

theorem exec_wrsr (o : Ops) (s : State) : exec (.wrsr o) s = execWrsr o s := rfl

/-- The value that a lane of the group gives (R475). -/
def State.srGiven (s : State) (o : Ops) (l : Nat) : Word := lo32 (reader s.pre o l .w .a)

section
variable {o : Ops} {s : State} (h : s.Clear (.wrsr o) spans1) {n : Nat} (hn : s.Reaches o n)
include h hn

/-- A register that is not per lane takes the value of the lowest lane (R475). -/
theorem wrsr_once (one : srPerLane n = false) :
    exec (.wrsr o) s = .next ((s.passed (.wrsr o) spans1).writeHalf s.waveAgent n (lowest s.mask) (s.srGiven o (lowest s.mask))) := by
  rw [exec_wrsr, execWrsr, State.runSr_clear h hn.number hn.below hn.bridge hn.assigned hn.reach]
  simp only [one, Bool.false_eq_true, ↓reduceIte, h.readsLike.agent, (State.begun_soft h).1.mask_eq, State.begun_pre h]
  rfl

/-- A per-lane register takes the value of each lane in turn (R82). -/
theorem wrsr_lanes (lanes : srPerLane n = true) :
    exec (.wrsr o) s = .next ((lanesOf s.mask).foldl (fun t l => t.writeHalf s.waveAgent n l (s.srGiven o l)) (s.passed (.wrsr o) spans1)) := by
  rw [exec_wrsr, execWrsr, State.runSr_clear h hn.number hn.below hn.bridge hn.assigned hn.reach]
  simp only [lanes, ↓reduceIte, h.readsLike.agent, (State.begun_soft h).1.mask_eq, State.begun_pre h]
  rfl

end

/-! ## FCSR and WSTAT -/

/-- A change of the executing wave that another undoes. -/
theorem State.Effect.undone {u : State} (there : (u.waves.find? u.cur.wave).isSome) {f g : Wave → Wave} (undo : g (f u.w) = u.w) :
    u.Effect ((u.modWave u.cur.wave f).modWave u.cur.wave g) {} := by
  have first : (u.modWave u.cur.wave f).w = f u.w := State.wave_modWave u f there
  have there' : ((u.modWave u.cur.wave f).waves.find? (u.modWave u.cur.wave f).cur.wave).isSome := by
    rw [← there]; exact State.there_modWave _ _ _ _
  have second : ((u.modWave u.cur.wave f).modWave u.cur.wave g).w = g (f u.w) := by rw [← first]; exact State.wave_modWave (u.modWave u.cur.wave f) g there'
  refine ⟨rfl, fun k hk => ?_, (State.there_modWave _ _ _ _).trans (State.there_modWave _ _ _ _), by rw [second, undo]; exact .refl _⟩
  rw [State.find_modWave, if_neg (Ne.symm hk), State.find_modWave, if_neg (Ne.symm hk)]

/-- FCSR of a clk whose other picks have raised nothing (R84). -/
theorem writeFcsr_plain (old v : Word) : writeFcsr old v 0 =
    if 5 ≤ (v.extractLsb' 12 3).toNat then (v &&& 0x8F9F) ||| (old &&& 0x7000) else v &&& 0xFF9F := by
  have rm : fcsrRm v = (v.extractLsb' 12 3).toNat := rfl
  apply BitVec.eq_of_getLsbD_eq
  intro i hi
  rw [writeFcsr, rm, show BitVec.zeroExtend 32 (0 : Flags) = 0 from rfl, BitVec.getLsbD_or]
  iterate 5 rw [BitVec.getLsbD_append]
  by_cases high : 5 ≤ (v.extractLsb' 12 3).toNat
  · simp only [high, ↓reduceIte]
    interval_cases i <;> simp
  · simp only [high, ↓reduceIte]
    interval_cases i <;> simp

section
variable {o : Ops} {s : State} (h : s.Clear (.wrsr o) spans1)
include h

/-- A write of a field that the frame keeps apart: the rest is as the frame without it says. -/
theorem wrsr_field (f g : Wave → Wave) (undo : g (f (s.passed (.wrsr o) spans1).w) = (s.passed (.wrsr o) spans1).w)
    (same : (f (s.passed (.wrsr o) spans1).w).lanes = (s.passed (.wrsr o) spans1).w.lanes) :
    let t := (s.passed (.wrsr o) spans1).modWave s.cur.wave f
    s.Outside t ∧ s.Frame (t.modWave s.cur.wave g) (.wrsr o) spans1 {} ∧ (t.At s.mask fun _ => s.nextPc) ∧ t.w = f (s.passed (.wrsr o) spans1).w := by
  have there := h.passed_there
  have outside := h.passed_outside
  have undone := h.after (State.Effect.undone there undo) (Change.own_registers _ _ _) fun _ => rfl
  have goes := (h.after (.refl _) (Change.own_registers _ _ _) fun _ => rfl).2
  rw [h.passed_wave] at undone
  have w : ((s.passed (.wrsr o) spans1).modWave s.cur.wave f).w = f (s.passed (.wrsr o) spans1).w := by
    rw [← h.passed_wave]; exact State.wave_modWave _ _ there
  refine ⟨outside, undone.1, fun l hl => ?_, w⟩
  have lane : ((s.passed (.wrsr o) spans1).modWave s.cur.wave f).w.lane l = (s.passed (.wrsr o) spans1).w.lane l := by
    rw [w]; simp only [Wave.lane, same]
  rw [lane]; exact goes l hl

theorem wrsr_fcsr (number : s.srNumber o = 0x011) (calm : s.cur.raised = 0) :
    ∃ t, exec (.wrsr o) s = .next t ∧ s.Outside t ∧
      s.Frame (t.modWave s.cur.wave fun w => { w with fcsr := s.w.fcsr }) (.wrsr o) spans1 {} ∧ (t.At s.mask fun _ => s.nextPc) ∧
      t.w.fcsr = writeFcsr s.w.fcsr (s.srGiven o (lowest s.mask)) 0 := by
  have fcsr : (s.passed (.wrsr o) spans1).w.fcsr = s.w.fcsr := h.passed_effect.w.fcsr.trans h.checked.fcsr
  have raised : (s.passed (.wrsr o) spans1).cur.raised = 0 := by
    have := congrArg Cur.raised (State.begun_cur h)
    exact Eq.trans this calm
  have wrote : (s.passed (.wrsr o) spans1).writeHalf s.waveAgent 0x011 (lowest s.mask) (s.srGiven o (lowest s.mask)) =
      (s.passed (.wrsr o) spans1).modWave s.cur.wave fun w => { w with fcsr := writeFcsr w.fcsr (s.srGiven o (lowest s.mask)) 0 } := by
    have step : (s.passed (.wrsr o) spans1).writeHalf s.waveAgent 0x011 (lowest s.mask) (s.srGiven o (lowest s.mask)) =
      (s.passed (.wrsr o) spans1).modWave s.cur.wave fun w => { w with
        fcsr := writeFcsr w.fcsr (lo32 ((s.srGiven o (lowest s.mask)).zeroExtend 64)) (s.passed (.wrsr o) spans1).cur.raised } := rfl
    rw [step, raised, lo32_zeroExtend]
  obtain ⟨outside, frame, goes, w⟩ := wrsr_field h (fun w => { w with fcsr := writeFcsr w.fcsr (s.srGiven o (lowest s.mask)) 0 })
    (fun w => { w with fcsr := s.w.fcsr }) (by simp only [← fcsr]) rfl
  rw [wrsr_once h ⟨number, by decide, by decide, by decide, fun e => absurd e (by decide)⟩ (by decide), wrote]
  exact ⟨_, rfl, outside, frame, goes, by rw [w, fcsr]⟩

theorem wrsr_wstat (number : s.srNumber o = 0x010) :
    ∃ t, exec (.wrsr o) s = .next t ∧ s.Outside t ∧
      s.Frame (t.modWave s.cur.wave fun w => { w with wstat := s.staleAfter (.wrsr o) spans1 }) (.wrsr o) spans1 {} ∧
      (t.At s.mask fun _ => s.nextPc) ∧ t.w.wstat = writeWstat (s.staleAfter (.wrsr o) spans1) (s.srGiven o (lowest s.mask)) := by
  have wstat : (s.passed (.wrsr o) spans1).w.wstat = s.staleAfter (.wrsr o) spans1 := h.passed_effect.w.wstat.trans h.checked.wstat
  have wrote : (s.passed (.wrsr o) spans1).writeHalf s.waveAgent 0x010 (lowest s.mask) (s.srGiven o (lowest s.mask)) =
      (s.passed (.wrsr o) spans1).modWave s.cur.wave fun w => { w with wstat := writeWstat w.wstat (s.srGiven o (lowest s.mask)) } := by
    have step : (s.passed (.wrsr o) spans1).writeHalf s.waveAgent 0x010 (lowest s.mask) (s.srGiven o (lowest s.mask)) =
      (s.passed (.wrsr o) spans1).modWave s.cur.wave fun w => { w with
        wstat := writeWstat w.wstat (lo32 ((s.srGiven o (lowest s.mask)).zeroExtend 64)) } := rfl
    rw [step, lo32_zeroExtend]
  obtain ⟨outside, frame, goes, w⟩ := wrsr_field h (fun w => { w with wstat := writeWstat w.wstat (s.srGiven o (lowest s.mask)) })
    (fun w => { w with wstat := s.staleAfter (.wrsr o) spans1 }) (by simp only [← wstat]) rfl
  rw [wrsr_once h ⟨number, by decide, by decide, by decide, fun e => absurd e (by decide)⟩ (by decide), wrote]
  exact ⟨_, rfl, outside, frame, goes, by rw [w, wstat]⟩

end

/-! ## TRAPVEC and TPC -/

/-- A change of the low halves held for the wave (R81). -/
def Wave.holdLow (f : Tbl Word → Tbl Word) (w : Wave) : Wave := { w with srLow := f w.srLow }

theorem OwnChange.holdLow (f : Tbl Word → Tbl Word) : OwnChange (Wave.holdLow f) where
  kept _ _ h := congrArg (Wave.holdLow f) h
  lanes _ := rfl
  s _ := rfl
  slatch _ := rfl
  fcsr _ := rfl
  wstat _ := rfl

/-- A write of TRAPVEC (R221). -/
def Wave.setTrapvec (v : DWord) (w : Wave) : Wave := { w with trapvec := v &&& ~~~ (3#64) }

theorem OwnChange.setTrapvec (v : DWord) : OwnChange (Wave.setTrapvec v) where
  kept _ _ h := congrArg (Wave.setTrapvec v) h
  lanes _ := rfl
  s _ := rfl
  slatch _ := rfl
  fcsr _ := rfl
  wstat _ := rfl

/-- A write of TPC (R82). -/
def Lane.setTpc (v : DWord) (x : Lane) : Lane := { x with tpc := v }

theorem OwnLane.setTpc (v : DWord) : OwnLane (Lane.setTpc v) where
  kept _ _ h := congrArg (Lane.setTpc v) h
  pc _ := rfl
  life _ := rfl
  v _ := rfl
  latch _ := rfl

theorem OwnLane.ite {p : Prop} [Decidable p] {f : Lane → Lane} (h : OwnLane f) : OwnLane fun x => if p then f x else x := by
  by_cases hp : p
  · simpa only [hp, ↓reduceIte] using h
  · simp only [hp, ↓reduceIte]
    exact .none

/-- The low half of a 64-bit register is held (R81). -/
theorem State.writeLow {t : State} {a : Agent} (ours : a.wave = some t.cur.wave) {n : Nat} (pair : srIsPair n = true) (low : n % 2 = 0) (l : Nat) (v : Word) :
    t.writeHalf a n l v = t.modWave t.cur.wave fun w => { w with srLow := t.w.srLow.put (halfKey n l) v } := by
  simp only [State.writeHalf, pair, Bool.not_true, Bool.false_eq_true, ↓reduceIte, low, ours]
  rfl

/-- A held low half is taken (R81). -/
def State.unhold (t : State) (key : Nat) : State := t.modWave t.cur.wave fun w => { w with srLow := t.w.srLow.del key }

theorem State.Effect.unhold {t : State} (there : (t.waves.find? t.cur.wave).isSome) (key : Nat) :
    t.Effect (t.unhold key) { wave := Wave.holdLow fun T => T.del key } := .modWave there (.own t.w (.holdLow _))

/-- The high half writes both where the low one is held (R81). -/
theorem State.writeHigh {t : State} {a : Agent} (ours : a.wave = some t.cur.wave) {n : Nat} (pair : srIsPair n = true) (high : n % 2 = 1) (l : Nat) {low : Word}
    (held : t.w.srLow.find? (halfKey n l) = some low) (v : Word) :
    t.writeHalf a n l v = (t.unhold (halfKey n l)).srWrite a (n - 1) l (v ++ low) := by
  have wave : t.wave t.cur.wave = t.w := rfl
  have odd : ¬ n % 2 = 0 := by omega
  simp only [State.writeHalf, pair, Bool.not_true, Bool.false_eq_true, ↓reduceIte, odd, ours, wave, held]
  rfl

/-- The state of a write of TPC once some lanes have written theirs: of those lanes the held halves are gone. -/
structure State.TpcWritten (s u : State) (v : Nat → DWord) (done : List Nat) (t : State) : Prop where
  effect : u.Effect t { wave := Wave.holdLow fun _ => t.w.srLow, lane := fun l x => if l ∈ done then x.setTpc (v l) else x }
  only : u.WavesOnly t
  low : ∀ j, t.w.srLow.find? j = if 0x022 * 64 ≤ j ∧ j - 0x022 * 64 ∈ done then none else s.w.srLow.find? j

/-- The low half of TPC that a lane holds, and the value that it gives, make its TPC (R82). -/
theorem tpc_step {s u t : State} {v low : Nat → Word} {done : List Nat} {l : Nat} (there : (u.waves.find? u.cur.wave).isSome)
    (ours : s.waveAgent.wave = some u.cur.wave) (fresh : l ∉ done) (has : (u.w.lanes.find? l).isSome) (held : s.w.srLow.find? (0x022 * 64 + l) = some (low l))
    (before : s.TpcWritten u (fun l => v l ++ low l) done t) :
    s.TpcWritten u (fun l => v l ++ low l) (done ++ [l]) (t.writeHalf s.waveAgent 0x023 l (v l)) := by
  obtain ⟨effect, only, held'⟩ := before
  have ours' : s.waveAgent.wave = some t.cur.wave := by rw [effect.cur]; exact ours
  have own : t.w.srLow.find? (halfKey 0x023 l) = some (low l) := by
    rw [show halfKey 0x023 l = 0x022 * 64 + l from rfl, held', if_neg fun e => fresh (by simpa using e.2), held]
  rw [State.writeHigh ours' (by decide) (by decide) l own]
  have there' := effect.isThere there
  have drops := State.Effect.unhold there' (halfKey 0x023 l)
  have only' : t.WavesOnly (t.unhold (halfKey 0x023 l)) := rfl
  have wrote : (t.unhold (halfKey 0x023 l)).srWrite s.waveAgent (0x023 - 1) l (v l ++ low l) =
      (t.unhold (halfKey 0x023 l)).modWave (t.unhold (halfKey 0x023 l)).cur.wave fun w => w.modLane l (Lane.setTpc (v l ++ low l)) := by
    have agent : (t.unhold (halfKey 0x023 l)).cur.wave = s.cur.wave := (Option.some.inj ours').symm
    rw [agent]; rfl
  rw [wrote]
  generalize t.unhold (halfKey 0x023 l) = t' at *
  have has' : (t'.w.lanes.find? l).isSome := by rw [drops.w.has, effect.w.has]; exact has
  have sets : t'.Effect (t'.modWave t'.cur.wave fun w => w.modLane l (Lane.setTpc (v l ++ low l)))
      { lane := fun j x => if j = l then x.setTpc (v l ++ low l) else x } :=
    .modWave (drops.isThere there') (.ownLane _ has' (.setTpc (v l ++ low l)))
  have whole := (effect.trans drops ⟨.holdLow _, fun _ => .none⟩).trans sets ⟨.none, fun j => .ite (.setTpc _)⟩
  have high : (t'.modWave t'.cur.wave fun w => w.modLane l (Lane.setTpc (v l ++ low l))).w.srLow = t.w.srLow.del (halfKey 0x023 l) := by
    have := congrArg Wave.srLow (drops.trans sets ⟨.none, fun j => .ite (.setTpc _)⟩).w.kept
    exact this
  refine ⟨whole.congr (fun _ _ => rfl) (fun _ => rfl) (by rw [high]; rfl) (fun j => ?_) fun _ _ => rfl, only.trans (only'.trans rfl), fun j => ?_⟩
  · simp only [Change.andThen, List.mem_append, List.mem_singleton]
    by_cases e : j = l
    · subst e; simp [fresh]
    · simp [e]
  · rw [high, Tbl.find_del, held', show halfKey 0x023 l = 0x022 * 64 + l from rfl]
    by_cases e : 0x022 * 64 + l = j
    · rw [if_pos e, if_pos ⟨by omega, by simp [← e]⟩]
    · rw [if_neg e]
      by_cases le : 0x022 * 64 ≤ j
      · have other : j - 0x022 * 64 ≠ l := by omega
        simp only [List.mem_append, List.mem_singleton, other, or_false]
      · simp only [le, false_and, ↓reduceIte]

section
variable {o : Ops} {s : State} (h : s.Clear (.wrsr o) spans1)
include h

theorem State.Clear.ours : s.waveAgent.wave = some (s.passed (.wrsr o) spans1).cur.wave := by rw [h.passed_wave]; rfl

theorem State.Clear.passed_low : (s.passed (.wrsr o) spans1).w.srLow = s.w.srLow := by
  have := congrArg Wave.srLow h.passed_kept
  exact this

theorem wrsr_trapvec_low (number : s.srNumber o = 0x028) :
    ∃ t, exec (.wrsr o) s = .next t ∧ s.Outside t ∧
      s.Frame t (.wrsr o) spans1 { wave := Wave.holdLow fun T => T.put (0x028 * 64 + 32) (s.srGiven o (lowest s.mask)) } ∧
      t.At s.mask fun _ => s.nextPc := by
  rw [wrsr_once h ⟨number, by decide, by decide, by decide, fun e => absurd e (by decide)⟩ (by decide), State.writeLow h.ours (by decide) (by decide)]
  have outside := h.passed_outside
  have ends := @State.Clear.after s _ _ h
  have there := h.passed_there
  generalize s.passed (.wrsr o) spans1 = u at *
  have effect : u.Effect (u.modWave u.cur.wave fun w => { w with srLow := u.w.srLow.put (halfKey 0x028 (lowest s.mask)) (s.srGiven o (lowest s.mask)) })
      { wave := Wave.holdLow fun T => T.put (0x028 * 64 + 32) (s.srGiven o (lowest s.mask)) } := .modWave there (.own u.w (.holdLow _))
  exact ⟨_, rfl, outside, ends effect ⟨.holdLow _, fun _ => .none⟩ fun _ => rfl⟩

theorem wrsr_trapvec {low : Word} (number : s.srNumber o = 0x029) (held : s.w.srLow.find? (0x028 * 64 + 32) = some low) :
    ∃ t, exec (.wrsr o) s = .next t ∧ s.Outside t ∧
      s.Frame t (.wrsr o) spans1
        { wave := fun w => (w.holdLow fun T => T.del (0x028 * 64 + 32)).setTrapvec (s.srGiven o (lowest s.mask) ++ low) } ∧
      t.At s.mask fun _ => s.nextPc := by
  rw [wrsr_once h ⟨number, by decide, by decide, by decide, fun e => absurd e (by decide)⟩ (by decide),
    State.writeHigh h.ours (by decide) (by decide) (l := lowest s.mask) (low := low) (by rw [h.passed_low]; exact held)]
  have outside := h.passed_outside
  have ends := @State.Clear.after s _ _ h
  have there := h.passed_there
  have wave := h.passed_wave
  generalize s.passed (.wrsr o) spans1 = u at *
  have drops : u.Effect (u.unhold (halfKey 0x029 (lowest s.mask))) { wave := Wave.holdLow fun T => T.del (0x028 * 64 + 32) } := .unhold there _
  have wrote := drops.trans (.modWave (drops.isThere there) (.own _ (.setTrapvec (s.srGiven o (lowest s.mask) ++ low)))) ⟨.setTrapvec _, fun _ => .none⟩
  have own : OwnChange fun w => (w.holdLow fun T => T.del (0x028 * 64 + 32)).setTrapvec (s.srGiven o (lowest s.mask) ++ low) :=
    (OwnChange.setTrapvec _).comp (.holdLow _)
  have whole : u.Effect _ { wave := fun w => (w.holdLow fun T => T.del (0x028 * 64 + 32)).setTrapvec (s.srGiven o (lowest s.mask) ++ low) } :=
    wrote.congr (fun _ _ => rfl) (fun _ => rfl) rfl (fun _ => rfl) fun _ _ => rfl
  rw [show (u.unhold (halfKey 0x029 (lowest s.mask))).cur.wave = s.cur.wave from wave] at whole
  exact ⟨_, rfl, outside, ends whole ⟨own, fun _ => .none⟩ fun _ => rfl⟩

/-- TPC of each lane takes the low half that it holds and the value that it gives (R82). -/
theorem wrsr_tpc {low : Nat → Word} (number : s.srNumber o = 0x023)
    (held : ∀ l, s.mask.getLsbD l = true → s.w.srLow.find? (0x022 * 64 + l) = some (low l)) :
    ∃ t, exec (.wrsr o) s = .next t ∧ s.Outside t ∧
      s.Frame t (.wrsr o) spans1
        { wave := fun w => { w with srLow := t.w.srLow },
          lane := fun l x => if s.mask.getLsbD l then x.setTpc (s.srGiven o l ++ low l) else x } ∧
      (∀ j, t.w.srLow.find? j = if 0x022 * 64 ≤ j ∧ j < 0x022 * 64 + 32 ∧ s.mask.getLsbD (j - 0x022 * 64) then none
        else s.w.srLow.find? j) ∧
      t.At s.mask fun _ => s.nextPc := by
  rw [wrsr_lanes h ⟨number, by decide, by decide, by decide, fun e => absurd e (by decide)⟩ (by decide)]
  have written := foldl_induction (f := fun t l => t.writeHalf s.waveAgent 0x023 l (s.srGiven o l))
    (s.TpcWritten (s.passed (.wrsr o) spans1) fun l => s.srGiven o l ++ low l) (lanesOf_nodup s.mask)
    ⟨(State.Effect.refl _).congr (fun _ _ => rfl) (fun _ => rfl) rfl (fun l => by simp) fun _ _ => rfl, rfl, fun j => by simp [h.passed_low]⟩
    fun done t l hl fresh _ before => by
      have lane := (mem_lanesOf _ _).1 hl
      have has : ((s.passed (.wrsr o) spans1).w.lanes.find? l).isSome := by
        rw [h.passed_effect.w.has, ((State.begun_soft h).1.lane l).1]; exact h.lanes l lane
      exact tpc_step h.passed_there h.ours fresh has (held l lane) before
  generalize (lanesOf s.mask).foldl (fun t l => t.writeHalf s.waveAgent 0x023 l (s.srGiven o l)) (s.passed (.wrsr o) spans1) = t at *
  obtain ⟨effect, only, low'⟩ := written
  simp only [mem_lanesOf] at effect low'
  have own : Change.Own { wave := Wave.holdLow fun _ => t.w.srLow, lane := fun l x => if s.mask.getLsbD l then x.setTpc (s.srGiven o l ++ low l) else x } :=
    ⟨.holdLow fun _ => t.w.srLow, fun l => .ite (.setTpc _)⟩
  obtain ⟨frame, goes⟩ := h.after effect own fun _ => rfl
  refine ⟨t, rfl, h.passed_outside.trans only.outside, frame, fun j => ?_, goes⟩
  rw [low']
  refine if_congr ?_ rfl rfl
  exact ⟨fun ⟨le, lane⟩ => ⟨le, by have := BitVec.lt_of_getLsbD lane; omega, lane⟩, fun ⟨le, _, lane⟩ => ⟨le, lane⟩⟩

end

end Sys2Proof.Machine

/-! # Writes of 32-bit registers -/

namespace Sys2Proof.Machine

/-! ## The table of plain writes -/

/-- Core.judgeHeat as the table gives it (R323). -/
theorem Core.judgeHeat_eq (y : Core) (v : Word) (clk : Nat) : y.judgeHeat v clk =
    if (v.extractLsb' 8 8).toNat < y.celsius then { y with hot := true, hotSince := if y.hot then y.hotSince else clk }
    else if y.celsius + (v.extractLsb' 0 8).toNat < (v.extractLsb' 8 8).toNat then { y with hot := false } else y := by
  simp only [Core.judgeHeat]
  split
  · cases hot : y.hot
    · rfl
    · simp only [↓reduceIte, ← hot]
  · rfl

theorem State.writeTherm_eq (s : State) (d : Nat) (v : Word) : s.writeTherm d v = s.heated d v := by
  have judged : (fun (c : Nat) (y : Core) => if c / Config.coresPerDie = d then y.judgeHeat v s.clk else y) = fun c y =>
      if c / 48 ≠ d then y
      else if (v.extractLsb' 8 8).toNat < y.celsius then { y with hot := true, hotSince := if y.hot then y.hotSince else s.clk }
      else if y.celsius + (v.extractLsb' 0 8).toNat < (v.extractLsb' 8 8).toNat then { y with hot := false } else y := by
    funext c y
    rw [Core.judgeHeat_eq]
    by_cases e : c / 48 = d
    · rw [if_pos (show c / Config.coresPerDie = d from e), if_neg (not_not.2 e)]
    · rw [if_neg (show ¬ c / Config.coresPerDie = d from e), if_pos e]
  exact congrArg (fun f => ({ s.modDie d fun y => { y with therm := v } with cores := (s.modDie d fun y => { y with therm := v }).cores.mapAll f } : State)) judged

/-- The sizes that FQSIZE takes, as powers of two (R227). -/
theorem fqSizes_contains (v : Word) : fqSizes.contains v.toNat = true ↔ ∃ k, k < 13 ∧ v.toNat = 2 ^ (k + 4) := by
  simp only [fqSizes, List.contains_iff_mem, List.mem_map, List.mem_range]
  exact ⟨fun ⟨k, lt, e⟩ => ⟨k, lt, e.symm⟩, fun ⟨k, lt, e⟩ => ⟨k, lt, e.symm⟩⟩

/-- What a write of the table's registers changes. -/
theorem plainWrites_srWrite : ∀ p ∈ plainWrites, ∀ (t : State) (a : Agent) (l : Nat) (v : DWord),
    t.srWrite a p.1 l v = p.2 t (t.ctxSel a) a.core (t.slotSel a) (lo32 v) := by
  simp only [plainWrites, List.forall_mem_cons, List.not_mem_nil, false_imp_iff, implies_true, and_true]
  iterate 4 refine ⟨fun _ _ _ _ => rfl, ?_⟩
  refine ⟨fun t a l v => ?_, ?_⟩
  · have taken : ∀ x : Ctx, (if fqSizes.contains (lo32 v).toNat then { x with fqsize := lo32 v } else x) =
        if ∃ k, k < 13 ∧ (lo32 v).toNat = 2 ^ (k + 4) then { x with fqsize := lo32 v } else x := fun x => if_congr (fqSizes_contains _) rfl rfl
    exact congrArg (t.modCtx (t.ctxSel a)) (funext taken)
  iterate 4 refine ⟨fun _ _ _ _ => rfl, ?_⟩
  refine ⟨fun t a l v => t.writeTherm_eq _ _, fun _ _ _ _ => rfl, fun t a l v => ?_⟩
  show t.modMod (fun m => if 600 ≤ (lo32 v &&& 0xFFF).toNat ∧ (lo32 v &&& 0xFFF).toNat ≤ 2500 then { m with pwrcap := lo32 v &&& 0xFFF } else m) =
    if 600 ≤ (lo32 v &&& 0xFFF).toNat ∧ (lo32 v &&& 0xFFF).toNat ≤ 2500 then t.modMod fun m => { m with pwrcap := lo32 v &&& 0xFFF } else t
  by_cases within : 600 ≤ (lo32 v &&& 0xFFF).toNat ∧ (lo32 v &&& 0xFFF).toNat ≤ 2500
  · simp only [within, and_self, ↓reduceIte]
  · simp only [within, ↓reduceIte]; rfl

/-- A write of the table is outside the waves and the record of the clk. -/
theorem plainWrites_outside : ∀ p ∈ plainWrites, ∀ (t : State) (W : Tbl Wave) (C : Cur) (ctx core slot : Nat) (v : Word),
    { p.2 t ctx core slot v with waves := W, cur := C } = p.2 { t with waves := W, cur := C } ctx core slot v := by
  simp only [plainWrites, List.forall_mem_cons, List.not_mem_nil, false_imp_iff, implies_true, and_true]
  iterate 11 refine ⟨fun _ _ _ _ _ _ _ => rfl, ?_⟩
  intro t W C ctx core slot v
  by_cases within : 600 ≤ (v &&& 0xFFF).toNat ∧ (v &&& 0xFFF).toNat ≤ 2500
  · rw [if_pos within, if_pos within]; rfl
  · rw [if_neg within, if_neg within]

theorem plainWrites_numbers : ∀ n ∈ plainWrites.map Prod.fst,
    n < 0x400 ∧ n ≠ brsel ∧ srAssigned n = true ∧ srPerLane n = false ∧ srIsPair n = false ∧ 0x200 ≤ n := by decide

/-! ## WRSR -/

/-- A context is selected (R82). -/
def Wave.selectCtx (v : Word) (w : Wave) : Wave := { w with ctxsel := v }

theorem OwnChange.selectCtx (v : Word) : OwnChange (Wave.selectCtx v) where
  kept _ _ h := congrArg (Wave.selectCtx v) h
  lanes _ := rfl
  s _ := rfl
  slatch _ := rfl
  fcsr _ := rfl
  wstat _ := rfl

section
variable {o : Ops} {s : State} (h : s.Clear (.wrsr o) spans1)
include h

theorem State.Clear.passed_like : s.ReadsLike (s.passed (.wrsr o) spans1) where
  outside := h.passed_outside
  cur := h.passed_wave
  mask := (State.begun_soft h).1.mask_eq
  wave := congrArg (Wave.withHigh (s.passed (.wrsr o) spans1).w.srHigh) h.passed_kept
  fcsr := h.passed_effect.w.fcsr.trans h.checked.fcsr
  lane l := (h.readsLike.lane l).trans (h.passed_effect.w.lanes l)

theorem wrsr_plain (here : s.ctxNo = 0) {n : Nat} {f : State → Nat → Nat → Nat → Word → State} (mem : (n, f) ∈ plainWrites) (number : s.srNumber o = n) :
    ∃ t, exec (.wrsr o) s = .next t ∧ (f s s.w.ctxsel.toNat s.coreNo s.w.slotsel.toNat (s.srGiven o (lowest s.mask))).Outside t ∧
      s.Frame t (.wrsr o) spans1 {} ∧ t.At s.mask fun _ => s.nextPc := by
  obtain ⟨below, bridge, assigned, one, plain, -⟩ := plainWrites_numbers n (List.mem_map_of_mem (f := Prod.fst) mem)
  have writes := plainWrites_srWrite _ mem
  have apart := plainWrites_outside _ mem
  dsimp only at writes apart
  have like := h.passed_like
  have ends := @State.Clear.after s _ _ h
  rw [wrsr_once h ⟨number, below, bridge, assigned, fun _ => here⟩ one]
  simp only [State.writeHalf, plain, Bool.not_false, ↓reduceIte, writes, State.ctxSel, State.slotSel, like.sel, lo32_zeroExtend]
  generalize s.passed (.wrsr o) spans1 = u at *
  show ∃ t, Host.Outcome.next (f u s.w.ctxsel.toNat s.coreNo s.w.slotsel.toNat _) = .next t ∧ _
  generalize s.srGiven o (lowest s.mask) = v
  have own := apart u u.waves u.cur s.w.ctxsel.toNat s.coreNo s.w.slotsel.toNat v
  have start := apart s s.waves s.cur s.w.ctxsel.toNat s.coreNo s.w.slotsel.toNat v
  refine ⟨_, rfl, ?_, ends (.outside (congrArg State.waves own).symm (congrArg State.cur own).symm) (Change.own_registers _ _ _) fun _ => rfl⟩
  have outside : { u with waves := s.waves, cur := s.cur } = s := like.outside
  have waves := congrArg State.waves start
  have cur := congrArg State.cur start
  dsimp only at waves cur
  simp only [State.Outside, ← waves, ← cur, apart, outside]

/-- CTXSEL (R82). -/
theorem wrsr_ctxsel (here : s.ctxNo = 0) (number : s.srNumber o = 0x201) :
    ∃ t, exec (.wrsr o) s = .next t ∧ s.Outside t ∧
      s.Frame t (.wrsr o) spans1 { wave := fun w => { w with ctxsel := s.srGiven o (lowest s.mask) &&& 0xF } } ∧ t.At s.mask fun _ => s.nextPc := by
  have wave := h.passed_wave
  have there := h.passed_there
  have outside := h.passed_outside
  have ends := @State.Clear.after s _ _ h
  rw [wrsr_once h ⟨number, by decide, by decide, by decide, fun _ => here⟩ (by decide)]
  generalize s.passed (.wrsr o) spans1 = u at *
  generalize s.srGiven o (lowest s.mask) = v
  have wrote : u.writeHalf s.waveAgent 0x201 (lowest s.mask) v = u.modWave s.cur.wave fun w => { w with ctxsel := lo32 (v.zeroExtend 64) &&& 0xF } := rfl
  rw [wrote, lo32_zeroExtend, ← wave]
  have selects : u.Effect (u.modWave u.cur.wave (Wave.selectCtx (v &&& 0xF))) { wave := Wave.selectCtx (v &&& 0xF) } :=
    .modWave there (.own _ (.selectCtx _))
  exact ⟨_, rfl, outside, ends selects ⟨.selectCtx _, fun _ => .none⟩ fun _ => rfl⟩

/-- SPWNDLY of context 0: a delay that is not 0 (R248). -/
theorem wrsr_spwndly (here : s.ctxNo = 0) (number : s.srNumber o = 0x015) :
    ∃ t, exec (.wrsr o) s = .next t ∧ s.Outside { t with ctxs := s.ctxs } ∧ s.Frame t (.wrsr o) spans1 {} ∧ (t.At s.mask fun _ => s.nextPc) ∧
      ∀ k, t.ctx k = if k = 0 ∧ s.srGiven o (lowest s.mask) &&& 0xFFFF ≠ 0 then { s.ctx k with spwndly := s.srGiven o (lowest s.mask) &&& 0xFFFF } else s.ctx k := by
  have like := h.passed_like
  have ends := @State.Clear.after s _ _ h
  rw [wrsr_once h ⟨number, by decide, by decide, by decide, fun _ => here⟩ (by decide)]
  generalize s.passed (.wrsr o) spans1 = u at *
  generalize s.srGiven o (lowest s.mask) = v
  have ctxNo : u.ctxOf s.cur.wave = 0 := by rw [← here, State.ctxOf, like.team]; rfl
  have privileged : (s.waveAgent.ctx == 0) = true := by rw [← here]; exact beq_self_eq_true _
  have wrote : u.writeHalf s.waveAgent 0x015 (lowest s.mask) v = if v &&& 0xFFFF ≠ 0 then u.modCtx 0 fun x => { x with spwndly := v &&& 0xFFFF } else u := by
    have step : u.writeHalf s.waveAgent 0x015 (lowest s.mask) v = if (s.waveAgent.ctx == 0) = true ∧ lo32 (v.zeroExtend 64) &&& 0xFFFF ≠ 0 then
      u.modCtx (u.ctxOf s.cur.wave) fun x => { x with spwndly := lo32 (v.zeroExtend 64) &&& 0xFFFF } else u := rfl
    simp only [step, privileged, ctxNo, lo32_zeroExtend, true_and]
  rw [wrote]
  have outside := congrArg (fun x : State => { x with ctxs := s.ctxs }) like.outside
  by_cases delay : v &&& 0xFFFF ≠ 0
  · rw [if_pos delay]
    have effect : u.Effect (u.modCtx 0 fun x => { x with spwndly := v &&& 0xFFFF }) {} := .outside rfl rfl
    obtain ⟨frame, goes⟩ := ends effect (Change.own_registers _ _ _) fun _ => rfl
    refine ⟨_, rfl, outside, frame, goes, fun k => ?_⟩
    rw [State.ctx_modCtx, like.ctx, like.ctx]
    by_cases e : 0 = k
    · rw [if_pos e, if_pos ⟨e.symm, delay⟩, ← e]
    · rw [if_neg e, if_neg fun h => e h.1.symm]
  · rw [if_neg delay]
    obtain ⟨frame, goes⟩ := ends (.refl u) (Change.own_registers _ _ _) fun _ => rfl
    exact ⟨_, rfl, outside, frame, goes, fun k => by rw [like.ctx, if_neg fun h => delay h.2]⟩

end

/-- Settles O43: the group goes on, and then the register is written that B names. -/
theorem specialRegisterWrites : Obligations.SpecialRegisterWrites := by
  refine ⟨fun o s h => ⟨fun number calm => ?_, fun number => wrsr_wstat h number, fun number => wrsr_trapvec_low h number,
    fun low number held => wrsr_trapvec h number held, fun low number held => wrsr_tpc h number held⟩,
    fun o s h here number => wrsr_ctxsel h here number, fun o s h here number => wrsr_spwndly h here number,
    fun n f mem o s h here number => wrsr_plain h here mem number⟩
  have fcsr := wrsr_fcsr h number calm
  rwa [writeFcsr_plain] at fcsr

end Sys2Proof.Machine

/-! # Register writes, LQTAIL, DSPSZ and contexts -/

namespace Sys2Proof.Machine

/-! ## REGISTER_WRITE -/

/-- The party of a wave's register write (R81). -/
def State.writer (s : State) (k : Nat) : Agent := { wave := some k, mask := (s.wave k).live, core := s.coreOf k, ctx := s.ctxOf k }

theorem exec_registerWrite (k n : Nat) (v : Word) (s : State) : exec (.registerWrite k n v) s = execRegisterWrite k n v s := rfl

/-- A register that is not per lane, in the view that the wave may reach (R81). -/
theorem registerWrite_writes {k n : Nat} (v : Word) {s : State} (there : (s.waves.find? k).isSome) (assigned : srAssigned n = true) (own : ownStep n = false)
    (bridge : n ≠ brsel) (one : srPerLane n = false) (reach : 0x200 ≤ n → s.ctxOf k = 0) :
    exec (.registerWrite k n v) s = .next (s.writeHalf (s.writer k) n (lowest (s.wave k).live) v) := by
  have here : (s.waves.find? k).isNone = false := by rw [Option.isNone_eq_false_iff]; exact there
  have view : (decide (0x200 ≤ n) && s.ctxOf k != 0) = false := by
    by_cases hn : 0x200 ≤ n
    · simp [reach hn]
    · simp [hn]
  rw [exec_registerWrite, execRegisterWrite]
  simp only [here, assigned, own, beq_false_of_ne bridge, view, one, Bool.not_true, Bool.or_self, Bool.false_eq_true, ↓reduceIte]
  rfl

/-- None of the privileged view outside context 0 (R81). -/
theorem registerWrite_refused {k n : Nat} (v : Word) {s : State} (outside : s.ctxOf k ≠ 0) (privileged : 0x200 ≤ n) :
    exec (.registerWrite k n v) s = .next s := by
  rw [exec_registerWrite, execRegisterWrite]
  simp [outside, privileged]

/-- A step that changes one wave alone. -/
theorem modWave_alone {s : State} {k : Nat} (there : (s.waves.find? k).isSome) (f g : Wave → Wave) (same : f (s.wave k) = g (s.wave k)) :
    ({ s.modWave k f with waves := s.waves } : State) = s ∧ ∀ j, (s.modWave k f).wave j = if j = k then g (s.wave j) else s.wave j := by
  refine ⟨rfl, fun j => ?_⟩
  by_cases e : j = k
  · rw [if_pos e, e, s.wave_modWave f there, same]
  · rw [if_neg e, s.wave_modWave_ne f (Ne.symm e)]

section
variable {k : Nat} (v : Word) {s : State} (there : (s.waves.find? k).isSome)
include there

theorem registerWrite_wstat : ∃ t, exec (.registerWrite k 0x010 v) s = .next t ∧ { t with waves := s.waves } = s ∧
    ∀ j, t.wave j = if j = k then { s.wave j with wstat := writeWstat (s.wave j).wstat v } else s.wave j := by
  rw [registerWrite_writes v there (by decide) (by decide) (by decide) (by decide) (fun e => absurd e (by decide))]
  exact ⟨_, rfl, modWave_alone there _ (fun w => { w with wstat := writeWstat w.wstat v }) (by rw [lo32_zeroExtend])⟩

theorem registerWrite_fcsr (calm : s.cur.raised = 0) : ∃ t, exec (.registerWrite k 0x011 v) s = .next t ∧ { t with waves := s.waves } = s ∧
    ∀ j, t.wave j = if j = k then { s.wave j with fcsr := writeFcsr (s.wave j).fcsr v 0 } else s.wave j := by
  rw [registerWrite_writes v there (by decide) (by decide) (by decide) (by decide) (fun e => absurd e (by decide))]
  exact ⟨_, rfl, modWave_alone there _ (fun w => { w with fcsr := writeFcsr w.fcsr v 0 }) (by rw [lo32_zeroExtend, calm])⟩

theorem registerWrite_cntsel : ∃ t, exec (.registerWrite k 0x100 v) s = .next t ∧ { t with waves := s.waves } = s ∧
    ∀ j, t.wave j = if j = k then { s.wave j with cntsel := v &&& 7 } else s.wave j := by
  rw [registerWrite_writes v there (by decide) (by decide) (by decide) (by decide) (fun e => absurd e (by decide))]
  exact ⟨_, rfl, modWave_alone there (fun w => { w with cntsel := lo32 (v.zeroExtend 64) &&& 7 }) (fun w => { w with cntsel := v &&& 7 })
    (by rw [lo32_zeroExtend])⟩

theorem registerWrite_trapvec_low : ∃ t, exec (.registerWrite k 0x028 v) s = .next t ∧ { t with waves := s.waves } = s ∧
    ∀ j, t.wave j = if j = k then { s.wave j with srLow := (s.wave j).srLow.put (0x028 * 64 + 32) v } else s.wave j := by
  rw [registerWrite_writes v there (by decide) (by decide) (by decide) (by decide) (fun e => absurd e (by decide))]
  exact ⟨_, rfl, modWave_alone there _ (fun w => { w with srLow := w.srLow.put (0x028 * 64 + 32) v }) rfl⟩

theorem registerWrite_trapvec {low : Word} (held : (s.wave k).srLow.find? (0x028 * 64 + 32) = some low) :
    ∃ t, exec (.registerWrite k 0x029 v) s = .next t ∧ { t with waves := s.waves } = s ∧
      ∀ j, t.wave j = if j = k then { s.wave j with srLow := (s.wave j).srLow.del (0x028 * 64 + 32), trapvec := (v ++ low) &&& ~~~ (3#64) }
        else s.wave j := by
  rw [registerWrite_writes v there (by decide) (by decide) (by decide) (by decide) (fun e => absurd e (by decide))]
  have held' : (s.wave k).srLow.find? (halfKey 0x029 (lowest (s.wave k).live)) = some low := held
  have wrote : s.writeHalf (s.writer k) 0x029 (lowest (s.wave k).live) v =
      (s.modWave k fun w => { w with srLow := (s.wave k).srLow.del (halfKey 0x029 (lowest (s.wave k).live)) }).modWave k
        (Wave.setTrapvec (v ++ low)) := by
    have pair : srIsPair 0x029 = true := by decide
    simp only [State.writeHalf, pair, Bool.not_true, Bool.false_eq_true, ↓reduceIte, State.writer, held', Nat.reduceMod, Nat.one_ne_zero]
    rfl
  rw [wrote]
  have first := modWave_alone there (fun w => { w with srLow := (s.wave k).srLow.del (halfKey 0x029 (lowest (s.wave k).live)) })
    (fun w => { w with srLow := w.srLow.del (0x028 * 64 + 32) }) rfl
  generalize hu : s.modWave k (fun w => { w with srLow := (s.wave k).srLow.del (halfKey 0x029 (lowest (s.wave k).live)) }) = u at first
  have there' : (u.waves.find? k).isSome := by rw [← hu, s.there_modWave]; exact there
  obtain ⟨same, waves⟩ := first
  obtain ⟨same', waves'⟩ := modWave_alone there' (Wave.setTrapvec (v ++ low)) (Wave.setTrapvec (v ++ low)) rfl
  refine ⟨_, rfl, Eq.trans (congrArg (fun x : State => { x with waves := s.waves }) same') same, fun j => ?_⟩
  rw [waves', waves]
  split <;> rfl

/-- The table of plain writes, for what the wave has selected. -/
theorem registerWrite_plain (here : s.ctxOf k = 0) {n : Nat} {f : State → Nat → Nat → Nat → Word → State} (mem : (n, f) ∈ plainWrites) :
    exec (.registerWrite k n v) s = .next (f s (s.wave k).ctxsel.toNat (s.coreOf k) (s.wave k).slotsel.toNat v) := by
  have own : ∀ n ∈ plainWrites.map Prod.fst, ownStep n = false := by decide
  have fst := List.mem_map_of_mem (f := Prod.fst) mem
  obtain ⟨-, bridge, assigned, one, plain, -⟩ := plainWrites_numbers n fst
  have writes := plainWrites_srWrite _ mem s (s.writer k) (lowest (s.wave k).live) (v.zeroExtend 64)
  rw [registerWrite_writes v there assigned (own n fst) bridge one fun _ => here]
  simp only [State.writeHalf, plain, Bool.not_false, ↓reduceIte]
  rw [writes, lo32_zeroExtend]
  rfl

end

/-! ## LQTAIL and DSPSZ -/

theorem windowed_iff (s : State) (q : Nat) :
    s.windowed q = true ↔ ∃ p ∈ s.mod.lwcfg, p.2.getLsbD 31 = true ∧ (p.2.extractLsb' 24 6).toNat = q := by
  simp [State.windowed]

theorem lqtailWrite_tail (q : Nat) (v : Word) (s : State) :
    let x := s.queue q
    let refused := (∃ p ∈ s.mod.lwcfg, p.2.getLsbD 31 = true ∧ (p.2.extractLsb' 24 6).toNat = q) ∨ 2 ^ (x.cfg &&& 0x1F).toNat < (v - x.head).toNat
    ∃ t, exec (.lqtailWrite q v) s = .next t ∧ { t with queues := s.queues } = s ∧ (∀ j, j ≠ q → t.queue j = s.queue j) ∧
      (refused → t.queue q = { x with cfg := x.cfg ||| 0x40000000 }) ∧ (¬ refused → t.queue q = { x with tail := v }) := by
  intro x refused
  have asked : (s.windowed q = true ∨ x.size < (v - x.head).toNat) ↔ refused := by rw [windowed_iff]; exact Iff.rfl
  have queue : ∀ j, (s.writeTail q v).queue j = if q = j then (if s.windowed q = true ∨ x.size < (v - x.head).toNat then x.setBad else { x with tail := v })
      else s.queue j := fun j => State.queue_modQueue _ _ _ _
  refine ⟨s.writeTail q v, rfl, rfl, fun j other => ?_, fun yes => ?_, fun no => ?_⟩
  · rw [queue, if_neg (Ne.symm other)]
  · rw [queue, if_pos rfl, if_pos (asked.2 yes)]; rfl
  · rw [queue, if_pos rfl, if_neg (mt asked.1 no)]

/-- A change of DSPSZ begins (R17, R19). -/
theorem dspszWrite_begins {d n : Nat} {s : State} (settled : ∀ p ∈ s.waves, p.2.stores = []) (idle : (s.die d).dspNext = none) (fits : n ≤ 11)
    (other : n ≠ ((s.die d).dspcfg.extractLsb' 0 4).toNat) :
    ∃ t, exec (.dspszWrite d n) s = .next t ∧ { t with dies := s.dies } = s ∧
      ∀ j, t.die j = if j = d then { s.die j with dspNext := some n } else s.die j := by
  have none : (s.waves.filter fun p => s.dieOf p.1 == d && !p.2.stores.isEmpty) = [] :=
    List.filter_eq_nil_iff.2 fun p hp => by simp [settled p hp]
  have begins : s.writeDspsz d n = s.modDie d fun x => { x with dspNext := some n } := by
    have change : ¬ ((s.die d).busy = true ∨ 11 < n ∨ n = ((s.die d).dspcfg.extractLsb' 0 4).toNat) := by
      rintro (busy | big | same)
      · simp [Die.busy, idle] at busy
      · omega
      · exact other same
    simp only [State.writeDspsz, change, ↓reduceIte, none, List.foldl_nil]
  refine ⟨_, rfl, ?_, fun j => ?_⟩
  · rw [begins]; rfl
  · rw [begins, State.die_modDie]
    by_cases e : d = j
    · rw [if_pos e, if_pos e.symm, e]
    · rw [if_neg e, if_neg (Ne.symm e)]

/-- A filter by keys. -/
theorem Tbl.find_filter {α : Type} (t : Tbl α) (p : Nat → Bool) (j : Nat) :
    Tbl.find? j (t.filter fun x => p x.1) = if p j then Tbl.find? j t else none := by
  induction t with
  | nil => simp
  | cons x t ih =>
    by_cases hx : p x.1
    · rw [List.filter_cons_of_pos (by exact hx), Tbl.find_cons, Tbl.find_cons, ih]
      by_cases e : x.1 = j
      · rw [if_pos e, if_pos e, if_pos (e ▸ hx)]
      · rw [if_neg e, if_neg e]
    · rw [List.filter_cons_of_neg (by exact hx), ih, Tbl.find_cons]
      by_cases e : x.1 = j
      · rw [if_neg (e ▸ hx), if_neg (e ▸ hx)]
      · rw [if_neg e]

/-- A lane that waited for the die scratchpad goes on (R19). -/
def Lane.unstall (x : Lane) : Lane := if x.life = .blocked .dsp then { x with life := .ready } else x

/-- The lanes of a wave that waited for the die scratchpad go on (R19). -/
def Wave.unstall (w : Wave) : Wave := { w with lanes := w.lanes.mapAll fun _ l => l.unstall }

/-- The lanes on a die that waited for its scratchpad go on (R19). -/
def State.unstallOn (s : State) (d : Nat) : State :=
  { s with waves := s.waves.mapAll fun k w => if s.dieOf k = d then w.unstall else w }

theorem Wave.lane_unstall (w : Wave) (l : Nat) {p q : Prop} (hp : p ∧ q) [Decidable (p ∧ q ∧ (w.lane l).life = .blocked .dsp)] :
    w.unstall.lane l =
      if p ∧ q ∧ (w.lane l).life = .blocked .dsp then { w.lane l with life := .ready } else w.lane l := by
  show (w.lanes.mapAll fun _ l => l.unstall).get l Lane.gone = _
  rw [Tbl.get_mapAll]
  have lane : w.lanes.get l Lane.gone = w.lane l := rfl
  rw [lane]
  by_cases stalled : (w.lane l).life = .blocked .dsp
  · have there : (w.lanes.find? l).isSome := by
      rw [Option.isSome_iff_ne_none]
      intro none
      simp [Wave.lane, Tbl.get, none, Lane.gone] at stalled
    rw [if_pos there, Lane.unstall, if_pos stalled, if_pos ⟨hp.1, hp.2, stalled⟩]
  · rw [Lane.unstall, if_neg stalled, ite_self, if_neg fun e => stalled e.2.2]

/-- The new size is taken (R19). -/
theorem dspszChangeComplete_takes {d n : Nat} {s : State} (next : (s.die d).dspNext = some n) :
    let keep := min (((s.die d).dspcfg.extractLsb' 0 4).toNat * 0x800000) (n * 0x800000)
    ∃ t, exec (.dspszChangeComplete d) s = .next t ∧ { t with dies := s.dies, waves := s.waves } = s ∧ (∀ j, j ≠ d → t.die j = s.die j) ∧
      { t.die d with dsp := (s.die d).dsp, poison := (s.die d).poison } = { s.die d with dspcfg := BitVec.ofNat 32 n, dspNext := none } ∧
      (∀ a, (t.die d).dsp.get a 0 = if a < keep then (s.die d).dsp.get a 0 else 0) ∧
      ∀ k l, (t.wave k).lane l = if (s.waves.find? k).isSome ∧ s.dieOf k = d ∧ ((s.wave k).lane l).life = .blocked .dsp then
        { (s.wave k).lane l with life := .ready } else (s.wave k).lane l := by
  intro keep
  let u := s.modDie d fun x => { x with
    dspcfg := BitVec.ofNat 32 n, dspNext := none, dsp := x.dsp.filter fun p => decide (p.1 < min x.dspSize (n * 0x800000)),
    poison := x.poison.filter fun p => decide (p * 8 < min x.dspSize (n * 0x800000)) }
  have done : exec (.dspszChangeComplete d) s = .next (u.unstallOn d) := by
    show execDspszChangeComplete d s = _
    simp only [execDspszChangeComplete, next]
    rfl
  have die : ∀ j, u.die j = if d = j then { s.die d with
    dspcfg := BitVec.ofNat 32 n, dspNext := none, dsp := (s.die d).dsp.filter fun p => decide (p.1 < keep),
    poison := (s.die d).poison.filter fun p => decide (p * 8 < keep) } else s.die j := fun j => State.die_modDie _ _ _ _
  refine ⟨_, done, rfl, fun j other => (die j).trans (if_neg (Ne.symm other)), ?_, fun a => ?_, fun k l => ?_⟩
  · have own := (die d).trans (if_pos rfl)
    exact congrArg (fun x : Die => { x with dsp := (s.die d).dsp, poison := (s.die d).poison }) own
  · have own := congrArg Die.dsp ((die d).trans (if_pos rfl))
    show Tbl.get (u.die d).dsp a 0 = _
    rw [own]
    simp only [Tbl.get, Tbl.find_filter _ fun j => decide (j < keep), decide_eq_true_eq]
    split <;> rfl
  · show ((u.waves.mapAll fun k w => if s.dieOf k = d then w.unstall else w).get k Wave.gone).lane l = _
    rw [Tbl.get_mapAll]
    have waves : u.waves = s.waves := rfl
    have wave : u.waves.get k Wave.gone = s.wave k := rfl
    rw [waves]
    by_cases there : (s.waves.find? k).isSome ∧ s.dieOf k = d
    · rw [if_pos there.1, if_pos there.2, ← waves, wave]
      exact Wave.lane_unstall _ _ there
    · refine Eq.trans ?_ (if_neg fun e => there ⟨e.1, e.2.1⟩).symm
      by_cases isThere : (s.waves.find? k).isSome
      · rw [if_pos isThere, if_neg fun e => there ⟨isThere, e⟩, ← waves, wave]
      · rw [if_neg isThere, ← waves, wave]

/-! ## CTXCTL -/

/-- Context 0 and a busy context ignore CTXCTL (R28). -/
theorem ctxctl_ignored {c : Nat} {s : State} (held : c = 0 ∨ (s.ctx c).busy = true) :
    exec (.ctxctlCreate c) s = .next s ∧ exec (.ctxctlDestroy c) s = .next s := by
  have none : ∀ cmd, s.writeCtxctl c cmd = s := fun cmd => by simp only [State.writeCtxctl, held, ↓reduceIte]
  exact ⟨congrArg Host.Outcome.next (none 1), congrArg Host.Outcome.next (none 2)⟩

theorem ctxctlCreate_marks {c : Nat} {s : State} (other : c ≠ 0) (idle : (s.ctx c).busy = false) (dead : (s.ctx c).live = false) :
    ∃ t, exec (.ctxctlCreate c) s = .next t ∧ { t with ctxs := s.ctxs } = s ∧
      ∀ k, t.ctx k = if k = c then { s.ctx k with busy := true, creating := true } else s.ctx k := by
  have begins : s.writeCtxctl c 1 = s.modCtx c fun x => { x with busy := true, creating := true } := by
    simp [State.writeCtxctl, other, idle, dead]
  refine ⟨_, congrArg Host.Outcome.next begins, rfl, fun k => ?_⟩
  rw [State.ctx_modCtx]
  by_cases e : c = k
  · rw [if_pos e, if_pos e.symm, e]
  · rw [if_neg e, if_neg (Ne.symm e)]

/-- What holds of an absent entry and of every changed one holds of each entry of a table that is changed throughout. -/
theorem Tbl.get_mapAll_all {α : Type} {P : α → Prop} (t : Tbl α) (f : Nat → α → α) (d : α) (absent : P d) (changed : ∀ k x, P (f k x)) (k : Nat) :
    P ((t.mapAll f).get k d) := by
  rw [Tbl.get, Tbl.find_mapAll]
  cases Tbl.find? k t with
  | none => exact absent
  | some x => exact changed k x

theorem Tbl.mapAll_mapAll {α : Type} (t : Tbl α) (f g : Nat → α → α) : (t.mapAll f).mapAll g = t.mapAll fun k x => g k (f k x) := by
  simp [Tbl.mapAll]

/-- No cache of a core holds anything of a context. -/
def Core.Without (c : Nat) (x : Core) : Prop := (∀ e ∈ x.tlb, e.ctx ≠ c) ∧ (∀ e ∈ x.icache, e.ctx ≠ c) ∧ ∀ e ∈ x.adopt, e.ctx ≠ c

/-- The caches of a core drop a context (R29). -/
def Core.drop (c : Nat) (x : Core) : Core :=
  { x with adopt := x.adopt.filter (·.ctx != c), icache := x.icache.filter (·.ctx != c), tlb := x.tlb.filter (·.ctx != c) }

/-- The copy-engine context of a context is gone. -/
def Core.uncopied (c : Nat) (x : Core) : Core := { x with copy := x.copy.del c }

theorem Core.without_drop (c : Nat) (x : Core) : (x.drop c).Without c :=
  ⟨fun e he => by simpa using (List.mem_filter.1 he).2, fun e he => by simpa using (List.mem_filter.1 he).2,
    fun e he => by simpa using (List.mem_filter.1 he).2⟩

theorem Core.without_reset (c : Nat) : Core.reset.Without c :=
  ⟨fun _ he => absurd he List.not_mem_nil, fun _ he => absurd he List.not_mem_nil, fun _ he => absurd he List.not_mem_nil⟩

/-- A context's own change of one entry. -/
theorem ctx_modCtx_alone (s : State) (c k : Nat) (f : Ctx → Ctx) : (s.modCtx c f).ctx k = if k = c then f (s.ctx k) else s.ctx k := by
  rw [State.ctx_modCtx]
  by_cases e : c = k
  · rw [if_pos e, if_pos e.symm, e]
  · rw [if_neg e, if_neg (Ne.symm e)]

/-- A context comes to life with its queues and counters empty (R29). -/
theorem contextCreateComplete_resets {c : Nat} {s : State} (busy : (s.ctx c).busy = true) (creating : (s.ctx c).creating = true) :
    ∃ t, exec (.contextCreateComplete c) s = .next t ∧ { t with ctxs := s.ctxs, cores := s.cores, dies := s.dies } = s ∧
      (let x : Ctx := { s.ctx c with live := true, busy := false, creating := false, tags := [], waiting := [], retracts := [] }
       ∀ k, t.ctx k = if k = c then { x with fqhead := 0, launchIssued := 0, launchOut := [], wdSince := none } else s.ctx k) ∧
      (∀ k, (∀ e ∈ (t.core k).tlb, e.ctx ≠ c) ∧ (∀ e ∈ (t.core k).icache, e.ctx ≠ c) ∧ (∀ e ∈ (t.core k).adopt, e.ctx ≠ c) ∧
        t.copyCtx k c = { queue := [], issued := 0, done := 0 }) ∧
      ∀ d, t.unit d c = { pool := [], issued := 0, outstanding := [] } ∧ ∀ g ∈ (t.die d).graphs, g.ctx ≠ c := by
  have guard : (!((s.ctx c).busy && (s.ctx c).creating)) = false := by rw [busy, creating]; rfl
  refine ⟨_, congrArg Host.Outcome.next (if_neg (by rw [guard]; exact Bool.false_ne_true)), rfl, fun k => ?_, fun k => ?_, fun d => ?_⟩
  · rw [ctx_modCtx_alone]
    by_cases e : k = c
    · subst e; rfl
    · rw [if_neg e, if_neg e]; rfl
  · have changed : ∀ x : Core, ((x.drop c).uncopied c).Without c ∧ Tbl.get ((x.drop c).uncopied c).copy c CopyCtx.reset = CopyCtx.reset := fun x =>
      ⟨Core.without_drop c x, by rw [Tbl.get, Core.uncopied, Tbl.find_del, if_pos rfl]; rfl⟩
    have core : ∀ x, x = Tbl.get ((s.cores.mapAll fun _ x => x.drop c).mapAll fun _ x => x.uncopied c) k Core.reset →
        x.Without c ∧ Tbl.get x.copy c CopyCtx.reset = CopyCtx.reset := fun x hx => by
      rw [hx, Tbl.mapAll_mapAll]
      exact Tbl.get_mapAll_all (P := fun x : Core => x.Without c ∧ Tbl.get x.copy c CopyCtx.reset = CopyCtx.reset) _ _ _
        ⟨Core.without_reset c, rfl⟩ (fun _ x => changed x) k
    obtain ⟨⟨tlb, icache, adopt⟩, copy⟩ := core _ rfl
    exact ⟨tlb, icache, adopt, copy⟩
  · obtain ⟨unit, graphs⟩ := Tbl.get_mapAll_all (P := fun x : Die => Tbl.get x.units c TaskUnit.reset = TaskUnit.reset ∧ ∀ g ∈ x.graphs, g.ctx ≠ c)
      (s.dropContext c).dies (fun _ x => { x with units := x.units.del c, graphs := x.graphs.filter (·.ctx != c) }) Die.reset
      ⟨rfl, fun _ hg => absurd hg List.not_mem_nil⟩
      (fun _ x => ⟨by rw [Tbl.get, Tbl.find_del, if_pos rfl]; rfl, fun g hg => by simpa using (List.mem_filter.1 hg).2⟩) d
    exact ⟨unit, graphs⟩

/-- A context ends once no team of it is left (R29). -/
theorem contextDestroyComplete_ends {c : Nat} {s : State} (busy : (s.ctx c).busy = true) (ending : (s.ctx c).creating = false)
    (none : ∀ p ∈ s.teams, p.2.ctx ≠ c) :
    ∃ t, exec (.contextDestroyComplete c) s = .next t ∧ { t with ctxs := s.ctxs, cores := s.cores, dies := s.dies } = s ∧
      (∀ k, t.ctx k = if k = c then { s.ctx k with live := false, busy := false, hold := false } else s.ctx k) ∧
      ∀ k, (∀ e ∈ (t.core k).tlb, e.ctx ≠ c) ∧ (∀ e ∈ (t.core k).icache, e.ctx ≠ c) ∧ ∀ e ∈ (t.core k).adopt, e.ctx ≠ c := by
  have guard : (!(s.ctx c).busy || (s.ctx c).creating || s.teams.any fun p => p.2.ctx == c) = false := by
    rw [busy, ending, List.any_eq_false.2 fun p hp => by simp [none p hp]]; rfl
  refine ⟨_, congrArg Host.Outcome.next (if_neg (by rw [guard]; exact Bool.false_ne_true)), rfl, fun k => ctx_modCtx_alone _ _ _ _, fun k => ?_⟩
  exact Tbl.get_mapAll_all (P := Core.Without c) s.cores (fun _ x => x.drop c) Core.reset (Core.without_reset c) (fun _ x => Core.without_drop c x) k

end Sys2Proof.Machine

/-! # What discarding teams leaves

The steps that discard a team perform what its waves have stored, update barriers and write back lines: none of them changes a context or a
queue, brings a wave or a team back, gives a team to another context, or revives a killed one. -/

namespace Sys2Proof.Machine

/-- t has the contexts and queues of s, no wave and no team that s has not, and each team in its context, killed if it was. -/
structure State.Sheds (s t : State) : Prop where
  ctxs : t.ctxs = s.ctxs
  queues : t.queues = s.queues
  waves : ∀ k, s.waves.find? k = none → t.waves.find? k = none
  teams : ∀ k x', t.teams.find? k = some x' → ∃ x, s.teams.find? k = some x ∧ x.ctx = x'.ctx ∧ (x.state = .killed → x'.state = .killed)

namespace State.Sheds

theorem same {s t : State} (ctxs : t.ctxs = s.ctxs) (queues : t.queues = s.queues) (waves : t.waves = s.waves) (teams : t.teams = s.teams) : s.Sheds t :=
  ⟨ctxs, queues, fun k h => by rw [waves]; exact h, fun k x' h => ⟨x', by rwa [teams] at h, rfl, id⟩⟩

theorem refl (s : State) : s.Sheds s := same rfl rfl rfl rfl

theorem trans {a b c : State} (h : a.Sheds b) (h' : b.Sheds c) : a.Sheds c where
  ctxs := h'.ctxs.trans h.ctxs
  queues := h'.queues.trans h.queues
  waves k hk := h'.waves k (h.waves k hk)
  teams k x' hk := by
    obtain ⟨x, hx, ctx, killed⟩ := h'.teams k x' hk
    obtain ⟨y, hy, ctx', killed'⟩ := h.teams k x hx
    exact ⟨y, hy, ctx'.trans ctx, fun e => killed (killed' e)⟩

theorem foldl {α : Type} {f : State → α → State} (h : ∀ (s : State) x, s.Sheds (f s x)) (xs : List α) (s : State) : s.Sheds (xs.foldl f s) := by
  induction xs generalizing s with
  | nil => exact refl s
  | cons x xs ih => exact (h s x).trans (ih _)

theorem mapWaves (s : State) (f : Nat → Wave → Wave) : s.Sheds { s with waves := s.waves.mapAll f } :=
  ⟨rfl, rfl, fun k h => by rw [Tbl.find_mapAll, h]; rfl, fun _ x' h => ⟨x', h, rfl, id⟩⟩

theorem modWave (s : State) (k : Nat) (f : Wave → Wave) : s.Sheds (s.modWave k f) :=
  ⟨rfl, rfl, fun j h => by rw [State.find_modWave, h]; split <;> rfl, fun _ x' h => ⟨x', h, rfl, id⟩⟩

theorem delWave (s : State) (k : Nat) : s.Sheds { s with waves := s.waves.del k } :=
  ⟨rfl, rfl, fun j h => by rw [Tbl.find_del, h]; split <;> rfl, fun _ x' h => ⟨x', h, rfl, id⟩⟩

theorem modTeam (s : State) (k : Nat) {f : Team → Team} (hf : ∀ x, (f x).ctx = x.ctx ∧ (x.state = .killed → (f x).state = .killed)) :
    s.Sheds (s.modTeam k f) := by
  refine ⟨rfl, rfl, fun _ h => h, fun j x' h => ?_⟩
  rw [show (s.modTeam k f).teams = s.teams.mod k f from rfl, Tbl.find_mod] at h
  split at h
  · obtain ⟨x, hx, rfl⟩ := Option.map_eq_some_iff.1 h
    exact ⟨x, hx, (hf x).1.symm, (hf x).2⟩
  · exact ⟨x', h, rfl, id⟩

theorem delTeam (s : State) (k : Nat) : s.Sheds { s with teams := s.teams.del k } := by
  refine ⟨rfl, rfl, fun _ h => h, fun j x' h => ?_⟩
  rw [Tbl.find_del] at h
  split at h
  · cases h
  · exact ⟨x', h, rfl, id⟩

theorem modCore (s : State) (c : Nat) (f : Core → Core) : s.Sheds (s.modCore c f) := same rfl rfl rfl rfl

theorem modDie (s : State) (d : Nat) (f : Die → Die) : s.Sheds (s.modDie d f) := same rfl rfl rfl rfl

/-! ## Writes -/

theorem conflict (s : State) (space who line : Nat) : s.Sheds (s.conflict space who line) := mapWaves s _

theorem conflicts (s : State) (space who a n : Nat) : s.Sheds (s.conflicts space who a n) := by
  rw [State.conflicts]
  split
  · exact refl s
  · exact foldl (fun s l => conflict s space who l) _ s

theorem l2Write (s : State) (pa : Nat) (bs : List Byte) : s.Sheds (s.l2Write pa bs) :=
  trans (b := { s with mem := Memory.writeBytes s.mem pa bs }) (same rfl rfl rfl rfl) (conflicts _ _ _ _ _)

theorem l1Fill (s : State) (c line : Nat) : s.Sheds (s.l1Fill c line) := by
  rw [State.l1Fill]
  split
  · exact refl s
  · exact same rfl rfl rfl rfl

theorem l1Read (s : State) (c pa n : Nat) : s.Sheds (s.l1Read c pa n).1 := by
  simp only [State.l1Read]
  split <;> exact l1Fill s c _

theorem l1Write (s : State) (c pa : Nat) (bs : List Byte) : s.Sheds (s.l1Write c pa bs) := by
  simp only [State.l1Write]
  split
  · exact (l1Fill s c _).trans (same rfl rfl rfl rfl)
  · exact (l1Fill s c _).trans (l2Write _ _ _)

theorem l1Clean (s : State) (c line : Nat) : s.Sheds (s.l1Clean c line) := by
  simp only [State.l1Clean]
  split
  · exact refl s
  · split
    · exact refl s
    · refine trans ?_ (conflict _ _ _ _)
      exact same rfl rfl rfl rfl

theorem l1Evict (s : State) (c line : Nat) : s.Sheds (s.l1Evict c line) := (l1Clean s c line).trans (same rfl rfl rfl rfl)

theorem l1WriteBack (s : State) (c : Nat) : s.Sheds (s.l1WriteBack c) := by
  rw [State.l1WriteBack]
  exact foldl (fun s (p : Nat × L1Line) => l1Clean s c p.1) _ s

theorem release (s : State) (c scope : Nat) : s.Sheds (s.release c scope) := by
  rw [State.release]
  split
  · exact l1WriteBack s c
  · exact refl s

theorem l1Renew (s : State) (c line : Nat) : s.Sheds (s.l1Renew c line) := by
  rw [State.l1Renew]
  split
  · exact (l1Evict s c line).trans (l1Fill _ _ _)
  · exact refl s

theorem tmemWrite (s : State) (t off : Nat) (bs : List Byte) : s.Sheds (s.tmemWrite t off bs) := by
  simp only [State.tmemWrite]
  split
  · exact l2Write s _ _
  · refine trans ?_ (conflicts _ _ _ _ _)
    exact modTeam s t fun _ => ⟨rfl, id⟩

theorem dspWrite (s : State) (d off : Nat) (bs : List Byte) : s.Sheds (s.dspWrite d off bs) := by
  refine trans ?_ (conflicts _ _ _ _ _)
  exact same rfl rfl rfl rfl

theorem readOn (s : State) (c : Nat) (p : Place) (n : Nat) (bypass : Bool) : s.Sheds (s.readOn c p n bypass).1 := by
  cases p with
  | mem pa =>
    simp only [State.readOn]
    split
    · exact l1Renew s c _
    · exact l1Read s c pa n
  | team t off => exact refl s
  | die d off => exact refl s

theorem writeOn (s : State) (c : Nat) (p : Place) (bs : List Byte) (bypass : Bool) : s.Sheds (s.writeOn c p bs bypass) := by
  cases p with
  | mem pa =>
    simp only [State.writeOn]
    split
    · exact (l1Evict s c _).trans (l2Write _ _ _)
    · exact l1Write s c pa bs
  | team t off => exact tmemWrite s t off bs
  | die d off => exact dspWrite s d off bs

theorem dropCopies (s : State) (c : Nat) (p : Place) (scope : Nat) : s.Sheds (s.dropCopies c p scope) := by
  cases p with
  | mem pa =>
    simp only [State.dropCopies]
    split
    · rw [State.evictEverywhere]
      exact foldl (fun s (x : Nat × Core) => l1Evict s x.1 (pa / 128)) _ s
    · exact l1Evict s c _
  | team t off => exact refl s
  | die d off => exact refl s

theorem reduceOn (s : State) (c : Nat) (p : Place) (sub type scope b : Nat) : s.Sheds (s.reduceOn c p sub type scope b) :=
  ((dropCopies s c p scope).trans (readOn _ _ _ _ _)).trans (writeOn _ _ _ _ _)

theorem apply (s : State) (c : Nat) (p : Place) (e : Machine.Effect) : s.Sheds (s.apply c p e) := by
  cases e with
  | store data bypass => exact writeOn s c p data bypass
  | reduce sub type scope bs => exact foldl (fun s b => reduceOn s c p sub type scope b) bs s

theorem land (s : State) (k : Nat) (x : Pend) : s.Sheds (s.land k x) := by
  simp only [State.land]
  split
  · exact (apply s _ _ _).trans (modWave _ _ _)
  · exact apply s _ _ _

theorem drain (s : State) (k : Nat) : s.Sheds (s.drain k) := by
  rw [State.drain]
  split
  · exact refl s
  · exact (foldl (fun s x => land s k x) _ s).trans (modWave _ _ _)

/-! ## Barriers -/

theorem l1DropClean (s : State) (c : Nat) : s.Sheds (s.l1DropClean c) := same rfl rfl rfl rfl

theorem putBar (s : State) (o : ObjRef) (b : Bar) : s.Sheds (s.putBar o b) := by
  cases o with
  | team t off => exact tmemWrite s t off _
  | die d off => exact dspWrite s d off _

theorem wakeBarrier (s : State) (o : ObjRef) (phase : Word) : s.Sheds (s.wakeBarrier o phase) :=
  (mapWaves s _).trans (foldl (fun s c => l1DropClean s c) _ _)

theorem requeue (s : State) (o : ObjRef) (advanced : Bool) : s.Sheds (s.requeue o advanced) := by
  cases o with
  | team t off =>
    simp only [State.requeue]
    split
    · refine modTeam s t fun x => ?_
      split
      · next swapped => exact ⟨rfl, fun killed => by rw [swapped] at killed; cases killed⟩
      · exact ⟨rfl, id⟩
    · exact refl s
  | die d off => exact refl s

theorem updateBar (s : State) (o : ObjRef) (f : Bar → Bar) : s.Sheds (s.updateBar o f) := by
  simp only [State.updateBar]
  split
  · exact ((putBar s o _).trans (wakeBarrier _ _ _)).trans (requeue _ _ _)
  · exact refl s

theorem releaseArm (s : State) (o : ObjRef) : s.Sheds (s.releaseArm o) := by
  refine trans (trans (b := { s with arms := s.arms.filter (· != o) }) ?_ (mapWaves _ _)) (updateBar _ _ _)
  exact same rfl rfl rfl rfl

theorem checkArms (s : State) : s.Sheds s.checkArms := by
  refine foldl (fun s o => ?_) _ s
  dsimp only
  split
  · exact releaseArm s o
  · exact refl s

theorem settleEngines (s : State) (c : Nat) : s.Sheds (s.settleEngines c) := by
  refine trans ?_ (checkArms _)
  exact same rfl rfl rfl rfl

/-! ## Waves and teams that go -/

theorem residLeave (s : State) (c : Nat) (r : Resid) : s.Sheds (s.residLeave c r) := same rfl rfl rfl rfl

theorem leaveRegions (s : State) (k : Nat) : s.Sheds (s.leaveRegions k) := by
  rw [State.leaveRegions]
  refine trans (foldl (fun s p => ?_) _ s) (modWave _ _ _)
  exact foldl (fun s r => residLeave s _ r) _ s

theorem orphan (s : State) (k : Nat) : s.Sheds (s.orphan k) := by
  simp only [State.orphan]
  exact (modCore s _ _).trans (modDie _ _ _)

theorem dropWave (s : State) (k : Nat) : s.Sheds (s.dropWave k) := by
  simp only [State.dropWave]
  exact ((((drain s k).trans (orphan _ k)).trans (leaveRegions _ k)).trans (modCore _ _ _)).trans (delWave _ k)

theorem freeTeam (s : State) (t : Nat) : s.Sheds (s.freeTeam t) :=
  (modCore s _ _).trans (delTeam _ t)

end State.Sheds

/-! ## Teams discarded -/

theorem State.find_dropWave (s : State) (k : Nat) : (s.dropWave k).waves.find? k = none := by
  rw [State.dropWave, Tbl.find_del, if_pos rfl]

/-- Waves that are dropped are gone, and waves that were gone stay so. -/
theorem State.find_dropWaves {j : Nat} (ks : List Nat) (s : State) (h : j ∈ ks ∨ s.waves.find? j = none) :
    (ks.foldl State.dropWave s).waves.find? j = none := by
  induction ks generalizing s with
  | nil => exact h.resolve_left List.not_mem_nil
  | cons k ks ih =>
    refine ih _ ?_
    rcases h with mem | gone
    · rcases List.mem_cons.1 mem with rfl | mem
      · exact .inr (s.find_dropWave j)
      · exact .inl mem
    · exact .inr ((State.Sheds.dropWave s k).waves j gone)

/-- A team whose waves are all gone, and that is gone too or killed. -/
structure State.Discarded (s : State) (t : Nat) : Prop where
  waves : ∀ k, k / 64 = t → s.waves.find? k = none
  team : ∀ x, s.teams.find? t = some x → x.state = .killed

theorem State.Discarded.keeps {s u : State} {t : Nat} (h : s.Discarded t) (sheds : s.Sheds u) : u.Discarded t where
  waves k hk := sheds.waves k (h.waves k hk)
  team x' hx' := by
    obtain ⟨x, hx, -, killed⟩ := sheds.teams t x' hx'
    exact killed (h.team x hx)

/-- The team as discarded, but for its own entry. -/
def State.discardWaves (s : State) (t : Nat) : State :=
  ((((s.wavesOf t).foldl State.dropWave s).release (s.team t).core 4).modCore (s.team t).core fun c =>
    { c with bins := c.bins.filter fun p => p.2.team != t, mq := c.mq.map (Cmd.dropFor t),
             copy := c.copy.mapAll fun _ y => { y with queue := y.queue.map (Cmd.dropFor t) } }).settleEngines (s.team t).core

theorem State.discardTeam_eq (s : State) (t : Nat) : s.discardTeam t =
    if (s.discardWaves t).hasCommands t then (s.discardWaves t).modTeam t fun x => { x with state := .killed, pending := [] }
    else (s.discardWaves t).freeTeam t := rfl

theorem State.Sheds.afterWaves (s : State) (t : Nat) : ((s.wavesOf t).foldl State.dropWave s).Sheds (s.discardWaves t) :=
  ((release _ _ _).trans (modCore _ _ _)).trans (settleEngines _ _)

theorem State.Sheds.discardTeam (s : State) (t : Nat) : s.Sheds (s.discardTeam t) := by
  have waves : s.Sheds (s.discardWaves t) := (foldl dropWave _ s).trans (afterWaves s t)
  rw [State.discardTeam_eq]
  split
  · exact waves.trans (modTeam _ t fun _ => ⟨rfl, fun _ => rfl⟩)
  · exact waves.trans (freeTeam _ t)

theorem State.mem_wavesOf {s : State} {t k : Nat} {w : Wave} (there : s.waves.find? k = some w) (team : k / 64 = t) : k ∈ s.wavesOf t :=
  List.mem_filter.2 ⟨List.mem_map_of_mem (Tbl.mem_of_find there), beq_iff_eq.2 team⟩

theorem State.find_discardWaves {s : State} {t k : Nat} (team : k / 64 = t) : (s.discardWaves t).waves.find? k = none := by
  refine (State.Sheds.afterWaves s t).waves k (State.find_dropWaves _ s ?_)
  cases there : s.waves.find? k with
  | none => exact .inr rfl
  | some w => exact .inl (State.mem_wavesOf there team)

theorem State.discarded_discardTeam (s : State) (t : Nat) : (s.discardTeam t).Discarded t := by
  rw [State.discardTeam_eq]
  split
  · refine ⟨fun k hk => State.find_discardWaves hk, fun x' hx' => ?_⟩
    rw [State.modTeam, Tbl.find_mod, if_pos rfl] at hx'
    obtain ⟨x, -, rfl⟩ := Option.map_eq_some_iff.1 hx'
    rfl
  · refine ⟨fun k hk => State.find_discardWaves hk, fun x' hx' => ?_⟩
    rw [State.freeTeam, Tbl.find_del, if_pos rfl] at hx'
    cases hx'

/-- Teams that are discarded one after the other. -/
def State.discardTeams (s : State) (ts : Tbl Team) : State := ts.foldl (fun s p => s.discardTeam p.1) s

theorem State.Sheds.discardTeams (s : State) (ts : Tbl Team) : s.Sheds (s.discardTeams ts) := by
  rw [State.discardTeams]
  exact foldl (fun s (p : Nat × Team) => discardTeam s p.1) ts s

theorem State.discarded_discardTeams {t : Nat} (ts : Tbl Team) (s : State) (h : (∃ p ∈ ts, p.1 = t) ∨ s.Discarded t) :
    (s.discardTeams ts).Discarded t := by
  induction ts generalizing s with
  | nil =>
    obtain ⟨p, hp, -⟩ | done := h
    · cases hp
    · exact done
  | cons p ts ih =>
    refine ih (s.discardTeam p.1) ?_
    rcases h with ⟨q, mem, rfl⟩ | done
    · rcases List.mem_cons.1 mem with rfl | mem
      · exact .inr (s.discarded_discardTeam q.1)
      · exact .inl ⟨q, mem, rfl⟩
    · exact .inr (done.keeps (State.Sheds.discardTeam s p.1))

/-! ## The end of a context -/

/-- What Destroy does once the teams of the context are discarded. -/
def State.endContext (s : State) (c : Nat) : State :=
  (({ s with
      grids := s.grids.filter fun p => p.2.ctx != c
      dies := s.dies.mapAll fun _ x => { x with units := x.units.mapAll fun k u => if k = c then { u with pool := [] } else u
                                                graphs := x.graphs.filter (·.ctx != c)
                                                colls := x.colls.filter (·.ctx != c)
                                                collSteps := x.collSteps.filter (·.2.ctx != c)
                                                collCount := x.collCount.filter fun p => p.1 / 1024 % 16 != c }
      queues := s.queues.mapAll fun _ q => if q.ctx = c then { q with cfg := q.cfg &&& 0x7FFFFFFF } else q
      mod := { s.mod with lwcfg := s.mod.lwcfg.mapAll fun _ v =>
        if (s.queue (v.extractLsb' 24 6).toNat).ctx = c then v &&& 0x7FFFFFFF else v } } : State).modCtx c fun x =>
    { x with tags := [], waiting := [] }).dropContext c

theorem State.destroyStart_eq (s : State) (c : Nat) : s.destroyStart c =
    ((s.modCtx c fun x => { x with busy := true, creating := false }).discardTeams (s.teams.filter fun p => p.2.ctx == c)).endContext c := by
  rfl

theorem State.ctx_endContext (s : State) (c : Nat) : (s.endContext c).ctx c = { s.ctx c with tags := [], waiting := [] } := by
  have ends : ∀ u : State, ((u.modCtx c fun x => { x with tags := [], waiting := [] }).dropContext c).ctx c = { u.ctx c with tags := [], waiting := [] } :=
    fun u => (State.ctx_modCtx u c c fun x => { x with tags := [], waiting := [] }).trans (if_pos rfl)
  exact ends _

theorem State.grids_endContext {s : State} {c : Nat} {p : Nat × Grid} (h : p ∈ (s.endContext c).grids) : p.2.ctx ≠ c := by
  have filtered : p ∈ s.grids.filter fun p => p.2.ctx != c := h
  simpa using (List.mem_filter.1 filtered).2

/-- The end of a context disables its queues (R29). -/
theorem State.queue_endContext {s : State} {c q : Nat} (mine : (s.queue q).ctx = c) : ((s.endContext c).queue q).cfg.getLsbD 31 = false := by
  have queue : (s.endContext c).queue q = (s.queues.mapAll fun _ q => if q.ctx = c then { q with cfg := q.cfg &&& 0x7FFFFFFF } else q).get q Queue.reset := rfl
  rw [queue, Tbl.get_mapAll]
  change (s.queues.get q Queue.reset).ctx = c at mine
  cases there : s.queues.find? q with
  | none =>
    rw [Tbl.get, there, Option.isSome_none, if_neg Bool.false_ne_true]
    decide
  | some x =>
    rw [Tbl.get, there] at mine
    simp [Tbl.get, there, show x.ctx = c from mine]

/-- A wave whose team is of another context than 0 has its team there. -/
theorem State.team_of_ctxOf {s : State} {k c : Nat} (other : c ≠ 0) (h : s.ctxOf k = c) : ∃ x, s.teams.find? (k / 64) = some x ∧ x.ctx = c := by
  cases there : s.teams.find? (k / 64) with
  | none =>
    have gone : s.ctxOf k = 0 := by rw [State.ctxOf, State.team, Tbl.get, there]; rfl
    exact absurd (h.symm.trans gone) other
  | some x =>
    refine ⟨x, rfl, ?_⟩
    rw [State.ctxOf, State.team, Tbl.get, there] at h
    exact h

theorem ctxctlDestroy_empties {c : Nat} {s : State} (other : c ≠ 0) (idle : (s.ctx c).busy = false) (live : (s.ctx c).live = true) :
    ∃ t, exec (.ctxctlDestroy c) s = .next t ∧ (t.ctx c).busy = true ∧ (t.ctx c).creating = false ∧ (t.ctx c).live = true ∧
      (∀ k, s.ctxOf k = c → t.waves.find? k = none) ∧ (∀ p ∈ t.grids, p.2.ctx ≠ c) ∧
      (∀ k x, t.teams.find? k = some x → x.ctx = c → x.state = .killed) ∧
      ∀ q, ((s.queue q).cfg.extractLsb' 16 4).toNat = c → (t.queue q).cfg.getLsbD 31 = false := by
  have starts : s.writeCtxctl c 2 = s.destroyStart c := by simp [State.writeCtxctl, other, idle, live]
  have runs : exec (.ctxctlDestroy c) s = .next (s.destroyStart c) := congrArg Host.Outcome.next starts
  let ts := s.teams.filter fun p => p.2.ctx == c
  let marked := s.modCtx c fun x => { x with busy := true, creating := false }
  have sheds : marked.Sheds (marked.discardTeams ts) := State.Sheds.discardTeams _ _
  have listed : ∀ {t x}, s.teams.find? t = some x → x.ctx = c → (marked.discardTeams ts).Discarded t := fun there mine =>
    State.discarded_discardTeams _ _ (.inl ⟨_, List.mem_filter.2 ⟨Tbl.mem_of_find there, beq_iff_eq.2 mine⟩, rfl⟩)
  have ctx : (marked.discardTeams ts).ctx c = { s.ctx c with busy := true, creating := false } := by
    rw [State.ctx, sheds.ctxs]
    exact (State.ctx_modCtx s c c _).trans (if_pos rfl)
  rw [State.destroyStart_eq] at runs
  refine ⟨_, runs, ?_, ?_, ?_, fun k hk => ?_, fun p => State.grids_endContext, fun k x' there mine => ?_, fun q mine => State.queue_endContext ?_⟩
  · rw [State.ctx_endContext, ctx]
  · rw [State.ctx_endContext, ctx]
  · rw [State.ctx_endContext, ctx, live]
  · obtain ⟨x, there, mine⟩ := State.team_of_ctxOf other hk
    exact (listed there mine).waves k rfl
  · obtain ⟨x, before, same, -⟩ := sheds.teams k x' there
    exact (listed before (same.trans mine)).team x' there
  · rw [State.queue, sheds.queues]
    exact mine

/-! ## The obligation -/

/-- Settles O47: each part is the law of its own event, and of a Destroy that of the teams it discards. -/
theorem registersScratchpadsAndContexts : Obligations.RegistersScratchpadsAndContexts := by
  refine ⟨fun k v s there => ⟨registerWrite_wstat v there, fun calm => ?_, registerWrite_cntsel v there, registerWrite_trapvec_low v there,
      fun low held => registerWrite_trapvec v there held, fun here n f mem => registerWrite_plain v there here mem,
      fun n outside privileged => registerWrite_refused v outside privileged⟩,
    lqtailWrite_tail, fun d n s => dspszWrite_begins, fun d n s => dspszChangeComplete_takes, fun c s => ctxctl_ignored,
    fun c s => ctxctlCreate_marks, fun c s => contextCreateComplete_resets, fun c s => ctxctlDestroy_empties,
    fun c s => contextDestroyComplete_ends⟩
  simpa only [writeFcsr_plain] using registerWrite_fcsr v there calm

end Sys2Proof.Machine

/-! # Plain accesses through an L1 (R188, R195)

A line that comes in changes no byte that a core sees; a load that lies in one line finds the bytes that the core sees; a store puts its bytes
where the core sees them, and where they are settled. -/

namespace Sys2Proof.Machine

/-! ## Bytes of a line -/

theorem length_toBytes (n v : Nat) : (toBytes n v).length = n := by simp [toBytes]

theorem getD_toBytes (v : Nat) {n i : Nat} (hi : i < n) : (toBytes n v).getD i 0 = BitVec.ofNat 8 (v / 256 ^ i) := by
  simp [toBytes, hi, pow_256, Nat.mul_comm]

theorem getLsbD_ff (k : Nat) : (0xFF#1024).getLsbD k = decide (k < 8) := by
  have widened : 0xFF#1024 = (0xFF#8).setWidth 1024 := by simp
  rw [widened, BitVec.getLsbD_setWidth]
  by_cases hk : k < 8
  · have all : ∀ j < 8, (0xFF#8).getLsbD j = true := by decide
    simp [hk, all k hk, show k < 1024 by omega]
  · simp [hk, BitVec.getLsbD_of_ge (0xFF#8) k (by omega)]

/-- A byte of a line after a store of a byte. -/
theorem L1Line.byte_store (l : L1Line) (b : Byte) {i j : Nat} (hj : j < 128) : (l.store i b).byte j = if j = i then b else l.byte j := by
  apply BitVec.eq_of_getLsbD_eq
  intro k hk
  simp only [L1Line.store, L1Line.byte, BitVec.getLsbD_extractLsb', hk, decide_true, Bool.true_and, BitVec.getLsbD_or, BitVec.getLsbD_and,
    BitVec.getLsbD_not, BitVec.getLsbD_shiftLeft, BitVec.getLsbD_setWidth, getLsbD_ff, show 8 * j + k < 1024 by omega]
  by_cases e : j = i
  · subst e
    simp [hk, show ¬ 8 * j + k < 8 * j by omega, show k < 1024 by omega]
  · rw [if_neg e]
    by_cases below : 8 * j + k < 8 * i
    · simp [below, hk]
    · have past : ¬ 8 * j + k - 8 * i < 8 := by omega
      simp [below, past, hk, BitVec.getLsbD_of_ge b _ (by omega : 8 ≤ 8 * j + k - 8 * i)]

theorem L1Line.dirty_store (l : L1Line) (b : Byte) {i j : Nat} (hj : j < 128) :
    (l.store i b).dirty.getLsbD j = (decide (j = i) || l.dirty.getLsbD j) := by
  simp only [L1Line.store, BitVec.getLsbD_or, BitVec.getLsbD_shiftLeft, hj, decide_true, Bool.true_and, BitVec.getLsbD_one]
  by_cases e : j = i
  · subst e; simp
  · by_cases below : j < i
    · simp [e, below]
    · simp [e, show ¬ j - i = 0 by omega]

/-- A line with the first n of some bytes stored from a byte on. -/
def L1Line.stores (l : L1Line) (off : Nat) (bs : List Byte) (n : Nat) : L1Line :=
  (List.range n).foldl (fun l i => l.store (off + i) (bs.getD i 0)) l

theorem L1Line.stores_succ (l : L1Line) (off : Nat) (bs : List Byte) (n : Nat) :
    l.stores off bs (n + 1) = (l.stores off bs n).store (off + n) (bs.getD n 0) := by
  simp [L1Line.stores, List.range_succ]

theorem L1Line.byte_stores (l : L1Line) (off : Nat) (bs : List Byte) (n : Nat) {j : Nat} (hj : j < 128) :
    (l.stores off bs n).byte j = if off ≤ j ∧ j < off + n then bs.getD (j - off) 0 else l.byte j := by
  induction n with
  | zero => rw [if_neg (by omega)]; rfl
  | succ n ih =>
    rw [L1Line.stores_succ, L1Line.byte_store _ _ hj, ih]
    by_cases last : j = off + n
    · subst last
      rw [if_pos rfl, if_pos (by omega), Nat.add_sub_cancel_left]
    · by_cases inside : off ≤ j ∧ j < off + n
      · rw [if_neg last, if_pos inside, if_pos (by omega)]
      · rw [if_neg last, if_neg inside, if_neg (by omega)]

theorem L1Line.dirty_stores (l : L1Line) (off : Nat) (bs : List Byte) (n : Nat) {j : Nat} (hj : j < 128) :
    (l.stores off bs n).dirty.getLsbD j = (decide (off ≤ j ∧ j < off + n) || l.dirty.getLsbD j) := by
  induction n with
  | zero => rw [decide_eq_false (by omega), Bool.false_or]; rfl
  | succ n ih =>
    rw [L1Line.stores_succ, L1Line.dirty_store _ _ hj, ih, ← Bool.or_assoc, ← Bool.decide_or]
    exact congrArg (· || _) (decide_eq_decide.2 (by omega))

/-! ## A line that comes in -/

/-- A core brings a line in on a miss: not one with a poisoned word, nor one for which there is no room. -/
def State.fills (s : State) (c line : Nat) : Bool :=
  !(s.l1Has c line || (s.poisonAt (line * 128) 128).isSome || decide (l1Lines ≤ (s.core c).l1.length))

/-- A line as memory holds it. -/
def State.lineNow (s : State) (line : Nat) : L1Line := { data := BitVec.ofNat 1024 (fromBytes (s.l2Read (line * 128) 128)), dirty := 0 }

theorem State.l1Fill_eq (s : State) (c line : Nat) :
    s.l1Fill c line = if s.fills c line then s.modL1 c fun t => t.put line (s.lineNow line) else s := by
  by_cases h : (s.l1Has c line || (s.poisonAt (line * 128) 128).isSome || decide (l1Lines ≤ (s.core c).l1.length)) = true
  · rw [State.l1Fill, State.fills, if_pos h, h]; rfl
  · rw [State.l1Fill, State.fills, if_neg h, eq_false_of_ne_true h]; rfl

/-- A line comes in only where the core does not hold it. -/
theorem State.find_of_fills {s : State} {c line : Nat} (h : s.fills c line = true) : (s.core c).l1.find? line = none := by
  by_contra held
  have has : s.l1Has c line = true := Option.isSome_iff_ne_none.2 held
  simp [State.fills, has] at h

theorem State.byte_lineNow (s : State) (a : Nat) : (s.lineNow (a / 128)).byte (a % 128) = Memory.read s.mem a := by
  have small : a % 128 < 128 := Nat.mod_lt _ (by decide)
  rw [State.lineNow, State.l2Read, L1Line.byte_ofBytes (Memory.length_readBytes _ _ _) _ small, Memory.getD_readBytes _ _ small, line_of_byte]

/-- A change of the L1 of a core changes nothing else. -/
theorem State.core_modL1 (s : State) (c d : Nat) (f : Tbl L1Line → Tbl L1Line) :
    (s.modL1 c f).core d = if c = d then { s.core c with l1 := f (s.core c).l1 } else s.core d := State.core_modCore _ _ _ _

theorem State.find_l1_modL1 (s : State) (c d line : Nat) (f : Tbl L1Line → Tbl L1Line) :
    ((s.modL1 c f).core d).l1.find? line = if c = d then (f (s.core c).l1).find? line else ((s.core d).l1.find? line) := by
  rw [State.core_modL1]; split <;> rfl

/-- Each line of an L1 after a line has come in. -/
theorem State.find_l1Fill (s : State) (c line d x : Nat) : ((s.l1Fill c line).core d).l1.find? x =
    if s.fills c line = true ∧ c = d ∧ line = x then some (s.lineNow line) else (s.core d).l1.find? x := by
  rw [State.l1Fill_eq]
  by_cases h : s.fills c line = true
  · rw [if_pos h, State.find_l1_modL1]
    by_cases e : c = d
    · subst e
      rw [if_pos rfl, Tbl.find_put]
      simp only [h, true_and]
    · rw [if_neg e, if_neg fun h => e h.2.1]
  · rw [if_neg h, if_neg fun h' => h h'.1]

theorem State.core_l1Fill_ne (s : State) {c d : Nat} (line : Nat) (other : d ≠ c) : (s.l1Fill c line).core d = s.core d := by
  rw [State.l1Fill_eq]
  split
  · rw [State.core_modL1, if_neg (Ne.symm other)]
  · rfl

theorem State.OutsideL1.refl (s : State) : s.OutsideL1 s := ⟨rfl, fun _ => rfl, fun _ _ => rfl, fun _ _ => rfl⟩

theorem State.OutsideL1.trans {a b c : State} (h : a.OutsideL1 b) (h' : b.OutsideL1 c) : a.OutsideL1 c := by
  obtain ⟨same, cores, seen, settled⟩ := h
  obtain ⟨same', cores', seen', settled'⟩ := h'
  refine ⟨?_, fun d => ?_, fun d x => (seen' d x).trans (seen d x), fun d x => (settled' d x).trans (settled d x)⟩
  · exact Eq.trans (congrArg (fun x : State => { x with waves := a.waves, cur := a.cur, cores := a.cores }) same') same
  · exact Eq.trans (congrArg (fun x : Core => { x with l1 := (a.core d).l1 }) (cores' d)) (cores d)

/-- States that are the same outside the waves. -/
theorem State.Outside.outsideL1 {a b : State} (h : a.Outside b) : a.OutsideL1 b := by
  have core : ∀ c, b.core c = a.core c := fun c => by have := congrArg (State.core · c) h; exact this
  have seen : ∀ c x, b.seen c x = a.seen c x := fun c x => by have := congrArg (State.seen · c x) h; exact this
  have settled : ∀ c x, b.settled c x = a.settled c x := fun c x => by have := congrArg (State.settled · c x) h; exact this
  exact ⟨congrArg (fun x : State => { x with cores := a.cores }) h, fun c => by rw [core], seen, settled⟩

/-- A line that comes in changes no byte that any core sees. -/
theorem State.outsideL1_l1Fill (s : State) (c line : Nat) : s.OutsideL1 (s.l1Fill c line) := by
  have new : ∀ {d a}, s.fills c line = true ∧ c = d ∧ line = a / 128 → (s.core d).l1.find? (a / 128) = none ∧ s.lineNow line = s.lineNow (a / 128) := by
    rintro d a ⟨fills, rfl, rfl⟩
    exact ⟨State.find_of_fills fills, rfl⟩
  refine ⟨?_, fun d => ?_, fun d a => ?_, fun d a => ?_⟩
  · rw [State.l1Fill_eq]; split <;> rfl
  · rw [State.l1Fill_eq]
    split
    · rw [State.core_modL1]
      split
      · next e => subst e; rfl
      · rfl
    · rfl
  · simp only [State.seen, State.find_l1Fill, State.l1Fill_mem]
    by_cases comes : s.fills c line = true ∧ c = d ∧ line = a / 128
    · obtain ⟨missed, same⟩ := new comes
      simp only [if_pos comes, missed, same, State.byte_lineNow]
    · simp only [if_neg comes]
  · simp only [State.settled, State.find_l1Fill, State.l1Fill_mem]
    by_cases comes : s.fills c line = true ∧ c = d ∧ line = a / 128
    · obtain ⟨missed, -⟩ := new comes
      simp [if_pos comes, missed, State.lineNow]
    · simp only [if_neg comes]

/-! ## Loads -/

/-- A load that lies in one line brings the line in and finds the bytes that the core sees (R195). -/
theorem State.l1Read_eq (s : State) (c : Nat) {pa n : Nat} (inLine : pa % 128 + n ≤ 128) :
    s.l1Read c pa n = (s.l1Fill c (pa / 128), (List.range n).map fun i => s.seen c (pa + i)) := by
  obtain ⟨-, -, seen, -⟩ := s.outsideL1_l1Fill c (pa / 128)
  have line : ∀ i < n, (pa + i) / 128 = pa / 128 ∧ (pa + i) % 128 = pa % 128 + i := fun i hi => by omega
  have bytes : (List.range n).map (fun i => s.seen c (pa + i)) = (List.range n).map fun i => (s.l1Fill c (pa / 128)).seen c (pa + i) :=
    List.map_congr_left fun i _ => (seen c _).symm
  rw [bytes]
  simp only [State.l1Read]
  split
  · next l held =>
    refine Prod.ext rfl (List.map_congr_left fun i hi => ?_)
    obtain ⟨same, off⟩ := line i (List.mem_range.1 hi)
    simp only [State.seen, same, off, held]
  · next missed =>
    refine Prod.ext rfl (List.map_congr_left fun i hi => ?_)
    obtain ⟨same, -⟩ := line i (List.mem_range.1 hi)
    simp only [State.seen, same, missed]

end Sys2Proof.Machine

/-! # Waves without their conflicts

What a store changes of the lanes that watch its bytes is their conflict flag (R278). A frame of a store speaks of the waves without that flag:
what an effect makes of the waves, it makes of them without it. -/

namespace Sys2Proof.Machine

def Lane.calm (x : Lane) : Lane := { x with conflict := false }
def Wave.calm (w : Wave) : Wave := { w with lanes := w.lanes.mapAll fun _ l => l.calm }

theorem State.find_calm (s : State) (k : Nat) : s.calm.waves.find? k = (s.waves.find? k).map Wave.calm :=
  Tbl.find_mapAll s.waves k fun _ => Wave.calm

theorem State.wave_calm (s : State) (k : Nat) : s.calm.wave k = (s.wave k).calm := by
  simp only [State.wave, Tbl.get, State.find_calm]
  cases s.waves.find? k <;> rfl

theorem State.w_calm (s : State) : s.calm.w = s.w.calm := s.wave_calm _

theorem Wave.find_calm (w : Wave) (l : Nat) : w.calm.lanes.find? l = (w.lanes.find? l).map Lane.calm :=
  Tbl.find_mapAll w.lanes l fun _ => Lane.calm

@[simp] theorem Wave.lane_calm (w : Wave) (l : Nat) : w.calm.lane l = (w.lane l).calm := by
  simp only [Wave.lane, Tbl.get, Wave.find_calm]
  cases w.lanes.find? l <;> rfl

theorem Wave.kept_calm (w : Wave) : w.Kept w.calm := rfl
theorem Wave.calm_kept (w : Wave) : w.calm.Kept w := rfl

theorem Lane.Kept.calm {x y : Lane} (h : x.Kept y) : x.calm.Kept y.calm := congrArg Lane.calm h

theorem Wave.Kept.calm {w x : Wave} (h : w.Kept x) : w.calm.Kept x.calm := by
  have := congrArg Wave.calm h
  exact this

/-! ## What the checks read -/

theorem laneReader_calm (w : Wave) (l : Nat) (o : Ops) : laneReader w.calm l o = laneReader w l o := by
  have read : ∀ t c, readV w.calm l o.lit t c = readV w l o.lit t c := fun t c => by
    simp only [readV, Wave.lane_calm]
    rfl
  funext t f
  exact read t _

theorem lanesRead_calm (i : Instr) (w : Wave) (m : BitVec 32) : lanesRead i w.calm m = lanesRead i w m := by
  have shuffle : ∀ k o, shuffleLanes k w.calm m o = shuffleLanes k w m o := fun k o => by simp only [shuffleLanes, laneReader_calm]
  cases i <;> simp only [lanesRead, shuffle]

theorem State.pre_calm (s : State) : s.calm.pre = s.pre ∨ s.calm.pre = s.pre.calm := by
  simp only [State.pre]
  cases h : s.cur.pre with
  | none => exact .inr (by rw [show s.calm.cur.pre = none from h]; exact s.w_calm)
  | some w => exact .inl (by rw [show s.calm.cur.pre = some w from h]; rfl)

theorem State.staleUse_calm (s : State) (i : Instr) (us : List OpUse) : s.calm.staleUse i us = s.staleUse i us := by
  have mask : s.calm.mask = s.mask := rfl
  obtain same | calm := s.pre_calm
  · simp only [State.staleUse, same, mask]
  · have slatch : s.pre.calm.slatch = s.pre.slatch := rfl
    have latch : ∀ l, (s.pre.lane l).calm.latch = (s.pre.lane l).latch := fun _ => rfl
    simp only [State.staleUse, calm, mask, lanesRead_calm, Wave.lane_calm, slatch, latch]

theorem State.staleAfter_calm (s : State) (i : Instr) (sp : Spans) : s.calm.staleAfter i sp = s.staleAfter i sp := by
  simp only [State.staleAfter, State.staleUse_calm, State.w_calm]
  rfl

theorem State.Checked.calm {s b : State} {i : Instr} {sp : Spans} (h : s.Checked b i sp) : s.calm.Checked b.calm i sp where
  wave := h.wave
  waves k hk := by rw [State.find_calm, State.find_calm, h.waves k hk]
  kept := by rw [State.w_calm, State.w_calm]; exact h.kept.calm
  lane l := by
    obtain ⟨kept, v, pc, life⟩ := h.lane l
    rw [State.w_calm, State.w_calm, Wave.lane_calm, Wave.lane_calm]
    exact ⟨kept.calm, v, pc, life⟩
  sregs := by rw [State.w_calm, State.w_calm]; exact h.sregs
  latch l := by rw [State.w_calm, State.w_calm, Wave.lane_calm, Wave.lane_calm]; exact h.latch l
  slatch := by rw [State.w_calm, State.w_calm]; exact h.slatch
  fcsr := by rw [State.w_calm, State.w_calm]; exact h.fcsr
  wstat := by rw [State.staleAfter_calm, State.w_calm]; exact h.wstat

/-! ## Effects -/

theorem Wave.Alters.calm {w x : Wave} {c : Change} (h : w.Alters x c) (hc : c.Own) (lane : ∀ l y, c.lane l y.calm = (c.lane l y).calm) :
    w.calm.Alters x.calm c where
  has l := by rw [Wave.find_calm, Wave.find_calm, Option.isSome_map, Option.isSome_map, h.has]
  kept := ((hc.wave.kept _ _ w.calm_kept).trans h.kept).trans x.kept_calm
  lanes l := by rw [Wave.lane_calm, Wave.lane_calm, lane]; exact (h.lanes l).calm
  regs l r := by rw [Wave.lane_calm, Wave.lane_calm]; exact h.regs l r
  sregs := h.sregs
  still l hl := by rw [Wave.lane_calm, Wave.lane_calm]; exact h.still l hl
  latch l := by rw [Wave.lane_calm, Wave.lane_calm]; exact h.latch l
  slatch := h.slatch
  fcsr := h.fcsr
  wstat := h.wstat

theorem State.Effect.calm {b t : State} {c : Change} (h : b.Effect t c) (hc : c.Own) (lane : ∀ l y, c.lane l y.calm = (c.lane l y).calm) :
    b.calm.Effect t.calm c where
  cur := h.cur
  waves k hk := by rw [State.find_calm, State.find_calm, h.waves k hk]
  there := by
    have at_ : b.calm.cur.wave = b.cur.wave := rfl
    rw [at_, State.find_calm, State.find_calm, Option.isSome_map, Option.isSome_map, h.there]
  w := by rw [State.w_calm, State.w_calm]; exact h.w.calm hc lane

/-- After the checks an effect is made of the waves but for their conflicts, and then the group goes on past the instruction. -/
theorem State.Clear.goesOnCalm {s u : State} {i : Instr} {sp : Spans} {c : Change} (h : s.Clear i sp) (hu : (s.begun i sp).calm.Effect u.calm c)
    (hc : c.Own) :
    s.calm.Frame (u.advance u.mask).calm i sp { c with moved := fun l => c.moved l && !s.mask.getLsbD l } ∧
      (u.advance u.mask).At s.mask fun _ => s.nextPc := by
  obtain ⟨soft, -⟩ := State.begun_soft h
  have group := h.group_begun
  have cur : u.cur = (s.begun i sp).cur := hu.cur
  have mask : u.mask = s.mask := hu.mask.trans soft.mask_eq
  have there : (u.waves.find? u.cur.wave).isSome = true := by
    have := hu.isThere (by rw [State.find_calm, Option.isSome_map]; exact group.wave)
    rwa [State.find_calm, Option.isSome_map] at this
  have thawed : u.cur.frozenLanes = 0 := by rw [cur]; exact group.frozenLanes
  rw [mask]
  have goes := (State.Effect.advance there thawed s.mask).calm (Change.own_registers _ _ _) fun _ _ => rfl
  refine ⟨h.checked.calm.frame (hu.trans goes (Change.own_registers _ _ _)) (hc.andThen (Change.own_registers _ _ _))
    (fun _ _ => rfl) (fun _ => rfl) (fun _ => rfl) (fun _ _ => rfl) fun l hl hm => ?_, fun l hl => ?_⟩
  · have hl : s.mask.getLsbD l = false := hl
    have hm : c.moved l = false := by simpa [hl] using hm
    simp [Change.andThen, hl, hm]
  · have has : (u.w.lanes.find? l).isSome = true := by
      have := hu.w.has l
      rw [State.w_calm, State.w_calm, Wave.find_calm, Wave.find_calm, Option.isSome_map, Option.isSome_map, (soft.lane l).1] at this
      rw [this]; exact h.lanes l hl
    rw [State.lane_advance there thawed, if_pos ⟨hl, has⟩]
    exact ⟨(hu.nextPc).trans soft.nextPc, rfl⟩

end Sys2Proof.Machine

/-! # Plain stores through an L1 (R188, R195) -/

namespace Sys2Proof.Machine

/-- What conflicts change: of any lane its flag alone (R278). -/
theorem State.calm_conflict (s : State) (space who line : Nat) : (s.conflict space who line).calm = s.calm := by
  have waves : (s.conflict space who line).calm.waves = s.calm.waves := by
    simp only [State.calm, State.conflict, Tbl.mapAll, List.map_map]
    refine List.map_congr_left fun p _ => ?_
    simp only [Function.comp_apply]
    split
    · refine congrArg (Prod.mk p.1) ?_
      simp only [List.map_map]
      refine congrArg (fun ls => ({ p.2 with lanes := ls } : Wave)) (List.map_congr_left fun q _ => ?_)
      simp only [Function.comp_apply]
      split <;> rfl
    · rfl
  exact congrArg (fun w => ({ s with waves := w } : State)) waves

theorem State.calm_conflicts (s : State) (space who a n : Nat) : (s.conflicts space who a n).calm = s.calm := by
  rw [State.conflicts]
  split
  · rfl
  · exact foldl_field State.calm (fun t l => t.conflict space who l) (fun t l => t.calm_conflict space who l) (linesOf a n) s

theorem State.calm_l2Write (s : State) (pa : Nat) (bs : List Byte) :
    (s.l2Write pa bs).calm = { s with mem := Memory.writeBytes s.mem pa bs }.calm := State.calm_conflicts _ _ _ _ _

/-- t is s but for bytes that its own core has stored: `f` makes of the bytes that the core saw those that it sees, and likewise of those that
are settled. -/
structure State.Stored (s t : State) (f : (Loc → Byte) → Loc → Byte) : Prop where
  outside : { t with waves := s.waves, cores := s.cores, mem := s.mem } = s
  calm : t.calm.waves = s.calm.waves
  l1 : ∀ c, { t.core c with l1 := (s.core c).l1 } = s.core c
  others : ∀ c, c ≠ s.coreNo → t.core c = s.core c
  seen : t.byteBy (t.seen s.coreNo) = f (s.byteBy (s.seen s.coreNo))
  settled : t.byteBy (t.settled s.coreNo) = f (s.byteBy (s.settled s.coreNo))

namespace State.Stored

theorem refl (s : State) : s.Stored s id := ⟨rfl, rfl, fun _ => rfl, fun _ _ => rfl, rfl, rfl⟩

section
variable {s t : State} {f : (Loc → Byte) → Loc → Byte} (h : s.Stored t f)
include h

theorem cur : t.cur = s.cur := by have := congrArg State.cur h.outside; exact this
theorem coreNo : t.coreNo = s.coreNo := by have := congrArg State.coreNo h.outside; exact this
theorem pre {w : Wave} (hw : s.cur.pre = some w) : t.pre = w := by simp only [State.pre, h.cur, hw, Option.getD_some]

/-- The executing wave but for conflicts. -/
theorem w_calm : t.w.calm = s.w.calm := by
  have waves := h.calm
  rw [← State.w_calm, ← State.w_calm]
  simp only [State.w, State.wave, waves]
  rw [show t.calm.cur = s.calm.cur from h.cur]

theorem trans {u : State} {g : (Loc → Byte) → Loc → Byte} (h' : t.Stored u g) : s.Stored u fun view => g (f view) where
  outside := Eq.trans (congrArg (fun x : State => { x with waves := s.waves, cores := s.cores, mem := s.mem }) h'.outside) h.outside
  calm := h'.calm.trans h.calm
  l1 c := Eq.trans (congrArg (fun x : Core => { x with l1 := (s.core c).l1 }) (h'.l1 c)) (h.l1 c)
  others c hc := (h'.others c (by rwa [h.coreNo])).trans (h.others c hc)
  seen := by
    have later := h'.seen
    rw [h.coreNo, h.seen] at later
    exact later
  settled := by
    have later := h'.settled
    rw [h.coreNo, h.settled] at later
    exact later

end

end State.Stored

/-! ## One store -/

/-- Bytes of global memory with some replaced from an address on. -/
def putBytes (pa : Nat) (bs : List Byte) (view : Nat → Byte) (a : Nat) : Byte :=
  if pa ≤ a ∧ a < pa + bs.length then bs.getD (a - pa) 0 else view a

/-- The bytes of a place in global memory, replaced. -/
theorem Place.update_mem (pa n v : Nat) (s : State) (view : Nat → Byte) :
    (Place.mem pa).update n v (s.byteBy view) = s.byteBy (putBytes pa (toBytes n v) view) := by
  funext ⟨space, a⟩
  simp only [Place.update, Place.loc]
  cases found : (List.range n).find? fun j => (⟨0, pa + j⟩ : Loc) == ⟨space, a⟩ with
  | some j =>
    have here : (⟨0, pa + j⟩ : Loc) = ⟨space, a⟩ := by simpa using List.find?_some found
    have lt : j < n := List.mem_range.1 (List.mem_of_find?_eq_some found)
    obtain ⟨rfl, rfl⟩ := Loc.mk.inj here
    simp only [State.byteBy, putBytes, length_toBytes]
    rw [if_pos (by omega), Nat.add_sub_cancel_left, getD_toBytes v lt]
  | none =>
    match space with
    | 0 =>
      have none_at : ∀ j < n, pa + j ≠ a := by simpa using found
      have out : ¬ (pa ≤ a ∧ a < pa + (toBytes n v).length) := fun inside => by
        rw [length_toBytes] at inside
        exact none_at (a - pa) (by omega) (by omega)
      simp only [State.byteBy, putBytes, if_neg out]
    | 1 => rfl
    | 2 => rfl
    | n + 3 => rfl

theorem State.fill_stored (s : State) (line : Nat) : s.Stored (s.l1Fill s.coreNo line) id := by
  obtain ⟨-, l1, seen, settled⟩ := s.outsideL1_l1Fill s.coreNo line
  have outside : { s.l1Fill s.coreNo line with waves := s.waves, cores := s.cores, mem := s.mem } = s := by
    rw [State.l1Fill_eq]; split <;> rfl
  have bytes : ∀ g, (s.l1Fill s.coreNo line).byteBy g = s.byteBy g := fun g => by have := congrArg (State.byteBy · g) outside; exact this
  refine ⟨outside, ?_, l1, fun c hc => s.core_l1Fill_ne line hc, ?_, ?_⟩
  · rw [State.l1Fill_eq]; split <;> rfl
  · rw [bytes, funext (seen s.coreNo)]; rfl
  · rw [bytes, funext (settled s.coreNo)]; rfl

section
variable {s : State} {pa n : Nat} (v : Nat) (inLine : pa % 128 + n ≤ 128)
include inLine

omit inLine in
/-- The bytes of a store within the line that it lies in. -/
theorem inside_line {a : Nat} (same : a / 128 = pa / 128) :
    (pa % 128 ≤ a % 128 ∧ a % 128 < pa % 128 + n ↔ pa ≤ a ∧ a < pa + n) ∧ a % 128 - pa % 128 = a - pa := by
  omega

/-- No byte of a store lies in another line. -/
theorem outside_line {a : Nat} (other : a / 128 ≠ pa / 128) : ¬ (pa ≤ a ∧ a < pa + n) := by
  omega

/-- A store to a line that the core holds. -/
theorem State.hit_stored {l : L1Line} (held : (s.core s.coreNo).l1.find? (pa / 128) = some l) :
    s.Stored (s.modL1 s.coreNo fun t => t.mod (pa / 128) fun l => l.stores (pa % 128) (toBytes n v) n) ((Place.mem pa).update n v) := by
  have small : ∀ a, a % 128 < 128 := fun a => Nat.mod_lt _ (by decide)
  have line : ∀ x, ((s.modL1 s.coreNo fun t => t.mod (pa / 128) fun l => l.stores (pa % 128) (toBytes n v) n).core s.coreNo).l1.find? x =
      if pa / 128 = x then ((s.core s.coreNo).l1.find? x).map fun l => l.stores (pa % 128) (toBytes n v) n else (s.core s.coreNo).l1.find? x := fun x => by
    rw [State.find_l1_modL1, if_pos rfl, Tbl.find_mod]
  refine ⟨rfl, rfl, fun c => ?_, fun c hc => ?_, ?_, ?_⟩
  · rw [State.core_modL1]
    split
    · next e => subst e; rfl
    · rfl
  · rw [State.core_modL1, if_neg (Ne.symm hc)]
  · rw [Place.update_mem]
    refine congrArg s.byteBy (funext fun a => ?_)
    simp only [State.seen, line, putBytes, length_toBytes]
    by_cases same : a / 128 = pa / 128
    · obtain ⟨range, offset⟩ := inside_line (n := n) same
      simp only [same, held, ↓reduceIte, Option.map_some, L1Line.byte_stores _ _ _ _ (small a), range, offset]
    · simp only [if_neg (Ne.symm same), if_neg (outside_line inLine same)]
      rfl
  · rw [Place.update_mem]
    refine congrArg s.byteBy (funext fun a => ?_)
    simp only [State.settled, line, putBytes, length_toBytes]
    by_cases same : a / 128 = pa / 128
    · obtain ⟨range, offset⟩ := inside_line (n := n) same
      simp only [same, held, ↓reduceIte, Option.map_some, L1Line.byte_stores _ _ _ _ (small a), L1Line.dirty_stores _ _ _ _ (small a), range, offset,
        Bool.or_eq_true, decide_eq_true_eq]
      by_cases inside : pa ≤ a ∧ a < pa + n
      · simp only [inside, and_self, true_or, ↓reduceIte]
      · simp only [inside, false_or, ↓reduceIte]
        rfl
    · simp only [if_neg (Ne.symm same), if_neg (outside_line inLine same)]
      rfl

/-- A store to a line that the core does not hold is performed at the coherence point. -/
theorem State.miss_stored (missed : (s.core s.coreNo).l1.find? (pa / 128) = none) :
    s.Stored (s.l2Write pa (toBytes n v)) ((Place.mem pa).update n v) := by
  have outside : { s.l2Write pa (toBytes n v) with waves := s.waves, cores := s.cores, mem := s.mem } = s :=
    congrArg (fun x : State => { x with cores := s.cores, mem := s.mem })
      (State.conflicts_waves { s with mem := Memory.writeBytes s.mem pa (toBytes n v) } 0 0 pa (toBytes n v).length)
  have bytes : ∀ g, (s.l2Write pa (toBytes n v)).byteBy g = s.byteBy g := fun g => by have := congrArg (State.byteBy · g) outside; exact this
  have core : ∀ c, (s.l2Write pa (toBytes n v)).core c = s.core c := fun c => by simp only [State.core, State.l2Write_cores]
  refine ⟨outside, ?_, fun c => by rw [core], fun c _ => core c, ?_, ?_⟩
  · rw [State.calm_l2Write]; rfl
  · rw [Place.update_mem, bytes]
    refine congrArg s.byteBy (funext fun a => ?_)
    simp only [State.seen, core, putBytes, State.l2Write_mem, Memory.read_writeBytes]
    by_cases same : a / 128 = pa / 128
    · simp only [same, missed]
    · simp only [length_toBytes, if_neg (outside_line inLine same)]
  · rw [Place.update_mem, bytes]
    refine congrArg s.byteBy (funext fun a => ?_)
    simp only [State.settled, core, putBytes, State.l2Write_mem, Memory.read_writeBytes]
    by_cases same : a / 128 = pa / 128
    · simp only [same, missed]
    · simp only [length_toBytes, if_neg (outside_line inLine same)]

/-- A store that lies in one line puts its bytes where its core sees them, and where they are settled (R195). -/
theorem State.l1Write_stored : s.Stored (s.l1Write s.coreNo pa (toBytes n v)) ((Place.mem pa).update n v) := by
  have filled := s.fill_stored (pa / 128)
  refine filled.trans (g := (Place.mem pa).update n v) ?_
  simp only [State.l1Write]
  generalize s.l1Fill s.coreNo (pa / 128) = u at *
  rw [← filled.coreNo]
  by_cases has : u.l1Has u.coreNo (pa / 128) = true
  · obtain ⟨l, held⟩ := Option.isSome_iff_exists.1 has
    rw [if_pos has, length_toBytes]
    exact State.hit_stored v inLine held
  · rw [if_neg has]
    exact State.miss_stored v inLine (Option.not_isSome_iff_eq_none.1 has)

end

end Sys2Proof.Machine

/-! # PUSHV (R423) -/

namespace Sys2Proof.Machine

/-! ## Accesses with nothing early or late (R198) -/

theorem State.Orderly.meet {s : State} (h : s.Orderly) (m : BitVec 32) (p : Place) (n : Nat) : s.meet s.cur.wave m p n = s :=
  State.meet_of_direct h.stores h.early

theorem State.Orderly.readFor {s : State} (h : s.Orderly) (m : BitVec 32) (p : Place) (n : Nat) (bypass : Bool) :
    s.readFor m p n bypass = s.readAt p n bypass := by
  rw [State.readFor, h.early, List.isEmpty_nil, if_pos rfl, h.meet]

theorem State.Direct.writeFor {s : State} (h : s.Direct) (m : BitVec 32) (p : Place) (bs : List Byte) (bypass : Bool) :
    s.writeFor m p bs bypass = s.writeAt p bs bypass := by
  rw [State.writeFor, h.now, if_neg Bool.false_ne_true, h.meet]

/-- An effect that leaves a wave's accesses alone. -/
theorem State.Effect.orderly {b t : State} {c : Change} (h : b.Effect t c) (hb : b.Orderly) (stores : (c.wave b.w).stores = b.w.stores)
    (early : ∀ l, (c.lane l (b.w.lane l)).early = (b.w.lane l).early) : t.Orderly := by
  refine ⟨?_, fun l => ?_⟩
  · have kept : t.w.stores = (c.wave b.w).stores := by have := congrArg Wave.stores h.w.kept; exact this
    rw [kept, stores, hb.stores]
  · have kept : (t.w.lane l).early = (c.lane l (b.w.lane l)).early := by have := congrArg Lane.early (h.w.lanes l); exact this
    rw [kept, early, hb.early]

theorem State.Clear.orderly_begun {s : State} {i : Instr} {sp : Spans} (h : s.Clear i sp) (orderly : s.Orderly) : (s.begun i sp).Orderly := by
  obtain ⟨soft, -⟩ := State.begun_soft h
  refine ⟨?_, fun l => ?_⟩
  · have kept : (s.begun i sp).w.stores = s.w.stores := by have := congrArg Wave.stores soft.kept; exact this
    rw [kept, orderly.stores]
  · have kept : ((s.begun i sp).w.lane l).early = (s.w.lane l).early := by have := congrArg Lane.early (soft.lane l).2.1; exact this
    rw [kept, orderly.early]

theorem State.Clear.direct_begun {s : State} {i : Instr} {sp : Spans} (h : s.Clear i sp) (direct : s.Direct) : (s.begun i sp).Direct := by
  have late : (s.begun i sp).cur.lazy = s.cur.lazy := by have := congrArg Cur.lazy (State.begun_cur h); exact this
  exact ⟨h.orderly_begun direct.toOrderly, late.trans direct.now⟩

theorem State.Stored.direct {s t : State} {f : (Loc → Byte) → Loc → Byte} (h : s.Stored t f) (direct : s.Direct) : t.Direct := by
  have calm := h.w_calm
  refine ⟨⟨?_, fun l => ?_⟩, by rw [h.cur]; exact direct.now⟩
  · have same : t.w.stores = s.w.stores := by have := congrArg Wave.stores calm; exact this
    rw [same, direct.stores]
  · have lanes := congrArg (·.lane l) calm
    simp only [Wave.lane_calm] at lanes
    have same : (t.w.lane l).early = (s.w.lane l).early := by have := congrArg Lane.early lanes; exact this
    rw [same, direct.early]

/-! ## Stores of the lanes, one after another -/

/-- Stores of n bytes at places, one after another. -/
def updates (n : Nat) (p : Nat → Place) (v : Nat → Nat) (ls : List Nat) (view : Loc → Byte) : Loc → Byte :=
  ls.foldl (fun view l => (p l).update n (v l) view) view

theorem updates_append (n : Nat) (p : Nat → Place) (v : Nat → Nat) (ls : List Nat) (l : Nat) (view : Loc → Byte) :
    updates n p v (ls ++ [l]) view = (p l).update n (v l) (updates n p v ls view) := by
  simp [updates]

/-- Read-modify-writes that do not read are stores. -/
theorem rmwAll_stores (n : Nat) (p : Nat → Place) (v : Nat → Nat) (view : Loc → Byte) (ls : List Nat) :
    (rmwAll n p (fun l _ => some (v l)) view ls).1 = updates n p v ls view := by
  suffices h : ∀ (acc : (Loc → Byte) × (Nat → Nat)), (ls.foldl ((fun acc l => ((p l).update n (v l) acc.1,
      fun x => if x = l then (p l).value n acc.1 else acc.2 x)) : (Loc → Byte) × (Nat → Nat) → Nat → (Loc → Byte) × (Nat → Nat)) acc).1 =
      updates n p v ls acc.1 from h _
  induction ls with
  | nil => exact fun _ => rfl
  | cons l ls ih => exact fun acc => ih _

/-- States that are the same but for the waves, the memory and the L1s. -/
theorem State.outsideMem_of_l1 {s t : State} (same : { t with waves := s.waves, cur := s.cur, cores := s.cores, mem := s.mem } = s)
    (wave : t.cur.wave = s.cur.wave) (l1 : ∀ c, { t.core c with l1 := (s.core c).l1 } = s.core c) :
    s.OutsideMem t ∧ ∀ g, t.byteBy g = s.byteBy g := by
  have team : ∀ k, t.team k = s.team k := fun k => by have := congrArg (State.team · k) same; exact this
  have die : ∀ d, t.die d = s.die d := fun d => by have := congrArg (State.die · d) same; exact this
  have tm : t.tm = s.tm := by simp only [State.tm, State.tid, wave, team]
  have dieNo : t.dieNo = s.dieNo := by simp only [State.dieNo, State.coreNo, tm]
  refine ⟨⟨?_, l1, fun k _ => team k, by rw [tm], fun d _ => die d, by rw [die]⟩, fun g => funext fun q => ?_⟩
  · exact congrArg (fun x : State => { x with teams := s.teams, dies := s.dies }) same
  · simp only [State.byteBy, tm, die, dieNo]

/-- Stores between states that are the same outside the waves. -/
theorem State.Stored.between {s b u t : State} {f : (Loc → Byte) → Loc → Byte} (h : b.Stored u f) (soft : s.SoftFrom b) (after : u.Outside t)
    (wave : t.cur.wave = u.cur.wave) :
    s.OutsideMem t ∧ t.byteBy (t.seen s.coreNo) = f (s.byteBy (s.seen s.coreNo)) ∧
      t.byteBy (t.settled s.coreNo) = f (s.byteBy (s.settled s.coreNo)) ∧ ∀ c, c ≠ s.coreNo → t.core c = s.core c := by
  have before := soft.elsewhere.1
  have home : b.coreNo = s.coreNo := soft.coreNo
  have core : ∀ c, b.core c = s.core c := fun c => by have := congrArg (State.core · c) before; exact this
  have core' : ∀ c, t.core c = u.core c := fun c => by have := congrArg (State.core · c) after; exact this
  have sees : ∀ c, b.seen c = s.seen c := fun c => by have := congrArg (State.seen · c) before; exact this
  have sees' : ∀ c, t.seen c = u.seen c := fun c => by have := congrArg (State.seen · c) after; exact this
  have settles : ∀ c, b.settled c = s.settled c := fun c => by have := congrArg (State.settled · c) before; exact this
  have settles' : ∀ c, t.settled c = u.settled c := fun c => by have := congrArg (State.settled · c) after; exact this
  have bytes : ∀ g, b.byteBy g = s.byteBy g :=
    (State.outsideMem_of_l1 (congrArg (fun x : State => { x with cores := s.cores, mem := s.mem }) before) soft.wave fun c => by rw [core]).2
  have bytes' : ∀ g, t.byteBy g = u.byteBy g :=
    (State.outsideMem_of_l1 (congrArg (fun x : State => { x with cores := u.cores, mem := u.mem }) after) wave fun c => by rw [core']).2
  have same : { t with waves := s.waves, cur := s.cur, cores := s.cores, mem := s.mem } = s := by
    have e1 := congrArg (fun x : State => { x with waves := s.waves, cur := s.cur, cores := s.cores, mem := s.mem }) after
    have e2 := congrArg (fun x : State => { x with waves := s.waves, cur := s.cur, cores := s.cores, mem := s.mem }) h.outside
    have e3 := congrArg (fun x : State => { x with cores := s.cores, mem := s.mem }) before
    exact (e1.trans e2).trans e3
  refine ⟨(State.outsideMem_of_l1 same (wave.trans ((congrArg Cur.wave h.cur).trans soft.wave)) fun c => ?_).1, ?_, ?_, fun c hc => ?_⟩
  · rw [core', ← core]; exact h.l1 c
  · rw [sees', bytes', ← home, h.seen, bytes, sees]
  · rw [settles', bytes', ← home, h.settled, bytes, settles]
  · rw [core', h.others c (by rwa [home]), core]

/-! ## PUSHV -/

/-- A wave whose spill stack pointer has moved (R80). -/
def Wave.setSsp (n : Nat) (w : Wave) : Wave := { w with ssp := n }

theorem OwnChange.setSsp (n : Nat) : OwnChange (Wave.setSsp n) where
  kept _ _ h := congrArg (Wave.setSsp n) h
  lanes _ := rfl
  s _ := rfl
  slatch _ := rfl
  fcsr _ := rfl
  wstat _ := rfl

theorem Change.own_ssp (n : Nat) : Change.Own { wave := Wave.setSsp n } := ⟨.setSsp n, fun _ => .none⟩

/-- The spill stack pointer moves. -/
def State.moveSsp (s : State) (n : Nat) : State := s.modWave s.cur.wave (Wave.setSsp n)

theorem State.Effect.moveSsp {b : State} (there : (b.waves.find? b.cur.wave).isSome) (n : Nat) : b.Effect (b.moveSsp n) { wave := Wave.setSsp n } :=
  .modWave there (.own _ (.setSsp n))

/-- The bytes of a word stand for it. -/
theorem fromBytes_toBytes_word (x : Word) : fromBytes (toBytes 4 x.toNat) = x.toNat := by
  have small := x.isLt
  simp only [toBytes, List.range_succ, List.range_zero, List.nil_append, List.cons_append, List.map_cons, List.map_nil, fromBytes, BitVec.toNat_ofNat]
  omega

/-- One register of a lane as a store takes it. -/
theorem readRegs_one (w : Wave) {o : Ops} (vector : o.s = false) (l : Nat) : readRegs w o l 1 = ((w.lane l).reg (w.vb + o.d.toNat)).toNat := by
  simp only [readRegs, vector, Bool.false_eq_true, ↓reduceIte, List.range_one, List.map_cons, List.map_nil, List.flatten_cons, List.flatten_nil,
    List.append_nil, Nat.add_zero, fromBytes_toBytes_word]

/-- A word of the spill stack lies in one line. -/
theorem spillWord_inLine {w : Wave} {n : Nat} (base : w.spillAt.toNat % 4 = 0) (slot : n % 4 = 0) (l : Nat) : w.spillWord n l % 128 + 4 ≤ 128 := by
  rw [Wave.spillWord]
  omega

/-- Where the word of each lane lies in the slot at an offset. -/
def Wave.spillPlace (w : Wave) (n l : Nat) : Place := .mem (w.spillWord n l)

section
variable {b : State} {o : Ops} {w : Wave} {n : Nat} (direct : b.Direct) (snapshot : b.cur.pre = some w) (vector : o.s = false)
  (base : w.spillAt.toNat % 4 = 0) (slot : n % 4 = 0)
include direct snapshot vector base slot

/-- The words of the lanes go onto the slot, one after another. -/
theorem State.pushLanes_stored (ls : List Nat) :
    b.Stored (ls.foldl (fun t l => t.pushLane o n l) b) (updates 4 (w.spillPlace n) (fun l => ((w.lane l).reg (w.vb + o.d.toNat)).toNat) ls) := by
  induction ls using List.reverseRecOn with
  | nil => exact .refl b
  | append_singleton ls l ih =>
    rw [List.foldl_append, List.foldl_cons, List.foldl_nil, funext (updates_append _ _ _ _ _)]
    generalize ls.foldl (fun t l => t.pushLane o n l) b = t at *
    have push : t.pushLane o n l = t.l1Write t.coreNo (w.spillWord n l) (toBytes 4 ((w.lane l).reg (w.vb + o.d.toNat)).toNat) := by
      rw [State.pushLane, (ih.direct direct).writeFor, ih.pre snapshot, readRegs_one w vector]
      rfl
    rw [push]
    exact ih.trans (State.l1Write_stored _ (spillWord_inLine base slot l))

end

theorem exec_pushv (o : Ops) (s : State) : exec (.pushv o) s = execPushv o s := rfl

section
variable {o : Ops} {s : State} (h : s.Clear (.pushv o) spans1)
include h

/-- PUSHV with room (R423). -/
theorem pushv_stores (direct : s.Direct) (vector : o.s = false) (base : s.pre.spillAt.toNat % 4 = 0) (slot : s.pre.ssp % 4 = 0)
    (room : s.pre.ssp + 128 ≤ s.pre.sslim) :
    let p := fun (l : Nat) => Place.mem (s.pre.spillAt.toNat + s.pre.ssp + 4 * l)
    ∃ t, exec (.pushv o) s = .next t ∧ s.OutsideMem t ∧
      s.calm.Frame t.calm (.pushv o) spans1 { wave := fun w => { w with ssp := s.pre.ssp + 128 } } ∧ (t.At s.mask fun _ => s.nextPc) ∧
      (∀ q, t.byteBy (t.seen s.coreNo) q =
        (rmwAll 4 p (fun l _ => some ((s.pre.lane l).reg (s.pre.vb + o.d.toNat)).toNat) (s.byteBy (s.seen s.coreNo)) (lanesOf s.mask)).1 q) ∧
      (∀ q, t.byteBy (t.settled s.coreNo) q =
        (rmwAll 4 p (fun l _ => some ((s.pre.lane l).reg (s.pre.vb + o.d.toNat)).toNat) (s.byteBy (s.settled s.coreNo)) (lanesOf s.mask)).1 q) ∧
      ∀ c, c ≠ s.coreNo → t.core c = s.core c := by
  intro p
  obtain ⟨soft, snapshot⟩ := State.begun_soft h
  have group := h.group_begun
  have direct' := h.direct_begun direct
  rw [exec_pushv]
  refine State.run_answers h ?_
  simp only [State.begun_pre h, soft.mask_eq, if_neg (Nat.not_lt.2 room)]
  have stored := State.pushLanes_stored direct' snapshot vector base slot (lanesOf s.mask)
  generalize hu : (lanesOf s.mask).foldl (fun t l => t.pushLane o s.pre.ssp l) (s.begun (.pushv o) spans1) = u at *
  have there : (u.waves.find? u.cur.wave).isSome = true := by
    have := group.wave
    rw [← Option.isSome_map (f := Wave.calm), ← State.find_calm, ← stored.calm, State.find_calm, Option.isSome_map, ← stored.cur] at this
    exact this
  have kept : (s.begun (.pushv o) spans1).calm.Effect u.calm {} := .outside stored.calm stored.cur
  have moved := (State.Effect.moveSsp there (s.pre.ssp + 128)).calm (Change.own_ssp _) fun _ _ => rfl
  have whole : (s.begun (.pushv o) spans1).calm.Effect (u.moveSsp (s.pre.ssp + 128)).calm { wave := Wave.setSsp (s.pre.ssp + 128) } :=
    (kept.trans moved (Change.own_ssp _)).congr (fun _ _ => rfl) (fun _ => rfl) rfl (fun _ => rfl) fun _ _ => rfl
  obtain ⟨frame, goes⟩ := h.goesOnCalm whole (Change.own_ssp _)
  obtain ⟨outside, seen, settled, others⟩ :=
    stored.between (t := (u.moveSsp (s.pre.ssp + 128)).advance (u.moveSsp (s.pre.ssp + 128)).mask) soft rfl rfl
  refine ⟨outside, frame, goes, fun q => ?_, fun q => ?_, others⟩
  · rw [rmwAll_stores]; exact congrFun seen q
  · rw [rmwAll_stores]; exact congrFun settled q

/-- PUSHV without room (R423). -/
theorem pushv_traps (full : s.pre.sslim < s.pre.ssp + 128) (can : s.CanTrap) :
    ∃ t, exec (.pushv o) s = .next t ∧ s.Outside t ∧ s.Took t s.mask 0x10 (fun _ => BitVec.ofNat 32 s.pre.ssp) (fun _ => 0) ∧ t.w.ssp = s.w.ssp := by
  rw [exec_pushv]
  refine State.run_answers h ?_
  simp only [State.begun_pre h, if_pos full]
  obtain ⟨outside, took, kept, -⟩ := h.faults can 0x10 (BitVec.ofNat 32 s.pre.ssp) 0
  exact ⟨outside, took, by have := congrArg Wave.ssp kept; exact this⟩

end

end Sys2Proof.Machine

/-! # POPV (R423) -/

namespace Sys2Proof.Machine

/-! ## Acts that all complete, or all stop with a trap -/

/-- Acts that all complete and leave the PC to the instruction: the group goes on. -/
theorem State.lanewise_goesOn {s u : State} {f : State → Nat → Acted} (i : Instr) (h : s.actAll false f = (u, [])) :
    s.lanewise i false false f = u.advance s.mask := by
  have all : s.mask &&& ~~~ maskOf [] = s.mask := BitVec.and_allOnes
  simp only [State.lanewise, h, List.map_nil, all, Bool.false_eq_true, ↓reduceIte, State.settleStops_nil]

/-- Acts that leave the state as it is and all stop. -/
theorem State.actAll_stops {s : State} {f : State → Nat → Acted} {e : Nat → Stop} (thawed : s.cur.frozenLanes = 0)
    (hf : ∀ l, s.mask.getLsbD l = true → f s l = stop s (e l)) : s.actAll false f = (s, (lanesOf s.mask).map fun l => (l, e l)) := by
  suffices h : ∀ ls : List Nat, (∀ l ∈ ls, f s l = stop s (e l)) → ∀ acc, ls.foldl (actNext f) (s, acc) = (s, acc ++ ls.map fun l => (l, e l)) from
    h _ (fun l hl => hf l ((mem_lanesOf _ _).1 hl)) []
  intro ls
  induction ls with
  | nil => intro _ acc; simp
  | cons l ls ih =>
    intro all acc
    have step : actNext f (s, acc) l = (s, acc ++ [(l, e l)]) := by
      simp only [actNext, thawed, BitVec.ofNat_eq_ofNat, BitVec.getLsbD_zero, Bool.false_eq_true, ↓reduceIte, all l List.mem_cons_self, stop]
    rw [List.foldl_cons, step, ih (fun j hj => all j (List.mem_cons_of_mem _ hj)), List.map_cons, List.append_assoc, List.singleton_append]

/-- No lane goes on. -/
theorem State.advance_none (s : State) (thawed : s.cur.frozenLanes = 0) : s.advance 0 = s := by
  have none : ∀ w : Wave, w.modLanes 0 (fun _ l => { l with pc := s.nextPc, life := .ready }) = w := fun w => by
    simp [Wave.modLanes, Tbl.mapAll]
  rw [s.advance_eq 0 thawed, State.modLanes, State.modWave]
  simp only [none, Tbl.mod]
  simp

/-- Stops that are traps are raised. -/
theorem State.settleStops_traps (s : State) (i : Instr) (thawed : s.cur.frozenLanes = 0) {ls : List Nat} (some : ls ≠ []) (cause : Nat)
    (info : Nat → Word) (addr : Nat → DWord) :
    s.settleStops i (ls.map fun l => (l, Stop.trap cause (info l) (addr l))) =
      s.raise s.cur.wave s.mask s.cur.pc (ls.map fun l => { lane := l, cause := cause, info := info l, addr := addr l }) := by
  have all : (ls.map fun l => (l, Stop.trap cause (info l) (addr l))).filter (fun p => !s.cur.frozenLanes.getLsbD p.1) =
      ls.map fun l => (l, Stop.trap cause (info l) (addr l)) := by simp [thawed]
  have parks : (ls.map fun l => (l, Stop.trap cause (info l) (addr l))).filterMap (fun p => p.2.parking p.1) = [] := by simp [Stop.parking]
  have reports : ∀ v : Wave, (ls.map fun l => (l, Stop.trap cause (info l) (addr l))).filterMap (fun p => p.2.report p.1 (v.lane p.1).member) =
      ls.map fun l => { lane := l, cause := cause, info := info l, addr := addr l } := fun v => by
    rw [List.filterMap_map, ← List.filterMap_eq_map]
    rfl
  have blocks : ∀ (t : State) (ls : List Nat), ls.foldl (fun t _ => t) t = t := fun t ls => by
    induction ls with
    | nil => rfl
    | cons _ ls ih => exact ih
  have raised : (ls.map fun l => ({ lane := l, cause := cause, info := info l, addr := addr l } : Report)).isEmpty = false := by
    simpa using some
  simp only [State.settleStops, all, parks, reports, List.filter_nil, State.park, List.isEmpty_nil, ↓reduceIte, List.foldl_map, blocks, raised,
    Bool.false_eq_true]
  rfl

/-- Acts that leave the state as it is and all stop with a trap are raised together. -/
theorem State.lanewise_traps {s : State} {f : State → Nat → Acted} (i : Instr) (group : s.Group) {cause : Nat} {info : Nat → Word} {addr : Nat → DWord}
    (acts : s.actAll false f = (s, (lanesOf s.mask).map fun l => (l, Stop.trap cause (info l) (addr l)))) :
    s.lanewise i false false f =
      s.raise s.cur.wave s.mask s.cur.pc ((lanesOf s.mask).map fun l => { lane := l, cause := cause, info := info l, addr := addr l }) := by
  have names : ((lanesOf s.mask).map fun l => (l, Stop.trap cause (info l) (addr l))).map (·.1) = lanesOf s.mask := by simp [Function.comp_def]
  have none : s.mask &&& ~~~ s.mask = 0 := BitVec.and_not_self _
  obtain ⟨l, hl⟩ := exists_lane group.some
  simp only [State.lanewise, acts, names, maskOf_lanesOf, none, Bool.false_eq_true, ↓reduceIte, s.advance_none group.frozenLanes]
  exact s.settleStops_traps i group.frozenLanes (List.ne_nil_of_mem ((mem_lanesOf _ _).2 hl)) cause info addr

/-! ## One lane's word -/

/-- The register that one lane of the acted has read; `val` is the word of each. -/
def Change.popped (acted : List Nat) (r : Nat) (val : Nat → Word) : Change where
  put l q := if l ∈ acted ∧ q = r then some (val l) else none

theorem Change.own_popped (acted : List Nat) (r : Nat) (val : Nat → Word) : (Change.popped acted r val).Own := Change.own_registers _ _ _

/-- What the core sees at the word of a lane in the slot at an offset. -/
def State.spilled (s : State) (w : Wave) (n l : Nat) : Word := BitVec.ofNat 32 ((w.spillPlace n l).value 4 (s.byteBy (s.seen s.coreNo)))

theorem opcodeOf_popv (o : Ops) : opcodeOf (.popv o) = 5#3 ++ 0x31#6 := rfl

theorem isSwitch_popv (o : Ops) : isSwitch (.popv o) = true := by simp [isSwitch, classOf, opcodeOf_popv]
theorem nwOf_popv (o : Ops) : nwOf (.popv o) = o.nw := rfl

section
variable {m : State} {o : Ops} {w : Wave} {n : Nat} (group : m.Group) (orderly : m.Orderly) (snapshot : m.cur.pre = some w) (vector : o.s = false)
  (writes : o.nw = false) (base : w.spillAt.toNat % 4 = 0) (slot : n % 4 = 0)
include group orderly snapshot vector writes base slot

/-- A lane reads its word, where no poison is read. -/
theorem State.popLane_reads {acted : List Nat} {l : Nat} {t : State} (lane : m.mask.getLsbD l = true) (sound : m.poisonAt (w.spillWord n l) 4 = none)
    (same : m.OutsideL1 t) (effect : m.Effect t (Change.popped acted (w.vb + o.d.toNat) (m.spilled w n))) :
    ∃ u, t.popLane o n l = done u ∧ m.OutsideL1 u ∧ m.Effect u (Change.popped (acted ++ [l]) (w.vb + o.d.toNat) (m.spilled w n)) := by
  obtain ⟨outside, -, seen, -⟩ := id same
  have poison : t.poisonAt (w.spillWord n l) 4 = none := by
    have := congrArg (·.poisonAt (w.spillWord n l) 4) outside
    exact Eq.trans this sound
  have coreNo : t.coreNo = m.coreNo := by
    have team : ∀ k, t.team k = m.team k := fun k => by have := congrArg (State.team · k) outside; exact this
    simp only [State.coreNo, State.tm, State.tid, team, effect.cur]
  have pre : t.pre = w := by simp only [State.pre, effect.cur, snapshot, Option.getD_some]
  have orderly' : t.Orderly := effect.orderly orderly rfl fun _ => rfl
  let v := t.l1Fill m.coreNo (w.spillWord n l / 128)
  let bytes := (List.range 4).map fun i => m.seen m.coreNo (w.spillWord n l + i)
  have read : t.readFor (1#32 <<< l) (.mem (w.spillWord n l)) 4 false = (v, bytes) := by
    rw [orderly'.readFor]
    show t.l1Read t.coreNo (w.spillWord n l) 4 = _
    rw [coreNo, State.l1Read_eq _ _ (spillWord_inLine base slot l), funext (seen m.coreNo)]
  have acts : t.popLane o n l = done (v.dstLane (.popv o) o l 1 (fromBytes bytes)) := by
    simp only [State.popLane, pre, poison, read, State.dst, vector, Bool.false_eq_true, ↓reduceIte]
  have filled : t.Effect v {} := by
    refine .outside ?_ ?_
    · show (t.l1Fill _ _).waves = _
      rw [State.l1Fill_eq]; split <;> rfl
    · show (t.l1Fill _ _).cur = _
      rw [State.l1Fill_eq]; split <;> rfl
  have there := effect.isThere group.wave
  have cur : v.cur = m.cur := filled.cur.trans effect.cur
  have pre' : v.pre = w := by simp only [State.pre, cur, snapshot, Option.getD_some]
  have has : (v.w.lanes.find? l).isSome = true := by rw [filled.w.has, effect.w.has]; exact group.lanes l lane
  have written := State.Effect.dstLane (i := .popv o) o (l := l) 1 (fromBytes bytes) (filled.isThere there) has (by rw [cur]; exact group.frozen)
    (by rw [cur]; exact group.frozenLanes) (isSwitch_popv o)
  have value : wordAt (fromBytes bytes) 0 = m.spilled w n l := by simp only [wordAt, Nat.mul_zero, pow_zero, Nat.div_one]; rfl
  refine ⟨_, acts, ?_, ?_⟩
  · have dst := State.WavesOnly.dstLane v o l 1 (fromBytes bytes) (isSwitch_popv o)
    exact (same.trans (t.outsideL1_l1Fill _ _)).trans dst.outside.outsideL1
  · refine ((effect.trans filled (Change.own_registers _ _ _)).trans written (Change.own_registers _ _ _)).congr (fun j r => ?_) (fun _ => rfl) rfl
      (fun _ => rfl) fun _ _ => rfl
    have span : inSpan w.vb o.d 1 r = decide (r = w.vb + o.d.toNat) := by
      rw [inSpan, ← Bool.decide_and]
      exact decide_eq_decide.2 (by omega)
    simp only [Change.popped, Change.andThen, pre', nwOf_popv, writes, span, Option.none_or]
    by_cases reg : r = w.vb + o.d.toNat
    · subst reg
      by_cases mine : j = l
      · subst mine; simp [value]
      · simp [mine]
    · simp [reg]

end

end Sys2Proof.Machine

namespace Sys2Proof.Machine

/-! ## The lanes of POPV -/

theorem exec_popv (o : Ops) (s : State) : exec (.popv o) s = execPopv o s := rfl

theorem State.mask_moveSsp (b : State) (n : Nat) : (b.moveSsp n).mask = b.mask := rfl

theorem State.w_moveSsp {b : State} (there : (b.waves.find? b.cur.wave).isSome) (n : Nat) : (b.moveSsp n).w = Wave.setSsp n b.w :=
  State.wave_modWave b (Wave.setSsp n) there

/-- A group whose wave's spill stack pointer has moved. -/
theorem State.Group.moveSsp {b : State} (group : b.Group) (n : Nat) : (b.moveSsp n).Group := by
  have w := State.w_moveSsp group.wave n
  exact ⟨group.home, (State.Effect.moveSsp group.wave n).isThere group.wave, fun l hl => by rw [w]; exact group.lanes l hl,
    fun l hl => by rw [w]; exact group.ready l hl, group.some, group.frozen, group.frozenLanes, group.frozenLines⟩

theorem State.CanTrap.moveSsp {b : State} (can : b.CanTrap) (there : (b.waves.find? b.cur.wave).isSome) (n : Nat) : (b.moveSsp n).CanTrap := by
  have w := State.w_moveSsp there n
  exact ⟨by rw [w]; exact can.1, fun l hl => by rw [w]; exact can.2 l hl⟩

/-- Lanes take a trap whatever the spill stack pointer is. -/
theorem State.Took.moveSsp {b t : State} (there : (b.waves.find? b.cur.wave).isSome) {n cause : Nat} {info : Nat → Word} {addr : Nat → DWord}
    (took : (b.moveSsp n).Took t (b.moveSsp n).mask cause info addr) : b.Took t b.mask cause info addr := fun l hl => by
  have lane := took l hl
  rw [State.w_moveSsp there] at lane
  exact lane

theorem State.Orderly.moveSsp {b : State} (orderly : b.Orderly) (there : (b.waves.find? b.cur.wave).isSome) (n : Nat) : (b.moveSsp n).Orderly :=
  (State.Effect.moveSsp there n).orderly orderly rfl fun _ => rfl

/-- The words of a slot that has moved are those that the core sees. -/
theorem State.SoftFrom.spilled {s b : State} (soft : s.SoftFrom b) (w : Wave) (k n l : Nat) : (b.moveSsp k).spilled w n l = s.spilled w n l := by
  have core : ∀ c, b.core c = s.core c := fun c => by have := congrArg (State.core · c) soft.elsewhere.1; exact this
  have same : { b.moveSsp k with waves := s.waves, cur := s.cur, cores := s.cores, mem := s.mem } = s :=
    congrArg (fun x : State => { x with cores := s.cores, mem := s.mem }) soft.elsewhere.1
  have bytes := (State.outsideMem_of_l1 same soft.wave fun c => by rw [show (b.moveSsp k).core c = s.core c from core c]).2
  have seen : (b.moveSsp k).seen (b.moveSsp k).coreNo = s.seen s.coreNo := by
    rw [show (b.moveSsp k).coreNo = s.coreNo from soft.coreNo]
    have := congrArg (State.seen · s.coreNo) soft.elsewhere.1
    exact this
  rw [State.spilled, State.spilled, bytes, seen]

section
variable {o : Ops} {s : State} (h : s.Clear (.popv o) spans1)
include h

/-- POPV of words without poison (R423). -/
theorem popv_reads (direct : s.Direct) (vector : o.s = false) (writes : o.nw = false) (base : s.pre.spillAt.toNat % 4 = 0)
    (slot : s.pre.ssp % 4 = 0) :
    let at' := fun (l : Nat) => s.pre.spillAt.toNat + (s.pre.ssp - 128) + 4 * l
    128 ≤ s.pre.ssp → (∀ l, s.mask.getLsbD l = true → s.poisonAt (at' l) 4 = none) →
      ∃ t, exec (.popv o) s = .next t ∧ s.OutsideL1 t ∧
        s.Frame t (.popv o) spans1
          { put := fun l r => if s.mask.getLsbD l ∧ r = s.pre.vb + o.d.toNat then
              some (BitVec.ofNat 32 ((Place.mem (at' l)).value 4 (s.byteBy (s.seen s.coreNo)))) else none,
            wave := fun w => { w with ssp := s.pre.ssp - 128 } } ∧
        t.At s.mask fun _ => s.nextPc := by
  intro at' held sound
  obtain ⟨soft, snapshot⟩ := State.begun_soft h
  have group := h.group_begun
  have orderly := h.orderly_begun direct.toOrderly
  have outside := State.begun_outside h
  rw [exec_popv]
  refine State.run_answers h ?_
  simp only [State.begun_pre h, if_neg (Nat.not_lt.2 held)]
  have spilled := soft.spilled s.pre (s.pre.ssp - 128) (s.pre.ssp - 128)
  generalize hb : s.begun (.popv o) spans1 = b at *
  have moved := State.Effect.moveSsp group.wave (s.pre.ssp - 128)
  have poison : ∀ l, (b.moveSsp (s.pre.ssp - 128)).poisonAt (s.pre.spillWord (s.pre.ssp - 128) l) 4 = s.poisonAt (at' l) 4 := fun l => by
    have := congrArg (·.poisonAt (at' l) 4) outside
    exact this
  obtain ⟨u, acts, same, effect⟩ := State.actAll_induction (s := b.moveSsp (s.pre.ssp - 128)) (f := fun t l => t.popLane o (s.pre.ssp - 128) l)
    (fun acted t => (b.moveSsp (s.pre.ssp - 128)).OutsideL1 t ∧ (b.moveSsp (s.pre.ssp - 128)).Effect t
      (Change.popped acted (s.pre.vb + o.d.toNat) ((b.moveSsp (s.pre.ssp - 128)).spilled s.pre (s.pre.ssp - 128))))
    ⟨.refl _, (State.Effect.refl _).congr (fun _ _ => by simp [Change.popped]) (fun _ => rfl) rfl (fun _ => rfl) fun _ _ => rfl⟩
    fun acted l t _ hl _ ⟨same, effect⟩ => ⟨by rw [effect.cur]; simp [(group.moveSsp (s.pre.ssp - 128)).frozenLanes],
      State.popLane_reads (group.moveSsp _) (orderly.moveSsp group.wave _) snapshot vector writes base (by omega) hl
        ((poison l).trans (sound l (by rw [← soft.mask_eq]; exact hl))) same effect⟩
  have whole := State.lanewise_goesOn (.popv o) acts
  have both := moved.trans effect (Change.own_popped _ _ _)
  have mask : (b.moveSsp (s.pre.ssp - 128)).mask = u.mask := both.mask.symm
  rw [mask] at whole
  subst hb
  let change : Change :=
    { put := fun l r => if s.mask.getLsbD l ∧ r = s.pre.vb + o.d.toNat then
        some (BitVec.ofNat 32 ((Place.mem (at' l)).value 4 (s.byteBy (s.seen s.coreNo)))) else none
      wave := Wave.setSsp (s.pre.ssp - 128) }
  have all : (s.begun (.popv o) spans1).Effect u change := both.congr (fun l r => ?_) (fun _ => rfl) rfl (fun _ => rfl) fun _ _ => rfl
  · obtain ⟨frame, goes⟩ := h.goesOn all ⟨.setSsp _, fun _ => .none⟩
    have ran : ((s.begun (.popv o) spans1).modWave (s.begun (.popv o) spans1).cur.wave fun w => { w with ssp := s.pre.ssp - 128 }).lanewise (.popv o)
        false false (fun t l => t.popLane o (s.pre.ssp - 128) l) = u.advance u.mask := whole
    have still : (s.begun (.popv o) spans1).Outside ((s.begun (.popv o) spans1).moveSsp (s.pre.ssp - 128)) := rfl
    have on : u.Outside (u.advance u.mask) := rfl
    rw [ran]
    exact ⟨((outside.trans still).outsideL1.trans same).trans on.outsideL1, frame, goes⟩
  · simp only [change, Change.andThen, Change.popped, spilled, mem_lanesOf, Option.or_none]
    rw [State.mask_moveSsp, soft.mask_eq]
    rfl

/-- POPV of words that are all poisoned (R241). -/
theorem popv_poisoned :
    let at' := fun (l : Nat) => s.pre.spillAt.toNat + (s.pre.ssp - 128) + 4 * l
    128 ≤ s.pre.ssp → s.CanTrap → ∀ info : Nat → Nat, (∀ l, s.mask.getLsbD l = true → s.poisonAt (at' l) 4 = some (info l)) →
      ∃ t, exec (.popv o) s = .next t ∧ s.Outside t ∧
        s.Took t s.mask 0x12 (fun l => BitVec.ofNat 32 (info l)) (fun l => BitVec.ofNat 64 (at' l)) ∧ t.w.ssp = s.pre.ssp - 128 := by
  intro at' held can info bad
  obtain ⟨soft, snapshot⟩ := State.begun_soft h
  have group := h.group_begun
  have outside := State.begun_outside h
  have can' := h.canTrap_begun can
  have checked := h.checked
  rw [exec_popv]
  refine State.run_answers h ?_
  simp only [State.begun_pre h, if_neg (Nat.not_lt.2 held)]
  generalize s.begun (.popv o) spans1 = b at *
  let m := b.moveSsp (s.pre.ssp - 128)
  have stops : ∀ l, m.mask.getLsbD l = true → m.popLane o (s.pre.ssp - 128) l =
      stop m (.trap 0x12 (BitVec.ofNat 32 (info l)) (BitVec.ofNat 64 (at' l))) := fun l hl => by
    have poison : m.poisonAt (s.pre.spillWord (s.pre.ssp - 128) l) 4 = some (info l) := by
      have := congrArg (·.poisonAt (at' l) 4) outside
      exact Eq.trans this (bad l (by rw [← soft.mask_eq]; exact hl))
    have pre : m.pre = s.pre := by
      show b.cur.pre.getD m.w = _
      rw [snapshot, Option.getD_some]
    simp only [State.popLane, pre, poison]
    rfl
  have ran : (b.modWave b.cur.wave fun w => { w with ssp := s.pre.ssp - 128 }).lanewise (.popv o) false false
      (fun t l => t.popLane o (s.pre.ssp - 128) l) = _ :=
    State.lanewise_traps (.popv o) (group.moveSsp _) (State.actAll_stops (s := m) group.frozenLanes stops)
  have able := can'.moveSsp group.wave (s.pre.ssp - 128)
  obtain ⟨raised, took, -⟩ := m.raise_took (group.moveSsp _) able 0x12 (fun l => BitVec.ofNat 32 (info l)) fun l => BitVec.ofNat 64 (at' l)
  have wave := m.raise_keeps_wave (group.moveSsp _) able 0x12 (fun l => BitVec.ofNat 32 (info l)) fun l => BitVec.ofNat 64 (at' l)
  have moved : b.Outside m := rfl
  rw [ran]
  refine ⟨(outside.trans moved).trans raised, checked.took soft (took.moveSsp group.wave), ?_⟩
  have ssp := congrArg Wave.ssp wave
  rw [State.w_moveSsp group.wave] at ssp
  exact ssp

/-- POPV of an empty stack (R423). -/
theorem popv_traps (empty : s.pre.ssp < 128) (can : s.CanTrap) :
    ∃ t, exec (.popv o) s = .next t ∧ s.Outside t ∧ s.Took t s.mask 0x10 (fun _ => BitVec.ofNat 32 s.pre.ssp) (fun _ => 0) ∧ t.w.ssp = s.w.ssp := by
  rw [exec_popv]
  refine State.run_answers h ?_
  simp only [State.begun_pre h, if_pos empty]
  obtain ⟨outside, took, kept, -⟩ := h.faults can 0x10 (BitVec.ofNat 32 s.pre.ssp) 0
  exact ⟨outside, took, by have := congrArg Wave.ssp kept; exact this⟩

end

/-! ## The obligation -/

/-- Settles O23: stores and loads of single words, lane by lane, between the checks and the move of SSP; no room and nothing to pop are faults. -/
theorem spillStackPushAndPop : Obligations.SpillStackPushAndPop :=
  ⟨fun _ _ h direct vector base slot => ⟨pushv_stores h direct vector base slot, pushv_traps h⟩,
    fun _ _ h direct vector writes base slot => ⟨popv_reads h direct vector writes base slot, popv_poisoned h, popv_traps h⟩⟩

end Sys2Proof.Machine

/-! # Decoding and encoding

What the decoder reads at an opcode holds the fields of the words as they stand, and its row names that opcode: so the encoder writes the words back. -/

namespace Sys2Proof.Laws.Encodes

open Sys2Proof.Encoding

/-! ## Words and their fields -/

theorem packWord_first (w : Word) : packWord (w.getLsbD 31) (w.extractLsb' 22 9) (w.extractLsb' 0 22) = w := by
  apply BitVec.eq_of_getLsbD_eq
  intro i hi
  simp only [packWord, BitVec.getLsbD_append, BitVec.getLsbD_extractLsb', BitVec.getLsbD_ofBool]
  split
  · simp_all
  · split
    · rw [show 22 + (i - 22) = i by omega]; simp_all
    · rw [show i = 31 by omega]; simp

theorem packLow_unpackOps (s : Bool) (low : BitVec 22) (lit : Word) : packLow (unpackOps s low lit) = low := by
  apply BitVec.eq_of_getLsbD_eq
  intro i hi
  simp only [packLow, unpackOps, BitVec.getLsbD_append, BitVec.getLsbD_extractLsb', BitVec.getLsbD_ofBool]
  split
  · simp_all
  · split
    · rw [show 7 + (i - 7) = i by omega]; simp_all
    · split
      · rw [show 14 + (i - 7 - 7) = i by omega]; simp_all
      · rw [show i = 21 by omega]; simp

theorem packCtl_unpackCtl (w : Word) : packCtl (unpackCtl w) = w := by
  apply BitVec.eq_of_getLsbD_eq
  intro i hi
  simp only [packCtl, unpackCtl, BitVec.getLsbD_append, BitVec.getLsbD_extractLsb']
  split
  · simp_all
  · split
    · rw [show 19 + (i - 19) = i by omega]; simp_all
    · split
      · rw [show 23 + (i - 19 - 4) = i by omega]; simp_all
      · split
        · rw [show 27 + (i - 19 - 4 - 4) = i by omega]; simp_all
        · rw [show 29 + (i - 19 - 4 - 4 - 2) = i by omega]; simp; omega

/-! ## What an opcode is read as -/

/-- The instruction is of the row of opcode `op`, with these operand fields and, where it has a control word, that one. -/
structure Reads (op : BitVec 9) (o : Ops) (c : Ctl) (i : Instr) : Prop where
  row : ∃ r, row i = some r ∧ r.op = op
  ops : ops i = some o
  ctl : ctl i = none ∨ ctl i = some c

/-- Two instructions of one row: whether a second word follows can differ by their operand fields alone. -/
structure Alike (i j : Instr) : Prop where
  row : Encoding.row j = Encoding.row i
  lut : isLut3 j = isLut3 i
  ctl : (Encoding.ctl j).isSome = (Encoding.ctl i).isSome

/-- What a class of the opcode map reads: with any other fields it reads an instruction of the same row. -/
def ReadsClass (read : Ops → Ctl → Option Instr) (op : BitVec 9) (o : Ops) (c : Ctl) (i : Instr) : Prop :=
  Reads op o c i ∧ ∀ o' c', ∃ j, read o' c' = some j ∧ Reads op o' c' j ∧ Alike i j

theorem class0_reads {base : Nat} {t : BitVec 2} {o : Ops} {i : Instr} (c : Ctl) (h : Decode.class0 base t o = some i) :
    ReadsClass (fun o _ => Decode.class0 base t o) (0#3 ++ BitVec.ofNat 4 base ++ t) o c i := by
  unfold Decode.class0 at h
  split at h <;> cases h <;>
    exact ⟨⟨⟨_, rfl, rfl⟩, rfl, .inl rfl⟩, fun _ _ => ⟨_, rfl, ⟨⟨_, rfl, rfl⟩, rfl, .inl rfl⟩, rfl, rfl, rfl⟩⟩

theorem class1_reads {idx : Nat} {w : Bool} {o : Ops} {i : Instr} (c : Ctl) (h : Decode.class1 idx w o = some i) :
    ReadsClass (fun o _ => Decode.class1 idx w o) (1#3 ++ BitVec.ofBool w ++ BitVec.ofNat 5 idx) o c i := by
  unfold Decode.class1 at h
  split at h <;> cases h <;>
    exact ⟨⟨⟨_, rfl, rfl⟩, rfl, .inl rfl⟩, fun _ _ => ⟨_, rfl, ⟨⟨_, rfl, rfl⟩, rfl, .inl rfl⟩, rfl, rfl, rfl⟩⟩

theorem class2_reads {base : Nat} {f : BitVec 2} {o : Ops} {i : Instr} (c : Ctl) (h : Decode.class2 base f o = some i) :
    ReadsClass (fun o _ => Decode.class2 base f o) (2#3 ++ BitVec.ofNat 4 base ++ f) o c i := by
  unfold Decode.class2 at h
  split at h <;> cases h <;>
    exact ⟨⟨⟨_, rfl, rfl⟩, rfl, .inl rfl⟩, fun _ _ => ⟨_, rfl, ⟨⟨_, rfl, rfl⟩, rfl, .inl rfl⟩, rfl, rfl, rfl⟩⟩

theorem class3_reads {idx : Nat} {o : Ops} {i : Instr} (c : Ctl) (h : Decode.class3 idx o = some i) :
    ReadsClass (fun o _ => Decode.class3 idx o) (3#3 ++ BitVec.ofNat 6 idx) o c i := by
  unfold Decode.class3 at h
  split at h <;> cases h <;>
    exact ⟨⟨⟨_, rfl, rfl⟩, rfl, .inl rfl⟩, fun _ _ => ⟨_, rfl, ⟨⟨_, rfl, rfl⟩, rfl, .inl rfl⟩, rfl, rfl, rfl⟩⟩

/-- A jump of format J or JC has no operand fields of format R: its idx is 0, 1 or 3 (R112, R113). -/
def isJump (idx : BitVec 6) : Bool := idx == 0#6 || idx == 1#6 || idx == 3#6

theorem class4_reads {idx : Nat} {low : BitVec 22} {o : Ops} {c : Ctl} {i : Instr} (jump : isJump (BitVec.ofNat 6 idx) = false)
    (h : Decode.class4 idx low o c = some i) : ReadsClass (Decode.class4 idx low) (4#3 ++ BitVec.ofNat 6 idx) o c i := by
  unfold Decode.class4 at h
  split at h
  · exact absurd jump (by decide)
  · exact absurd jump (by decide)
  rotate_left
  · exact absurd jump (by decide)
  all_goals cases h
  all_goals
    exact ⟨⟨⟨_, rfl, rfl⟩, rfl, by simp [Encoding.ctl]⟩, fun _ _ => ⟨_, rfl, ⟨⟨_, rfl, rfl⟩, rfl, by simp [Encoding.ctl]⟩, rfl, rfl, rfl⟩⟩

theorem class5_reads {idx : Nat} {o : Ops} {c : Ctl} {i : Instr} (h : Decode.class5 idx o c = some i) :
    ReadsClass (Decode.class5 idx) (5#3 ++ BitVec.ofNat 6 idx) o c i := by
  unfold Decode.class5 at h
  split at h <;> cases h <;>
    exact ⟨⟨⟨_, rfl, rfl⟩, rfl, by simp [Encoding.ctl]⟩, fun _ _ => ⟨_, rfl, ⟨⟨_, rfl, rfl⟩, rfl, by simp [Encoding.ctl]⟩, rfl, rfl, rfl⟩⟩

theorem class6_reads {idx : Nat} {o : Ops} {c : Ctl} {i : Instr} (h : Decode.class6 idx o c = some i) :
    ReadsClass (Decode.class6 idx) (6#3 ++ BitVec.ofNat 6 idx) o c i := by
  unfold Decode.class6 at h
  split at h <;> cases h <;>
    exact ⟨⟨⟨_, rfl, rfl⟩, rfl, by simp [Encoding.ctl]⟩, fun _ _ => ⟨_, rfl, ⟨⟨_, rfl, rfl⟩, rfl, by simp [Encoding.ctl]⟩, rfl, rfl, rfl⟩⟩

theorem class7_reads {idx : Nat} {o : Ops} {c : Ctl} {i : Instr} (h : Decode.class7 idx o c = some i) :
    ReadsClass (Decode.class7 idx) (7#3 ++ BitVec.ofNat 6 idx) o c i := by
  unfold Decode.class7 at h
  split at h <;> cases h <;>
    exact ⟨⟨⟨_, rfl, rfl⟩, rfl, by simp [Encoding.ctl]⟩, fun _ _ => ⟨_, rfl, ⟨⟨_, rfl, rfl⟩, rfl, by simp [Encoding.ctl]⟩, rfl, rfl, rfl⟩⟩

/-! ## Opcodes and their parts -/

theorem opcode_of_base (op : BitVec 9) :
    op.extractLsb' 6 3 ++ BitVec.ofNat 4 (op.extractLsb' 2 4).toNat ++ op.extractLsb' 0 2 = op := by
  revert op; decide

theorem opcode_of_half (op : BitVec 9) :
    op.extractLsb' 6 3 ++ BitVec.ofBool (op.getLsbD 5) ++ BitVec.ofNat 5 (op.extractLsb' 0 5).toNat = op := by
  revert op; decide

theorem opcode_of_index (op : BitVec 9) : op.extractLsb' 6 3 ++ BitVec.ofNat 6 (op.extractLsb' 0 6).toNat = op := by
  revert op; decide

/-- What the decoder reads at an opcode that is no jump, whatever the second word and the literal are. -/
def ReadsBuild (s : Bool) (op : BitVec 9) (low : BitVec 22) (w1 lit : Word) (i : Instr) : Prop :=
  Reads op (unpackOps s low lit) (unpackCtl w1) i ∧
    ∀ w1' lit', ∃ j, Decode.build s op low w1' lit' = some j ∧ Reads op (unpackOps s low lit') (unpackCtl w1') j ∧ Alike i j

/-- A class of the opcode map that reads one instruction at `op`, with the fields of the words. -/
theorem ReadsClass.build {read : Ops → Ctl → Option Instr} {op op' : BitVec 9} {s : Bool} {low : BitVec 22} {w1 lit : Word} {i : Instr}
    (h : ReadsClass read op' (unpackOps s low lit) (unpackCtl w1) i) (opcode : op' = op)
    (reads : ∀ w1' lit', Decode.build s op low w1' lit' = read (unpackOps s low lit') (unpackCtl w1')) : ReadsBuild s op low w1 lit i := by
  subst opcode
  exact ⟨h.1, fun w1' lit' => by rw [reads]; exact h.2 _ _⟩

theorem build_reads {s : Bool} {op : BitVec 9} {low : BitVec 22} {w1 lit : Word} {i : Instr}
    (jump : op.extractLsb' 6 3 = 4#3 → isJump (op.extractLsb' 0 6) = false) (h : Decode.build s op low w1 lit = some i) :
    ReadsBuild s op low w1 lit i := by
  have base := opcode_of_base op
  have half := opcode_of_half op
  have index := opcode_of_index op
  obtain k | k | k | k | k | k | k | k := three_bits (op.extractLsb' 6 3) <;> rw [k] at base half index <;> simp only [Decode.build, k] at h
  · exact (class0_reads _ h).build base fun _ _ => by simp only [Decode.build, k]; rfl
  · exact (class1_reads _ h).build half fun _ _ => by simp only [Decode.build, k]; rfl
  · exact (class2_reads _ h).build base fun _ _ => by simp only [Decode.build, k]; rfl
  · exact (class3_reads _ h).build index fun _ _ => by simp only [Decode.build, k]; rfl
  · have noJump : (op.extractLsb' 0 6 == 0#6 || op.extractLsb' 0 6 == 1#6 || op.extractLsb' 0 6 == 3#6) = false := jump k
    rw [noJump, Bool.and_false] at h
    have jump' : isJump (BitVec.ofNat 6 (op.extractLsb' 0 6).toNat) = false := by
      rw [BitVec.ofNat_toNat, BitVec.setWidth_eq]; exact jump k
    exact (class4_reads jump' h).build index fun _ _ => by simp only [Decode.build, k, noJump, Bool.and_false]; rfl
  · exact (class5_reads h).build index fun _ _ => by simp only [Decode.build, k]; rfl
  · exact (class6_reads h).build index fun _ _ => by simp only [Decode.build, k]; rfl
  · exact (class7_reads h).build index fun _ _ => by simp only [Decode.build, k]; rfl

/-- The condition and the offset of a BRC fill bits [21:0] (R113). -/
theorem jump_fields (low : BitVec 22) : low.extractLsb' 15 7 ++ low.extractLsb' 0 15 = low := by
  apply BitVec.eq_of_getLsbD_eq
  intro i hi
  simp only [BitVec.getLsbD_append, BitVec.getLsbD_extractLsb']
  split
  · simp_all
  · rw [show 15 + (i - 15) = i by omega]; simp; omega

/-- A jump: it has no literal and no control word, and its first word is all that it has. -/
theorem build_jump {s : Bool} {op : BitVec 9} {low : BitVec 22} {w1 lit : Word} {i : Instr}
    (klass : op.extractLsb' 6 3 = 4#3) (jump : isJump (op.extractLsb' 0 6) = true) (h : Decode.build s op low w1 lit = some i) :
    i.wf = true ∧ encodeFirst i = some (packWord s op low) ∧ ctl i = none ∧ hasLiteral i = false ∧
      ∀ w1' lit', Decode.build s op low w1' lit' = some i := by
  have index := opcode_of_index op
  have vector : s = false := by
    cases s
    · rfl
    · simp only [Decode.build, klass] at h
      rw [show (op.extractLsb' 0 6 == 0#6 || op.extractLsb' 0 6 == 1#6 || op.extractLsb' 0 6 == 3#6) = true from jump] at h
      cases h
  subst vector
  simp only [isJump, Bool.or_eq_true, beq_iff_eq] at jump
  rw [klass] at index
  obtain (k | k) | k := jump <;> rw [k] at index <;> subst index <;> cases h
  · exact ⟨rfl, rfl, rfl, rfl, fun _ _ => rfl⟩
  · exact ⟨rfl, congrArg (some ∘ packWord false 0x101#9) (jump_fields low), rfl, rfl, fun _ _ => rfl⟩
  · exact ⟨rfl, rfl, rfl, rfl, fun _ _ => rfl⟩

/-! ## The words of what is read -/

theorem wf_of_row {i : Instr} {r : Row} (h : row i = some r) (first : firstOk i = true) (second : secondOk i = true) : i.wf = true := by
  have event : i.eventOk = true := by
    cases i <;> simp only [row, reduceCtorEq] at h <;> rfl
  simp only [Instr.wf, first, second, event, Bool.and_self]

theorem encodeFirst_of_row {i : Instr} {r : Row} {o : Ops} (h : row i = some r) (fields : ops i = some o) :
    encodeFirst i = some (packWord o.s r.op (packLow o)) := by
  cases i <;> cases h <;> cases fields <;> rfl

theorem Reads.first {s : Bool} {op : BitVec 9} {low : BitVec 22} {c : Ctl} {lit : Word} {i : Instr} (h : Reads op (unpackOps s low lit) c i) :
    encodeFirst i = some (packWord s op low) := by
  obtain ⟨r, row, rfl⟩ := h.row
  rw [encodeFirst_of_row row h.ops, packLow_unpackOps]; rfl

/-- Whether a literal follows does not hang on the literal (R110). -/
theorem Alike.literal {op op' : BitVec 9} {s : Bool} {low : BitVec 22} {c c' : Ctl} {lit lit' : Word} {i j : Instr} (h : Alike i j)
    (first : Reads op (unpackOps s low lit) c i) (other : Reads op' (unpackOps s low lit') c' j) : hasLiteral j = hasLiteral i := by
  have ctl : (Encoding.ctl j).isNone = (Encoding.ctl i).isNone := by rw [← Option.not_isSome, ← Option.not_isSome, h.ctl]
  simp only [hasLiteral, h.row, h.lut, ctl, first.ops, other.ops]
  cases Encoding.row i <;> rfl

theorem Alike.twoWords {op op' : BitVec 9} {s : Bool} {low : BitVec 22} {c c' : Ctl} {lit lit' : Word} {i j : Instr} (h : Alike i j)
    (first : Reads op (unpackOps s low lit) c i) (other : Reads op' (unpackOps s low lit') c' j) : twoWords j = twoWords i := by
  simp only [Encoding.twoWords, h.ctl, h.literal first other]

/-- An instruction that takes a literal is read with the second word in it; any other has 0 there. -/
theorem decode_of_build {w0 w1 : Word} {i0 i : Instr} (built : Decode.first w0 w1 0 = some i0) (h : decode w0 w1 = .ok i) :
    (if hasLiteral i0 then (Decode.first w0 w1 w1).getD i0 else i0) = i ∧ firstOk i = true ∧ secondOk i = true := by
  simp only [decode, built] at h
  generalize (if hasLiteral i0 = true then (Decode.first w0 w1 w1).getD i0 else i0) = j at *
  split at h
  · cases h
  · split at h
    · cases h
    · cases h; simp_all

/-- What is read has the fields of the words, the second word in its literal where it takes one, and a second word as `needsSecond` says. -/
theorem decode_reads {w0 w1 : Word} {i0 i : Instr} (built : Decode.first w0 w1 0 = some i0)
    (reads : ReadsBuild (w0.getLsbD 31) (w0.extractLsb' 22 9) (w0.extractLsb' 0 22) w1 0 i0) (h : decode w0 w1 = .ok i) :
    ∃ lit, Reads (w0.extractLsb' 22 9) (unpackOps (w0.getLsbD 31) (w0.extractLsb' 0 22) lit) (unpackCtl w1) i ∧
      (hasLiteral i = true → lit = w1) ∧ Decode.needsSecond w0 = twoWords i := by
  obtain ⟨first, others⟩ := reads
  obtain ⟨chosen, -, -⟩ := decode_of_build built h
  have needs : Decode.needsSecond w0 = twoWords i0 := by
    obtain ⟨z, builtZ, readsZ, alike⟩ := others 0 0
    have zero : Decode.first w0 0 0 = some z := builtZ
    simp only [Decode.needsSecond, zero]
    exact alike.twoWords first readsZ
  cases literal : hasLiteral i0 with
  | false =>
    rw [literal, if_neg (by decide)] at chosen
    subst chosen
    exact ⟨0, first, fun no => (by rw [literal] at no; cases no), needs⟩
  | true =>
    obtain ⟨j, builtJ, readsJ, alike⟩ := others w1 w1
    have second : Decode.first w0 w1 w1 = some j := builtJ
    rw [literal, if_pos rfl, second, Option.getD_some] at chosen
    subst chosen
    exact ⟨w1, readsJ, fun _ => rfl, needs.trans (alike.twoWords first readsJ).symm⟩

/-- The encoder writes the words that an instruction is read from. -/
theorem Reads.encode {w0 w1 lit : Word} {i : Instr}
    (h : Reads (w0.extractLsb' 22 9) (unpackOps (w0.getLsbD 31) (w0.extractLsb' 0 22) lit) (unpackCtl w1) i)
    (second : hasLiteral i = true → lit = w1) : encode i = if twoWords i then [w0, w1] else [w0] := by
  have first : encodeFirst i = some w0 := by rw [h.first, packWord_first]
  obtain plain | ordered := h.ctl
  · cases literal : hasLiteral i with
    | false => simp [Sys2Proof.encode, first, encodeSecond, twoWords, plain, literal]
    | true => simp [Sys2Proof.encode, first, encodeSecond, twoWords, plain, literal, h.ops, unpackOps, second literal]
  · simp [Sys2Proof.encode, first, encodeSecond, twoWords, ordered, packCtl_unpackCtl]

/-- Settles O59: the words of a jump are its first word; any other instruction is of the row of its opcode, with the fields of its words. -/
theorem encodeUndoesDecode : Obligations.EncodeUndoesDecode := by
  unfold Obligations.EncodeUndoesDecode
  intro w0 w1 i h
  cases built : Decode.first w0 w1 0 with
  | none => simp only [decode, built] at h; cases h
  | some i0 =>
    obtain ⟨chosen, good, second⟩ := decode_of_build built h
    by_cases jump : (w0.extractLsb' 22 9).extractLsb' 6 3 = 4#3 ∧ isJump ((w0.extractLsb' 22 9).extractLsb' 0 6) = true
    · obtain ⟨wf, first, noCtl, noLiteral, same⟩ := build_jump jump.1 jump.2 built
      have zero : Decode.first w0 0 0 = some i0 := same 0 0
      rw [noLiteral, if_neg (by decide)] at chosen
      subst chosen
      rw [packWord_first] at first
      simp only [Sys2Proof.encode, first, encodeSecond, noCtl, noLiteral, Decode.needsSecond, zero, twoWords]
      exact ⟨wf, rfl⟩
    · obtain ⟨lit, reads, literal, needs⟩ := decode_reads built (build_reads (fun k => by simpa [k] using jump) built) h
      obtain ⟨r, row, -⟩ := reads.row
      rw [needs]
      exact ⟨wf_of_row row good second, reads.encode literal⟩

/-- Settles O58, constructor by constructor: an instruction has the words that its row gives it, and a step of the part has none. -/
theorem decodeUndoesEncode : Obligations.DecodeUndoesEncode := by
  unfold Obligations.DecodeUndoesEncode
  intro i
  cases i with
  | add t o => exact Encodes.add t o
  | sub t o => exact Encodes.sub t o
  | addx t o => exact Encodes.addx t o
  | subx t o => exact Encodes.subx t o
  | adds t o => exact Encodes.adds t o
  | subs t o => exact Encodes.subs t o
  | mul t o => exact Encodes.mul t o
  | mulh t o => exact Encodes.mulh t o
  | mad t o => exact Encodes.mad t o
  | div t o => exact Encodes.div t o
  | rem t o => exact Encodes.rem t o
  | min t o => exact Encodes.min t o
  | max t o => exact Encodes.max t o
  | clamp t o => exact Encodes.clamp t o
  | lea t o => exact Encodes.lea t o
  | absd t o => exact Encodes.absd t o
  | andB w o => exact Encodes.andB w o
  | orB w o => exact Encodes.orB w o
  | xorB w o => exact Encodes.xorB w o
  | andn w o => exact Encodes.andn w o
  | notB w o => exact Encodes.notB w o
  | lut3 w o => exact Encodes.lut3 w o
  | shl w o => exact Encodes.shl w o
  | shr w o => exact Encodes.shr w o
  | sar w o => exact Encodes.sar w o
  | rol w o => exact Encodes.rol w o
  | bfx w o => exact Encodes.bfx w o
  | bfxs w o => exact Encodes.bfxs w o
  | bfi w o => exact Encodes.bfi w o
  | popc w o => exact Encodes.popc w o
  | clz w o => exact Encodes.clz w o
  | ctz w o => exact Encodes.ctz w o
  | brev w o => exact Encodes.brev w o
  | prmb w o => exact Encodes.prmb w o
  | sel w o => exact Encodes.sel w o
  | mov w o => exact Encodes.mov w o
  | cmpEq w o => exact Encodes.cmpEq w o
  | cmpNe w o => exact Encodes.cmpNe w o
  | cmpLt w o => exact Encodes.cmpLt w o
  | cmpLe w o => exact Encodes.cmpLe w o
  | cmpLtn w o => exact Encodes.cmpLtn w o
  | cmpLen w o => exact Encodes.cmpLen w o
  | testZ w o => exact Encodes.testZ w o
  | testNz w o => exact Encodes.testNz w o
  | fadd f o => exact Encodes.fadd f o
  | fsub f o => exact Encodes.fsub f o
  | fmul f o => exact Encodes.fmul f o
  | fma f o => exact Encodes.fma f o
  | fmin f o => exact Encodes.fmin f o
  | fmax f o => exact Encodes.fmax f o
  | fdiv f o => exact Encodes.fdiv f o
  | fsqrt f o => exact Encodes.fsqrt f o
  | frcp f o => exact Encodes.frcp f o
  | frsq f o => exact Encodes.frsq f o
  | fexp2 f o => exact Encodes.fexp2 f o
  | flog2 f o => exact Encodes.flog2 f o
  | fcmp c f o => exact Encodes.fcmp c f o
  | cvt src o => exact Encodes.cvt src o
  | frnd o => exact Encodes.frnd o
  | fclass o => exact Encodes.fclass o
  | pack o => exact Encodes.pack o
  | unpk o => exact Encodes.unpk o
  | dot4 k o => exact Encodes.dot4 k o
  | dot2 k o => exact Encodes.dot2 k o
  | dot8 o => exact Encodes.dot8 o
  | qnt k o => exact Encodes.qnt k o
  | dqnt k o => exact Encodes.dqnt k o
  | bxenc k o => exact Encodes.bxenc k o
  | bxdecBx3 o => exact Encodes.bxdecBx3 o
  | bxdecBx5 o => exact Encodes.bxdecBx5 o
  | bxdecBx8 o => exact Encodes.bxdecBx8 o
  | br off => exact Encodes.br off
  | brc cond off => exact Encodes.brc cond off
  | brx o c => exact Encodes.brx o c
  | call off => exact Encodes.call off
  | callx o => exact Encodes.callx o
  | ret o => exact Encodes.ret o
  | jenr o => exact Encodes.jenr o
  | jwait o => exact Encodes.jwait o
  | exit o => exact Encodes.exit o
  | wbase o => exact Encodes.wbase o
  | nop o => exact Encodes.nop o
  | yield o => exact Encodes.yield o
  | ballot o => exact Encodes.ballot o
  | vany o => exact Encodes.vany o
  | vall o => exact Encodes.vall o
  | rankl o => exact Encodes.rankl o
  | elect o => exact Encodes.elect o
  | rdln o => exact Encodes.rdln o
  | wrln o => exact Encodes.wrln o
  | shfl o => exact Encodes.shfl o
  | shflx o => exact Encodes.shflx o
  | shflu o => exact Encodes.shflu o
  | shfld o => exact Encodes.shfld o
  | scana o => exact Encodes.scana o
  | reda o => exact Encodes.reda o
  | redm o => exact Encodes.redm o
  | syncw o c => exact Encodes.syncw o c
  | actm o => exact Encodes.actm o
  | sleep o => exact Encodes.sleep o
  | ld k o => exact Encodes.ld k o
  | ldt k o => exact Encodes.ldt k o
  | ldp k o => exact Encodes.ldp k o
  | pf o => exact Encodes.pf o
  | st k o => exact Encodes.st k o
  | stt k o => exact Encodes.stt k o
  | stp k o => exact Encodes.stp k o
  | stc o => exact Encodes.stc o
  | lde o => exact Encodes.lde o
  | pushv o => exact Encodes.pushv o
  | popv o => exact Encodes.popv o
  | atom o c => exact Encodes.atom o c
  | cas o c => exact Encodes.cas o c
  | red o c => exact Encodes.red o c
  | lda o c => exact Encodes.lda o c
  | stl o c => exact Encodes.stl o c
  | fence o c => exact Encodes.fence o c
  | cinv o => exact Encodes.cinv o
  | cwb o => exact Encodes.cwb o
  | cpy o c => exact Encodes.cpy o c
  | cpyg o c => exact Encodes.cpyg o c
  | cpys o c => exact Encodes.cpys o c
  | cpyr o c => exact Encodes.cpyr o c
  | coll o c => exact Encodes.coll o c
  | tlrd o => exact Encodes.tlrd o
  | tlarm o c => exact Encodes.tlarm o c
  | mxw o c => exact Encodes.mxw o c
  | mxs o c => exact Encodes.mxs o c
  | mxd o c => exact Encodes.mxd o c
  | mxz o c => exact Encodes.mxz o c
  | bari o c => exact Encodes.bari o c
  | bara o c => exact Encodes.bara o c
  | barx o c => exact Encodes.barx o c
  | barw o c => exact Encodes.barw o c
  | bart o c => exact Encodes.bart o c
  | bard o c => exact Encodes.bard o c
  | crit o => exact Encodes.crit o
  | uncrit o => exact Encodes.uncrit o
  | publish o c => exact Encodes.publish o c
  | adopt o c => exact Encodes.adopt o c
  | retract o c => exact Encodes.retract o c
  | icinv o c => exact Encodes.icinv o c
  | tryR o c => exact Encodes.tryR o c
  | commit o c => exact Encodes.commit o c
  | abort o c => exact Encodes.abort o c
  | tstat o => exact Encodes.tstat o
  | launch o => exact Encodes.launch o
  | tsub o => exact Encodes.tsub o
  | tdone o => exact Encodes.tdone o
  | spawn o => exact Encodes.spawn o
  | erarm o => exact Encodes.erarm o
  | erpass o => exact Encodes.erpass o
  | trap o => exact Encodes.trap o
  | rte o => exact Encodes.rte o
  | rdsr o => exact Encodes.rdsr o
  | wrsr o => exact Encodes.wrsr o
  | bkpt o => exact Encodes.bkpt o
  | sysc o => exact Encodes.sysc o
  | halt o => exact Encodes.halt o
  | tlbi o c => exact Encodes.tlbi o c
  | ctxsw o => exact Encodes.ctxsw o
  | _ => exact step_round rfl

/-- Settles O60: each pair of words is decoded as it stands. -/
theorem wordsDecodeAsTheSpecGivesThem : Obligations.WordsDecodeAsTheSpecGivesThem := by
  unfold Obligations.WordsDecodeAsTheSpecGivesThem
  refine ⟨rfl, rfl, rfl, rfl, rfl, rfl, rfl, rfl, rfl, rfl, rfl, rfl, rfl, rfl, ?_, rfl, rfl⟩
  simp only [List.forall_mem_cons]
  exact ⟨rfl, rfl, rfl, rfl, rfl, List.forall_mem_nil _⟩

end Sys2Proof.Laws.Encodes

/-! # Releases

What a core holds dirty is written back (R194, R196): no core sees another byte, and nothing else changes but the conflicts of lanes that watch. -/

namespace Sys2Proof.Machine

/-- Bytes written one by one from a base on. -/
theorem Memory.read_foldl_write (f : Nat → Byte) (base : Nat) (is : List Nat) (m : List Host.Cell) (a : Nat) :
    Memory.read (is.foldl (fun m i => Memory.write m (base + i) (f i)) m) a =
      if base ≤ a ∧ a - base ∈ is then f (a - base) else Memory.read m a := by
  induction is generalizing m with
  | nil => simp
  | cons i is ih =>
    rw [List.foldl_cons, ih, Memory.read_write]
    by_cases later : base ≤ a ∧ a - base ∈ is
    · rw [if_pos later, if_pos ⟨later.1, List.mem_cons_of_mem _ later.2⟩]
    · rw [if_neg later]
      by_cases here : base + i = a
      · subst here
        rw [if_pos rfl, if_pos (by simp)]
        simp
      · rw [if_neg here, if_neg]
        rintro ⟨le, mem⟩
        obtain rfl | mem := List.mem_cons.1 mem
        · omega
        · exact later ⟨le, mem⟩

/-- Memory once the dirty bytes of a line are written. -/
theorem L1Line.read_writtenBack (l : L1Line) (line : Nat) (m : List Host.Cell) (a : Nat) :
    Memory.read (((List.range 128).filter fun i => l.dirty.getLsbD i).foldl (fun m i => Memory.write m (line * 128 + i) (l.byte i)) m) a =
      if a / 128 = line ∧ l.dirty.getLsbD (a % 128) = true then l.byte (a % 128) else Memory.read m a := by
  rw [Memory.read_foldl_write]
  by_cases same : a / 128 = line
  · have offset : line * 128 ≤ a ∧ a - line * 128 = a % 128 := by omega
    simp [same, offset, Nat.mod_lt]
  · have apart : ¬ (line * 128 ≤ a ∧ a - line * 128 ∈ (List.range 128).filter fun i => l.dirty.getLsbD i) := fun ⟨le, mem⟩ => by
      have := List.mem_range.1 (List.mem_of_mem_filter mem)
      omega
    rw [if_neg apart, if_neg fun h => same h.1]

/-- A line that is clean from then on, its dirty bytes in memory. -/
theorem State.cleaned_stored (s : State) {line : Nat} {l : L1Line} (held : (s.core s.coreNo).l1.find? line = some l) {written : List Host.Cell}
    (mem : ∀ a, Memory.read written a =
      if a / 128 = line ∧ l.dirty.getLsbD (a % 128) = true then l.byte (a % 128) else Memory.read s.mem a) :
    s.Stored ((({ s with mem := written } : State).modL1 s.coreNo fun t => t.mod line fun l => { l with dirty := 0 }).conflict 0 0 line) id := by
  let u := ({ s with mem := written } : State).modL1 s.coreNo fun t => t.mod line fun l => { l with dirty := 0 }
  have found : ∀ x, (u.core s.coreNo).l1.find? x =
      if line = x then ((s.core s.coreNo).l1.find? x).map fun l => { l with dirty := 0 } else (s.core s.coreNo).l1.find? x := fun x => by
    rw [State.find_l1_modL1, if_pos rfl, Tbl.find_mod]; rfl
  have elsewhere : ∀ a, a / 128 ≠ line → Memory.read u.mem a = Memory.read s.mem a := fun a other => by
    have read := mem a
    rw [if_neg (fun h => other h.1)] at read
    exact read
  have seen : u.seen s.coreNo = s.seen s.coreNo := funext fun a => by
    simp only [State.seen, found]
    by_cases same : a / 128 = line
    · simp only [same, held, ↓reduceIte, Option.map_some]; rfl
    · simp only [if_neg (Ne.symm same), elsewhere a same]
  have settled : u.settled s.coreNo = s.settled s.coreNo := funext fun a => by
    simp only [State.settled, found]
    by_cases same : a / 128 = line
    · have read := mem a
      simp only [same, true_and] at read
      simp only [same, held, ↓reduceIte, Option.map_some, BitVec.ofNat_eq_ofNat, BitVec.getLsbD_zero, Bool.false_eq_true]
      exact read
    · simp only [if_neg (Ne.symm same), elsewhere a same]
  refine ⟨rfl, (congrArg State.waves (u.calm_conflict 0 0 line)).trans rfl, fun c => ?_, fun c hc => ?_, congrArg s.byteBy seen, congrArg s.byteBy settled⟩
  · show { u.core c with l1 := (s.core c).l1 } = s.core c
    rw [State.core_modL1]
    split
    · next e => subst e; rfl
    · rfl
  · show u.core c = s.core c
    rw [State.core_modL1, if_neg (Ne.symm hc)]; rfl

/-- A line of the executing core, written back. -/
theorem State.l1Clean_stored (s : State) (line : Nat) : s.Stored (s.l1Clean s.coreNo line) id := by
  unfold State.l1Clean
  split
  · exact .refl s
  · next l held =>
    split
    · exact .refl s
    · exact s.cleaned_stored held (l.read_writtenBack line s.mem)

theorem State.l1WriteBack_stored (s : State) : s.Stored (s.l1WriteBack s.coreNo) id := by
  suffices h : ∀ (ls : Tbl L1Line) (t : State), s.Stored t id → s.Stored (ls.foldl (fun t p => t.l1Clean s.coreNo p.1) t) id from h _ s (.refl s)
  intro ls
  induction ls with
  | nil => exact fun t h => h
  | cons p ls ih =>
    intro t h
    refine ih _ (h.trans ?_)
    rw [← h.coreNo]
    exact t.l1Clean_stored p.1

/-- The release that an ordered access makes before its effect (R196). -/
theorem State.before_stored (s : State) (c : Ctl) : s.Stored (s.before c) id := by
  unfold State.before State.release
  split
  · split
    · exact s.l1WriteBack_stored
    · exact .refl s
  · exact .refl s

theorem State.before_of_unordered (s : State) {c : Ctl} (h : c.order.toNat < 2) : s.before c = s := by
  rw [State.before, if_neg]
  simp only [releases, decide_eq_true_eq]
  omega

end Sys2Proof.Machine

/-! # Misaligned accesses -/

namespace Sys2Proof.Machine

/-! ## Acts that all stop -/

theorem actNext_of_stop {f : State → Nat → Acted} {t u : State} {l : Nat} {e : Stop} (thawed : t.cur.frozenLanes.getLsbD l = false)
    (acts : f t l = stop u e) (stops : List (Nat × Stop)) : actNext f (t, stops) l = (u, stops ++ [(l, e)]) := by
  simp only [actNext, thawed, Bool.false_eq_true, ↓reduceIte, acts, stop]

/-- Lanes that act one after another and all stop: what each keeps holds after the last. -/
theorem State.actAll_stopping {s : State} {f : State → Nat → Acted} {e : Nat → Stop} (R : State → Prop) (start : R s)
    (next : ∀ t l, s.mask.getLsbD l = true → R t → t.cur.frozenLanes = 0 ∧ ∃ u, f t l = stop u (e l) ∧ R u) :
    ∃ u, s.actAll false f = (u, (lanesOf s.mask).map fun l => (l, e l)) ∧ R u := by
  suffices h : ∀ ls : List Nat, (∀ l ∈ ls, s.mask.getLsbD l = true) → ∀ t acc, R t →
      ∃ u, ls.foldl (actNext f) (t, acc) = (u, acc ++ ls.map fun l => (l, e l)) ∧ R u from
    h _ (fun l hl => (mem_lanesOf _ _).1 hl) s [] start
  intro ls
  induction ls with
  | nil => exact fun _ t acc h => ⟨t, by simp, h⟩
  | cons l ls ih =>
    intro group t acc h
    obtain ⟨thawed, u, acts, hu⟩ := next t l (group l List.mem_cons_self) h
    rw [List.foldl_cons, actNext_of_stop (by simp [thawed]) acts, List.map_cons]
    obtain ⟨v, rest, hv⟩ := ih (fun j hj => group j (List.mem_cons_of_mem _ hj)) u (acc ++ [(l, e l)]) hu
    exact ⟨v, by rw [rest, List.append_assoc]; rfl, hv⟩

/-- Acts that all stop with a trap are raised together, on the state that they leave. -/
theorem State.lanewise_raises {s u : State} {f : State → Nat → Acted} (i : Instr) (group : u.Group) (mask : u.mask = s.mask) {cause : Nat}
    {info : Nat → Word} {addr : Nat → DWord}
    (acts : s.actAll false f = (u, (lanesOf s.mask).map fun l => (l, Stop.trap cause (info l) (addr l)))) :
    s.lanewise i false false f =
      u.raise u.cur.wave u.mask u.cur.pc ((lanesOf u.mask).map fun l => { lane := l, cause := cause, info := info l, addr := addr l }) := by
  have names : ((lanesOf u.mask).map fun l => (l, Stop.trap cause (info l) (addr l))).map (·.1) = lanesOf u.mask := by simp [Function.comp_def]
  have none : u.mask &&& ~~~ u.mask = 0 := BitVec.and_not_self _
  obtain ⟨l, hl⟩ := exists_lane group.some
  rw [← mask] at acts
  simp only [State.lanewise, acts, ← mask, names, maskOf_lanesOf, none, Bool.false_eq_true, ↓reduceIte, u.advance_none group.frozenLanes]
  exact u.settleStops_traps i group.frozenLanes (List.ne_nil_of_mem ((mem_lanesOf _ _).2 hl)) cause info addr

/-! ## What stores leave of the premises of a trap -/

namespace State.Stored

variable {s t : State} {f : (Loc → Byte) → Loc → Byte} (h : s.Stored t f)
include h

theorem lane_calm (l : Nat) : (t.w.lane l).calm = (s.w.lane l).calm := by
  have := congrArg (Wave.lane · l) h.w_calm
  simpa only [Wave.lane_calm] using this

/-- A lane's registers and its PC. -/
theorem lane_stays (l : Nat) : (t.w.lane l).v = (s.w.lane l).v ∧ (t.w.lane l).pc = (s.w.lane l).pc :=
  ⟨by have := congrArg Lane.v (h.lane_calm l); exact this, by have := congrArg Lane.pc (h.lane_calm l); exact this⟩

/-- Teams and dies, also between states that are the same outside the waves. -/
theorem teams_and_dies {a b : State} (before : a.Outside s) (after : t.Outside b) : b.teams = a.teams ∧ b.dies = a.dies := by
  constructor
  · have last := congrArg State.teams after
    have middle := congrArg State.teams h.outside
    have first := congrArg State.teams before
    exact (Eq.trans last middle).trans first
  · have last := congrArg State.dies after
    have middle := congrArg State.dies h.outside
    have first := congrArg State.dies before
    exact (Eq.trans last middle).trans first

theorem tm : t.tm = s.tm := by have := congrArg State.tm h.outside; exact this

theorem group (group : s.Group) : t.Group where
  home := by rw [h.tm]; exact group.home
  wave := by
    have := group.wave
    rw [← Option.isSome_map (f := Wave.calm), ← State.find_calm, ← h.calm, State.find_calm, Option.isSome_map, ← h.cur] at this
    exact this
  lanes l hl := by
    have there := group.lanes l (by rwa [State.mask, h.cur] at hl)
    rw [← Option.isSome_map (f := Lane.calm), ← Wave.find_calm, ← h.w_calm, Wave.find_calm, Option.isSome_map] at there
    exact there
  ready l hl := by
    have same : (t.w.lane l).life = (s.w.lane l).life := by have := congrArg Lane.life (h.lane_calm l); exact this
    rw [same]; exact group.ready l (by rwa [State.mask, h.cur] at hl)
  some := by rw [State.mask, h.cur]; exact group.some
  frozen := by rw [h.cur]; exact group.frozen
  frozenLanes := by rw [h.cur]; exact group.frozenLanes
  frozenLines := by rw [h.cur]; exact group.frozenLines

theorem canTrap (can : s.CanTrap) : t.CanTrap := by
  refine ⟨?_, fun l hl => ?_⟩
  · have same : t.w.trapvec = s.w.trapvec := by have := congrArg Wave.trapvec h.w_calm; exact this
    rw [same]; exact can.1
  · have depth : (t.w.lane l).depth = (s.w.lane l).depth := by have := congrArg Lane.depth (h.lane_calm l); exact this
    have handler : (t.w.lane l).handler = (s.w.lane l).handler := by have := congrArg Lane.handler (h.lane_calm l); exact this
    rw [depth, handler]
    exact can.2 l (by rwa [State.mask, h.cur] at hl)

end State.Stored

/-! ## The trap -/

/-- A lane that has taken a trap at the executing instruction (R220). -/
def State.taken (s : State) (cause : Nat) (info : Word) (addr : DWord) (latch : List (Option DWord)) (x : Lane) : Lane :=
  { x with
    tcause := BitVec.ofNat 32 cause, tinfo := info, tpc := s.cur.pc, taddr := addr, tparent := s.tparent s.cur.wave,
    tsibs := s.w.live &&& ~~~ s.mask, handler := true, life := .ready, pc := s.w.trapvec, latch := latch }

/-- What a soft change leaves of a lane that takes a trap. -/
theorem State.SoftFrom.taken {s b : State} (soft : s.SoftFrom b) (cause : Nat) (info : Word) (addr : DWord) (latch : List (Option DWord)) (l : Nat) :
    b.taken cause info addr latch (b.w.lane l) = s.taken cause info addr latch (s.w.lane l) := by
  obtain ⟨-, kept, v, -, -⟩ := soft.lane l
  have tparent : b.tparent b.cur.wave = s.tparent s.cur.wave := by
    simp only [State.tparent, State.coreOf, State.dieOf, State.team, soft.teams, soft.wave]
  have trapvec : b.w.trapvec = s.w.trapvec := by have := congrArg Wave.trapvec soft.kept; exact this
  refine Eq.trans ?_ (congrArg (s.taken cause info addr latch) kept)
  simp only [State.taken, tparent, trapvec, soft.w_live, soft.mask_eq, soft.pc, v]

/-- What stores leave of a lane that takes a trap. -/
theorem State.Stored.taken {s t : State} {f : (Loc → Byte) → Loc → Byte} (h : s.Stored t f) (cause : Nat) (info : Word) (addr : DWord)
    (latch : List (Option DWord)) (l : Nat) :
    (t.taken cause info addr latch (t.w.lane l)).calm = (s.taken cause info addr latch (s.w.lane l)).calm := by
  have lane := congrArg (s.taken cause info addr latch) (h.lane_calm l)
  have teams : t.teams = s.teams := by have := congrArg State.teams h.outside; exact this
  have tparent : t.tparent s.cur.wave = s.tparent s.cur.wave := by
    simp only [State.tparent, State.coreOf, State.dieOf, State.team, teams]
  have trapvec : t.w.trapvec = s.w.trapvec := by have := congrArg Wave.trapvec h.w_calm; exact this
  have live : t.w.live = s.w.live := by
    have life : ∀ l, (t.w.lane l).life = (s.w.lane l).life := fun l => by have := congrArg Lane.life (h.lane_calm l); exact this
    simp only [Wave.live, Lane.live, life]
  refine Eq.trans ?_ lane
  simp only [State.taken, tparent, trapvec, live, State.mask, h.cur, Lane.calm]

/-- A trap of the group leaves the clk with its executing wave. -/
theorem State.raise_cur_wave (s : State) (hg : s.Group) (hc : s.CanTrap) (cause : Nat) (info : Nat → Word) (addr : Nat → DWord) :
    (s.raise s.cur.wave s.mask s.cur.pc
      ((lanesOf s.mask).map fun l => { lane := l, cause := cause, info := info l, addr := addr l })).cur.wave = s.cur.wave := by
  have some : (lanesOf s.mask).map (fun l => ({ lane := l, cause := cause, info := info l, addr := addr l } : Report)) ≠ [] := by
    obtain ⟨l, hl⟩ := exists_lane hg.some
    exact List.ne_nil_of_mem (List.mem_map_of_mem ((mem_lanesOf _ _).2 hl))
  obtain ⟨u, raised, outside, -⟩ := s.raise_traps s.cur.wave s.mask s.cur.pc _ hg.wave hg.frozenLanes some hc.1 fun r hr => by
    obtain ⟨l, hl, rfl⟩ := List.mem_map.1 hr
    have lane := (mem_lanesOf _ _).1 hl
    have ready : ((s.wave s.cur.wave).lane l).life = .ready := hg.ready l lane
    exact ⟨(hc.2 l lane).1, by simp [Lane.live, ready], (hc.2 l lane).2⟩
  have cur : u.cur = s.cur := by have := congrArg State.cur outside; exact this
  rw [raised, State.switchPoint_wave, cur]

/-- What a group's trap leaves, where nothing but stores came before it since the checks: `order` says whether an access releases first. -/
structure State.TrapsAfter (s t : State) (cause : Nat) (info : Word) (addr : Nat → DWord) (order : BitVec 2) : Prop where
  outsideMem : s.OutsideMem t
  outside : order.toNat < 2 → s.Outside t
  settled : ∀ a, t.settled s.coreNo a = s.settled s.coreNo a
  cores : ∀ d, d ≠ s.coreNo → t.core d = s.core d
  team : t.tm = s.tm
  dies : ∀ d, t.die d = s.die d
  took : s.calm.Took t.calm s.mask cause (fun _ => info) addr
  sregs : ∀ m, t.w.sreg m = s.w.sreg m
  others : ∀ l, s.mask.getLsbD l = false → (t.w.lane l).reg = (s.w.lane l).reg ∧ (t.w.lane l).pc = (s.w.lane l).pc

theorem State.Clear.trapsAfter {s u : State} {i : Instr} {sp : Spans} {order : BitVec 2} (h : s.Clear i sp) (can : s.CanTrap)
    (stored : (s.begun i sp).Stored u id) (unordered : order.toNat < 2 → u = s.begun i sp) (cause : Nat) (info : Word) (addr : Nat → DWord) :
    s.TrapsAfter (u.raise u.cur.wave u.mask u.cur.pc ((lanesOf u.mask).map fun l => { lane := l, cause := cause, info := info, addr := addr l }))
      cause info addr order := by
  obtain ⟨soft, -⟩ := State.begun_soft h
  have group := stored.group h.group_begun
  obtain ⟨outside, took, sregs, -, others⟩ := u.raise_took group (stored.canTrap (h.canTrap_begun can)) cause (fun _ => info) addr
  have wave := u.raise_cur_wave group (stored.canTrap (h.canTrap_begun can)) cause (fun _ => info) addr
  generalize u.raise u.cur.wave u.mask u.cur.pc _ = t at *
  have before := State.begun_outside h
  obtain ⟨outsideMem, -, settled, cores⟩ := stored.between soft outside wave
  obtain ⟨teams, dies⟩ := stored.teams_and_dies before outside
  have waveNo : t.cur.wave = s.cur.wave := wave.trans ((congrArg Cur.wave stored.cur).trans soft.wave)
  have mask : u.mask = s.mask := (congrArg Cur.mask stored.cur).trans soft.mask
  refine ⟨outsideMem, fun low => ?_, fun a => congrFun settled ⟨0, a⟩, cores, ?_, fun d => ?_, fun l hl => ?_, fun m => ?_, fun l hl => ?_⟩
  · exact before.trans (unordered low ▸ outside)
  · simp only [State.tm, State.team, State.tid, teams, waveNo]
  · simp only [State.die, dies]
  · have lane : t.w.lane l = u.taken cause info (addr l) (t.w.lane l).latch (u.w.lane l) := took l (by rw [mask]; exact hl)
    have same := stored.taken cause info (addr l) (t.w.lane l).latch l
    rw [← lane, soft.taken] at same
    have live : s.w.calm.live = s.w.live := by simp only [Wave.live, Wave.lane_calm]; rfl
    rw [State.w_calm, State.w_calm, Wave.lane_calm, Wave.lane_calm, same, live]
    rfl
  · have file : u.w.s = (s.begun i sp).w.s := by have := congrArg Wave.s stored.w_calm; exact this
    rw [sregs, Wave.sreg, Wave.sreg, file, soft.sregs]
  · have lane := others l (by rw [mask]; exact hl)
    have v : (t.w.lane l).v = (u.w.lane l).v := by have := congrArg Lane.v lane; exact this
    have pc : (t.w.lane l).pc = (u.w.lane l).pc := by have := congrArg Lane.pc lane; exact this
    obtain ⟨v', pc'⟩ := stored.lane_stays l
    obtain ⟨-, -, v'', pc'', -⟩ := soft.lane l
    exact ⟨funext fun r => by simp only [Lane.reg]; rw [v, v', v''], (pc.trans pc').trans pc''⟩

/-! ## The instructions -/

theorem State.place_misaligned (s : State) (space : Nat) (k : Kind) {n : Nat} {addr : DWord} (data : BitVec 128) (h : addr.toNat % n ≠ 0) :
    s.place space k n addr data = (s, .error (.trap 4 (BitVec.ofNat 32 n) addr)) := by
  rw [State.place, if_pos h]

/-- An instruction whose every act stops at a misaligned address, after the release that its order makes. -/
theorem State.Clear.misaligned {s : State} {i : Instr} {sp : Spans} {o : Ops} {x : Act} {n : Nat} {addr : Nat → DWord} (c : Ctl)
    (h : s.Clear i sp) (vector : o.s = false) (meaning : exec i s = acting i o sp x s) (stays : x.moves = false) (can : s.CanTrap)
    (acts : ∀ t l, t.pre = s.pre → t.mask = s.mask → s.mask.getLsbD l = true →
      x.run t l = stop (t.before c) (.trap 4 (BitVec.ofNat 32 n) (addr l))) :
    ∃ t, exec i s = .next t ∧ s.TrapsAfter t 4 (BitVec.ofNat 32 n) addr c.order := by
  obtain ⟨soft, snapshot⟩ := State.begun_soft h
  rw [meaning]
  refine State.run_answers h ?_
  let b := s.begun i sp
  obtain ⟨u, stops, stored, unordered⟩ := State.actAll_stopping (s := b) (f := x.run) (e := fun l => .trap 4 (BitVec.ofNat 32 n) (addr l))
    (fun t => b.Stored t id ∧ (c.order.toNat < 2 → t = b)) ⟨.refl b, fun _ => rfl⟩ fun t l hl ⟨stored, unordered⟩ => by
      refine ⟨by rw [stored.cur]; exact h.group_begun.frozenLanes, ?_⟩
      exact ⟨_, acts t l (stored.pre snapshot) ((congrArg Cur.mask stored.cur).trans soft.mask) (by rwa [← soft.mask_eq]),
        stored.trans (t.before_stored c), fun low => (t.before_of_unordered low).trans (unordered low)⟩
  have raised := State.lanewise_raises i (stored.group h.group_begun) (congrArg Cur.mask stored.cur) stops
  rw [vector, stays, raised]
  exact h.trapsAfter can stored unordered 4 (BitVec.ofNat 32 n) addr

/-- The bodies of loads, stores and atomics at a misaligned address. -/
theorem loadBody_misaligned (i : Instr) (o : Ops) (space : Nat) {n : Nat} (signed bypass hoist : Bool) (s : State) (l : Nat) {addr : DWord}
    (data : BitVec 128) (h : addr.toNat % n ≠ 0) :
    loadBody i o space n signed bypass hoist s l addr data = stop s (.trap 4 (BitVec.ofNat 32 n) addr) := by
  simp only [loadBody, s.place_misaligned space 0 data h]

theorem storeBody_misaligned (o : Ops) (space : Nat) {n : Nat} (bypass : Bool) (s : State) (l : Nat) {addr : DWord} (data : BitVec 128)
    (h : addr.toNat % n ≠ 0) : storeBody o space n bypass s l addr data = stop s (.trap 4 (BitVec.ofNat 32 n) addr) := by
  simp only [storeBody, s.place_misaligned space 1 data h]

theorem atomicBody_misaligned (o : Ops) (c : Ctl) {n : Nat} (f : BitVec 128 → Nat → Option Nat) (wr : State → Nat → Nat → State) (s : State)
    (l : Nat) {addr : DWord} (data : BitVec 128) (h : addr.toNat % n ≠ 0) :
    atomicBody o c n f wr s l addr data = stop (s.before c) (.trap 4 (BitVec.ofNat 32 n) addr) := by
  simp only [atomicBody, (s.before c).place_misaligned c.space 2 data h]

/-- A control word of order 0, which neither releases nor acquires. -/
def Ctl.plain : Ctl := { scope := 0, order := 0, sub := 0, type := 0, spec := 0 }

theorem State.TrapsAfter.conclude {s : State} {i : Instr} {cause : Nat} {info : Word} {addr : Nat → DWord} {order : BitVec 2}
    (h : ∃ t, exec i s = .next t ∧ s.TrapsAfter t cause info addr order) :
    ∃ t, exec i s = .next t ∧ s.OutsideMem t ∧ (order.toNat < 2 → s.Outside t) ∧ (∀ a, t.settled s.coreNo a = s.settled s.coreNo a) ∧
      (∀ d, d ≠ s.coreNo → t.core d = s.core d) ∧ t.tm = s.tm ∧ (∀ d, t.die d = s.die d) ∧
      s.calm.Took t.calm s.mask cause (fun _ => info) addr ∧ (∀ m, t.w.sreg m = s.w.sreg m) ∧
      ∀ l, s.mask.getLsbD l = false → (t.w.lane l).reg = (s.w.lane l).reg ∧ (t.w.lane l).pc = (s.w.lane l).pc := by
  obtain ⟨t, answer, traps⟩ := h
  exact ⟨t, answer, traps.outsideMem, traps.outside, traps.settled, traps.cores, traps.team, traps.dies, traps.took, traps.sregs, traps.others⟩

/-- A load or a store without an order, of lanes whose addresses are all misaligned. -/
theorem State.Clear.misaligned_plain {s : State} {i : Instr} {sp : Spans} {o : Ops} {x : Act} {n : Nat} {addr : Nat → DWord} (h : s.Clear i sp)
    (vector : o.s = false) (meaning : exec i s = acting i o sp x s) (stays : x.moves = false) (can : s.CanTrap)
    (acts : ∀ t l, t.pre = s.pre → t.mask = s.mask → s.mask.getLsbD l = true →
      x.run t l = stop t (.trap 4 (BitVec.ofNat 32 n) (addr l))) :
    ∃ t, exec i s = .next t ∧ s.TrapsAfter t 4 (BitVec.ofNat 32 n) addr 0 :=
  h.misaligned Ctl.plain vector meaning stays can acts

/-- LD, LDT and LDP. -/
theorem load_misaligned {s : State} {mk : BitVec 3 → Ops → Instr} {space : Nat}
    (meaning : ∀ k o, exec (mk k o) s = acting (mk k o) o (loadSpans (loadForm k.toNat).1 space) (loadAct (mk k o) k o space) s)
    (k : BitVec 3) (o : Ops) (h : s.Clear (mk k o) (loadSpans (loadForm k.toNat).1 space)) (vector : o.s = false) (can : s.CanTrap)
    (odd : ∀ l, s.mask.getLsbD l = true → (addrAB space (reader s.pre o l)).toNat % (loadForm k.toNat).1 ≠ 0) :
    ∃ t, exec (mk k o) s = .next t ∧ s.TrapsAfter t 4 (BitVec.ofNat 32 (loadForm k.toNat).1) (fun l => addrAB space (reader s.pre o l)) 0 :=
  h.misaligned_plain vector (meaning k o) rfl can fun t l pre _ hl => by
    simp only [Act.run, loadAct, pre]
    exact loadBody_misaligned _ _ _ _ _ _ _ _ _ (odd l hl)

/-- ST, STT and STP. -/
theorem store_misaligned {s : State} {mk : BitVec 3 → Ops → Instr} {space : Nat}
    (meaning : ∀ k o, exec (mk k o) s = acting (mk k o) o (loadSpans (2 ^ k.toNat) space) (storeAct k o space) s)
    (k : BitVec 3) (o : Ops) (h : s.Clear (mk k o) (loadSpans (2 ^ k.toNat) space)) (vector : o.s = false) (can : s.CanTrap)
    (odd : ∀ l, s.mask.getLsbD l = true → (addrAB space (reader s.pre o l)).toNat % 2 ^ k.toNat ≠ 0) :
    ∃ t, exec (mk k o) s = .next t ∧ s.TrapsAfter t 4 (BitVec.ofNat 32 (2 ^ k.toNat)) (fun l => addrAB space (reader s.pre o l)) 0 :=
  h.misaligned_plain vector (meaning k o) rfl can fun t l pre _ hl => by
    simp only [Act.run, storeAct, pre]
    exact storeBody_misaligned _ _ _ _ _ _ (odd l hl)

/-- Settles O24: every act stops at its place, after the release of its order; so the stops are raised together, on a state that differs by
releases alone. -/
theorem misalignedAccessTraps : Obligations.MisalignedAccessTraps := by
  unfold Obligations.MisalignedAccessTraps
  refine ⟨fun mk space store kinds k o s _ h vector can odd => State.TrapsAfter.conclude ?_,
    fun mk kinds o s h vector can odd => State.TrapsAfter.conclude ?_,
    fun mk kinds o c s _ vector h can odd => State.TrapsAfter.conclude ?_,
    fun mk kinds o c s _ vector h can odd => State.TrapsAfter.conclude ?_⟩
  · simp only [List.mem_cons, Prod.mk.injEq, List.not_mem_nil, or_false] at kinds
    obtain ⟨rfl, rfl, rfl⟩ | ⟨rfl, rfl, rfl⟩ | ⟨rfl, rfl, rfl⟩ | ⟨rfl, rfl, rfl⟩ | ⟨rfl, rfl, rfl⟩ | ⟨rfl, rfl, rfl⟩ := kinds
    · exact load_misaligned (fun _ _ => rfl) k o h vector can odd
    · exact load_misaligned (fun _ _ => rfl) k o h vector can odd
    · exact load_misaligned (fun _ _ => rfl) k o h vector can odd
    · exact store_misaligned (fun _ _ => rfl) k o h vector can odd
    · exact store_misaligned (fun _ _ => rfl) k o h vector can odd
    · exact store_misaligned (fun _ _ => rfl) k o h vector can odd
  · simp only [List.mem_cons, List.not_mem_nil, or_false] at kinds
    obtain rfl | rfl := kinds
    · refine h.misaligned_plain (x := ldeAct o) vector rfl rfl can fun t l pre mask hl => ?_
      simp only [Act.run, ldeAct, rankedAddr, rankIn, pre, mask]
      exact loadBody_misaligned _ _ _ _ _ _ _ _ _ (odd l hl)
    · refine h.misaligned_plain (x := stcAct o) vector rfl rfl can fun t l pre mask hl => ?_
      simp only [Act.run, stcAct, rankedAddr, rankIn, pre, mask]
      exact storeBody_misaligned _ _ _ _ _ _ (odd l hl)
  · simp only [List.mem_cons, List.not_mem_nil, or_false] at kinds
    obtain rfl | rfl := kinds
    · refine h.misaligned (x := ldaAct o c) c vector rfl rfl can fun t l pre _ hl => ?_
      simp only [Act.run, ldaAct, pre]
      rw [loadBody_misaligned _ _ _ _ _ _ _ _ _ (odd l hl)]
      rfl
    · refine h.misaligned (x := stlAct o c) c vector rfl rfl can fun t l pre _ hl => ?_
      simp only [Act.run, stlAct, pre]
      exact storeBody_misaligned _ _ _ _ _ _ (odd l hl)
  · simp only [List.mem_cons, List.not_mem_nil, or_false] at kinds
    obtain rfl | rfl | rfl := kinds
    · refine h.misaligned (x := atomAct o c) c vector rfl rfl can fun t l pre _ hl => ?_
      simp only [Act.run, atomAct, pre]
      exact atomicBody_misaligned _ _ _ _ _ _ _ (odd l hl)
    · refine h.misaligned (x := redAct o c) c vector rfl rfl can fun t l pre _ hl => ?_
      simp only [Act.run, redAct, pre, (t.before c).place_misaligned c.space 2 _ (odd l hl)]
    · refine h.misaligned (x := casAct o c) c vector rfl rfl can fun t l pre _ hl => ?_
      simp only [Act.run, casAct, pre]
      exact atomicBody_misaligned _ _ _ _ _ _ _ (odd l hl)

end Sys2Proof.Machine

/-! # Checks that refuse

An instruction that its checks stop has issued all the same: it counts in the run, and every lane of the group takes the cause (R137, R138). -/

namespace Sys2Proof.Machine

/-! ## What a refused instruction leaves -/

theorem State.SoftFrom.canTrap {s b : State} (soft : s.SoftFrom b) (can : s.CanTrap) : b.CanTrap := by
  have trapvec : b.w.trapvec = s.w.trapvec := by have := congrArg Wave.trapvec soft.kept; exact this
  refine ⟨by rw [trapvec]; exact can.1, fun l hl => ?_⟩
  rw [soft.depth, soft.handler]
  exact can.2 l (by rwa [soft.mask_eq] at hl)

/-- Every lane of a group takes a cause, on a state that differs softly. -/
theorem State.SoftFrom.faults {s b : State} (soft : s.SoftFrom b) (group : s.Group) (can : s.CanTrap) (cause : Nat) (info : Word) (addr : DWord) :
    let t := b.fault b.mask cause info addr
    s.Outside t ∧ s.Took t s.mask cause (fun _ => info) (fun _ => addr) ∧ ∀ m, t.w.sreg m = s.w.sreg m := by
  intro t
  obtain ⟨outside, took, sregs, -, -⟩ :=
    b.raise_took (soft.group group) (soft.canTrap can) cause (fun _ => info) (fun _ => addr)
  refine ⟨State.Outside.trans soft.elsewhere.1 outside, fun l hl => ?_, fun m => (sregs m).trans (by simp only [Wave.sreg, soft.sregs])⟩
  exact Eq.trans (took l (by rwa [soft.mask_eq])) (soft.taken cause info addr (t.w.lane l).latch l)

/-- An instruction that its checks stop counts in the run (R78): that is soft. -/
theorem State.counted_soft (s : State) (i : Instr) (there : (s.waves.find? s.cur.wave).isSome) : s.SoftFrom (s.snapshot.countRun i) := by
  obtain ⟨used, pre, -⟩ := s.snapshot.noteUse_soft i [] there rfl
  exact s.snapshot_soft.trans used pre

/-- An instruction that its checks stop with a cause. -/
def State.refused (s : State) (i : Instr) (cause : Nat) (info : Word) (addr : DWord) : State := (s.snapshot.countRun i).fault s.mask cause info addr

theorem State.Group.refused {s : State} (group : s.Group) (can : s.CanTrap) (i : Instr) (cause : Nat) (info : Word) (addr : DWord) :
    s.Outside (s.refused i cause info addr) ∧ s.Took (s.refused i cause info addr) s.mask cause (fun _ => info) (fun _ => addr) ∧
      ∀ m, (s.refused i cause info addr).w.sreg m = s.w.sreg m :=
  (s.counted_soft i group.wave).faults group can cause info addr

/-! ## What the checks refuse (R137) -/

/-- Privilege comes first (R81, R129). -/
theorem State.start_privileged {s : State} {i : Instr} {priv : Bool} (h : ((isPrivileged i && s.ctxNo != 0) || priv) = true) (sp : Spans)
    (bad : Option Nat) : s.start i sp priv bad = .error (s.refused i 3 s.cur.w0 0) := by
  have h' : ((isPrivileged i && s.snapshot.ctxNo != 0) || priv) = true := h
  simp only [State.start, h', ↓reduceIte]
  rfl

section
variable {s : State} {i : Instr} {sp : Spans} (reach : (isPrivileged i && s.ctxNo != 0) = false)
include reach

/-- An operand code that is illegal (R138). -/
theorem State.start_illegal {u : OpUse} (h : s.illegalUse i (usesOf i sp) = some u) (bad : Option Nat) :
    s.start i sp false bad = .error (s.refused i 2 (BitVec.ofNat 32 (u.field * 256 + u.code.toNat)) 0) := by
  have reach' : (isPrivileged i && s.snapshot.ctxNo != 0) = false := reach
  have h' : s.snapshot.illegalUse i (usesOf i sp) = some u := h
  simp only [State.start, reach', h', Bool.or_self, Bool.false_eq_true, ↓reduceIte]
  rfl

variable (legal : s.illegalUse i (usesOf i sp) = none)
include legal

/-- A special-register number that is not assigned (R128, R138). -/
theorem State.start_unassigned (n : Nat) :
    s.start i sp false (some n) = .error (s.refused i 2 (BitVec.ofNat 32 (5 * 256 + n % 256)) (BitVec.ofNat 64 n)) := by
  have reach' : (isPrivileged i && s.snapshot.ctxNo != 0) = false := reach
  have legal' : s.snapshot.illegalUse i (usesOf i sp) = none := legal
  simp only [State.start, reach', legal', Bool.or_self, Bool.false_eq_true, ↓reduceIte]
  rfl

/-- A latch code that reads an invalid latch, where that traps (R79). -/
theorem State.start_stale {u : OpUse} (stale : s.staleUse i (usesOf i sp) = some u) (traps : wstatLtrap s.pre.wstat = true) :
    s.start i sp false none = .error (s.refused i 0x0C (BitVec.ofNat 32 u.code.toNat) 0) := by
  have reach' : (isPrivileged i && s.snapshot.ctxNo != 0) = false := reach
  have legal' : s.snapshot.illegalUse i (usesOf i sp) = none := legal
  simp only [State.start, reach', legal', State.snapshot_staleUse, stale, State.snapshot_pre, traps, Bool.or_self, Bool.false_eq_true, ↓reduceIte]
  rfl

end

theorem State.run_of_refused {s t : State} {i : Instr} {sp : Spans} (h : s.start i sp false none = .error t) (f : State → State) :
    s.run i sp f = t := by simp only [State.run, h]

/-- The privileged view is refused outside context 0 (R81). -/
theorem State.runSr_privileged {s : State} {o : Ops} (here : s.ctxNo ≠ 0) (low : 0x200 ≤ s.srNumber o) (high : s.srNumber o < 0x400) (i : Instr)
    (f : State → Nat → State) : s.runSr i o f = s.refused i 3 s.cur.w0 0 := by
  have priv : (s.srNumber o == brsel || (0x200 ≤ s.srNumber o && s.srNumber o < 0x400 && s.ctxNo != 0)) = true := by
    simp [low, high, here]
  simp only [State.runSr, priv, s.start_privileged (Bool.or_true _)]

/-- A number that is not assigned is refused, below the privileged view (R128). -/
theorem State.runSr_unassigned {s : State} {o : Ops} {i : Instr} (plain : isPrivileged i = false)
    (legal : s.illegalUse i (usesOf i spans1) = none) (low : s.srNumber o < 0x200) (free : srAssigned (s.srNumber o) = false) (f : State → Nat → State) :
    s.runSr i o f = s.refused i 2 (BitVec.ofNat 32 (5 * 256 + s.srNumber o % 256)) (BitVec.ofNat 64 (s.srNumber o)) := by
  have reach : (isPrivileged i && s.ctxNo != 0) = false := by rw [plain, Bool.false_and]
  have priv : (s.srNumber o == brsel || (0x200 ≤ s.srNumber o && s.srNumber o < 0x400 && s.ctxNo != 0)) = false := by
    have other : s.srNumber o ≠ brsel := fun e => by rw [e] at low; exact absurd low (by decide)
    simp [other, low]
  simp only [State.runSr, priv, free, Bool.and_false, Bool.false_eq_true, ↓reduceIte, State.start_unassigned reach legal]

/-! ## Instructions whose checks come first -/

/-- An instruction that is not privileged and makes its checks, on registers that it spans, before any effect. -/
structure ChecksFirst (i : Instr) (sp : Spans) : Prop where
  plain : isPrivileged i = false
  runs : ∀ s, ∃ f, exec i s = .next (s.run i sp f)

theorem ChecksFirst.refused {i : Instr} {sp : Spans} (h : ChecksFirst i sp) {s : State} {cause : Nat} {info : Word} {addr : DWord}
    (group : s.Group) (can : s.CanTrap) (start : s.start i sp false none = .error (s.refused i cause info addr)) :
    ∃ t, exec i s = .next t ∧ s.Outside t ∧ s.Took t s.mask cause (fun _ => info) (fun _ => addr) ∧ ∀ m, t.w.sreg m = s.w.sreg m := by
  obtain ⟨f, runs⟩ := h.runs s
  exact ⟨_, runs, by rw [State.run_of_refused start]; exact group.refused can i cause info addr⟩

theorem ChecksFirst.reach {i : Instr} {sp : Spans} (h : ChecksFirst i sp) (s : State) : (isPrivileged i && s.ctxNo != 0) = false := by
  rw [h.plain, Bool.false_and]

/-- The instructions of each family that the statement names, with the registers that their operands span. -/
theorem checksFirst_named {i : Instr} {sp : Spans}
    (h : (∃ t o, i ∈ [.add t o, .mul t o, .div t o] ∧ sp = intSpans t) ∨ (∃ w o, i ∈ [.andB w o, .notB w o] ∧ sp = bitSpans w) ∨
      (∃ w o, i = .shl w o ∧ sp = fieldSpans w) ∨ (∃ f o, i ∈ [.fadd f o, .fma f o] ∧ sp = floatSpans f) ∨
      (∃ k o, i = .ld k o ∧ sp = loadSpans (loadForm k.toNat).1 0) ∨ (∃ k o, i = .st k o ∧ sp = loadSpans (2 ^ k.toNat) 0) ∨
      (∃ o, i ∈ [.pack o, .ballot o, .rdln o, .shfl o, .wrln o, .jenr o, .jwait o, .wbase o, .pushv o, .popv o, .erpass o, .tstat o] ∧
        sp = spans1) ∨
      (∃ o c, i ∈ [.lda o c, .stl o c] ∧ sp = loadSpans (typeBytes c.type.toNat) c.space) ∨
      (∃ o c, i ∈ [.atom o c, .cas o c, .red o c] ∧ sp = atomSpans (typeBytes c.type.toNat) c.space) ∨
      (∃ o c, i ∈ [.bara o c, .barw o c, .bart o c, .cpy o c, .cpyg o c, .coll o c, .mxw o c, .mxs o c] ∧ sp = spans1) ∨
      (∃ o c, i ∈ [.publish o c, .adopt o c, .retract o c, .icinv o c] ∧ sp = baseSpans) ∨
      (∃ o, i ∈ [.launch o, .tsub o, .erarm o] ∧ sp = baseSpans) ∨
      (∃ o, i ∈ [.spawn o, .sysc o, .ret o] ∧ sp = { d := 1, a := 2, b := 1 }) ∨ (∃ o, i = .tlrd o ∧ sp = { d := 2, a := 1, b := 1 }) ∨
      (∃ o c, i = .brx o c ∧ sp = { d := 1, a := 1, b := 2 })) : ChecksFirst i sp := by
  simp only [List.mem_cons, List.not_mem_nil, or_false] at h
  obtain ⟨t, o, rfl | rfl | rfl, rfl⟩ | ⟨w, o, rfl | rfl, rfl⟩ | ⟨w, o, rfl, rfl⟩ | ⟨f, o, rfl | rfl, rfl⟩ | ⟨k, o, rfl, rfl⟩ | ⟨k, o, rfl, rfl⟩ |
    ⟨o, rfl | rfl | rfl | rfl | rfl | rfl | rfl | rfl | rfl | rfl | rfl | rfl, rfl⟩ | ⟨o, c, rfl | rfl, rfl⟩ | ⟨o, c, rfl | rfl | rfl, rfl⟩ |
    ⟨o, c, rfl | rfl | rfl | rfl | rfl | rfl | rfl | rfl, rfl⟩ | ⟨o, c, rfl | rfl | rfl | rfl, rfl⟩ | ⟨o, rfl | rfl | rfl, rfl⟩ |
    ⟨o, rfl | rfl | rfl, rfl⟩ | ⟨o, rfl, rfl⟩ | ⟨o, c, rfl, rfl⟩ := h <;> exact ⟨rfl, fun _ => ⟨_, rfl⟩⟩

/-! ## The obligation -/

/-- HALT, TLBI and CTXSW are refused outside context 0 by the checks, whatever they span (R129). -/
theorem privileged_refused {i : Instr} {s : State} {sp : Spans} {f : State → State} (group : s.Group) (can : s.CanTrap) (here : s.ctxNo ≠ 0)
    (priv : isPrivileged i = true) (runs : exec i s = .next (s.run i sp f)) :
    ∃ t, exec i s = .next t ∧ s.Outside t ∧ s.Took t s.mask 3 (fun _ => s.cur.w0) (fun _ => 0) ∧ ∀ m, t.w.sreg m = s.w.sreg m := by
  refine ⟨_, runs, ?_⟩
  rw [State.run_of_refused (s.start_privileged (by simp [priv, here]) sp none)]
  exact group.refused can i 3 s.cur.w0 0

/-- A latch that is invalid reads as 0 (R79). -/
theorem readV_invalid (w : Wave) (l : Nat) {n : Nat} (lit : Word) (ty : Ty) {c : Code} (code : c.toNat = 112 + n) (latch : n < 8)
    (invalid : latchAt (w.lane l).latch n = none) : readV w l lit ty c = 0 := by
  have h96 : ¬ 112 + n < 96 := by omega
  have h112 : ¬ 112 + n < 112 := by omega
  have h120 : 112 + n < 120 := by omega
  simp only [readV, code, if_neg h96, if_neg h112, if_pos h120, Nat.add_sub_cancel_left, invalid, Option.getD_none]
  cases ty <;> rfl

/-- Settles O45: each cause is the one that the checks of the instruction stop with, and so every lane takes it. -/
theorem privilegeOperandAndLatchTraps : Obligations.PrivilegeOperandAndLatchTraps := by
  unfold Obligations.PrivilegeOperandAndLatchTraps
  refine ⟨fun i s group can here named => ?_, fun i s o group can named legal low free => ?_, fun i sp u s group can named illegal => ?_,
    fun t o u s group can legal stale traps => ?_, fun w l n lit ty c code latch invalid => readV_invalid w l lit ty code latch invalid⟩
  · obtain ⟨o, rfl⟩ | ⟨o, c, rfl⟩ | ⟨o, rfl⟩ | ⟨o, rfl, low, high⟩ | ⟨o, rfl, low, high⟩ := named
    · exact privileged_refused group can here rfl rfl
    · exact privileged_refused group can here rfl rfl
    · exact privileged_refused group can here rfl rfl
    · rw [exec_rdsr, execRdsr, State.runSr_privileged here low high]
      exact ⟨_, rfl, group.refused can _ 3 s.cur.w0 0⟩
    · rw [exec_wrsr, execWrsr, State.runSr_privileged here low high]
      exact ⟨_, rfl, group.refused can _ 3 s.cur.w0 0⟩
  · obtain rfl | rfl := named
    · rw [exec_rdsr, execRdsr, State.runSr_unassigned rfl legal low free]
      exact ⟨_, rfl, group.refused can _ 2 _ _⟩
    · rw [exec_wrsr, execWrsr, State.runSr_unassigned rfl legal low free]
      exact ⟨_, rfl, group.refused can _ 2 _ _⟩
  · have first := checksFirst_named named
    exact first.refused group can (State.start_illegal (first.reach s) illegal none)
  · have first : ChecksFirst (.add t o) (intSpans t) := ⟨rfl, fun _ => ⟨_, rfl⟩⟩
    exact first.refused group can (State.start_stale (first.reach s) legal stale traps)

end Sys2Proof.Machine

/-! # Answers to fault records -/

namespace Sys2Proof.Machine

/-- The slot of a lane that a load of a word has parked on the page at 0x5000, under tag 0 (R224). -/
def loadSlot : Slot :=
  { pc := 0x1000, w0 := 0, w1 := 0, instr := .ld 4 { s := false, nw := false, d := 1, a := 100, b := 2, lit := 0 }, vb := 0, sb := 0,
    lanes := [(0, { addr := 0x5000, data := 0, tag := some 0 })] }

/-- The tag of that page, which no resolution has answered. -/
def loadTag : Tag := { page := 0x5000, sysc := false, resolved := none }

/-- The lane parked in its slot, in a resident team whose wave has a handler; the clk's record says that an abort of this clk has frozen the lane. -/
def frozenParked : State :=
  { State.reset with
    waves := [(64, { Wave.gone with
      team := 1, trapvec := 0x8000, lanes := [(0, { Lane.gone with life := .parked 0 })], slots := [(0, loadSlot)] })]
    teams := [(1, Team.gone)]
    ctxs := [(0, { Ctx.reset with tags := [(0, loadTag)] })]
    cur := { Cur.none with wave := 64, frozenLanes := 1 } }

/-- FQRES_FAIL lets the lane leave its slot, but a lane that an abort of the clk has frozen takes no trap (R281). -/
theorem fqresFail_frozen_not_handled :
    ∃ t, exec (.fqresFail 0 0) frozenParked = .next t ∧ (t.wave 64).slots = [] ∧ ((t.wave 64).lane 0).handler = false :=
  ⟨_, rfl, by decide, by decide⟩

theorem lane_of_one {l : Nat} (h : (1#32).getLsbD l = true) : l = 0 := by
  have only : ∀ j < 32, (1#32).getLsbD j = true → j = 0 := by decide
  exact only l (BitVec.lt_of_getLsbD h) h

/-- Refutes O27: its clause on a failed tag leaves the record of the clk free, and where that record holds the lane frozen by an abort of the
clk, the lane leaves its slot without the trap. -/
theorem not_absentPagesParkAndReplay : ¬ Obligations.AbsentPagesParkAndReplay := by
  unfold Obligations.AbsentPagesParkAndReplay
  rintro ⟨-, resolved⟩
  obtain ⟨-, -, -, fail⟩ := resolved frozenParked 0 0 64 0 1 loadSlot loadTag (by decide) rfl (by decide) (by decide) (by decide) (by decide)
    (by decide) (by decide) (by decide) (by decide) (fun l hl => by cases lane_of_one hl; decide) (by decide) (by decide)
  obtain ⟨t, ht, -, -, took⟩ := fail (fun o e => by cases e) (by decide) (fun l hl => by cases lane_of_one hl; decide)
  obtain ⟨-, -, -, -, handled, -⟩ := took 0 (by decide)
  obtain ⟨u, hu, -, unhandled⟩ := fqresFail_frozen_not_handled
  cases ht.symm.trans hu
  exact absurd (unhandled.symm.trans handled) (by decide)

end Sys2Proof.Machine

/-! # Division, order and LEA -/

namespace Sys2Proof.Machine

/-! ## Instructions of class 0 -/

theorem intWidth_typeOf (t : BitVec 2) : intWidth (typeOf t) = intN t := by
  revert t; decide

theorem wrapInt_eq_ofInt (n : Nat) (i : Int) : wrapInt n i = (BitVec.ofInt n i).toNat := by
  simp [wrapInt, BitVec.toNat_ofInt]

/-- An instruction whose meaning is `arith` of f writes bits [N-1:0] of any function that agrees with f. -/
theorem arith_computes {mk : BitVec 2 → Ops → Instr} {f : Int → Int → Int → Nat → Int} {g : BitVec 2 → Int → Int → Int → Int}
    (meaning : ∀ t o s, exec (mk t o) s = arith (mk t o) t o f s) (agrees : ∀ t x y z, f x y z (intN t) = g t x y z) :
    ComputesInt mk g := by
  intro t o
  let value := fun (rd : Reader) (fld : Fld) => intOf (typeOf t) (rd (tyOf t) fld).toNat
  have computed := alu_computes (sp := intSpans t) (f := fun rd => ⟨wrapInt (intWidth (typeOf t))
    (f (value rd .a) (value rd .b) (value rd .d) (intWidth (typeOf t))), 0⟩) (meaning t o)
  simp only [intWidth_typeOf, agrees, wrapInt_eq_ofInt] at computed
  exact computed

/-- The quotient and the remainder that DIV and REM write (R147). -/
def quotient (x y : Int) : Int := if y = 0 then -1 else x.tdiv y
def remainder (x y : Int) : Int := if y = 0 then x else x.tmod y

/-- The sign of a remainder is the dividend's. -/
theorem tmod_mul_nonneg (x y : Int) : 0 ≤ x.tmod y * x := by
  rcases le_total 0 x with h | h
  · exact mul_nonneg (Int.tmod_nonneg y h) h
  · have negated : 0 ≤ (-x).tmod y := Int.tmod_nonneg y (by omega)
    rw [Int.neg_tmod] at negated
    exact mul_nonneg_of_nonpos_of_nonpos (by omega) h

theorem quotient_remainder {x y : Int} (hy : y ≠ 0) :
    x = quotient x y * y + remainder x y ∧ (remainder x y).natAbs < y.natAbs ∧ 0 ≤ remainder x y * x := by
  simp only [quotient, remainder, if_neg hy]
  exact ⟨(Int.tdiv_mul_add_tmod x y).symm, by
    rw [Int.natAbs_tmod]; exact Nat.mod_lt _ (Int.natAbs_pos.2 hy), tmod_mul_nonneg x y⟩

theorem quotient_remainder_zero (x : Int) : quotient x 0 = -1 ∧ remainder x 0 = x := ⟨if_pos rfl, if_pos rfl⟩

theorem lo32_toNat (x : DWord) : (lo32 x).toNat = x.toNat % 2 ^ 32 := by simp [lo32]

theorem intOf_s32 (x : DWord) : intOf 4 x.toNat = (lo32 x).toInt := by
  rw [BitVec.toInt_eq_toNat_cond, lo32_toNat]
  simp only [intOf, show intWidth 4 = 32 from rfl, show intSigned 4 = true from rfl, Bool.true_and, decide_eq_true_eq]
  split <;> split <;> omega

/-- LEA's sum modulo 2^64 is that of the words (R409). -/
theorem lea_sum (a b : DWord) (k : Nat) :
    wrapInt 64 (a.toNat + intOf 4 b.toNat * 2 ^ k) = (a + ((lo32 b).signExtend 64 <<< k)).toNat := by
  rw [wrapInt_eq_ofInt, intOf_s32, BitVec.ofInt_add, BitVec.ofInt_mul, BitVec.ofInt_natCast, BitVec.ofNat_toNat, BitVec.setWidth_eq,
    BitVec.shiftLeft_eq_mul_twoPow]
  have power : BitVec.ofInt 64 (2 ^ k) = BitVec.twoPow 64 k := by
    rw [show (2 : Int) ^ k = ((2 ^ k : Nat) : Int) by norm_cast, BitVec.ofInt_natCast]
    exact BitVec.eq_of_toNat_eq (by simp)
  rw [power]
  rfl

/-- An opcode of class 0 is its index times 4 plus its type (R121). -/
theorem row_class0 {i : Instr} (k : BitVec 4) (t : BitVec 2) {d : Encoding.Use}
    (h : Encoding.row i = some ⟨0#3 ++ k ++ t, .both, true, d, .code, .code⟩) :
    Encoding.row i = some ⟨BitVec.ofNat 9 (k.toNat * 4 + t.toNat), .both, true, d, .code, .code⟩ := by
  have opcode : ∀ (k : BitVec 4) (t : BitVec 2), 0#3 ++ k ++ t = BitVec.ofNat 9 (k.toNat * 4 + t.toNat) := by decide
  rw [h, opcode]

/-- Settles O2: DIV and REM by `quotient_remainder`, the others by what their meanings compute. -/
theorem integerDivisionAndOrder : Obligations.IntegerDivisionAndOrder := by
  refine ⟨⟨fun t _ => row_class0 9 t rfl, fun t _ => row_class0 10 t rfl, fun t _ => row_class0 11 t rfl, fun t _ => row_class0 12 t rfl,
      fun t _ => row_class0 13 t rfl, fun t _ => row_class0 14 t rfl⟩,
    ⟨quotient, remainder, fun _ _ hy => quotient_remainder hy, quotient_remainder_zero, ?div, ?rem⟩, ?min, ?max, ?clamp, fun t o => ?lea⟩
  case div => exact arith_computes (f := fun x y _ _ => quotient x y) (fun _ _ _ => rfl) fun _ _ _ _ => rfl
  case rem => exact arith_computes (f := fun x y _ _ => remainder x y) (fun _ _ _ => rfl) fun _ _ _ _ => rfl
  case min => exact arith_computes (f := fun x y _ _ => min x y) (fun _ _ _ => rfl) fun _ x y _ => Int.min_def x y
  case max => exact arith_computes (f := fun x y _ _ => max x y) (fun _ _ _ => rfl) fun _ x y _ => Int.max_def x y
  case clamp => exact arith_computes (f := fun lo hi z _ => min (max z lo) hi) (fun _ _ _ => rfl) fun _ _ _ _ => rfl
  case lea =>
    have computed := alu_computes (i := .lea t o) (o := o) (sp := { d := 2, a := 2, b := 1 })
      (f := fun rd => ⟨wrapInt 64 ((rd .n .a).toNat + intOf 4 (rd .w .b).toNat * 2 ^ t.toNat), 0⟩) fun _ => rfl
    simp only [lea_sum] at computed
    exact computed

end Sys2Proof.Machine

/-! # Enabled flags that trap (R155)

The lanes that raise no enabled flag write and go on; then the others take FLOAT. `State.Reached` says what stands between the two,
`State.compute_raises` that both kinds of instruction come to it, a scalar one with no lane that goes on, and `State.Reached.trap` what the
trap makes of it. -/

namespace Sys2Proof.Machine

/-! ## Lanes that trap while others have gone on -/

/-- A trap of some lanes of the executing wave at its instruction: the trap registers and the handler in those lanes, latches, the run, and
nothing else. -/
theorem State.raise_lanes (s : State) (there : (s.waves.find? s.cur.wave).isSome) (thawed : s.cur.frozenLanes = 0) {ls : List Nat} (some : ls ≠ [])
    (handled : s.w.trapvec ≠ 0)
    (can : ∀ l ∈ ls, (s.w.lane l).depth = 0 ∧ (s.w.lane l).live = true ∧ (s.w.lane l).handler = false) (cause : Nat) (info : Nat → Word) (addr : DWord) :
    let t := s.raise s.cur.wave s.cur.mask s.cur.pc (ls.map fun l => { lane := l, cause := cause, info := info l, addr := addr })
    s.Elsewhere t ∧ { t.w with lanes := s.w.lanes, slatch := s.w.slatch, run := s.w.run } = s.w ∧
      ∃ tparent tsibs, ∀ l, { t.w.lane l with latch := (s.w.lane l).latch } =
        if l ∈ ls then (s.w.lane l).enterTrap { lane := l, cause := cause, info := info l, addr := addr } s.cur.pc tparent tsibs s.w.trapvec
        else s.w.lane l := by
  intro t
  obtain ⟨u, raised, outside, others, -, wave, lane⟩ := s.raise_traps s.cur.wave s.cur.mask s.cur.pc
    (ls.map fun l => { lane := l, cause := cause, info := info l, addr := addr }) there thawed (by simpa using some) handled fun r hr => by
      obtain ⟨l, hl, rfl⟩ := List.mem_map.1 hr
      exact can l hl
  obtain ⟨outside', others', wave', lane'⟩ := u.switchPoint_spec s.cur.wave
  have cur : u.cur = s.cur := by have := congrArg State.cur outside; exact this
  have w : t.w = (u.switchPoint s.cur.wave).wave s.cur.wave := by
    show t.wave t.cur.wave = _
    rw [show t = u.switchPoint s.cur.wave from raised, State.switchPoint_wave, cur]
  have names : (ls.map fun l => ({ lane := l, cause := cause, info := info l, addr := addr } : Report)).map (·.lane) = ls := by
    simp only [List.map_map, Function.comp_def, List.map_id']
  rw [names] at lane
  refine ⟨⟨?_, fun k hk => ?_⟩, ?_, s.tparent s.cur.wave, s.w.live &&& ~~~ (s.cur.mask &&& maskOf ls), fun l => ?_⟩
  · rw [show t = u.switchPoint s.cur.wave from raised]
    have first := congrArg (fun x : State => { x with waves := s.waves, cur := s.cur }) outside'
    have last := congrArg (fun x : State => { x with waves := s.waves, cur := s.cur }) outside
    exact first.trans last
  · rw [show t = u.switchPoint s.cur.wave from raised, others' k hk, others k hk]
  · rw [w]
    have first := congrArg (fun x : Wave => { x with lanes := s.w.lanes, slatch := s.w.slatch, run := s.w.run }) wave'
    have last := congrArg (fun x : Wave => { x with lanes := s.w.lanes, slatch := s.w.slatch, run := s.w.run }) wave
    exact first.trans last
  · have entered := lane l
    rw [trapped_lanes] at entered
    rw [w]
    refine (congrArg (fun x : Lane => { x with latch := (s.w.lane l).latch }) ((lane' l).trans entered)).trans ?_
    split <;> rfl

/-! ## The lanes that go on -/

/-- a is s once an instruction has raised its flags and the lanes `goes` have their results and have gone on past it. -/
structure State.Reached (s a : State) (i : Instr) (o : Ops) (n : Nat) (goes : Nat → Prop) (val : Nat → Nat) (fl : Flags) : Prop where
  elsewhere : s.Elsewhere a
  wave : a.cur.wave = s.cur.wave
  pc : a.cur.pc = s.cur.pc
  thawed : a.cur.frozenLanes = 0
  there : (a.waves.find? a.cur.wave).isSome
  trapvec : a.w.trapvec = s.w.trapvec
  sregs : a.w.s = s.w.s
  fcsr : a.w.fcsr = s.w.fcsr ||| fl.zeroExtend 32
  lane : ∀ l, (s.w.lane l).Kept (a.w.lane l)
  wrote : ∀ l, goes l → ∀ r, (a.w.lane l).reg r =
    if nwOf i = false ∧ inSpan s.pre.vb o.d n r then wordAt (val l) (r - (s.pre.vb + o.d.toNat)) else (s.w.lane l).reg r
  next : ∀ l, goes l → (a.w.lane l).pc = s.nextPc ∧ (a.w.lane l).life = .ready
  stays : ∀ l, ¬ goes l → (a.w.lane l).reg = (s.w.lane l).reg ∧ (a.w.lane l).pc = (s.w.lane l).pc ∧ (a.w.lane l).life = (s.w.lane l).life

/-- Of the record of the clk raising flags changes what has been raised in it alone. -/
theorem State.raiseFlags_cur (s : State) (fl : Flags) : { (s.raiseFlags s.cur.wave fl).cur with raised := s.cur.raised } = s.cur := by
  simp only [State.raiseFlags, State.modWave_cur, ↓reduceIte]

/-- After its checks an instruction raises its flags, some lanes of the group write, and these go on. -/
theorem State.Clear.reached {s : State} {i : Instr} {sp : Spans} (h : s.Clear i sp) (o : Ops) (n : Nat) {ls : List Nat} (nodup : ls.Nodup)
    (group : ∀ l ∈ ls, s.mask.getLsbD l = true) (val : Nat → Nat) (fl : Flags) :
    s.Reached ((ls.foldl (fun s l => s.dstLane i o l n (val l)) ((s.begun i sp).raiseFlags (s.begun i sp).cur.wave fl)).advance (maskOf ls))
      i o n (· ∈ ls) val fl := by
  obtain ⟨soft, pre⟩ := State.begun_soft h
  have begun := h.group_begun
  obtain ⟨relsewhere, rcur, rthere, rw_eq⟩ := (s.begun i sp).raiseFlags_spec fl begun.wave
  generalize (s.begun i sp).raiseFlags (s.begun i sp).cur.wave fl = r at *
  have rwave : r.cur.wave = (s.begun i sp).cur.wave := by have := congrArg Cur.wave rcur; exact this
  have rpre : r.cur.pre = some s.pre := by have := congrArg Cur.pre rcur; exact Eq.trans this pre
  have rthere : (r.waves.find? r.cur.wave).isSome := by rw [rwave]; exact rthere
  have rthawed : r.cur.frozenLanes = 0 := by have := congrArg Cur.frozenLanes rcur; exact Eq.trans this begun.frozenLanes
  have has : ∀ l ∈ ls, (r.w.lanes.find? l).isSome = true := fun l hl => by
    rw [rw_eq]; exact begun.lanes l (by rw [soft.mask_eq]; exact group l hl)
  have wrote := State.dstLanes_wrote i o n val ls r rthere has
    (by have := congrArg Cur.frozen rcur; exact Eq.trans this begun.frozen) rthawed (by rw [rpre]; rfl) nodup
  rw [show r.pre = s.pre by simp only [State.pre, rpre, Option.getD_some]] at wrote
  generalize ls.foldl (fun s l => s.dstLane i o l n (val l)) r = d at *
  have dthere : (d.waves.find? d.cur.wave).isSome := by rw [wrote.there]; exact rthere
  have dthawed : d.cur.frozenLanes = 0 := wrote.frozen.2.1.trans rthawed
  have dwave : d.cur.wave = s.cur.wave := wrote.wave.trans (rwave.trans soft.wave)
  have dpc : d.cur.pc = s.cur.pc := by
    have last := congrArg Cur.pc wrote.cur
    have first := congrArg Cur.pc rcur
    exact (Eq.trans last first).trans soft.pc
  have dnext : d.nextPc = s.nextPc := by
    have last := congrArg Cur.len wrote.cur
    have first := congrArg Cur.len rcur
    have len : d.cur.len = s.cur.len := (Eq.trans last first).trans soft.len
    simp only [State.nextPc, dpc, len]
  have became := (State.Becomes.refl dthere).advance dthawed (maskOf ls)
  have aw := became.w_eq
  rw [dnext] at aw
  have lane : ∀ l, (d.advance (maskOf ls)).w.lane l =
      if l ∈ ls then { d.w.lane l with pc := s.nextPc, life := .ready } else d.w.lane l := fun l => by
    have bit : (maskOf ls).getLsbD l = true ↔ l ∈ ls := by
      rw [maskOf_lanesOf_bit]
      simp only [Bool.and_eq_true, decide_eq_true_eq, List.contains_iff_mem, and_iff_right_iff_imp]
      exact fun hl => BitVec.lt_of_getLsbD (group l hl)
    rw [aw, Wave.lane_sendTo fun l hl => by
      rw [maskOf_lanesOf_bit] at hl
      rw [wrote.find]
      exact has l (by simpa using (Bool.and_eq_true_iff.1 hl).2)]
    simp only [bit]
  have rlane : ∀ l, r.w.lane l = (s.begun i sp).w.lane l := fun l => by rw [rw_eq]; rfl
  have rreg : ∀ l x, (r.w.lane l).reg x = (s.w.lane l).reg x := fun l x => by
    rw [rlane]; simp only [Lane.reg, (soft.lane l).2.2.1]
  have dlane : ∀ l, { d.w.lane l with v := (r.w.lane l).v, latch := (r.w.lane l).latch } = (s.begun i sp).w.lane l := fun l => by
    rw [wrote.lane l, rlane]
  refine ⟨?_, ?_, ?_, ?_, ?_, ?_, ?_, ?_, fun l => ?_, fun l hl x => ?_, fun l hl => ?_, fun l hl => ?_⟩
  · exact ((soft.elsewhere.trans soft.wave relsewhere).trans (rwave.trans soft.wave) wrote.elsewhere).trans dwave
      ⟨congrArg (fun x : State => { x with cur := d.cur }) became.outside, became.others⟩
  · rw [became.cur]; exact dwave
  · rw [became.cur]; exact dpc
  · rw [became.cur]; exact dthawed
  · rw [became.cur, became.wave]; rfl
  · have last := congrArg Wave.trapvec wrote.kept
    have first := congrArg Wave.trapvec soft.kept
    rw [aw]
    exact (Eq.trans last (by rw [rw_eq])).trans first
  · rw [aw]; exact wrote.sregs.trans (by rw [rw_eq]; exact soft.sregs)
  · rw [aw]; exact wrote.fcsr.trans (by rw [rw_eq, ← soft.fcsr])
  · have same := congrArg (fun x : Lane => { x with
      pc := ((s.begun i sp).w.lane l).pc, life := ((s.begun i sp).w.lane l).life, v := ((s.begun i sp).w.lane l).v,
      latch := ((s.begun i sp).w.lane l).latch }) (dlane l)
    refine (soft.lane l).2.1.trans ?_
    rw [lane]
    split <;> exact same
  · rw [lane, if_pos hl]
    refine (wrote.reg l x).trans ?_
    rw [rreg]
    simp [hl, inSpan]
  · rw [lane, if_pos hl]; exact ⟨rfl, rfl⟩
  · have pc := congrArg Lane.pc (dlane l)
    have life := congrArg Lane.life (dlane l)
    rw [lane, if_neg hl]
    exact ⟨funext fun x => by rw [wrote.reg, rreg]; simp [hl], Eq.trans pc (soft.lanePc l), Eq.trans life (soft.life l)⟩

/-! ## The trap -/

/-- The enabled flags that an act of an instruction raises. -/
def State.hit (s : State) (o : Ops) (f : Nat → FRes) (l : Nat) : Flags := (f (if o.s then 0 else l)).flags &&& fcsrEn s.pre.fcsr

/-- The lanes of the group that raise no enabled flag, and those that do. -/
def State.unhit (s : State) (o : Ops) (f : Nat → FRes) : List Nat := (lanesOf s.mask).filter fun l => s.hit o f l == 0
def State.struck (s : State) (o : Ops) (f : Nat → FRes) : List Nat := (lanesOf s.mask).filter fun l => s.hit o f l != 0

theorem State.mem_unhit {s : State} {o : Ops} {f : Nat → FRes} {l : Nat} : l ∈ s.unhit o f ↔ s.mask.getLsbD l = true ∧ s.hit o f l = 0 := by
  simp [State.unhit, mem_lanesOf]

theorem State.mem_struck {s : State} {o : Ops} {f : Nat → FRes} {l : Nat} : l ∈ s.struck o f ↔ s.mask.getLsbD l = true ∧ s.hit o f l ≠ 0 := by
  simp [State.struck, mem_lanesOf]

/-- The lanes that raise enabled flags trap once the others have written and gone on. -/
theorem State.compute_raises (s : State) (i : Instr) (o : Ops) (n : Nat) (f : Nat → FRes) (thawed : s.cur.frozenLanes = 0)
    (some : ∃ l, l ∈ s.struck o f) :
    s.compute i o n f =
      let a := ((s.unhit o f).foldl (fun s l => s.dstLane i o l n (f l).bits) (s.raiseFlags s.cur.wave (flagsOf (s.acts o) f))).advance (maskOf (s.unhit o f))
      a.raise a.cur.wave a.cur.mask a.cur.pc
        ((s.struck o f).map fun l => { lane := l, cause := 0x17, info := (s.hit o f l).zeroExtend 32, addr := 0 }) := by
  obtain ⟨l, hl⟩ := some
  cases ho : o.s with
  | true =>
    have every : ∀ l, s.hit o f l = (f 0).flags &&& fcsrEn s.pre.fcsr := fun l => by simp only [State.hit, ho, ↓reduceIte]
    have raised : (f 0).flags &&& fcsrEn s.pre.fcsr ≠ 0 := by rw [← every l]; exact (State.mem_struck.1 hl).2
    have none : s.unhit o f = [] := List.filter_eq_nil_iff.2 fun l _ => by simpa [every] using raised
    have all : s.struck o f = lanesOf s.mask := List.filter_eq_self.2 fun l _ => by simpa [every] using raised
    have flags : flagsOf (s.acts o) f = (f 0).flags := by simp [State.acts, ho, flagsOf]
    have still : (s.raiseFlags s.cur.wave (f 0).flags).cur.frozenLanes = 0 := by
      have := congrArg Cur.frozenLanes (s.raiseFlags_cur (f 0).flags); exact Eq.trans this thawed
    have mask : (s.raiseFlags s.cur.wave (f 0).flags).mask = s.mask := by have := congrArg Cur.mask (s.raiseFlags_cur (f 0).flags); exact this
    simp only [State.compute, ho, ↓reduceIte, ne_eq, raised, not_false_eq_true, none, all, flags, every, List.foldl_nil, maskOf,
      State.advance_none _ still, State.fault, mask]
  | false =>
    have every : ∀ l, s.hit o f l = (f l).flags &&& fcsrEn s.pre.fcsr := fun l => by
      simp only [State.hit, ho, Bool.false_eq_true, ↓reduceIte]
    have acts : s.acts o = lanesOf s.mask := by simp only [State.acts, ho, Bool.false_eq_true, ↓reduceIte]
    have traps : (((lanesOf s.mask).map fun l => (l, f l)).filter fun r => r.2.flags &&& fcsrEn s.pre.fcsr != 0) =
        (s.struck o f).map fun l => (l, f l) := by
      simp only [List.filter_map, State.struck, every, Function.comp_def]
    have goes : (((lanesOf s.mask).map fun l => (l, f l)).filter fun r => r.2.flags &&& fcsrEn s.pre.fcsr == 0) =
        (s.unhit o f).map fun l => (l, f l) := by
      simp only [List.filter_map, State.unhit, every, Function.comp_def]
    have more : (s.struck o f).isEmpty = false := by rw [List.isEmpty_eq_false_iff]; exact List.ne_nil_of_mem hl
    simp only [State.compute, ho, Bool.false_eq_true, ↓reduceIte, traps, goes, List.isEmpty_map, more, List.map_map, List.foldl_map,
      Function.comp_def, List.map_id', every, flagsOf, acts]

/-- What the trap makes of the state that the other lanes have reached: the conclusion of `FlagsTrap`. -/
theorem State.Reached.trap {s a : State} {i : Instr} {o : Ops} {n : Nat} {f : Nat → FRes} {fl : Flags}
    (reached : s.Reached a i o n (· ∈ s.unhit o f) (fun l => (f l).bits) fl) (group : s.Group) (can : s.CanTrap) (some : ∃ l, l ∈ s.struck o f) :
    let t := a.raise a.cur.wave a.cur.mask a.cur.pc
      ((s.struck o f).map fun l => { lane := l, cause := 0x17, info := (s.hit o f l).zeroExtend 32, addr := 0 })
    s.Outside t ∧ (∀ k, k ≠ s.cur.wave → t.waves.find? k = s.waves.find? k) ∧
      (∀ l, l ∈ s.struck o f →
        (t.w.lane l).pc = s.w.trapvec ∧ (t.w.lane l).handler = true ∧ (t.w.lane l).life = .ready ∧ (t.w.lane l).tcause = 0x17 ∧
        (t.w.lane l).tinfo = (s.hit o f l).zeroExtend 32 ∧ (t.w.lane l).taddr = 0 ∧ (t.w.lane l).tpc = s.cur.pc ∧
        ∀ x, (t.w.lane l).reg x = (s.w.lane l).reg x) ∧
      (∀ l, l ∈ s.unhit o f → (t.w.lane l).pc = s.nextPc ∧ (t.w.lane l).life = .ready ∧ (t.w.lane l).handler = false ∧
        ∀ x, (t.w.lane l).reg x =
          if nwOf i = false ∧ inSpan s.pre.vb o.d n x then wordAt (f l).bits (x - (s.pre.vb + o.d.toNat)) else (s.w.lane l).reg x) ∧
      (∀ l, s.mask.getLsbD l = false → (t.w.lane l).reg = (s.w.lane l).reg ∧ (t.w.lane l).pc = (s.w.lane l).pc ∧
        (t.w.lane l).life = (s.w.lane l).life) ∧
      (∀ m, t.w.sreg m = s.w.sreg m) ∧ t.w.fcsr = s.w.fcsr ||| fl.zeroExtend 32 := by
  intro t
  have apart : ∀ l, l ∈ s.struck o f → l ∉ s.unhit o f := fun l hl hn => (State.mem_struck.1 hl).2 (State.mem_unhit.1 hn).2
  have same : ∀ l, (a.w.lane l).depth = (s.w.lane l).depth ∧ (a.w.lane l).handler = (s.w.lane l).handler := fun l => by
    have depth := congrArg Lane.depth (reached.lane l)
    have handler := congrArg Lane.handler (reached.lane l)
    exact ⟨depth, handler⟩
  obtain ⟨elsewhere, wave, tparent, tsibs, lane⟩ := a.raise_lanes reached.there reached.thawed (let ⟨_, hl⟩ := some; List.ne_nil_of_mem hl)
    (by rw [reached.trapvec]; exact can.1) (fun l hl => by
      obtain ⟨hm, -⟩ := State.mem_struck.1 hl
      obtain ⟨-, -, life⟩ := reached.stays l (apart l hl)
      obtain ⟨depth, handler⟩ := same l
      rw [depth, handler, Lane.live, life, group.ready l hm]
      exact ⟨(can.2 l hm).1, rfl, (can.2 l hm).2⟩) 0x17 (fun l => (s.hit o f l).zeroExtend 32) 0
  have outside := reached.elsewhere.trans reached.wave elsewhere
  have struck : ∀ l, l ∈ s.struck o f → ∃ latch, t.w.lane l = { (a.w.lane l).enterTrap
      { lane := l, cause := 0x17, info := (s.hit o f l).zeroExtend 32, addr := 0 } a.cur.pc tparent tsibs a.w.trapvec with latch := latch } := fun l hl => by
    have entered := lane l
    rw [if_pos hl] at entered
    exact ⟨_, congrArg (fun x : Lane => { x with latch := (t.w.lane l).latch }) entered⟩
  have others : ∀ l, l ∉ s.struck o f → ∃ latch, t.w.lane l = { a.w.lane l with latch := latch } := fun l hl => by
    have entered := lane l
    rw [if_neg hl] at entered
    exact ⟨_, congrArg (fun x : Lane => { x with latch := (t.w.lane l).latch }) entered⟩
  refine ⟨outside.1, outside.2, fun l hl => ?_, fun l hl => ?_, fun l hl => ?_, fun m => ?_, ?_⟩
  · obtain ⟨latch, entered⟩ := struck l hl
    obtain ⟨reg, -, -⟩ := reached.stays l (apart l hl)
    rw [entered]
    exact ⟨reached.trapvec, rfl, rfl, rfl, rfl, rfl, reached.pc, congrFun reg⟩
  · obtain ⟨latch, went⟩ := others l fun h => apart l h hl
    obtain ⟨pc, life⟩ := reached.next l hl
    rw [went]
    exact ⟨pc, life, (same l).2.trans (can.2 l (State.mem_unhit.1 hl).1).2, reached.wrote l hl⟩
  · obtain ⟨latch, still⟩ := others l fun h => by simp [(State.mem_struck.1 h).1] at hl
    rw [still]
    exact reached.stays l fun h => by simp [(State.mem_unhit.1 h).1] at hl
  · have file := congrArg Wave.s wave
    exact congrArg (Tbl.get · m 0) (Eq.trans file reached.sregs)
  · have fcsr := congrArg Wave.fcsr wave
    exact Eq.trans fcsr reached.fcsr

/-- In a scalar instruction all lanes of the group are struck where one is. -/
theorem State.vector_of_unhit {s : State} {o : Ops} {f : Nat → FRes} {l k : Nat} (unhit : l ∈ s.unhit o f) (struck : k ∈ s.struck o f) :
    o.s = false := by
  refine eq_false_of_ne_true fun ho => (State.mem_struck.1 struck).2 ?_
  have none := (State.mem_unhit.1 unhit).2
  simpa only [State.hit, ho, ↓reduceIte] using none

/-- An instruction completes with what it computes in each act, where no act raises an enabled flag. -/
theorem computes_of_run {i : Instr} {o : Ops} {sp : Spans} {f : State → Nat → FRes} {g : State → State → Nat → FRes}
    (meaning : ∀ s, exec i s = .next (s.run i sp fun b => b.compute i o sp.d (g s b))) (same : ∀ s, s.Clear i sp → g s (s.begun i sp) = f s) :
    Computes i o sp f := fun s h quiet =>
  ⟨_, meaning s, by rw [State.run_clear h, same s h]; exact State.compute_result h _ quiet⟩

/-- An instruction that computes `f` in each act traps where some acts raise an enabled flag. -/
theorem computes_flagsTrap {i : Instr} {o : Ops} {sp : Spans} {f : State → Nat → FRes} {g : State → State → Nat → FRes}
    (meaning : ∀ s, exec i s = .next (s.run i sp fun b => b.compute i o sp.d (g s b))) (same : ∀ s, s.Clear i sp → g s (s.begun i sp) = f s) :
    FlagsTrap i o sp f := by
  intro s h can r hit ⟨k, hk, raised⟩
  obtain ⟨soft, -⟩ := State.begun_soft h
  have hits : ∀ l, (s.begun i sp).hit o (f s) l = hit l := fun l => by simp only [State.hit, State.begun_pre h, hit, r]
  have some : k ∈ s.struck o (f s) := State.mem_struck.2 ⟨hk, raised⟩
  have struck : (s.begun i sp).struck o (f s) = s.struck o (f s) := by simp only [State.struck, State.hit, State.begun_pre h, soft.mask_eq]
  have unhit : (s.begun i sp).unhit o (f s) = s.unhit o (f s) := by simp only [State.unhit, State.hit, State.begun_pre h, soft.mask_eq]
  have acts : (s.begun i sp).acts o = s.acts o := by simp only [State.acts, soft.mask_eq]
  have reached := h.reached o sp.d (ls := s.unhit o (f s)) ((lanesOf_nodup s.mask).filter _) (fun l hl => (State.mem_unhit.1 hl).1)
    (fun l => (f s l).bits) (flagsOf (s.acts o) (f s))
  obtain ⟨outside, others, hitLanes, goLanes, rest, sregs, fcsr⟩ := reached.trap h.toGroup can ⟨k, some⟩
  have computed := (s.begun i sp).compute_raises i o sp.d (f s) h.group_begun.frozenLanes ⟨k, struck ▸ some⟩
  rw [struck, unhit, acts] at computed
  simp only [hits] at computed
  refine ⟨_, ?_, outside, others, fun l hl hne => hitLanes l (State.mem_struck.2 ⟨hl, hne⟩), fun l hl h0 => ?_, rest, sregs, fcsr⟩
  · rw [meaning, State.run_clear h, same s h, computed]
    rfl
  · have gone := State.mem_unhit.2 ⟨hl, h0⟩
    have value : r l = f s l := by simp only [r, State.vector_of_unhit gone some, Bool.false_eq_true, ↓reduceIte]
    rw [value]
    exact goLanes l gone

/-- An instruction on the operands of an act, which may also look at the state before its checks. -/
theorem alu_flagsTrap {i : Instr} {o : Ops} {sp : Spans} {f : State → Reader → FRes} (meaning : ∀ s, exec i s = alu i o sp (f s) s) :
    FlagsTrap i o sp fun s l => f s (reader s.pre o l) :=
  computes_flagsTrap meaning fun s h => by simp only [State.begun_pre h]

/-! ## Class 2, conversions and dot products -/

theorem float_traps {mk : BitVec 2 → Ops → Instr} {op : FEnv → Fmt → Nat → Nat → Nat → FRes}
    (meaning : ∀ f o s, exec (mk f o) s = float (mk f o) f o op s) : TrapsFloat mk op := fun f o =>
  alu_flagsTrap (sp := floatSpans f) (f := fun s rd => perElement (2 ≤ f.toNat) (op (arithEnv s.pre.fcsr) (fmtOf f))
    (rd (tyF f) .a).toNat (rd (tyF f) .b).toNat (rd (tyF f) .d).toNat) (meaning f o)

theorem fcmp_traps (c f : BitVec 2) (o : Ops) : FlagsTrap (.fcmp c f o) o { d := 1, a := (tyF f).regs, b := (tyF f).regs } fun s l =>
    perElement (2 ≤ f.toNat) (fun a b _ =>
        ⟨if (fCmp c.toNat (arithEnv s.pre.fcsr) (fmtOf f) a b).1 then (if 2 ≤ f.toNat then 0xFFFF else 0xFFFFFFFF) else 0,
          (fCmp c.toNat (arithEnv s.pre.fcsr) (fmtOf f) a b).2⟩)
      (reader s.pre o l (tyF f) .a).toNat (reader s.pre o l (tyF f) .b).toNat 0 := by
  exact alu_flagsTrap (f := fun s rd => perElement (2 ≤ f.toNat) (fun a b _ =>
        ⟨if (fCmp c.toNat (arithEnv s.pre.fcsr) (fmtOf f) a b).1 then (if 2 ≤ f.toNat then 0xFFFF else 0xFFFFFFFF) else 0,
          (fCmp c.toNat (arithEnv s.pre.fcsr) (fmtOf f) a b).2⟩) (rd (tyF f) .a).toNat (rd (tyF f) .b).toNat 0) fun s => by
    show execFcmp c f o s = _
    simp only [execFcmp, decide_eq_true_eq]

theorem cvt_traps (src : BitVec 4) (o : Ops) :
    FlagsTrap (.cvt src o) o { d := (tyOfType (o.b.extractLsb' 3 4).toNat).regs, a := (tyOfType src.toNat).regs, b := 1 } fun s l =>
      convert src.toNat (o.b.extractLsb' 3 4).toNat (o.b.getLsbD 2) (roundField s.pre.fcsr (o.b.extractLsb' 0 2).toNat)
        (fcsrFtz s.pre.fcsr) (reader s.pre o l (tyOfType src.toNat) .a).toNat :=
  alu_flagsTrap (f := fun s rd => convert src.toNat (o.b.extractLsb' 3 4).toNat (o.b.getLsbD 2)
    (roundField s.pre.fcsr (o.b.extractLsb' 0 2).toNat) (fcsrFtz s.pre.fcsr) (rd (tyOfType src.toNat) .a).toNat) fun _ => rfl

theorem frnd_traps (o : Ops) : let t := (o.b.extractLsb' 3 4).toNat
    FlagsTrap (.frnd o) o { d := (tyOfType t).regs, a := (tyOfType t).regs, b := 1 } fun s l =>
      perElement (t == 8 || t == 9)
        (fun a _ _ => fRnd (fmtOfType t) (roundField s.pre.fcsr (o.b.extractLsb' 0 2).toNat) (fcsrFtz s.pre.fcsr) a)
        (reader s.pre o l (tyOfType t) .a).toNat 0 0 :=
  let t := (o.b.extractLsb' 3 4).toNat
  alu_flagsTrap (f := fun s rd => perElement (t == 8 || t == 9)
    (fun a _ _ => fRnd (fmtOfType t) (roundField s.pre.fcsr (o.b.extractLsb' 0 2).toNat) (fcsrFtz s.pre.fcsr) a)
    (rd (tyOfType t) .a).toNat 0 0) fun _ => rfl

theorem decodeF_f32_low (d : Nat) : decodeF Fmt.f32 (d % 2 ^ 32) = decodeF Fmt.f32 d := by
  have fraction : d % 2 ^ 32 % 2 ^ 23 = d % 2 ^ 23 := by omega
  have exponent : d % 2 ^ 32 / 2 ^ 23 % 2 ^ 8 = d / 2 ^ 23 % 2 ^ 8 := by omega
  have sign : d % 2 ^ 32 / 2 ^ (23 + 8) % 2 = d / 2 ^ (23 + 8) % 2 := by omega
  have other : Fmt.f32 ≠ Fmt.e2m1 ∧ Fmt.f32 ≠ Fmt.e4m3 := by decide
  have sizes : Fmt.f32.mb = 23 ∧ Fmt.f32.eb = 8 := ⟨rfl, rfl⟩
  simp only [decodeF, other, false_and, ↓reduceIte, sizes, fraction, exponent, sign]

/-- Elements that lie in the low 32 bits are those of the low 32 bits. -/
theorem element_low (x : Nat) {w i : Nat} (h : w * i + w ≤ 32) : x % 2 ^ 32 / 2 ^ (w * i) % 2 ^ w = x / 2 ^ (w * i) % 2 ^ w := by
  obtain ⟨k, hk⟩ := Nat.exists_eq_add_of_le h
  rw [hk, Nat.pow_add, Nat.pow_add, Nat.mul_assoc, Nat.mod_mul_right_div_self, Nat.mod_mul_right_mod]

/-- A dot product reads the low 32 bits of its operands. -/
theorem dotFloat_low (m : Fmt) {w n : Nat} (ftz : Bool) (a b d : Nat) (h : w * n ≤ 32) :
    dotFloat m w n ftz (a % 2 ^ 32) (b % 2 ^ 32) (d % 2 ^ 32) = dotFloat m w n ftz a b d := by
  have products : ((List.range n).map fun i => (decodeF m (a % 2 ^ 32 / 2 ^ (w * i) % 2 ^ w)).mul (decodeF m (b % 2 ^ 32 / 2 ^ (w * i) % 2 ^ w))) =
      (List.range n).map fun i => (decodeF m (a / 2 ^ (w * i) % 2 ^ w)).mul (decodeF m (b / 2 ^ (w * i) % 2 ^ w)) := by
    refine List.map_congr_left fun i hi => ?_
    have inside : w * i + w ≤ 32 := by
      have := Nat.mul_le_mul_left w (Nat.succ_le_of_lt (List.mem_range.1 hi))
      rw [Nat.mul_succ] at this
      omega
    rw [element_low a inside, element_low b inside]
  simp only [dotFloat, products, decodeF_f32_low]

/-- A dot product into f32 of elements of one format. -/
theorem dotFloat_traps {i : Instr} {o : Ops} {m : Fmt} {w n : Nat} (small : w * n ≤ 32)
    (meaning : ∀ s, exec i s = dot i o (fun a b d => dotFloat m w n (fcsrFtz s.pre.fcsr) a b d) s) :
    FlagsTrap i o { d := 1, a := 1, b := 1 } fun s l =>
      dotFloat m w n (fcsrFtz s.pre.fcsr) (s.word o l .a).toNat (s.word o l .b).toNat (s.word o l .d).toNat := by
  have traps := alu_flagsTrap (i := i) (o := o) (sp := { d := 1, a := 1, b := 1 })
    (f := fun s rd => dotFloat m w n (fcsrFtz s.pre.fcsr) (rd .w .a).toNat (rd .w .b).toNat (rd .w .d).toNat) meaning
  simp only [State.word, lo32_toNat, dotFloat_low _ _ _ _ _ small]
  exact traps

/-- The floating dot products. -/
theorem dots_trap (i : Instr) (o : Ops) (m : Fmt) (w n : Nat) (member : (i, m, w, n) ∈ [(.dot2 true o, Fmt.f16, 16, 2), (.dot2 false o, Fmt.bf16, 16, 2),
      (.dot4 2 o, Fmt.e4m3, 8, 4), (.dot4 3 o, Fmt.e5m2, 8, 4), (.dot8 o, Fmt.e2m1, 4, 8)]) :
    FlagsTrap i o { d := 1, a := 1, b := 1 } fun s l =>
      dotFloat m w n (fcsrFtz s.pre.fcsr) (s.word o l .a).toNat (s.word o l .b).toNat (s.word o l .d).toNat := by
  simp only [List.mem_cons, List.not_mem_nil, or_false, Prod.mk.injEq] at member
  obtain ⟨rfl, rfl, rfl, rfl⟩ | ⟨rfl, rfl, rfl, rfl⟩ | ⟨rfl, rfl, rfl, rfl⟩ | ⟨rfl, rfl, rfl, rfl⟩ | ⟨rfl, rfl, rfl, rfl⟩ := member
  · exact dotFloat_traps (by decide) fun _ => rfl
  · exact dotFloat_traps (by decide) fun _ => rfl
  · exact dotFloat_traps (by decide) fun _ => rfl
  · exact dotFloat_traps (by decide) fun _ => rfl
  · exact dotFloat_traps (by decide) fun _ => rfl

/-! ## Reductions -/

/-- The result of a reduction in lane l of a group, as `reduce` computes it. -/
def reduceOf (o : Ops) (int : List (Nat × Int) → BitVec 32 → Nat → Int) (flt : FEnv → Fmt → (Nat → Nat) → BitVec 32 → Nat → FRes)
    (env : FEnv) (w : Wave) (m : BitVec 32) (l : Nat) : FRes :=
  let a := fun x => (laneReader w x o (redTy o) .a).toNat
  if redType o < 8 then ⟨wrapInt (intWidth (redType o)) (int ((lanesOf m).map fun x => (x, intOf (redType o) (a x))) m l), 0⟩
  else if redType o = 10 then flt env Fmt.f32 a m l
  else
    let lo := flt env (fmtOfType (redType o)) (fun x => a x % 65536) m l
    let hi := flt env (fmtOfType (redType o)) (fun x => a x / 65536) m l
    ⟨lo.bits + hi.bits * 65536, lo.flags ||| hi.flags⟩

theorem reduce_settles {i : Instr} {o : Ops} {int : List (Nat × Int) → BitVec 32 → Nat → Int}
    {flt : FEnv → Fmt → (Nat → Nat) → BitVec 32 → Nat → FRes} (meaning : ∀ s, exec i s = reduce i o int flt s) :
    ∃ f, Computes i o { d := (redTy o).regs, a := (redTy o).regs, b := 1 } f ∧ FlagsTrap i o { d := (redTy o).regs, a := (redTy o).regs, b := 1 } f := by
  let sp : Spans := { d := (redTy o).regs, a := (redTy o).regs, b := 1 }
  let g := fun s b : State => reduceOf o int flt { mode := 0, ftz := fcsrFtz s.pre.fcsr } b.pre b.mask
  have runs : ∀ s, exec i s = .next (s.run i sp fun b => b.compute i o sp.d (g s b)) := meaning
  have same : ∀ s, s.Clear i sp → g s (s.begun i sp) = g s s := fun s h => by
    simp only [g, State.begun_pre h, (State.begun_soft h).1.mask_eq]
  exact ⟨fun s => g s s, computes_of_run runs same, computes_flagsTrap runs same⟩

theorem reductions_settle (i : Instr) (o : Ops) (member : i ∈ [Instr.reda o, Instr.redm o, Instr.scana o]) :
    ∃ f, Computes i o { d := (redTy o).regs, a := (redTy o).regs, b := 1 } f ∧
      FlagsTrap i o { d := (redTy o).regs, a := (redTy o).regs, b := 1 } f := by
  simp only [List.mem_cons, List.not_mem_nil, or_false] at member
  obtain rfl | rfl | rfl := member
  · exact reduce_settles fun s => (by show execReda o s = _; unfold execReda; rfl)
  · exact reduce_settles fun s => (by show execRedm o s = _; unfold execRedm; rfl)
  · exact reduce_settles fun s => (by show execScana o s = _; unfold execScana; rfl)

/-- Settles O8: every one of these instructions computes a result in each act, so that `computes_flagsTrap` says what its traps do. -/
theorem enabledFlagTraps : Obligations.EnabledFlagTraps :=
  ⟨float_traps fun _ _ _ => rfl, float_traps fun _ _ _ => rfl, float_traps fun _ _ _ => rfl, float_traps fun _ _ _ => rfl,
    float_traps fun _ _ _ => rfl, float_traps fun _ _ _ => rfl, float_traps fun _ _ _ => rfl, float_traps fun _ _ _ => rfl,
    float_traps fun _ _ _ => rfl, float_traps fun _ _ _ => rfl, float_traps fun _ _ _ => rfl, float_traps fun _ _ _ => rfl,
    fcmp_traps, cvt_traps, frnd_traps, dots_trap, reductions_settle⟩

end Sys2Proof.Machine

/-! # Rounding to multiples of a power of two (R152)

A magnitude is a real number, for a square root is none of the rationals. `roundAt_rounds` says what `roundAt` makes of it in units of the
power of two that it rounds to. -/

namespace Sys2Proof.Machine

/-! ## Lengths and powers -/

theorem bitLen_bounds {m : Nat} (h : m ≠ 0) : 2 ^ (bitLen m - 1) ≤ m ∧ m < 2 ^ bitLen m ∧ 0 < bitLen m := by
  simp only [bitLen, if_neg h, Nat.add_sub_cancel]
  exact ⟨Nat.log2_self_le h, Nat.lt_log2_self, Nat.succ_pos _⟩

theorem lt_bitLen {m l : Nat} (h : 2 ^ l ≤ m) : l < bitLen m := by
  have positive : m ≠ 0 := by have := Nat.two_pow_pos l; omega
  exact (Nat.pow_lt_pow_iff_right (by norm_num)).1 (h.trans_lt (bitLen_bounds positive).2.1)

theorem bitLen_eq {m l : Nat} (h : 2 ^ l ≤ m) (h' : m < 2 ^ (l + 1)) : bitLen m = l + 1 := by
  have positive : m ≠ 0 := by have := Nat.two_pow_pos l; omega
  obtain ⟨low, -, -⟩ := bitLen_bounds positive
  have := (Nat.pow_lt_pow_iff_right (by norm_num)).1 (low.trans_lt h')
  have := lt_bitLen h
  omega

theorem cast_two_pow_toNat {K : Type*} [Field K] [CharZero K] {k : Int} (h : 0 ≤ k) : ((2 ^ k.toNat : Nat) : K) = 2 ^ k := by
  obtain ⟨n, rfl⟩ := Int.eq_ofNat_of_zero_le h
  simp

theorem two_zpow_pos (k : Int) : (0 : ℝ) < 2 ^ k := zpow_pos (by norm_num) k

theorem leMag_iff (a b : Nat) (e g : Int) : leMag a e b g = true ↔ (a : ℝ) * 2 ^ e ≤ b * 2 ^ g := by
  unfold leMag
  split
  · have power : (2 : ℝ) ^ g = 2 ^ e * 2 ^ (g - e) := by rw [← zpow_add₀ (by norm_num)]; congr 1; omega
    rw [decide_eq_true_eq, ← Nat.cast_le (α := ℝ), Nat.cast_mul, cast_two_pow_toNat (by omega), power,
      show (b : ℝ) * (2 ^ e * 2 ^ (g - e)) = b * 2 ^ (g - e) * 2 ^ e by ring]
    exact (mul_le_mul_iff_of_pos_right (two_zpow_pos e)).symm
  · have power : (2 : ℝ) ^ e = 2 ^ g * 2 ^ (e - g) := by rw [← zpow_add₀ (by norm_num)]; congr 1; omega
    rw [decide_eq_true_eq, ← Nat.cast_le (α := ℝ), Nat.cast_mul, cast_two_pow_toNat (by omega), power,
      show (a : ℝ) * (2 ^ g * 2 ^ (e - g)) = a * 2 ^ (e - g) * 2 ^ g by ring]
    exact (mul_le_mul_iff_of_pos_right (two_zpow_pos g)).symm

/-! ## Rounding -/

/-- Y is m * 2^e or, when sticky, more by less than one unit. -/
structure Magnitude (Y : ℝ) (m : Nat) (e : Int) (sticky : Bool) : Prop where
  exact : sticky = false → Y = m * 2 ^ e
  more : sticky = true → m * 2 ^ e < Y ∧ Y < (m + 1) * 2 ^ e

/-- A magnitude in units of a higher power of two: the whole part, the bits shifted out, and what is below them. -/
theorem Magnitude.parts {Y : ℝ} {m : Nat} {e q : Int} {sticky : Bool} (h : Magnitude Y m e sticky) {s : Nat} (above : e ≤ q) (shift : (q - e).toNat = s + 1) :
    ∃ d : ℝ, Y / 2 ^ q * (2 * 2 ^ s) = (m / 2 ^ (s + 1) : Nat) * (2 * 2 ^ s) + (m % 2 ^ (s + 1) : Nat) + d ∧ 0 ≤ d ∧ d < 1 ∧
      (sticky = false → d = 0) ∧ (sticky = true → 0 < d) := by
  have positive := two_zpow_pos e
  have power : (2 : ℝ) ^ q = 2 ^ e * (2 * 2 ^ s) := by
    rw [show (2 : ℝ) * 2 ^ s = 2 ^ (s + 1) by ring, ← shift, ← zpow_natCast, Int.toNat_of_nonneg (by omega), ← zpow_add₀ (by norm_num)]
    congr 1; omega
  have units : Y / 2 ^ q * (2 * 2 ^ s) = Y / 2 ^ e := by rw [power]; field_simp
  have split : (m : ℝ) = (m / 2 ^ (s + 1) : Nat) * (2 * 2 ^ s) + (m % 2 ^ (s + 1) : Nat) := by
    have := Nat.div_add_mod' m (2 ^ (s + 1))
    rw [show (2 : ℝ) * 2 ^ s = (2 ^ (s + 1) : Nat) by push_cast; ring]
    exact_mod_cast this.symm
  rw [units]
  cases hs : sticky with
  | false => exact ⟨0, by rw [h.exact hs, mul_div_cancel_right₀ _ positive.ne', add_zero]; exact split, le_refl _, one_pos, fun _ => rfl, nofun⟩
  | true =>
    obtain ⟨low, high⟩ := h.more hs
    rw [← lt_div_iff₀ positive] at low
    rw [← div_lt_iff₀ positive] at high
    exact ⟨Y / 2 ^ e - m, by linarith, by linarith, by linarith, nofun, fun _ => by linarith⟩

/-- n is what one of the modes of arithmetic rounds the magnitude z of a number of the sign `neg` to (R152). -/
def RoundsTo (mode : Nat) (neg : Bool) (z : ℝ) (n : Nat) : Prop :=
  if mode = 0 then (n : ℝ) - 1 / 2 ≤ z ∧ z ≤ n + 1 / 2 ∧ (z = n - 1 / 2 ∨ z = n + 1 / 2 → n % 2 = 0)
  else if roundsAway mode neg then (n : ℝ) - 1 < z ∧ z ≤ n
  else (n : ℝ) ≤ z ∧ z < n + 1

/-- The half that a comparison with .lt, .eq or .gt says z lies in, above n. -/
def OnHalf (z : ℝ) (n : Nat) : Ordering → Prop
  | .lt => z < n + 1 / 2
  | .eq => z = n + 1 / 2
  | .gt => n + 1 / 2 < z

/-- `roundAt` takes the floor, or one more where the mode rounds up. -/
theorem roundAt_floor {Y : ℝ} {m : Nat} {e q : Int} {sticky : Bool} (h : Magnitude Y m e sticky) (room : sticky = true → e < q) (mode : Nat) (neg : Bool) :
    ∃ (n : Nat) (c : Ordering) (inexact : Bool), (n : ℝ) ≤ Y / 2 ^ q ∧ Y / 2 ^ q < n + 1 ∧ (inexact = true ↔ Y / 2 ^ q ≠ n) ∧ OnHalf (Y / 2 ^ q) n c ∧
      roundAt mode neg m e q sticky = (if inexact && roundUp mode neg (n % 2 == 1) c then n + 1 else n, inexact) := by
  have positive := two_zpow_pos q
  unfold roundAt
  split
  next le =>
    have clean : sticky = false := by
      cases hs : sticky with
      | false => rfl
      | true => have := room hs; omega
    have value : Y / 2 ^ q = (m * 2 ^ (e - q).toNat : Nat) := by
      rw [div_eq_iff positive.ne', h.exact clean, Nat.cast_mul, cast_two_pow_toNat (by omega), mul_assoc, ← zpow_add₀ (by norm_num)]
      congr 2; omega
    exact ⟨_, .lt, sticky, value.ge, by rw [value]; linarith, by simp [clean, value], by rw [OnHalf, value]; linarith, by simp [clean]⟩
  next gt =>
    obtain ⟨s, hs⟩ : ∃ s : Nat, (q - e).toNat = s + 1 := ⟨(q - e).toNat - 1, by omega⟩
    simp only [hs, Nat.add_sub_cancel]
    obtain ⟨d, parts, nonneg, small, clean, dirty⟩ := h.parts (by omega) hs
    have half : (0 : ℝ) < 2 ^ s := by positivity
    have whole : (2 : ℝ) ^ (s + 1) = 2 * 2 ^ s := by ring
    have low : ((m % 2 ^ (s + 1) : Nat) : ℝ) + 1 ≤ 2 * 2 ^ s := by
      rw [← whole]
      exact_mod_cast Nat.mod_lt m (Nat.two_pow_pos (s + 1))
    refine ⟨m / 2 ^ (s + 1), _, _, ?floor, ?above, ?inexact, ?onHalf, rfl⟩
    all_goals
      generalize Y / 2 ^ q = z at *
      generalize m / 2 ^ (s + 1) = n at *
      generalize m % 2 ^ (s + 1) = r at *
      have rest : 0 ≤ (r : ℝ) := Nat.cast_nonneg r
    case floor => exact le_of_mul_le_mul_right (a := 2 * 2 ^ s) (by linarith) (by linarith)
    case above => exact lt_of_mul_lt_mul_right (a := 2 * 2 ^ s) (by linarith) (by linarith)
    case inexact =>
      have exactly : z = n ↔ (r : ℝ) + d = 0 := by
        rw [← mul_left_inj' (show (2 : ℝ) * 2 ^ s ≠ 0 by positivity)]
        constructor <;> intro h <;> linarith
      rw [ne_eq, exactly, Bool.or_eq_true, bne_iff_ne, ← Nat.cast_ne_zero (R := ℝ)]
      cases hs : sticky with
      | false => simp [clean hs]
      | true =>
        have := dirty hs
        exact ⟨fun _ => by linarith, fun _ => .inr rfl⟩
    case onHalf =>
      split
      next less =>
        have : (r : ℝ) + 1 ≤ 2 ^ s := by exact_mod_cast less
        exact lt_of_mul_lt_mul_right (a := 2 * 2 ^ s) (by linarith) (by linarith)
      next more =>
        have : (2 : ℝ) ^ s ≤ r := by exact_mod_cast not_lt.1 more
        split
        next tie =>
          obtain ⟨same, still⟩ := Bool.and_eq_true_iff.1 tie
          have : (r : ℝ) = 2 ^ s := by exact_mod_cast of_decide_eq_true same
          have : d = 0 := clean (by simpa using still)
          refine mul_right_cancel₀ (show (2 : ℝ) * 2 ^ s ≠ 0 by positivity) ?_
          linarith
        next noTie =>
          have beyond : (2 : ℝ) ^ s < r + d := by
            rcases this.lt_or_eq with h | h
            · linarith
            · have same : r = 2 ^ s := by exact_mod_cast h.symm
              have : 0 < d := dirty (by simpa [same] using noTie)
              linarith
          exact lt_of_mul_lt_mul_right (a := 2 * 2 ^ s) (by linarith) (by linarith)

/-- A directed mode rounds up where it rounds away from zero. -/
theorem roundUp_directed {mode : Nat} (directed : mode ≠ 0) (arithmetic : mode < 4) (neg odd : Bool) (c : Ordering) :
    roundUp mode neg odd c = roundsAway mode neg := by
  obtain rfl | rfl | rfl : mode = 1 ∨ mode = 2 ∨ mode = 3 := by omega
  · rfl
  · cases neg <;> rfl
  · cases neg <;> rfl

/-- `roundAt` rounds in each mode of arithmetic, and is inexact where the multiple is not the magnitude itself. -/
theorem roundAt_rounds {Y : ℝ} {m : Nat} {e q : Int} {sticky : Bool} (h : Magnitude Y m e sticky) (room : sticky = true → e < q) {mode : Nat}
    (arithmetic : mode < 4) (neg : Bool) :
    RoundsTo mode neg (Y / 2 ^ q) (roundAt mode neg m e q sticky).1 ∧
      ((roundAt mode neg m e q sticky).2 = true ↔ Y / 2 ^ q ≠ (roundAt mode neg m e q sticky).1) := by
  obtain ⟨n, c, inexact, floor, above, lost, half, rounded⟩ := roundAt_floor h room mode neg
  rw [rounded]
  generalize Y / 2 ^ q = z at *
  cases inexact with
  | false =>
    have value : z = n := by simpa using lost
    subst value
    refine ⟨?_, by simp⟩
    simp only [Bool.false_and, Bool.false_eq_true, ↓reduceIte, RoundsTo]
    split
    · refine ⟨by linarith, by linarith, ?_⟩
      rintro (h | h) <;> linarith
    · split
      · exact ⟨by linarith, le_refl _⟩
      · exact ⟨le_refl _, by linarith⟩
  | true =>
    have between : (n : ℝ) < z := lt_of_le_of_ne floor (Ne.symm (lost.1 rfl))
    have other : z ≠ ((n + 1 : Nat) : ℝ) := by push_cast; exact above.ne
    refine ⟨?_, by simp only [Bool.true_and, true_iff]; split; exact other; exact between.ne'⟩
    simp only [Bool.true_and]
    by_cases nearest : mode = 0
    · subst nearest
      simp only [RoundsTo, ↓reduceIte]
      cases c with
      | lt =>
        simp only [OnHalf] at half
        simp only [roundUp, beq_iff_eq, reduceCtorEq, Bool.or_eq_true, Bool.and_eq_true, false_and, or_self, ↓reduceIte]
        exact ⟨by linarith, by linarith, by rintro (h | h) <;> linarith⟩
      | gt =>
        simp only [OnHalf] at half
        simp only [roundUp, beq_self_eq_true, Bool.true_or, ↓reduceIte, Nat.cast_add, Nat.cast_one]
        exact ⟨by linarith, by linarith, by rintro (h | h) <;> linarith⟩
      | eq =>
        simp only [OnHalf] at half
        by_cases odd : n % 2 = 1
        · simp only [roundUp, odd, beq_self_eq_true, Bool.and_self, Bool.or_true, ↓reduceIte, Nat.cast_add, Nat.cast_one]
          exact ⟨by linarith, by linarith, fun _ => by omega⟩
        · simp only [roundUp, beq_self_eq_true, Bool.true_and, beq_iff_eq, odd, reduceCtorEq, Bool.or_eq_true, or_self, ↓reduceIte]
          exact ⟨by linarith, by linarith, fun _ => by omega⟩
    · rw [roundUp_directed nearest arithmetic]
      simp only [RoundsTo, nearest, ↓reduceIte]
      split
      · push_cast
        exact ⟨by linarith, by linarith⟩
      · exact ⟨floor, above⟩

end Sys2Proof.Machine

/-! # Codes and their values (R149) -/

namespace Sys2Proof.Machine

/-! ## The fields of a code -/

theorem signBit_eq (f : Fmt) (neg : Bool) : signBit f neg = neg.toNat * 2 ^ (f.mb + f.eb) := by
  cases neg <;> simp [signBit]

/-- A code by its sign, exponent and fraction. -/
theorem code_fields (f : Fmt) {g e m : Nat} (hg : g < 2) (he : e < 2 ^ f.eb) (hm : m < 2 ^ f.mb) :
    let c := g * 2 ^ (f.mb + f.eb) + e * 2 ^ f.mb + m
    c % 2 ^ f.mb = m ∧ c / 2 ^ f.mb % 2 ^ f.eb = e ∧ c / 2 ^ (f.mb + f.eb) % 2 = g := by
  intro c
  have shape : c = m + 2 ^ f.mb * (e + 2 ^ f.eb * g) := by simp only [c, Nat.pow_add]; ring
  have high : c / 2 ^ f.mb = e + 2 ^ f.eb * g := by
    rw [shape, Nat.add_mul_div_left _ _ (Nat.two_pow_pos _), Nat.div_eq_of_lt hm, zero_add]
  refine ⟨?_, ?_, ?_⟩
  · rw [shape, Nat.add_mul_mod_self_left, Nat.mod_eq_of_lt hm]
  · rw [high, Nat.add_mul_mod_self_left, Nat.mod_eq_of_lt he]
  · rw [Nat.pow_add, ← Nat.div_div_eq_div_mul, high, Nat.add_mul_div_left _ _ (Nat.two_pow_pos _), Nat.div_eq_of_lt he, zero_add,
      Nat.mod_eq_of_lt hg]

/-- What a format of arithmetic has in common with the others: infinities, and a largest finite value in the topmost exponent but one. -/
structure Fmt.Ieee (f : Fmt) : Prop where
  maxM : f.maxM + 1 = 2 ^ (f.mb + 1)
  maxE : f.maxE + 3 = f.qmin + (2 ^ f.eb : Nat)
  fraction : 1 ≤ f.mb
  narrow : f.mb ≤ 60
  exponent : 2 ≤ f.eb
  infinities : hasInf f = true
  notE2m1 : f ≠ Fmt.e2m1
  notE4m3 : f ≠ Fmt.e4m3

theorem Fmt.Ieee.of_mem {f : Fmt} (h : f ∈ [Fmt.f16, Fmt.bf16, Fmt.f32, Fmt.f64]) : f.Ieee := by
  simp only [List.mem_cons, List.not_mem_nil, or_false] at h
  obtain rfl | rfl | rfl | rfl := h
  · constructor <;> decide
  · constructor <;> decide
  · constructor <;> decide
  · constructor <;> decide

/-- A code of a format with infinities, by its fields. -/
theorem Fmt.Ieee.decode {f : Fmt} (h : f.Ieee) (bits : Nat) :
    decodeF f bits =
      let m := bits % 2 ^ f.mb
      let e := bits / 2 ^ f.mb % 2 ^ f.eb
      let neg := bits / 2 ^ (f.mb + f.eb) % 2 == 1
      if e = 2 ^ f.eb - 1 then if m = 0 then .inf neg else .nan (decide (f ≠ Fmt.e5m2 ∧ m < 2 ^ (f.mb - 1)))
      else if e = 0 then if m = 0 then .zero neg else .fin neg m f.qmin
      else .fin neg (m + 2 ^ f.mb) (f.qmin + (e - 1 : Nat)) := by
  simp only [decodeF, h.notE2m1, h.notE4m3, h.infinities, false_and, ↓reduceIte, Bool.true_and, beq_iff_eq]

/-- What a code stands for: a NaN, an infinity, a zero, or a magnitude of the format. -/
inductive XV.Of (f : Fmt) : XV → Prop where
  | nan (s : Bool) : Of f (.nan s)
  | inf (neg : Bool) : Of f (.inf neg)
  | zero (neg : Bool) : Of f (.zero neg)
  | fin (neg : Bool) {m : Nat} {e : Int} (some : m ≠ 0) (small : m < 2 ^ (f.mb + 1)) (low : f.qmin ≤ e) : Of f (.fin neg m e)

theorem Fmt.Ieee.decode_of {f : Fmt} (h : f.Ieee) (bits : Nat) : XV.Of f (decodeF f bits) := by
  have fraction := Nat.mod_lt bits (Nat.two_pow_pos f.mb)
  have double : 2 ^ (f.mb + 1) = 2 ^ f.mb + 2 ^ f.mb := by ring
  rw [h.decode]
  dsimp only
  split
  · split
    · exact .inf _
    · exact .nan _
  · split
    · split
      · exact .zero _
      · next some => exact .fin _ some (by omega) (le_refl _)
    · exact .fin _ (by have := Nat.two_pow_pos f.mb; omega) (by omega) (by omega)

/-! ## The codes of magnitudes -/

theorem encodeFin_carry (f : Fmt) (neg : Bool) {q : Int} (low : f.qmin ≤ q) :
    encodeFin f neg (2 ^ (f.mb + 1)) q = encodeFin f neg (2 ^ f.mb) (q + 1) := by
  have long : bitLen (2 ^ (f.mb + 1)) = f.mb + 1 + 1 := bitLen_eq (le_refl _) (Nat.pow_lt_pow_right (by norm_num) (by omega))
  have short : bitLen (2 ^ f.mb) = f.mb + 1 := bitLen_eq (le_refl _) (Nat.pow_lt_pow_right (by norm_num) (by omega))
  have positive : ∀ n : Nat, (2 ^ n : Nat) ≠ 0 := fun n => (Nat.two_pow_pos n).ne'
  have scaled : scaleNat (2 ^ (f.mb + 1)) (f.mb + 1 - (f.mb + 1 + 1 : Nat) : Int) = 2 ^ f.mb := by
    rw [show (f.mb + 1 - (f.mb + 1 + 1 : Nat) : Int) = -1 by push_cast; ring]
    simp [scaleNat, Nat.pow_succ]
  have same : scaleNat (2 ^ f.mb) (f.mb + 1 - (f.mb + 1 : Nat) : Int) = 2 ^ f.mb := by simp [scaleNat]
  simp only [encodeFin, long, short, positive, ↓reduceIte, scaled, same, Fmt.qmin] at low ⊢
  rw [if_neg (by push_cast; omega), if_neg (by push_cast; omega)]
  congr 4
  push_cast; ring

/-- The code of a magnitude of the format: it stands for that magnitude, and its lowest bit is the magnitude's. -/
theorem Fmt.Ieee.encode {f : Fmt} (h : f.Ieee) (neg : Bool) {n : Nat} {q : Int} (small : n < 2 ^ (f.mb + 1)) (low : f.qmin ≤ q) (high : q ≤ f.maxE)
    (normal : 2 ^ f.mb ≤ n ∨ q = f.qmin) :
    encodeFin f neg n q < 2 ^ f.width ∧ decodeF f (encodeFin f neg n q) = (if n = 0 then .zero neg else .fin neg n q) ∧
      encodeFin f neg n q % 2 = n % 2 := by
  have exponents : 4 ≤ 2 ^ f.eb := by
    have := Nat.pow_le_pow_right (show 0 < 2 by norm_num) h.exponent
    omega
  -- an exponent field and a fraction that say all of it
  obtain ⟨e, m, he, hm, code, value, odd⟩ : ∃ e m : Nat, e < 2 ^ f.eb - 1 ∧ m < 2 ^ f.mb ∧ encodeFin f neg n q = neg.toNat * 2 ^ (f.mb + f.eb) + e * 2 ^ f.mb + m ∧
      (if e = 0 then if m = 0 then XV.zero neg else .fin neg m f.qmin else .fin neg (m + 2 ^ f.mb) (f.qmin + (e - 1 : Nat))) =
        (if n = 0 then .zero neg else .fin neg n q) ∧ m % 2 = n % 2 := by
    have even : 2 ^ f.mb % 2 = 0 := by
      obtain ⟨k, hk⟩ := Nat.exists_eq_add_of_le h.fraction
      rw [hk, Nat.pow_add]; omega
    by_cases normal' : 2 ^ f.mb ≤ n
    · have long : bitLen n = f.mb + 1 := bitLen_eq normal' small
      have positive : n ≠ 0 := by have := Nat.two_pow_pos f.mb; omega
      have maxE := h.maxE
      have field : (q + (f.mb + 1 : Nat) - 1 + f.bias).toNat = (q - f.qmin).toNat + 1 := by simp only [Fmt.qmin, Fmt.emin] at *; omega
      refine ⟨(q - f.qmin).toNat + 1, n - 2 ^ f.mb, by omega, by omega, ?_, ?_, by omega⟩
      · rw [encodeFin, long, if_neg positive, if_neg (by simp only [Fmt.qmin] at low; push_cast; omega), field, signBit_eq,
          show scaleNat n (f.mb + 1 - (f.mb + 1 : Nat) : Int) = n by simp [scaleNat], Nat.add_assoc]
      · rw [if_neg (Nat.succ_ne_zero _), if_neg positive, Nat.sub_add_cancel normal', Nat.add_sub_cancel]
        congr 1; omega
    · have lowest : q = f.qmin := normal.resolve_left normal'
      subst lowest
      refine ⟨0, n, by omega, by omega, ?_, by rw [if_pos rfl], rfl⟩
      rw [encodeFin, signBit_eq, zero_mul, add_zero]
      congr 1
      split
      · next zero => exact zero.symm
      · next positive =>
        have short : bitLen n ≤ f.mb := by
          have := (bitLen_bounds positive).1
          by_contra longer
          have := Nat.pow_le_pow_right (show 0 < 2 by norm_num) (show f.mb ≤ bitLen n - 1 by omega)
          omega
        rw [if_pos (by simp only [Fmt.qmin]; omega)]
        simp [scaleNat]
  have sign : neg.toNat < 2 := by cases neg <;> decide
  obtain ⟨fraction, exponent, negative⟩ := code_fields f sign (show e < 2 ^ f.eb by omega) hm
  refine ⟨?_, ?_, ?_⟩
  · rw [code, Fmt.width, Nat.pow_succ, Nat.pow_add]
    have := Nat.mul_le_mul_right (2 ^ f.mb) (show e + 1 ≤ 2 ^ f.eb by omega)
    have := Nat.mul_le_mul_right (2 ^ f.mb * 2 ^ f.eb) (show neg.toNat ≤ 1 by omega)
    nlinarith
  · rw [code, h.decode]
    simp only [fraction, exponent, negative]
    rw [if_neg (by omega), ← value]
    cases neg <;> rfl
  · have even : 2 ^ f.mb % 2 = 0 ∧ 2 ^ (f.mb + f.eb) % 2 = 0 := by
      obtain ⟨k, hk⟩ := Nat.exists_eq_add_of_le h.fraction
      rw [hk, Nat.pow_add, Nat.add_assoc, Nat.pow_add]; omega
    rw [code, ← odd, Nat.add_mod, Nat.add_mod (neg.toNat * _), Nat.mul_mod, Nat.mul_mod e, even.1, even.2]
    simp

end Sys2Proof.Machine

/-! # Overflow and tininess (R153) -/

namespace Sys2Proof.Machine

/-- y is the number r. -/
def Exact.Is (y : Exact) (r : ℝ) : Prop := ∀ q : ℚ, (y.above q = true ↔ (q : ℝ) < r) ∧ (y.below q = true ↔ r < q)

/-- The number of a sign and a magnitude. -/
def signed (neg : Bool) (Y : ℝ) : ℝ := if neg then -Y else Y

theorem Exact.Is.beyond {y : Exact} {neg : Bool} {Y : ℝ} (h : y.Is (signed neg Y)) (q : ℚ) : y.beyond neg q = true ↔ (q : ℝ) < Y := by
  cases neg with
  | false => exact (h q).1
  | true =>
    refine (h (-q)).2.trans ?_
    simp only [signed, ↓reduceIte, Rat.cast_neg, neg_lt_neg_iff]

theorem Exact.Is.reaches {y : Exact} {neg : Bool} {Y : ℝ} (h : y.Is (signed neg Y)) (q : ℚ) : y.reaches neg q = true ↔ (q : ℝ) ≤ Y := by
  cases neg with
  | false => simp only [Exact.reaches, Bool.false_eq_true, ↓reduceIte, Bool.not_eq_true', ← Bool.not_eq_true, (h q).2, signed, not_lt]
  | true =>
    simp only [Exact.reaches, ↓reduceIte, Bool.not_eq_true', ← Bool.not_eq_true, (h (-q)).1, signed, Rat.cast_neg, not_lt, neg_le_neg_iff]

/-! ## Rounding beyond a power of two -/

/-- A mode rounds the magnitude z to P or more, where it rounds to whole numbers below P. -/
def RoundsBeyond (mode : Nat) (neg : Bool) (P z : ℝ) : Prop :=
  if mode = 0 then P - 1 / 2 ≤ z else if roundsAway mode neg then P - 1 < z else P ≤ z

/-- A magnitude between two powers of two rounds to one of them or between. -/
theorem RoundsTo.between {mode : Nat} {neg : Bool} {z : ℝ} {n p : Nat} (h : RoundsTo mode neg z n) (low : (p : ℝ) ≤ z) (high : z ≤ 2 * p) :
    p ≤ n ∧ n ≤ 2 * p := by
  have above : (p : ℝ) < n + 1 := by
    simp only [RoundsTo] at h
    split at h
    · linarith
    · split at h <;> linarith
  have below : (n : ℝ) < 2 * p + 1 := by
    simp only [RoundsTo] at h
    split at h
    · linarith
    · split at h <;> linarith
  constructor
  · exact Nat.le_of_lt_succ (by exact_mod_cast above)
  · exact Nat.le_of_lt_succ (by exact_mod_cast below)

theorem RoundsTo.beyond_iff {mode : Nat} {neg : Bool} {z : ℝ} {n p : Nat} (h : RoundsTo mode neg z n) (high : z < 2 * p) :
    2 * p ≤ n ↔ RoundsBeyond mode neg (2 * p) z := by
  rw [← Nat.cast_le (α := ℝ), Nat.cast_mul, Nat.cast_ofNat]
  have step : ¬ ((2 * p : Nat) : ℝ) ≤ n → (n : ℝ) + 1 ≤ 2 * p := fun h => by
    rw [Nat.cast_le, not_le] at h
    exact_mod_cast Nat.succ_le_of_lt h
  push_cast at step
  simp only [RoundsTo, RoundsBeyond] at h ⊢
  split at h
  · rw [if_pos ‹_›]
    obtain ⟨low, high', tie⟩ := h
    refine ⟨fun _ => by linarith, fun reach => ?_⟩
    by_contra less
    have := step less
    have even := tie (.inr (by linarith))
    have odd : n + 1 = 2 * p := by
      have : (n : ℝ) + 1 = 2 * p := by linarith
      exact_mod_cast this
    omega
  · rw [if_neg ‹_›]
    split at h
    · rw [if_pos ‹_›]
      refine ⟨fun _ => by linarith, fun reach => ?_⟩
      by_contra less
      have := step less
      linarith
    · rw [if_neg ‹_›]
      exact ⟨fun _ => by linarith, fun _ => by linarith⟩

/-- The same in other units, of which s make one: above the powers of two between which the magnitude lies, below them, or just there. -/
theorem RoundsTo.beyond_scaled {mode : Nat} {neg : Bool} {z s : ℝ} {n p : Nat} (h : RoundsTo mode neg z n) (some : 1 ≤ p) (low : (p : ℝ) ≤ z)
    (high : z < 2 * p) (scale : s = 1 ∨ 2 ≤ s ∨ 0 < s ∧ s ≤ 1 / 2) :
    (2 * (p : ℝ) ≤ n * s ↔ RoundsBeyond mode neg (2 * p) (z * s)) ∧ (2 * (p : ℝ) - 1 < n * s ↔ RoundsBeyond mode neg (2 * p) (z * s)) := by
  obtain ⟨lowest, highest⟩ := h.between low high.le
  have some' : (1 : ℝ) ≤ p := by exact_mod_cast some
  have lowest' : (p : ℝ) ≤ n := by exact_mod_cast lowest
  have highest' : (n : ℝ) ≤ 2 * p := by exact_mod_cast highest
  obtain rfl | big | ⟨positive, little⟩ := scale
  · rw [mul_one, mul_one, ← h.beyond_iff high]
    refine ⟨by exact_mod_cast Iff.rfl, ?_⟩
    rw [sub_lt_iff_lt_add]
    exact_mod_cast Nat.lt_succ_iff
  · have value : 2 * (p : ℝ) ≤ n * s := by nlinarith
    have reach : 2 * (p : ℝ) ≤ z * s := by nlinarith
    have yes : RoundsBeyond mode neg (2 * p) (z * s) := by
      simp only [RoundsBeyond]
      split
      · linarith
      · split <;> linarith
    exact ⟨⟨fun _ => yes, fun _ => value⟩, ⟨fun _ => yes, fun _ => by linarith⟩⟩
  · have value : n * s ≤ p := by nlinarith
    have reach : z * s < p := by nlinarith
    have no : ¬ RoundsBeyond mode neg (2 * p) (z * s) := by
      simp only [RoundsBeyond]
      split
      · linarith
      · split <;> linarith
    exact ⟨⟨fun _ => by linarith, fun yes => absurd yes no⟩, ⟨fun _ => by linarith, fun yes => absurd yes no⟩⟩

theorem two_zpow_scale (k : Int) : (2 : ℝ) ^ k = 1 ∨ (2 : ℝ) ≤ 2 ^ k ∨ 0 < (2 : ℝ) ^ k ∧ (2 : ℝ) ^ k ≤ 1 / 2 := by
  obtain h | h | h := lt_trichotomy k 0
  · refine .inr (.inr ⟨two_zpow_pos k, ?_⟩)
    have := zpow_le_zpow_right₀ (show (1 : ℝ) ≤ 2 by norm_num) (show k ≤ -1 by omega)
    simpa using this
  · exact .inl (by rw [h, zpow_zero])
  · refine .inr (.inl ?_)
    have := zpow_le_zpow_right₀ (show (1 : ℝ) ≤ 2 by norm_num) (show 1 ≤ k by omega)
    simpa using this

/-- What a magnitude of mb + 1 bits rounds to, against the power of two where the exponent g begins. -/
theorem RoundsTo.beyond_power {mode : Nat} {neg : Bool} {Y : ℝ} {n k : Nat} {q : Int} (h : RoundsTo mode neg (Y / 2 ^ q) n) (low : (2 : ℝ) ^ k ≤ Y / 2 ^ q)
    (high : Y / 2 ^ q < 2 ^ (k + 1)) (g : Int) :
    ((2 : ℝ) ^ (k + 1) * 2 ^ g ≤ n * 2 ^ q ↔ RoundsBeyond mode neg (2 ^ (k + 1)) (Y / 2 ^ g)) ∧
      (((2 : ℝ) ^ (k + 1) - 1) * 2 ^ g < n * 2 ^ q ↔ RoundsBeyond mode neg (2 ^ (k + 1)) (Y / 2 ^ g)) := by
  have positive := two_zpow_pos g
  have double : (2 : ℝ) ^ (k + 1) = 2 * (2 ^ k : Nat) := by push_cast; ring
  have power : (2 : ℝ) ^ (q - g) = 2 ^ q / 2 ^ g := zpow_sub₀ (by norm_num) _ _
  obtain ⟨le, lt⟩ := h.beyond_scaled (p := 2 ^ k) Nat.one_le_two_pow (by exact_mod_cast low) (by rw [← double]; exact high) (two_zpow_scale (q - g))
  have value : Y / 2 ^ q * 2 ^ (q - g) = Y / 2 ^ g := by
    rw [power]; have := (two_zpow_pos q).ne'; field_simp
  rw [value, power, ← mul_div_assoc, ← double] at le lt
  exact ⟨by rw [← le, le_div_iff₀ positive], by rw [← lt, lt_div_iff₀ positive]⟩

/-! ## The obligations' terms -/

theorem Fmt.Ieee.maxM_bits {f : Fmt} (h : f.Ieee) : bitLen f.maxM = f.mb + 1 ∧ f.maxM % 2 = 1 ∧ f.maxM < 2 ^ (f.mb + 1) ∧ 2 ^ f.mb ≤ f.maxM := by
  have maxM := h.maxM
  have double : 2 ^ (f.mb + 1) = 2 * 2 ^ f.mb := by ring
  have := Nat.two_pow_pos f.mb
  exact ⟨bitLen_eq (by omega) (by omega), by omega, by omega, by omega⟩

theorem Fmt.Ieee.qmin_le_maxE {f : Fmt} (h : f.Ieee) : f.qmin < f.maxE := by
  have exponents := Nat.pow_le_pow_right (show 0 < 2 by norm_num) h.exponent
  have := h.maxE
  omega

theorem Fmt.Ieee.maxCode_odd {f : Fmt} (h : f.Ieee) : maxCode f false % 2 = 1 := by
  obtain ⟨-, odd, small, normal⟩ := h.maxM_bits
  exact (h.encode false small h.qmin_le_maxE.le (le_refl _) (.inl normal)).2.2.trans odd

theorem Fmt.Ieee.top_eq {f : Fmt} (h : f.Ieee) : (f.top : ℝ) = (2 ^ (f.mb + 1) - 1) * 2 ^ f.maxE := by
  have maxM : (f.maxM : ℝ) = 2 ^ (f.mb + 1) - 1 := by
    rw [eq_sub_iff_add_eq]
    exact_mod_cast h.maxM
  rw [Fmt.top, Rat.cast_mul, Rat.cast_natCast, Rat.cast_zpow, Rat.cast_ofNat, maxM]

theorem Fmt.Ieee.topUlp_eq {f : Fmt} (h : f.Ieee) : (f.topUlp : ℝ) = 2 ^ f.maxE := by
  have log : Nat.log2 f.maxM = f.mb := by
    have bits := h.maxM_bits.1
    have some : f.maxM ≠ 0 := by have := h.maxM_bits.2.1; omega
    rw [bitLen, if_neg some] at bits
    omega
  rw [Fmt.topUlp, log, Rat.cast_zpow, Rat.cast_ofNat]
  congr 1; omega

theorem least_eq (f : Fmt) : (f.least : ℝ) = 2 ^ (f.mb + 1) * 2 ^ (f.qmin - 1) := by
  rw [Fmt.least, Rat.cast_zpow, Rat.cast_ofNat, ← zpow_natCast, ← zpow_add₀ (by norm_num)]
  congr 1; simp only [Fmt.qmin]; push_cast; ring

/-- Overflow is rounding beyond the largest finite value. -/
theorem Fmt.Ieee.overflows_iff {f : Fmt} (h : f.Ieee) {y : Exact} {neg : Bool} {Y : ℝ} (is : y.Is (signed neg Y)) {mode : Nat} (arithmetic : mode < 4) :
    f.overflows mode y neg = true ↔ RoundsBeyond mode neg (2 ^ (f.mb + 1)) (Y / 2 ^ f.maxE) := by
  have positive := two_zpow_pos f.maxE
  have directed : ∀ m, m ≠ 0 → ((if roundsAway m neg then y.beyond neg f.top else y.reaches neg (f.top + f.topUlp)) = true ↔
      RoundsBeyond m neg (2 ^ (f.mb + 1)) (Y / 2 ^ f.maxE)) := fun m hm => by
    rw [RoundsBeyond, if_neg hm]
    split
    · rw [is.beyond, h.top_eq, lt_div_iff₀ positive]
    · rw [is.reaches, Rat.cast_add, h.top_eq, h.topUlp_eq, le_div_iff₀ positive]
      ring_nf
  obtain rfl | rfl | rfl | rfl : mode = 0 ∨ mode = 1 ∨ mode = 2 ∨ mode = 3 := by omega
  · rw [RoundsBeyond, if_pos rfl, Fmt.overflows]
    simp only [h.maxCode_odd, ↓reduceIte]
    rw [is.reaches, le_div_iff₀ positive]
    push_cast
    rw [h.top_eq, h.topUlp_eq]
    ring_nf
  · exact directed 1 (by norm_num)
  · exact directed 2 (by norm_num)
  · exact directed 3 (by norm_num)

/-- A result is tiny where it does not round to the smallest normal value or beyond. -/
theorem Fmt.tiny_iff {f : Fmt} {y : Exact} {neg : Bool} {Y : ℝ} (is : y.Is (signed neg Y)) (some : 0 < Y) {mode : Nat} (arithmetic : mode < 4) :
    f.tiny mode y neg = true ↔ ¬ RoundsBeyond mode neg (2 ^ (f.mb + 1)) (Y / 2 ^ (f.qmin - 1)) := by
  have positive := two_zpow_pos (f.qmin - 1)
  have nonzero : y.beyond neg 0 = true := (is.beyond 0).2 (by simpa using some)
  have unit : ((2 ^ (f.emin - f.mb - 1) : ℚ) : ℝ) = 2 ^ (f.qmin - 1) := by rw [Rat.cast_zpow, Rat.cast_ofNat]; rfl
  have half : ((2 ^ (f.emin - f.mb - 2) : ℚ) : ℝ) = 2 ^ (f.qmin - 1) / 2 := by
    rw [Rat.cast_zpow, Rat.cast_ofNat, show f.emin - f.mb - 2 = f.qmin - 1 - 1 by simp only [Fmt.qmin]; ring, zpow_sub_one₀ (by norm_num)]
    ring
  have directed : ∀ m, m ≠ 0 → ((if roundsAway m neg then !y.beyond neg (f.least - 2 ^ (f.emin - f.mb - 1)) else !y.reaches neg f.least) = true ↔
      ¬ RoundsBeyond m neg (2 ^ (f.mb + 1)) (Y / 2 ^ (f.qmin - 1))) := fun m hm => by
    rw [RoundsBeyond, if_neg hm]
    split
    · rw [Bool.not_eq_true', ← Bool.not_eq_true, is.beyond, Rat.cast_sub, least_eq, unit, lt_div_iff₀ positive]
      ring_nf
    · rw [Bool.not_eq_true', ← Bool.not_eq_true, is.reaches, least_eq, le_div_iff₀ positive]
  obtain rfl | rfl | rfl | rfl : mode = 0 ∨ mode = 1 ∨ mode = 2 ∨ mode = 3 := by omega
  · rw [RoundsBeyond, if_pos rfl, Fmt.tiny, nonzero, Bool.true_and]
    show (!y.reaches neg (f.least - 2 ^ (f.emin - f.mb - 2))) = true ↔ _
    rw [Bool.not_eq_true', ← Bool.not_eq_true, is.reaches, Rat.cast_sub, least_eq, half, le_div_iff₀ positive]
    ring_nf
  · simpa only [Fmt.tiny, nonzero, Bool.true_and] using directed 1 (by norm_num)
  · simpa only [Fmt.tiny, nonzero, Bool.true_and] using directed 2 (by norm_num)
  · simpa only [Fmt.tiny, nonzero, Bool.true_and] using directed 3 (by norm_num)

end Sys2Proof.Machine

/-! # The nearest code (R152) -/

namespace Sys2Proof.Machine

/-! ## Among the numbers of a grid -/

/-- A magnitude D in units in which z is rounded to a whole number: it is whole itself, or lies below some whole number P that z reaches. -/
def OnGrid (P : Nat) (z D : ℝ) : Prop := (∃ k : ℤ, D = k) ∨ D < P ∧ (P : ℝ) ≤ z

/-- To nearest: no number of the grid is closer, and of two as close the even one is taken. -/
theorem RoundsTo.closest {neg : Bool} {z D : ℝ} {n P : Nat} (h : RoundsTo 0 neg z n) (grid : OnGrid P z D) :
    (n < D → z ≤ (n + D) / 2 ∧ (z = (n + D) / 2 → n % 2 = 0)) ∧ (D < n → (n + D) / 2 ≤ z ∧ (z = (n + D) / 2 → n % 2 = 0)) := by
  simp only [RoundsTo, ↓reduceIte] at h
  obtain ⟨low, high, tie⟩ := h
  obtain ⟨k, rfl⟩ | ⟨below, reached⟩ := grid
  · constructor
    · intro less
      have : (n : ℝ) + 1 ≤ k := by exact_mod_cast Int.add_one_le_of_lt (show (n : ℤ) < k by exact_mod_cast less)
      exact ⟨by linarith, fun same => tie (.inr (by linarith))⟩
    · intro less
      have : (k : ℝ) + 1 ≤ n := by exact_mod_cast Int.add_one_le_of_lt (show k < (n : ℤ) by exact_mod_cast less)
      exact ⟨by linarith, fun same => tie (.inl (by linarith))⟩
  · have large : P ≤ n := Nat.le_of_lt_succ (by
      have : (P : ℝ) < n + 1 := by linarith
      exact_mod_cast this)
    constructor
    · intro less
      have : (P : ℝ) ≤ n := by exact_mod_cast large
      linarith
    · intro less
      rcases large.eq_or_lt with rfl | more
      · exact ⟨by linarith, fun same => by linarith⟩
      · have : (P : ℝ) + 1 ≤ n := by exact_mod_cast more
        exact ⟨by linarith, fun same => by linarith⟩

/-- Away from zero: the least number of the grid that is not below. -/
theorem RoundsTo.least_above {mode : Nat} {neg : Bool} {z D : ℝ} {n P : Nat} (h : RoundsTo mode neg z n) (directed : mode ≠ 0)
    (away : roundsAway mode neg = true) (grid : OnGrid P z D) : z ≤ n ∧ (z ≤ D → n ≤ D) := by
  simp only [RoundsTo, directed, away, ↓reduceIte] at h
  refine ⟨h.2, fun le => ?_⟩
  obtain ⟨k, rfl⟩ | ⟨below, reached⟩ := grid
  · have : (n : ℝ) < k + 1 := by linarith
    exact_mod_cast Int.le_of_lt_add_one (show (n : ℤ) < k + 1 by exact_mod_cast this)
  · linarith

/-- Toward zero: the greatest number of the grid that is not above. -/
theorem RoundsTo.greatest_below {mode : Nat} {neg : Bool} {z D : ℝ} {n P : Nat} (h : RoundsTo mode neg z n) (directed : mode ≠ 0)
    (toward : roundsAway mode neg = false) (grid : OnGrid P z D) : n ≤ z ∧ (D ≤ z → D ≤ n) := by
  simp only [RoundsTo, directed, toward, ↓reduceIte, Bool.false_eq_true] at h
  refine ⟨h.1, fun le => ?_⟩
  obtain ⟨k, rfl⟩ | ⟨below, reached⟩ := grid
  · have : (k : ℝ) < n + 1 := by linarith
    exact_mod_cast Int.le_of_lt_add_one (show k < (n : ℤ) + 1 by exact_mod_cast this)
  · have large : P ≤ n := Nat.le_of_lt_succ (by
      have : (P : ℝ) < n + 1 := by linarith
      exact_mod_cast this)
    have : (P : ℝ) ≤ n := by exact_mod_cast large
    linarith

/-! ## Among the codes of a format -/

theorem signed_neg_neg (neg : Bool) (Y : ℝ) : signed neg (signed neg Y) = Y := by cases neg <;> simp [signed]

theorem signed_scaled_le {neg : Bool} {u : ℝ} (h : 0 < u) (a b : ℝ) : signed neg (a * u) ≤ signed neg (b * u) ↔ if neg then b ≤ a else a ≤ b := by
  cases neg <;> simp [signed, h]

theorem signed_scaled_lt {neg : Bool} {u : ℝ} (h : 0 < u) (a b : ℝ) : signed neg (a * u) < signed neg (b * u) ↔ if neg then b < a else a < b := by
  cases neg <;> simp [signed, h]

theorem signed_scaled_mid (neg : Bool) (u a b : ℝ) : (signed neg (a * u) + signed neg (b * u)) / 2 = signed neg ((a + b) / 2 * u) := by
  cases neg <;> simp only [signed, Bool.false_eq_true, ↓reduceIte] <;> ring

theorem XV.rat_fin (neg : Bool) (m : Nat) (e : Int) : ((XV.fin neg m e).rat : ℝ) = signed neg (m * 2 ^ e) := by
  cases neg <;> simp [XV.rat, signed]

theorem XV.rat_zero (neg : Bool) : (XV.zero neg).rat = 0 := rfl

/-- Values of a format are multiples of a power of two, or smaller in magnitude than 2^mb of its multiples. -/
theorem XV.Of.grid {f : Fmt} {x : XV} (h : XV.Of f x) {q : Int} (low : f.qmin ≤ q) (neg : Bool) :
    (∃ k : ℤ, signed neg x.rat = k * 2 ^ q) ∨ f.qmin < q ∧ signed neg x.rat < 2 ^ f.mb * 2 ^ q := by
  have none : ∀ x : XV, x.rat = 0 → ∃ k : ℤ, signed neg x.rat = k * 2 ^ q := fun x h => ⟨0, by cases neg <;> simp [h, signed]⟩
  cases h with
  | nan s => exact .inl (none _ rfl)
  | inf g => exact .inl (none _ rfl)
  | zero g => exact .inl (none _ rfl)
  | @fin g m e some small least =>
    rw [XV.rat_fin]
    by_cases fine : q ≤ e
    · left
      refine ⟨if neg = g then (m * 2 ^ (e - q).toNat : Nat) else -(m * 2 ^ (e - q).toNat : Nat), ?_⟩
      have power : (2 : ℝ) ^ e = ((2 ^ (e - q).toNat : Nat) : ℝ) * 2 ^ q := by
        rw [cast_two_pow_toNat (by omega), ← zpow_add₀ (by norm_num)]; congr 1; omega
      rw [power]
      cases neg <;> cases g <;> simp [signed] <;> ring
    · refine .inr ⟨by omega, ?_⟩
      have power : (2 : ℝ) ^ e ≤ 2 ^ (q - 1) := zpow_le_zpow_right₀ (by norm_num) (by omega)
      have half : (2 : ℝ) ^ f.mb * 2 ^ q = 2 ^ (f.mb + 1) * 2 ^ (q - 1) := by
        rw [zpow_sub_one₀ (by norm_num)]; ring
      have small' : (m : ℝ) < 2 ^ (f.mb + 1) := by exact_mod_cast small
      have value : (m : ℝ) * 2 ^ e < 2 ^ f.mb * 2 ^ q := by
        rw [half]
        exact mul_lt_mul small' power (two_zpow_pos e) (by positivity)
      have nonneg : 0 ≤ (m : ℝ) * 2 ^ e := mul_nonneg (Nat.cast_nonneg m) (two_zpow_pos e).le
      cases neg <;> cases g <;> simp only [signed, Bool.false_eq_true, ↓reduceIte, neg_neg] <;> linarith

/-- The finite code of what a mode rounds a magnitude to is the nearest in that mode. -/
theorem Fmt.Ieee.nearest {f : Fmt} (h : f.Ieee) {y : Exact} {neg : Bool} {Y : ℝ} (is : y.Is (signed neg Y)) {mode n c : Nat} {q : Int}
    (rounds : RoundsTo mode neg (Y / 2 ^ q) n) (arithmetic : mode < 4) (low : f.qmin ≤ q) (normal : q = f.qmin ∨ (2 : ℝ) ^ f.mb ≤ Y / 2 ^ q)
    (finite : f.finite c = true) (value : (f.rat c : ℝ) = signed neg (n * 2 ^ q)) (parity : c % 2 = n % 2) : f.Nearest mode y neg c := by
  have positive := two_zpow_pos q
  -- y and the finite codes in units of 2^q
  obtain ⟨z, hz⟩ : ∃ z, Y / 2 ^ q = z := ⟨_, rfl⟩
  have hY : Y = z * 2 ^ q := by rw [← hz]; field_simp
  rw [hz] at rounds normal
  have others : ∀ d, f.finite d = true → ∃ D : ℝ, (f.rat d : ℝ) = signed neg (D * 2 ^ q) ∧ OnGrid (2 ^ f.mb) z D := fun d _ => by
    refine ⟨signed neg (f.rat d) / 2 ^ q, by rw [div_mul_cancel₀ _ positive.ne', signed_neg_neg], ?_⟩
    obtain ⟨k, hk⟩ | ⟨more, less⟩ := (h.decode_of d).grid low neg
    · exact .inl ⟨k, by rw [Fmt.rat, hk, mul_div_cancel_right₀ _ positive.ne']⟩
    · exact .inr ⟨by rw [Fmt.rat, div_lt_iff₀ positive]; exact_mod_cast less, by exact_mod_cast normal.resolve_left more.ne'⟩
  have above : ∀ p : ℚ, y.above p = false ↔ signed neg (z * 2 ^ q) ≤ p := fun p => by
    rw [← Bool.not_eq_true, (is p).1, not_lt, hY]
  have below : ∀ p : ℚ, y.below p = false ↔ (p : ℝ) ≤ signed neg (z * 2 ^ q) := fun p => by
    rw [← Bool.not_eq_true, (is p).2, not_lt, hY]
  refine ⟨finite, fun near d hd => ?nearest, fun down => ?down, fun up => ?up⟩
  case nearest =>
    obtain rfl : mode = 0 := by omega
    obtain ⟨D, hD, grid⟩ := others d hd
    obtain ⟨more, less⟩ := rounds.closest grid
    simp only [above, below, ← Rat.cast_lt (K := ℝ), Rat.cast_div, Rat.cast_add, Rat.cast_ofNat, value, hD, signed_scaled_mid,
      signed_scaled_le positive, signed_scaled_lt positive, ↓reduceIte, parity]
    cases neg with
    | false => exact ⟨fun lt => ⟨(more lt).1, fun ge => (more lt).2 (le_antisymm (more lt).1 ge)⟩,
        fun lt => ⟨(less lt).1, fun le => (less lt).2 (le_antisymm le (less lt).1)⟩⟩
    | true => exact ⟨fun lt => ⟨(less lt).1, fun le => (less lt).2 (le_antisymm le (less lt).1)⟩,
        fun lt => ⟨(more lt).1, fun ge => (more lt).2 (le_antisymm (more lt).1 ge)⟩⟩
  case down =>
    have directed : mode ≠ 0 := by omega
    have bounds : ∀ d D, f.finite d = true → (f.rat d : ℝ) = signed neg (D * 2 ^ q) → OnGrid (2 ^ f.mb) z D →
        y.below (f.rat c) = false ∧ (y.below (f.rat d) = false → f.rat d ≤ f.rat c) := fun d D hd hD grid => by
      simp only [below, ← Rat.cast_le (K := ℝ), value, hD, signed_scaled_le positive]
      cases hn : neg with
      | false => exact rounds.greatest_below directed (by obtain rfl | ⟨rfl, -⟩ := down <;> rw [hn] <;> rfl) grid
      | true => exact rounds.least_above directed (by obtain rfl | ⟨rfl, h⟩ := down <;> rw [hn] at * <;> trivial) grid
    exact ⟨let ⟨D, hD, grid⟩ := others c finite; (bounds c D finite hD grid).1, fun d hd => let ⟨D, hD, grid⟩ := others d hd; (bounds d D hd hD grid).2⟩
  case up =>
    have directed : mode ≠ 0 := by omega
    have bounds : ∀ d D, f.finite d = true → (f.rat d : ℝ) = signed neg (D * 2 ^ q) → OnGrid (2 ^ f.mb) z D →
        y.above (f.rat c) = false ∧ (y.above (f.rat d) = false → f.rat c ≤ f.rat d) := fun d D hd hD grid => by
      simp only [above, ← Rat.cast_le (K := ℝ), value, hD, signed_scaled_le positive]
      cases hn : neg with
      | false => exact rounds.least_above directed (by obtain rfl | ⟨rfl, h⟩ := up <;> rw [hn] at * <;> trivial) grid
      | true => exact rounds.greatest_below directed (by obtain rfl | ⟨rfl, -⟩ := up <;> rw [hn] <;> rfl) grid
    exact ⟨let ⟨D, hD, grid⟩ := others c finite; (bounds c D finite hD grid).1, fun d hd => let ⟨D, hD, grid⟩ := others d hd; (bounds d D hd hD grid).2⟩

end Sys2Proof.Machine

/-! # Rounding a magnitude (R152 to R154) -/

namespace Sys2Proof.Machine

theorem RoundsTo.le {mode : Nat} {neg : Bool} {z : ℝ} {n P : Nat} (h : RoundsTo mode neg z n) (low : z ≤ P) : n ≤ P := by
  refine Nat.le_of_lt_succ ?_
  have : (n : ℝ) < P + 1 := by
    simp only [RoundsTo] at h
    split at h
    · linarith
    · split at h <;> linarith
  exact_mod_cast this

/-- In units of its last place a magnitude has mb + 1 bits before the point. -/
theorem Magnitude.bits {Y : ℝ} {m : Nat} {e : Int} {sticky : Bool} (h : Magnitude Y m e sticky) (some : m ≠ 0) (k : Nat) :
    (2 : ℝ) ^ k ≤ Y / 2 ^ (e + bitLen m - (k + 1)) ∧ Y / 2 ^ (e + bitLen m - (k + 1)) < 2 ^ (k + 1) := by
  obtain ⟨low, high, longer⟩ := bitLen_bounds some
  have positive := two_zpow_pos e
  have low' : (2 : ℝ) ^ (bitLen m - 1) ≤ m := by exact_mod_cast low
  have high' : (m : ℝ) + 1 ≤ 2 ^ bitLen m := by exact_mod_cast high
  have bounds : (m : ℝ) * 2 ^ e ≤ Y ∧ Y < (m + 1) * 2 ^ e := by
    cases hs : sticky with
    | false => rw [h.exact hs]; exact ⟨le_refl _, by linarith⟩
    | true => exact ⟨(h.more hs).1.le, (h.more hs).2⟩
  have lower : (2 : ℝ) ^ k * 2 ^ (e + bitLen m - (k + 1)) = 2 ^ (bitLen m - 1) * 2 ^ e := by
    rw [← zpow_natCast, ← zpow_natCast, ← zpow_add₀ (by norm_num), ← zpow_add₀ (by norm_num)]
    congr 1; omega
  have upper : (2 : ℝ) ^ (k + 1) * 2 ^ (e + bitLen m - (k + 1)) = 2 ^ bitLen m * 2 ^ e := by
    rw [← zpow_natCast, ← zpow_natCast, ← zpow_add₀ (by norm_num), ← zpow_add₀ (by norm_num)]
    congr 1; omega
  rw [le_div_iff₀ (two_zpow_pos _), div_lt_iff₀ (two_zpow_pos _), lower, upper]
  exact ⟨(mul_le_mul_of_nonneg_right low' positive.le).trans bounds.1, bounds.2.trans_le (mul_le_mul_of_nonneg_right high' positive.le)⟩

/-- The code of a rounded magnitude that does not exceed the largest finite value. -/
theorem Fmt.Ieee.encode_rounded {f : Fmt} (h : f.Ieee) (neg : Bool) {n : Nat} {q : Int} (small : n ≤ 2 ^ (f.mb + 1)) (low : f.qmin ≤ q)
    (normal : 2 ^ f.mb ≤ n ∨ q = f.qmin) (fits : (n : ℝ) * 2 ^ q ≤ f.maxM * 2 ^ f.maxE) :
    f.finite (encodeFin f neg n q) = true ∧ (decodeF f (encodeFin f neg n q)).sign = neg ∧
      (f.rat (encodeFin f neg n q) : ℝ) = signed neg (n * 2 ^ q) ∧ encodeFin f neg n q % 2 = n % 2 := by
  -- a power of two above the last place has the exponent of the next
  have exponent : ∀ {k : Nat} {g : Int}, 2 ^ f.mb ≤ k → (k : ℝ) * 2 ^ g ≤ f.maxM * 2 ^ f.maxE → g ≤ f.maxE := fun {k g} large fits => by
    by_contra more
    have power : (2 : ℝ) ^ (f.maxE + 1) ≤ 2 ^ g := zpow_le_zpow_right₀ (by norm_num) (by omega)
    have large' : (2 : ℝ) ^ f.mb ≤ k := by exact_mod_cast large
    have top : (f.maxM : ℝ) < 2 ^ (f.mb + 1) := by exact_mod_cast h.maxM_bits.2.2.1
    have positive := two_zpow_pos f.maxE
    have value : (2 : ℝ) ^ f.mb * 2 ^ (f.maxE + 1) ≤ k * 2 ^ g := mul_le_mul large' power (two_zpow_pos _).le (Nat.cast_nonneg _)
    have double : (2 : ℝ) ^ f.mb * 2 ^ (f.maxE + 1) = 2 ^ (f.mb + 1) * 2 ^ f.maxE := by rw [zpow_add_one₀ (by norm_num)]; ring
    nlinarith
  have conclude : ∀ {k : Nat} {g : Int}, k < 2 ^ (f.mb + 1) → f.qmin ≤ g → g ≤ f.maxE → (2 ^ f.mb ≤ k ∨ g = f.qmin) →
      f.finite (encodeFin f neg k g) = true ∧ (decodeF f (encodeFin f neg k g)).sign = neg ∧
        (f.rat (encodeFin f neg k g) : ℝ) = signed neg (k * 2 ^ g) ∧ encodeFin f neg k g % 2 = k % 2 := fun {k g} small low high normal => by
    obtain ⟨width, decoded, parity⟩ := h.encode neg small low high normal
    simp only [Fmt.finite, Fmt.rat, width, decoded, decide_true, Bool.true_and]
    by_cases zero : k = 0
    · simp only [if_pos zero]
      refine ⟨rfl, rfl, ?_, parity⟩
      rw [XV.rat_zero, zero]
      cases neg <;> simp [signed]
    · simp only [if_neg zero]
      exact ⟨rfl, rfl, XV.rat_fin _ _ _, parity⟩
  obtain full | carry := small.lt_or_eq
  · refine conclude full low ?_ normal
    obtain large | lowest := normal
    · exact exponent large fits
    · rw [lowest]; exact h.qmin_le_maxE.le
  · subst carry
    have shifted : ((2 ^ (f.mb + 1) : Nat) : ℝ) * 2 ^ q = ((2 ^ f.mb : Nat) : ℝ) * 2 ^ (q + 1) := by
      push_cast; rw [zpow_add_one₀ (by norm_num)]; ring
    rw [encodeFin_carry f neg low, shifted]
    rw [shifted] at fits
    obtain ⟨finite, sign, value, parity⟩ := conclude (Nat.pow_lt_pow_right (by norm_num) (Nat.lt_succ_self _)) (by omega)
      (exponent (le_refl _) fits) (.inl (le_refl (2 ^ f.mb)))
    refine ⟨finite, sign, value, parity.trans ?_⟩
    have := h.fraction
    obtain ⟨k, hk⟩ := Nat.exists_eq_add_of_le this
    rw [hk, Nat.pow_add, Nat.pow_succ, Nat.pow_add]; omega

theorem signed_abs (neg : Bool) {Y : ℝ} (h : 0 ≤ Y) : |signed neg Y| = Y := by
  cases neg <;> simp [signed, abs_of_nonneg h]

theorem signed_inj (neg : Bool) (a b : ℝ) : signed neg a = signed neg b ↔ a = b := by
  cases neg <;> simp [signed]

/-- The exponent of the last place of a magnitude, without regard to the smallest one, and with it. -/
def lastPlace (f : Fmt) (m : Nat) (e : Int) : Int := e + bitLen m - (f.mb + 1)
def place (f : Fmt) (m : Nat) (e : Int) : Int := if lastPlace f m e < f.qmin then f.qmin else lastPlace f m e

/-- `roundMag` by the two roundings it makes. -/
theorem Fmt.Ieee.roundMag_eq {f : Fmt} (h : f.Ieee) (mode : Nat) (ftz neg : Bool) (m : Nat) (e : Int) (sticky : Bool) :
    roundMag f mode ftz false neg m e sticky =
      let u := roundAt mode neg m e (lastPlace f m e) sticky
      let r := roundAt mode neg m e (place f m e) sticky
      if leMag u.1 (lastPlace f m e) f.maxM f.maxE = false then
        ⟨f.overflowCode mode false neg, fOverflow ||| fInexact⟩
      else if ftz && r.1 != 0 && !leMag 1 f.emin r.1 (place f m e) then ⟨signBit f neg, fUnderflow ||| fInexact⟩
      else ⟨encodeFin f neg r.1 (place f m e),
        flagIf (u.1 != 0 && !leMag 1 f.emin u.1 (lastPlace f m e) && r.2) fUnderflow ||| flagIf r.2 fInexact⟩ := by
  have last : e + (bitLen m : Int) - ((f.mb : Int) + 1) = lastPlace f m e := rfl
  have which : (if lastPlace f m e < f.qmin then roundAt mode neg m e f.qmin sticky else roundAt mode neg m e (lastPlace f m e) sticky) =
      roundAt mode neg m e (place f m e) sticky := by unfold place; split <;> rfl
  have at_place : (if lastPlace f m e < f.qmin then f.qmin else lastPlace f m e) = place f m e := rfl
  have notE2m1 : (f == Fmt.e2m1) = false := beq_eq_false_iff_ne.2 h.notE2m1
  simp only [roundMag, last, which, at_place, h.notE2m1, h.notE4m3, false_and, ↓reduceIte, Bool.not_eq_true', Bool.false_eq_true, Bool.false_or,
    Fmt.overflowCode, notE2m1, decide_false]
  refine if_congr Iff.rfl (congrArg (FRes.mk · _) ?_) rfl
  match mode with
  | 0 => rfl
  | 1 => rfl
  | 2 => cases neg <;> rfl
  | 3 => cases neg <;> rfl
  | n + 4 => simp

theorem leMag_false (a b : Nat) (e g : Int) : leMag a e b g = false ↔ (b : ℝ) * 2 ^ g < a * 2 ^ e := by
  rw [← Bool.not_eq_true, leMag_iff, not_le]

theorem Fmt.Ieee.maxM_real {f : Fmt} (h : f.Ieee) : (f.maxM : ℝ) = 2 ^ (f.mb + 1) - 1 := by
  rw [eq_sub_iff_add_eq]
  exact_mod_cast h.maxM

theorem least_real (f : Fmt) : (f.least : ℝ) = 2 ^ f.emin := by rw [Fmt.least, Rat.cast_zpow, Rat.cast_ofNat]

/-- What a magnitude rounds to at its place: a multiple of the smallest value, or mb + 1 bits; the latter where it does not overflow. -/
theorem Fmt.Ieee.rounded_fits {f : Fmt} (h : f.Ieee) {mode n : Nat} {neg : Bool} {Y : ℝ} {m : Nat} {e : Int}
    (rounds : RoundsTo mode neg (Y / 2 ^ place f m e) n) (low : (2 : ℝ) ^ f.mb ≤ Y / 2 ^ lastPlace f m e)
    (high : Y / 2 ^ lastPlace f m e < 2 ^ (f.mb + 1)) (fits : place f m e = lastPlace f m e → (n : ℝ) * 2 ^ lastPlace f m e ≤ f.maxM * 2 ^ f.maxE) :
    n ≤ 2 ^ (f.mb + 1) ∧ (2 ^ f.mb ≤ n ∨ place f m e = f.qmin) ∧ (n : ℝ) * 2 ^ place f m e ≤ f.maxM * 2 ^ f.maxE := by
  have double : 2 ^ (f.mb + 1) = 2 * 2 ^ f.mb := by ring
  by_cases below : lastPlace f m e < f.qmin
  · have lowest : place f m e = f.qmin := if_pos below
    rw [lowest] at rounds ⊢
    have small : Y / 2 ^ f.qmin ≤ (2 ^ f.mb : Nat) := by
      rw [div_lt_iff₀ (two_zpow_pos _)] at high
      rw [div_le_iff₀ (two_zpow_pos _)]
      have power : (2 : ℝ) ^ lastPlace f m e ≤ 2 ^ (f.qmin - 1) := zpow_le_zpow_right₀ (by norm_num) (by omega)
      have half : (2 : ℝ) ^ (f.mb + 1) * 2 ^ (f.qmin - 1) = (2 ^ f.mb : Nat) * 2 ^ f.qmin := by
        rw [zpow_sub_one₀ (by norm_num)]; push_cast; ring
      rw [← half]
      exact high.le.trans (mul_le_mul_of_nonneg_left power (by positivity))
    have bound := rounds.le small
    refine ⟨by omega, .inr rfl, ?_⟩
    have mantissa : (n : ℝ) ≤ f.maxM := by exact_mod_cast bound.trans h.maxM_bits.2.2.2
    exact mul_le_mul mantissa (zpow_le_zpow_right₀ (by norm_num) h.qmin_le_maxE.le) (two_zpow_pos _).le (Nat.cast_nonneg _)
  · have last : place f m e = lastPlace f m e := if_neg below
    rw [last] at rounds ⊢
    obtain ⟨least, most⟩ := rounds.between (p := 2 ^ f.mb) (by exact_mod_cast low) (by push_cast; rw [← pow_succ']; exact high.le)
    exact ⟨by omega, .inl least, fits last⟩

/-- A magnitude that is not zero is rounded once (R152 to R154). -/
theorem Fmt.Ieee.roundMag_rounded {f : Fmt} (h : f.Ieee) {y : Exact} {neg : Bool} {Y : ℝ} (is : y.Is (signed neg Y)) {m : Nat} {e : Int} {sticky : Bool}
    (magnitude : Magnitude Y m e sticky) (some : m ≠ 0) (room : sticky = true → f.mb + 1 < bitLen m) {mode : Nat} (arithmetic : mode < 4) (ftz : Bool) :
    Rounded f mode ftz false y neg (roundMag f mode ftz false neg m e sticky) := by
  obtain ⟨low, high⟩ : (2 : ℝ) ^ f.mb ≤ Y / 2 ^ lastPlace f m e ∧ Y / 2 ^ lastPlace f m e < 2 ^ (f.mb + 1) := magnitude.bits some f.mb
  have placeLow : f.qmin ≤ place f m e := by unfold place; split <;> omega
  have lastLe : lastPlace f m e ≤ place f m e := by unfold place; split <;> omega
  have normal : place f m e = f.qmin ∨ (2 : ℝ) ^ f.mb ≤ Y / 2 ^ place f m e := by
    by_cases below : lastPlace f m e < f.qmin
    · exact .inl (if_pos below)
    · exact .inr (by rw [place, if_neg below]; exact low)
  have lastRoom : sticky = true → e < lastPlace f m e := fun hs => by have := room hs; unfold lastPlace; omega
  have positive : 0 < Y := by
    have := (le_div_iff₀ (two_zpow_pos _)).1 low
    exact (mul_pos (by positivity) (two_zpow_pos _)).trans_le this
  obtain ⟨lastRounds, -⟩ := roundAt_rounds magnitude lastRoom arithmetic neg
  obtain ⟨rounds, inexact⟩ := roundAt_rounds magnitude (fun hs => (lastRoom hs).trans_le lastLe) arithmetic neg
  have sameRounding : place f m e = lastPlace f m e → (roundAt mode neg m e (place f m e) sticky).1 = (roundAt mode neg m e (lastPlace f m e) sticky).1 :=
    fun same => by rw [same]
  rw [h.roundMag_eq]
  dsimp only
  generalize roundAt mode neg m e (lastPlace f m e) sticky = u at *
  generalize roundAt mode neg m e (place f m e) sticky = r at *
  -- overflow and tininess, both of the result rounded with unbounded exponent
  have overflow : leMag u.1 (lastPlace f m e) f.maxM f.maxE = false ↔ f.overflows mode y neg = true := by
    rw [leMag_false, h.overflows_iff is arithmetic, h.maxM_real]
    exact (lastRounds.beyond_power low high f.maxE).2
  have tiny : (u.1 != 0 && !leMag 1 f.emin u.1 (lastPlace f m e)) = f.tiny mode y neg := by
    have nonzero : u.1 ≠ 0 := by
      have := (lastRounds.between (p := 2 ^ f.mb) (by exact_mod_cast low) (by push_cast; rw [← pow_succ']; exact high.le)).1
      have := Nat.two_pow_pos f.mb
      omega
    rw [Bool.eq_iff_iff, Fmt.tiny_iff is positive arithmetic, ← (lastRounds.beyond_power low high (f.qmin - 1)).1, ← least_eq, least_real,
      bne_iff_ne.2 nonzero, Bool.true_and, Bool.not_eq_true', ← Bool.not_eq_true, leMag_iff, Nat.cast_one, one_mul]
  refine ⟨fun big => if_pos (overflow.2 big), fun fits => ?_⟩
  have fits' : ¬ leMag u.1 (lastPlace f m e) f.maxM f.maxE = false := fun h => by rw [overflow.1 h] at fits; cases fits
  obtain ⟨small, normalCode, fitsCode⟩ := h.rounded_fits rounds low high fun same => by
    rw [sameRounding same]
    rw [Bool.not_eq_false, leMag_iff] at fits'
    exact fits'
  obtain ⟨finite, sign, value, parity⟩ := h.encode_rounded neg small placeLow normalCode fitsCode
  refine ⟨_, h.nearest is rounds arithmetic placeLow normal finite value parity, ?_, ?_⟩
  · rw [sign, beq_eq_false_iff_ne.2 h.notE2m1, Bool.false_and, Bool.not_false, Bool.and_true]
  · generalize encodeFin f neg r.1 (place f m e) = c at *
    have scale := two_zpow_pos (place f m e)
    have lost : (y.above (f.rat c) || y.below (f.rat c)) = r.2 := by
      rw [Bool.eq_iff_iff, inexact, Bool.or_eq_true, (is _).1, (is _).2, ← ne_iff_lt_or_gt, value, ne_eq, signed_inj, ne_eq,
        div_eq_iff scale.ne', eq_comm]
    have flushed : (ftz && r.1 != 0 && !leMag 1 f.emin r.1 (place f m e)) = true ↔ ftz = true ∧ f.rat c ≠ 0 ∧ |f.rat c| < f.least := by
      have zero : f.rat c ≠ 0 ↔ r.1 ≠ 0 := by
        rw [← Rat.cast_ne_zero (α := ℝ), value, ne_eq, show (0 : ℝ) = signed neg 0 by cases neg <;> simp [signed], signed_inj]
        simp [scale.ne']
      have less : |f.rat c| < f.least ↔ leMag 1 f.emin r.1 (place f m e) = false := by
        rw [leMag_false, ← Rat.cast_lt (K := ℝ), Rat.cast_abs, value, signed_abs _ (by positivity), least_real, Nat.cast_one, one_mul]
      rw [zero, less, Bool.and_eq_true, Bool.and_eq_true, bne_iff_ne, Bool.not_eq_true', and_assoc]
    rw [if_neg fits']
    split
    next yes => exact if_pos (flushed.2 yes)
    next no => rw [if_neg (mt flushed.1 no), lost, tiny]

end Sys2Proof.Machine

/-! # Exact arithmetic (R151, R152) -/

namespace Sys2Proof.Machine

/-! ## Exact results -/

theorem Exact.is_rat (q : ℚ) : (Exact.rat q).Is q := fun p => by
  simp only [Exact.rat, decide_eq_true_eq, Rat.cast_lt, and_self]

theorem Exact.is_sqrt {q : ℚ} (h : 0 < q) : (Exact.sqrt q).Is (√(q : ℝ)) := fun p => by
  have positive : (0 : ℝ) < q := by exact_mod_cast h
  simp only [Exact.sqrt, Bool.or_eq_true, Bool.and_eq_true, decide_eq_true_eq]
  constructor
  · rcases lt_or_ge p 0 with less | more
    · have : (p : ℝ) < 0 := by exact_mod_cast less
      exact ⟨fun _ => this.trans (Real.sqrt_pos.2 positive), fun _ => .inl less⟩
    · rw [Real.lt_sqrt (by exact_mod_cast more), sq]
      simp only [not_lt.2 more, false_or]
      exact_mod_cast Iff.rfl
  · rcases le_or_gt p 0 with less | more
    · have nonpos : (p : ℝ) ≤ 0 := by exact_mod_cast less
      refine ⟨fun ⟨zero, square⟩ => ?_, fun root => absurd root (by have := Real.sqrt_nonneg (q : ℝ); linarith)⟩
      have : p = 0 := le_antisymm less zero
      subst this
      simp at square
      linarith
    · rw [Real.sqrt_lt' (by exact_mod_cast more), sq]
      simp only [more.le, true_and]
      exact_mod_cast Iff.rfl

/-! ## Finite values -/

/-- A zero, or a magnitude that is not zero. -/
def XV.Proper : XV → Prop
  | .zero _ => True
  | .fin _ m _ => m ≠ 0
  | _ => False

/-- x is the number q; a zero has the sign z. -/
structure XV.Exactly (x : XV) (q : ℚ) (z : Bool) : Prop where
  proper : x.Proper
  value : x.rat = q
  sign : q = 0 → x = .zero z

theorem XV.Of.proper {f : Fmt} {x : XV} (h : XV.Of f x) (finite : x.isFinite = true) : x.Proper := by
  cases h with
  | nan s => cases finite
  | inf neg => cases finite
  | zero neg => trivial
  | fin neg some small low => exact some

theorem XV.fin_rat_ne_zero {neg : Bool} {m : Nat} (some : m ≠ 0) (e : Int) : (XV.fin neg m e).rat ≠ 0 := by
  simp only [XV.rat]
  refine mul_ne_zero (mul_ne_zero ?_ (by exact_mod_cast some)) (zpow_ne_zero _ (by norm_num))
  split <;> norm_num

theorem XV.fin_rat_neg {neg : Bool} {m : Nat} (some : m ≠ 0) (e : Int) : (XV.fin neg m e).rat < 0 ↔ neg = true := by
  have positive : (0 : ℚ) < m * 2 ^ e := mul_pos (by exact_mod_cast Nat.pos_of_ne_zero some) (zpow_pos (by norm_num) e)
  cases neg with
  | false =>
    simp only [XV.rat, Bool.false_eq_true, ↓reduceIte, one_mul, iff_false, not_lt]
    exact positive.le
  | true =>
    simp only [XV.rat, ↓reduceIte, iff_true]
    linarith

theorem XV.exactly_zero (z : Bool) : (XV.zero z).Exactly 0 z := ⟨trivial, rfl, fun _ => rfl⟩

theorem XV.exactly_fin {neg : Bool} {m : Nat} (some : m ≠ 0) (e : Int) (z : Bool) : (XV.fin neg m e).Exactly (XV.fin neg m e).rat z :=
  ⟨some, rfl, fun h => absurd h (XV.fin_rat_ne_zero some e)⟩

theorem XV.Exactly.of_sign {x : XV} {q : ℚ} {z z' : Bool} (h : x.Exactly q z) (same : q = 0 → z = z') : x.Exactly q z' :=
  ⟨h.proper, h.value, fun zero => by rw [h.sign zero, same zero]⟩

/-- A signed multiple of a power of two. -/
theorem XV.ofInt_exactly (i : Int) (e : Int) (z : Bool) : (XV.ofInt i e z).Exactly (i * 2 ^ e) z := by
  unfold XV.ofInt
  split
  next zero => subst zero; simpa using XV.exactly_zero z
  next some =>
    have magnitude : i.natAbs ≠ 0 := Int.natAbs_ne_zero.2 some
    have value : (XV.fin (decide (i < 0)) i.natAbs e).rat = i * 2 ^ e := by
      simp only [XV.rat, decide_eq_true_eq]
      congr 1
      have cast : ((i.natAbs : ℕ) : ℚ) = ((|i| : ℤ) : ℚ) := by rw [← Int.natCast_natAbs]; rfl
      rw [cast]
      split
      · rw [abs_of_neg ‹_›]; push_cast; ring
      · rw [abs_of_nonneg (not_lt.1 ‹_›)]; ring
    rw [← value]
    exact XV.exactly_fin magnitude e z

/-- A finite value as a multiple of a smaller power of two. -/
theorem XV.at_rat {neg : Bool} {m : Nat} {e g : Int} (low : g ≤ e) : ((XV.fin neg m e).at g : ℚ) * 2 ^ g = (XV.fin neg m e).rat := by
  have power : (2 : ℚ) ^ e = ((2 ^ (e - g).toNat : Nat) : ℚ) * 2 ^ g := by
    rw [cast_two_pow_toNat (by omega), ← zpow_add₀ (by norm_num)]; congr 1; omega
  simp only [XV.at, XV.rat, power]
  cases neg <;> simp <;> ring

theorem XV.add_exactly (mode : Nat) {x y : XV} (hx : x.Proper) (hy : y.Proper) :
    ∃ w, x.add mode y = (w, 0) ∧ w.Exactly (x.rat + y.rat) (if x.sign = y.sign then x.sign else mode == 2) := by
  match x, y, hx, hy with
  | .zero a, .zero b, _, _ => exact ⟨_, rfl, by rw [XV.rat_zero, XV.rat_zero, add_zero]; exact XV.exactly_zero _⟩
  | .zero a, .fin b n g, _, nonzero => exact ⟨_, rfl, by rw [XV.rat_zero, zero_add]; exact XV.exactly_fin nonzero g _⟩
  | .fin a m e, .zero b, nonzero, _ => exact ⟨_, rfl, by rw [XV.rat_zero, add_zero]; exact XV.exactly_fin nonzero e _⟩
  | .fin a m e, .fin b n g, hm, hn =>
    refine ⟨_, rfl, ?_⟩
    have sum : (((XV.fin a m e).at (min e g) + (XV.fin b n g).at (min e g) : ℤ) : ℚ) * 2 ^ min e g = (XV.fin a m e).rat + (XV.fin b n g).rat := by
      rw [Int.cast_add, add_mul, XV.at_rat (min_le_left e g), XV.at_rat (min_le_right e g)]
    have exactly := XV.ofInt_exactly ((XV.fin a m e).at (min e g) + (XV.fin b n g).at (min e g)) (min e g) (mode == 2)
    rw [sum] at exactly
    refine exactly.of_sign fun zero => ?_
    rw [if_neg]
    intro same
    have negative := XV.fin_rat_neg (neg := a) hm e
    have negative' := XV.fin_rat_neg (neg := b) hn g
    have nonzero := XV.fin_rat_ne_zero (neg := a) hm e
    rw [show b = a from same.symm] at zero negative'
    cases a
    · have := not_lt.1 (mt negative.1 Bool.false_ne_true)
      have := not_lt.1 (mt negative'.1 Bool.false_ne_true)
      exact nonzero (by linarith)
    · have := negative.2 rfl
      have := negative'.2 rfl
      linarith

theorem XV.mul_exactly {x y : XV} (hx : x.Proper) (hy : y.Proper) :
    ∃ w, x.mul y = (w, 0) ∧ w.Exactly (x.rat * y.rat) (x.sign != y.sign) ∧ w.sign = (x.sign != y.sign) := by
  match x, y, hx, hy with
  | .zero a, .zero b, _, _ => exact ⟨_, rfl, by rw [XV.rat_zero, zero_mul]; exact XV.exactly_zero _, rfl⟩
  | .zero a, .fin b n g, _, _ => exact ⟨_, rfl, by rw [XV.rat_zero, zero_mul]; exact XV.exactly_zero _, rfl⟩
  | .fin a m e, .zero b, _, _ => exact ⟨_, rfl, by rw [XV.rat_zero, mul_zero]; exact XV.exactly_zero _, rfl⟩
  | .fin a m e, .fin b n g, hm, hn =>
    refine ⟨_, rfl, ?_, rfl⟩
    have product : (XV.fin (a != b) (m * n) (e + g)).rat = (XV.fin a m e).rat * (XV.fin b n g).rat := by
      simp only [XV.rat, zpow_add₀ (show (2 : ℚ) ≠ 0 by norm_num)]
      cases a <;> cases b <;> simp <;> ring
    rw [← product]
    exact XV.exactly_fin (mul_ne_zero hm hn) _ _

theorem XV.neg_proper {x : XV} (h : x.Proper) : x.neg.Proper ∧ x.neg.rat = -x.rat ∧ x.neg.sign = !x.sign := by
  match x, h with
  | .zero a, _ => exact ⟨trivial, by simp [XV.neg, XV.rat], rfl⟩
  | .fin a m e, hm =>
    refine ⟨hm, ?_, rfl⟩
    cases a <;> simp [XV.neg, XV.rat]

/-! ## Rounding exact values -/

theorem Fmt.Ieee.roundXV_rounded {f : Fmt} (h : f.Ieee) {x : XV} {q : ℚ} {z : Bool} (exactly : x.Exactly q z) {mode : Nat} (arithmetic : mode < 4)
    (ftz : Bool) : RoundedTo f mode ftz false q z (roundXV f mode ftz false x) := by
  match x, exactly with
  | .zero n, exactly =>
    have zero : q = 0 := exactly.value.symm
    have same := exactly.sign zero
    rw [XV.zero.injEq] at same
    exact ⟨fun some => absurd zero some, fun _ => by rw [same]; rfl⟩
  | .fin neg m e, exactly =>
    have some : m ≠ 0 := exactly.proper
    have value := exactly.value
    refine ⟨fun _ => ?_, fun zero => absurd (value.trans zero) (XV.fin_rat_ne_zero some e)⟩
    have sign : decide (q < 0) = neg := by rw [← value, Bool.eq_iff_iff, decide_eq_true_eq, XV.fin_rat_neg some e]
    have is : (Exact.rat q).Is (signed neg (m * 2 ^ e)) := by
      rw [← XV.rat_fin, value]; exact Exact.is_rat q
    rw [sign]
    exact h.roundMag_rounded is ⟨fun _ => rfl, fun sticky => absurd sticky Bool.false_ne_true⟩ some
      (fun sticky => absurd sticky Bool.false_ne_true) arithmetic ftz

theorem FEnv.done_eq (v : FEnv) (f : Fmt) (x : XV) : v.done f (x, 0) = roundXV f v.mode v.ftz false x := by
  have flags : ∀ fl : Flags, fl ||| 0 = fl := fun _ => BitVec.or_zero
  simp only [FEnv.done, flags]

end Sys2Proof.Machine

/-! # Quotients and roots (R153, R392, R395) -/

namespace Sys2Proof.Machine

/-! ## Integer square roots -/

theorem isqrtBits_sqrt (n : Nat) : ∀ k r : Nat, r * r ≤ n → n < (r + 2 ^ k) * (r + 2 ^ k) → isqrtBits n k r = Nat.sqrt n
  | 0, r, low, high => Nat.eq_sqrt.2 ⟨low, high⟩
  | k + 1, r, low, high => by
    rw [isqrtBits]
    split
    next fits =>
      refine isqrtBits_sqrt n k _ fits ?_
      rwa [Nat.add_assoc, ← Nat.two_mul, ← Nat.pow_succ']
    next more => exact isqrtBits_sqrt n k r low (not_le.1 more)

theorem isqrt_eq (n : Nat) : isqrt n = Nat.sqrt n := by
  refine isqrtBits_sqrt n _ 0 (Nat.zero_le _) ?_
  by_cases zero : n = 0
  · subst zero; simp
  · have := (bitLen_bounds zero).2.1
    rw [zero_add, ← Nat.pow_add]
    exact this.trans_le (Nat.pow_le_pow_right (by norm_num) (by omega))

/-! ## Magnitudes cut off -/

/-- A quotient, cut off below its last bit. -/
theorem Magnitude.quotient (a : Nat) {n : Nat} (nonzero : n ≠ 0) (e : Int) : Magnitude ((a : ℝ) / n * 2 ^ e) (a / n) e (a % n != 0) := by
  have positive := two_zpow_pos e
  have divisor : (0 : ℝ) < n := by exact_mod_cast Nat.pos_of_ne_zero nonzero
  have parts : (a : ℝ) = n * (a / n : Nat) + (a % n : Nat) := by exact_mod_cast (Nat.div_add_mod a n).symm
  have small : ((a % n : Nat) : ℝ) < n := by exact_mod_cast Nat.mod_lt a (Nat.pos_of_ne_zero nonzero)
  constructor
  · intro exact
    have none : a % n = 0 := by simpa using exact
    rw [none, Nat.cast_zero, add_zero] at parts
    rw [parts, mul_div_cancel_left₀ _ divisor.ne']
  · intro cut
    have rest : (0 : ℝ) < (a % n : Nat) := by
      have : a % n ≠ 0 := by simpa using cut
      exact_mod_cast Nat.pos_of_ne_zero this
    constructor
    · refine mul_lt_mul_of_pos_right ?_ positive
      rw [lt_div_iff₀ divisor]
      linarith
    · refine mul_lt_mul_of_pos_right ?_ positive
      rw [div_lt_iff₀ divisor]
      linarith

/-- The square root of a quotient, cut off below its last bit. -/
theorem Magnitude.root (a : Nat) {n : Nat} (nonzero : n ≠ 0) (e : Int) :
    Magnitude (√((a : ℝ) / n) * 2 ^ e) (isqrt (a / n)) e (isqrt (a / n) * isqrt (a / n) * n != a) := by
  have positive := two_zpow_pos e
  have divisor : (0 : ℝ) < n := by exact_mod_cast Nat.pos_of_ne_zero nonzero
  have nonneg : (0 : ℝ) ≤ (a : ℝ) / n := by positivity
  rw [isqrt_eq]
  have low : Nat.sqrt (a / n) * Nat.sqrt (a / n) * n ≤ a := (Nat.mul_le_mul_right n (Nat.sqrt_le (a / n))).trans (Nat.div_mul_le_self a n)
  have high : a < (Nat.sqrt (a / n) + 1) * (Nat.sqrt (a / n) + 1) * n := by
    have := Nat.lt_succ_sqrt (a / n)
    rw [Nat.div_lt_iff_lt_mul (Nat.pos_of_ne_zero nonzero)] at this
    exact this
  generalize Nat.sqrt (a / n) = r at *
  constructor
  · intro exact
    have same : r * r * n = a := by simpa using exact
    have value : (a : ℝ) / n = r * r := by rw [div_eq_iff divisor.ne']; exact_mod_cast same.symm
    rw [value, Real.sqrt_mul_self (Nat.cast_nonneg r)]
  · intro cut
    have less : r * r * n < a := lt_of_le_of_ne low (by simpa using cut)
    constructor
    · refine mul_lt_mul_of_pos_right ?_ positive
      rw [Real.lt_sqrt (Nat.cast_nonneg r), sq, lt_div_iff₀ divisor]
      exact_mod_cast less
    · refine mul_lt_mul_of_pos_right ?_ positive
      rw [Real.sqrt_lt' (by positivity), sq, div_lt_iff₀ divisor]
      exact_mod_cast high

/-- The whole root of a number of 2^(2 k) or more has more than k bits. -/
theorem lt_bitLen_isqrt {a k : Nat} (h : 2 ^ (2 * k) ≤ a) : k < bitLen (isqrt a) := by
  refine lt_bitLen ?_
  rw [isqrt_eq, Nat.le_sqrt, ← Nat.pow_add, ← two_mul]
  exact h

/-! ## The directed mode that rounds away from zero -/

/-- Mode 5 rounds away from zero: for a sign it is one of the directed modes. -/
theorem roundMag_away {f : Fmt} (h : f.Ieee) (ftz neg : Bool) (m : Nat) (e : Int) (sticky : Bool) :
    roundMag f 5 ftz false neg m e sticky = roundMag f (if neg then 2 else 3) ftz false neg m e sticky := by
  have same : ∀ q, roundAt 5 neg m e q sticky = roundAt (if neg then 2 else 3) neg m e q sticky := fun q => by
    cases neg <;> rfl
  have code : f.overflowCode 5 false neg = f.overflowCode (if neg then 2 else 3) false neg := by
    cases neg <;> simp [Fmt.overflowCode]
  simp only [h.roundMag_eq, same, code]

/-- One of the two values that enclose a magnitude. -/
theorem Fmt.Ieee.approxOr_rounded {f : Fmt} (h : f.Ieee) {y : Exact} {neg : Bool} {Y : ℝ} (is : y.Is (signed neg Y)) {m : Nat} {e : Int} {sticky : Bool}
    (magnitude : Magnitude Y m e sticky) (some : m ≠ 0) (room : sticky = true → f.mb + 1 < bitLen m) (fn : Nat) (v : FEnv) (operand : Nat) :
    ∃ mode ∈ [1, if neg then 2 else 3], Rounded f mode v.ftz false y neg (approxOr fn v f operand neg m e sticky) := by
  have toward := h.roundMag_rounded is magnitude some room (mode := 1) (by norm_num) v.ftz
  have away := h.roundMag_rounded is magnitude some room (mode := if neg then 2 else 3) (by split <;> norm_num) v.ftz
  have delivered : approxOr fn v f operand neg m e sticky = roundMag f 1 v.ftz false neg m e sticky ∨
      approxOr fn v f operand neg m e sticky = roundMag f 5 v.ftz false neg m e sticky := by
    simp only [approxOr, approx]
    split
    · exact .inl rfl
    · split
      · exact .inr rfl
      · exact .inl rfl
  obtain down | up := delivered
  · exact ⟨1, List.mem_cons_self, by rw [down]; exact toward⟩
  · exact ⟨_, List.mem_cons_of_mem _ List.mem_cons_self, by rw [up, roundMag_away h]; exact away⟩

end Sys2Proof.Machine

/-! # The operations of class 2 on finite operands (R392, R395) -/

namespace Sys2Proof.Machine

/-! ## Operands -/

/-- A code by its fields, in every format (R149). -/
theorem decode_fields (f : Fmt) {g e m : Nat} (hg : g < 2) (he : e < 2 ^ f.eb) (hm : m < 2 ^ f.mb) :
    let c := g * 2 ^ (f.mb + f.eb) + e * 2 ^ f.mb + m
    decodeF f c =
      if f = Fmt.e2m1 ∧ c % 16 = 8 then .nan false
      else if f = Fmt.e4m3 ∧ c % 128 = 127 then .nan false
      else if hasInf f && e == 2 ^ f.eb - 1 then if m = 0 then .inf (g == 1) else .nan (decide (f ≠ Fmt.e5m2 ∧ m < 2 ^ (f.mb - 1)))
      else if e = 0 then if m = 0 then .zero (g == 1) else .fin (g == 1) m f.qmin
      else .fin (g == 1) (m + 2 ^ f.mb) (f.qmin + (e - 1 : Nat)) := by
  obtain ⟨fraction, exponent, sign⟩ := code_fields f hg he hm
  simp only [decodeF, fraction, exponent, sign]

/-- The value that sign, exponent and fraction give. -/
theorem plain_value (f : Fmt) {g : Nat} (e m : Nat) (hg : g < 2) :
    let x := if e = 0 then if m = 0 then XV.zero (g == 1) else .fin (g == 1) m f.qmin else .fin (g == 1) (m + 2 ^ f.mb) (f.qmin + (e - 1 : Nat))
    x.isFinite = true ∧ x.sign = (g == 1) ∧
      x.rat = (-1) ^ g * (if e = 0 then (m : ℚ) / 2 ^ f.mb * 2 ^ (1 - f.bias : ℤ) else (1 + (m : ℚ) / 2 ^ f.mb) * 2 ^ ((e : ℤ) - f.bias)) := by
  have sign : (if (g == 1) = true then (-1 : ℚ) else 1) = (-1) ^ g := by
    obtain rfl | rfl : g = 0 ∨ g = 1 := by omega
    · simp
    · simp
  have unit : (2 : ℚ) ^ f.qmin = 2 ^ (1 - f.bias : ℤ) / 2 ^ f.mb := by
    rw [Fmt.qmin, Fmt.emin, zpow_sub₀ (by norm_num), zpow_natCast]
  have whole : (2 : ℚ) ^ f.mb ≠ 0 := by positivity
  dsimp only
  split
  next subnormal =>
    split
    next zero => exact ⟨rfl, rfl, by simp [zero, XV.rat]⟩
    next some => exact ⟨rfl, rfl, by rw [XV.rat, sign, unit]; ring⟩
  next normal =>
    have power : (2 : ℚ) ^ (f.qmin + (e - 1 : Nat)) = 2 ^ ((e : ℤ) - f.bias) / 2 ^ f.mb := by
      rw [← zpow_natCast, ← zpow_sub₀ (by norm_num)]
      congr 1
      simp only [Fmt.qmin, Fmt.emin]; omega
    exact ⟨rfl, rfl, by rw [XV.rat, sign, power]; push_cast; field_simp; ring⟩

/-- A subnormal operand is a zero of its sign under FTZ (R154). -/
theorem XV.Of.flush_eq {f : Fmt} {x : XV} (h : XV.Of f x) (ftz : Bool) :
    x.flush ftz f = if ftz = true ∧ x.isFinite = true ∧ x.rat ≠ 0 ∧ |x.rat| < f.least then .zero x.sign else x := by
  cases h with
  | nan s => simp [XV.flush, XV.isFinite]
  | inf neg => simp [XV.flush, XV.isFinite]
  | zero neg => simp [XV.flush, XV.rat]
  | @fin neg m e some small low =>
    have nonzero := XV.fin_rat_ne_zero (neg := neg) some e
    have less : |(XV.fin neg m e).rat| < f.least ↔ leMag 1 f.emin m e = false := by
      have positive := two_zpow_pos e
      rw [leMag_false, ← Rat.cast_lt (K := ℝ), Rat.cast_abs, XV.rat_fin, signed_abs _ (by positivity), least_real, Nat.cast_one, one_mul]
    simp only [XV.flush, less, nonzero, XV.isFinite, ne_eq, not_false_eq_true, true_and, Bool.and_eq_true, Bool.not_eq_true', XV.sign]

theorem XV.Of.flush {f : Fmt} {x : XV} (h : XV.Of f x) (ftz : Bool) : XV.Of f (x.flush ftz f) := by
  rw [h.flush_eq]
  split
  · exact .zero _
  · exact h

theorem Fmt.Ieee.read_of {f : Fmt} (h : f.Ieee) (v : FEnv) (bits : Nat) : XV.Of f (v.read f bits) := (h.decode_of bits).flush _

theorem Fmt.Ieee.read_proper {f : Fmt} (h : f.Ieee) {v : FEnv} {bits : Nat} (finite : (v.read f bits).isFinite = true) : (v.read f bits).Proper :=
  (h.read_of v bits).proper finite

/-- A finite value is zero, or has a sign and a magnitude. -/
theorem XV.Proper.cases {x : XV} (h : x.Proper) : (∃ n, x = .zero n ∧ x.rat = 0) ∨ ∃ n m e, x = .fin n m e ∧ m ≠ 0 ∧ x.rat ≠ 0 := by
  match x, h with
  | .zero n, _ => exact .inl ⟨n, rfl, rfl⟩
  | .fin n m e, nonzero => exact .inr ⟨n, m, e, rfl, nonzero, XV.fin_rat_ne_zero nonzero e⟩

/-! ## Sums and products -/

section
variable {f : Fmt} (h : f.Ieee) {v : FEnv} (arithmetic : v.mode < 4) {a b d : Nat} (hx : (v.read f a).isFinite = true) (hy : (v.read f b).isFinite = true)
include h arithmetic hx hy

theorem Fmt.Ieee.fAdd_rounded : RoundedTo f v.mode v.ftz false ((v.read f a).rat + (v.read f b).rat)
    (if (v.read f a).sign = (v.read f b).sign then (v.read f a).sign else v.mode == 2) (fAdd v f a b) := by
  obtain ⟨w, sum, exactly⟩ := XV.add_exactly v.mode (h.read_proper hx) (h.read_proper hy)
  rw [fAdd, sum, FEnv.done_eq]
  exact h.roundXV_rounded exactly arithmetic v.ftz

theorem Fmt.Ieee.fSub_rounded : RoundedTo f v.mode v.ftz false ((v.read f a).rat - (v.read f b).rat)
    (if (v.read f a).sign = !(v.read f b).sign then (v.read f a).sign else v.mode == 2) (fSub v f a b) := by
  obtain ⟨proper, value, sign⟩ := XV.neg_proper (h.read_proper hy)
  obtain ⟨w, sum, exactly⟩ := XV.add_exactly v.mode (h.read_proper hx) proper
  rw [value, ← sub_eq_add_neg, sign] at exactly
  rw [fSub, sum, FEnv.done_eq]
  exact h.roundXV_rounded exactly arithmetic v.ftz

theorem Fmt.Ieee.fMul_rounded : RoundedTo f v.mode v.ftz false ((v.read f a).rat * (v.read f b).rat)
    ((v.read f a).sign != (v.read f b).sign) (fMul v f a b) := by
  obtain ⟨w, product, exactly, -⟩ := XV.mul_exactly (h.read_proper hx) (h.read_proper hy)
  rw [fMul, product, FEnv.done_eq]
  exact h.roundXV_rounded exactly arithmetic v.ftz

theorem Fmt.Ieee.fFma_rounded (hz : (v.read f d).isFinite = true) :
    RoundedTo f v.mode v.ftz false ((v.read f a).rat * (v.read f b).rat + (v.read f d).rat)
      (if ((v.read f a).sign != (v.read f b).sign) = (v.read f d).sign then (v.read f a).sign != (v.read f b).sign else v.mode == 2) (fFma v f a b d) := by
  obtain ⟨p, product, pExactly, pSign⟩ := XV.mul_exactly (h.read_proper hx) (h.read_proper hy)
  obtain ⟨w, sum, exactly⟩ := XV.add_exactly v.mode pExactly.proper (h.read_proper hz)
  rw [pExactly.value, pSign] at exactly
  have none : (0 : Flags) ||| 0 = 0 := by decide
  simp only [fFma, product, sum, none]
  rw [FEnv.done_eq]
  exact h.roundXV_rounded exactly arithmetic v.ftz

end

/-! ## Quotients -/

/-- A rational number of a sign and a magnitude that is not zero is negative where the sign says so. -/
theorem decide_neg_of_signed {q : ℚ} {neg : Bool} {Y : ℝ} (positive : 0 < Y) (value : (q : ℝ) = signed neg Y) : decide (q < 0) = neg := by
  have cast : q < 0 ↔ (q : ℝ) < 0 := by exact_mod_cast Iff.rfl
  cases neg with
  | false => simp only [decide_eq_false_iff_not, cast, value, signed, Bool.false_eq_true, ↓reduceIte]; linarith
  | true => simp only [decide_eq_true_eq, cast, value, signed, ↓reduceIte]; linarith

/-- A dividend scaled by more bits than a divisor has leaves a quotient of more than 70 bits. -/
theorem lt_bitLen_quotient {a n : Nat} (ha : a ≠ 0) (hn : n ≠ 0) : 70 < bitLen (a * 2 ^ (bitLen n + 70) / n) := by
  refine lt_bitLen ((Nat.le_div_iff_mul_le (Nat.pos_of_ne_zero hn)).2 ?_)
  have divisor := (bitLen_bounds hn).2.1
  calc 2 ^ 70 * n ≤ 2 ^ 70 * 2 ^ bitLen n := Nat.mul_le_mul_left _ divisor.le
    _ = 1 * 2 ^ (bitLen n + 70) := by ring
    _ ≤ a * 2 ^ (bitLen n + 70) := Nat.mul_le_mul_right _ (Nat.pos_of_ne_zero ha)

theorem Fmt.Ieee.fDiv_rounded {f : Fmt} (h : f.Ieee) {v : FEnv} (arithmetic : v.mode < 4) {a b : Nat} (hx : (v.read f a).isFinite = true)
    (hy : (v.read f b).isFinite = true) (divisor : (v.read f b).rat ≠ 0) :
    RoundedTo f v.mode v.ftz false ((v.read f a).rat / (v.read f b).rat) ((v.read f a).sign != (v.read f b).sign) (fDiv v f a b) := by
  obtain ⟨q, ey, zero⟩ | ⟨q, n, g, ey, hn, -⟩ := (h.read_proper hy).cases
  · exact absurd zero divisor
  obtain ⟨p, ex, -⟩ | ⟨p, m, e, ex, hm, dividend⟩ := (h.read_proper hx).cases
  · simp only [fDiv, ex, ey, XV.rat_zero, zero_div, XV.sign]
    exact ⟨fun some => absurd rfl some, fun _ => by rw [if_neg h.notE2m1]⟩
  · have long := lt_bitLen_quotient hm hn
    have narrow := h.narrow
    have positive : (0 : ℝ) < ((m * 2 ^ (bitLen n + 70) : Nat) : ℝ) / n * 2 ^ (e - g - (bitLen n + 70 : Nat)) := by
      have := Nat.pos_of_ne_zero hm
      have := Nat.pos_of_ne_zero hn
      have := two_zpow_pos (e - g - (bitLen n + 70 : Nat))
      positivity
    have value : (((v.read f a).rat / (v.read f b).rat : ℚ) : ℝ) =
        signed (p != q) (((m * 2 ^ (bitLen n + 70) : Nat) : ℝ) / n * 2 ^ (e - g - (bitLen n + 70 : Nat))) := by
      rw [ex, ey, Rat.cast_div, XV.rat_fin, XV.rat_fin, zpow_sub₀ (by norm_num), zpow_sub₀ (by norm_num), zpow_natCast]
      have := (two_zpow_pos g).ne'
      have : (n : ℝ) ≠ 0 := by exact_mod_cast hn
      push_cast
      cases p <;> cases q <;> simp [signed] <;> field_simp
    refine ⟨fun _ => ?_, fun zero => absurd zero (div_ne_zero dividend divisor)⟩
    rw [decide_neg_of_signed positive value]
    simp only [fDiv, ex, ey]
    refine h.roundMag_rounded ?_ (Magnitude.quotient _ hn _) ?_ (fun _ => by omega) arithmetic v.ftz
    · have is := Exact.is_rat ((v.read f a).rat / (v.read f b).rat)
      rw [value, ex, ey] at is
      exact is
    · intro none
      rw [none] at long
      exact absurd long (by decide)

theorem Fmt.Ieee.fDiv_zero {f : Fmt} (h : f.Ieee) {v : FEnv} {a b : Nat} (hx : (v.read f a).isFinite = true)
    (hy : (v.read f b).isFinite = true) (divisor : (v.read f b).rat = 0) :
    fDiv v f a b = if (v.read f a).rat = 0 then ⟨f.nan, fInvalid⟩ else ⟨infCode f ((v.read f a).sign != (v.read f b).sign), fDivZero⟩ := by
  obtain ⟨q, ey, -⟩ | ⟨q, n, g, -, -, some⟩ := (h.read_proper hy).cases
  · obtain ⟨p, ex, zero⟩ | ⟨p, m, e, ex, -, some⟩ := (h.read_proper hx).cases
    · rw [if_pos zero]; simp only [fDiv, ex, ey]
    · rw [if_neg some]; simp only [fDiv, ex, ey, XV.sign]
  · exact absurd divisor some

end Sys2Proof.Machine

/-! # Roots and reciprocals (R392, R395) -/

namespace Sys2Proof.Machine

/-- An odd exponent as an even one, with one more bit in the magnitude. -/
theorem even_exponent (m : Nat) (e : Int) :
    ((if (e % 2 == 1) = true then m * 2 else m : Nat) : ℝ) * 2 ^ (if (e % 2 == 1) = true then e - 1 else e) = m * 2 ^ e ∧
      (if (e % 2 == 1) = true then e - 1 else e) % 2 = 0 := by
  by_cases odd : e % 2 = 1
  · simp only [odd, beq_self_eq_true, ↓reduceIte]
    refine ⟨?_, by omega⟩
    rw [zpow_sub_one₀ (by norm_num)]
    push_cast; ring
  · simp only [odd, beq_iff_eq, ↓reduceIte]
    exact ⟨trivial, by omega⟩

theorem two_zpow_half {e : Int} (even : e % 2 = 0) : (2 : ℝ) ^ e = 2 ^ (e / 2) * 2 ^ (e / 2) := by
  rw [← zpow_add₀ (by norm_num)]
  congr 1; omega

theorem sqrt_scaled (a k : ℝ) (nonneg : 0 ≤ k) : √(a * (k * k)) = √a * k := by
  rw [Real.sqrt_mul' _ (mul_self_nonneg k), Real.sqrt_mul_self nonneg]

/-- A finite value above zero, or below it. -/
theorem XV.Proper.of_pos {x : XV} (h : x.Proper) (positive : 0 < x.rat) : ∃ m e, x = .fin false m e ∧ m ≠ 0 := by
  obtain ⟨n, rfl, -⟩ | ⟨n, m, e, rfl, some, -⟩ := h.cases
  · exact absurd positive (lt_irrefl _)
  · cases n with
    | false => exact ⟨m, e, rfl, some⟩
    | true => exact absurd ((XV.fin_rat_neg some e).2 rfl) (not_lt.2 positive.le)

theorem XV.Proper.of_neg {x : XV} (h : x.Proper) (negative : x.rat < 0) : ∃ m e, x = .fin true m e := by
  obtain ⟨n, rfl, -⟩ | ⟨n, m, e, rfl, some, -⟩ := h.cases
  · exact absurd negative (lt_irrefl _)
  · obtain rfl := (XV.fin_rat_neg some e).1 negative
    exact ⟨m, e, rfl⟩

theorem XV.Proper.of_zero {x : XV} (h : x.Proper) (zero : x.rat = 0) : x = .zero x.sign := by
  obtain ⟨n, rfl, -⟩ | ⟨n, m, e, -, -, some⟩ := h.cases
  · rfl
  · exact absurd zero some

theorem Fmt.Ieee.fSqrt_rounded {f : Fmt} (h : f.Ieee) {v : FEnv} (arithmetic : v.mode < 4) {a : Nat} (hx : (v.read f a).isFinite = true)
    (positive : 0 < (v.read f a).rat) : Rounded f v.mode v.ftz false (.sqrt (v.read f a).rat) false (fSqrt v f a) := by
  obtain ⟨m, e, ex, hm⟩ := (h.read_proper hx).of_pos positive
  have is := Exact.is_sqrt positive
  rw [ex] at is ⊢
  have value : ((XV.fin false m e).rat : ℝ) = m * 2 ^ e := XV.rat_fin false m e
  obtain ⟨scaled, even⟩ := even_exponent m e
  simp only [fSqrt, ex, Bool.false_eq_true, ↓reduceIte]
  have some : (if (e % 2 == 1) = true then m * 2 else m) ≠ 0 := by split <;> omega
  generalize (if (e % 2 == 1) = true then m * 2 else m) = m' at *
  generalize (if (e % 2 == 1) = true then e - 1 else e) = e' at *
  have long : 70 < bitLen (isqrt (m' * 2 ^ 140)) := lt_bitLen_isqrt (Nat.le_mul_of_pos_left _ (Nat.pos_of_ne_zero some))
  have narrow := h.narrow
  have root : √((XV.fin false m e).rat : ℝ) = √(((m' * 2 ^ 140 : Nat) : ℝ) / (1 : Nat)) * 2 ^ ((e' - 140) / 2) := by
    have power : (2 : ℝ) ^ e' = 2 ^ 140 * (2 ^ ((e' - 140) / 2) * 2 ^ ((e' - 140) / 2)) := by
      rw [← two_zpow_half (show (e' - 140) % 2 = 0 by omega), ← zpow_natCast, ← zpow_add₀ (by norm_num)]
      congr 1; omega
    rw [value, ← scaled, power, ← mul_assoc, sqrt_scaled _ _ (two_zpow_pos _).le]
    rw [Nat.cast_one, div_one, Nat.cast_mul, Nat.cast_pow, Nat.cast_ofNat]
  have magnitude := Magnitude.root (m' * 2 ^ 140) one_ne_zero ((e' - 140) / 2)
  rw [← root, Nat.div_one, mul_one] at magnitude
  exact h.roundMag_rounded is magnitude (fun none => by rw [none] at long; exact absurd long (by decide)) (fun _ => by omega) arithmetic v.ftz

theorem Fmt.Ieee.fRcp_rounded {f : Fmt} (h : f.Ieee) {v : FEnv} {a : Nat} (hx : (v.read f a).isFinite = true) (some : (v.read f a).rat ≠ 0) :
    ∃ mode ∈ [1, if (v.read f a).sign then 2 else 3],
      Rounded f mode v.ftz false (.rat (1 / (v.read f a).rat)) (v.read f a).sign (fRcp v f a) := by
  obtain ⟨n, -, zero⟩ | ⟨n, m, e, ex, hm, -⟩ := (h.read_proper hx).cases
  · exact absurd zero some
  have is := Exact.is_rat (1 / (v.read f a).rat)
  rw [ex] at is ⊢
  have value : ((1 / (XV.fin n m e).rat : ℚ) : ℝ) = signed n (((2 ^ (bitLen m + 70) : Nat) : ℝ) / m * 2 ^ (-e - (bitLen m + 70 : Nat))) := by
    rw [Rat.cast_div, XV.rat_fin, zpow_sub₀ (by norm_num), zpow_neg, zpow_natCast]
    have := (two_zpow_pos e).ne'
    have : (m : ℝ) ≠ 0 := by exact_mod_cast hm
    push_cast
    cases n <;> simp [signed] <;> field_simp
  have long : 70 < bitLen (2 ^ (bitLen m + 70) / m) := by simpa using lt_bitLen_quotient one_ne_zero hm
  have narrow := h.narrow
  rw [value] at is
  simp only [fRcp, ex]
  exact h.approxOr_rounded is (Magnitude.quotient _ hm _) (fun none => by rw [none] at long; exact absurd long (by decide)) (fun _ => by omega) 0 v a

theorem Fmt.Ieee.fRsq_rounded {f : Fmt} (h : f.Ieee) {v : FEnv} {a : Nat} (hx : (v.read f a).isFinite = true) (positive : 0 < (v.read f a).rat) :
    ∃ mode ∈ [1, 3], Rounded f mode v.ftz false (.sqrt (1 / (v.read f a).rat)) false (fRsq v f a) := by
  obtain ⟨m, e, ex, hm⟩ := (h.read_proper hx).of_pos positive
  have is := Exact.is_sqrt (one_div_pos.2 positive)
  rw [ex] at is ⊢
  have value : ((1 / (XV.fin false m e).rat : ℚ) : ℝ) = 1 / (m * 2 ^ e) := by rw [Rat.cast_div, Rat.cast_one]; exact congrArg (1 / ·) (XV.rat_fin false m e)
  obtain ⟨scaled, even⟩ := even_exponent m e
  simp only [fRsq, ex, Bool.false_eq_true, ↓reduceIte]
  have some : (if (e % 2 == 1) = true then m * 2 else m) ≠ 0 := by split <;> omega
  generalize (if (e % 2 == 1) = true then m * 2 else m) = m' at *
  generalize (if (e % 2 == 1) = true then e - 1 else e) = e' at *
  have long : 70 < bitLen (isqrt (2 ^ (2 * (bitLen m' + 70)) / m')) := by
    refine lt_bitLen_isqrt ((Nat.le_div_iff_mul_le (Nat.pos_of_ne_zero some)).2 ?_)
    calc 2 ^ (2 * 70) * m' ≤ 2 ^ (2 * 70) * 2 ^ bitLen m' := Nat.mul_le_mul_left _ (bitLen_bounds some).2.1.le
      _ ≤ 2 ^ (2 * (bitLen m' + 70)) := by rw [← Nat.pow_add]; exact Nat.pow_le_pow_right (by norm_num) (by omega)
  have narrow := h.narrow
  have root : √((1 / (XV.fin false m e).rat : ℚ) : ℝ) =
      √(((2 ^ (2 * (bitLen m' + 70)) : Nat) : ℝ) / m') * 2 ^ (-(e' / 2) - (2 * (bitLen m' + 70) / 2 : Nat)) := by
    have halves : (2 * (bitLen m' + 70) / 2 : Nat) = bitLen m' + 70 := by omega
    have nonzero : (m' : ℝ) ≠ 0 := by exact_mod_cast some
    have unit := (two_zpow_pos (e' / 2)).ne'
    have split : 1 / (m * 2 ^ e : ℝ) = ((2 ^ (2 * (bitLen m' + 70)) : Nat) : ℝ) / m' *
        (2 ^ (-(e' / 2) - (bitLen m' + 70 : Nat)) * 2 ^ (-(e' / 2) - (bitLen m' + 70 : Nat))) := by
      rw [← scaled, two_zpow_half even, zpow_sub₀ (by norm_num), zpow_neg, zpow_natCast]
      push_cast
      rw [pow_mul']
      field_simp
    rw [halves, value, split, sqrt_scaled _ _ (two_zpow_pos _).le]
  have magnitude := Magnitude.root (2 ^ (2 * (bitLen m' + 70))) some (-(e' / 2) - (2 * (bitLen m' + 70) / 2 : Nat))
  rw [← root] at magnitude
  exact h.approxOr_rounded (neg := false) is magnitude (fun none => by rw [none] at long; exact absurd long (by decide)) (fun _ => by omega) 1 v a

end Sys2Proof.Machine

/-! # Infinities, NaNs and order (R153, R393, R394) -/

namespace Sys2Proof.Machine

/-! ## Special values -/

section
variable {f : Fmt} (h : f.Ieee) (v : FEnv)
include h

theorem Fmt.Ieee.done_nan (fl : Flags) : v.done f (.nan false, fl) = ⟨f.nan, fl⟩ := by
  have notE2m1 : (f == Fmt.e2m1) = false := beq_eq_false_iff_ne.2 h.notE2m1
  have zero : (0 : Flags) ||| fl = fl := BitVec.zero_or
  simp only [FEnv.done, roundXV, notE2m1, Bool.or_self, flagIf, Bool.false_eq_true, ↓reduceIte, zero]

theorem Fmt.Ieee.done_inf (neg : Bool) : v.done f (.inf neg, 0) = ⟨infCode f neg, 0⟩ := by
  rw [FEnv.done_eq]
  simp only [roundXV, h.notE2m1, h.notE4m3, Bool.false_and, Bool.false_eq_true, ↓reduceIte]

theorem Fmt.Ieee.infinities_meet {a b : Nat} {p q : Bool} (hx : v.read f a = .inf p) (hy : v.read f b = .inf q) :
    fAdd v f a b = (if p = q then ⟨infCode f p, 0⟩ else ⟨f.nan, fInvalid⟩) ∧ fMul v f a b = ⟨infCode f (p != q), 0⟩ ∧
      fDiv v f a b = ⟨f.nan, fInvalid⟩ := by
  refine ⟨?_, ?_, ?_⟩
  · rw [fAdd, hx, hy, XV.add]
    split
    · exact h.done_inf v p
    · exact h.done_nan v fInvalid
  · rw [fMul, hx, hy, XV.mul]; exact h.done_inf v _
  · simp only [fDiv, hx, hy]

theorem Fmt.Ieee.infinity_meets_finite {a b : Nat} {p : Bool} (hx : v.read f a = .inf p) (hy : (v.read f b).isFinite = true) :
    fAdd v f a b = ⟨infCode f p, 0⟩ ∧ fAdd v f b a = ⟨infCode f p, 0⟩ ∧
      fMul v f a b = (if (v.read f b).rat = 0 then ⟨f.nan, fInvalid⟩ else ⟨infCode f (p != (v.read f b).sign), 0⟩) ∧
      fDiv v f a b = ⟨infCode f (p != (v.read f b).sign), 0⟩ ∧ fDiv v f b a = ⟨signBit f ((v.read f b).sign != p), 0⟩ := by
  obtain ⟨q, ey, zero⟩ | ⟨q, n, g, ey, -, some⟩ := (h.read_proper hy).cases
  · rw [if_pos zero]
    refine ⟨?_, ?_, ?_, ?_, ?_⟩
    · rw [fAdd, hx, ey]; exact h.done_inf v p
    · rw [fAdd, hx, ey]; exact h.done_inf v p
    · rw [fMul, hx, ey]; exact h.done_nan v fInvalid
    · simp only [fDiv, hx, ey, XV.sign]
    · simp only [fDiv, hx, ey, XV.sign]
  · rw [if_neg some]
    refine ⟨?_, ?_, ?_, ?_, ?_⟩
    · rw [fAdd, hx, ey]; exact h.done_inf v p
    · rw [fAdd, hx, ey]; exact h.done_inf v p
    · rw [fMul, hx, ey]; exact h.done_inf v _
    · simp only [fDiv, hx, ey, XV.sign]
    · simp only [fDiv, hx, ey, XV.sign]

end

/-! ## NaNs -/

/-- FTZ leaves NaNs as they are. -/
theorem XV.flush_nan (ftz : Bool) (f : Fmt) (x : XV) : (x.flush ftz f).isNan = x.isNan ∧ (x.flush ftz f).isSnan = x.isSnan := by
  cases x with
  | fin neg m e =>
    rw [XV.flush]
    split
    · exact ⟨rfl, rfl⟩
    · exact ⟨rfl, rfl⟩
  | nan s => exact ⟨rfl, rfl⟩
  | inf neg => exact ⟨rfl, rfl⟩
  | zero neg => exact ⟨rfl, rfl⟩

theorem FEnv.read_isNan (v : FEnv) (f : Fmt) (bits : Nat) : (v.read f bits).isNan = (decodeF f bits).isNan := (XV.flush_nan _ _ _).1
theorem FEnv.read_isSnan (v : FEnv) (f : Fmt) (bits : Nat) : (v.read f bits).isSnan = (decodeF f bits).isSnan := (XV.flush_nan _ _ _).2

theorem XV.isNan_iff (x : XV) : x.isNan = true ↔ x = .nan x.isSnan := by cases x <;> simp [XV.isNan, XV.isSnan]

/-- Only a NaN is a signalling one. -/
theorem XV.isSnan_of_not_nan {x : XV} (h : x.isNan = false) : x.isSnan = false := by
  cases x with
  | nan s => cases h
  | inf neg => rfl
  | zero neg => rfl
  | fin neg m e => rfl

theorem XV.exists_nan {x : XV} (h : x.isNan = true) : ∃ s, x = .nan s := ⟨_, x.isNan_iff.1 h⟩

theorem XV.nan_add (mode : Nat) (s : Bool) (y : XV) : (XV.nan s).add mode y = (.nan false, flagIf (s || y.isSnan) fInvalid) := by
  cases y <;> simp [XV.add, XV.isSnan]

theorem XV.add_nan (mode : Nat) (x : XV) (t : Bool) : x.add mode (.nan t) = (.nan false, flagIf (x.isSnan || t) fInvalid) := by
  cases x <;> simp [XV.add, XV.isSnan]

theorem XV.nan_mul (s : Bool) (y : XV) : (XV.nan s).mul y = (.nan false, flagIf (s || y.isSnan) fInvalid) := by
  cases y <;> simp [XV.mul, XV.isSnan]

theorem XV.mul_nan (x : XV) (t : Bool) : x.mul (.nan t) = (.nan false, flagIf (x.isSnan || t) fInvalid) := by
  cases x <;> simp [XV.mul, XV.isSnan]

/-- A sum and a product with a NaN are the default NaN, with invalid for a signalling one. -/
theorem XV.add_of_nan (mode : Nat) {x y : XV} (h : (x.isNan || y.isNan) = true) :
    x.add mode y = (.nan false, flagIf (x.isSnan || y.isSnan) fInvalid) := by
  obtain hx | hy := Bool.or_eq_true_iff.1 h
  · obtain ⟨s, rfl⟩ := XV.exists_nan hx
    exact XV.nan_add mode s y
  · obtain ⟨t, rfl⟩ := XV.exists_nan hy
    exact XV.add_nan mode x t

theorem XV.mul_of_nan {x y : XV} (h : (x.isNan || y.isNan) = true) : x.mul y = (.nan false, flagIf (x.isSnan || y.isSnan) fInvalid) := by
  obtain hx | hy := Bool.or_eq_true_iff.1 h
  · obtain ⟨s, rfl⟩ := XV.exists_nan hx
    exact XV.nan_mul s y
  · obtain ⟨t, rfl⟩ := XV.exists_nan hy
    exact XV.mul_nan x t

theorem XV.neg_nan (x : XV) : x.neg.isNan = x.isNan ∧ x.neg.isSnan = x.isSnan := by cases x <;> exact ⟨rfl, rfl⟩

/-- Infinity times zero, in either order. -/
def XV.invalidProduct (x y : XV) : Bool :=
  match x, y with
  | .inf _, .zero _ => true
  | .zero _, .inf _ => true
  | _, _ => false

/-- A product of operands that are no NaN is one where it is infinity times zero, and that alone raises a flag. -/
theorem XV.mul_of_not_nan {x y : XV} (h : (x.isNan || y.isNan) = false) :
    ((x.mul y).1.isNan = x.invalidProduct y) ∧ (x.mul y).1.isSnan = false ∧ (x.mul y).2 = flagIf (x.invalidProduct y) fInvalid := by
  obtain ⟨hx, hy⟩ := Bool.or_eq_false_iff.1 h
  cases y with
  | nan t => cases hy
  | inf q =>
    cases x with
    | nan s => cases hx
    | inf p => exact ⟨rfl, rfl, rfl⟩
    | zero p => exact ⟨rfl, rfl, rfl⟩
    | fin p m e => exact ⟨rfl, rfl, rfl⟩
  | zero q =>
    cases x with
    | nan s => cases hx
    | inf p => exact ⟨rfl, rfl, rfl⟩
    | zero p => exact ⟨rfl, rfl, rfl⟩
    | fin p m e => exact ⟨rfl, rfl, rfl⟩
  | fin q n g =>
    cases x with
    | nan s => cases hx
    | inf p => exact ⟨rfl, rfl, rfl⟩
    | zero p => exact ⟨rfl, rfl, rfl⟩
    | fin p m e => exact ⟨rfl, rfl, rfl⟩

theorem XV.invalidProduct_of_nan {x y : XV} (h : (x.isNan || y.isNan) = true) : x.invalidProduct y = false := by
  obtain hx | hy := Bool.or_eq_true_iff.1 h
  · obtain ⟨s, rfl⟩ := XV.exists_nan hx
    rfl
  · obtain ⟨t, rfl⟩ := XV.exists_nan hy
    cases x <;> rfl

theorem flagIf_or (a b : Bool) (fl : Flags) : flagIf a fl ||| flagIf b fl = flagIf (a || b) fl := by
  cases a <;> cases b <;> simp [flagIf]

section
variable {f : Fmt} (h : f.Ieee) (v : FEnv)

theorem fDiv_nan {a b : Nat} (nan : ((v.read f a).isNan || (v.read f b).isNan) = true) :
    fDiv v f a b = ⟨f.nan, flagIf ((v.read f a).isSnan || (v.read f b).isSnan) fInvalid⟩ := by
  unfold fDiv
  generalize v.read f a = x at *
  generalize v.read f b = y at *
  obtain hx | hy := Bool.or_eq_true_iff.1 nan
  · obtain ⟨s, rfl⟩ := XV.exists_nan hx
    cases y <;> simp [XV.isSnan]
  · obtain ⟨t, rfl⟩ := XV.exists_nan hy
    cases x <;> simp [XV.isSnan]

theorem fSqrt_nan {a : Nat} (nan : (v.read f a).isNan = true) : fSqrt v f a = ⟨f.nan, flagIf (v.read f a).isSnan fInvalid⟩ := by
  obtain ⟨s, hs⟩ := XV.exists_nan nan
  simp only [fSqrt, hs, XV.isSnan]

include h

theorem Fmt.Ieee.arithmetic_nan {a b : Nat} (nan : ((v.read f a).isNan || (v.read f b).isNan) = true) :
    let invalid := flagIf ((v.read f a).isSnan || (v.read f b).isSnan) fInvalid
    fAdd v f a b = ⟨f.nan, invalid⟩ ∧ fSub v f a b = ⟨f.nan, invalid⟩ ∧ fMul v f a b = ⟨f.nan, invalid⟩ ∧ fDiv v f a b = ⟨f.nan, invalid⟩ := by
  obtain ⟨negNan, negSnan⟩ := (v.read f b).neg_nan
  refine ⟨?_, ?_, ?_, fDiv_nan v nan⟩
  · rw [fAdd, XV.add_of_nan v.mode nan]; exact h.done_nan v _
  · rw [fSub, XV.add_of_nan v.mode (by rw [negNan]; exact nan), negSnan]; exact h.done_nan v _
  · rw [fMul, XV.mul_of_nan nan]; exact h.done_nan v _

/-- FMA with a NaN operand: invalid for a signalling one, and for infinity times zero beside a NaN addend (log entry 55). -/
theorem Fmt.Ieee.fFma_nan {a b d : Nat} (nan : ((v.read f a).isNan || (v.read f b).isNan || (v.read f d).isNan) = true) :
    fFma v f a b d = ⟨f.nan, flagIf ((v.read f a).isSnan || (v.read f b).isSnan || (v.read f d).isSnan ||
      (v.read f a).invalidProduct (v.read f b)) fInvalid⟩ := by
  unfold fFma
  generalize v.read f a = x at *
  generalize v.read f b = y at *
  generalize v.read f d = z at *
  dsimp only
  cases operands : x.isNan || y.isNan with
  | true =>
    rw [XV.mul_of_nan operands, XV.invalidProduct_of_nan operands, XV.nan_add, h.done_nan, flagIf_or]
    simp [Bool.or_comm]
  | false =>
    obtain ⟨productNan, quiet, raised⟩ := XV.mul_of_not_nan operands
    have addend : z.isNan = true := by rw [operands] at nan; exact nan
    obtain ⟨hx, hy⟩ := Bool.or_eq_false_iff.1 operands
    rw [XV.add_of_nan v.mode (by rw [addend, Bool.or_true]), raised, quiet, h.done_nan, flagIf_or, XV.isSnan_of_not_nan hx, XV.isSnan_of_not_nan hy]
    simp

end

end Sys2Proof.Machine

/-! # The order of values: FMIN, FMAX and FCMP (R393, R394) -/

namespace Sys2Proof.Machine

/-! ## Comparison -/

/-- A finite value as a multiple of a power of two no greater than its own. -/
theorem XV.Proper.at_rat {x : XV} (h : x.Proper) {g : Int} (low : g ≤ x.exp) : (x.at g : ℚ) * 2 ^ g = x.rat := by
  obtain ⟨n, rfl, zero⟩ | ⟨n, m, e, rfl, -, -⟩ := h.cases
  · rw [zero]; simp [XV.at]
  · exact XV.at_rat low

/-- Finite values compare as the numbers they are. -/
theorem XV.Proper.compare_at {x y : XV} (hx : x.Proper) (hy : y.Proper) :
    let g := min x.exp y.exp
    compare (x.at g) (y.at g) = if x.rat < y.rat then .lt else if y.rat < x.rat then .gt else .eq := by
  intro g
  have unit : (0 : ℚ) < 2 ^ g := zpow_pos (by norm_num) g
  rw [← hx.at_rat (min_le_left x.exp y.exp), ← hy.at_rat (min_le_right x.exp y.exp)]
  change compare (x.at g) (y.at g) = if (x.at g : ℚ) * 2 ^ g < y.at g * 2 ^ g then .lt else if (y.at g : ℚ) * 2 ^ g < x.at g * 2 ^ g then .gt else .eq
  simp only [mul_lt_mul_iff_left₀ unit, Int.cast_lt]
  split
  · exact compare_lt_iff_lt.2 ‹_›
  · split
    · exact compare_gt_iff_gt.2 ‹_›
    · exact compare_eq_iff_eq.2 (by omega)

/-- What no NaN is: an infinity, or a finite value. -/
theorem XV.Of.inf_or_proper {f : Fmt} {x : XV} (h : XV.Of f x) (number : x.isNan = false) : (∃ p, x = .inf p) ∨ x.Proper := by
  cases h with
  | nan s => cases number
  | inf p => exact .inl ⟨p, rfl⟩
  | zero p => exact .inr trivial
  | fin p some small low => exact .inr some

theorem XV.Proper.cmp_eq {x y : XV} (hx : x.Proper) (hy : y.Proper) :
    x.cmp y = compare (x.at (min x.exp y.exp)) (y.at (min x.exp y.exp)) ∧ x.less y = decide (x.rat < y.rat) := by
  obtain ⟨p, rfl, -⟩ | ⟨p, m, e, rfl, -, -⟩ := hx.cases
  · obtain ⟨q, rfl, -⟩ | ⟨q, n, g, rfl, -, -⟩ := hy.cases
    · exact ⟨rfl, rfl⟩
    · exact ⟨rfl, rfl⟩
  · obtain ⟨q, rfl, -⟩ | ⟨q, n, g, rfl, -, -⟩ := hy.cases
    · exact ⟨rfl, rfl⟩
    · exact ⟨rfl, rfl⟩

theorem XV.Proper.cmp_inf {x : XV} (h : x.Proper) (p : Bool) :
    (x.cmp (.inf p) = if p then .gt else .lt) ∧ ((XV.inf p).cmp x = if p then .lt else .gt) ∧ x.less (.inf p) = !p ∧ (XV.inf p).less x = p := by
  obtain ⟨n, rfl, -⟩ | ⟨n, m, e, rfl, -, -⟩ := h.cases
  · exact ⟨rfl, rfl, rfl, rfl⟩
  · exact ⟨rfl, rfl, rfl, rfl⟩

theorem XV.inf_cmp_inf (p q : Bool) :
    ((XV.inf p).cmp (.inf q) = if (XV.inf p).less (.inf q) then .lt else if (XV.inf q).less (.inf p) then .gt else .eq) ∧
      ((XV.inf p).less (.inf q) = true → (XV.inf q).less (.inf p) = false) := by
  revert p q; decide

/-- Values that are no NaN compare by their order. -/
theorem XV.Of.cmp_eq {f : Fmt} {x y : XV} (hx : XV.Of f x) (hy : XV.Of f y) (nx : x.isNan = false) (ny : y.isNan = false) :
    x.cmp y = if x.less y then .lt else if y.less x then .gt else .eq := by
  obtain ⟨p, rfl⟩ | px := hx.inf_or_proper nx
  · obtain ⟨q, rfl⟩ | py := hy.inf_or_proper ny
    · exact (XV.inf_cmp_inf p q).1
    · obtain ⟨-, cmp, less, greater⟩ := py.cmp_inf p
      rw [cmp, less, greater]
      cases p <;> rfl
  · obtain ⟨q, rfl⟩ | py := hy.inf_or_proper ny
    · obtain ⟨cmp, -, less, greater⟩ := px.cmp_inf q
      rw [cmp, less, greater]
      cases q <;> rfl
    · rw [(px.cmp_eq py).1, (px.cmp_eq py).2, (py.cmp_eq px).2, px.compare_at py]
      simp only [decide_eq_true_eq]

/-- A value that is below another is not above it. -/
theorem XV.Of.less_asymm {f : Fmt} {x y : XV} (hx : XV.Of f x) (hy : XV.Of f y) (nx : x.isNan = false) (ny : y.isNan = false)
    (less : x.less y = true) : y.less x = false := by
  obtain ⟨p, rfl⟩ | px := hx.inf_or_proper nx
  · obtain ⟨q, rfl⟩ | py := hy.inf_or_proper ny
    · exact (XV.inf_cmp_inf p q).2 less
    · obtain ⟨-, -, greater', less'⟩ := py.cmp_inf p
      rw [less'] at less
      rw [greater', less]; rfl
  · obtain ⟨q, rfl⟩ | py := hy.inf_or_proper ny
    · obtain ⟨-, -, less', greater'⟩ := px.cmp_inf q
      rw [less', Bool.not_eq_true'] at less
      rw [greater', less]
    · rw [(px.cmp_eq py).2, decide_eq_true_eq] at less
      rw [(py.cmp_eq px).2, decide_eq_false_iff_not]
      exact less.not_gt

/-! ## FMIN and FMAX -/

/-- The code FMIN and FMAX deliver for an operand: a flushed one is a zero. -/
def XV.codeOf (f : Fmt) (x : XV) (bits : Nat) : Nat :=
  match x with
  | .zero n => signBit f n
  | _ => bits

theorem XV.Of.codeOf_eq {f : Fmt} {x : XV} (h : XV.Of f x) (bits : Nat) :
    x.codeOf f bits = if x.isFinite = true ∧ x.rat = 0 then signBit f x.sign else bits := by
  cases h with
  | nan s => simp [XV.codeOf, XV.isFinite]
  | inf neg => simp [XV.codeOf, XV.isFinite]
  | zero neg => simp [XV.codeOf, XV.isFinite, XV.rat, XV.sign]
  | fin neg some small low => rw [if_neg fun zero => XV.fin_rat_ne_zero some _ zero.2]; rfl

/-- The order of FMIN and FMAX: -0 stands below +0. -/
def XV.precedes (x y : XV) : Bool :=
  match x.cmp y with
  | .lt => true
  | .gt => false
  | .eq => x.sign && !y.sign

theorem fMinMax_eq (isMax : Bool) (v : FEnv) (f : Fmt) (a b : Nat) :
    fMinMax isMax v f a b =
      let x := v.read f a
      let y := v.read f b
      let fl := flagIf (x.isSnan || y.isSnan) fInvalid
      if x.isNan && y.isNan then ⟨f.nan, fl⟩
      else if x.isNan then ⟨y.codeOf f b, fl⟩
      else if y.isNan then ⟨x.codeOf f a, fl⟩
      else ⟨if x.precedes y != isMax then x.codeOf f a else y.codeOf f b, fl⟩ := rfl

theorem XV.Of.precedes_iff {f : Fmt} {x y : XV} (hx : XV.Of f x) (hy : XV.Of f y) (nx : x.isNan = false) (ny : y.isNan = false) :
    x.precedes y = true ↔ x.less y = true ∨ (¬ x.less y = true ∧ ¬ y.less x = true) ∧ x.sign = true ∧ ¬ y.sign = true := by
  rw [XV.precedes, hx.cmp_eq hy nx ny]
  cases less : x.less y with
  | true => simp
  | false =>
    cases greater : y.less x with
    | true => simp
    | false => simp

/-- FMIN and FMAX deliver the operand that comes first or last. -/
theorem Fmt.Ieee.fMinMax_ordered {f : Fmt} (h : f.Ieee) (isMax : Bool) (v : FEnv) (a b : Nat) :
    let x := v.read f a
    let y := v.read f b
    fMinMax isMax v f a b = ⟨if x.isNan = true ∧ y.isNan = true then f.nan else if x.isNan = true then y.codeOf f b else if y.isNan = true then x.codeOf f a
      else if (x.less y = true ∨ (¬ x.less y = true ∧ ¬ y.less x = true) ∧ x.sign = true ∧ ¬ y.sign = true) ↔ isMax = false then x.codeOf f a else y.codeOf f b,
      flagIf (x.isSnan || y.isSnan) fInvalid⟩ := by
  have ox := h.read_of v a
  have oy := h.read_of v b
  simp only [fMinMax_eq]
  generalize v.read f a = x at *
  generalize v.read f b = y at *
  cases nx : x.isNan with
  | true =>
    cases ny : y.isNan with
    | true => simp
    | false => simp
  | false =>
    cases ny : y.isNan with
    | true => simp
    | false =>
      have chosen : (x.precedes y != isMax) = true ↔ (x.precedes y = true ↔ isMax = false) := by
        cases x.precedes y <;> cases isMax <;> decide
      simp only [chosen, ox.precedes_iff oy nx ny, Bool.false_and, Bool.false_eq_true, ↓reduceIte, false_and]

/-! ## FCMP -/

theorem Fmt.Ieee.fCmp_ordered {f : Fmt} (h : f.Ieee) (v : FEnv) (a b : Nat) {c : Nat} (hc : c < 4) :
    let x := v.read f a
    let y := v.read f b
    (fCmp c v f a b).1 = if x.isNan = true ∨ y.isNan = true then c == 3 else match (generalizing := false) c with
      | 0 => decide (¬ x.less y = true ∧ ¬ y.less x = true)
      | 1 => decide (x.less y = true)
      | 2 => decide (¬ y.less x = true)
      | _ => false := by
  have ox := h.read_of v a
  have oy := h.read_of v b
  simp only [fCmp]
  generalize v.read f a = x at *
  generalize v.read f b = y at *
  cases nan : x.isNan || y.isNan with
  | true =>
    rw [if_pos (Bool.or_eq_true_iff.1 nan)]
    obtain rfl | rfl | rfl | rfl : c = 0 ∨ c = 1 ∨ c = 2 ∨ c = 3 := by omega
    · rfl
    · rfl
    · rfl
    · rfl
  | false =>
    obtain ⟨nx, ny⟩ := Bool.or_eq_false_iff.1 nan
    rw [if_neg (by simp [nx, ny]), ox.cmp_eq oy nx ny]
    have asymm := ox.less_asymm oy nx ny
    obtain rfl | rfl | rfl | rfl : c = 0 ∨ c = 1 ∨ c = 2 ∨ c = 3 := by omega
    · cases less : x.less y with
      | true => simp
      | false => cases y.less x <;> simp
    · cases less : x.less y with
      | true => simp
      | false => cases y.less x <;> simp
    · cases less : x.less y with
      | true => simp [asymm less]
      | false => cases y.less x <;> simp
    · rfl

end Sys2Proof.Machine

/-! # Class 2 floating-point: the codes and the results (R149, R151 to R154, R392 to R395) -/

namespace Sys2Proof.Machine

/-! ## The codes of the seven formats -/

/-- e2m1 has no infinity, and one code that is no number. -/
theorem decodeF_e2m1 {g e m : Nat} (hg : g < 2) (he : e < 2 ^ Fmt.e2m1.eb) (hm : m < 2 ^ Fmt.e2m1.mb) :
    decodeF Fmt.e2m1 (g * 2 ^ (Fmt.e2m1.mb + Fmt.e2m1.eb) + e * 2 ^ Fmt.e2m1.mb + m) =
      if g = 1 ∧ e = 0 ∧ m = 0 then .nan false
      else if e = 0 then if m = 0 then .zero (g == 1) else .fin (g == 1) m Fmt.e2m1.qmin
      else .fin (g == 1) (m + 2 ^ Fmt.e2m1.mb) (Fmt.e2m1.qmin + (e - 1 : Nat)) := by
  have escape : (g * 2 ^ (Fmt.e2m1.mb + Fmt.e2m1.eb) + e * 2 ^ Fmt.e2m1.mb + m) % 16 = 8 ↔ g = 1 ∧ e = 0 ∧ m = 0 := by
    simp only [Fmt.e2m1] at he hm ⊢; omega
  have other : Fmt.e2m1 ≠ Fmt.e4m3 := by decide
  have finite : hasInf Fmt.e2m1 = false := rfl
  rw [decode_fields _ hg he hm]
  simp only [escape, other, finite, true_and, false_and, ↓reduceIte, Bool.false_and, Bool.false_eq_true]

/-- e4m3 has no infinity, and one NaN of either sign. -/
theorem decodeF_e4m3 {g e m : Nat} (hg : g < 2) (he : e < 2 ^ Fmt.e4m3.eb) (hm : m < 2 ^ Fmt.e4m3.mb) :
    decodeF Fmt.e4m3 (g * 2 ^ (Fmt.e4m3.mb + Fmt.e4m3.eb) + e * 2 ^ Fmt.e4m3.mb + m) =
      if e = 15 ∧ m = 7 then .nan false
      else if e = 0 then if m = 0 then .zero (g == 1) else .fin (g == 1) m Fmt.e4m3.qmin
      else .fin (g == 1) (m + 2 ^ Fmt.e4m3.mb) (Fmt.e4m3.qmin + (e - 1 : Nat)) := by
  have escape : (g * 2 ^ (Fmt.e4m3.mb + Fmt.e4m3.eb) + e * 2 ^ Fmt.e4m3.mb + m) % 128 = 127 ↔ e = 15 ∧ m = 7 := by
    simp only [Fmt.e4m3] at he hm ⊢; omega
  have other : Fmt.e4m3 ≠ Fmt.e2m1 := by decide
  have finite : hasInf Fmt.e4m3 = false := rfl
  rw [decode_fields _ hg he hm]
  simp only [escape, other, finite, true_and, false_and, ↓reduceIte, Bool.false_and, Bool.false_eq_true]

/-- The other formats have infinities and NaNs in the topmost exponent. -/
theorem decodeF_of_hasInf {f : Fmt} (infinities : hasInf f = true) {g e m : Nat} (hg : g < 2) (he : e < 2 ^ f.eb) (hm : m < 2 ^ f.mb) :
    decodeF f (g * 2 ^ (f.mb + f.eb) + e * 2 ^ f.mb + m) =
      if e = 2 ^ f.eb - 1 then if m = 0 then .inf (g == 1) else .nan (decide (f ≠ Fmt.e5m2 ∧ m < 2 ^ (f.mb - 1)))
      else if e = 0 then if m = 0 then .zero (g == 1) else .fin (g == 1) m f.qmin
      else .fin (g == 1) (m + 2 ^ f.mb) (f.qmin + (e - 1 : Nat)) := by
  obtain ⟨notE4m3, notE2m1⟩ : f ≠ Fmt.e4m3 ∧ f ≠ Fmt.e2m1 := by simpa [hasInf] using infinities
  rw [decode_fields _ hg he hm]
  simp only [notE4m3, notE2m1, infinities, false_and, ↓reduceIte, Bool.true_and, beq_iff_eq]

/-- What a code of a format stands for (R149). -/
theorem decodeF_value (f : Fmt) {sg e m : Nat} (hg : sg < 2) (he : e < 2 ^ f.eb) (hm : m < 2 ^ f.mb) :
    let x := decodeF f (sg * 2 ^ (f.mb + f.eb) + e * 2 ^ f.mb + m)
    let plain := x.isFinite = true ∧ x.sign = (sg == 1) ∧
      x.rat = (-1) ^ sg * (if e = 0 then (m : ℚ) / 2 ^ f.mb * 2 ^ (1 - f.bias : ℤ) else (1 + (m : ℚ) / 2 ^ f.mb) * 2 ^ ((e : ℤ) - f.bias))
    if f = Fmt.e2m1 then (if sg = 1 ∧ e = 0 ∧ m = 0 then x = .nan false else plain)
    else if f = Fmt.e4m3 then (if e = 15 ∧ m = 7 then x = .nan false else plain)
    else if e = 2 ^ f.eb - 1 then
      (if m = 0 then x = .inf (sg == 1) else x = .nan (decide (f ≠ Fmt.e5m2 ∧ m < 2 ^ (f.mb - 1))))
    else plain := by
  have value := plain_value f e m hg
  dsimp only at value ⊢
  split
  next small =>
    subst small
    rw [decodeF_e2m1 hg he hm]
    split
    · rfl
    · exact value
  next notE2m1 =>
    split
    next small =>
      subst small
      rw [decodeF_e4m3 hg he hm]
      split
      · rfl
      · exact value
    next notE4m3 =>
      rw [decodeF_of_hasInf (by simp [hasInf, notE4m3, notE2m1]) hg he hm]
      split
      · split
        · rfl
        · rfl
      · exact value

/-! ## The zeros and negative operands of FSQRT, FRCP and FRSQ -/

section
variable {f : Fmt} (h : f.Ieee) {v : FEnv} {a : Nat} (finite : (v.read f a).isFinite = true)
include h finite

theorem Fmt.Ieee.fSqrt_zero (zero : (v.read f a).rat = 0) : fSqrt v f a = ⟨signBit f (v.read f a).sign, 0⟩ := by
  rw [fSqrt, (h.read_proper finite).of_zero zero]; rfl

theorem Fmt.Ieee.fRcp_zero (zero : (v.read f a).rat = 0) : fRcp v f a = ⟨infCode f (v.read f a).sign, fDivZero⟩ := by
  rw [fRcp, (h.read_proper finite).of_zero zero]; rfl

theorem Fmt.Ieee.fRsq_zero (zero : (v.read f a).rat = 0) : fRsq v f a = ⟨infCode f (v.read f a).sign, fDivZero⟩ := by
  rw [fRsq, (h.read_proper finite).of_zero zero]; rfl

theorem Fmt.Ieee.fSqrt_negative (negative : (v.read f a).rat < 0) : fSqrt v f a = ⟨f.nan, fInvalid⟩ := by
  obtain ⟨m, e, ex⟩ := (h.read_proper finite).of_neg negative
  rw [fSqrt, ex]; rfl

end

/-! ## FCMP's flags -/

theorem fCmp_flags (c : Nat) (v : FEnv) (f : Fmt) (a b : Nat) : (fCmp c v f a b).2 =
    flagIf (if c = 1 ∨ c = 2 then (v.read f a).isNan || (v.read f b).isNan else (v.read f a).isSnan || (v.read f b).isSnan) fInvalid := rfl

/-- Settles O7: the codes by their fields, finite operands by rounding exact values, and then the special cases. -/
theorem floatResultsAreRounded : Obligations.FloatResultsAreRounded := by
  unfold Obligations.FloatResultsAreRounded
  refine ⟨fun f _ sg e m hg he hm => decodeF_value f hg he hm, fun f member v a b d arithmetic _ _ => ?_⟩
  have h := Fmt.Ieee.of_mem member
  intro x y z rnd zero
  refine ⟨(h.decode_of a).flush_eq v.ftz, fun hx hy => ⟨h.fAdd_rounded arithmetic hx hy, h.fSub_rounded arithmetic hx hy, h.fMul_rounded arithmetic hx hy,
    h.fFma_rounded arithmetic hx hy, h.fDiv_rounded arithmetic hx hy, h.fDiv_zero hx hy⟩,
    fun hx => ⟨h.fSqrt_rounded arithmetic hx, h.fSqrt_zero hx, h.fSqrt_negative hx, h.fRcp_rounded hx, h.fRsq_rounded hx,
      fun vanishes => ⟨h.fRcp_zero hx vanishes, h.fRsq_zero hx vanishes⟩⟩,
    fun p q => h.infinities_meet v, fun p => h.infinity_meets_finite v, ?_⟩
  simp only [← FEnv.read_isNan v, ← FEnv.read_isSnan v]
  refine ⟨h.arithmetic_nan v, fSqrt_nan v, h.fFma_nan v, fun isMax => ?_, fun c hc => Prod.ext (h.fCmp_ordered v a b hc) (fCmp_flags c v f a b)⟩
  have ordered := h.fMinMax_ordered isMax v a b
  dsimp only at ordered
  simp only [(h.read_of v a).codeOf_eq, (h.read_of v b).codeOf_eq] at ordered
  exact ordered

end Sys2Proof.Machine

/-! # Acts and their outcomes

Acts that go on, wait or trap, each as it says, whether the instruction is scalar or not. -/

namespace Sys2Proof.Machine

/-! ## Outcomes -/

/-- The act that a lane's outcome is of: its own, or the one act of a scalar instruction (R139). -/
def actLane (o : Ops) (l : Nat) : Nat := if o.s then 0 else l

/-- The stops of a group whose acts end as `e` says. -/
def stopsOf (o : Ops) (m : BitVec 32) (e : Nat → Option Stop) : List (Nat × Stop) :=
  (lanesOf m).filterMap fun l => (e (actLane o l)).map fun x => (l, x)

theorem stopsOf_none (o : Ops) (m : BitVec 32) : stopsOf o m (fun _ => none) = [] := by simp [stopsOf]

theorem stopsOf_some (o : Ops) (m : BitVec 32) (e : Nat → Stop) :
    stopsOf o m (fun l => some (e l)) = (lanesOf m).map fun l => (l, e (actLane o l)) := by
  rw [stopsOf, ← List.filterMap_eq_map]
  rfl

theorem State.mem_acts {s : State} {o : Ops} {l : Nat} (h : s.mask.getLsbD l = true) : actLane o l ∈ s.acts o := by
  cases hs : o.s <;> simp [actLane, State.acts, hs, mem_lanesOf, h]

theorem reader_actLane (w : Wave) (o : Ops) (l : Nat) : reader w o (actLane o l) = reader w o l := by
  cases hs : o.s <;> simp [actLane, reader, hs]

/-- Acts made one after another, whatever their outcomes: what holds before the first and is kept by each holds after the last. -/
theorem foldl_actNext_outcomes {f : State → Nat → Acted} {e : Nat → Option Stop} (I : List Nat → State → Prop) {ls : List Nat} (nodup : ls.Nodup)
    (next : ∀ acted l t, acted ⊆ ls → l ∈ ls → l ∉ acted → I acted t → t.cur.frozenLanes = 0 ∧ ∃ u, f t l = (u, e l) ∧ I (acted ++ [l]) u)
    (rest acted : List Nat) (t : State) (stops : List (Nat × Stop)) (all : acted ++ rest = ls) (h : I acted t) :
    ∃ u, rest.foldl (actNext f) (t, stops) = (u, stops ++ rest.filterMap fun l => (e l).map fun x => (l, x)) ∧ I ls u := by
  induction rest generalizing acted t stops with
  | nil =>
    rw [List.append_nil] at all
    exact ⟨t, by simp, all ▸ h⟩
  | cons l rest ih =>
    subst all
    have fresh : l ∉ acted := fun hl => (List.nodup_append.1 nodup).2.2 l hl l List.mem_cons_self rfl
    obtain ⟨thawed, u, acts, hu⟩ := next acted l t (List.subset_append_left _ _) (by simp) fresh h
    have step : actNext f (t, stops) l = (u, stops ++ ((e l).map fun x => (l, x)).toList) := by
      simp only [actNext, thawed, BitVec.ofNat_eq_ofNat, BitVec.getLsbD_zero, Bool.false_eq_true, ↓reduceIte, acts]
      cases e l <;> simp
    rw [List.foldl_cons, step]
    obtain ⟨v, folded, hv⟩ := ih (acted ++ [l]) u _ (by simp) hu
    refine ⟨v, ?_, hv⟩
    rw [folded, List.append_assoc]
    cases he : e l <;> simp [he]

/-- The acts of an instruction, scalar or not, with their outcomes. -/
theorem State.actAll_outcomes {s : State} {o : Ops} {f : State → Nat → Acted} {e : Nat → Option Stop} (I : List Nat → State → Prop) (start : I [] s)
    (next : ∀ acted l t, (∀ j ∈ acted, j ∈ s.acts o) → l ∈ s.acts o → l ∉ acted → I acted t →
      t.cur.frozenLanes = 0 ∧ ∃ u, f t l = (u, e l) ∧ I (acted ++ [l]) u) :
    ∃ u, s.actAll o.s f = (u, stopsOf o s.mask e) ∧ I (s.acts o) u := by
  cases hs : o.s with
  | false =>
    have vector : s.acts o = lanesOf s.mask := by simp [State.acts, hs]
    rw [vector] at next ⊢
    obtain ⟨u, acted, hu⟩ := foldl_actNext_outcomes I (lanesOf_nodup s.mask) (fun acted l t sub => next acted l t fun j hj => sub hj) (lanesOf s.mask) [] s [] rfl start
    refine ⟨u, ?_, hu⟩
    rw [State.actAll_vector, acted]
    simp [stopsOf, actLane, hs]
  | true =>
    have scalar : s.acts o = [0] := by simp [State.acts, hs]
    rw [scalar] at next ⊢
    obtain ⟨-, u, acts, hu⟩ := next [] 0 s (by simp) (by simp) (by simp) start
    refine ⟨u, ?_, hu⟩
    simp only [State.actAll, ↓reduceIte, acts, stopsOf, actLane, hs]
    cases e 0 <;> simp

/-- What a group does depends on how its acts go, and not on whether they are one or many. -/
theorem State.lanewise_congr {s : State} {scalar scalar' : Bool} {f g : State → Nat → Acted} (i : Instr) (moves : Bool)
    (same : s.actAll scalar f = s.actAll scalar' g) : s.lanewise i scalar moves f = s.lanewise i scalar' moves g := by
  simp only [State.lanewise, same]

/-- Acts that all complete: the group goes on. -/
theorem State.lanewise_completes {s u : State} {o : Ops} {f : State → Nat → Acted} (i : Instr)
    (acts : s.actAll o.s f = (u, stopsOf o s.mask fun _ => none)) : s.lanewise i o.s false f = u.advance s.mask := by
  have all : s.mask &&& ~~~ maskOf [] = s.mask := BitVec.and_allOnes
  simp only [State.lanewise, acts, stopsOf_none, List.map_nil, all, Bool.false_eq_true, ↓reduceIte, State.settleStops_nil]

/-- Acts that leave the state that the checks leave and all stop with a trap: every lane of the group takes it. -/
theorem State.Clear.actsTrap {s : State} {i : Instr} {sp : Spans} {o : Ops} {f : State → Nat → Acted} {cause : Nat} {info : Word}
    {addr : Nat → DWord} (h : s.Clear i sp) (can : s.CanTrap) (one : ∀ l, addr (actLane o l) = addr l)
    (acts : ∀ l ∈ s.acts o, f (s.begun i sp) l = stop (s.begun i sp) (.trap cause info (addr l))) :
    s.Outside ((s.begun i sp).lanewise i o.s false f) ∧
      s.Took ((s.begun i sp).lanewise i o.s false f) s.mask cause (fun _ => info) addr := by
  obtain ⟨soft, -⟩ := State.begun_soft h
  have group := h.group_begun
  have outside := State.begun_outside h
  have able := h.canTrap_begun can
  have checked := h.checked
  generalize s.begun i sp = b at *
  obtain ⟨u, acted, rfl⟩ := State.actAll_outcomes (s := b) (o := o) (f := f) (e := fun l => some (.trap cause info (addr l))) (fun _ t => t = b) rfl
    fun _ l t _ hl _ here => by
      subst here
      exact ⟨group.frozenLanes, _, acts l (by simpa only [State.acts, soft.mask_eq] using hl), rfl⟩
  rw [stopsOf_some] at acted
  simp only [one] at acted
  have all := State.actAll_stops (s := u) (f := fun t l => stop t (.trap cause info (addr l))) group.frozenLanes fun _ _ => rfl
  rw [State.lanewise_congr i false (acted.trans all.symm), State.lanewise_traps i group (info := fun _ => info) all]
  obtain ⟨raised, took, -⟩ := u.raise_took group able cause (fun _ => info) addr
  exact ⟨outside.trans raised, checked.took soft took⟩

end Sys2Proof.Machine

/-! # Barrier objects

The bytes of an object and their update, with the lanes that it wakes (R211, R212, R214). -/

namespace Sys2Proof.Machine

/-! ## Bytes of scratchpads -/

/-- A scratchpad with bytes written from an offset on. -/
def padBytes (off : Nat) (bs : List Byte) (m : Tbl Byte) : Tbl Byte :=
  (List.range bs.length).foldl (fun m i => m.set 0 (off + i) (bs.getD i 0)) m

theorem get_padBytes (off : Nat) (bs : List Byte) (m : Tbl Byte) (a : Nat) :
    (padBytes off bs m).get a 0 = if off ≤ a ∧ a < off + bs.length then bs.getD (a - off) 0 else m.get a 0 := by
  suffices h : ∀ n, ((List.range n).foldl (fun m i => m.set 0 (off + i) (bs.getD i 0)) m).get a 0 =
      if off ≤ a ∧ a < off + n then bs.getD (a - off) 0 else m.get a 0 from h bs.length
  intro n
  induction n with
  | zero => rw [if_neg (by omega)]; rfl
  | succ n ih =>
    rw [List.range_succ, List.foldl_append, List.foldl_cons, List.foldl_nil, Tbl.get_set, ih]
    by_cases last : off + n = a
    · subst last
      rw [if_pos rfl, if_pos (by omega), Nat.add_sub_cancel_left]
    · rw [if_neg last]
      exact if_congr (by omega) rfl rfl

/-- A write to the memory of a team that is on its core. -/
theorem State.tmemWrite_home {s : State} {t : Nat} (home : (s.team t).away = false) (off : Nat) (bs : List Byte) :
    s.tmemWrite t off bs = (s.modTeam t fun x => { x with tmem := padBytes off bs x.tmem }).conflicts 1 t off bs.length := by
  simp only [State.tmemWrite, home, Bool.false_eq_true, ↓reduceIte]
  rfl

theorem State.dspWrite_eq (s : State) (d off : Nat) (bs : List Byte) :
    s.dspWrite d off bs = (s.modDie d fun x => { x with dsp := padBytes off bs x.dsp }).conflicts 2 d off bs.length := rfl

theorem State.conflicts_dies (s : State) (space who a n : Nat) : (s.conflicts space who a n).dies = s.dies := by
  have := congrArg State.dies (s.conflicts_waves space who a n); exact this

/-! ## Barrier objects as bytes (R211) -/

theorem fromBytes_toBytes (n v : Nat) : fromBytes (toBytes n v) = v % 256 ^ n := by
  induction n with
  | zero => simp [toBytes, fromBytes, Nat.mod_one]
  | succ n ih =>
    have bytes : toBytes (n + 1) v = toBytes n v ++ [BitVec.ofNat 8 (v / 256 ^ n)] := by
      simp [toBytes, List.range_succ, pow_256, Nat.mul_comm]
    rw [bytes, fromBytes_append, ih, length_toBytes, Nat.mod_pow_succ]
    rfl

/-- The fields that 32 bytes hold. -/
def Bar.ofBytes (b : List Byte) : Bar :=
  { phase := BitVec.ofNat 32 (fromBytes ((b.drop 0).take 4)), expArr := fromBytes ((b.drop 4).take 2), arrived := fromBytes ((b.drop 6).take 2),
    expBytes := fromBytes ((b.drop 8).take 4), landed := fromBytes ((b.drop 12).take 4), flags := BitVec.ofNat 32 (fromBytes ((b.drop 16).take 4)),
    id := BitVec.ofNat 32 (fromBytes ((b.drop 20).take 4)), target := fromBytes ((b.drop 24).take 8) }

theorem State.bar_eq (s : State) (x : ObjRef) : s.bar x = Bar.ofBytes (s.objBytes x) := rfl

/-- The fields fit their bytes. -/
structure Bar.Fits (b : Bar) : Prop where
  expArr : b.expArr < 256 ^ 2
  arrived : b.arrived < 256 ^ 2
  expBytes : b.expBytes < 256 ^ 4
  landed : b.landed < 256 ^ 4
  target : b.target < 256 ^ 8

theorem Bar.fits_ofBytes (b : List Byte) : (Bar.ofBytes b).Fits := by
  have short : ∀ i k, fromBytes ((b.drop i).take k) < 256 ^ k := fun i k =>
    (fromBytes_lt _).trans_le (Nat.pow_le_pow_right (by decide) (List.length_take_le _ _))
  exact ⟨short 4 2, short 6 2, short 8 4, short 12 4, short 24 8⟩

theorem State.fits_bar (s : State) (x : ObjRef) : (s.bar x).Fits := Bar.fits_ofBytes _

theorem Bar.Fits.check {b : Bar} (h : b.Fits) : b.check.Fits := by
  rw [Bar.check]
  split
  · exact ⟨h.expArr, Nat.zero_lt_succ _, h.expBytes, Nat.zero_lt_succ _, h.target⟩
  · exact h

theorem Bar.Fits.arrive {b : Bar} (h : b.Fits) : b.arrive.Fits := by
  rw [Bar.arrive]
  split
  · exact ⟨h.expArr, h.arrived, h.expBytes, h.landed, h.target⟩
  · next below => exact ⟨h.expArr, by have := h.arrived; show b.arrived + 1 < 65536; omega, h.expBytes, h.landed, h.target⟩

theorem Bar.length_bytes (b : Bar) : b.bytes.length = 32 := by simp [Bar.bytes, length_toBytes]

/-- Fields that fit are read back from their bytes. -/
theorem Bar.ofBytes_bytes {b : Bar} (h : b.Fits) : Bar.ofBytes b.bytes = b := by
  have word : ∀ w : Word, BitVec.ofNat 32 (fromBytes (toBytes 4 w.toNat)) = w := fun w => by
    rw [fromBytes_toBytes, Nat.mod_eq_of_lt (show w.toNat < 256 ^ 4 from w.isLt), BitVec.ofNat_toNat, BitVec.setWidth_eq]
  have field : ∀ {k v : Nat}, v < 256 ^ k → fromBytes (toBytes k v) = v := fun hv => by rw [fromBytes_toBytes, Nat.mod_eq_of_lt hv]
  simp only [Bar.ofBytes, Bar.bytes, List.append_assoc, List.drop_append, List.take_append, length_toBytes, List.drop_zero]
  simp [length_toBytes, List.take_of_length_le, List.drop_of_length_le, word, field h.expArr, field h.arrived, field h.expBytes, field h.landed, field h.target]

/-! ## Updates of an object (R212, R214) -/

/-- An object lies in the memory of a team that is on its core, or in a die's scratchpad. -/
def State.AtHome (s : State) (x : ObjRef) : Prop := ∀ t off, x = .team t off → (s.team t).away = false

/-- An object reads the same wherever the scratchpads are the same. -/
theorem State.AtHome.bar_congr {s u : State} {x : ObjRef} (home : s.AtHome x) (teams : ∀ t, u.team t = s.team t) (dies : ∀ d, u.die d = s.die d) :
    u.bar x = s.bar x := by
  rw [State.bar_eq, State.bar_eq]
  cases x with
  | team t off => simp only [State.objBytes, State.tmemRead, teams, home t off rfl, Bool.false_eq_true, ↓reduceIte]
  | die d off => simp only [State.objBytes, State.dspRead, dies]

/-- Of teams an object's bytes change team memory alone. -/
theorem State.AtHome.team_putBar {s : State} {x : ObjRef} (home : s.AtHome x) (b : Bar) (t : Nat) :
    ∃ m, (s.putBar x b).team t = { s.team t with tmem := m } := by
  cases x with
  | die d off =>
    refine ⟨(s.team t).tmem, ?_⟩
    simp only [State.putBar, State.dspWrite_eq, State.team, State.conflicts_teams]
    rfl
  | team u off =>
    simp only [State.putBar, State.tmemWrite_home (home u off rfl), State.team, State.conflicts_teams]
    show ∃ m, ((s.modTeam u _).team t) = { s.team t with tmem := m }
    by_cases mine : u = t
    · subst mine
      cases there : s.teams.find? u with
      | none => exact ⟨(s.team u).tmem, by simp [State.team, Tbl.get, State.modTeam, Tbl.find_mod, there]⟩
      | some y => exact ⟨_, State.team_modTeam s _ (by rw [there]; rfl)⟩
    · exact ⟨(s.team t).tmem, by rw [State.team_modTeam_ne s _ mine]⟩

/-- An object reads as what has been put there. -/
theorem State.AtHome.bar_putBar {s : State} {x : ObjRef} (home : s.AtHome x) (there : s.objThere x = true) {b : Bar} (fits : b.Fits) :
    (s.putBar x b).bar x = b := by
  have bytes : ∀ (off : Nat) (m : Tbl Byte), ((List.range 32).map fun i => (padBytes off b.bytes m).get (off + i) 0) = b.bytes := fun off m => by
    refine List.ext_getElem (by simp [Bar.length_bytes]) fun i _ hi => ?_
    have inside : off ≤ off + i ∧ off + i < off + b.bytes.length := by omega
    rw [List.getElem_map, List.getElem_range, get_padBytes, if_pos inside, Nat.add_sub_cancel_left, List.getD_eq_getElem _ _ hi]
  rw [State.bar_eq]
  suffices h : (s.putBar x b).objBytes x = b.bytes by rw [h, Bar.ofBytes_bytes fits]
  cases x with
  | die d off =>
    simp only [State.objBytes, State.dspRead, State.putBar, State.dspWrite_eq, State.die, State.conflicts_dies]
    have die : ((s.modDie d fun y => { y with dsp := padBytes off b.bytes y.dsp }).die d).dsp = padBytes off b.bytes (s.die d).dsp := by
      rw [State.die_modDie, if_pos rfl]
    rw [State.die] at die
    rw [die]
    exact bytes off _
  | team t off =>
    have isThere : (s.teams.find? t).isSome = true := by
      simp only [State.objThere, Bool.and_eq_true] at there
      exact there.1.1
    have team : (s.putBar (.team t off) b).team t = { s.team t with tmem := padBytes off b.bytes (s.team t).tmem } := by
      simp only [State.putBar, State.tmemWrite_home (home t off rfl), State.team, State.conflicts_teams]
      exact State.team_modTeam s _ isThere
    have away : (s.team t).away = false := home t off rfl
    simp only [State.objBytes, State.tmemRead, team]
    rw [if_neg (by rw [Team.away] at away ⊢; rw [away]; exact Bool.false_ne_true)]
    exact bytes off _

/-- Of the waves an object's bytes change conflicts alone. -/
theorem State.AtHome.calm_putBar {s : State} {x : ObjRef} (home : s.AtHome x) (b : Bar) : (s.putBar x b).calm.waves = s.calm.waves ∧ (s.putBar x b).cur = s.cur := by
  cases x with
  | die d off =>
    refine ⟨(congrArg State.waves (State.calm_conflicts _ 2 d off b.bytes.length)).trans rfl, ?_⟩
    have := congrArg State.cur ((s.modDie d fun y => { y with dsp := padBytes off b.bytes y.dsp }).conflicts_waves 2 d off b.bytes.length)
    exact this
  | team t off =>
    rw [State.putBar, State.tmemWrite_home (home t off rfl)]
    refine ⟨(congrArg State.waves (State.calm_conflicts _ 1 t off b.bytes.length)).trans rfl, ?_⟩
    have := congrArg State.cur ((s.modTeam t fun y => { y with tmem := padBytes off b.bytes y.tmem }).conflicts_waves 1 t off b.bytes.length)
    exact this

/-- A lane as the end of the waits on an object leaves it (R214). -/
def Lane.woken (l : Lane) (x : ObjRef) (phase : Word) : Lane := if l.wakesOn x phase then l.pastBarw else l

theorem Lane.pastBarw_calm (l : Lane) : l.pastBarw.calm = l.calm.pastBarw := by
  obtain ⟨_, _, life⟩ := l
  cases life with
  | blocked w => cases w <;> rfl
  | _ => rfl

theorem Lane.woken_calm (l : Lane) (x : ObjRef) (phase : Word) : (l.woken x phase).calm = l.calm.woken x phase := by
  have same : l.calm.wakesOn x phase = l.wakesOn x phase := rfl
  rw [Lane.woken, Lane.woken, same]
  split
  · exact l.pastBarw_calm
  · rfl

/-- The end of the waits on an object wakes lanes, drops clean lines and changes nothing else. -/
theorem State.wakeBarrier_spec (s : State) (x : ObjRef) (phase : Word) :
    { s.wakeBarrier x phase with waves := s.waves, cores := s.cores } = s ∧
      ∀ k l, ((s.wakeBarrier x phase).wave k).lane l = ((s.wave k).lane l).woken x phase := by
  have dropped : ∀ (cs : List Nat) (u : State), { cs.foldl (fun u c => u.l1DropClean c) u with cores := s.cores } = { u with cores := s.cores } :=
    fun cs u => foldl_field (fun u : State => ({ u with cores := s.cores } : State)) (fun u c => u.l1DropClean c) (fun _ _ => rfl) cs u
  refine ⟨?_, fun k l => ?_⟩
  · exact congrArg (fun u : State => ({ u with waves := s.waves } : State)) (dropped _ _)
  · have waves : (s.wakeBarrier x phase).waves = s.waves.mapAll fun _ w => { w with lanes := w.lanes.mapAll fun _ l => l.woken x phase } := by
      have := congrArg State.waves (dropped (s.waves.foldl (fun acc p =>
        if p.2.lanes.any (fun q => q.2.wakesOn x phase && q.2.barwAcquires) then addOnce (s.coreOf p.1) acc else acc) [])
        { s with waves := s.waves.mapAll fun _ w => { w with lanes := w.lanes.mapAll fun _ l => if l.wakesOn x phase then l.pastBarw else l } })
      exact this
    have gone : Lane.gone.woken x phase = Lane.gone := rfl
    simp only [State.wave, waves, Tbl.get, Tbl.find_mapAll]
    cases s.waves.find? k with
    | none => exact gone.symm
    | some w =>
      simp only [Option.map_some, Option.getD_some, Wave.lane, Tbl.get, Tbl.find_mapAll]
      cases w.lanes.find? l with
      | none => exact gone.symm
      | some y => rfl

/-- A team that is not Swapped out stays as it is where its object advances. -/
theorem State.requeue_spec (s : State) (x : ObjRef) (advanced : Bool) :
    { s.requeue x advanced with teams := s.teams } = s ∧
      ∀ t, (∀ u off, x = .team u off → (s.team u).state ≠ .swapped) → (s.requeue x advanced).team t = s.team t := by
  cases x with
  | die d off => exact ⟨rfl, fun _ _ => rfl⟩
  | team u off =>
    cases advanced with
    | false => exact ⟨rfl, fun _ _ => rfl⟩
    | true =>
      refine ⟨rfl, fun t stays => ?_⟩
      have here := stays u off rfl
      show (s.modTeam u _).team t = s.team t
      by_cases mine : u = t
      · subst mine
        cases there : s.teams.find? u with
        | none => simp [State.team, Tbl.get, State.modTeam, Tbl.find_mod, there]
        | some y => rw [State.team_modTeam s _ (by rw [there]; rfl), if_neg here]
      · exact State.team_modTeam_ne s _ mine

section
variable {s : State} {x : ObjRef} (home : s.AtHome x) (there : s.objThere x = true) (f : Bar → Bar)
include home there

/-- After an update an object reads as updated. -/
theorem State.AtHome.bar_updateBar (fits : (f (s.bar x)).Fits) : (s.updateBar x f).bar x = f (s.bar x) := by
  simp only [State.updateBar, there, ↓reduceIte]
  generalize f (s.bar x) = b at *
  obtain ⟨rest, -⟩ := (s.putBar x b).wakeBarrier_spec x b.phase
  have teams : ∀ t, ((s.putBar x b).wakeBarrier x b.phase).team t = (s.putBar x b).team t := fun t => by have := congrArg (State.team · t) rest; exact this
  have dies : ∀ d, ((s.putBar x b).wakeBarrier x b.phase).die d = (s.putBar x b).die d := fun d => by have := congrArg (State.die · d) rest; exact this
  have put : (s.putBar x b).AtHome x := fun t off e => by
    obtain ⟨m, team⟩ := home.team_putBar b t
    rw [team]
    exact home t off e
  obtain ⟨queue, stays⟩ := ((s.putBar x b).wakeBarrier x b.phase).requeue_spec x (b.phase != (s.bar x).phase)
  refine (put.bar_congr (fun t => ?_) fun d => ?_).trans (home.bar_putBar there fits)
  · rw [stays t fun u off e swapped => ?_, teams]
    have away := put u off e
    rw [teams] at swapped
    simp [Team.away, swapped] at away
  · rw [← dies d]
    have := congrArg (State.die · d) queue
    exact this

/-- An update wakes lanes that wait on its object; of other lanes it changes conflicts alone, and it leaves the record of the clk. -/
theorem State.AtHome.lane_updateBar (k l : Nat) :
    (((s.updateBar x f).wave k).lane l).calm = (((s.wave k).lane l).woken x (f (s.bar x)).phase).calm := by
  simp only [State.updateBar, there, ↓reduceIte]
  generalize f (s.bar x) = b at *
  obtain ⟨-, lanes⟩ := (s.putBar x b).wakeBarrier_spec x b.phase
  obtain ⟨queue, -⟩ := ((s.putBar x b).wakeBarrier x b.phase).requeue_spec x (b.phase != (s.bar x).phase)
  have requeued := congrArg (fun u : State => (u.wave k).lane l) queue
  have calm : (((s.putBar x b).wave k).lane l).calm = ((s.wave k).lane l).calm := by
    rw [← Wave.lane_calm, ← Wave.lane_calm, ← State.wave_calm, ← State.wave_calm]
    exact congrArg (fun ws : Tbl Wave => (ws.get k Wave.gone).lane l) (home.calm_putBar b).1
  refine (congrArg Lane.calm requeued).trans ?_
  rw [lanes, Lane.woken_calm, calm, ← Lane.woken_calm]

theorem State.AtHome.cur_updateBar : (s.updateBar x f).cur = s.cur := by
  simp only [State.updateBar, there, ↓reduceIte]
  generalize f (s.bar x) = b at *
  obtain ⟨rest, -⟩ := (s.putBar x b).wakeBarrier_spec x b.phase
  obtain ⟨queue, -⟩ := ((s.putBar x b).wakeBarrier x b.phase).requeue_spec x (b.phase != (s.bar x).phase)
  have queued := congrArg State.cur queue
  have woken := congrArg State.cur rest
  exact (queued.trans woken).trans (home.calm_putBar b).2

end

end Sys2Proof.Machine

/-! # Expected bytes past the room of an object -/

namespace Sys2Proof.Machine

/-- BARX in its scalar form, its offset in scalar register 16 and its expected bytes the WAVEID. -/
def barxWave : Ops := { s := true, nw := false, d := 8, a := 16, b := 121, lit := 0 }

/-- A control word that names an object of team memory, without an order. -/
def inTeamPlain : Ctl := { scope := 0, order := 0, sub := 1, type := 0, spec := 0 }

/-- A wave whose WAVEID does not fit the 32 bits of an operand, about to execute BARX on the object at 32 of its team's memory, which
expects 16 arrivals. -/
def wideWave : State :=
  { State.reset with
    waves := [(64, { Wave.gone with
      team := 1, waveId := 2 ^ 32, s := [(16, 32)], lanes := [(0, { Lane.gone with life := .ready, pc := 0x1000 })] })]
    teams := [(1, { Team.gone with vcount := 512, scount := 256, alloc := 65536, tmem := [(36, 16)] })]
    cur := { Cur.none with wave := 64, mask := 1, pc := 0x1000 } }

theorem barx_wideWave_truncates : ∃ t, exec (.barx barxWave inTeamPlain) wideWave = .next t ∧ (t.bar (.team 1 32)).expBytes = 0 :=
  ⟨_, rfl, by decide⟩

/-- Refutes O28: its clause on BARX leaves the wave's WAVEID free, and a scalar BARX whose B names a WAVEID past 32 bits sets only its low 32
bits as the expected bytes, which is what the object has room for. (A wave that the model's own steps place has a shorter WAVEID.) -/
theorem not_barrierUpdates : ¬ Obligations.BarrierUpdates := by
  unfold Obligations.BarrierUpdates
  rintro ⟨-, -, -, barx, -⟩
  obtain ⟨t, ht, -, updated⟩ := barx barxWave inTeamPlain wideWave (fun _ => .team 1 32) (.of_check (by decide)) (by decide)
    (.of_check (by decide)) (.of_check (by decide)) (fun _ _ => .of_check (by decide))
  obtain ⟨u, hu, truncated⟩ := barx_wideWave_truncates
  cases ht.symm.trans hu
  have expected := congrArg Bar.expBytes (updated.bars (.team 1 32) ⟨0, by decide, rfl⟩)
  exact absurd (truncated.symm.trans expected) (by decide)

end Sys2Proof.Machine

/-! # Barrier instructions

The objects that acts name, the causes of R358 and the lanes that an arrival wakes. -/

namespace Sys2Proof.Machine

/-! ## The objects that acts name (R358) -/

theorem State.object_ok {s : State} {space : Nat} {k : Kind} {low : Bool} {off : DWord} {x : ObjRef} (h : s.object space k low off = .ok x) :
    s.objAt space s.tid off.toNat = some x := by
  unfold State.object at h
  split at h
  · cases h
  · split at h
    · cases h
    · next y found =>
      split at h
      · cases h
      · unfold State.unpoisoned at h
        split at h
        · split at h
          · cases h
          · cases h; exact found
        · cases h; exact found

theorem State.object_misaligned {s : State} {off : DWord} (bad : off.toNat % 32 ≠ 0) (space : Nat) (k : Kind) (low : Bool) :
    s.object space k low off = .error (.trap 4 32 off) := if_pos bad

/-- An object named is of the executing team, within its allocation, or of a die, within its scratchpad. -/
theorem State.objAt_some {s : State} {space t : Nat} {off : Int} {x : ObjRef} (h : s.objAt space t off = some x) :
    (∃ a, x = .team t a ∧ a + 32 ≤ (s.team t).alloc) ∨ ∃ d a, x = .die d a ∧ a + 32 ≤ (s.die d).dspSize := by
  unfold State.objAt at h
  split at h
  · obtain ⟨a, within, rfl⟩ := Option.map_eq_some_iff.1 h
    unfold State.teamOffset at within
    split at within
    · next inside =>
      cases within
      simp only [Bool.and_eq_true, decide_eq_true_eq] at inside
      exact .inl ⟨_, rfl, by omega⟩
    · cases within
  · obtain ⟨a, within, rfl⟩ := Option.map_eq_some_iff.1 h
    refine .inr ⟨_, a, rfl, ?_⟩
    unfold State.dieOffset at within
    dsimp only at within
    split at within
    · cases within
    · split at within
      · split at within
        · cases within; assumption
        · cases within
      · split at within
        · next inside =>
          cases within
          simp only [Bool.and_eq_true, decide_eq_true_eq] at inside
          exact inside.2
        · cases within

section
variable {s : State} {space : Nat} {k : Kind} {low : Bool} {off : DWord} {x : ObjRef} (named : s.object space k low off = .ok x)
include named

theorem State.Group.atHome (group : s.Group) : s.AtHome x := by
  rintro t a rfl
  obtain ⟨_, e, -⟩ | ⟨d, _, e, -⟩ := State.objAt_some (State.object_ok named)
  · cases e; exact group.home
  · cases e

theorem State.objThere_of_object (resident : s.tm.state = .resident) : s.objThere x = true := by
  obtain ⟨a, rfl, inside⟩ | ⟨d, a, rfl, inside⟩ := State.objAt_some (State.object_ok named)
  · have isThere : (s.teams.find? s.tid).isSome = true := by
      cases found : s.teams.find? s.tid with
      | some y => rfl
      | none =>
        have none_left : (s.team s.tid).alloc = 0 := by simp [State.team, Tbl.get, found, Team.gone]
        omega
    have alive : ((s.team s.tid).state != .killed) = true := by
      rw [show (s.team s.tid).state = .resident from resident]; rfl
    simp [State.objThere, isThere, alive, inside]
  · simp [State.objThere, inside]

end

/-- What names an object, whatever the waves and the cores. -/
theorem State.object_congr {s u : State} (same : { u with waves := s.waves, cur := s.cur, cores := s.cores } = s)
    (wave : u.cur.wave = s.cur.wave) (space : Nat) (k : Kind) (low : Bool) (off : DWord) : u.object space k low off = s.object space k low off := by
  have tid : u.tid = s.tid := by rw [State.tid, wave]; rfl
  have object := congrArg (State.object · space k low off) same
  refine Eq.trans ?_ object
  simp only [State.object, tid]
  rfl

/-- An act of a barrier instruction: to its object, and then `f` of the state, the lane, the object and its offset. -/
def objectAct (o : Ops) (c : Ctl) (k : Kind) (low : Bool) (f : State → Nat → ObjRef → DWord → Acted) (s : State) (l : Nat) : Acted :=
  match s.object (objSpace c) k low (offsetA (reader s.pre o l)) with
  | .error e => stop s e
  | .ok obj => f (s.meetObject o.s l obj) l obj (offsetA (reader s.pre o l))

/-- What BARI, BARA, BARD, BARW and BART do at their objects (R357). -/
def bariAt (o : Ops) (s : State) (l : Nat) (x : ObjRef) (off : DWord) : Acted :=
  let cnt := reader s.pre o l .n .b
  if cnt.toNat % 65536 = 0 ∧ hi32 cnt = 0 then stop s (misuse 1 off)
  else done ({ s with arms := s.arms.filter (· != x) }.updateBar x fun b => b.init cnt)

def baraAt (c : Ctl) (s : State) (_ : Nat) (x : ObjRef) (_ : DWord) : Acted := done ((s.before c).arrive x)

def barxAt (o : Ops) (c : Ctl) (s : State) (l : Nat) (x : ObjRef) (_ : DWord) : Acted :=
  done ((s.before c).updateBar x fun b => (Bar.arrive { b with expBytes := (reader s.pre o l .w .b).toNat }).check)

def bardAt (c : Ctl) (s : State) (_ : Nat) (x : ObjRef) (off : DWord) : Acted :=
  if (s.bar x).expArr = 0 then stop s (misuse 2 off)
  else done ((s.release s.coreNo c.scope.toNat).updateBar x fun b => Bar.check { b with expArr := b.expArr - 1 })

def barwAt (o : Ops) (c : Ctl) (s : State) (l : Nat) (x : ObjRef) (_ : DWord) : Acted :=
  if past (s.bar x).phase (lo32 (reader s.pre o l .w .b)) then done (s.afterWait c x (s.actMask o.s l))
  else stop s (.block (.barw x (lo32 (reader s.pre o l .w .b)) (s.waitAcquires c x) s.nextPc s.clk))

def bartAt (o : Ops) (c : Ctl) (s : State) (l : Nat) (x : ObjRef) (_ : DWord) : Acted :=
  let yes := past (s.bar x).phase (lo32 (reader s.pre o l .w .b))
  done ((if yes then s.afterWait c x (s.actMask o.s l) else s).dst (.bart o c) o l 1 (if yes then 0xFFFFFFFF else 0))

theorem exec_bari (o : Ops) (c : Ctl) (s : State) :
    exec (.bari o c) s = onObject (.bari o c) o c { d := 1, a := 1, b := 2 } 2 false (bariAt o) s := rfl
theorem exec_bara (o : Ops) (c : Ctl) (s : State) : exec (.bara o c) s = onObject (.bara o c) o c spans1 2 false (baraAt c) s := rfl
theorem exec_barx (o : Ops) (c : Ctl) (s : State) : exec (.barx o c) s = onObject (.barx o c) o c spans1 2 false (barxAt o c) s := rfl
theorem exec_bard (o : Ops) (c : Ctl) (s : State) : exec (.bard o c) s = onObject (.bard o c) o c spans1 2 false (bardAt c) s := rfl
theorem exec_barw (o : Ops) (c : Ctl) (s : State) : exec (.barw o c) s = onObject (.barw o c) o c spans1 0 true (barwAt o c) s := rfl
theorem exec_bart (o : Ops) (c : Ctl) (s : State) : exec (.bart o c) s = onObject (.bart o c) o c spans1 0 false (bartAt o c) s := rfl

section
variable {s : State} {i : Instr} {o : Ops} {c : Ctl} {sp : Spans} {k : Kind} {low : Bool} {f : State → Nat → ObjRef → DWord → Acted}

/-- A barrier instruction whose checks pass makes its acts on the state that they leave. -/
theorem State.Clear.onObject_answers (h : s.Clear i sp) {P : State → Prop} (hf : P ((s.begun i sp).lanewise i o.s false (objectAct o c k low f))) :
    ∃ t, onObject i o c sp k low f s = .next t ∧ P t :=
  State.run_answers h hf

/-- The act at an object that is named, where no access of the wave is early or late. -/
theorem objectAct_of_named {l : Nat} {x : ObjRef} (orderly : s.Orderly)
    (named : s.object (objSpace c) k low (offsetA (reader s.pre o l)) = .ok x) :
    objectAct o c k low f s l = f s l x (offsetA (reader s.pre o l)) := by
  rw [objectAct, named]
  exact congrArg (f · l x _) (orderly.meet _ _ _)

end

/-! ## Acts that all stop at their objects -/

/-- Acts that stop before they come to their objects, or at them: every lane of the group takes the trap. -/
theorem State.Clear.onObject_traps {s : State} {i : Instr} {o : Ops} {c : Ctl} {sp : Spans} {k : Kind} {low : Bool}
    {f : State → Nat → ObjRef → DWord → Acted} (h : s.Clear i sp) (can : s.CanTrap) (cause : Nat) (info : Word)
    (acts : ∀ l ∈ s.acts o,
      objectAct o c k low f (s.begun i sp) l = stop (s.begun i sp) (.trap cause info (offsetA (reader s.pre o l)))) :
    ∃ t, onObject i o c sp k low f s = .next t ∧ s.Outside t ∧ s.Took t s.mask cause (fun _ => info) fun l => offsetA (reader s.pre o l) :=
  h.onObject_answers (h.actsTrap can (fun l => by rw [reader_actLane]) acts)

/-- An offset that is no multiple of 32 (R358). -/
theorem State.Clear.onObject_misaligned {s : State} {i : Instr} {o : Ops} {c : Ctl} {sp : Spans} {k : Kind} {low : Bool}
    {f : State → Nat → ObjRef → DWord → Acted} (h : s.Clear i sp) (can : s.CanTrap)
    (bad : ∀ l ∈ s.acts o, (offsetA (reader s.pre o l)).toNat % 32 ≠ 0) :
    ∃ t, onObject i o c sp k low f s = .next t ∧ s.Outside t ∧ s.Took t s.mask 4 (fun _ => 32) fun l => offsetA (reader s.pre o l) :=
  h.onObject_traps can 4 32 fun l hl => by rw [objectAct, State.begun_pre h, State.object_misaligned (bad l hl)]

/-- What an act names after the checks. -/
theorem State.Clear.names_begun {s : State} {i : Instr} {o : Ops} {c : Ctl} {sp : Spans} {k : Kind} {low : Bool} {obj : Nat → ObjRef}
    (h : s.Clear i sp) (names : s.Names o c k low obj) {l : Nat} (hl : l ∈ s.acts o) :
    (s.begun i sp).object (objSpace c) k low (offsetA (reader s.pre o l)) = .ok (obj l) := by
  have same := congrArg (fun u : State => ({ u with cores := s.cores } : State)) (State.begun_outside h)
  rw [State.object_congr same (State.begun_soft h).1.wave, names l hl]

/-- A misuse of the objects that the acts name (R358). -/
theorem State.Clear.onObject_misuse {s : State} {i : Instr} {o : Ops} {c : Ctl} {sp : Spans} {k : Kind} {low : Bool} {obj : Nat → ObjRef}
    {f : State → Nat → ObjRef → DWord → Acted} (h : s.Clear i sp) (can : s.CanTrap) (orderly : s.Orderly) (names : s.Names o c k low obj) (reason : Word)
    (acts : ∀ l ∈ s.acts o, f (s.begun i sp) l (obj l) (offsetA (reader s.pre o l)) =
      stop (s.begun i sp) (misuse reason (offsetA (reader s.pre o l)))) :
    ∃ t, onObject i o c sp k low f s = .next t ∧ s.Outside t ∧ s.Took t s.mask 0x0D (fun _ => reason) fun l => offsetA (reader s.pre o l) :=
  h.onObject_traps can 0x0D reason fun l hl => by
    rw [objectAct_of_named (h.orderly_begun orderly) (by rw [State.begun_pre h]; exact h.names_begun names hl), State.begun_pre h]
    exact acts l hl

/-- An object after the checks. -/
theorem State.Clear.bar_begun {s : State} {i : Instr} {sp : Spans} (h : s.Clear i sp) {space : Nat} {k : Kind} {low : Bool} {off : DWord}
    {x : ObjRef} (named : s.object space k low off = .ok x) : (s.begun i sp).bar x = s.bar x := by
  have before := State.begun_outside h
  refine (h.toGroup.atHome named).bar_congr (fun t => ?_) fun d => ?_
  · have := congrArg (State.team · t) before; exact this
  · have := congrArg (State.die · d) before; exact this

/-! ## Arrivals (R213, R214) -/

/-- A lane that waits at an object, as the end of the waits on one leaves it. -/
theorem Lane.woken_barw {y : Lane} {x : ObjRef} {n next : _} {a since : Nat} (waits : y.life = .blocked (.barw x n a next since)) (obj : ObjRef)
    (phase : Word) :
    if x = obj ∧ (0#32).slt (phase - n) = true then (y.woken obj phase).pc = next ∧ (y.woken obj phase).life = .ready else y.woken obj phase = y := by
  have wakes : y.wakesOn obj phase = (x == obj && (0#32).slt (phase - n)) := by rw [Lane.wakesOn, waits]; rfl
  have ends : y.pastBarw.pc = next ∧ y.pastBarw.life = .ready := by rw [Lane.pastBarw, waits]; exact ⟨rfl, rfl⟩
  split
  · next both =>
    have yes : y.wakesOn obj phase = true := by simp [wakes, both]
    rw [Lane.woken, if_pos yes]
    exact ends
  · next not =>
    have no : ¬ y.wakesOn obj phase = true := fun yes => not (by simpa [wakes] using yes)
    rw [Lane.woken, if_neg no]

/-- One act of BARA: the arrival, and what becomes of the lanes of other waves. -/
theorem State.Clear.bara_wakes {o : Ops} {c : Ctl} {s : State} {obj : Nat → ObjRef} {l₀ : Nat} (h : s.Clear (.bara o c) spans1)
    (resident : s.tm.state = .resident) (orderly : s.Orderly) (names : s.Names o c 2 false obj) (one : s.acts o = [l₀]) :
    ∃ t, exec (.bara o c) s = .next t ∧ t.bar (obj l₀) = (s.bar (obj l₀)).arrive.check ∧
      ∀ k l, k ≠ s.cur.wave → ((t.wave k).lane l).calm = (((s.wave k).lane l).woken (obj l₀) (s.bar (obj l₀)).arrive.check.phase).calm := by
  have mine : l₀ ∈ s.acts o := by rw [one]; exact List.mem_singleton_self _
  have named := names l₀ mine
  have named' := h.names_begun names mine
  have bar := h.bar_begun named
  obtain ⟨soft, -⟩ := State.begun_soft h
  have group := h.group_begun
  have pre := State.begun_pre h
  have orderly' := h.orderly_begun orderly
  rw [exec_bara]
  refine h.onObject_answers ?_
  generalize s.begun (.bara o c) spans1 = b at *
  have acts : b.acts o = [l₀] := by simpa only [State.acts, soft.mask_eq] using one
  have stored := b.before_stored c
  have teams : ∀ t, (b.before c).team t = b.team t := fun t => by have := congrArg (State.team · t) stored.outside; exact this
  have dies : ∀ d, (b.before c).die d = b.die d := fun d => by have := congrArg (State.die · d) stored.outside; exact this
  have home : (b.before c).AtHome (obj l₀) := fun t off e => by rw [teams]; exact group.atHome named' t off e
  have there : (b.before c).objThere (obj l₀) = true := by
    have isThere : b.objThere (obj l₀) = true := State.objThere_of_object named' (by rw [soft.tm]; exact resident)
    have := congrArg (State.objThere · (obj l₀)) stored.outside
    exact this.trans isThere
  have before : (b.before c).bar (obj l₀) = s.bar (obj l₀) := ((group.atHome named').bar_congr teams dies).trans bar
  obtain ⟨u, acted, rfl⟩ := State.actAll_outcomes (s := b) (o := o) (e := fun _ => none)
    (f := objectAct o c 2 false (baraAt c))
    (fun acted t => t = if acted = [] then b else (b.before c).arrive (obj l₀)) rfl fun acted l t sub hl fresh here => by
      rw [acts, List.mem_singleton] at hl
      subst hl
      have none : acted = [] := by
        cases acted with
        | nil => rfl
        | cons j js =>
          have first := sub j List.mem_cons_self
          rw [acts, List.mem_singleton] at first
          exact absurd (first ▸ List.mem_cons_self) fresh
      subst none
      rw [if_pos rfl] at here
      subst here
      exact ⟨group.frozenLanes, _, objectAct_of_named orderly' (by rw [pre]; exact named'), by rw [if_neg (by simp)]⟩
  rw [acts, if_neg (by simp)] at acted
  rw [State.lanewise_completes _ acted, State.arrive]
  have fits : ((b.before c).bar (obj l₀)).arrive.check.Fits := (State.fits_bar _ _).arrive.check
  have cur := home.cur_updateBar there fun b => b.arrive.check
  have updated := home.bar_updateBar there (fun b => b.arrive.check) fits
  have lanes := home.lane_updateBar there fun b => b.arrive.check
  generalize (b.before c).updateBar (obj l₀) _ = u at *
  have thawed : u.cur.frozenLanes = 0 := by rw [cur, stored.cur]; exact group.frozenLanes
  have waveNo : u.cur.wave = s.cur.wave := by rw [cur, stored.cur]; exact soft.wave
  rw [before] at updated lanes
  refine ⟨updated, fun k l other => ?_⟩
  have stays : (u.advance b.mask).wave k = u.wave k := by
    rw [u.advance_eq b.mask thawed]
    exact State.wave_modWave_ne u _ (by rw [waveNo]; exact Ne.symm other)
  have wave : s.wave k = b.wave k := by simp only [State.wave, Tbl.get, soft.elsewhere.2 k other]
  have calm : (((b.before c).wave k).lane l).calm = ((b.wave k).lane l).calm := by
    rw [← Wave.lane_calm, ← Wave.lane_calm, ← State.wave_calm, ← State.wave_calm]
    exact congrArg (fun ws : Tbl Wave => (ws.get k Wave.gone).lane l) stored.calm
  rw [stays, lanes, Lane.woken_calm, calm, ← Lane.woken_calm, wave]

/-- Settles O30: an arrival changes lanes of other waves as the end of the waits on its object does, and an offset or a misuse that traps does
so in every act, before anything is updated. -/
theorem barrierWakesAndCauses : Obligations.BarrierWakesAndCauses := by
  unfold Obligations.BarrierWakesAndCauses
  refine ⟨?_, ?_, ?_, ?_⟩
  · intro o c s obj l₀ h resident orderly names one
    obtain ⟨t, executes, arrived, lanes⟩ := h.bara_wakes resident orderly names one
    refine ⟨t, executes, arrived, fun k l x n acquire next since other waits => ?_⟩
    have pc : ((t.wave k).lane l).pc = (((s.wave k).lane l).woken (obj l₀) (s.bar (obj l₀)).arrive.check.phase).pc := by
      have := congrArg Lane.pc (lanes k l other); exact this
    have life : ((t.wave k).lane l).life = (((s.wave k).lane l).woken (obj l₀) (s.bar (obj l₀)).arrive.check.phase).life := by
      have := congrArg Lane.life (lanes k l other); exact this
    have becomes := Lane.woken_barw waits (obj l₀) (s.bar (obj l₀)).arrive.check.phase
    rw [pc, life]
    by_cases same : x = obj l₀
    · subst same
      rw [arrived]
      split
      · next passed => rwa [if_pos passed] at becomes
      · next passed => rw [if_neg passed] at becomes; rw [becomes]; exact ⟨rfl, rfl⟩
    · rw [if_neg fun both => same both.1] at becomes
      rw [if_neg fun both => same both.1, becomes]
      exact ⟨rfl, rfl⟩
  · intro mk sp listed o c s h can bad
    simp only [List.mem_cons, Prod.mk.injEq, List.not_mem_nil, or_false] at listed
    obtain ⟨rfl, rfl⟩ | ⟨rfl, rfl⟩ | ⟨rfl, rfl⟩ | ⟨rfl, rfl⟩ | ⟨rfl, rfl⟩ | ⟨rfl, rfl⟩ := listed
    · rw [exec_bari]; exact h.onObject_misaligned can bad
    · rw [exec_bara]; exact h.onObject_misaligned can bad
    · rw [exec_barx]; exact h.onObject_misaligned can bad
    · rw [exec_barw]; exact h.onObject_misaligned can bad
    · rw [exec_bart]; exact h.onObject_misaligned can bad
    · rw [exec_bard]; exact h.onObject_misaligned can bad
  · intro o c s obj h can orderly names none
    rw [exec_bari]
    refine h.onObject_misuse can orderly names 1 fun l hl => ?_
    obtain ⟨arrivals, bytes⟩ := none l hl
    have noBytes : hi32 (reader s.pre o l .n .b) = 0 := BitVec.eq_of_toNat_eq bytes
    simp only [bariAt, State.begun_pre h, arrivals, noBytes, and_self, ↓reduceIte]
  · intro o c s obj h can orderly names none
    rw [exec_bard]
    refine h.onObject_misuse can orderly names 2 fun l hl => ?_
    simp only [bardAt, h.bar_begun (names l hl), none l hl, ↓reduceIte]

end Sys2Proof.Machine

/-! # Waits and tests

BARW and BART (R214, R357, R359). -/

namespace Sys2Proof.Machine

/-! ## Results of acts, one after another -/

/-- The registers that some acts of an instruction have written. -/
def State.putsIn (b : State) (i : Instr) (o : Ops) (n : Nat) (val : Nat → Nat → Word) (acted : List Nat) : Change :=
  { put := fun l r => if !o.s && decide (l ∈ acted) && !nwOf i && inSpan b.pre.vb o.d n r then some (val l (r - (b.pre.vb + o.d.toNat))) else none
    puts := fun m => if o.s && !acted.isEmpty && !nwOf i && inSpan b.pre.sb o.d n m then some (val 0 (m - (b.pre.sb + o.d.toNat))) else none }

/-- A register of a result. -/
theorem sub_lt_of_inSpan {base n r : Nat} {d : Code} (h : inSpan base d n r = true) : r - (base + d.toNat) < n := by
  simp only [inSpan, Bool.and_eq_true, decide_eq_true_eq] at h
  omega

section
variable {b : State} {i : Instr} {o : Ops} {n : Nat} {val : Nat → Nat → Word}

/-- The result of one act more, which may change fields of lanes beside. -/
theorem State.Writable.dst_next {acted : List Nat} {t : State} {l v : Nat} {g h : Nat → Lane → Lane} (writable : b.Writable)
    (switch : isSwitch i = true) (own : ∀ l, OwnLane (h l)) (effect : b.Effect t { b.putsIn i o n val acted with lane := g })
    {u : State} (beside : t.Effect u { lane := h }) (act : l ∈ b.acts o) (value : ∀ j < n, wordAt v j = val l j) :
    b.Effect (u.dst i o l n v) { b.putsIn i o n val (acted ++ [l]) with lane := fun l x => h l (g l x) } := by
  have both := effect.trans beside ⟨.none, own⟩
  have pre : u.pre = b.pre := writable.pre both
  have here := writable.effect both
  cases hs : o.s with
  | true =>
    have only : l = 0 := by simpa [State.acts, hs] using act
    subst only
    have dst : u.dst i o 0 n v = u.dstWave i o n v := by simp [State.dst, hs]
    rw [dst]
    refine (both.trans (.dstWave o n v here.there here.frozenLines switch) (Change.own_registers _ _ _)).congr (fun j r => ?_) (fun m => ?_) rfl
      (fun _ => rfl) fun _ _ => rfl
    · simp [Change.andThen, State.putsIn, hs]
    · simp only [Change.andThen, State.putsIn, hs, pre]
      by_cases w : (!nwOf i && inSpan b.pre.sb o.d n m) = true
      · have inside : inSpan b.pre.sb o.d n m = true := (Bool.and_eq_true _ _ ▸ w).2
        simp [Bool.and_assoc, w, value _ (sub_lt_of_inSpan inside)]
      · simp [Bool.and_assoc, w]
  | false =>
    have lane : b.mask.getLsbD l = true := by simpa [State.acts, hs, mem_lanesOf] using act
    have dst : u.dst i o l n v = u.dstLane i o l n v := by simp [State.dst, hs]
    have has : (u.w.lanes.find? l).isSome = true := here.lanes l (by rw [both.mask]; exact lane)
    rw [dst]
    refine (both.trans (.dstLane o n v here.there has here.frozen here.frozenLanes switch) (Change.own_registers _ _ _)).congr (fun j r => ?_)
      (fun m => ?_) rfl (fun _ => rfl) fun _ _ => rfl
    · simp only [Change.andThen, State.putsIn, hs, pre]
      by_cases w : (!nwOf i && inSpan b.pre.vb o.d n r) = true
      · have inside : inSpan b.pre.vb o.d n r = true := (Bool.and_eq_true _ _ ▸ w).2
        by_cases mine : j = l
        · subst mine; simp [Bool.and_assoc, w, value _ (sub_lt_of_inSpan inside)]
        · simp [Bool.and_assoc, w, mine]
      · simp [Bool.and_assoc, w]
    · simp [Change.andThen, State.putsIn, hs]

/-- No act has written yet. -/
theorem State.Effect.none_written (b : State) (i : Instr) (o : Ops) (n : Nat) (val : Nat → Nat → Word) : b.Effect b (b.putsIn i o n val []) :=
  (Effect.refl b).congr (fun _ _ => by simp [State.putsIn]) (fun _ => by simp [State.putsIn]) rfl (fun _ => rfl) fun _ _ => rfl

/-- All acts have written. -/
theorem State.Effect.all_written {s t : State} {acted : List Nat} {val' : Nat → Nat → Word} {g g' : Nat → Lane → Lane}
    (effect : b.Effect t { b.putsIn i o n val acted with lane := g }) (all : acted = s.acts o) (pre : b.pre = s.pre)
    (agree : ∀ l ∈ s.acts o, val l = val' l) (lanes : ∀ l, g' l (b.w.lane l) = g l (b.w.lane l)) :
    b.Effect t { s.puts i o n val' with lane := g' } := by
  subst all
  refine effect.congr (fun l r => ?_) (fun m => ?_) rfl lanes fun _ _ => rfl
  · cases hs : o.s with
    | true => simp [State.putsIn, State.puts, hs]
    | false =>
      have acts : s.acts o = lanesOf s.mask := by simp [State.acts, hs]
      rw [acts] at agree ⊢
      by_cases lane : s.mask.getLsbD l = true
      · simp [State.putsIn, State.puts, hs, pre, mem_lanesOf, lane, agree l ((mem_lanesOf _ _).2 lane)]
      · simp [State.putsIn, State.puts, hs, mem_lanesOf, lane]
  · cases hs : o.s with
    | true =>
      have acts : s.acts o = [0] := by simp [State.acts, hs]
      rw [acts] at agree ⊢
      simp [State.putsIn, State.puts, hs, pre, agree 0 List.mem_cons_self]
    | false => simp [State.putsIn, State.puts, hs]

end

/-- An act of the core leaves the result where every act does. -/
theorem State.WavesOnly.dst (b : State) {i : Instr} (o : Ops) (l n v : Nat) (switch : isSwitch i = true) : b.WavesOnly (b.dst i o l n v) := by
  unfold State.dst
  split
  · exact .dstWave b o n v switch
  · exact .dstLane b o l n v switch

/-! ## Acquires, one after another -/

theorem State.OutsideAcquire.refl (s : State) : s.OutsideAcquire s false := ⟨rfl, fun _ => rfl, fun _ _ => rfl, fun _ _ => rfl, fun e => absurd e (by decide)⟩

theorem State.OutsideAcquire.trans {s t u : State} {p q : Bool} (h : s.OutsideAcquire t p) (h' : t.OutsideAcquire u q) (home : t.coreNo = s.coreNo) :
    s.OutsideAcquire u (p || q) := by
  obtain ⟨same, cores, settled, still, acquired⟩ := h
  obtain ⟨same', cores', settled', still', acquired'⟩ := h'
  rw [home] at acquired'
  have mem : u.mem = t.mem := by have := congrArg State.mem same'; exact this
  refine ⟨?_, fun c => ?_, fun c a => (settled' c a).trans (settled c a), fun e c => ?_, fun e => ?_⟩
  · exact Eq.trans (congrArg (fun x : State => { x with waves := s.waves, cur := s.cur, cores := s.cores }) same') same
  · exact Eq.trans (congrArg (fun x : Core => { x with l1 := (s.core c).l1 }) (cores' c)) (cores c)
  · obtain ⟨hp, hq⟩ := Bool.or_eq_false_iff.1 e
    exact (still' hq c).trans (still hp c)
  · cases q with
    | true => exact ⟨(acquired' rfl).1, fun a => ((acquired' rfl).2 a).trans (settled s.coreNo a)⟩
    | false =>
      have hp : p = true := by simpa using e
      have core := still' rfl s.coreNo
      refine ⟨by rw [core]; exact (acquired hp).1, fun a => ?_⟩
      simp only [State.seen, core, mem]
      exact (acquired hp).2 a

/-- Nothing that the lanes have loaded early is there to forget. -/
theorem State.Orderly.forget {s : State} (h : s.Orderly) (m : BitVec 32) : s.forget s.cur.wave m = s := by
  have early : ∀ l, ((s.wave s.cur.wave).lane l).early = [] := h.early
  simp [State.forget, early]

theorem State.Orderly.of_waves {s t : State} (h : s.Orderly) (waves : t.waves = s.waves) (cur : t.cur = s.cur) : t.Orderly := by
  have w : t.w = s.w := by simp only [State.w, State.wave, waves, cur]
  exact ⟨by rw [w]; exact h.stores, fun l => by rw [w]; exact h.early l⟩

theorem State.waitAcquires_eq (s : State) (c : Ctl) (x : ObjRef) :
    s.waitAcquires c x = if (s.bar x).target ≠ 0 then 2 else if c.order.toNat % 2 = 1 then
      (if 3 ≤ c.scope.toNat ∨ x ∈ s.graphBars then 2 else 1) else 0 := by
  simp only [State.waitAcquires, acquires, beq_iff_eq, Bool.or_eq_true, decide_eq_true_eq, List.contains_iff_mem]

/-- The acquire that the end of a wait makes (R196). -/
theorem State.Orderly.afterWait {s : State} (h : s.Orderly) (c : Ctl) (x : ObjRef) (m : BitVec 32) :
    s.afterWait c x m = if s.waitAcquires c x = 2 then s.l1DropClean s.coreNo else s := by
  have dropped : (s.l1DropClean s.coreNo).Orderly := h.of_waves rfl rfl
  have forgets : (s.l1DropClean s.coreNo).forget s.cur.wave m = s.l1DropClean s.coreNo := dropped.forget m
  have kinds : s.waitAcquires c x = 2 ∨ s.waitAcquires c x = 1 ∨ s.waitAcquires c x = 0 := by
    rw [State.waitAcquires_eq]; split_ifs <;> simp
  rcases kinds with e | e | e <;> simp only [State.afterWait, e, ↓reduceIte]
  · exact forgets
  · exact h.forget m
  · rfl

theorem State.afterWait_keeps {s : State} (h : s.Orderly) (c : Ctl) (x : ObjRef) (m : BitVec 32) :
    (s.afterWait c x m).waves = s.waves ∧ (s.afterWait c x m).cur = s.cur ∧
      s.OutsideAcquire (s.afterWait c x m) (s.waitAcquires c x == 2) := by
  rw [h.afterWait]
  split
  · next two => rw [two]; exact ⟨rfl, rfl, s.l1DropClean_acquires⟩
  · next other => rw [beq_eq_false_iff_ne.2 other]; exact ⟨rfl, rfl, .refl s⟩

/-! ## What acts find at their objects -/

/-- t is b but for what acquires drop and a change of the executing wave. -/
structure State.Waited (b t : State) (acq : Bool) (c : Change) : Prop where
  outside : b.OutsideAcquire t acq
  effect : b.Effect t c

namespace State.Waited

variable {b t : State} {acq : Bool} {ch : Change} (h : b.Waited t acq ch)
include h

theorem coreNo : t.coreNo = b.coreNo := by
  have team : ∀ k, t.team k = b.team k := fun k => by have := congrArg (State.team · k) h.outside.1; exact this
  simp only [State.coreNo, State.tm, State.tid, team, h.effect.cur]

theorem bar {x : ObjRef} (home : b.AtHome x) : t.bar x = b.bar x := by
  refine home.bar_congr (fun k => ?_) fun d => ?_
  · have := congrArg (State.team · k) h.outside.1; exact this
  · have := congrArg (State.die · d) h.outside.1; exact this

theorem waitAcquires {x : ObjRef} (home : b.AtHome x) (c : Ctl) : t.waitAcquires c x = b.waitAcquires c x := by
  have graphs : t.graphBars = b.graphBars := by have := congrArg State.graphBars h.outside.1; exact this
  rw [State.waitAcquires_eq, State.waitAcquires_eq, h.bar home, graphs]

theorem object (space : Nat) (k : Kind) (low : Bool) (off : DWord) : t.object space k low off = b.object space k low off :=
  State.object_congr h.outside.1 (congrArg Cur.wave h.effect.cur) space k low off

theorem clk : t.clk = b.clk := by have := congrArg State.clk h.outside.1; exact this

/-- A wait that ends. -/
theorem afterWait (orderly : t.Orderly) {x : ObjRef} (home : b.AtHome x) (c : Ctl) (m : BitVec 32) :
    b.OutsideAcquire (t.afterWait c x m) (acq || b.waitAcquires c x == 2) ∧ t.Effect (t.afterWait c x m) {} := by
  obtain ⟨waves, cur, acquired⟩ := State.afterWait_keeps orderly c x m
  rw [h.waitAcquires home] at acquired
  exact ⟨h.outside.trans acquired h.coreNo, .outside waves cur⟩

end State.Waited

/-! ## What the checks leave to a wait or a test -/

/-- The premises of a wait or a test in a state, where the acts name objects. -/
structure State.AtObjects (b : State) (o : Ops) (c : Ctl) (low : Bool) (obj : Nat → ObjRef) : Prop where
  orderly : b.Orderly
  writable : b.Writable
  names : ∀ l ∈ b.acts o, b.object (objSpace c) 0 low (offsetA (reader b.pre o l)) = .ok (obj l)
  home : ∀ l ∈ b.acts o, b.AtHome (obj l)

theorem State.Clear.atObjects {s : State} {i : Instr} {o : Ops} {c : Ctl} {sp : Spans} {low : Bool} {obj : Nat → ObjRef} (h : s.Clear i sp)
    (orderly : s.Orderly) (names : s.Names o c 0 low obj) : (s.begun i sp).AtObjects o c low obj := by
  obtain ⟨soft, -⟩ := State.begun_soft h
  have acts : (s.begun i sp).acts o = s.acts o := by simp only [State.acts, soft.mask_eq]
  have named : ∀ l ∈ (s.begun i sp).acts o, (s.begun i sp).object (objSpace c) 0 low (offsetA (reader (s.begun i sp).pre o l)) = .ok (obj l) :=
    fun l hl => by rw [State.begun_pre h]; exact h.names_begun names (acts ▸ hl)
  exact ⟨h.orderly_begun orderly, h.writable, named, fun l hl => h.group_begun.atHome (named l hl)⟩

/-- Whether the phase of an act's object has passed (R214). -/
def State.passes (b : State) (o : Ops) (obj : Nat → ObjRef) (l : Nat) : Bool := past (b.bar (obj l)).phase (lo32 (reader b.pre o l .w .b))

/-- Whether an act acquires at die scope or wider. -/
def State.dropsAt (b : State) (o : Ops) (c : Ctl) (obj : Nat → ObjRef) (l : Nat) : Bool := b.passes o obj l && b.waitAcquires c (obj l) == 2

section
variable {b : State} {o : Ops} {c : Ctl} {obj : Nat → ObjRef}

/-- An act of BARW (R357). -/
theorem State.AtObjects.barw (at_ : b.AtObjects o c true obj) {t : State} {acq : Bool} {l : Nat} (hl : l ∈ b.acts o) (h : b.Waited t acq {}) :
    ∃ u, objectAct o c 0 true (barwAt o c) t l =
        (u, if b.passes o obj l then none else some (.block (.barw (obj l) (lo32 (reader b.pre o l .w .b)) (b.waitAcquires c (obj l)) b.nextPc b.clk))) ∧
      b.Waited u (acq || b.dropsAt o c obj l) {} := by
  have orderly : t.Orderly := h.effect.orderly at_.orderly rfl fun _ => rfl
  have pre := at_.writable.pre h.effect
  have home := at_.home l hl
  rw [objectAct_of_named orderly (by rw [pre, h.object]; exact at_.names l hl), barwAt, h.bar home, pre]
  obtain ⟨acquired, effect⟩ := h.afterWait orderly home c (t.actMask o.s l)
  cases passed : b.passes o obj l with
  | true =>
    rw [State.passes] at passed
    simp only [passed, ↓reduceIte]
    exact ⟨_, rfl, by rw [State.dropsAt, State.passes, passed, Bool.true_and]; exact acquired, h.effect.trans effect (Change.own_registers _ _ _)⟩
  | false =>
    rw [State.passes] at passed
    simp only [passed, Bool.false_eq_true, ↓reduceIte, h.waitAcquires home, h.effect.nextPc, h.clk]
    exact ⟨_, rfl, by rw [State.dropsAt, State.passes, passed, Bool.false_and, Bool.or_false]; exact h⟩

theorem opcodeOf_bart (o : Ops) (c : Ctl) : opcodeOf (.bart o c) = 6#3 ++ 0x14#6 := rfl
theorem isSwitch_bart (o : Ops) (c : Ctl) : isSwitch (.bart o c) = true := by simp [isSwitch, classOf, opcodeOf_bart]

/-- What BART writes (R357). -/
def State.tested (b : State) (o : Ops) (obj : Nat → ObjRef) (l _ : Nat) : Word := if b.passes o obj l then 0xFFFFFFFF else 0

/-- An act of BART (R357). -/
theorem State.AtObjects.bart (at_ : b.AtObjects o c false obj) {t : State} {acq : Bool} {acted : List Nat} {l : Nat} (hl : l ∈ b.acts o)
    (h : b.Waited t acq (b.putsIn (.bart o c) o 1 (b.tested o obj) acted)) :
    ∃ u, objectAct o c 0 false (bartAt o c) t l = (u, none) ∧
      b.Waited u (acq || b.dropsAt o c obj l) (b.putsIn (.bart o c) o 1 (b.tested o obj) (acted ++ [l])) := by
  have orderly : t.Orderly := h.effect.orderly at_.orderly rfl fun _ => rfl
  have pre := at_.writable.pre h.effect
  have home := at_.home l hl
  rw [objectAct_of_named orderly (by rw [pre, h.object]; exact at_.names l hl), bartAt, h.bar home, pre]
  obtain ⟨acquired, effect⟩ := h.afterWait orderly home c (t.actMask o.s l)
  have writes : ∀ {u : State} {v : Nat}, t.Effect u {} → (∀ j < 1, wordAt v j = b.tested o obj l j) →
      b.Effect (u.dst (.bart o c) o l 1 v) (b.putsIn (.bart o c) o 1 (b.tested o obj) (acted ++ [l])) := fun beside value =>
    at_.writable.dst_next (isSwitch_bart o c) (fun _ => .none) h.effect beside hl value
  have rests : ∀ {u : State} {a : Bool} (v : Nat), b.OutsideAcquire u a → t.Effect u {} → b.OutsideAcquire (u.dst (.bart o c) o l 1 v) a :=
    fun v outside beside => outside.between rfl (State.WavesOnly.dst _ o l 1 v (isSwitch_bart o c)).outside rfl
  cases passed : b.passes o obj l with
  | true =>
    have value : ∀ j < 1, wordAt 0xFFFFFFFF j = b.tested o obj l j := by simp [State.tested, passed, wordAt]
    rw [State.passes] at passed
    simp only [passed, ↓reduceIte]
    refine ⟨_, rfl, rests _ ?_ effect, writes effect value⟩
    rw [State.dropsAt, State.passes, passed, Bool.true_and]
    exact acquired
  | false =>
    have value : ∀ j < 1, wordAt 0 j = b.tested o obj l j := by simp [State.tested, passed, wordAt]
    rw [State.passes] at passed
    simp only [passed, Bool.false_eq_true, ↓reduceIte]
    refine ⟨_, rfl, rests _ ?_ (.refl t), writes (.refl t) value⟩
    rw [State.dropsAt, State.passes, passed, Bool.false_and, Bool.or_false]
    exact h.outside

end

/-! ## Groups some of whose lanes block -/

/-- What a group does depends on the state and the stops that its acts leave. -/
theorem State.lanewise_after {s u : State} {scalar scalar' : Bool} {f g : State → Nat → Acted} {stops : List (Nat × Stop)} (i : Instr)
    (mask : u.mask = s.mask) (acts : s.actAll scalar f = (u, stops)) (still : u.actAll scalar' g = (u, stops)) :
    s.lanewise i scalar false f = u.lanewise i scalar' false g := by
  simp only [State.lanewise, acts, still, mask]

/-- The lanes of a group whose acts do not go on. -/
def stoppedLanes (o : Ops) (m : BitVec 32) (goes : Nat → Bool) : List Nat := (lanesOf m).filter fun l => !goes (actLane o l)

theorem mem_stoppedLanes (o : Ops) (m : BitVec 32) (goes : Nat → Bool) (l : Nat) :
    l ∈ stoppedLanes o m goes ↔ m.getLsbD l = true ∧ goes (actLane o l) = false := by
  simp only [stoppedLanes, List.mem_filter, mem_lanesOf, Bool.not_eq_true']

theorem stopsOf_blocks (o : Ops) (m : BitVec 32) (goes : Nat → Bool) (x : Nat → Wait) :
    stopsOf o m (fun l => if goes l then none else some (Stop.block (x l))) =
      (stoppedLanes o m goes).map fun l => (l, .block (x (actLane o l))) := by
  simp only [stopsOf, stoppedLanes]
  induction lanesOf m with
  | nil => rfl
  | cons l ls ih => cases goes_on : goes (actLane o l) <;> simp [goes_on, ih]

/-- Acts some of which block: their lanes wait, the others go on. -/
theorem State.lanewise_waits {u : State} (group : u.Group) (i : Instr) (o : Ops) (goes : Nat → Bool) (x : Nat → Wait) {s : State}
    {f : State → Nat → Acted} (mask : u.mask = s.mask)
    (acts : s.actAll o.s f = (u, stopsOf o s.mask fun l => if goes l then none else some (Stop.block (x l)))) :
    let t := s.lanewise i o.s false f
    u.Effect t { moved := fun l => u.mask.getLsbD l } ∧ u.Outside t ∧
      ∀ l, u.mask.getLsbD l = true → if goes (actLane o l) then (t.w.lane l).pc = u.nextPc ∧ (t.w.lane l).life = .ready
        else (t.w.lane l).pc = (u.w.lane l).pc ∧ (t.w.lane l).life = .blocked (x (actLane o l)) := by
  rw [← mask, stopsOf_blocks] at acts
  have still : u.actAll false (fun t l => (t, if goes (actLane o l) then none else some (Stop.block (x (actLane o l))))) =
      (u, (stoppedLanes o u.mask goes).map fun l => (l, .block (x (actLane o l)))) :=
    (State.actAll_still group.frozenLanes fun _ => rfl).trans (congrArg _ (stopsOf_blocks o u.mask goes x))
  rw [State.lanewise_after i mask acts still]
  obtain ⟨effect, rest, go, wait⟩ := State.lanewise_blocks group i ((lanesOf_nodup u.mask).filter _)
    (fun l hl => ((mem_stoppedLanes o u.mask goes l).1 hl).1) group.lanes still
  refine ⟨effect, (show u.WavesOnly _ from rest).outside, fun l hl => ?_⟩
  split
  · next on => exact go l hl fun mem => by rw [((mem_stoppedLanes o u.mask goes l).1 mem).2] at on; cases on
  · next off => exact wait l ((mem_stoppedLanes o u.mask goes l).2 ⟨hl, Bool.eq_false_iff.2 off⟩)

/-! ## The obligation -/

/-- What the acts find is as it was before the checks. -/
theorem State.Clear.passes_begun {s : State} {i : Instr} {o : Ops} {c : Ctl} {sp : Spans} {low : Bool} {obj : Nat → ObjRef} (h : s.Clear i sp)
    (names : s.Names o c 0 low obj) {l : Nat} (hl : l ∈ s.acts o) :
    (s.begun i sp).passes o obj l = s.passes o obj l ∧ (s.begun i sp).waitAcquires c (obj l) = s.waitAcquires c (obj l) := by
  have graphs : (s.begun i sp).graphBars = s.graphBars := by have := congrArg State.graphBars (State.begun_outside h); exact this
  have bar := h.bar_begun (names l hl)
  exact ⟨by simp only [State.passes, bar, State.begun_pre h], by rw [State.waitAcquires_eq, State.waitAcquires_eq, bar, graphs]⟩

theorem State.Clear.drops_begun {s : State} {i : Instr} {o : Ops} {c : Ctl} {sp : Spans} {low : Bool} {obj : Nat → ObjRef} (h : s.Clear i sp)
    (names : s.Names o c 0 low obj) : ((s.begun i sp).acts o).any ((s.begun i sp).dropsAt o c obj) = (s.acts o).any (s.dropsAt o c obj) := by
  have ours : (s.begun i sp).acts o = s.acts o := by simp only [State.acts, (State.begun_soft h).1.mask_eq]
  rw [ours, Bool.eq_iff_iff, List.any_eq_true, List.any_eq_true]
  refine exists_congr fun l => and_congr_right fun hl => ?_
  rw [State.dropsAt, State.dropsAt, (h.passes_begun names hl).1, (h.passes_begun names hl).2]

/-- BARW: lanes whose phase has passed go on, the others wait (R214, R357). -/
theorem barw_waits {o : Ops} {c : Ctl} {s : State} {obj : Nat → ObjRef} (h : s.Clear (.barw o c) spans1) (orderly : s.Orderly)
    (names : s.Names o c 0 true obj) :
    ∃ t, exec (.barw o c) s = .next t ∧ s.OutsideAcquire t ((s.acts o).any (s.dropsAt o c obj)) ∧ s.Frame t (.barw o c) spans1 {} ∧
      ∀ l, s.mask.getLsbD l = true → if s.passes o obj (actLane o l) then (t.w.lane l).pc = s.nextPc ∧ (t.w.lane l).life = .ready
        else (t.w.lane l).pc = (s.w.lane l).pc ∧ (t.w.lane l).life =
          .blocked (.barw (obj (actLane o l)) (lo32 (reader s.pre o l .w .b)) (s.waitAcquires c (obj (actLane o l))) s.nextPc s.clk) := by
  have at_ := h.atObjects orderly names
  have found := fun l => h.passes_begun names (l := l)
  have drops := h.drops_begun names
  obtain ⟨soft, -⟩ := State.begun_soft h
  have group := h.group_begun
  have before := State.begun_outside h
  have checked := h.checked
  have pre := State.begun_pre h
  rw [exec_barw]
  refine h.onObject_answers ?_
  generalize s.begun (.barw o c) spans1 = b at *
  have ours : b.acts o = s.acts o := by simp only [State.acts, soft.mask_eq]
  have clk : b.clk = s.clk := by have := congrArg State.clk before; exact this
  obtain ⟨u, acts, waited⟩ := State.actAll_outcomes (s := b) (o := o) (f := objectAct o c 0 true (barwAt o c))
    (fun acted t => b.Waited t (acted.any (b.dropsAt o c obj)) {}) ⟨.refl b, .refl b⟩ fun acted l t _ hl _ here => by
      refine ⟨by rw [here.effect.cur]; exact group.frozenLanes, ?_⟩
      obtain ⟨v, act, hv⟩ := at_.barw hl here
      exact ⟨v, act, by simpa only [List.any_append, List.any_cons, List.any_nil, Bool.or_false] using hv⟩
  have ready : ∀ l, b.mask.getLsbD l = true → (u.w.lane l).life = .ready := fun l hl => by
    rw [(waited.effect.w.still l rfl).2]; exact group.ready l hl
  have home : u.tm.away = false := by
    have team : u.tm = b.tm := by
      have team : ∀ k, u.team k = b.team k := fun k => by have := congrArg (State.team · k) waited.outside.1; exact this
      simp only [State.tm, State.tid, team, waited.effect.cur]
    rw [team]; exact group.home
  have mask := waited.effect.mask
  have here := at_.writable.effect waited.effect
  have groupAfter : u.Group := ⟨home, here.there, here.lanes, fun l hl => ready l (mask ▸ hl), by rw [mask]; exact group.some, here.frozen,
    here.frozenLanes, here.frozenLines⟩
  obtain ⟨effect, outside, lanes⟩ := State.lanewise_waits groupAfter (.barw o c) o (b.passes o obj) _ mask acts
  generalize b.lanewise (.barw o c) o.s false _ = t at *
  refine ⟨drops ▸ waited.outside.between before outside soft.coreNo, ?_, fun l hl => ?_⟩
  · refine checked.frame (waited.effect.trans effect (Change.own_registers _ _ _)) (Change.Own.andThen (Change.own_registers _ _ _) (Change.own_registers _ _ _))
      (fun _ _ => rfl) (fun _ => rfl) (fun _ => rfl) (fun _ _ => rfl) fun l hl _ => ?_
    simpa [Change.andThen, mask, soft.mask_eq] using hl
  · have lane := lanes l (by rw [mask, soft.mask_eq]; exact hl)
    have act : actLane o l ∈ s.acts o := State.mem_acts hl
    simp only [(found _ act).1, (found _ act).2, reader_actLane, pre, clk, waited.effect.nextPc, soft.nextPc, (waited.effect.w.still l rfl).1,
      (soft.lane l).2.2.2.1] at lane
    exact lane

/-- BART: whether the phase has passed (R357). -/
theorem bart_tests {o : Ops} {c : Ctl} {s : State} {obj : Nat → ObjRef} (h : s.Clear (.bart o c) spans1) (orderly : s.Orderly)
    (names : s.Names o c 0 false obj) :
    ∃ t, exec (.bart o c) s = .next t ∧ s.OutsideAcquire t ((s.acts o).any (s.dropsAt o c obj)) ∧
      s.Frame t (.bart o c) spans1 (s.puts (.bart o c) o 1 (s.tested o obj)) ∧ t.At s.mask fun _ => s.nextPc := by
  have at_ := h.atObjects orderly names
  have found := fun l => h.passes_begun names (l := l)
  have drops := h.drops_begun names
  obtain ⟨soft, -⟩ := State.begun_soft h
  have group := h.group_begun
  have before := State.begun_outside h
  have goesOn := fun u c => h.goesOn (u := u) (c := c)
  have pre := State.begun_pre h
  rw [exec_bart]
  refine h.onObject_answers ?_
  generalize s.begun (.bart o c) spans1 = b at *
  have ours : b.acts o = s.acts o := by simp only [State.acts, soft.mask_eq]
  obtain ⟨u, acts, waited⟩ := State.actAll_outcomes (s := b) (o := o) (f := objectAct o c 0 false (bartAt o c)) (e := fun _ => none)
    (fun acted t => b.Waited t (acted.any (b.dropsAt o c obj)) (b.putsIn (.bart o c) o 1 (b.tested o obj) acted)) ⟨.refl b, .none_written _ _ _ _ _⟩
    fun acted l t _ hl _ here => by
      refine ⟨by rw [here.effect.cur]; exact group.frozenLanes, ?_⟩
      obtain ⟨v, act, hv⟩ := at_.bart hl here
      exact ⟨v, act, by simpa only [List.any_append, List.any_cons, List.any_nil, Bool.or_false] using hv⟩
  rw [State.lanewise_completes _ acts, ← waited.effect.mask]
  have agree : ∀ l ∈ s.acts o, b.tested o obj l = s.tested o obj l := fun l hl => by
    funext j
    rw [State.tested, State.tested, (found l hl).1]
  obtain ⟨frame, goes⟩ := goesOn u (s.puts (.bart o c) o 1 (s.tested o obj))
    (State.Effect.all_written (g := fun _ x => x) waited.effect ours pre agree fun _ => rfl) (Change.own_registers _ _ _)
  exact ⟨drops ▸ waited.outside.between before rfl soft.coreNo, frame, goes⟩

theorem State.dropsAt_eq (s : State) (o : Ops) (c : Ctl) (obj : Nat → ObjRef) : s.dropsAt o c obj = fun l =>
    (0#32).slt ((s.bar (obj l)).phase - lo32 (reader s.pre o l .w .b)) &&
      (if (s.bar (obj l)).target ≠ 0 then 2 else if c.order.toNat % 2 = 1 then
        (if 3 ≤ c.scope.toNat ∨ obj l ∈ s.graphBars then 2 else 1) else 0) == 2 := by
  funext l
  rw [State.dropsAt, State.waitAcquires_eq, State.passes, past]

/-- Settles O29: each act finds its object as the instruction found it, since an act before it drops clean lines at most. -/
theorem barrierWaitsAndTests : Obligations.BarrierWaitsAndTests := by
  unfold Obligations.BarrierWaitsAndTests
  refine ⟨fun o c s obj h orderly names => ?_, fun o c s obj h orderly names => ?_⟩
  · obtain ⟨t, executes, outside, frame, lanes⟩ := barw_waits h orderly names
    rw [State.dropsAt_eq] at outside
    simp only [State.waitAcquires_eq] at lanes
    exact ⟨t, executes, outside, frame, lanes⟩
  · obtain ⟨t, executes, outside, frame, goes⟩ := bart_tests h orderly names
    rw [State.dropsAt_eq] at outside
    exact ⟨t, executes, outside, frame, goes⟩

end Sys2Proof.Machine

/-! # Places

Where an access goes does not turn on the waves or on the record of the clk. -/

namespace Sys2Proof.Machine

/-! ## Places, whatever the waves (R168, R178 to R183) -/

/-- The state with other waves and another record of the clk. -/
def State.rewaved (s : State) (ws : Tbl Wave) (c : Cur) : State := { s with waves := ws, cur := c }

theorem State.Outside.eq_rewaved {s t : State} (h : s.Outside t) : t = s.rewaved t.waves t.cur := by
  have := congrArg (State.rewaved · t.waves t.cur) h
  exact this

section
variable (s : State) (ws : Tbl Wave) (c : Cur)

/-- A walk uses the state for the table entries that it reads alone. (The recursion is taken as it is compiled: the entries that it judges are
too costly to unfold.) -/
theorem State.walkFrom_rewaved (ctx va level table : Nat) : (s.rewaved ws c).walkFrom ctx va level table = s.walkFrom ctx va level table := by
  have reads : (s.rewaved ws c).l2Read = s.l2Read := rfl
  delta State.walkFrom State.walkFrom._f
  rw [reads]

theorem State.lookupDie_rewaved (d ctx va : Nat) :
    (s.rewaved ws c).lookupDie d ctx va = ((s.lookupDie d ctx va).1.rewaved ws c, (s.lookupDie d ctx va).2) := by
  have hit : tlbHit ((s.rewaved ws c).die d).tlb ctx va = tlbHit (s.die d).tlb ctx va := rfl
  have start : (s.rewaved ws c).walkStart d ctx va = s.walkStart d ctx va := rfl
  unfold State.lookupDie
  rw [hit, start]
  obtain ⟨level, table⟩ := s.walkStart d ctx va
  dsimp only
  rw [State.walkFrom_rewaved]
  obtain ⟨seen, r⟩ := s.walkFrom ctx va level table
  cases tlbHit (s.die d).tlb ctx va with
  | some e => rfl
  | none => cases r <;> rfl

theorem State.lookup_rewaved (core ctx va : Nat) :
    (s.rewaved ws c).lookup core ctx va = ((s.lookup core ctx va).1.rewaved ws c, (s.lookup core ctx va).2) := by
  have hit : tlbHit ((s.rewaved ws c).core core).tlb ctx va = tlbHit (s.core core).tlb ctx va := rfl
  unfold State.lookup
  rw [hit, State.lookupDie_rewaved]
  cases tlbHit (s.core core).tlb ctx va with
  | some e => rfl
  | none =>
    obtain ⟨u, r⟩ := s.lookupDie (core / Config.coresPerDie) ctx va
    cases r <;> rfl

theorem State.translate_rewaved (core ctx : Nat) (va : DWord) (k : Kind) :
    (s.rewaved ws c).translate core ctx va k = ((s.translate core ctx va k).1.rewaved ws c, (s.translate core ctx va k).2) := by
  have window : (s.rewaved ws c).heapWindow ctx va k = s.heapWindow ctx va k := rfl
  unfold State.translate
  rw [window]
  dsimp only
  rw [State.lookup_rewaved]
  cases canonical va with
  | false => rfl
  | true =>
    cases s.heapWindow ctx va k with
    | some r => rfl
    | none =>
      obtain ⟨u, r⟩ := s.lookup core ctx (va.toNat % 2 ^ 57)
      cases r <;> rfl

end

/-- A place that is found, with nothing done to find it, is found from every state that is the same outside the waves. -/
theorem State.Outside.place {s t : State} (h : s.Outside t) (wave : t.cur.wave = s.cur.wave) {space : Nat} {k : Kind} {n : Nat} {addr : DWord}
    {data : BitVec 128} {p : Place} (placed : s.place space k n addr data = (s, .ok p)) (data' : BitVec 128) :
    t.place space k n addr data' = (t, .ok p) := by
  have same := h.eq_rewaved
  generalize t.waves = ws at same
  generalize ht : t.cur = c at same wave
  subst same
  have tid : (s.rewaved ws c).tid = s.tid := congrArg (· / 64) wave
  have team : (s.rewaved ws c).tm = s.tm := congrArg s.team tid
  have coreNo : (s.rewaved ws c).coreNo = s.coreNo := congrArg Team.core team
  have ctxNo : (s.rewaved ws c).ctxNo = s.ctxNo := congrArg Team.ctx team
  have dieNo : (s.rewaved ws c).dieNo = s.dieNo := congrArg (· / Config.coresPerDie) coreNo
  have within : (s.rewaved ws c).teamOffset = s.teamOffset := rfl
  have inside : (s.rewaved ws c).dieOffset = s.dieOffset := rfl
  have die : (s.rewaved ws c).die = s.die := rfl
  unfold State.place at placed ⊢
  rw [coreNo, ctxNo, dieNo, tid, State.translate_rewaved, die, within, inside]
  by_cases aligned : addr.toNat % n ≠ 0
  · rw [if_pos aligned] at placed; cases placed
  rw [if_neg aligned] at placed ⊢
  by_cases inMem : space = 0
  · rw [if_pos inMem] at placed ⊢
    rcases found : s.translate s.coreNo s.ctxNo addr k with ⟨u, r⟩
    rw [found] at placed
    cases r with
    | error e => cases placed
    | ok pa =>
      dsimp only at placed ⊢
      have backs : (u.rewaved ws c).backedAll pa n = u.backedAll pa n := rfl
      have poisons : (u.rewaved ws c).poisonAt pa n = u.poisonAt pa n := rfl
      rw [backs, poisons]
      cases backed : u.backedAll pa n with
      | false => rw [backed] at placed; cases placed
      | true =>
        rw [backed] at placed
        cases found : (if k = 1 then none else u.poisonAt pa n) with
        | some info => rw [found] at placed; cases placed
        | none => rw [found] at placed; cases placed; rfl
  rw [if_neg inMem] at placed ⊢
  by_cases inTeam : space = 1
  · rw [if_pos inTeam] at placed ⊢
    cases found : s.teamOffset s.tid addr.toInt n with
    | none => rw [found] at placed; cases placed
    | some off =>
      rw [found] at placed
      dsimp only at placed ⊢
      split at placed
      · cases placed
      · next low => rw [if_neg low]; cases placed; rfl
  rw [if_neg inTeam] at placed ⊢
  cases busy : (s.die s.dieNo).busy with
  | true => rw [busy] at placed; cases placed
  | false =>
    rw [busy] at placed
    cases found : s.dieOffset s.dieNo s.ctxNo addr.toInt n with
    | none => rw [found] at placed; cases placed
    | some off =>
      rw [found] at placed
      rw [if_neg Bool.false_ne_true] at placed ⊢
      dsimp only at placed ⊢
      by_cases poisoned : k ≠ 1 ∧ (s.die s.dieNo).poisonAt off n = true
      · rw [if_pos poisoned] at placed; cases placed
      · rw [if_neg poisoned] at placed ⊢; cases placed; rfl

end Sys2Proof.Machine

/-! # Stores and reductions that wait

ST, STT, STP, STC and RED of a wave whose accesses the clk leaves to be performed later (R193, R198, R206, R434). -/

namespace Sys2Proof.Machine

/-! ## Bytes of a value -/

theorem toBytes_mod {n m v : Nat} (short : n ≤ m) : toBytes n (v % 2 ^ (8 * m)) = toBytes n v := by
  refine List.map_congr_left fun i hi => ?_
  have inside : 8 * i + 8 ≤ 8 * m := by have := List.mem_range.1 hi; omega
  refine BitVec.eq_of_toNat_eq (Nat.eq_of_testBit_eq fun j => ?_)
  simp only [BitVec.toNat_ofNat, Nat.testBit_mod_two_pow, Nat.testBit_div_two_pow]
  by_cases low : j < 8
  · simp only [show j + 8 * i < 8 * m by omega, decide_true, Bool.true_and]
  · simp only [low, decide_false, Bool.false_and]

theorem take_toBytes {n k : Nat} (v : Nat) (short : k ≤ n) : (toBytes n v).take k = toBytes k v := by
  rw [toBytes, toBytes, ← List.map_take, List.take_range, Nat.min_eq_left short]

theorem drop_toBytes (n k v : Nat) : (toBytes (k + n) v).drop k = toBytes n (v / 2 ^ (8 * k)) := by
  rw [toBytes, toBytes, List.range_add, List.map_append, List.drop_left' (by simp), List.map_map]
  refine List.map_congr_left fun i _ => ?_
  simp only [Function.comp_apply, Nat.div_div_eq_div_mul, ← pow_add, Nat.mul_add]

/-! ## Accesses that wait (R198) -/

/-- A wave whose waiting accesses have changed. -/
def Wave.storing (f : List Pend → List Pend) (w : Wave) : Wave := { w with stores := f w.stores }

theorem OwnChange.storing (f : List Pend → List Pend) : OwnChange (Wave.storing f) where
  kept _ _ h := congrArg (Wave.storing f) h
  lanes _ := rfl
  s _ := rfl
  slatch _ := rfl
  fcsr _ := rfl
  wstat _ := rfl

theorem Change.own_storing (f : List Pend → List Pend) : Change.Own { wave := Wave.storing f } := ⟨.storing f, fun _ => .none⟩

/-- t is b but for the accesses of the executing wave that wait. -/
structure State.Waiting (b t : State) (f : List Pend → List Pend) : Prop where
  outside : b.Outside t
  effect : b.Effect t { wave := Wave.storing f }

/-- No lane of the executing wave has loaded anything early. -/
def State.NothingEarly (s : State) : Prop := ∀ l, (s.w.lane l).early = []

theorem State.NothingEarly.dropEarly {s : State} (h : s.NothingEarly) (m : BitVec 32) (p : Place) (n : Nat) : s.dropEarly s.cur.wave m p n = s := by
  have early : ∀ l, ((s.wave s.cur.wave).lane l).early = [] := h
  simp [State.dropEarly, early]

namespace State.Waiting

theorem refl (b : State) : b.Waiting b id := ⟨rfl, (Effect.refl b).congr (fun _ _ => rfl) (fun _ => rfl) rfl (fun _ => rfl) fun _ _ => rfl⟩

variable {b t : State} {f : List Pend → List Pend} (h : b.Waiting t f)
include h

theorem nothingEarly (early : b.NothingEarly) : t.NothingEarly := fun l => by
  have kept : (t.w.lane l).early = (b.w.lane l).early := by have := congrArg Lane.early (h.effect.w.lanes l); exact this
  rw [kept, early]

theorem stores : t.w.stores = f b.w.stores := by have := congrArg Wave.stores h.effect.w.kept; exact this

theorem clk : t.clk = b.clk := by have := congrArg State.clk h.outside; exact this

theorem place {space : Nat} {k : Kind} {n : Nat} {addr : DWord} {data : BitVec 128} {p : Place}
    (placed : b.place space k n addr data = (b, .ok p)) (data' : BitVec 128) : t.place space k n addr data' = (t, .ok p) :=
  h.outside.place (congrArg Cur.wave h.effect.cur) placed data'

/-- What waits, said otherwise. -/
theorem congr {e : List Pend → List Pend} (same : e b.w.stores = f b.w.stores) : b.Waiting t e := by
  refine ⟨h.outside, h.effect.congr (fun _ _ => rfl) (fun _ => rfl) ?_ (fun _ => rfl) fun _ _ => rfl⟩
  simp only [Wave.storing, same]

/-- What waits changes further. -/
theorem then_ (there : (b.waves.find? b.cur.wave).isSome) {g e : List Pend → List Pend} (same : g (f b.w.stores) = e b.w.stores) :
    b.Waiting (t.modWave t.cur.wave (Wave.storing g)) e := by
  have step : t.Effect (t.modWave t.cur.wave (Wave.storing g)) { wave := Wave.storing g } := .modWave (h.effect.isThere there) (.own _ (.storing g))
  refine ⟨h.outside, (h.effect.trans step (Change.own_storing g)).congr (fun _ _ => rfl) (fun _ => rfl) ?_ (fun _ => rfl) fun _ _ => rfl⟩
  show Wave.storing e b.w = Wave.storing g (Wave.storing f b.w)
  simp only [Wave.storing, same]

end State.Waiting

/-- Lanes of a wave none of whose lanes in the group is a member. -/
theorem State.no_actMembers {t : State} {scalar : Bool} {l : Nat} (members : t.members = 0)
    (ready : scalar = false → t.mask.getLsbD l = true ∧ (t.w.lane l).life = .ready) : t.actMembers scalar l = [] := by
  cases scalar with
  | true => rw [State.actMembers, if_pos rfl, members]; rfl
  | false =>
    obtain ⟨lane, life⟩ := ready rfl
    have small : l < 32 := BitVec.lt_of_getLsbD lane
    have bit : t.members.getLsbD l = false := by rw [members]; simp
    rw [State.members, BitVec.getLsbD_and, lane, Wave.getLsbD_which, Lane.live, life] at bit
    have outside : (t.w.lane l).member = false := by simpa [small] using bit
    rw [State.actMembers, if_neg Bool.false_ne_true, outside, if_neg Bool.false_ne_true]

/-- Members of a group stay where lanes keep their lives and their regions. -/
theorem State.Effect.members {b t : State} {c : Change} (h : b.Effect t c) (depth : ∀ l x, (c.lane l x).depth = x.depth)
    (moved : ∀ l, c.moved l = false) : t.members = b.members := by
  have lane : ∀ l, ((t.w.lane l).member && (t.w.lane l).live) = ((b.w.lane l).member && (b.w.lane l).live) := fun l => by
    have kept : (t.w.lane l).depth = (c.lane l (b.w.lane l)).depth := by have := congrArg Lane.depth (h.w.lanes l); exact this
    rw [Lane.member, Lane.member, kept, depth, Lane.live, Lane.live, (h.w.still l (moved l)).2]
  simp only [State.members, h.mask, Wave.which, lane]

/-! ## ST, STT, STP and STC whose bytes wait (R198, R193) -/

/-- An access that the executing instruction leaves waiting. -/
def State.leaves (s : State) (m : BitVec 32) (p : Place) (e : Machine.Effect) : Pend := { lanes := m, place := p, effect := e, clk := s.clk, group := s.mask }

/-- The accesses that an act of a store leaves waiting. -/
def State.storeParts (s : State) (o : Ops) (n : Nat) (p : Nat → Place) (l : Nat) : List Pend :=
  let v := readRegs s.pre o l (regsFor n)
  let part := fun (at' size v : Nat) => s.leaves (if o.s then s.mask else 1#32 <<< l) ((p l).plus at') (.store (toBytes size v) false)
  if (p l).foreign = true ∧ n = 16 then [part 0 8 v, part 8 8 (v / 2 ^ 64)] else [part 0 n v]

/-- The parts of a value that waits. -/
theorem Place.unit_stores (p : Place) (n v : Nat) (x : Place → List Byte → Pend) :
    (p.units n).map (fun u => x (p.plus u.1) (((toBytes n v).drop u.1).take u.2)) =
      if p.foreign = true ∧ n = 16 then [x (p.plus 0) (toBytes 8 v), x (p.plus 8) (toBytes 8 (v / 2 ^ 64))] else [x (p.plus 0) (toBytes n v)] := by
  by_cases two : p.foreign = true ∧ n = 16
  · obtain ⟨foreign, rfl⟩ := two
    have high : ((toBytes 16 v).drop 8).take 8 = toBytes 8 (v / 2 ^ 64) := by
      rw [drop_toBytes 8 8, take_toBytes _ (Nat.le_refl 8)]
    simp only [Place.units, foreign, beq_self_eq_true, Bool.and_self, ↓reduceIte, List.map_cons, List.map_nil, List.drop_zero, and_self,
      take_toBytes v (show 8 ≤ 16 by decide), high]
  · have one : (p.foreign && n == 16) = false := by simpa using two
    simp only [Place.units, one, if_neg two, Bool.false_eq_true, ↓reduceIte, List.map_cons, List.map_nil, List.drop_zero, take_toBytes v (Nat.le_refl n)]

section
variable {b t : State} {o : Ops} {space n : Nat} {l : Nat} {addr : DWord} {p : Nat → Place}

/-- An act of a store whose bytes wait. -/
theorem State.Waiting.storeBody {f e : List Pend → List Pend} (h : b.Waiting t f) (writable : b.Writable) (group : b.Group) (members : b.members = 0)
    (lazily : b.cur.lazy = true) (early : b.NothingEarly) (act : l ∈ b.acts o) (short : n ≤ 16)
    (placed : b.place space 1 n addr 0 = (b, .ok (p l))) (same : f b.w.stores ++ b.storeParts o n p l = e b.w.stores) :
    ∃ u, Machine.storeBody o space n false t l addr (storeData t o l n) = done u ∧ b.Waiting u e := by
  have none_left : t.members = 0 := (h.effect.members (fun _ _ => rfl) fun _ => rfl).trans members
  have ready : o.s = false → t.mask.getLsbD l = true ∧ (t.w.lane l).life = .ready := fun vector => by
    have lane : b.mask.getLsbD l = true := by simpa [State.acts, vector, mem_lanesOf] using act
    exact ⟨by rw [h.effect.mask]; exact lane, by rw [(h.effect.w.still l rfl).2]; exact group.ready l lane⟩
  have noMembers := State.no_actMembers none_left ready
  have late : t.cur.lazy = true := by rw [h.effect.cur]; exact lazily
  have value : toBytes n (storeData t o l n).toNat = toBytes n (readRegs b.pre o l (regsFor n)) := by
    rw [storeData, writable.pre h.effect, BitVec.toNat_ofNat]
    exact toBytes_mod (m := 16) short
  let u := t.modWave t.cur.wave (Wave.storing (· ++ b.storeParts o n p l))
  have stored : t.storeAt o.s l (p l) (toBytes n (storeData t o l n).toNat) false = u := by
    rw [State.storeAt, noMembers, value]
    show t.writeFor _ _ _ _ = _
    rw [State.writeFor, if_pos late, State.defer, (h.nothingEarly early).dropEarly, length_toBytes]
    have parts := (p l).unit_stores n (readRegs b.pre o l (regsFor n)) fun q bs => t.pend (t.actMask o.s l) q (.store bs false)
    rw [parts]
    have lanes : t.actMask o.s l = if o.s then b.mask else 1#32 <<< l := by rw [State.actMask, h.effect.mask]
    have pends : ∀ q e, t.pend (t.actMask o.s l) q e = b.leaves (if o.s then b.mask else 1#32 <<< l) q e := fun q e => by
      rw [State.pend, State.leaves, lanes, h.clk, h.effect.mask]
    simp only [pends]
    rfl
  refine ⟨u, ?_, h.then_ group.wave same⟩
  have after : ∀ k addr, u.notePage [] space k addr = u := fun k addr => by rw [State.notePage]; split <;> rfl
  simp only [Machine.storeBody, h.place placed, stored, noMembers, after]

end

/-- The address that an act of a store names: with `rank`, that of its lane's word among the group's (R251). -/
def State.storeAddr (s : State) (o : Ops) (space : Nat) (rank : Bool) (l : Nat) : DWord :=
  addrAB space (reader s.pre o l) + (if rank then BitVec.ofNat 64 (4 * ((lanesOf s.mask).filter (· < l)).length) else 0)

/-- A store whose acts are those of `storeBody`, in a pick that leaves accesses to be performed later. -/
theorem State.Clear.storesWait {s : State} {i : Instr} {o : Ops} {space n : Nat} {rank : Bool} {x : Act} {p : Nat → Place}
    (h : s.Clear i (loadSpans n space)) (runs : x.run = fun t l => storeBody o space n false t l (t.storeAddr o space rank l) (storeData t o l n))
    (moves : x.moves = false) (short : n ≤ 16) (members : s.members = 0) (lazily : s.cur.lazy = true) (early : s.NothingEarly)
    (placed : s.Placed o space 1 n (s.storeAddr o space rank) p) :
    ∃ t, acting i o (loadSpans n space) x s = .next t ∧ s.Outside t ∧ (t.At s.mask fun _ => s.nextPc) ∧
      s.Frame t i (loadSpans n space) { wave := Wave.storing fun xs => xs ++ (s.acts o).flatMap (s.storeParts o n p) } := by
  obtain ⟨soft, -⟩ := State.begun_soft h
  have group := h.group_begun
  have writable := h.writable
  have pre := State.begun_pre h
  have before := State.begun_outside h
  have goesOn := fun u c => h.goesOn (u := u) (c := c)
  have late : (s.begun i (loadSpans n space)).cur.lazy = true := by
    have same := congrArg Cur.lazy (State.begun_cur h)
    exact Eq.trans same lazily
  have early' : (s.begun i (loadSpans n space)).NothingEarly := fun l => by
    have kept : ((s.begun i (loadSpans n space)).w.lane l).early = (s.w.lane l).early := by have := congrArg Lane.early (soft.lane l).2.1; exact this
    rw [kept, early]
  refine State.run_answers h ?_
  generalize s.begun i (loadSpans n space) = b at *
  have ours : b.acts o = s.acts o := by simp only [State.acts, soft.mask_eq]
  have clk : b.clk = s.clk := by have := congrArg State.clk before; exact this
  have parts : b.storeParts o n p = s.storeParts o n p := by
    funext l
    simp only [State.storeParts, State.leaves, pre, clk, soft.mask_eq]
  obtain ⟨u, acts, waiting⟩ := State.actAll_outcomes (s := b) (o := o) (f := x.run) (e := fun _ => none)
    (fun acted t => b.Waiting t fun xs => xs ++ acted.flatMap (b.storeParts o n p)) (by simp only [List.flatMap_nil, List.append_nil]; exact .refl b) fun acted l t _ hl _ here => by
      refine ⟨by rw [here.effect.cur]; exact group.frozenLanes, ?_⟩
      have addr : t.storeAddr o space rank l = s.storeAddr o space rank l := by
        simp only [State.storeAddr, (writable.pre here.effect).trans pre, here.effect.mask.trans soft.mask_eq]
      rw [runs]
      dsimp only
      rw [addr]
      refine here.storeBody writable group (soft.members.trans members) late early' hl short (before.place soft.wave (placed l (ours ▸ hl)) 0) ?_
      rw [List.flatMap_append, List.append_assoc, List.flatMap_singleton]
  rw [moves, State.lanewise_completes _ acts, ← waiting.effect.mask]
  rw [ours, parts] at waiting
  obtain ⟨frame, goes⟩ := goesOn u _ waiting.effect (Change.own_storing _)
  exact ⟨(before.trans waiting.outside).advance _, goes, frame⟩

theorem exec_st (k : BitVec 3) (o : Ops) (s : State) : exec (.st k o) s = acting (.st k o) o (loadSpans (2 ^ k.toNat) 0) (storeAct k o 0) s := rfl
theorem exec_stt (k : BitVec 3) (o : Ops) (s : State) : exec (.stt k o) s = acting (.stt k o) o (loadSpans (2 ^ k.toNat) 1) (storeAct k o 1) s := rfl
theorem exec_stp (k : BitVec 3) (o : Ops) (s : State) : exec (.stp k o) s = acting (.stp k o) o (loadSpans (2 ^ k.toNat) 2) (storeAct k o 2) s := rfl
theorem exec_stc (o : Ops) (s : State) : exec (.stc o) s = acting (.stc o) o (loadSpans 4 0) (stcAct o) s := rfl

/-- The acts of ST, STT and STP. -/
theorem storeAct_run (k : BitVec 3) (o : Ops) (space : Nat) : (storeAct k o space).run = fun t l =>
    storeBody o space (2 ^ k.toNat) false t l (t.storeAddr o space false l) (storeData t o l (2 ^ k.toNat)) := by
  funext t l
  have addr : t.storeAddr o space false l = addrAB space (reader t.pre o l) := BitVec.add_zero _
  rw [addr]
  rfl

/-- The acts of STC. -/
theorem stcAct_run (o : Ops) : (stcAct o).run = fun t l => storeBody o 0 4 false t l (t.storeAddr o 0 true l) (storeData t o l 4) := rfl

/-! ## RED whose steps wait (R434, R216) -/

/-- The operand of an act of RED. -/
def State.redData (s : State) (o : Ops) (n l : Nat) : Nat := (reader s.pre o l (if n = 8 then .n else .w) .b).toNat

/-- The access that some acts of RED leave waiting at a place. -/
def State.redPend (s : State) (o : Ops) (c : Ctl) (m : BitVec 32) (p : Place) (ls : List Nat) : Pend :=
  s.leaves m p (.reduce c.sub.toNat c.type.toNat c.scope.toNat (ls.map (s.redData o (typeBytes c.type.toNat))))

/-- What a step of RED makes of the accesses that wait. -/
def State.joined (s : State) (m : BitVec 32) (p : Place) (sub type scope v : Nat) (xs : List Pend) : List Pend :=
  let same := fun (x : Pend) => x.clk == s.clk && x.group == s.mask && x.place == p
  if xs.any same then xs.map fun x => if same x then x.more m v else x else xs ++ [s.leaves m p (.reduce sub type scope [v])]

theorem exec_red (o : Ops) (c : Ctl) (s : State) :
    exec (.red o c) s = acting (.red o c) o (atomSpans (typeBytes c.type.toNat) c.space) (redAct o c) s := rfl

section
variable {b t : State} {o : Ops} {c : Ctl} {l : Nat} {p : Nat → Place}

/-- An act of RED whose step waits. -/
theorem State.Waiting.redAct {f : List Pend → List Pend} (h : b.Waiting t f) (writable : b.Writable) (lazily : b.cur.lazy = true)
    (early : b.NothingEarly) (plain : c.order.toNat < 2)
    (placed : b.place c.space 2 (typeBytes c.type.toNat) (addrA c.space (reader b.pre o l)) 0 = (b, .ok (p l))) :
    ∃ u, (Machine.redAct o c).run t l = done u ∧ b.Waiting u fun xs =>
      b.joined (if o.s then b.mask else 1#32 <<< l) (p l) c.sub.toNat c.type.toNat c.scope.toNat (b.redData o (typeBytes c.type.toNat) l) (f xs) := by
  have late : t.cur.lazy = true := by rw [h.effect.cur]; exact lazily
  have pre := writable.pre h.effect
  have value : (atomData t o l (typeBytes c.type.toNat)).toNat = b.redData o (typeBytes c.type.toNat) l := by
    rw [atomData, State.redData, pre]
    exact BitVec.toNat_setWidth_of_le (by decide)
  let g := b.joined (if o.s then b.mask else 1#32 <<< l) (p l) c.sub.toNat c.type.toNat c.scope.toNat (b.redData o (typeBytes c.type.toNat) l)
  have joins : t.deferReduction (t.actMask o.s l) (p l) c.sub.toNat c.type.toNat c.scope.toNat (b.redData o (typeBytes c.type.toNat) l) =
      t.modWave t.cur.wave (Wave.storing g) := by
    rw [State.deferReduction, (h.nothingEarly early).dropEarly, State.actMask, State.pend]
    simp only [h.clk, h.effect.mask]
    rfl
  refine ⟨_, ?_, h.then_ writable.there (g := g) rfl⟩
  rw [← joins, ← value]
  show (match (t.before c).place c.space 2 (typeBytes c.type.toNat) (addrA c.space (reader t.pre o l)) (atomData t o l (typeBytes c.type.toNat)) with
    | (s, .error e) => stop s e
    | (s, .ok p) => done (if s.cur.lazy then s.deferReduction (s.actMask o.s l) p c.sub.toNat c.type.toNat c.scope.toNat
          (atomData t o l (typeBytes c.type.toNat)).toNat
        else (s.meet s.cur.wave (s.actMask o.s l) p (typeBytes c.type.toNat)).reduceOn s.coreNo p c.sub.toNat c.type.toNat c.scope.toNat
          (atomData t o l (typeBytes c.type.toNat)).toNat)) = _
  rw [t.before_of_unordered plain, pre, h.place placed]
  dsimp only
  rw [if_pos late]

end

section
variable (b : State) (o : Ops) (c : Ctl) (p₀ : Place)

/-- A step at a place where no other waits. -/
theorem State.joined_apart {ls : List Nat} {m : Nat → BitVec 32} {p : Nat → Place} {l : Nat} (apart : ∀ j ∈ ls, p j ≠ p l) :
    b.joined (m l) (p l) c.sub.toNat c.type.toNat c.scope.toNat (b.redData o (typeBytes c.type.toNat) l)
        (ls.map fun j => b.redPend o c (m j) (p j) [j]) = (ls ++ [l]).map fun j => b.redPend o c (m j) (p j) [j] := by
  have none_there : (ls.map fun j => b.redPend o c (m j) (p j) [j]).any (fun x => x.clk == b.clk && x.group == b.mask && x.place == p l) = false := by
    simp only [List.any_map, List.any_eq_false, Function.comp_apply]
    intro j hj
    have other : ((b.redPend o c (m j) (p j) [j]).place == p l) = false := beq_eq_false_iff_ne.2 (apart j hj)
    simp [other]
  rw [State.joined]
  dsimp only
  rw [none_there, if_neg Bool.false_ne_true, List.map_append]
  rfl

/-- A step at a place where the steps before it wait. -/
theorem State.joined_same (m m' : BitVec 32) (ls : List Nat) (l : Nat) :
    b.joined m' p₀ c.sub.toNat c.type.toNat c.scope.toNat (b.redData o (typeBytes c.type.toNat) l) [b.redPend o c m p₀ ls] =
      [b.redPend o c (m ||| m') p₀ (ls ++ [l])] := by
  have there : ((b.redPend o c m p₀ ls).clk == b.clk && (b.redPend o c m p₀ ls).group == b.mask && (b.redPend o c m p₀ ls).place == p₀) = true := by
    simp [State.redPend, State.leaves]
  rw [State.joined]
  dsimp only
  simp only [List.any_cons, there, Bool.true_or, ↓reduceIte, List.map_cons, List.map_nil]
  simp [State.redPend, State.leaves, Pend.more]

/-- The first step at a place. -/
theorem State.joined_first (m : BitVec 32) (l : Nat) :
    b.joined m p₀ c.sub.toNat c.type.toNat c.scope.toNat (b.redData o (typeBytes c.type.toNat) l) [] = [b.redPend o c m p₀ [l]] := rfl

end

/-- The accesses that some acts of RED at one place leave waiting. -/
def State.redTogether (b : State) (o : Ops) (c : Ctl) (p₀ : Place) (acted : List Nat) : List Pend :=
  if acted = [] then [] else [b.redPend o c (if o.s then b.mask else maskOf acted) p₀ acted]

theorem State.redTogether_next (b : State) (o : Ops) (c : Ctl) (p₀ : Place) (acted : List Nat) (l : Nat) :
    b.joined (if o.s then b.mask else 1#32 <<< l) p₀ c.sub.toNat c.type.toNat c.scope.toNat (b.redData o (typeBytes c.type.toNat) l)
      (b.redTogether o c p₀ acted) = b.redTogether o c p₀ (acted ++ [l]) := by
  have some_left : acted ++ [l] ≠ [] := by simp
  rw [State.redTogether, State.redTogether, if_neg some_left]
  by_cases first : acted = []
  · subst first
    rw [if_pos rfl, State.joined_first]
    simp [maskOf]
  · rw [if_neg first, State.joined_same]
    cases o.s <;> simp [maskOf]

/-- RED in a pick that leaves accesses to be performed later. -/
theorem State.Clear.redsWait {s : State} {o : Ops} {c : Ctl} {p : Nat → Place} (h : s.Clear (.red o c) (atomSpans (typeBytes c.type.toNat) c.space))
    (lazily : s.cur.lazy = true) (orderly : s.Orderly) (plain : c.order.toNat < 2)
    (placed : s.Placed o c.space 2 (typeBytes c.type.toNat) (fun l => addrA c.space (reader s.pre o l)) p) {left : List Nat → List Pend}
    (first : left [] = [])
    (next : ∀ acted l, (∀ j ∈ acted, j ∈ s.acts o) → l ∈ s.acts o → l ∉ acted →
      s.joined (if o.s then s.mask else 1#32 <<< l) (p l) c.sub.toNat c.type.toNat c.scope.toNat (s.redData o (typeBytes c.type.toNat) l)
        (left acted) = left (acted ++ [l])) :
    ∃ t, exec (.red o c) s = .next t ∧ s.Outside t ∧ (t.At s.mask fun _ => s.nextPc) ∧
      s.Frame t (.red o c) (atomSpans (typeBytes c.type.toNat) c.space) { wave := Wave.storing fun _ => left (s.acts o) } := by
  obtain ⟨soft, -⟩ := State.begun_soft h
  have group := h.group_begun
  have writable := h.writable
  have pre := State.begun_pre h
  have before := State.begun_outside h
  have goesOn := fun u c => h.goesOn (u := u) (c := c)
  have orderly' := h.orderly_begun orderly
  have late : (s.begun (.red o c) (atomSpans (typeBytes c.type.toNat) c.space)).cur.lazy = true := by
    have same := congrArg Cur.lazy (State.begun_cur h)
    exact Eq.trans same lazily
  rw [exec_red]
  refine State.run_answers h ?_
  generalize s.begun (.red o c) (atomSpans (typeBytes c.type.toNat) c.space) = b at *
  have ours : b.acts o = s.acts o := by simp only [State.acts, soft.mask_eq]
  have clk : b.clk = s.clk := by have := congrArg State.clk before; exact this
  have joined : b.joined = s.joined := by
    funext m p sub type scope v xs
    simp only [State.joined, State.leaves, clk, soft.mask_eq]
  have data : b.redData = s.redData := by
    funext o n l
    simp only [State.redData, pre]
  obtain ⟨u, acts, waiting⟩ := State.actAll_outcomes (s := b) (o := o) (f := (redAct o c).run) (e := fun _ => none)
    (fun acted t => b.Waiting t fun _ => left acted) ((State.Waiting.refl b).congr (by rw [first, orderly'.stores]; rfl))
    fun acted l t sub hl fresh here => by
      refine ⟨by rw [here.effect.cur]; exact group.frozenLanes, ?_⟩
      obtain ⟨v, act, hv⟩ := here.redAct (l := l) (p := p) writable late orderly'.early plain
        (by rw [pre]; exact before.place soft.wave (placed l (ours ▸ hl)) 0)
      refine ⟨v, act, hv.congr ?_⟩
      rw [joined, data, soft.mask_eq, next acted l (fun j hj => ours ▸ sub j hj) (ours ▸ hl) fresh]
  have stays : (redAct o c).moves = false := rfl
  rw [stays, State.lanewise_completes _ acts, ← waiting.effect.mask]
  rw [ours] at waiting
  obtain ⟨frame, goes⟩ := goesOn u _ waiting.effect (Change.own_storing _)
  exact ⟨(before.trans waiting.outside).advance _, goes, frame⟩

end Sys2Proof.Machine

/-! # Loads of what came early

LD of places that each lane has loaded early (R198, R199). -/

namespace Sys2Proof.Machine

/-! ## Lanes of a mask of one -/

theorem lowest_bit {l : Nat} (hl : l < 32) : lowest (1#32 <<< l) = l := by
  have all : ∀ j : Fin 32, lowest (1#32 <<< j.val) = j.val := by decide
  exact all ⟨l, hl⟩

theorem Wave.modLanes_bit (w : Wave) {l : Nat} (hl : l < 32) (f : Lane → Lane) : w.modLanes (1#32 <<< l) (fun _ x => f x) = w.modLane l f := by
  simp only [Wave.modLanes, Wave.modLane, Tbl.mapAll, Tbl.mod]
  congr 1
  refine List.map_congr_left fun q _ => ?_
  simp only [getLsbD_bit hl, decide_eq_true_eq]
  split <;> rfl

theorem mem_lanesOf_bit {l : Nat} (hl : l < 32) (j : Nat) : j ∈ lanesOf (1#32 <<< l) ↔ j = l := by
  rw [mem_lanesOf, getLsbD_bit hl, decide_eq_true_eq]

/-! ## Loads of what a lane has loaded early (R198, R199) -/

theorem Place.meets_self (p : Place) {n : Nat} (some : 0 < n) : p.meets n p n = true := by
  cases p <;> simp [Place.meets, some]

/-- What a lane has loaded early, but for what an access of its own takes up. -/
def Lane.keepEarly (keep : Early → Bool) (x : Lane) : Lane := { x with early := x.early.filter keep }

theorem OwnLane.keepEarly (keep : Early → Bool) : OwnLane (Lane.keepEarly keep) where
  kept _ _ h := congrArg (Lane.keepEarly keep) h
  pc _ := rfl
  life _ := rfl
  v _ := rfl
  latch _ := rfl

/-- A lane that has loaded nothing early. -/
def Lane.forgotten (x : Lane) : Lane := { x with early := [] }

theorem OwnLane.forgotten : OwnLane Lane.forgotten where
  kept _ _ h := congrArg Lane.forgotten h
  pc _ := rfl
  life _ := rfl
  v _ := rfl
  latch _ := rfl

/-- The registers of a narrow or a wide value. -/
theorem wordAt_extend {n v j : Nat} (signed : Bool) (size : n = 1 ∨ n = 2 ∨ 4 ≤ n) (fits : v < 256 ^ n) (reg : j < regsFor n) :
    wordAt (extend n signed v) j = loadedWord n signed v j := by
  have narrow : ∀ m, m = 1 ∨ m = 2 → v < 256 ^ m → wordAt (extend m signed v) 0 = loadedWord m signed v 0 := fun m small below => by
    have short : ¬ 4 ≤ m := by omega
    have width : 2 ^ (8 * m) = 256 ^ m := by rw [Nat.pow_mul]
    refine BitVec.eq_of_toNat_eq ?_
    rw [extend, loadedWord, if_neg short, if_neg short, wordAt]
    cases signed with
    | false =>
      simp only [Bool.false_eq_true, false_and, ↓reduceIte, BitVec.toNat_ofNat, BitVec.toNat_setWidth, Nat.mul_zero, pow_zero, Nat.div_one, width,
        Nat.mod_eq_of_lt below]
    | true =>
      simp only [true_and, ↓reduceIte, BitVec.toNat_signExtend, BitVec.toNat_ofNat, BitVec.toNat_setWidth, Nat.mul_zero, pow_zero, Nat.div_one,
        BitVec.msb_eq_decide, decide_eq_true_eq, width, Nat.mod_eq_of_lt below]
      rcases small with rfl | rfl <;> split_ifs <;> omega
  rcases size with rfl | rfl | wide
  · rw [show j = 0 by simp only [regsFor] at reg; omega]; exact narrow 1 (.inl rfl) fits
  · rw [show j = 0 by simp only [regsFor] at reg; omega]; exact narrow 2 (.inr rfl) fits
  · rw [extend, loadedWord, if_pos wide, if_pos wide]

/-- Lanes that have taken up what they have loaded early. -/
def State.takenUp (acted : List Nat) (l : Nat) (x : Lane) : Lane := if l ∈ acted then x.forgotten else x

theorem OwnLane.takenUp (acted : List Nat) (l : Nat) : OwnLane (State.takenUp acted l) := by
  unfold State.takenUp
  split
  · exact .forgotten
  · exact .none

theorem exec_ld (k : BitVec 3) (o : Ops) (s : State) :
    exec (.ld k o) s = acting (.ld k o) o (loadSpans (loadForm k.toNat).1 0) (loadAct (.ld k o) k o 0) s := rfl

theorem opcodeOf_ld (k : BitVec 3) (o : Ops) : opcodeOf (.ld k o) = 5#3 ++ 0#3 ++ k := rfl

theorem isSwitch_ld (k : BitVec 3) (o : Ops) : isSwitch (.ld k o) = true := by
  have all : ∀ k : BitVec 3, 5 ≤ (5#3 ++ 0#3 ++ k).toNat / 64 := by decide
  simp only [isSwitch, classOf, opcodeOf_ld, all k, decide_true, Bool.true_or]

/-- What a lane has loaded early of n bytes at a place counts no more. -/
def Lane.dropping (p : Place) (n : Nat) : Lane → Lane := Lane.keepEarly fun e => !e.place.meets e.data.length p n

section
variable {t : State} {l n : Nat} {p : Place} {data : List Byte} (orderly : t.w.stores = []) (early : (t.w.lane l).early = [⟨p, data, false⟩])
  (small : l < 32) (size : data.length = n) (some : 0 < n)
include orderly early small size some

/-- An access meets what its lane has loaded early at its place. -/
theorem State.meet_early : t.meet t.cur.wave (1#32 <<< l) p n = t.modWave t.cur.wave fun w => w.modLane l (Lane.dropping p n) := by
  have none_wait : (t.wave t.cur.wave).stores = [] := orderly
  have loaded : ((t.wave t.cur.wave).lane l).early = [⟨p, data, false⟩] := early
  have meets : ((lanesOf (1#32 <<< l)).any fun j => ((t.wave t.cur.wave).lane j).early.any fun e => e.place.meets e.data.length p n) = true := by
    refine List.any_eq_true.2 ⟨l, (mem_lanesOf_bit small l).2 rfl, ?_⟩
    rw [loaded]
    simp [size, p.meets_self some]
  have performs : (t.performWanted t.cur.wave fun x => (x.lanes &&& 1#32 <<< l != 0) && x.meets p n) = t := by
    simp [State.performWanted, none_wait, firstWanted]
  rw [State.meet, performs, State.dropEarly, if_pos meets, State.modLanes]
  simp only [Lane.dropping, Lane.keepEarly, ← Wave.modLanes_bit _ small]

/-- A load of what its lane has loaded early takes it up (R199). -/
theorem State.readFor_early (near : p.foreign = true → n ≤ 8) :
    t.readFor (1#32 <<< l) p n false = (t.modWave t.cur.wave fun w => w.modLane l (Lane.dropping p n), data) := by
  have one : (p.foreign && n == 16) = false := by
    cases foreign : p.foreign with
    | false => rfl
    | true => have := near foreign; simp; omega
  have here : p.plus 0 = p := by cases p <;> rfl
  have found : (t.w.lane l).earlyAt p n false = .some data := by
    simp [Lane.earlyAt, early, size]
  have met := State.meet_early orderly early small size some
  simp only [State.readFor, lowest_bit small, early, List.isEmpty_cons, Bool.false_eq_true, ↓reduceIte, Place.units, one, List.foldl_cons,
    List.foldl_nil, State.readUnit, here, found, met, List.nil_append]

end

theorem map_getD_range {n : Nat} {data : List Byte} (size : data.length = n) : (List.range n).map (data.getD · 0) = data := by
  subst size
  refine List.ext_getElem (by simp) fun i _ hi => ?_
  rw [List.getElem_map, List.getElem_range, List.getD_eq_getElem _ _ hi]

/-- A load of an act for no member is a plain one. -/
theorem State.loadAt_of_no_members {t : State} {l n : Nat} {p : Place} {hoist : Bool} {u : State} {data : List Byte} (members : t.actMembers false l = [])
    (size : data.length = n) (read : t.readFor (1#32 <<< l) p n false = (u, data)) :
    t.loadAt false l p n false hoist = (u, some (fromBytes data)) := by
  have mask : t.actMask false l = 1#32 <<< l := rfl
  have bytes : ((List.range n).map fun i => (none : Option Byte).getD (data.getD i 0)) = data := map_getD_range size
  simp only [State.loadAt, members, List.isEmpty_nil, Bool.not_true, Bool.and_false, Bool.false_and, Bool.false_eq_true, ↓reduceIte, mask,
    read, bytes, List.foldl_nil, ite_self]

/-! ## LD of what each lane has loaded early -/

section
variable {b : State} {k : BitVec 3} {o : Ops} {p : Nat → Place} {data : Nat → List Byte}

/-- What LD writes to D, of bytes that each lane has loaded early. -/
def earlyWord (k : BitVec 3) (data : Nat → List Byte) (l j : Nat) : Word :=
  loadedWord (loadForm k.toNat).1 (loadForm k.toNat).2 (fromBytes (data l)) j

/-- What LD of bytes loaded early has changed where some lanes have acted. -/
def State.takes (b : State) (k : BitVec 3) (o : Ops) (data : Nat → List Byte) (acted : List Nat) : Change :=
  { b.putsIn (.ld k o) o (regsFor (loadForm k.toNat).1) (earlyWord k data) acted with lane := State.takenUp acted }

theorem State.own_takes (acted : List Nat) : (b.takes k o data acted).Own := ⟨.none, .takenUp acted⟩

theorem loadForm_size (k : BitVec 3) : (loadForm k.toNat).1 = 1 ∨ (loadForm k.toNat).1 = 2 ∨ 4 ≤ (loadForm k.toNat).1 := by
  revert k; decide

/-- The premises of LD of what the lanes of a group have loaded early. -/
structure State.LoadedEarly (b : State) (k : BitVec 3) (o : Ops) (p : Nat → Place) (data : Nat → List Byte) : Prop where
  group : b.Group
  writable : b.Writable
  members : b.members = 0
  vector : o.s = false
  stores : b.w.stores = []
  early : ∀ l, b.mask.getLsbD l = true → (b.w.lane l).early = [⟨p l, data l, false⟩]
  size : ∀ l, b.mask.getLsbD l = true → (data l).length = (loadForm k.toNat).1
  near : ∀ l, b.mask.getLsbD l = true → (p l).foreign = true → (loadForm k.toNat).1 ≤ 8
  placed : ∀ l, b.mask.getLsbD l = true → b.place 0 0 (loadForm k.toNat).1 (addrAB 0 (reader b.pre o l)) 0 = (b, .ok (p l))

/-- An act of LD of what its lane has loaded early. -/
theorem State.LoadedEarly.act (h : b.LoadedEarly k o p data) {acted : List Nat} {t : State} {l : Nat} (lane : b.mask.getLsbD l = true)
    (fresh : l ∉ acted) (outside : b.Outside t) (effect : b.Effect t (b.takes k o data acted)) :
    ∃ u, (loadAct (.ld k o) k o 0).run t l = done u ∧ b.Outside u ∧ b.Effect u (b.takes k o data (acted ++ [l])) := by
  have small : l < 32 := BitVec.lt_of_getLsbD lane
  have some : 0 < (loadForm k.toNat).1 := by have := loadForm_size k; omega
  have untouched : State.takenUp acted l (b.w.lane l) = b.w.lane l := if_neg fresh
  have early : (t.w.lane l).early = [⟨p l, data l, false⟩] := by
    have kept : (t.w.lane l).early = (State.takenUp acted l (b.w.lane l)).early := by have := congrArg Lane.early (effect.w.lanes l); exact this
    rw [kept, untouched, h.early l lane]
  have stores : t.w.stores = [] := by
    have kept : t.w.stores = b.w.stores := by have := congrArg Wave.stores effect.w.kept; exact this
    rw [kept, h.stores]
  have depth : ∀ {acted j x}, (State.takenUp acted j x).depth = x.depth := by
    intro acted j x
    rw [State.takenUp]; split <;> rfl
  have ready : ∀ {u : State} {c : Change}, b.Effect u c → (∀ l x, (c.lane l x).depth = x.depth) → (∀ l, c.moved l = false) →
      u.actMembers o.s l = [] := fun eff kept still => by
    refine State.no_actMembers ((eff.members kept still).trans h.members) fun _ => ⟨by rw [eff.mask]; exact lane, ?_⟩
    rw [(eff.w.still l (still l)).2]
    exact h.group.ready l lane
  have there := effect.isThere h.writable.there
  have has : (t.w.lanes.find? l).isSome = true := by rw [effect.w.has]; exact h.group.lanes l lane
  let u := t.modWave t.cur.wave fun w => w.modLane l (Lane.dropping (p l) (loadForm k.toNat).1)
  have drops : t.Effect u { lane := fun j x => if j = l then Lane.dropping (p l) (loadForm k.toNat).1 x else x } :=
    .modWave there (.ownLane t.w has (.keepEarly _))
  have ownDrop : ∀ j, OwnLane fun x => if j = l then Lane.dropping (p l) (loadForm k.toNat).1 x else x := fun j => by
    split
    · exact .keepEarly _
    · exact .none
  have read := State.readFor_early stores early small (h.size l lane) some (h.near l lane)
  have loaded : t.loadAt o.s l (p l) (loadForm k.toNat).1 false o.nw = (u, .some (fromBytes (data l))) := by
    have members := ready effect (fun _ _ => depth) fun _ => rfl
    rw [h.vector] at members ⊢
    exact State.loadAt_of_no_members members (h.size l lane) read
  have noMembers : u.actMembers o.s l = [] := by
    refine ready (effect.trans drops ⟨.none, ownDrop⟩) (fun j x => ?_) fun _ => rfl
    show (if j = l then Lane.dropping (p l) (loadForm k.toNat).1 (State.takenUp acted j x) else State.takenUp acted j x).depth = x.depth
    split
    · exact depth
    · exact depth
  have noted : (if o.nw then u.notePage (u.actMembers o.s l) 0 0 (addrAB 0 (reader t.pre o l)) else u) = u := by
    have none_noted : u.notePage [] 0 0 (addrAB 0 (reader t.pre o l)) = u := by rw [State.notePage]; split <;> rfl
    rw [noMembers, none_noted, ite_self]
  have placed : t.place 0 0 (loadForm k.toNat).1 (addrAB 0 (reader t.pre o l)) 0 = (t, .ok (p l)) := by
    rw [h.writable.pre effect]
    exact outside.place (congrArg Cur.wave effect.cur) (h.placed l lane) 0
  have fits : fromBytes (data l) < 256 ^ (loadForm k.toNat).1 := by
    have := fromBytes_lt (data l)
    rwa [h.size l lane] at this
  refine ⟨u.dst (.ld k o) o l (regsFor (loadForm k.toNat).1) (extend (loadForm k.toNat).1 (loadForm k.toNat).2 (fromBytes (data l))), ?_, ?_, ?_⟩
  · show loadBody (.ld k o) o 0 (loadForm k.toNat).1 (loadForm k.toNat).2 false o.nw t l (addrAB 0 (reader t.pre o l)) 0 = _
    simp only [loadBody, placed, loaded, noted]
  · have moved : t.Outside u := rfl
    exact (outside.trans moved).trans (State.WavesOnly.dst u o l _ _ (isSwitch_ld k o)).outside
  · have act : l ∈ b.acts o := by simp [State.acts, h.vector, mem_lanesOf, lane]
    refine (h.writable.dst_next (isSwitch_ld k o) ownDrop effect drops act fun j reg => wordAt_extend _ (loadForm_size k) fits reg).congr
      (fun _ _ => rfl) (fun _ => rfl) rfl (fun j => ?_) fun _ _ => rfl
    show State.takenUp (acted ++ [l]) j (b.w.lane j) =
      if j = l then Lane.dropping (p l) (loadForm k.toNat).1 (State.takenUp acted j (b.w.lane j)) else State.takenUp acted j (b.w.lane j)
    by_cases mine : j = l
    · subst mine
      have emptied : (Lane.dropping (p j) (loadForm k.toNat).1 (b.w.lane j)).early = [] := by
        simp [Lane.dropping, Lane.keepEarly, h.early j lane, h.size j lane, (p j).meets_self some]
      rw [if_pos rfl, untouched, State.takenUp, if_pos (by simp)]
      have same := congrArg (fun es => ({ b.w.lane j with early := es } : Lane)) emptied
      exact same.symm
    · rw [if_neg mine]
      simp [State.takenUp, mine]

end

/-- LD of places that the lanes have loaded early writes what they have loaded (R198, R199). -/
theorem State.Clear.loadsEarly {s : State} {k : BitVec 3} {o : Ops} {p : Nat → Place} {data : Nat → List Byte}
    (h : s.Clear (.ld k o) (loadSpans (loadForm k.toNat).1 0)) (members : s.members = 0) (vector : o.s = false) (stores : s.w.stores = [])
    (placed : s.Placed o 0 0 (loadForm k.toNat).1 (fun l => addrAB 0 (reader s.pre o l)) p)
    (early : ∀ l, s.mask.getLsbD l = true →
      (s.w.lane l).early = [⟨p l, data l, false⟩] ∧ (data l).length = (loadForm k.toNat).1 ∧ ((p l).foreign = true → (loadForm k.toNat).1 ≤ 8)) :
    ∃ t, exec (.ld k o) s = .next t ∧ s.Outside t ∧ (t.At s.mask fun _ => s.nextPc) ∧
      s.Frame t (.ld k o) (loadSpans (loadForm k.toNat).1 0)
        { s.puts (.ld k o) o (regsFor (loadForm k.toNat).1) (earlyWord k data) with
          lane := fun l x => if s.mask.getLsbD l then x.forgotten else x } := by
  obtain ⟨soft, -⟩ := State.begun_soft h
  have pre := State.begun_pre h
  have before := State.begun_outside h
  have goesOn := fun u c => h.goesOn (u := u) (c := c)
  have found : (s.begun (.ld k o) (loadSpans (loadForm k.toNat).1 0)).LoadedEarly k o p data := by
    refine ⟨h.group_begun, h.writable, soft.members.trans members, vector, ?_, fun l hl => ?_, fun l hl => ?_, fun l hl => ?_, fun l hl => ?_⟩
    · have kept : (s.begun (.ld k o) (loadSpans (loadForm k.toNat).1 0)).w.stores = s.w.stores := by
        have := congrArg Wave.stores soft.kept; exact this
      rw [kept, stores]
    all_goals rw [soft.mask_eq] at hl
    · have kept : ((s.begun (.ld k o) (loadSpans (loadForm k.toNat).1 0)).w.lane l).early = (s.w.lane l).early := by
        have := congrArg Lane.early (soft.lane l).2.1; exact this
      rw [kept, (early l hl).1]
    · exact (early l hl).2.1
    · exact (early l hl).2.2
    · rw [pre]
      exact before.place soft.wave (placed l (by simp [State.acts, vector, mem_lanesOf, hl])) 0
  rw [exec_ld]
  refine State.run_answers h ?_
  generalize s.begun (.ld k o) (loadSpans (loadForm k.toNat).1 0) = b at *
  have ours : b.acts o = s.acts o := by simp only [State.acts, soft.mask_eq]
  have lanes : ∀ l, l ∈ b.acts o ↔ b.mask.getLsbD l = true := fun l => by simp [State.acts, vector, mem_lanesOf]
  obtain ⟨u, acts, outside, effect⟩ := State.actAll_outcomes (s := b) (o := o) (f := (loadAct (.ld k o) k o 0).run) (e := fun _ => none)
    (fun acted t => b.Outside t ∧ b.Effect t (b.takes k o data acted))
    ⟨rfl, (State.Effect.none_written b _ _ _ _).congr (fun _ _ => rfl) (fun _ => rfl) rfl (fun l => by simp [State.takes, State.takenUp, State.putsIn]) fun _ _ => rfl⟩
    fun acted l t _ hl fresh here => by
      refine ⟨by rw [here.2.cur]; exact found.group.frozenLanes, ?_⟩
      obtain ⟨v, act, hv⟩ := found.act ((lanes l).1 hl) fresh here.1 here.2
      exact ⟨v, act, hv⟩
  have stays : (loadAct (.ld k o) k o 0).moves = false := rfl
  rw [stays, State.lanewise_completes _ acts, ← effect.mask]
  have whole : b.Effect u { s.puts (.ld k o) o (regsFor (loadForm k.toNat).1) (earlyWord k data) with
      lane := fun l x => if s.mask.getLsbD l then x.forgotten else x } :=
    State.Effect.all_written effect ours pre (fun _ _ => rfl) fun l => by
      simp only [State.takenUp, lanes, soft.mask_eq]
  have own : ∀ l, OwnLane fun x => if s.mask.getLsbD l then x.forgotten else x := fun l => by
    split
    · exact .forgotten
    · exact .none
  obtain ⟨frame, goes⟩ := goesOn u _ whole ⟨.none, own⟩
  exact ⟨(before.trans outside).advance _, goes, frame⟩

end Sys2Proof.Machine

/-! # Accesses performed later and loads made early

The steps that perform a waiting access or make a load early (R198, R200). -/

namespace Sys2Proof.Machine

/-! ## Accesses of a core, whatever the record of the clk -/

/-- The state with another record of the clk. -/
def State.recur (s : State) (r : Cur) : State := { s with cur := r }

theorem foldl_recur {α : Type} {f : State → α → State} {r : Cur} (step : ∀ s x, f (s.recur r) x = (f s x).recur r) (xs : List α) (s : State) :
    xs.foldl f (s.recur r) = (xs.foldl f s).recur r := by
  induction xs generalizing s with
  | nil => rfl
  | cons x xs ih => rw [List.foldl_cons, List.foldl_cons, step, ih]

section
variable (s : State) (r : Cur) (c : Nat)

theorem State.conflicts_recur (space who a n : Nat) : (s.recur r).conflicts space who a n = (s.conflicts space who a n).recur r := by
  unfold State.conflicts
  rw [apply_ite (State.recur · r)]
  exact if_congr Iff.rfl rfl (foldl_recur (fun _ _ => rfl) _ _)

theorem State.l2Write_recur (pa : Nat) (bs : List Byte) : (s.recur r).l2Write pa bs = (s.l2Write pa bs).recur r :=
  State.conflicts_recur { s with mem := Memory.writeBytes s.mem pa bs } r _ _ _ _

theorem State.l1Fill_recur (line : Nat) : (s.recur r).l1Fill c line = (s.l1Fill c line).recur r := by
  unfold State.l1Fill
  rw [apply_ite (State.recur · r)]
  rfl

theorem State.l1Clean_recur (line : Nat) : (s.recur r).l1Clean c line = (s.l1Clean c line).recur r := by
  have held : ((s.recur r).core c).l1.find? line = (s.core c).l1.find? line := rfl
  unfold State.l1Clean
  rw [held]
  cases (s.core c).l1.find? line with
  | none => rfl
  | some l =>
    dsimp only
    rw [apply_ite (State.recur · r)]
    rfl

theorem State.l1Evict_recur (line : Nat) : (s.recur r).l1Evict c line = (s.l1Evict c line).recur r := by
  unfold State.l1Evict
  rw [State.l1Clean_recur]
  rfl

theorem State.l1Renew_recur (line : Nat) : (s.recur r).l1Renew c line = (s.l1Renew c line).recur r := by
  unfold State.l1Renew
  rw [apply_ite (State.recur · r), State.l1Evict_recur, State.l1Fill_recur]
  rfl

theorem State.l1Write_recur (pa : Nat) (bs : List Byte) : (s.recur r).l1Write c pa bs = (s.l1Write c pa bs).recur r := by
  unfold State.l1Write
  dsimp only
  rw [apply_ite (State.recur · r), State.l1Fill_recur, State.l2Write_recur]
  rfl

theorem State.tmemWrite_recur (t off : Nat) (bs : List Byte) : (s.recur r).tmemWrite t off bs = (s.tmemWrite t off bs).recur r := by
  unfold State.tmemWrite
  dsimp only
  rw [apply_ite (State.recur · r), State.l2Write_recur, ← State.conflicts_recur]
  rfl

theorem State.dspWrite_recur (d off : Nat) (bs : List Byte) : (s.recur r).dspWrite d off bs = (s.dspWrite d off bs).recur r :=
  State.conflicts_recur (s.modDie d fun x => { x with dsp := padBytes off bs x.dsp }) r _ _ _ _

theorem State.writeOn_recur (p : Place) (bs : List Byte) (bypass : Bool) :
    (s.recur r).writeOn c p bs bypass = (s.writeOn c p bs bypass).recur r := by
  cases p with
  | mem pa =>
    cases bypass with
    | true =>
      show ((s.recur r).l1Evict c (pa / 128)).l2Write pa bs = ((s.l1Evict c (pa / 128)).l2Write pa bs).recur r
      rw [State.l1Evict_recur, State.l2Write_recur]
    | false => exact s.l1Write_recur r c pa bs
  | team t off => exact s.tmemWrite_recur r t off bs
  | die d off => exact s.dspWrite_recur r d off bs

theorem State.readOn_recur (p : Place) (n : Nat) (bypass : Bool) :
    (s.recur r).readOn c p n bypass = ((s.readOn c p n bypass).1.recur r, (s.readOn c p n bypass).2) := by
  cases p with
  | mem pa =>
    cases bypass with
    | true =>
      show ((s.recur r).l1Renew c (pa / 128), ((s.recur r).l1Renew c (pa / 128)).l2Read pa n) = _
      rw [State.l1Renew_recur]
      rfl
    | false =>
      show (s.recur r).l1Read c pa n = ((s.l1Read c pa n).1.recur r, (s.l1Read c pa n).2)
      unfold State.l1Read
      dsimp only
      rw [State.l1Fill_recur]
      have held : (((s.l1Fill c (pa / 128)).recur r).core c).l1.find? (pa / 128) = ((s.l1Fill c (pa / 128)).core c).l1.find? (pa / 128) := rfl
      rw [held]
      cases ((s.l1Fill c (pa / 128)).core c).l1.find? (pa / 128) <;> rfl
  | team t off => rfl
  | die d off => rfl

theorem State.dropCopies_recur (p : Place) (scope : Nat) : (s.recur r).dropCopies c p scope = (s.dropCopies c p scope).recur r := by
  cases p with
  | mem pa =>
    show (if scope = 5 then (s.recur r).evictEverywhere (pa / 128) else (s.recur r).l1Evict c (pa / 128)) =
      (if scope = 5 then s.evictEverywhere (pa / 128) else s.l1Evict c (pa / 128)).recur r
    rw [apply_ite (State.recur · r)]
    exact if_congr Iff.rfl (foldl_recur (fun u x => u.l1Evict_recur r x.1 (pa / 128)) _ _) (s.l1Evict_recur r c (pa / 128))
  | team t off => rfl
  | die d off => rfl

theorem State.reduceOn_recur (p : Place) (sub type scope b : Nat) :
    (s.recur r).reduceOn c p sub type scope b = (s.reduceOn c p sub type scope b).recur r := by
  unfold State.reduceOn
  dsimp only
  rw [State.dropCopies_recur, State.readOn_recur, State.writeOn_recur]

theorem State.apply_recur (p : Place) (e : Machine.Effect) : (s.recur r).apply c p e = (s.apply c p e).recur r := by
  cases e with
  | store data bypass => exact s.writeOn_recur r c p data bypass
  | reduce sub type scope bs => exact foldl_recur (fun u b => u.reduceOn_recur r c p sub type scope b) bs s

theorem State.land_recur (k : Nat) (x : Pend) : (s.recur r).land k x = (s.land k x).recur r := by
  have home : (s.recur r).coreOf k = s.coreOf k := rfl
  unfold State.land
  dsimp only
  rw [home, State.apply_recur, apply_ite (State.recur · r)]
  rfl

end

/-! ## Bytes that an access settles -/

/-- t is s but for bytes that its own core and wave have performed: `f` makes of the bytes that were settled those that are. -/
structure State.Settles (s t : State) (f : (Loc → Byte) → Loc → Byte) : Prop where
  rest : { t with waves := s.waves, cores := s.cores, mem := s.mem, teams := s.teams, dies := s.dies } = s
  calm : t.calm.waves = s.calm.waves
  l1 : ∀ c, { t.core c with l1 := (s.core c).l1 } = s.core c
  cores : ∀ c, c ≠ s.coreNo → t.core c = s.core c
  present : ∀ k, (t.teams.find? k).isSome = (s.teams.find? k).isSome
  teams : ∀ k, k ≠ s.tid → t.team k = s.team k
  team : { t.tm with tmem := s.tm.tmem } = s.tm
  dies : ∀ d, d ≠ s.dieNo → t.die d = s.die d
  die : { t.die s.dieNo with dsp := (s.die s.dieNo).dsp } = s.die s.dieNo
  settled : t.byteBy (t.settled s.coreNo) = f (s.byteBy (s.settled s.coreNo))

namespace State.Settles

variable {s t u : State} {f g : (Loc → Byte) → Loc → Byte}

theorem of_stored (h : s.Stored t f) : s.Settles t f := by
  have teams : t.teams = s.teams := by have := congrArg State.teams h.outside; exact this
  have dies : t.dies = s.dies := by have := congrArg State.dies h.outside; exact this
  have die : ∀ d, t.die d = s.die d := fun d => by simp only [State.die, dies]
  refine ⟨?_, h.calm, h.l1, h.others, fun k => by rw [teams], fun k _ => by simp only [State.team, teams], by rw [h.tm], fun d _ => die d,
    by rw [die], h.settled⟩
  have := congrArg (fun x : State => { x with teams := s.teams, dies := s.dies }) h.outside
  exact this

theorem refl (s : State) : s.Settles s id := .of_stored (.refl s)

section
variable (h : s.Settles t f)
include h

theorem cur : t.cur = s.cur := by have := congrArg State.cur h.rest; exact this
theorem tid : t.tid = s.tid := by rw [State.tid, h.cur]; rfl
theorem coreNo : t.coreNo = s.coreNo := by have := congrArg Team.core h.team; exact this
theorem dieNo : t.dieNo = s.dieNo := by rw [State.dieNo, h.coreNo]; rfl

theorem outsideMem : s.OutsideMem t := by
  refine ⟨?_, h.l1, h.teams, h.team, h.dies, h.die⟩
  have := congrArg (fun x : State => { x with cur := s.cur }) h.rest
  exact this

theorem congr (same : f (s.byteBy (s.settled s.coreNo)) = g (s.byteBy (s.settled s.coreNo))) : s.Settles t g :=
  { h with settled := h.settled.trans same }

theorem trans (h' : t.Settles u g) : s.Settles u (g ∘ f) where
  rest := Eq.trans (congrArg (fun x : State => { x with waves := s.waves, cores := s.cores, mem := s.mem, teams := s.teams, dies := s.dies }) h'.rest) h.rest
  calm := h'.calm.trans h.calm
  l1 c := Eq.trans (congrArg (fun x : Core => { x with l1 := (s.core c).l1 }) (h'.l1 c)) (h.l1 c)
  cores c hc := (h'.cores c (by rwa [h.coreNo])).trans (h.cores c hc)
  present k := (h'.present k).trans (h.present k)
  teams k hk := (h'.teams k (by rwa [h.tid])).trans (h.teams k hk)
  team := Eq.trans (congrArg (fun x : Team => { x with tmem := s.tm.tmem }) h'.team) h.team
  dies d hd := (h'.dies d (by rwa [h.dieNo])).trans (h.dies d hd)
  die := by
    have last := h'.die
    rw [h.dieNo] at last
    exact Eq.trans (congrArg (fun x : Die => { x with dsp := (s.die s.dieNo).dsp }) last) h.die
  settled := by
    have last := h'.settled
    rw [h.coreNo] at last
    rw [last, h.settled]
    rfl

end

end State.Settles

/-! ## Bytes of a place -/

namespace Place

variable (p : Place) (n : Nat)

theorem loc_injective {i j : Nat} (h : p.loc i = p.loc j) : i = j := by
  cases p <;> simpa [Place.loc] using h

theorem update_loc (v : Nat) (view : Loc → Byte) {j : Nat} (hj : j < n) : p.update n v view (p.loc j) = BitVec.ofNat 8 (v / 256 ^ j) := by
  rw [Place.update]
  cases found : (List.range n).find? fun i => p.loc i == p.loc j with
  | none =>
    have none_at := List.find?_eq_none.1 found j (List.mem_range.2 hj)
    exact absurd (beq_self_eq_true _) none_at
  | some i =>
    have same : p.loc i = p.loc j := by simpa using List.find?_some found
    rw [p.loc_injective same]

theorem update_apart (v : Nat) (view : Loc → Byte) {q : Loc} (apart : ∀ j < n, p.loc j ≠ q) : p.update n v view q = view q := by
  rw [Place.update]
  cases found : (List.range n).find? fun i => p.loc i == q with
  | none => rfl
  | some i =>
    have same : p.loc i = q := by simpa using List.find?_some found
    exact absurd same (apart i (List.mem_range.1 (List.mem_of_find?_eq_some found)))

/-- Views that agree on a place and apart from it. -/
theorem view_ext {view view' : Loc → Byte} (on : ∀ j < n, view (p.loc j) = view' (p.loc j)) (off : ∀ q, (∀ j < n, p.loc j ≠ q) → view q = view' q) :
    view = view' := by
  funext q
  by_cases h : ∃ j < n, p.loc j = q
  · obtain ⟨j, hj, rfl⟩ := h
    exact on j hj
  · exact off q fun j hj same => h ⟨j, hj, same⟩

theorem update_update (v v' : Nat) (view : Loc → Byte) : p.update n v' (p.update n v view) = p.update n v' view := by
  refine p.view_ext n (fun j hj => ?_) fun q apart => ?_
  · rw [p.update_loc n _ _ hj, p.update_loc n _ _ hj]
  · rw [p.update_apart n _ _ apart, p.update_apart n _ _ apart, p.update_apart n _ _ apart]

theorem value_lt (view : Loc → Byte) : p.value n view < 256 ^ n := by
  have := fromBytes_lt ((List.range n).map fun j => view (p.loc j))
  rwa [List.length_map, List.length_range] at this

theorem update_value (view : Loc → Byte) : p.update n (p.value n view) view = view := by
  refine p.view_ext n (fun j hj => ?_) fun q apart => p.update_apart n _ _ apart
  rw [p.update_loc n _ _ hj, Place.value]
  refine BitVec.eq_of_toNat_eq ?_
  rw [BitVec.toNat_ofNat, fromBytes_byte _ (by simpa using hj), List.getElem_map, List.getElem_range]

theorem value_update (v : Nat) (view : Loc → Byte) : p.value n (p.update n v view) = v % 256 ^ n := by
  have bytes : ((List.range n).map fun j => p.update n v view (p.loc j)) = toBytes n v := by
    refine List.map_congr_left fun j hj => ?_
    rw [p.update_loc n _ _ (List.mem_range.1 hj), pow_256, Nat.mul_comm]
  rw [Place.value, bytes, fromBytes_toBytes]

theorem update_mod (v : Nat) (view : Loc → Byte) : p.update n (v % 256 ^ n) view = p.update n v view := by
  have value := p.value_update n v view
  have := p.update_value n (p.update n v view)
  rwa [value, p.update_update] at this

end Place

theorem toBytes_fromBytes (bs : List Byte) : toBytes bs.length (fromBytes bs) = bs := by
  refine List.ext_getElem (length_toBytes _ _) fun i hi hi' => BitVec.eq_of_toNat_eq ?_
  have byte := fromBytes_byte bs hi'
  rw [pow_256, Nat.mul_comm] at byte
  simpa [toBytes] using byte

/-! ## Single accesses past the L1 -/

/-- What a write-back leaves of a line that it is of is clean. -/
theorem State.l1Clean_clean (s : State) (line : Nat) {l : L1Line} (held : ((s.l1Clean s.coreNo line).core s.coreNo).l1.find? line = some l) :
    l.dirty = 0 := by
  unfold State.l1Clean at held
  cases found : (s.core s.coreNo).l1.find? line with
  | none =>
    rw [found] at held
    rw [found] at held
    cases held
  | some x =>
    rw [found] at held
    dsimp only at held
    by_cases clean : x.dirty = 0
    · rw [if_pos clean, found] at held
      cases held
      exact clean
    · rw [if_neg clean] at held
      have core : ∀ u : State, (u.conflict 0 0 line).core s.coreNo = u.core s.coreNo := fun _ => rfl
      rw [core, State.find_l1_modL1, if_pos rfl, Tbl.find_mod, if_pos rfl] at held
      have same : ∀ m : List Host.Cell, State.core { s with mem := m } s.coreNo = s.core s.coreNo := fun _ => rfl
      rw [same, found] at held
      cases held
      rfl

/-- A line that is clean is dropped. -/
theorem State.dropped_settles {s : State} {line : Nat} (clean : ∀ l, (s.core s.coreNo).l1.find? line = some l → l.dirty = 0) :
    s.Settles (s.modL1 s.coreNo fun t => t.del line) id := by
  have core : ∀ c, c ≠ s.coreNo → (s.modL1 s.coreNo fun t => t.del line).core c = s.core c := fun c hc => by
    rw [State.core_modL1, if_neg (Ne.symm hc)]
  refine ⟨rfl, rfl, fun c => ?_, core, fun _ => rfl, fun _ _ => rfl, rfl, fun _ _ => rfl, rfl, ?_⟩
  · by_cases own : s.coreNo = c
    · subst own; rw [State.core_modL1, if_pos rfl]
    · rw [core c (Ne.symm own)]
  · refine congrArg s.byteBy (funext fun a => ?_)
    show (s.modL1 s.coreNo fun t => t.del line).settled s.coreNo a = s.settled s.coreNo a
    simp only [State.settled, State.find_l1_modL1, ↓reduceIte, Tbl.find_del]
    by_cases here : line = a / 128
    · subst here
      rw [if_pos rfl]
      cases held : (s.core s.coreNo).l1.find? (a / 128) with
      | none => rfl
      | some l => simp [clean l held]; rfl
    · rw [if_neg here]
      rfl

theorem State.evict_settles (s : State) (line : Nat) : s.Settles (s.l1Evict s.coreNo line) id ∧
    ((s.l1Evict s.coreNo line).core s.coreNo).l1.find? line = none := by
  have cleaned := State.Settles.of_stored (s.l1Clean_stored line)
  have clean := fun l => s.l1Clean_clean line (l := l)
  have home := cleaned.coreNo
  unfold State.l1Evict
  generalize s.l1Clean s.coreNo line = u at *
  rw [← home] at clean ⊢
  refine ⟨cleaned.trans (State.dropped_settles clean), ?_⟩
  rw [State.find_l1_modL1, if_pos rfl, Tbl.find_del, if_pos rfl]

/-! ## Accesses at a place, for the core that executes -/

/-- n bytes at a place that the executing wave's core, team or die holds: in one line, or in a team's memory that is on its core. -/
structure State.Near (s : State) (p : Place) (n : Nat) : Prop where
  line : ∀ pa, p = .mem pa → pa % 128 + n ≤ 128
  team : ∀ t off, p = .team t off → t = s.tid ∧ (s.team t).away = false
  die : ∀ d off, p = .die d off → d = s.dieNo

/-- Bytes can be performed there: a team whose memory it is is there. -/
structure State.Takes (s : State) (p : Place) (n : Nat) : Prop extends s.Near p n where
  present : ∀ t off, p = .team t off → (s.teams.find? t).isSome

theorem State.Settles.near {s t : State} {f : (Loc → Byte) → Loc → Byte} (h : s.Settles t f) {p : Place} {n : Nat} (near : s.Near p n) : t.Near p n := by
  refine ⟨near.line, fun k off e => ?_, fun d off e => by rw [h.dieNo]; exact near.die d off e⟩
  obtain ⟨rfl, home⟩ := near.team k off e
  have state : (t.team s.tid).state = (s.team s.tid).state := by
    have := congrArg Team.state h.team
    rw [State.tm, h.tid] at this
    exact this
  exact ⟨h.tid.symm, by rw [Team.away, state]; exact home⟩

theorem State.Settles.takes {s t : State} {f : (Loc → Byte) → Loc → Byte} (h : s.Settles t f) {p : Place} {n : Nat} (takes : s.Takes p n) :
    t.Takes p n :=
  ⟨h.near takes.toNear, fun k off e => by rw [h.present]; exact takes.present k off e⟩

/-- Bytes of a scratchpad that has been written, where they are read. -/
theorem get_padBytes_toBytes (off n v : Nat) (m : Tbl Byte) {j : Nat} (hj : j < n) :
    (padBytes off (toBytes n v) m).get (off + j) 0 = BitVec.ofNat 8 (v / 256 ^ j) := by
  rw [get_padBytes, length_toBytes, if_pos (by omega), Nat.add_sub_cancel_left, getD_toBytes v hj]

theorem State.present_modTeam (s : State) (t : Nat) (f : Team → Team) (k : Nat) :
    ((s.modTeam t f).teams.find? k).isSome = (s.teams.find? k).isSome := by
  show ((s.teams.mod t f).find? k).isSome = _
  rw [Tbl.find_mod]
  split
  · rw [Option.isSome_map]
  · rfl

/-- A write to the team's own memory. -/
theorem State.tmemWrite_settles {s : State} (home : s.tm.away = false) (present : (s.teams.find? s.tid).isSome) (off n v : Nat) :
    s.Settles (s.tmemWrite s.tid off (toBytes n v)) ((Place.team s.tid off).update n v) := by
  rw [State.tmemWrite_home home]
  let u := s.modTeam s.tid fun x => { x with tmem := padBytes off (toBytes n v) x.tmem }
  have team : u.team s.tid = { s.tm with tmem := padBytes off (toBytes n v) s.tm.tmem } := State.team_modTeam s _ present
  have others : ∀ k, k ≠ s.tid → u.team k = s.team k := fun k hk => State.team_modTeam_ne s _ (Ne.symm hk)
  have isThere : ∀ k, (u.teams.find? k).isSome = (s.teams.find? k).isSome := s.present_modTeam s.tid _
  have rest := u.conflicts_waves 1 s.tid off (toBytes n v).length
  have calm := congrArg State.waves (u.calm_conflicts 1 s.tid off (toBytes n v).length)
  generalize hx : u.conflicts 1 s.tid off (toBytes n v).length = x at *
  have teams : x.teams = u.teams := by have := congrArg State.teams rest; exact this
  have team' : x.team = u.team := by funext k; simp only [State.team, teams]
  have core : ∀ c, x.core c = s.core c := fun c => by have := congrArg (State.core · c) rest; exact this
  have die : ∀ d, x.die d = s.die d := fun d => by have := congrArg (State.die · d) rest; exact this
  have cur : x.cur = s.cur := by have := congrArg State.cur rest; exact this
  have tm : x.tm = { s.tm with tmem := padBytes off (toBytes n v) s.tm.tmem } := by
    rw [State.tm, State.tid, cur, team']
    exact team
  have settled : ∀ a, x.settled s.coreNo a = s.settled s.coreNo a := fun a => by
    have mem : x.mem = s.mem := by have := congrArg State.mem rest; exact this
    simp only [State.settled, core, mem]
  have dieNo : x.dieNo = s.dieNo := by rw [State.dieNo, State.coreNo, tm]; rfl
  refine ⟨?_, calm, fun c => by rw [core], fun c _ => core c, fun k => by rw [teams, isThere], fun k hk => by rw [team', others k hk], by rw [tm], fun d _ => die d,
    by rw [die], ?_⟩
  · have := congrArg (fun y : State => { y with waves := s.waves, cores := s.cores, mem := s.mem, teams := s.teams, dies := s.dies }) rest
    exact this
  · refine (Place.team s.tid off).view_ext n (fun j hj => ?_) fun ⟨space, a⟩ apart => ?_
    · rw [Place.update_loc _ n _ _ hj]
      show x.tm.tmem.get (off + j) 0 = _
      rw [tm]
      exact get_padBytes_toBytes off n v s.tm.tmem hj
    · rw [Place.update_apart _ n _ _ apart]
      match space with
      | 0 => exact settled a
      | 1 =>
        have out : ¬ (off ≤ a ∧ a < off + n) := fun inside => apart (a - off) (by omega) (by simp only [Place.loc]; congr 1; omega)
        show x.tm.tmem.get a 0 = s.tm.tmem.get a 0
        rw [tm]
        show (padBytes off (toBytes n v) s.tm.tmem).get a 0 = _
        rw [get_padBytes, length_toBytes, if_neg out]
      | 2 =>
        show (x.die x.dieNo).dsp.get a 0 = (s.die s.dieNo).dsp.get a 0
        rw [dieNo, die]
      | k + 3 => rfl

/-- A write to the die's own scratchpad. -/
theorem State.dspWrite_settles (s : State) (off n v : Nat) :
    s.Settles (s.dspWrite s.dieNo off (toBytes n v)) ((Place.die s.dieNo off).update n v) := by
  rw [State.dspWrite_eq]
  let u := s.modDie s.dieNo fun x => { x with dsp := padBytes off (toBytes n v) x.dsp }
  have own : u.die s.dieNo = { s.die s.dieNo with dsp := padBytes off (toBytes n v) (s.die s.dieNo).dsp } := by
    rw [State.die_modDie, if_pos rfl]
  have others : ∀ d, d ≠ s.dieNo → u.die d = s.die d := fun d hd => by rw [State.die_modDie, if_neg (Ne.symm hd)]
  have rest := u.conflicts_waves 2 s.dieNo off (toBytes n v).length
  have calm := congrArg State.waves (u.calm_conflicts 2 s.dieNo off (toBytes n v).length)
  generalize u.conflicts 2 s.dieNo off (toBytes n v).length = x at *
  have teams : x.teams = s.teams := by have := congrArg State.teams rest; exact this
  have team : ∀ k, x.team k = s.team k := fun k => by simp only [State.team, teams]
  have core : ∀ c, x.core c = s.core c := fun c => by have := congrArg (State.core · c) rest; exact this
  have die : ∀ d, x.die d = u.die d := fun d => by have := congrArg (State.die · d) rest; exact this
  have cur : x.cur = s.cur := by have := congrArg State.cur rest; exact this
  have tm : x.tm = s.tm := by rw [State.tm, State.tid, cur, team]; rfl
  have settled : ∀ a, x.settled s.coreNo a = s.settled s.coreNo a := fun a => by
    have mem : x.mem = s.mem := by have := congrArg State.mem rest; exact this
    simp only [State.settled, core, mem]
  have dieNo : x.dieNo = s.dieNo := by rw [State.dieNo, State.coreNo, tm]; rfl
  refine ⟨?_, calm, fun c => by rw [core], fun c _ => core c, fun k => by rw [teams], fun k _ => team k, by rw [tm],
    fun d hd => by rw [die, others d hd], by rw [die, own], ?_⟩
  · have := congrArg (fun y : State => { y with waves := s.waves, cores := s.cores, mem := s.mem, teams := s.teams, dies := s.dies }) rest
    exact this
  · refine (Place.die s.dieNo off).view_ext n (fun j hj => ?_) fun ⟨space, a⟩ apart => ?_
    · rw [Place.update_loc _ n _ _ hj]
      show (x.die x.dieNo).dsp.get (off + j) 0 = _
      rw [dieNo, die, own]
      exact get_padBytes_toBytes off n v (s.die s.dieNo).dsp hj
    · rw [Place.update_apart _ n _ _ apart]
      match space with
      | 0 => exact settled a
      | 1 =>
        show x.tm.tmem.get a 0 = s.tm.tmem.get a 0
        rw [tm]
      | 2 =>
        have out : ¬ (off ≤ a ∧ a < off + n) := fun inside => apart (a - off) (by omega) (by simp only [Place.loc]; congr 1; omega)
        show (x.die x.dieNo).dsp.get a 0 = (s.die s.dieNo).dsp.get a 0
        rw [dieNo, die, own]
        show (padBytes off (toBytes n v) (s.die s.dieNo).dsp).get a 0 = _
        rw [get_padBytes, length_toBytes, if_neg out]
      | k + 3 => rfl

section
variable {s : State} {p : Place} {n : Nat}

/-- A write at a place, through the L1 or past it (R195). -/
theorem State.Takes.write (near : s.Takes p n) (v : Nat) (bypass : Bool) : s.Settles (s.writeOn s.coreNo p (toBytes n v) bypass) (p.update n v) := by
  cases p with
  | mem pa =>
    have line := near.line pa rfl
    cases bypass with
    | false => exact .of_stored (State.l1Write_stored v line)
    | true =>
      obtain ⟨evicted, gone⟩ := s.evict_settles (pa / 128)
      show s.Settles ((s.l1Evict s.coreNo (pa / 128)).l2Write pa (toBytes n v)) _
      have home := evicted.coreNo
      generalize s.l1Evict s.coreNo (pa / 128) = u at *
      rw [← home] at gone
      exact evicted.trans (.of_stored (State.miss_stored v line gone))
  | team t off =>
    obtain ⟨rfl, home⟩ := near.team t off rfl
    exact State.tmemWrite_settles home (near.present _ off rfl) off n v
  | die d off =>
    obtain rfl := near.die d off rfl
    exact s.dspWrite_settles off n v

/-- What is read at a place past an L1 that does not hold its line. -/
theorem State.Near.read (near : s.Near p n) (gone : ∀ pa, p = .mem pa → (s.core s.coreNo).l1.find? (pa / 128) = none) :
    (s.readOn s.coreNo p n true).1 = s ∧ fromBytes (s.readOn s.coreNo p n true).2 = p.value n (s.byteBy (s.settled s.coreNo)) := by
  cases p with
  | mem pa =>
    have absent := gone pa rfl
    have misses : s.l1Has s.coreNo (pa / 128) = false := by rw [State.l1Has, absent]; rfl
    have renew : s.l1Renew s.coreNo (pa / 128) = s := by rw [State.l1Renew, misses, if_neg Bool.false_ne_true]
    have read : s.readOn s.coreNo (.mem pa) n true = (s, s.l2Read pa n) := by
      show (s.l1Renew s.coreNo (pa / 128), (s.l1Renew s.coreNo (pa / 128)).l2Read pa n) = _
      rw [renew]
    have inLine := near.line pa rfl
    rw [read]
    refine ⟨rfl, congrArg fromBytes (List.map_congr_left fun j hj => ?_)⟩
    have below := List.mem_range.1 hj
    show _ = s.settled s.coreNo (pa + j)
    rw [State.settled, show (pa + j) / 128 = pa / 128 by omega, absent]
  | team t off =>
    obtain ⟨rfl, home⟩ := near.team t off rfl
    refine ⟨rfl, ?_⟩
    show fromBytes (s.tmemRead s.tid off n) = _
    rw [State.tmemRead, if_neg (by rw [home]; exact Bool.false_ne_true)]
    rfl
  | die d off =>
    obtain rfl := near.die d off rfl
    exact ⟨rfl, rfl⟩

end

/-- Copies of a line leave the executing core's L1 below fabric scope. -/
theorem State.dropCopies_settles (s : State) (p : Place) {scope : Nat} (below : scope ≠ 5) :
    s.Settles (s.dropCopies s.coreNo p scope) id ∧
      ∀ pa, p = .mem pa → ((s.dropCopies s.coreNo p scope).core s.coreNo).l1.find? (pa / 128) = none := by
  cases p with
  | mem pa =>
    have drops : s.dropCopies s.coreNo (.mem pa) scope = s.l1Evict s.coreNo (pa / 128) := if_neg below
    rw [drops]
    obtain ⟨evicted, gone⟩ := s.evict_settles (pa / 128)
    exact ⟨evicted, fun a e => by cases e; exact gone⟩
  | team t off => exact ⟨.refl s, fun _ e => by cases e⟩
  | die d off => exact ⟨.refl s, fun _ e => by cases e⟩

/-- One step of a reduction below fabric scope (R200). -/
theorem State.Takes.reduce {s : State} {p : Place} {type scope : Nat} (near : s.Takes p (typeBytes type)) (below : scope ≠ 5) (sub b : Nat) :
    s.Settles (s.reduceOn s.coreNo p sub type scope b)
      (fun view => p.update (typeBytes type) (atomOp sub type (p.value (typeBytes type) view) b) view) := by
  obtain ⟨dropped, gone⟩ := s.dropCopies_settles p below
  unfold State.reduceOn
  dsimp only
  have home := dropped.coreNo
  generalize s.dropCopies s.coreNo p scope = u at *
  rw [← home] at gone ⊢
  obtain ⟨same, read⟩ := (dropped.near near.toNear).read gone
  have view := dropped.settled
  rw [← home] at view
  rw [same, read]
  refine (dropped.trans ((dropped.takes near).write _ true)).congr ?_
  rw [Function.comp_apply, id_eq, view, home]
  rfl

/-- The value that reductions leave at a place of n bytes. -/
def reducedValue (sub type : Nat) (v : Nat) (bs : List Nat) : Nat := bs.foldl (fun v b => atomOp sub type v b % 2 ^ (8 * typeBytes type)) v

/-- Reductions below fabric scope, one after another. -/
theorem State.Takes.reduceAll {s : State} {p : Place} {type scope : Nat} (near : s.Takes p (typeBytes type)) (below : scope ≠ 5) (sub : Nat)
    (bs : List Nat) :
    s.Settles (bs.foldl (fun s' b => s'.reduceOn s.coreNo p sub type scope b) s)
      (fun view => p.update (typeBytes type) (reducedValue sub type (p.value (typeBytes type) view) bs) view) := by
  suffices h : ∀ (bs : List Nat) (t : State) (v : Nat), v < 256 ^ typeBytes type → s.Settles t (p.update (typeBytes type) v) →
      s.Settles (bs.foldl (fun s' b => s'.reduceOn s.coreNo p sub type scope b) t) (p.update (typeBytes type) (reducedValue sub type v bs)) by
    have start : s.Settles s (p.update (typeBytes type) (p.value (typeBytes type) (s.byteBy (s.settled s.coreNo)))) :=
      (State.Settles.refl s).congr (p.update_value _ _).symm
    exact (h bs s _ (p.value_lt _ _) start).congr rfl
  intro bs
  induction bs with
  | nil => exact fun t v _ ht => ht
  | cons b bs ih =>
    intro t v small ht
    have width : 2 ^ (8 * typeBytes type) = 256 ^ typeBytes type := by rw [Nat.pow_mul]
    have step := (ht.takes near).reduce below sub b
    rw [ht.coreNo] at step
    refine ih _ _ (by rw [width]; exact Nat.mod_lt _ (by positivity)) ((ht.trans step).congr ?_)
    simp only [Function.comp_apply, Place.value_update, Nat.mod_eq_of_lt small, Place.update_update, width, Place.update_mod]

/-- What an effect makes of the value at its place. -/
def Pend.newValue (x : Pend) (view : Loc → Byte) : Nat :=
  match x.effect with
  | .store data _ => fromBytes data
  | .reduce sub type _ bs => reducedValue sub type (x.place.value (typeBytes type) view) bs

/-- What a waiting access does at its place (R198, R200). -/
theorem State.Takes.apply {s : State} {x : Pend} (near : s.Takes x.place x.effect.size) (below : ∀ sub type bs, x.effect ≠ .reduce sub type 5 bs) :
    s.Settles (s.apply s.coreNo x.place x.effect) fun view => x.place.update x.effect.size (x.newValue view) view := by
  obtain ⟨m, p, e, clk, group⟩ := x
  cases e with
  | store data bypass =>
    have near : s.Takes p data.length := near
    have written := near.write (fromBytes data) bypass
    rw [toBytes_fromBytes] at written
    exact written
  | reduce sub type scope bs => exact State.Takes.reduceAll near (fun e => below sub type bs (by rw [e])) sub bs

/-- Of the lanes that made an access its own conflicts are left out (R278). -/
theorem State.calm_unflagged (s : State) (k : Nat) (m : BitVec 32) (flag : Nat → Bool) :
    (s.modLanes k m fun l y => { y with conflict := flag l }).calm.waves = s.calm.waves := by
  simp only [State.calm, State.modLanes, State.modWave, Tbl.mapAll, Tbl.mod, List.map_map]
  refine List.map_congr_left fun q _ => ?_
  simp only [Function.comp_apply]
  split
  · simp only [Wave.modLanes, Tbl.mapAll, List.map_map]
    refine congrArg (Prod.mk q.1) (congrArg (fun ls => ({ q.2 with lanes := ls } : Wave)) (List.map_congr_left fun y _ => ?_))
    simp only [Function.comp_apply]
    split <;> rfl
  · rfl

theorem State.Takes.land {s : State} {x : Pend} (near : s.Takes x.place x.effect.size) (below : ∀ sub type bs, x.effect ≠ .reduce sub type 5 bs) :
    s.Settles (s.land s.cur.wave x) fun view => x.place.update x.effect.size (x.newValue view) view := by
  have applied := near.apply below
  have home : s.coreOf s.cur.wave = s.coreNo := rfl
  unfold State.land
  rw [home]
  dsimp only
  split
  · exact { applied with calm := (State.calm_unflagged _ _ _ _).trans applied.calm }
  · exact applied

/-- A load of the executing core at a place: what it reads, and that it settles nothing. -/
theorem State.Near.load {s : State} {p : Place} {n : Nat} (near : s.Near p n) (bypass : Bool) :
    s.Settles (s.readOn s.coreNo p n bypass).1 id ∧ (s.readOn s.coreNo p n bypass).2.length = n ∧
      fromBytes (s.readOn s.coreNo p n bypass).2 = p.value n (s.byteBy ((if bypass then s.settled else s.seen) s.coreNo)) := by
  cases p with
  | mem pa =>
    have line := near.line pa rfl
    cases bypass with
    | false =>
      have read : s.readOn s.coreNo (.mem pa) n false = (s.l1Fill s.coreNo (pa / 128), (List.range n).map fun i => s.seen s.coreNo (pa + i)) :=
        s.l1Read_eq s.coreNo line
      rw [read]
      exact ⟨.of_stored (s.fill_stored _), by simp, rfl⟩
    | true =>
      have read : s.readOn s.coreNo (.mem pa) n true = (s.l1Renew s.coreNo (pa / 128), (s.l1Renew s.coreNo (pa / 128)).l2Read pa n) := rfl
      rw [read]
      have length : ((s.l1Renew s.coreNo (pa / 128)).l2Read pa n).length = n := Memory.length_readBytes _ _ _
      suffices h : s.Settles (s.l1Renew s.coreNo (pa / 128)) id ∧
          ∀ j < n, Memory.read (s.l1Renew s.coreNo (pa / 128)).mem (pa + j) = s.settled s.coreNo (pa + j) from
        ⟨h.1, length, congrArg fromBytes (List.map_congr_left fun j hj => h.2 j (List.mem_range.1 hj))⟩
      unfold State.l1Renew
      by_cases holds : s.l1Has s.coreNo (pa / 128) = true
      · rw [if_pos holds]
        obtain ⟨evicted, gone⟩ := s.evict_settles (pa / 128)
        have home := evicted.coreNo
        have settled := fun a => congrFun evicted.settled ⟨0, a⟩
        generalize s.l1Evict s.coreNo (pa / 128) = u at *
        have filled := u.fill_stored (pa / 128)
        have mem : (u.l1Fill s.coreNo (pa / 128)).mem = u.mem := by rw [State.l1Fill_eq]; split <;> rfl
        refine ⟨evicted.trans (.of_stored (home ▸ filled)), fun j hj => ?_⟩
        have same : u.settled s.coreNo (pa + j) = s.settled s.coreNo (pa + j) := settled (pa + j)
        rw [mem, ← same, State.settled, show (pa + j) / 128 = pa / 128 by omega, gone]
      · rw [if_neg holds]
        refine ⟨.refl s, fun j hj => ?_⟩
        have gone : (s.core s.coreNo).l1.find? (pa / 128) = none := Option.not_isSome_iff_eq_none.1 holds
        rw [State.settled, show (pa + j) / 128 = pa / 128 by omega, gone]
  | team t off =>
    obtain ⟨rfl, home⟩ := near.team t off rfl
    have read : s.readOn s.coreNo (.team s.tid off) n bypass = (s, (List.range n).map fun i => (s.team s.tid).tmem.get (off + i) 0) := by
      show (s, s.tmemRead s.tid off n) = _
      rw [State.tmemRead, if_neg (by rw [home]; exact Bool.false_ne_true)]
    rw [read]
    exact ⟨.refl s, by simp, rfl⟩
  | die d off =>
    obtain rfl := near.die d off rfl
    exact ⟨.refl s, by simp [State.readOn, State.dspRead], rfl⟩

/-! ## The steps that perform an access or make a load early (R198) -/

/-- What a wave of the state before is, but for conflicts. -/
theorem State.Settles.wave {s t : State} {f : (Loc → Byte) → Loc → Byte} (h : s.Settles t f) (k : Nat) :
    (t.waves.find? k).map Wave.calm = (s.waves.find? k).map Wave.calm := by
  rw [← State.find_calm, ← State.find_calm, h.calm]

theorem State.Settles.wave_calm {s t : State} {f : (Loc → Byte) → Loc → Byte} (h : s.Settles t f) (k : Nat) :
    (t.wave k).calm = (s.wave k).calm := by
  rw [← State.wave_calm, ← State.wave_calm]
  simp only [State.wave, h.calm]

section
variable {s : State} {k n : Nat} {xs : List Input} (second : s.cur.second = none) (boot : s.mod.boot = .running)
include second boot

/-- An access does not come before an older one of its lanes or of its instruction (R199). -/
theorem step_perform_waits {x : Pend} (inputs : s.inputs = .perform k n :: xs) (waits : (s.wave k).stores[n]? = some x)
    (older : (((s.wave k).stores.take n).any fun y => y.before x) = true) : step s = .next { s with inputs := xs, cur := Cur.none } := by
  rw [step_of_input second inputs (by rw [boot]; rfl)]
  show Host.Outcome.next (({ s with inputs := xs, cur := Cur.none } : State).perform k n) = _
  have waits' : (({ s with inputs := xs, cur := Cur.none } : State).wave k).stores[n]? = some x := waits
  simp only [State.perform, waits']
  rw [if_pos]
  exact older

/-- An access that no older one comes before is performed, and waits no more. -/
theorem step_performs {x : Pend} (inputs : s.inputs = .perform k n :: xs) (there : (s.waves.find? k).isSome)
    (waits : (s.wave k).stores[n]? = some x) (older : (((s.wave k).stores.take n).any fun y => y.before x) = false)
    (near : (s.from' k).Takes x.place x.effect.size) (below : ∀ sub type bs, x.effect ≠ .reduce sub type 5 bs) :
    ∃ t, step s = .next t ∧ (t.wave k).stores = (s.wave k).stores.eraseIdx n ∧ t.inputs = xs ∧
      (s.from' k).OutsideMem { (t.from' k) with inputs := s.inputs } ∧ (∀ c, c ≠ s.coreOf k → t.core c = s.core c) ∧
      (t.from' k).byteBy (t.settled (s.coreOf k)) =
        x.place.update x.effect.size (x.newValue ((s.from' k).byteBy (s.settled (s.coreOf k)))) ((s.from' k).byteBy (s.settled (s.coreOf k))) := by
  let m : State := { (s.from' k) with inputs := xs }
  have lands : m.Settles (m.land k x) _ := State.Takes.land (s := m) ⟨⟨near.line, near.team, near.die⟩, near.present⟩ below
  have performs : ({ s with inputs := xs, cur := Cur.none } : State).land k x = (m.land k x).recur Cur.none := m.land_recur Cur.none k x
  have wave := lands.wave k
  have calm := lands.wave_calm k
  have cur := lands.cur
  have outside := lands.outsideMem
  have cores := lands.cores
  have settled := lands.settled
  have inputs' : (m.land k x).inputs = xs := by have := congrArg State.inputs lands.rest; exact this
  generalize m.land k x = v at *
  have isThere : ((v.recur Cur.none).waves.find? k).isSome = true := by
    show (v.waves.find? k).isSome = true
    rw [← Option.isSome_map (f := Wave.calm), wave, Option.isSome_map]
    exact there
  refine ⟨(v.recur Cur.none).modWave k fun w => { w with stores := w.stores.eraseIdx n }, ?_, ?_, inputs', ?_, cores, ?_⟩
  · rw [step_of_input second inputs (by rw [boot]; rfl), ← performs]
    have waits' : (({ s with inputs := xs, cur := Cur.none } : State).wave k).stores[n]? = some x := waits
    show Host.Outcome.next (({ s with inputs := xs, cur := Cur.none } : State).perform k n) = _
    simp only [State.perform, waits']
    rw [if_neg]
    exact fun some => by rw [show (((s.wave k).stores.take n).any fun y => y.before x) = true from some] at older; cases older
  · rw [State.wave_modWave _ _ isThere]
    have stores : (v.wave k).stores = (s.wave k).stores := by have := congrArg Wave.stores calm; exact this
    show (v.wave k).stores.eraseIdx n = _
    rw [stores]
  · obtain ⟨rest, l1, teams, team, dies, die⟩ := outside
    have own : v.tm = v.team (k / 64) := by rw [State.tm, State.tid, cur]; rfl
    refine ⟨?_, l1, teams, ?_, dies, die⟩
    · have := congrArg (fun y : State => { y with inputs := s.inputs }) rest
      exact this
    · rw [own] at team
      exact team
  · have own : v.cur = { Cur.none with wave := k } := cur
    have here : ({ v with cur := { Cur.none with wave := k } } : State) = v := by rw [← own]
    have bytes : (v.from' k).byteBy (v.settled (s.coreOf k)) = v.byteBy (v.settled (s.coreOf k)) := by
      rw [State.from', here]
    refine Eq.trans bytes ?_
    exact settled

/-- A load that no access of its lane that waits, and nothing that the lane has loaded early, touches is made early (R198). -/
theorem step_loadsEarly {l : Nat} {p : Place} {bypass : Bool} (inputs : s.inputs = .loadEarly k l p n bypass :: xs) (resident : s.residentWave k = true)
    (has : ((s.wave k).lanes.find? l).isSome) (ready : ((s.wave k).lane l).life = .ready)
    (apart : ∀ y ∈ (s.wave k).stores, y.lanes.getLsbD l = true → y.place.meets y.effect.size p n = false)
    (fresh : ∀ e ∈ ((s.wave k).lane l).early, e.place.meets e.data.length p n = false) (some : 0 < n) (short : n ≤ 16)
    (halves : p.foreign = true → n ≤ 8) (near : (s.from' k).Near p n) :
    ∃ t, step s = .next t ∧ t.inputs = xs ∧
      (∃ data, ((t.wave k).lane l).early = ((s.wave k).lane l).early ++ [⟨p, data, bypass⟩] ∧ data.length = n ∧
        fromBytes data = p.value n ((s.from' k).byteBy ((if bypass then s.settled else s.seen) (s.coreOf k)))) ∧
      ∀ a, t.settled (s.coreOf k) a = s.settled (s.coreOf k) a := by
  let m : State := { (s.from' k) with inputs := xs }
  have load := State.Near.load (s := m) ⟨near.line, near.team, near.die⟩ bypass
  have reads : ({ s with inputs := xs, cur := Cur.none } : State).readOn (s.coreOf k) p n bypass =
      ((m.readOn (s.coreOf k) p n bypass).1.recur Cur.none, (m.readOn (s.coreOf k) p n bypass).2) := m.readOn_recur Cur.none (s.coreOf k) p n bypass
  have home : m.coreNo = s.coreOf k := rfl
  rw [home] at load
  obtain ⟨settles, length, value⟩ := load
  have untouched : ((s.wave k).stores.any fun y => y.lanes.getLsbD l && y.meets p n) = false := by
    simp only [List.any_eq_false, Bool.and_eq_true, not_and]
    exact fun y hy lane => by rw [Pend.meets, apart y hy lane]; exact Bool.false_ne_true
  have unread : (((s.wave k).lane l).early.any fun e => e.place.meets e.data.length p n) = false := by
    simp only [List.any_eq_false]
    exact fun e he => by rw [fresh e he]; exact Bool.false_ne_true
  have parts : (p.foreign && decide (8 < n)) = false := by
    cases foreign : p.foreign with
    | false => rfl
    | true => have := halves foreign; simp; omega
  generalize m.readOn (s.coreOf k) p n bypass = r at *
  obtain ⟨u, data⟩ := r
  have calm := settles.wave_calm k
  have wave := settles.wave k
  have there : (s.waves.find? k).isSome = true := by
    simp only [State.residentWave, Bool.and_eq_true] at resident
    exact resident.2
  have isThere : ((u.recur Cur.none).waves.find? k).isSome = true := by
    show (u.waves.find? k).isSome = true
    rw [← Option.isSome_map (f := Wave.calm), wave, Option.isSome_map]
    exact there
  have has' : ((u.wave k).lanes.find? l).isSome = true := by
    have same := congrArg (fun w : Wave => (w.lanes.find? l).isSome) calm
    simp only [Wave.find_calm, Option.isSome_map] at same
    rw [same]
    exact has
  have early : ((u.wave k).lane l).early = ((s.wave k).lane l).early := by
    have same := congrArg (fun w : Wave => (w.lane l).early) calm
    simp only [Wave.lane_calm] at same
    exact same
  have inputs' : u.inputs = xs := by have := congrArg State.inputs settles.rest; exact this
  refine ⟨(u.recur Cur.none).modLane k l fun x => { x with early := x.early ++ [{ place := p, data := data, bypass := bypass }] }, ?_, inputs',
    ⟨data, ?_, length, value⟩, fun a => congrFun settles.settled ⟨0, a⟩⟩
  · rw [step_of_input second inputs (by rw [boot]; rfl)]
    show Host.Outcome.next (if s.residentWave k = true then ({ s with inputs := xs, cur := Cur.none } : State).loadEarly k l p n bypass
      else { s with inputs := xs, cur := Cur.none }) = _
    have same : ({ s with inputs := xs, cur := Cur.none } : State).wave k = s.wave k := rfl
    have core : ({ s with inputs := xs, cur := Cur.none } : State).coreOf k = s.coreOf k := rfl
    rw [if_pos resident, State.loadEarly]
    simp only [same, core, ready, untouched, unread, parts, reads]
    rw [if_neg (by simp; omega)]
  · rw [State.modLane, State.wave_modWave _ _ isThere]
    show ((u.wave k).modLane l _ |>.lane l).early = _
    rw [Wave.lane_modLane, if_pos ⟨rfl, has'⟩]
    show ((u.wave k).lane l).early ++ _ = _
    rw [early]

end

/-! ## The obligation -/

/-- Settles O25: what waits is a change of the wave's own list, a step performs one access of it at its core, and what a lane has loaded early is
what its load reads. -/
theorem accessesOutOfOrder : Obligations.AccessesOutOfOrder := by
  unfold Obligations.AccessesOutOfOrder
  refine ⟨?_, ?_, ?_, ?_, ?_⟩
  · rintro i o space n rank s p (⟨k, small, rfl, rfl, store⟩ | ⟨rfl, rfl, rfl, rfl, -⟩) h members lazily early placed
    · have short : 2 ^ k.toNat ≤ 16 := Nat.pow_le_pow_right (by decide) small
      obtain ⟨rfl, rfl⟩ | ⟨rfl, rfl⟩ | ⟨rfl, rfl⟩ := store
      · rw [exec_st]; exact h.storesWait (storeAct_run k o 0) rfl short members lazily early placed
      · rw [exec_stt]; exact h.storesWait (storeAct_run k o 1) rfl short members lazily early placed
      · rw [exec_stp]; exact h.storesWait (storeAct_run k o 2) rfl short members lazily early placed
    · rw [exec_stc]; exact h.storesWait (stcAct_run o) rfl (by decide) members lazily early placed
  · intro o c s p h _ lazily orderly plain placed
    refine ⟨fun apart => ?_, fun p₀ same => ?_⟩
    · refine h.redsWait lazily orderly plain placed (left := fun acted => acted.map fun l => s.redPend o c (if o.s then s.mask else 1#32 <<< l) (p l) [l])
        rfl fun acted l sub hl fresh => s.joined_apart o c fun j hj together => fresh ?_
      rw [← apart j (sub j hj) l hl together]
      exact hj
    · obtain ⟨t, executes, outside, goes, frame⟩ := h.redsWait lazily orderly plain placed (left := s.redTogether o c p₀) rfl
        fun acted l _ hl _ => by rw [same l hl, s.redTogether_next]
      have some_acts : s.acts o ≠ [] := by
        obtain ⟨l, hl⟩ := exists_lane h.some
        exact List.ne_nil_of_mem (State.mem_acts (o := o) hl)
      have lanes : (if o.s then s.mask else maskOf (s.acts o)) = s.mask := by
        cases hs : o.s
        · simp [State.acts, hs, maskOf_lanesOf]
        · rfl
      rw [State.redTogether, if_neg some_acts, lanes] at frame
      exact ⟨t, executes, outside, goes, frame⟩
  · intro s k n xs x second inputs boot there waits
    refine ⟨fun older => step_perform_waits second boot inputs waits older, fun older line team die below => ?_⟩
    have near : (s.from' k).Takes x.place x.effect.size :=
      ⟨⟨line, fun t off e => ⟨(team t off e).1, (team t off e).2.1⟩, die⟩, fun t off e => (team t off e).2.2⟩
    obtain ⟨t, steps, stores, rest, outside, cores, bytes⟩ := step_performs second boot inputs there waits older near below
    refine ⟨t, steps, stores, rest, outside, cores, fun q => (congrFun bytes q).trans ?_⟩
    unfold Pend.newValue
    rfl
  · intro s k l p n bypass xs second inputs boot resident has ready apart fresh some short halves _ line team die
    have home : (s.team (k / 64)).away = false := by
      simp only [State.residentWave, Bool.and_eq_true, beq_iff_eq] at resident
      rw [Team.away, resident.1]
      rfl
    exact step_loadsEarly second boot inputs resident has ready apart fresh some short halves
      ⟨line, fun t off e => ⟨team t off e, by rw [team t off e]; exact home⟩, die⟩
  · intro k o s p data _ h members vector stores n placed early
    exact h.loadsEarly members vector stores placed early

end Sys2Proof.Machine
